-- ==== Sys2Proof/Word.lean ====
section
/-!
DEFINITION. The plain data the model is written over: words, bytes, finite maps kept as sorted lists, and the
register-number types of the operand fields (spec/00 R2-R4, spec/04 R76).
-/
namespace Sys2Proof

/-- One byte of memory or of a pool. -/
abbrev Byte := BitVec 8

/-- A scalar register or a control register (spec/01 R14). -/
abbrev Word := BitVec 64

/-- A vector register, 512 bits (spec/01 R14). -/
abbrev Vec := BitVec 512

/-- A finite map from numbers to data, kept as a list with strictly rising keys and no entry equal to the
default an unlisted key reads as. Memory is such a map from addresses to bytes. -/
abbrev Map (α : Type) := List (Nat × α)

/-- Bytes by address; an unlisted address reads as zero (log 1). -/
abbrev Memory := Map Byte

/-- Number of a scalar register `s0`-`s31`. -/
abbrev SReg := BitVec 5
/-- Number of a vector register `v0`-`v31`. -/
abbrev VReg := BitVec 5
/-- Number of a guard predicate `g0`-`g7`. -/
abbrev GReg := BitVec 3
/-- Number of a lane mask `k0`-`k7`. -/
abbrev KReg := BitVec 3
/-- Number of an accumulator tile `a0`-`a7`. -/
abbrev AReg := BitVec 3

/-- A strand of the device, as cluster x 256 + core x 4 + strand (bits 11:0 of R196's strand address). -/
abbrev StrandId := Nat
/-- A core of the device, as cluster x 64 + core. -/
abbrev CoreId := Nat

end Sys2Proof
end

