-- ==== Sys2Proof/Machine/Maps.lean ====
section
/-!
DEFINITION. Finite maps and byte memories: reading and writing one entry, reading and writing a little-endian quantity, and the
canonical form. Byte order is decided here, once (spec/00 R2).
-/
namespace Sys2Proof.Machine

variable {α : Type}

/-- The entry of a key, the default where the key is not listed. -/
def mget (d : α) : Map α → Nat → α
  | [], _ => d
  | (a, v) :: r, k => if a = k then v else mget d r k

/-- Is the key listed? -/
def mhas : Map α → Nat → Bool
  | [], _ => false
  | (a, _) :: r, k => a == k || mhas r k

/-- The map without a key. -/
def mdel : Map α → Nat → Map α
  | [], _ => []
  | (a, v) :: r, k => if a = k then mdel r k else (a, v) :: mdel r k

/-- Insert before the first greater key. -/
def mins (k : Nat) (v : α) : Map α → Map α
  | [] => [(k, v)]
  | (a, w) :: r => if k < a then (k, v) :: (a, w) :: r else (a, w) :: mins k v r

/-- Give a key an entry. -/
def mput (m : Map α) (k : Nat) (v : α) : Map α := mins k v (mdel m k)

/-- Write the entry of a key; the default is not listed. -/
def mset [DecidableEq α] (d : α) (m : Map α) (k : Nat) (v : α) : Map α :=
  if v = d then mdel m k else mput m k v

/-- Change the entry of a key. -/
def mmod (d : α) (m : Map α) (k : Nat) (f : α → α) : Map α := mput m k (f (mget d m k))

/-- Strictly rising keys. -/
def mrising : Map α → Bool
  | [] => true
  | [_] => true
  | (a, _) :: (b, w) :: r => a < b && mrising ((b, w) :: r)

/-- The canonical form of a byte memory: strictly rising addresses and no zero byte listed. -/
def Memory.wf (m : Memory) : Bool := mrising m && m.all fun c => c.2 != 0

/-- The byte at an address; zero where nothing has been written (log 1). -/
def byteAt (m : Memory) (a : Nat) : Byte := mget 0 m a

/-- Write one byte. -/
def setByte (m : Memory) (a : Nat) (v : Byte) : Memory := mset 0 m a v

/-- The little-endian quantity of `n` bytes at an address. -/
def readLE (m : Memory) (a : Nat) : Nat → Nat
  | 0 => 0
  | n + 1 => (byteAt m a).toNat + 256 * readLE m (a + 1) n

/-- Write the low `n` bytes of a quantity, little-endian. -/
def writeLE (m : Memory) (a : Nat) : Nat → Nat → Memory
  | 0, _ => m
  | n + 1, v => writeLE (setByte m a (BitVec.ofNat 8 v)) (a + 1) n (v / 256)

/-- Write those bytes of a quantity whose bit of the mask is set. -/
def writeMasked (m : Memory) (a : Nat) : Nat → Nat → Nat → Memory
  | 0, _, _ => m
  | n + 1, v, k =>
      writeMasked (if k % 2 = 1 then setByte m a (BitVec.ofNat 8 v) else m) (a + 1) n (v / 256) (k / 2)

/-- The bytes of a range, taken from entries that start at or after it. -/
def expand : Memory → Nat → Nat → List Byte
  | _, _, 0 => []
  | [], a, n + 1 => 0 :: expand [] (a + 1) n
  | (k, b) :: r, a, n + 1 => if k = a then b :: expand r (a + 1) n else 0 :: expand ((k, b) :: r) (a + 1) n

/-- The bytes of a range in one pass over a canonical memory. -/
def readBytes (m : Memory) (a n : Nat) : List Byte := expand (m.filter fun c => a ≤ c.1 && c.1 < a + n) a n

/-- The non-zero bytes of a list as cells. -/
def cellsOf (a : Nat) : List Byte → Memory
  | [] => []
  | b :: bs => if b = 0 then cellsOf (a + 1) bs else (a, b) :: cellsOf (a + 1) bs

/-- Replace a range by a list of bytes in one pass over a canonical memory. -/
def writeBytes (m : Memory) (a : Nat) (bs : List Byte) : Memory :=
  m.filter (fun c => c.1 < a) ++ cellsOf a bs ++ m.filter fun c => a + bs.length ≤ c.1

/-- Zero a range. -/
def clearRange (m : Memory) (a n : Nat) : Memory := m.filter fun c => c.1 < a || a + n ≤ c.1

/-- A little-endian quantity as its bytes. -/
def bytesOf : Nat → Nat → List Byte
  | 0, _ => []
  | n + 1, v => BitVec.ofNat 8 v :: bytesOf n (v / 256)

/-- Bytes as a little-endian quantity. -/
def leOf : List Byte → Nat
  | [] => 0
  | b :: bs => b.toNat + 256 * leOf bs

/-- Bits [lo + w - 1 : lo] of a number. -/
def bits (n lo w : Nat) : Nat := n / 2 ^ lo % 2 ^ w

/-- Replace bits [lo + w - 1 : lo] of a number. -/
def setBits (n lo w v : Nat) : Nat := n - bits n lo w * 2 ^ lo + v % 2 ^ w * 2 ^ lo

/-- One bit of a word as a truth value. -/
def bitOf (n i : Nat) : Bool := n / 2 ^ i % 2 == 1

/-- A truth value as 0 or 1. -/
def bnat (b : Bool) : Nat := if b then 1 else 0

/-- Replace the entry of a list at an index, where there is one. -/
def lset : List α → Nat → α → List α
  | [], _, _ => []
  | _ :: r, 0, v => v :: r
  | a :: r, n + 1, v => a :: lset r n v

/-- The entry of a list at an index, or the default. -/
def lget (d : α) : List α → Nat → α
  | [], _ => d
  | a :: _, 0 => a
  | _ :: r, n + 1 => lget d r n

/-- The list without its entry at an index. -/
def ldel : List α → Nat → List α
  | [], _ => []
  | _ :: r, 0 => r
  | a :: r, n + 1 => a :: ldel r n

/-- The numbers from `a`, `n` of them. -/
def upFrom (a : Nat) : Nat → List Nat
  | 0 => []
  | n + 1 => a :: upFrom (a + 1) n

end Sys2Proof.Machine
end

