-- ==== Sys2Proof/Syntax.lean ====
section
/-!
DEFINITION. The instructions and the device steps, one constructor per row of spec/opcode_table.json. A constructor that
is an instruction carries the common fields (spec/04 R71) first and then its operand fields as the decoder read them. A
constructor that is a device step (spec/95) carries what the outside world contributes to that step.
-/
namespace Sys2Proof

/-- The LEN field (spec/04 R68). -/
inductive Len where
  | l64
  | l96
  | l128
  deriving DecidableEq, Repr

/-- The fields that every instruction shares (spec/04 R71): length, kill point, SET counter, WAIT counters and guard. -/
structure Common where
  len : Len
  kpt : Bool
  set : BitVec 3
  wait : BitVec 6
  neg : Bool
  gp : BitVec 3
  deriving DecidableEq, Repr

/-- Element types of the TY field (spec/02 R33); code 15 is no type. -/
inductive Ty where
  | s8 | s16 | s32 | s64 | z8 | z16 | z32 | z64 | f16 | bf16 | f32 | gbf | mxi8 | mxf8 | bit
  deriving DecidableEq, Repr

/-- The T function's operation (spec/05 R88, R90). -/
inductive DivKind where
  | div | divz | rem | remz
  deriving DecidableEq, Repr

/-- Index selection of ADDX, FN[3:2] (spec/05 R88). -/
inductive IdxKind where
  | whole | sext32 | zext32
  deriving DecidableEq, Repr

/-- Width of BSWAP (spec/05 R91). -/
inductive SwapWidth where
  | d | w | h
  deriving DecidableEq, Repr

/-- Width of SEXT and ZEXT (spec/05 R91). -/
inductive ExtWidth where
  | b | h | w
  deriving DecidableEq, Repr

/-- MOV's four functions with their operand classes (spec/05 R91). -/
inductive MovOp where
  | ss (dst src : SReg)
  | ks (dst : KReg) (src : SReg)
  | sk (dst : SReg) (src : KReg)
  | kk (dst src : KReg)
  deriving DecidableEq, Repr

/-- Conditions of CMP and CMPI (spec/05 R93). -/
inductive Cond where
  | eq | ne | lt | ge | le | gt | ltz | gez | lez | gtz | any | none
  deriving DecidableEq, Repr

/-- Conditions of FCMP (spec/05 R100). -/
inductive FCond where
  | eq | lt | le | un
  deriving DecidableEq, Repr

/-- Conditions of VCMP (spec/07 R142, R145). -/
inductive VCond where
  | eq | ne | lt | ge | le | gt | un
  deriving DecidableEq, Repr

/-- LI's destination (spec/05 R97). -/
inductive LiDst where
  | s (r : SReg)
  | k (r : KReg)
  deriving DecidableEq, Repr

/-- PMOV's three functions (spec/05 R103). -/
inductive PmovOp where
  | move (dst src : GReg) (na : Bool)
  | sg (dst : SReg)
  | gs (src : SReg)
  deriving DecidableEq, Repr

/-- The trip-count register of LOOP (spec/05 R106). -/
inductive LoopSrc where
  | s (r : SReg)
  | mb (r : BitVec 3)
  deriving DecidableEq, Repr

/-- The address-space field AS (spec/04 R78). -/
inductive Space where
  | glob | own | clus
  deriving DecidableEq, Repr

/-- The scopes of SCOPE and of the FN of FENCE, BAR and ICINV (spec/04 R78). -/
inductive Scope where
  | strand | core | cluster | basin | device | cascade
  deriving DecidableEq, Repr

/-- Index width of LDG and STG (spec/06 R127). -/
inductive IdxWidth where
  | w8 | w16 | w32 | w64
  deriving DecidableEq, Repr

/-- The fields of a gather or scatter beside its registers (spec/06 R127). -/
structure Gather where
  km : KReg
  ok : KReg
  fk : KReg
  iw : IdxWidth
  isg : Bool
  scl : BitVec 3
  as : Space
  nbnd : Bool
  fill : Bool
  fr : SReg
  deriving DecidableEq, Repr

/-- VBCAST's source (spec/07 R153). -/
inductive BcastOp where
  | reg (src : SReg)
  | imm (v : BitVec 64)
  | lane (src : VReg) (l : BitVec 6)
  deriving DecidableEq, Repr

/-- VDIST's function (spec/07 R157). -/
inductive DistFn where
  | l2 | ip | ham
  deriving DecidableEq, Repr

/-- AMO's function (spec/09 R197, R198). -/
inductive AmoFn where
  | add | and | or | xor | min | max | swap
  deriving DecidableEq, Repr

/-- The HALF field of FENCE (spec/09 R197): 1 REL, 2 ACQ, 3 BOTH. -/
inductive Half where
  | rel | acq | both
  deriving DecidableEq, Repr

/-- The engines that issue tickets (spec/09 R208). -/
inductive Engine where
  | copy | topk | tab
  deriving DecidableEq, Repr

/-- Score orders of a top-k stream (spec/09 R212). -/
inductive TopkFn where
  | fd | fa | id | ia
  deriving DecidableEq, Repr

/-- A store of cached copies (spec/13 R259, spec/06 R133, spec/20 R333): a core data cache, an L2 slice, an instruction
cache, a core or cluster TLB. -/
inductive CacheUnit where
  | dcache (core : CoreId)
  | l2 (cl : Nat)
  | icache (core : CoreId)
  | tlbCore (core : CoreId)
  | tlbCluster (cl : Nat)
  deriving DecidableEq, Repr

/-- How a link's training ends (spec/22 R367, R372): the lanes or channels found, their rate, and whether that is the full rate. -/
structure TrainInput where
  partner : Bool
  mismatch : Bool
  timeout : Bool
  width : BitVec 8
  rate : BitVec 16
  full : Bool
  deriving DecidableEq, Repr

/-- What the outside contributes to a power-up (spec/22 R366, R382): which stacks and whether the host link train, how the other ports train, the faults that
self-test finds as repair entries without a spare, the cores and the unit that it finds beyond repair, and the descriptor the management controller writes for context 0 (spec/20 R319). -/
structure PowerUpInput where
  stacksUp : BitVec 8
  hostUp : Bool
  ports : List (Nat × TrainInput)
  faults : List Word
  badCores : List CoreId
  badUnit : Bool
  ctx0 : BitVec 512
  deriving DecidableEq, Repr

/-- A RoCE v2 request that arrives at the responder, on a queue pair, perhaps ECN-marked (spec/22 R376). -/
structure RoceRequest where
  port : Nat
  qp : Nat
  ecn : Bool
  icrcOk : Bool
  supported : Bool
  write : Bool
  rkey : BitVec 32
  addr : Word
  len : Nat
  data : List Byte
  deriving DecidableEq, Repr

/-- What another device asks of this one for a strand of its own (spec/09 R195-R207, spec/20 R321): a signal, a mutex or its return, the withdrawal of a queued request,
whether a handle is granted, a message, a register, or a lock at near-tier memory and its return. -/
inductive CascadeReq where
  | evsig (h v : Word) (clr : Bool)
  | acquire (h : Word)
  | release (h : Word)
  | withdraw (what : Word)
  | check (h : Word)
  | send (target : Word) (payload : Vec)
  | rdrem (target : Word) (ofs : Nat)
  | lock (pa : Nat)
  | unlock (pa : Nat)
  deriving DecidableEq, Repr

/-- A message that a flit carries (spec/22 R373 gives no form): the answer to a strand's request, none where it was refused; a request, with its sender's
strand address, its context's cascade domain and the time it carries (spec/21 R355); an access to near-tier memory; or a kill (spec/15 R304). -/
inductive CascadeMsg where
  | answer (k : StrandId) (v : Option Word) (time : Nat)
  | request (cdom : Nat) (sender : Word) (time : Nat) (r : CascadeReq)
  | read (pa n : Nat)
  | write (pa : Nat) (data : List Byte)
  | atomic (fn : AmoFn) (t : Ty) (pa v : Nat)
  | kill (target record : Word) (pid : Nat) (kpc : Option Word) (time : Nat)
  deriving DecidableEq, Repr

/-- What a flit carries: its bytes, and the messages that they are. -/
structure FlitBody where
  bytes : List Byte
  msgs : List CascadeMsg
  deriving DecidableEq, Repr

/-- A virtual channel of a link. -/
structure FlitFlow where
  unit : Nat
  vc : Nat
  deriving DecidableEq, Repr

/-- A received Ethernet frame: whether its FCS is right, and the quanta for which it pauses priorities (spec/22 R375). -/
structure EthFrame where
  fcsOk : Bool
  pause : List (Nat × Nat)
  deriving DecidableEq, Repr

/-- Where a Sync comes from: the port that received it and its sender (spec/22 R377). -/
structure SyncSource where
  port : Nat
  master : Nat
  deriving DecidableEq, Repr

/-- Who meets an uncorrected error, with the address of its own access (spec/22 R379, spec/09 R225). -/
inductive ErrConsumer where
  | strand (k : StrandId) (tval : Word)
  | engine (faddr : Nat)
  | walk (k : StrandId) (row faddr : Nat)
  | writeback
  deriving DecidableEq, Repr

/-- Where an error lies (spec/22 R381): its kind, the unit's SRC, the address space code and the address. -/
structure ErrSite where
  kind : BitVec 8
  src : BitVec 14
  space : BitVec 4
  addr : Nat
  deriving DecidableEq, Repr

/-- An SPDM request that arrives over the DOE mailbox (spec/22 R386). -/
inductive SpdmRequest where
  | getVersion
  | getCapabilities
  | negotiateAlgorithms
  | getDigests
  | getCertificate
  | getMeasurements (nonce : List Byte)
  | other (code : BitVec 8)
  deriving DecidableEq, Repr

/-- The instructions and device steps, one constructor per row of spec/opcode_table.json, in the table's order. -/
inductive Instr where
  | add (c : Common) (dst sa sb : SReg)
  | sub (c : Common) (dst sa sb : SReg)
  | mul (c : Common) (dst sa sb : SReg)
  | mulh (c : Common) (dst sa sb : SReg)
  | mulhz (c : Common) (dst sa sb : SReg)
  | div (c : Common) (dst sa sb : SReg)
  | divz (c : Common) (dst sa sb : SReg)
  | rem (c : Common) (dst sa sb : SReg)
  | remz (c : Common) (dst sa sb : SReg)
  | divT (c : Common) (op : DivKind) (dst sa sb : SReg)
  | addx (c : Common) (idx : IdxKind) (sh : BitVec 2) (dst sa sb : SReg)
  | and (c : Common) (dst sa sb : SReg)
  | or (c : Common) (dst sa sb : SReg)
  | xor (c : Common) (dst sa sb : SReg)
  | shl (c : Common) (dst sa sb : SReg)
  | shr (c : Common) (dst sa sb : SReg)
  | sra (c : Common) (dst sa sb : SReg)
  | min (c : Common) (dst sa sb : SReg)
  | max (c : Common) (dst sa sb : SReg)
  | minz (c : Common) (dst sa sb : SReg)
  | maxz (c : Common) (dst sa sb : SReg)
  | clz (c : Common) (dst sa : SReg)
  | ctz (c : Common) (dst sa : SReg)
  | popc (c : Common) (dst sa : SReg)
  | bswap (c : Common) (wd : SwapWidth) (dst sa : SReg)
  | sext (c : Common) (wd : ExtWidth) (dst sa : SReg)
  | zext (c : Common) (wd : ExtWidth) (dst sa : SReg)
  | mov (c : Common) (op : MovOp)
  | sel (c : Common) (dst sa sb : SReg) (gs : GReg) (ns : Bool)
  | cmp (c : Common) (cond : Cond) (pt : GReg) (sa sb : SReg) (pf : GReg)
  | addi (c : Common) (dst sa : SReg) (imm : BitVec 32)
  | andi (c : Common) (dst sa : SReg) (imm : BitVec 32)
  | ori (c : Common) (dst sa : SReg) (imm : BitVec 32)
  | xori (c : Common) (dst sa : SReg) (imm : BitVec 32)
  | cmpi (c : Common) (cond : Cond) (pt : GReg) (sa : SReg) (pf : GReg) (imm : BitVec 32)
  | shli (c : Common) (dst sa : SReg) (amt : BitVec 6)
  | shri (c : Common) (dst sa : SReg) (amt : BitVec 6)
  | srai (c : Common) (dst sa : SReg) (amt : BitVec 6)
  | li (c : Common) (dst : LiDst) (imm : BitVec 64)
  | fadd (c : Common) (dst sa sb : SReg)
  | fsub (c : Common) (dst sa sb : SReg)
  | fmul (c : Common) (dst sa sb : SReg)
  | ffma (c : Common) (dst sa sb sc : SReg)
  | fmin (c : Common) (dst sa sb : SReg)
  | fmax (c : Common) (dst sa sb : SReg)
  | fcmp (c : Common) (cond : FCond) (pt : GReg) (sa sb : SReg) (pf : GReg)
  | fcvt (c : Common) (src ty : Ty) (dst sa : SReg)
  | pand (c : Common) (dst sa sb : GReg) (na nb : Bool)
  | por (c : Common) (dst sa sb : GReg) (na nb : Bool)
  | pxor (c : Common) (dst sa sb : GReg) (na nb : Bool)
  | pmov (c : Common) (op : PmovOp)
  | br (c : Common) (ofs : BitVec 32)
  | jmp (c : Common) (sa : SReg) (ofs : BitVec 32)
  | jal (c : Common) (dst : SReg) (ofs : BitVec 32)
  | jr (c : Common) (dst sa : SReg)
  | loop (c : Common) (src : LoopSrc) (stg smod : BitVec 3) (body : BitVec 25)
  | nop (c : Common)
  | endStrand (c : Common)
  | yield (c : Common) (n : BitVec 17)
  | ld (c : Common) (ty : Ty) (as : Space) (dst sa : SReg) (ofs : BitVec 32)
  | st (c : Common) (ty : Ty) (as : Space) (dst sa : SReg) (ofs : BitVec 32)
  | ldv (c : Common) (m : Bool) (ty : Ty) (as : Space) (km : KReg) (dst : VReg) (sa : SReg) (ofs : BitVec 32)
  | stv (c : Common) (ty : Ty) (as : Space) (km : KReg) (dst : VReg) (sa : SReg) (ofs : BitVec 32)
  | ldg (c : Common) (ty : Ty) (dst : VReg) (sa : SReg) (sb : VReg) (sc : SReg) (x : Gather)
  | stg (c : Common) (ty : Ty) (dst : VReg) (sa : SReg) (sb : VReg) (sc : SReg) (x : Gather)
  | pref (c : Common) (dst sa sb : SReg) (ofs : BitVec 32)
  | wb (c : Common) (sa sb : SReg)
  | inv (c : Common) (sa sb : SReg)
  | icinv (c : Common) (scope : Scope) (sa sb : SReg)
  | vadd (c : Common) (ty : Ty) (mz sat : Bool) (km : KReg) (dst sa sb : VReg)
  | vsub (c : Common) (ty : Ty) (mz sat : Bool) (km : KReg) (dst sa sb : VReg)
  | vmul (c : Common) (ty : Ty) (mz sat : Bool) (km : KReg) (dst sa sb : VReg)
  | vmad (c : Common) (ty : Ty) (mz sat : Bool) (km : KReg) (dst sa sb sc : VReg)
  | vmin (c : Common) (ty : Ty) (mz : Bool) (km : KReg) (dst sa sb : VReg)
  | vmax (c : Common) (ty : Ty) (mz : Bool) (km : KReg) (dst sa sb : VReg)
  | vabs (c : Common) (ty : Ty) (mz sat : Bool) (km : KReg) (dst sa : VReg)
  | vneg (c : Common) (ty : Ty) (mz sat : Bool) (km : KReg) (dst sa : VReg)
  | vand (c : Common) (ty : Ty) (mz : Bool) (km : KReg) (dst sa sb : VReg)
  | vor (c : Common) (ty : Ty) (mz : Bool) (km : KReg) (dst sa sb : VReg)
  | vxor (c : Common) (ty : Ty) (mz : Bool) (km : KReg) (dst sa sb : VReg)
  | vshl (c : Common) (ty : Ty) (mz : Bool) (km : KReg) (dst sa sb : VReg)
  | vshr (c : Common) (ty : Ty) (mz : Bool) (km : KReg) (dst sa sb : VReg)
  | vsra (c : Common) (ty : Ty) (mz : Bool) (km : KReg) (dst sa sb : VReg)
  | vcmp (c : Common) (cond : VCond) (ty : Ty) (km : KReg) (dst : KReg) (sa sb : VReg) (xk : KReg)
  | vsel (c : Common) (ty : Ty) (km : KReg) (dst sa sb : VReg)
  | vcvt (c : Common) (src ty : Ty) (mz : Bool) (hp : BitVec 3) (km : KReg) (dst sa : VReg)
  | vpack (c : Common) (src : Ty) (mw : BitVec 4) (km : KReg) (es : SReg) (dst sa sb : VReg) (sc : SReg)
  | vunpack (c : Common) (ty : Ty) (mw : BitVec 4) (mz hp : Bool) (km : KReg) (dst sa : VReg) (sc : SReg)
  | vredsum (c : Common) (ty : Ty) (sat : Bool) (km : KReg) (dst : SReg) (sa : VReg)
  | vredmax (c : Common) (ty : Ty) (km : KReg) (dst : SReg) (sa : VReg) (sc : SReg)
  | vredmin (c : Common) (ty : Ty) (km : KReg) (dst : SReg) (sa : VReg) (sc : SReg)
  | vperm (c : Common) (t2 : Bool) (ty : Ty) (mz : Bool) (km : KReg) (dst sa sb sc : VReg)
  | vbcast (c : Common) (op : BcastOp) (ty : Ty) (mz : Bool) (km : KReg) (dst : VReg)
  | vslide (c : Common) (up : Bool) (ty : Ty) (mz : Bool) (km : KReg) (dst sa sb : VReg) (sc : SReg)
  | vext (c : Common) (ty : Ty) (dst : SReg) (sa : VReg) (sb : SReg)
  | vins (c : Common) (ty : Ty) (dst : VReg) (sa sb : SReg)
  | vdist (c : Common) (fn : DistFn) (ty : Ty) (acc : Bool) (gs : BitVec 3) (km ok : KReg) (dst sa sb : VReg)
  | vtab (c : Common) (ty : Ty) (mz : Bool) (km : KReg) (tb : BitVec 2) (dst sa : VReg)
  | vtabService (core : CoreId)
  | vstrm (c : Common) (axpy : Bool) (ty : Ty) (mw : BitVec 4) (das sas : Space) (sa sb sc : SReg)
  | vstrmChunk (k : StrandId)
  | wld (c : Common) (sa : SReg) (was : Space) (full : Bool) (nw : BitVec 7) (col0 : BitVec 16) (kb0 : BitVec 11)
  | mma (c : Common) (dst : AReg) (sa : SReg) (aas : Space) (kb0 : BitVec 11) (row0 : BitVec 16) (nrow : BitVec 10)
  | mmaG (c : Common) (dst : AReg) (sa sb : SReg) (aas was : Space) (kb0 : BitVec 11) (row0 col0 : BitVec 16)
      (nrow ncol : BitVec 10) (nkb : BitVec 6)
  | blockStep (k : StrandId)
  | mmaGRendezvous (k : StrandId)
  | accz (c : Common) (dst : AReg)
  | accrd (c : Common) (ty : Ty) (mw : BitVec 4) (sa : AReg) (sb : SReg) (das : Space) (dcol drow : BitVec 16)
  | accexpRd (c : Common) (dst : SReg) (sa : AReg)
  | accexpAl (c : Common) (dst : AReg) (sa : SReg)
  | walki (c : Common) (dst sa sb sc : SReg) (aas : Space) (maxd : BitVec 8) (row0 : BitVec 16) (nr : BitVec 6)
  | walk (c : Common) (sa sb sc : SReg) (aas : Space) (maxd : BitVec 8) (row0 : BitVec 16)
  | walkRound (k : StrandId)
  | walkStagingFetch (k : StrandId) (chunk : Nat)
  | amo (c : Common) (fn : AmoFn) (ty : Ty) (scope : Scope) (as : Space) (ofs : BitVec 8) (dst sa sb : SReg)
  | reductionMerge (a b : Nat)
  | cas (c : Common) (ty : Ty) (scope : Scope) (as : Space) (dst sa sb sc : SReg)
  | fence (c : Common) (scope : Scope) (half : Half)
  | bind (c : Common) (sa sb sc : SReg)
  | unbind (c : Common) (sa sb sc : SReg)
  | acq (c : Common) (sa : SReg)
  | acqV (c : Common) (sa : SReg)
  | rel (c : Common) (sa : SReg)
  | relV (c : Common) (sa : SReg)
  | evwait (c : Common) (dst sa : SReg)
  | evwaitPk (c : Common) (dst sa : SReg)
  | evsig (c : Common) (sa sb : SReg)
  | evsigClr (c : Common) (sa sb : SReg)
  | bar (c : Common) (scope : Scope) (sa sb : SReg)
  | send (c : Common) (dst : GReg) (sa : SReg) (sb : VReg) (tmo : BitVec 32)
  | sendTimeout (k : StrandId)
  | recv (c : Common) (dst : VReg) (sa : GReg) (sb : SReg) (tmo : BitVec 32)
  | recvTimeout (k : StrandId)
  | rdrem (c : Common) (dst sa : SReg) (sc : GReg) (ofs : BitVec 12) (tmo : BitVec 16)
  | rdremTimeout (k : StrandId)
  | waitseq (c : Common) (eng : Engine) (sa : SReg)
  | copy (c : Common) (dst sa : SReg) (as : Space)
  | copyChunk (cl idx : Nat)
  | copyComplete (cl idx : Nat)
  | tkopen (c : Common) (fn : TopkFn) (dst sa : SReg)
  | tkpush (c : Common) (sa sb : VReg) (km : KReg) (sc : SReg)
  | tkdrain (c : Common) (dst sa sb : SReg) (as : Space)
  | tkdrainCl (c : Common) (dst sa sb : SReg) (as : Space)
  | topkDrainComplete (cl idx : Nat)
  | tabld (c : Common) (dst sa : SReg) (as : Space) (tb : BitVec 2)
  | tableLoadComplete (core : CoreId) (uncorrected : Bool)
  | tspawn (c : Common) (sa : SReg)
  | tdone (c : Common)
  | tdoneR (c : Common)
  | taskDeal (cl ctx : Nat)
  | taskReadyNotice (cl tcb : Nat)
  | copyTaskHandoff (cl : Nat)
  | emptyCardRetire (cl : Nat)
  | tdep (c : Common) (sa : SReg) (imm : BitVec 17)
  | tcard (c : Common) (dst : GReg)
  | jopen (c : Common) (sa : SReg)
  | jenter (c : Common) (sa sb : SReg)
  | jcont (c : Common) (s32 : Bool) (sa : SReg) (sb : VReg) (km : KReg)
  | jarrive (c : Common) (dst : GReg)
  | joinDeadline (rec : Nat)
  | childJoinArrival (rec : Nat)
  | stallCredit (idx : Nat)
  | jwait (c : Common) (dst sa : SReg) (sb : GReg) (tmo : BitVec 32)
  | jwaitTimeout (k : StrandId)
  | jclose (c : Common) (sa : SReg)
  | jcloseF (c : Common) (sa : SReg)
  | killDelivery (idx : Nat)
  | killTaken (k : StrandId)
  | copyKill (cl idx : Nat)
  | childJoinKill (rec : Nat)
  | trace (c : Common) (code : BitVec 8) (sa sb : SReg)
  | mfc (c : Common) (dst : SReg) (cr : BitVec 12)
  | mtc (c : Common) (sa : SReg) (cr : BitVec 12)
  | trap (c : Common) (code : BitVec 17)
  | tret (c : Common)
  | tlbinvAll (c : Common) (sa sb : SReg)
  | tlbinvPg (c : Common) (sa sb : SReg)
  | bkpt (c : Common) (code : BitVec 17)
  | slotwMat (c : Common) (sa : SReg)
  | slotwCpy (c : Common) (sa : SReg)
  | slotwTku (c : Common) (sa : SReg)
  | instructionFetch (k : StrandId)
  | resultLands (k : StrandId)
  | interruptTaken (k : StrandId)
  | vbankRetention (core : CoreId)
  | vbankWake (core : CoreId)
  | stepGrant (core : CoreId)
  | cacheEviction (u : CacheUnit) (line : Nat)
  | lqtail (ctx : Nat) (v : Word)
  | dbell (ctx : Nat) (v : Word)
  | cqhead (ctx : Nat) (v : Word)
  | launchStart (ctx : Nat)
  | launchComplete (idx : Nat)
  | save (ctx : Nat)
  | restore (ctx : Nat)
  | discard (ctx : Nat)
  | ownerByteWrite (cl off : Nat) (v : Byte)
  | registerWrite (pa : Nat) (v : Word)
  | trcfg (t : Nat) (v : Word)
  | trrd (t : Nat) (v : Word)
  | traceReservation (idx : Nat)
  | losslessRetry (idx : Nat)
  | longwait (k : StrandId)
  | haltreq (cl : Nat)
  | runreq (cl : Nat)
  | dmStep (cl : Nat)
  | crossTrigger
  | dmpc (cl : Nat) (v : Word)
  | dmdataLoad (cl : Nat)
  | dmdataStore (cl : Nat) (v : Word)
  | dmicl (cl : Nat) (v : Word)
  | rmBegin
  | rmChunk (clen : Nat)
  | rmCommit
  | rmAbort
  | powerUp (x : PowerUpInput)
  | linkTraining (unit : Nat) (x : TrainInput)
  | dis (unit : Nat) (v : Bool)
  | cascadeFlit (port : Nat) (header : Word) (body : FlitBody) (crcOk room : Bool)
  | flitRetry (flow : FlitFlow)
  | deviceUnreachable (dev : Nat)
  | cxlMemRequest (write : Bool) (pa n : Nat) (data : List Byte)
  | cxlSnoop (cl line : Nat)
  | roceRequest (x : RoceRequest)
  | roceAckTimeout (qp : Nat)
  | cnp (qp : Nat)
  | ethernetFrame (port : Nat) (frame : EthFrame)
  | sync (source : SyncSource) (offset : Int)
  | ppsEdge
  | announceTimeout
  | patrolScrub (line : Nat) (corrected : Bool)
  | correctedError (x : ErrSite)
  | uncorrectedError (x : ErrSite) (who : ErrConsumer)
  | fatalClusterError (cl : Nat)
  | rascnt (k : Nat) (v : Word)
  | spdmRequest (x : SpdmRequest)
  | laneLoss (unit : Nat) (lanes : BitVec 8)
  | icbusyClear (cl : Nat)
  | rateRecovery (qp : Nat)
  deriving DecidableEq, Repr

end Sys2Proof
end

