-- ==== Sys2Proof/WellFormed.lean ====
section
/-!
DEFINITION. Which terms of `Instr` stand for an encoding the decoder accepts (spec/04 R76-R82 and the layouts of spec/05 to
spec/09), and which device steps name a unit that exists (spec/00 R8).
-/
namespace Sys2Proof

/-- The code of a type in the TY field (spec/02 R33). -/
def Ty.code : Ty → Nat
  | .s8 => 0 | .s16 => 1 | .s32 => 2 | .s64 => 3 | .z8 => 4 | .z16 => 5 | .z32 => 6 | .z64 => 7
  | .f16 => 8 | .bf16 => 9 | .f32 => 10 | .gbf => 11 | .mxi8 => 12 | .mxf8 => 13 | .bit => 14

/-- Element width in bits of the types of codes 0 to 10 and 14; 8 for the block types (spec/02 R33). -/
def Ty.width : Ty → Nat
  | .s8 | .z8 => 8 | .s16 | .z16 | .f16 | .bf16 => 16 | .s32 | .z32 | .f32 => 32 | .s64 | .z64 => 64
  | .gbf | .mxi8 | .mxf8 => 8 | .bit => 1

/-- The integer types, codes 0 to 7. -/
def Ty.isInt (t : Ty) : Bool := t.code ≤ 7
/-- The signed integer types, codes 0 to 3. -/
def Ty.isSigned (t : Ty) : Bool := t.code ≤ 3
/-- The floating-point types, codes 8 to 10. -/
def Ty.isFloat (t : Ty) : Bool := 8 ≤ t.code && t.code ≤ 10
/-- The ordinary types, codes 0 to 10. -/
def Ty.isNum (t : Ty) : Bool := t.code ≤ 10
/-- The block types, codes 11 to 13. -/
def Ty.isBlock (t : Ty) : Bool := 11 ≤ t.code && t.code ≤ 13

/-- MW as the decoder admits it (spec/04 R79): 2 to 8 for GBF, 0 otherwise. -/
def mwOk (t : Ty) (mw : BitVec 4) : Bool :=
  if t = .gbf then 2 ≤ mw.toNat && mw.toNat ≤ 8 else mw.toNat == 0

/-- Types of `AMO` by function (spec/09 R198). -/
def amoTyOk (f : AmoFn) (t : Ty) : Bool :=
  t = .s32 || t = .s64 || t = .z32 || t = .z64 || (t = .f32 && (f = .add || f = .min || f = .max))

/-- Types of `CAS` (spec/09 R198). -/
def casTyOk (t : Ty) : Bool := t = .s32 || t = .s64 || t = .z32 || t = .z64

/-- Types of `VAND`, `VOR` and `VXOR` (spec/07 R142). -/
def logicTyOk (t : Ty) : Bool := t.isInt || t = .bit

/-- Types and group sizes of `VDIST` (spec/07 R157). -/
def distTyOk (f : DistFn) (t : Ty) : Bool :=
  match f with
  | .ham => t = .bit
  | _ => t = .s8 || t = .z8 || t = .s16 || t = .z16

/-- Least and greatest group size code of `VDIST` (spec/07 R157). -/
def distGs (t : Ty) : Nat × Nat := if t.width = 16 then (1, 5) else (2, 6)

/-- Types that `VPACK` packs from (spec/07 R154). -/
def packTyOk (t : Ty) : Bool := (t.isNum && t.width ≤ 32) || t = .mxi8 || t = .mxf8
/-- Types that `VUNPACK` unpacks to (spec/07 R154). -/
def unpackTyOk (t : Ty) : Bool := t.isNum && t.width ≤ 32

/-- Lanes of a register for a type (spec/07 R138). -/
def Ty.lanes (t : Ty) : Nat := 512 / t.width

/-- Ratio of two widths (spec/07 R147). -/
def Ty.ratio (a b : Ty) : Nat := max a.width b.width / min a.width b.width

/-- A value that a 17-bit field holds, sign-extended. -/
def fits17 (v : BitVec 32) : Bool := (v.setWidth 17).signExtend 32 == v
/-- A value that a 17-bit field holds, zero-extended. -/
def fitsZ17 (v : BitVec 32) : Bool := (v.setWidth 17).setWidth 32 == v
/-- A value that a 13-bit field holds, sign-extended. -/
def fits13 (v : BitVec 32) : Bool := (v.setWidth 13).signExtend 32 == v
/-- A 64-bit pattern that a 13-bit field holds, sign-extended. -/
def fits13w (v : BitVec 64) : Bool := (v.setWidth 13).signExtend 64 == v
/-- A 64-bit pattern that a 32-bit field holds, sign-extended. -/
def fits32w (v : BitVec 64) : Bool := (v.setWidth 32).signExtend 64 == v

/-- SET is not the reserved value 6 (spec/04 R71). -/
def Common.setOk (c : Common) : Bool := c.set.toNat != 6
/-- The form exists at 64 bits only. -/
def Common.at64 (c : Common) : Bool := c.setOk && c.len == .l64
/-- The form exists at 96 bits only. -/
def Common.at96 (c : Common) : Bool := c.setOk && c.len == .l96
/-- The form exists at 128 bits only. -/
def Common.at128 (c : Common) : Bool := c.setOk && c.len == .l128
/-- A form of 64 or 96 bits whose short field must hold its operand. -/
def Common.shortOr96 (c : Common) (fits : Bool) : Bool :=
  c.setOk && ((c.len == .l64 && fits) || c.len == .l96)

def BcastOp.wf (c : Common) (t : Ty) : BcastOp → Bool
  | .reg _ => c.at64
  | .lane _ l => c.at64 && l.toNat < t.lanes
  | .imm v => c.setOk && ((c.len == .l64 && fits13w v) || (c.len == .l96 && fits32w v) || c.len == .l128)

/-- Is this constructor a device step, which no encoding names? -/
def Instr.isEvent : Instr → Bool
  | .vtabService .. | .vstrmChunk .. | .blockStep .. | .mmaGRendezvous .. | .walkRound .. | .walkStagingFetch ..
  | .reductionMerge .. | .sendTimeout .. | .recvTimeout .. | .rdremTimeout .. | .copyChunk .. | .copyComplete ..
  | .topkDrainComplete .. | .tableLoadComplete .. | .taskDeal .. | .taskReadyNotice .. | .copyTaskHandoff ..
  | .emptyCardRetire .. | .joinDeadline .. | .childJoinArrival .. | .stallCredit .. | .jwaitTimeout ..
  | .killDelivery .. | .killTaken .. | .copyKill .. | .childJoinKill .. | .instructionFetch .. | .resultLands ..
  | .interruptTaken .. | .vbankRetention .. | .vbankWake .. | .stepGrant .. | .cacheEviction .. | .lqtail ..
  | .dbell .. | .cqhead .. | .launchStart .. | .launchComplete .. | .save .. | .restore .. | .discard ..
  | .ownerByteWrite .. | .registerWrite .. | .trcfg .. | .trrd .. | .traceReservation .. | .losslessRetry ..
  | .longwait .. | .haltreq .. | .runreq .. | .dmStep .. | .crossTrigger | .dmpc .. | .dmdataLoad ..
  | .dmdataStore .. | .dmicl .. | .rmBegin | .rmChunk .. | .rmCommit | .rmAbort | .powerUp .. | .linkTraining ..
  | .dis .. | .cascadeFlit .. | .flitRetry .. | .deviceUnreachable .. | .cxlMemRequest .. | .cxlSnoop ..
  | .roceRequest .. | .roceAckTimeout .. | .cnp .. | .ethernetFrame .. | .sync .. | .ppsEdge | .announceTimeout
  | .patrolScrub .. | .correctedError .. | .uncorrectedError .. | .fatalClusterError .. | .rascnt .. | .spdmRequest ..
  | .laneLoss .. | .icbusyClear .. | .rateRecovery .. => true
  | _ => false

/-- The term stands for an encoding of the opcode map (spec/04 R79, R81). A device step has none. -/
def Instr.wf : Instr → Bool
  | .add c .. | .sub c .. | .mul c .. | .mulh c .. | .mulhz c .. | .div c .. | .divz c .. | .rem c .. | .remz c ..
  | .divT c .. | .addx c .. | .and c .. | .or c .. | .xor c .. | .shl c .. | .shr c .. | .sra c .. | .min c ..
  | .max c .. | .minz c .. | .maxz c .. | .clz c .. | .ctz c .. | .popc c .. | .bswap c .. | .sext c .. | .zext c ..
  | .mov c .. | .sel c .. | .cmp c .. => c.at64
  | .addi c _ _ i | .andi c _ _ i | .ori c _ _ i | .xori c _ _ i | .cmpi c _ _ _ _ i => c.shortOr96 (fits17 i)
  | .shli c .. | .shri c .. | .srai c .. => c.at64
  | .li c .. => c.at128
  | .fadd c .. | .fsub c .. | .fmul c .. | .ffma c .. | .fmin c .. | .fmax c .. | .fcmp c .. => c.at64
  | .fcvt c s t .. => c.at64 && s.isNum && t.isNum
  | .pand c .. | .por c .. | .pxor c .. | .pmov c .. => c.at64
  | .br c o | .jmp c _ o | .jal c _ o => c.shortOr96 (fits17 o)
  | .jr c .. => c.at64
  | .loop c _ _ m b => c.shortOr96 (b.toNat < 1024) && m.toNat < 5 && b.toNat != 0
  | .nop c => c.setOk
  | .endStrand c => c.at64
  | .yield c _ => c.at64
  | .ld c t _ _ _ o | .st c t _ _ _ o => c.shortOr96 (fits13 o) && t.isNum
  | .ldv c _ t _ _ _ _ o => c.shortOr96 (fits13 o) && t.isNum
  | .stv c t _ _ _ _ o => c.shortOr96 (fits13 o) && t.isNum
  | .ldg c t _ _ _ sc x => c.at96 && t.isNum && x.scl.toNat != 7 && (!x.nbnd || sc == 0)
  | .stg c t _ _ _ sc x => c.at96 && t.isNum && x.scl.toNat != 7 && (!x.nbnd || sc == 0) && !x.fill && x.fr == 0
  | .pref c _ _ _ o => c.shortOr96 (fits17 o)
  | .wb c .. | .inv c .. => c.at64
  | .icinv c s .. => c.at64 && s != .cascade
  | .vadd c t _ s .. | .vsub c t _ s .. | .vmul c t _ s .. | .vmad c t _ s .. | .vabs c t _ s .. | .vneg c t _ s .. =>
      c.at64 && t.isNum && (t.isInt || !s)
  | .vmin c t .. | .vmax c t .. => c.at64 && t.isNum
  | .vand c t .. | .vor c t .. | .vxor c t .. => c.at64 && logicTyOk t
  | .vshl c t .. | .vshr c t .. | .vsra c t .. => c.at64 && t.isInt
  | .vcmp c f t .. => c.at64 && t.isNum && (f != .un || t.isFloat)
  | .vsel c t .. => c.at64 && (t.isNum || t == .bit)
  | .vcvt c s t _ h .. => c.at64 && s.isNum && t.isNum && h.toNat < s.ratio t
  | .vpack c s mw _ _ _ _ sb sc => c.at64 && packTyOk s && mwOk .gbf mw && (s.width == 32 || sb == 0) && (s.isBlock || sc == 0)
  | .vunpack c t mw _ hp .. => c.at64 && unpackTyOk t && mwOk .gbf mw && (t.width == 32 || !hp)
  | .vredsum c t s .. => c.at64 && (t.isNum || t == .bit) && (t.isInt || !s)
  | .vredmax c t .. | .vredmin c t .. => c.at64 && t.isNum
  | .vperm c t2 t _ _ _ _ _ sc => c.at64 && t.isNum && (t2 || sc == 0)
  | .vbcast c op t .. => t.isNum && op.wf c t
  | .vslide c _ t .. => c.at64 && t.isNum
  | .vext c t .. | .vins c t .. => c.at64 && t.isNum
  | .vdist c f t _ gs .. => c.at64 && distTyOk f t && (distGs t).1 ≤ gs.toNat && gs.toNat ≤ (distGs t).2
  | .vtab c t .. => c.at64 && t.isFloat
  | .vstrm c ax t mw _ _ _ _ sc =>
      c.at96 && (if ax then t.isFloat else t.isNum || t == .gbf) && mwOk t mw && (ax || sc == 0)
  | .wld c _ _ _ nw .. => c.at128 && 1 ≤ nw.toNat && nw.toNat ≤ 80
  | .mma c _ _ _ _ _ n => c.at128 && 1 ≤ n.toNat && n.toNat ≤ 48
  | .mmaG c _ _ _ _ _ _ _ _ m n k => c.at128 && 1 ≤ m.toNat && m.toNat ≤ 384 && 1 ≤ n.toNat && n.toNat ≤ 640
      && 1 ≤ k.toNat && k.toNat ≤ 32
  | .accz c _ => c.at64
  | .accrd c t mw .. => c.at96 && mwOk t mw
  | .accexpRd c .. | .accexpAl c .. => c.at64
  | .walki c _ _ _ _ _ d _ n => c.at128 && d.toNat != 0 && 1 ≤ n.toNat && n.toNat ≤ 48
  | .walk c _ _ _ _ d _ => c.at128 && d.toNat != 0
  | .amo c f t .. => c.at64 && amoTyOk f t
  | .cas c t .. => c.at64 && casTyOk t
  | .fence c .. | .bind c .. | .unbind c .. | .acq c .. | .acqV c .. | .rel c .. | .relV c .. | .evwait c ..
  | .evwaitPk c .. | .evsig c .. | .evsigClr c .. | .bar c .. => c.at64
  | .send c .. => c.at96
  | .recv c _ _ _ o => c.shortOr96 (fitsZ17 o)
  | .rdrem c _ _ _ o t => c.at96 && o.toNat % 8 == 0 && t.toNat != 0
  | .waitseq c .. => c.at64
  | .copy c .. => c.at96
  | .tkopen c .. | .tkpush c .. | .tkdrain c .. | .tkdrainCl c .. => c.at64
  | .tabld c .. => c.at96
  | .tspawn c .. | .tdone c | .tdoneR c | .tdep c .. | .tcard c .. | .jopen c .. | .jenter c .. | .jcont c ..
  | .jarrive c .. => c.at64
  | .jwait c _ _ _ o => c.shortOr96 (fitsZ17 o)
  | .jclose c .. | .jcloseF c .. | .trace c .. | .mfc c .. | .mtc c .. | .trap c .. | .tret c | .tlbinvAll c ..
  | .tlbinvPg c .. | .bkpt c .. | .slotwMat c .. | .slotwCpy c .. | .slotwTku c .. => c.at64
  | .vtabService .. | .vstrmChunk .. | .blockStep .. | .mmaGRendezvous .. | .walkRound .. | .walkStagingFetch ..
  | .reductionMerge .. | .sendTimeout .. | .recvTimeout .. | .rdremTimeout .. | .copyChunk .. | .copyComplete ..
  | .topkDrainComplete .. | .tableLoadComplete .. | .taskDeal .. | .taskReadyNotice .. | .copyTaskHandoff ..
  | .emptyCardRetire .. | .joinDeadline .. | .childJoinArrival .. | .stallCredit .. | .jwaitTimeout ..
  | .killDelivery .. | .killTaken .. | .copyKill .. | .childJoinKill .. | .instructionFetch .. | .resultLands ..
  | .interruptTaken .. | .vbankRetention .. | .vbankWake .. | .stepGrant .. | .cacheEviction .. | .lqtail ..
  | .dbell .. | .cqhead .. | .launchStart .. | .launchComplete .. | .save .. | .restore .. | .discard ..
  | .ownerByteWrite .. | .registerWrite .. | .trcfg .. | .trrd .. | .traceReservation .. | .losslessRetry ..
  | .longwait .. | .haltreq .. | .runreq .. | .dmStep .. | .crossTrigger | .dmpc .. | .dmdataLoad ..
  | .dmdataStore .. | .dmicl .. | .rmBegin | .rmChunk .. | .rmCommit | .rmAbort | .powerUp .. | .linkTraining ..
  | .dis .. | .cascadeFlit .. | .flitRetry .. | .deviceUnreachable .. | .cxlMemRequest .. | .cxlSnoop ..
  | .roceRequest .. | .roceAckTimeout .. | .cnp .. | .ethernetFrame .. | .sync .. | .ppsEdge | .announceTimeout
  | .patrolScrub .. | .correctedError .. | .uncorrectedError .. | .fatalClusterError .. | .rascnt .. | .spdmRequest ..
  | .laneLoss .. | .icbusyClear .. | .rateRecovery .. => false

end Sys2Proof
end

