-- ==== Sys2Proof/Machine/Num.lean ====
section
/-!
DEFINITION. Number formats to the bit (spec/02): exact values, rounding to nearest even, the IEEE formats and BF16, the
conversions of R45, the Grasen block format, block formation and the Microscaling imports.
-/
namespace Sys2Proof.Machine

/-- An exact value read from an element: a NaN, an infinity, or the finite number (-1)^neg * m * 2^e, which keeps the
sign of zero (spec/02 R35, R36). -/
inductive Val where
  | nan
  | inf (neg : Bool)
  | fin (neg : Bool) (m : Nat) (e : Int)
  deriving DecidableEq, Repr

/-- Exponent and fraction widths of an IEEE format or BF16 (spec/02 R35). -/
structure Fmt where
  eb : Nat
  fb : Nat
  deriving DecidableEq, Repr

def fmtF16 : Fmt := ⟨5, 10⟩
def fmtBF16 : Fmt := ⟨8, 7⟩
def fmtF32 : Fmt := ⟨8, 23⟩

/-- The format of a floating-point type; FP32 for every other type. -/
def fmtOf : Ty → Fmt
  | .f16 => fmtF16
  | .bf16 => fmtBF16
  | _ => fmtF32

def Fmt.bias (f : Fmt) : Nat := 2 ^ (f.eb - 1) - 1
/-- Encoding of +Inf. -/
def Fmt.inf (f : Fmt) : Nat := (2 ^ f.eb - 1) * 2 ^ f.fb
/-- Encoding of the canonical NaN (spec/02 R35). -/
def Fmt.nan (f : Fmt) : Nat := f.inf + 2 ^ (f.fb - 1)
/-- The sign bit of an encoding. -/
def Fmt.sign (f : Fmt) : Nat := 2 ^ (f.eb + f.fb)

/-- `n` times 2 to the minus `k`, rounded to nearest, ties to even (spec/00 R6). -/
def rneShift (n k : Nat) : Nat :=
  let q := n / 2 ^ k
  let r := 2 * (n % 2 ^ k)
  if r < 2 ^ k then q else if 2 ^ k < r then q + 1 else q + q % 2

/-- `m * 2^e` rounded to an integer, ties to even. -/
def rneInt (m : Nat) (e : Int) : Nat :=
  if 0 ≤ e then m * 2 ^ e.toNat else rneShift m (-e).toNat

/-- Does an encoding stand for a NaN (spec/02 R35)? -/
def isNan (f : Fmt) (b : Nat) : Bool := f.inf < b % f.sign

/-- The value of an encoding. -/
def decodeF (f : Fmt) (b : Nat) : Val :=
  let neg := f.sign ≤ b
  let mag := b % f.sign
  let x := mag / 2 ^ f.fb
  let fr := mag % 2 ^ f.fb
  if mag = f.inf then .inf neg
  else if f.inf < mag then .nan
  else if x = 0 then .fin neg fr (1 - (f.bias : Int) - f.fb)
  else .fin neg (2 ^ f.fb + fr) ((x : Int) - f.bias - f.fb)

/-- A finite value rounded once to a format (spec/02 R36); beyond the largest finite value, an infinity. -/
def roundF (f : Fmt) (neg : Bool) (m : Nat) (e : Int) : Nat :=
  let s := if neg then f.sign else 0
  if m = 0 then s
  else
    let emin : Int := 1 - f.bias
    let top : Int := max (m.log2 + e) emin
    let n := rneInt m (e - (top - f.fb))
    let b := (top - emin).toNat * 2 ^ f.fb + n
    s + min b f.inf

/-- A value written in a format. -/
def encodeF (f : Fmt) : Val → Nat
  | .nan => f.nan
  | .inf neg => f.inf + (if neg then f.sign else 0)
  | .fin neg m e => roundF f neg m e

/-- Signed numerator of a finite value scaled to the exponent `e0`, which is not above its own. -/
def scaled (neg : Bool) (m : Nat) (e e0 : Int) : Int :=
  let n : Int := (m * 2 ^ (e - e0).toNat : Nat)
  if neg then -n else n

/-- The exact number `n * 2^e`; an exact zero is +0. -/
def ofInt (n : Int) (e : Int) : Val := .fin (n < 0) n.natAbs e

/-- Exact sum (spec/02 R36): opposite infinities give a NaN, an exact cancellation gives +0. -/
def addV : Val → Val → Val
  | .nan, _ | _, .nan => .nan
  | .inf a, .inf b => if a = b then .inf a else .nan
  | .inf a, .fin .. => .inf a
  | .fin .., .inf b => .inf b
  | .fin na ma ea, .fin nb mb eb =>
      if ma = 0 ∧ mb = 0 then .fin (na && nb) 0 (min ea eb)
      else
        let e0 := min ea eb
        ofInt (scaled na ma ea e0 + scaled nb mb eb e0) e0

/-- Exact product (spec/02 R36): zero times infinity gives a NaN. -/
def mulV : Val → Val → Val
  | .nan, _ | _, .nan => .nan
  | .inf a, .inf b => .inf (a != b)
  | .inf a, .fin nb mb _ => if mb = 0 then .nan else .inf (a != nb)
  | .fin na ma _, .inf b => if ma = 0 then .nan else .inf (na != b)
  | .fin na ma ea, .fin nb mb eb => .fin (na != nb) (ma * mb) (ea + eb)

def negV : Val → Val
  | .nan => .nan
  | .inf a => .inf (!a)
  | .fin n m e => .fin (!n) m e

/-- Comparison of two values that are no NaN, with -0 equal to +0. -/
def ltV : Val → Val → Bool
  | .inf a, .inf b => a && !b
  | .inf a, .fin .. => a
  | .fin .., .inf b => !b
  | .fin na ma ea, .fin nb mb eb =>
      let e0 := min ea eb
      scaled na ma ea e0 < scaled nb mb eb e0
  | _, _ => false

def eqV : Val → Val → Bool
  | .nan, _ | _, .nan => false
  | a, b => !ltV a b && !ltV b a

/-- The value below the other, -0 below +0, as a signed key of encodings that are no NaN. -/
def orderKey (f : Fmt) (b : Nat) : Int := if f.sign ≤ b then -(b % f.sign : Nat) - 1 else (b : Int)

/-! ### Arithmetic of encodings -/

def addF (f : Fmt) (a b : Nat) : Nat := encodeF f (addV (decodeF f a) (decodeF f b))
def subF (f : Fmt) (a b : Nat) : Nat := encodeF f (addV (decodeF f a) (negV (decodeF f b)))
def mulF (f : Fmt) (a b : Nat) : Nat := encodeF f (mulV (decodeF f a) (decodeF f b))
/-- a * b + c, exact, rounded once (spec/05 R99). -/
def fmaF (f : Fmt) (a b c : Nat) : Nat := encodeF f (addV (mulV (decodeF f a) (decodeF f b)) (decodeF f c))
/-- The lesser, -0 below +0, canonical NaN if either is a NaN (spec/05 R99). -/
def minF (f : Fmt) (a b : Nat) : Nat :=
  if isNan f a || isNan f b then f.nan else if orderKey f b < orderKey f a then b else a
def maxF (f : Fmt) (a b : Nat) : Nat :=
  if isNan f a || isNan f b then f.nan else if orderKey f a < orderKey f b then b else a
def ltF (f : Fmt) (a b : Nat) : Bool := ltV (decodeF f a) (decodeF f b)
def eqF (f : Fmt) (a b : Nat) : Bool := eqV (decodeF f a) (decodeF f b)

/-! ### Conversions (spec/02 R34, R45) -/

/-- Least value of an integer type. -/
def Ty.lo (t : Ty) : Int := if t.isSigned then -(2 ^ (t.width - 1) : Nat) else 0
/-- Greatest value of an integer type. -/
def Ty.hi (t : Ty) : Int := if t.isSigned then (2 ^ (t.width - 1) : Nat) - 1 else (2 ^ t.width : Nat) - 1

/-- Clamp to a range. -/
def clampI (lo hi n : Int) : Int := min (max n lo) hi

/-- The bits of an integer in a field of `w` bits. -/
def bitsOfInt (w : Nat) (n : Int) : Nat := (n % (2 ^ w : Nat)).toNat

/-- An integer element read as its value (spec/02 R33). -/
def intOf (t : Ty) (b : Nat) : Int :=
  if t.isSigned && decide (2 ^ (t.width - 1) ≤ b) then (b : Int) - (2 ^ t.width : Nat) else b

/-- An element of an ordinary type read as its value. -/
def valOf (t : Ty) (b : Nat) : Val := if t.isFloat then decodeF (fmtOf t) b else ofInt (intOf t b) 0

/-- A value rounded to the nearest integer, ties to even; a NaN gives 0; infinities saturate (spec/02 R45). -/
def toIntSat (t : Ty) : Val → Int
  | .nan => 0
  | .inf neg => if neg then Ty.lo t else Ty.hi t
  | .fin neg m e =>
      let n : Int := rneInt m e
      clampI (Ty.lo t) (Ty.hi t) (if neg then -n else n)

/-- A value written as an element of an ordinary type (spec/02 R45). -/
def elemOf (t : Ty) (v : Val) : Nat :=
  if t.isFloat then encodeF (fmtOf t) v else bitsOfInt t.width (toIntSat t v)

/-- The conversion between two ordinary types (spec/02 R45, spec/05 R101). -/
def convert (src dst : Ty) (b : Nat) : Nat := elemOf dst (valOf src b)

/-! ### The Grasen block format (spec/02 R37-R41) -/

/-- A group: its shared scale and 32 mantissas. -/
structure Group where
  e : Nat
  m : List Int
  deriving DecidableEq, Repr

/-- A value is finite. -/
def Val.isFin : Val → Bool
  | .fin .. => true
  | _ => false

/-- Exponent of the binade of a non-zero finite value. -/
def Val.binade : Val → Option Int
  | .fin _ m e => if m = 0 then none else some (m.log2 + e)
  | _ => none

/-- The greatest binade of a list of values, none where every value is zero. -/
def maxBinade : List Val → Option Int
  | [] => none
  | v :: vs =>
    match v.binade, maxBinade vs with
    | some a, some b => some (max a b)
    | some a, none => some a
    | none, b => b

/-- The mantissa of a value at scale `e` and width `b` (spec/02 R40). -/
def mantOf (b e : Nat) : Val → Int
  | .fin neg m x =>
      let n : Int := rneInt m (x + (b : Int) - 1 + 127 - e)
      clampI (-(2 ^ (b - 1) : Nat)) ((2 ^ (b - 1) : Nat) - 1) (if neg then -n else n)
  | _ => 0

/-- Block formation of finite values (spec/02 R40): the group and whether the scale saturated. -/
def formBlock (b : Nat) (vs : List Val) : Group × Bool :=
  match maxBinade vs with
  | none => (⟨0, vs.map fun _ => 0⟩, false)
  | some e =>
      let x := (min (max (e + 128) 0) 254).toNat
      (⟨x, vs.map (mantOf b x)⟩, decide (254 < e + 128))

/-- The all-zero finite value. -/
def zeroV : Val := .fin false 0 0

/-- Outcome of block formation under a NaN mode: the group, whether its scale saturated, whether it is a NaN block, and
the number of elements replaced (spec/02 R41, R47). -/
structure Formed where
  g : Group
  sat : Bool
  nan : Bool
  count : Nat
  deriving DecidableEq, Repr

/-- R41 then R40. `zc` is the zero-and-count mode. -/
def formGroup (zc : Bool) (b : Nat) (vs : List Val) : Formed :=
  let bad := (vs.filter fun v => !v.isFin).length
  if bad ≠ 0 && !zc then ⟨⟨255, vs.map fun _ => 0⟩, false, true, 0⟩
  else
    let r := formBlock b (vs.map fun v => if v.isFin then v else zeroV)
    ⟨r.1, r.2, false, bad⟩

/-- A stored mantissa of `b` bits as an integer. -/
def sextNat (b n : Nat) : Int := if 2 ^ (b - 1) ≤ n then (n : Int) - (2 ^ b : Nat) else n

/-- Mantissa `i` of a field read as one little-endian integer (spec/02 R38). -/
def fieldMant (b i fld : Nat) : Int := sextNat b (fld / 2 ^ (b * i) % 2 ^ b)

/-- A mantissa field as one little-endian integer (spec/02 R38). -/
def packMants (b : Nat) : List Int → Nat
  | [] => 0
  | m :: ms => bitsOfInt b m + 2 ^ b * packMants b ms

/-- The value of a mantissa under its scale (spec/02 R37). -/
def mantVal (b e : Nat) (m : Int) : Val :=
  if e = 255 then .nan else ofInt m ((e : Int) - 127 - ((b : Int) - 1))

/-- The 32 values of a Microscaling block, element bytes in a little-endian field (spec/02 R43). -/
def mxVal (t : Ty) (s q : Nat) : Val :=
  if s = 255 then .nan
  else if t = .mxi8 then ofInt (sextNat 8 q) ((s : Int) - 127 - 6)
  else
    let x := q / 8 % 16
    let f := q % 8
    if x = 15 ∧ f = 7 then .nan
    else if x = 0 then .fin (128 ≤ q) f ((s : Int) - 127 - 9)
    else .fin (128 ≤ q) (8 + f) ((s : Int) - 127 + x - 10)

/-- Exact sum of values without an intermediate rounding. -/
def sumV : List Val → Val
  | [] => zeroV
  | [v] => v
  | v :: vs => addV v (sumV vs)

end Sys2Proof.Machine
end

