-- ==== Sys2Proof/Config.lean ====
section
/-!
DEFINITION. What the spec leaves to the part or leaves open. A constant with no body is a FREE VALUE: no proof can
see what it is, and a statement that mentions it holds for every value it could have.
-/
namespace Sys2Proof.Config

/-- Hashes of the two signing keys that the boot ROM holds (spec/22 R383 gives no value); slot 0 is A, 1 is B. -/
opaque keySlotHash : Nat → BitVec 256

/-- The signature, by the device identity key, of a measurement response (spec/22 R386: the key is derived from a
physically unclonable function and the nonce of the signature is the controller's own). -/
opaque identitySign : List Byte → List Byte

/-- The certificate of the identity key that is kept in secure flash (spec/22 R386). -/
opaque identityCert : List Byte

/-- The digest with which MEAS0 is extended: that of the boot ROM (spec/22 R386 gives no value). -/
opaque romDigest : BitVec 256


/-- The positions that a sparse zero group stores, of a column or K-block beyond the tensor (spec/08 R172 gives none), by the number of
stored positions (log 23). -/
opaque padMask : Nat → BitVec 32

/-- A byte that the remote end of a queue pair answers a READ with (spec/09 R211), by draw number (log 24). -/
opaque remoteByte : Nat → Byte

/-- Does the remote end of a queue pair refuse an access (spec/22 R376)? By draw number (log 24). -/
opaque remoteRefuses : Nat → Bool

/-- The primary and the alternate port that an entry of the cascade routing table names (spec/22 R373, R385 give no layout). -/
opaque primaryPort : BitVec 64 → Nat
opaque alternatePort : BitVec 64 → Nat

/-- Capacity in pages of 4 KiB of the expander behind a downstream port (spec/22 R370: up to 4 TiB). -/
opaque farCapacity : Nat → Nat

/-- Is a write performed whose home does not answer (spec/22 R374)? By draw number. -/
opaque writeArrives : Nat → Bool

/-- The line that a full L2 slice gives up (spec/13 R259: the replacement policy is not architectural), by draw number. -/
opaque l2Victim : Nat → Nat

/-- What the cores of a context's other devices add to the sum of a circuit of the drain probe (spec/20 R321, R337), by draw number. -/
opaque awaySum : Nat → Int

/-- The bytes of a message of the cascade (spec/22 R373 gives none), by what it says. -/
opaque messageBytes : List Nat → List Byte

/-- Spare rows or lanes of a pool, an L2 slice, a register file or an HBM4E interface, by the UNIT code of a repair entry (spec/22 R382 gives no number). -/
opaque spares : Nat → Nat

/-- The priority on which RDMA traffic of a port runs (spec/22 R375, R376). -/
opaque rocePriority : Nat → Nat

/-- The key hashes under which the firmware has device kernel images accepted (spec/22 R383), by the firmware image. -/
opaque kernelKeys : List Byte → List (BitVec 256)

/-- The signer's public key carried in the payload of a device kernel image (spec/22 R383 says that it is there, R244 gives it no place). -/
opaque kernelKey : List Byte → List Byte

/-- Does a command on a queue pair that does not exist exhaust its retries, rather than meet a refusal (spec/22 R376 says neither)? By draw number. -/
opaque noPairRetries : Nat → Bool

/-- The floor that a command carried in an accepted image asks for, 0 for none (spec/22 R383 gives the command no form). -/
opaque floorCommand : List Byte → Nat

end Sys2Proof.Config
end

