-- ==== Sys2Proof/Decode.lean ====
section
/-!
DEFINITION. The decoder (spec/04 R68-R79, layouts of spec/05 to spec/09), total on any bits, and after it the encoder, written
from the same tables. An encoding is one natural number: bit 0 is the least significant bit of the first word (R68).
-/
namespace Sys2Proof

/-- What R79 finds at the program counter: an instruction, the pad word, or a trap with its cause and TVAL. -/
inductive Decoded where
  | instr (i : Instr)
  | pad
  | trap (cause tval : Nat)
  deriving DecidableEq, Repr

/-- Which values of a field are valid (spec/04 R76-R79): any; none but zero, bit by bit; below a bound; within a range;
multiples of eight. -/
inductive FieldKind where
  | any
  | res
  | lt (n : Nat)
  | rng (lo hi : Nat)
  | mult8
  deriving DecidableEq, Repr

/-- A form of an OP: its fields from bit 32 up, lowest first, covering every bit; the condition that joins two fields; and
the instruction its field values stand for. -/
structure Form where
  layout : List (Nat × FieldKind)
  cross : List Nat → Option Nat
  build : Common → List Nat → Option Instr

/-! ### Bit fields -/

/-- The values of consecutive fields of the given widths, lowest first. -/
def unpack : List Nat → Nat → List Nat
  | [], _ => []
  | w :: ws, n => n % 2 ^ w :: unpack ws (n / 2 ^ w)

/-- Consecutive fields (width, value), lowest first, as one number. -/
def pack : List (Nat × Nat) → Nat
  | [] => 0
  | (w, v) :: r => v % 2 ^ w + 2 ^ w * pack r

/-- Number of the lowest set bit, looking at no more than the given number of bits. -/
def lowBit : Nat → Nat → Nat
  | 0, _ => 0
  | f + 1, v => if v % 2 = 1 then 0 else lowBit f (v / 2) + 1

/-- The offset, within its field, of the bit that R79 reports for an invalid value. -/
def FieldKind.bad (w : Nat) (k : FieldKind) (v : Nat) : Option Nat :=
  match k with
  | .any => none
  | .res => if v = 0 then none else some (lowBit w v)
  | .lt n => if v < n then none else some 0
  | .rng lo hi => if lo ≤ v ∧ v ≤ hi then none else some 0
  | .mult8 => if v % 8 = 0 then none else some 0

/-- The lowest offending bit of a layout that starts at bit `at_`. -/
def firstBad : Nat → List (Nat × FieldKind) → List Nat → Option Nat
  | at_, (w, k) :: l, v :: vs =>
      match k.bad w v with
      | some b => some (at_ + b)
      | none => firstBad (at_ + w) l vs
  | _, _, _ => none

/-- The lower of two offending bits (log 11). -/
def minBit : Option Nat → Option Nat → Option Nat
  | some a, some b => some (min a b)
  | some a, none => some a
  | none, b => b

/-! ### Codes -/

def Len.ofCode : Nat → Option Len
  | 1 => some .l64 | 2 => some .l96 | 3 => some .l128 | _ => none
def Len.code : Len → Nat
  | .l64 => 1 | .l96 => 2 | .l128 => 3
/-- Length in bytes (spec/04 R68). -/
def Len.bytes : Len → Nat
  | .l64 => 8 | .l96 => 12 | .l128 => 16
def Ty.ofCode : Nat → Option Ty
  | 0 => some .s8 | 1 => some .s16 | 2 => some .s32 | 3 => some .s64 | 4 => some .z8 | 5 => some .z16 | 6 => some .z32
  | 7 => some .z64 | 8 => some .f16 | 9 => some .bf16 | 10 => some .f32 | 11 => some .gbf | 12 => some .mxi8
  | 13 => some .mxf8 | 14 => some .bit | _ => none
def IdxKind.ofCode : Nat → Option IdxKind
  | 0 => some .whole | 1 => some .sext32 | 2 => some .zext32 | _ => none
def IdxKind.code : IdxKind → Nat
  | .whole => 0 | .sext32 => 1 | .zext32 => 2
def SwapWidth.ofCode : Nat → Option SwapWidth
  | 0 => some .d | 1 => some .w | 2 => some .h | _ => none
def SwapWidth.code : SwapWidth → Nat
  | .d => 0 | .w => 1 | .h => 2
def ExtWidth.ofCode : Nat → Option ExtWidth
  | 0 => some .b | 1 => some .h | 2 => some .w | _ => none
def ExtWidth.code : ExtWidth → Nat
  | .b => 0 | .h => 1 | .w => 2
def Cond.ofCode : Nat → Option Cond
  | 0 => some .eq | 1 => some .ne | 2 => some .lt | 3 => some .ge | 4 => some .le | 5 => some .gt | 6 => some .ltz
  | 7 => some .gez | 8 => some .lez | 9 => some .gtz | 10 => some .any | 11 => some .none | _ => Option.none
def Cond.code : Cond → Nat
  | .eq => 0 | .ne => 1 | .lt => 2 | .ge => 3 | .le => 4 | .gt => 5 | .ltz => 6 | .gez => 7 | .lez => 8 | .gtz => 9
  | .any => 10 | .none => 11
def FCond.ofCode : Nat → Option FCond
  | 0 => some .eq | 1 => some .lt | 2 => some .le | 3 => some .un | _ => none
def FCond.code : FCond → Nat
  | .eq => 0 | .lt => 1 | .le => 2 | .un => 3
def VCond.ofCode : Nat → Option VCond
  | 0 => some .eq | 1 => some .ne | 2 => some .lt | 3 => some .ge | 4 => some .le | 5 => some .gt | 6 => some .un
  | _ => none
def VCond.code : VCond → Nat
  | .eq => 0 | .ne => 1 | .lt => 2 | .ge => 3 | .le => 4 | .gt => 5 | .un => 6
def Space.ofCode : Nat → Option Space
  | 0 => some .glob | 1 => some .own | 2 => some .clus | _ => none
def Space.code : Space → Nat
  | .glob => 0 | .own => 1 | .clus => 2
def Scope.ofCode : Nat → Option Scope
  | 0 => some .strand | 1 => some .core | 2 => some .cluster | 3 => some .basin | 4 => some .device | 5 => some .cascade
  | _ => none
def Scope.code : Scope → Nat
  | .strand => 0 | .core => 1 | .cluster => 2 | .basin => 3 | .device => 4 | .cascade => 5
def IdxWidth.ofCode : Nat → Option IdxWidth
  | 0 => some .w8 | 1 => some .w16 | 2 => some .w32 | 3 => some .w64 | _ => none
def IdxWidth.code : IdxWidth → Nat
  | .w8 => 0 | .w16 => 1 | .w32 => 2 | .w64 => 3
def DistFn.ofCode : Nat → Option DistFn
  | 0 => some .l2 | 1 => some .ip | 2 => some .ham | _ => none
def DistFn.code : DistFn → Nat
  | .l2 => 0 | .ip => 1 | .ham => 2
def AmoFn.ofCode : Nat → Option AmoFn
  | 0 => some .add | 1 => some .and | 2 => some .or | 3 => some .xor | 4 => some .min | 5 => some .max | 6 => some .swap
  | _ => none
def AmoFn.code : AmoFn → Nat
  | .add => 0 | .and => 1 | .or => 2 | .xor => 3 | .min => 4 | .max => 5 | .swap => 6
def Half.ofCode : Nat → Option Half
  | 1 => some .rel | 2 => some .acq | 3 => some .both | _ => none
def Half.code : Half → Nat
  | .rel => 1 | .acq => 2 | .both => 3
def Engine.ofCode : Nat → Option Engine
  | 0 => some .copy | 1 => some .topk | 2 => some .tab | _ => none
def Engine.code : Engine → Nat
  | .copy => 0 | .topk => 1 | .tab => 2
def TopkFn.ofCode : Nat → Option TopkFn
  | 0 => some .fd | 1 => some .fa | 2 => some .id | 3 => some .ia | _ => none
def TopkFn.code : TopkFn → Nat
  | .fd => 0 | .fa => 1 | .id => 2 | .ia => 3
/-- The four dividing operations by OP 0x06 to 0x09. -/
def DivKind.op : DivKind → Nat
  | .div => 6 | .divz => 7 | .rem => 8 | .remz => 9

/-! ### Field shorthands -/

def fReg : Nat × FieldKind := (5, .any)
def fPred : Nat × FieldKind := (5, .lt 8)
def fNone : Nat × FieldKind := (5, .res)
def fBits (w : Nat) : Nat × FieldKind := (w, .any)
def fRes (w : Nat) : Nat × FieldKind := (w, .res)
def fAs : Nat × FieldKind := (2, .lt 3)
def fScope : Nat × FieldKind := (3, .lt 6)
/-- MW of a typed form (spec/04 R77, R79). -/
def fMw (t : Ty) : Nat × FieldKind := if t = .gbf then (4, .rng 2 8) else (4, .lt 1)
/-- SAT of a typed form: reserved unless the type is an integer type (spec/07 R142). -/
def fSat (t : Ty) : Nat × FieldKind := if t.isInt then (1, .any) else (1, .res)

def toS (n : Nat) : SReg := BitVec.ofNat 5 n
def toG (n : Nat) : GReg := BitVec.ofNat 3 n
def toB (n : Nat) : Bool := n != 0
/-- A short immediate, sign-extended to 32 bits. -/
def toImm (w n : Nat) : BitVec 32 := (BitVec.ofNat w n).signExtend 32
/-- A short immediate, sign-extended to 64 bits. -/
def toImmW (w n : Nat) : BitVec 64 := (BitVec.ofNat w n).signExtend 64

/-- A form without a condition that joins fields. -/
def mk (l : List (Nat × FieldKind)) (b : Common → List Nat → Option Instr) : Form := ⟨l, fun _ => none, b⟩

/-- The form, where the condition holds. -/
def onlyIf (p : Bool) (f : Form) : Option Form := if p then some f else none

/-- The form of a typed OP, for a type its function accepts (spec/04 R79). -/
def typed (t : Option Ty) (p : Ty → Bool) (f : Ty → Form) : Option Form :=
  match t with
  | some t => if p t then some (f t) else none
  | none => none

/-! ### Scalar, predicate and control forms (spec/05) -/

def formS3 (f : Common → SReg → SReg → SReg → Instr) : Form :=
  mk [fReg, fReg, fReg, fRes 17] fun c v =>
    match v with
    | [d, a, b, _] => some (f c (toS d) (toS a) (toS b))
    | _ => none

def formS2 (f : Common → SReg → SReg → Instr) : Form :=
  mk [fReg, fReg, fNone, fRes 17] fun c v =>
    match v with
    | [d, a, _, _] => some (f c (toS d) (toS a))
    | _ => none

/-- ADDI and its like, at the two lengths (spec/05 R95). -/
def formImm (len : Len) (f : Common → SReg → SReg → BitVec 32 → Instr) : Option Form :=
  match len with
  | .l64 => some (mk [fReg, fReg, fNone, fBits 17] fun c v =>
      match v with
      | [d, a, _, i] => some (f c (toS d) (toS a) (toImm 17 i))
      | _ => none)
  | .l96 => some (mk [fReg, fReg, fNone, fRes 17, fBits 32] fun c v =>
      match v with
      | [d, a, _, _, i] => some (f c (toS d) (toS a) (toImm 32 i))
      | _ => none)
  | .l128 => none

def formShift (f : Common → SReg → SReg → BitVec 6 → Instr) : Form :=
  mk [fReg, fReg, fNone, fBits 6, fRes 11] fun c v =>
    match v with
    | [d, a, _, n, _] => some (f c (toS d) (toS a) (.ofNat 6 n))
    | _ => none

def formCmp (f : Common → GReg → SReg → SReg → GReg → Instr) : Form :=
  mk [fPred, fReg, fReg, fBits 3, fRes 14] fun c v =>
    match v with
    | [p, a, b, q, _] => some (f c (toG p) (toS a) (toS b) (toG q))
    | _ => none

def formPred (f : Common → GReg → GReg → GReg → Bool → Bool → Instr) : Form :=
  mk [fPred, fPred, fPred, fBits 1, fBits 1, fRes 15] fun c v =>
    match v with
    | [d, a, b, x, y, _] => some (f c (toG d) (toG a) (toG b) (toB x) (toB y))
    | _ => none

def formMov (fn : Nat) : Option Form :=
  match fn with
  | 0 => some (formS2 fun c d a => .mov c (.ss d a))
  | 1 => some (mk [fPred, fReg, fNone, fRes 17] fun c v =>
      match v with
      | [d, a, _, _] => some (.mov c (.ks (toG d) (toS a)))
      | _ => none)
  | 2 => some (mk [fReg, fPred, fNone, fRes 17] fun c v =>
      match v with
      | [d, a, _, _] => some (.mov c (.sk (toS d) (toG a)))
      | _ => none)
  | 3 => some (mk [fPred, fPred, fNone, fRes 17] fun c v =>
      match v with
      | [d, a, _, _] => some (.mov c (.kk (toG d) (toG a)))
      | _ => none)
  | _ => none

def formPmov (fn : Nat) : Option Form :=
  match fn with
  | 0 => some (mk [fPred, fPred, fNone, fBits 1, fRes 16] fun c v =>
      match v with
      | [d, a, _, n, _] => some (.pmov c (.move (toG d) (toG a) (toB n)))
      | _ => none)
  | 1 => some (mk [fReg, fNone, fNone, fRes 17] fun c v =>
      match v with
      | [d, _, _, _] => some (.pmov c (.sg (toS d)))
      | _ => none)
  | 2 => some (mk [fNone, fReg, fNone, fRes 17] fun c v =>
      match v with
      | [_, a, _, _] => some (.pmov c (.gs (toS a)))
      | _ => none)
  | _ => none

/-- LOOP's trip-count register by MBX (spec/05 R106). -/
def toLoopSrc (mbx a : Nat) : LoopSrc := if mbx = 0 then .s (toS a) else .mb (.ofNat 3 a)

/-- A mailbox number of 8 or more is reserved (spec/05 R106). -/
def loopCross (mbx a : Nat) : Option Nat := if mbx ≠ 0 ∧ 8 ≤ a then some 37 else none

def formLoop (len : Len) : Option Form :=
  match len with
  | .l64 => some ⟨[fNone, fReg, fNone, (10, .rng 1 1023), fBits 1, (3, .lt 5), fBits 3],
      fun v => match v with
        | [_, a, _, _, m, _, _] => loopCross m a
        | _ => none,
      fun c v => match v with
        | [_, a, _, b, m, sm, st] => some (.loop c (toLoopSrc m a) (.ofNat 3 st) (.ofNat 3 sm) (.ofNat 25 b))
        | _ => none⟩
  | .l96 => some ⟨[fNone, fReg, fNone, fRes 17, (25, .rng 1 33554431), fBits 1, (3, .lt 5), fBits 3],
      fun v => match v with
        | [_, a, _, _, _, m, _, _] => loopCross m a
        | _ => none,
      fun c v => match v with
        | [_, a, _, _, b, m, sm, st] => some (.loop c (toLoopSrc m a) (.ofNat 3 st) (.ofNat 3 sm) (.ofNat 25 b))
        | _ => none⟩
  | .l128 => none

def formNop (len : Len) : Form :=
  let b : Common → List Nat → Option Instr := fun c _ => some (.nop c)
  match len with
  | .l64 => mk [fRes 32] b
  | .l96 => mk [fRes 32, fRes 32] b
  | .l128 => mk [fRes 32, fRes 64] b

def formBr (len : Len) : Option Form :=
  match len with
  | .l64 => some (mk [fNone, fNone, fNone, fBits 17] fun c v =>
      match v with
      | [_, _, _, o] => some (.br c (toImm 17 o))
      | _ => none)
  | .l96 => some (mk [fNone, fNone, fNone, fRes 17, fBits 32] fun c v =>
      match v with
      | [_, _, _, _, o] => some (.br c (toImm 32 o))
      | _ => none)
  | .l128 => none

def formJmp (len : Len) : Option Form :=
  match len with
  | .l64 => some (mk [fNone, fReg, fNone, fBits 17] fun c v =>
      match v with
      | [_, a, _, o] => some (.jmp c (toS a) (toImm 17 o))
      | _ => none)
  | .l96 => some (mk [fNone, fReg, fNone, fRes 17, fBits 32] fun c v =>
      match v with
      | [_, a, _, _, o] => some (.jmp c (toS a) (toImm 32 o))
      | _ => none)
  | .l128 => none

def formJal (len : Len) : Option Form :=
  match len with
  | .l64 => some (mk [fReg, fNone, fNone, fBits 17] fun c v =>
      match v with
      | [d, _, _, o] => some (.jal c (toS d) (toImm 17 o))
      | _ => none)
  | .l96 => some (mk [fReg, fNone, fNone, fRes 17, fBits 32] fun c v =>
      match v with
      | [d, _, _, _, o] => some (.jal c (toS d) (toImm 32 o))
      | _ => none)
  | .l128 => none

def formCmpi (len : Len) (cd : Cond) : Option Form :=
  match len with
  | .l64 => some (mk [fPred, fReg, fPred, fBits 17] fun c v =>
      match v with
      | [p, a, q, i] => some (.cmpi c cd (toG p) (toS a) (toG q) (toImm 17 i))
      | _ => none)
  | .l96 => some (mk [fPred, fReg, fPred, fRes 17, fBits 32] fun c v =>
      match v with
      | [p, a, q, _, i] => some (.cmpi c cd (toG p) (toS a) (toG q) (toImm 32 i))
      | _ => none)
  | .l128 => none

def formSel : Form :=
  mk [fReg, fReg, fReg, fBits 3, fBits 1, fRes 13] fun c v =>
    match v with
    | [d, a, b, g, n, _] => some (.sel c (toS d) (toS a) (toS b) (toG g) (toB n))
    | _ => none

def formLi (fn : Nat) : Option Form :=
  match fn with
  | 0 => some (mk [fReg, fNone, fNone, fRes 17, fBits 64] fun c v =>
      match v with
      | [d, _, _, _, i] => some (.li c (.s (toS d)) (.ofNat 64 i))
      | _ => none)
  | 1 => some (mk [fPred, fNone, fNone, fRes 17, fBits 64] fun c v =>
      match v with
      | [d, _, _, _, i] => some (.li c (.k (toG d)) (.ofNat 64 i))
      | _ => none)
  | _ => none

def formFfma : Form :=
  mk [fReg, fReg, fReg, fReg, fRes 12] fun c v =>
    match v with
    | [d, a, b, e, _] => some (.ffma c (toS d) (toS a) (toS b) (toS e))
    | _ => none

def formFcvt (src t : Ty) : Form :=
  mk [fReg, fReg, fNone, fRes 13, fMw t] fun c v =>
    match v with
    | [d, a, _, _, _] => some (.fcvt c src t (toS d) (toS a))
    | _ => none

/-- ADDX by FN (spec/05 R88). -/
def formAddx (fn : Nat) : Option Form :=
  match IdxKind.ofCode (fn / 4) with
  | some k => some (formS3 fun c d a b => .addx c k (.ofNat 2 (fn % 4)) d a b)
  | none => none

/-- DIV and its like by FN (spec/05 R88). -/
def formDiv (fn : Nat) (f : Common → SReg → SReg → SReg → Instr) (k : DivKind) : Option Form :=
  match fn with
  | 0 => some (formS3 f)
  | 1 => some (formS3 fun c d a b => .divT c k d a b)
  | _ => none

/-- OP 0x01 to 0x1F (spec/05 R88-R93), all of 64 bits. -/
def formAlu (op fn : Nat) : Option Form :=
  match op with
  | 0x01 => onlyIf (fn == 0) (formS3 .add)
  | 0x02 => onlyIf (fn == 0) (formS3 .sub)
  | 0x03 => onlyIf (fn == 0) (formS3 .mul)
  | 0x04 => onlyIf (fn == 0) (formS3 .mulh)
  | 0x05 => onlyIf (fn == 0) (formS3 .mulhz)
  | 0x06 => formDiv fn .div .div
  | 0x07 => formDiv fn .divz .divz
  | 0x08 => formDiv fn .rem .rem
  | 0x09 => formDiv fn .remz .remz
  | 0x0A => formAddx fn
  | 0x0B => onlyIf (fn == 0) (formS3 .and)
  | 0x0C => onlyIf (fn == 0) (formS3 .or)
  | 0x0D => onlyIf (fn == 0) (formS3 .xor)
  | 0x0E => onlyIf (fn == 0) (formS3 .shl)
  | 0x0F => onlyIf (fn == 0) (formS3 .shr)
  | 0x10 => onlyIf (fn == 0) (formS3 .sra)
  | 0x11 => onlyIf (fn == 0) (formS3 .min)
  | 0x12 => onlyIf (fn == 0) (formS3 .max)
  | 0x13 => onlyIf (fn == 0) (formS3 .minz)
  | 0x14 => onlyIf (fn == 0) (formS3 .maxz)
  | 0x15 => onlyIf (fn == 0) (formS2 .clz)
  | 0x16 => onlyIf (fn == 0) (formS2 .ctz)
  | 0x17 => onlyIf (fn == 0) (formS2 .popc)
  | 0x18 => (SwapWidth.ofCode fn).map fun k => formS2 fun c d a => .bswap c k d a
  | 0x19 => (ExtWidth.ofCode fn).map fun k => formS2 fun c d a => .sext c k d a
  | 0x1A => (ExtWidth.ofCode fn).map fun k => formS2 fun c d a => .zext c k d a
  | 0x1B => formMov fn
  | 0x1C => onlyIf (fn == 0) formSel
  | 0x1D => (Cond.ofCode fn).map fun k => formCmp fun c p a b q => .cmp c k p a b q
  | _ => none

/-- OP 0x30 to 0x3B (spec/05 R99-R103), all of 64 bits. -/
def formFp (op sub : Nat) : Option Form :=
  match op with
  | 0x30 => onlyIf (sub == 0) (formS3 .fadd)
  | 0x31 => onlyIf (sub == 0) (formS3 .fsub)
  | 0x32 => onlyIf (sub == 0) (formS3 .fmul)
  | 0x33 => onlyIf (sub == 0) formFfma
  | 0x34 => onlyIf (sub == 0) (formS3 .fmin)
  | 0x35 => onlyIf (sub == 0) (formS3 .fmax)
  | 0x36 => (FCond.ofCode sub).map fun k => formCmp fun c p a b q => .fcmp c k p a b q
  | 0x37 => match Ty.ofCode (sub / 16) with
      | some s => if s.isNum then typed (Ty.ofCode (sub % 16)) Ty.isNum (formFcvt s) else none
      | none => none
  | 0x38 => onlyIf (sub == 0) (formPred .pand)
  | 0x39 => onlyIf (sub == 0) (formPred .por)
  | 0x3A => onlyIf (sub == 0) (formPred .pxor)
  | 0x3B => formPmov sub
  | _ => none

def formEnd : Form := mk [fRes 32] fun c _ => some (.endStrand c)

def formYield : Form :=
  mk [fRes 15, fBits 17] fun c v =>
    match v with
    | [_, n] => some (.yield c (.ofNat 17 n))
    | _ => none

def formJr : Form :=
  mk [fReg, fReg, fNone, fRes 17] fun c v =>
    match v with
    | [d, a, _, _] => some (.jr c (toS d) (toS a))
    | _ => none

/-- OP 0x20 to 0x28 and 0x40 to 0x47 (spec/05 R95-R97, R104-R116). -/
def formCtl (op : Nat) (len : Len) (fn : Nat) : Option Form :=
  match op with
  | 0x20 => if fn = 0 then formImm len .addi else none
  | 0x21 => if fn = 0 then formImm len .andi else none
  | 0x22 => if fn = 0 then formImm len .ori else none
  | 0x23 => if fn = 0 then formImm len .xori else none
  | 0x24 => match Cond.ofCode fn with
      | some k => formCmpi len k
      | none => none
  | 0x25 => onlyIf (len == .l64 && fn == 0) (formShift .shli)
  | 0x26 => onlyIf (len == .l64 && fn == 0) (formShift .shri)
  | 0x27 => onlyIf (len == .l64 && fn == 0) (formShift .srai)
  | 0x28 => if len = .l128 then formLi fn else none
  | 0x40 => if fn = 0 then formBr len else none
  | 0x41 => if fn = 0 then formJmp len else none
  | 0x42 => if fn = 0 then formJal len else none
  | 0x43 => onlyIf (len == .l64 && fn == 0) formJr
  | 0x44 => if fn = 0 then formLoop len else none
  | 0x45 => onlyIf (fn == 0) (formNop len)
  | 0x46 => onlyIf (len == .l64 && fn == 0) formEnd
  | 0x47 => onlyIf (len == .l64 && fn == 0) formYield
  | _ => none

/-! ### Memory forms (spec/06) -/

def formLd (len : Len) (t : Ty) (f : Common → Space → SReg → SReg → BitVec 32 → Instr) : Option Form :=
  match len with
  | .l64 => some (mk [fReg, fReg, fAs, fRes 3, fBits 13, fMw t] fun c v =>
      match v with
      | [d, a, s, _, o, _] => (Space.ofCode s).map fun s => f c s (toS d) (toS a) (toImm 13 o)
      | _ => none)
  | .l96 => some (mk [fReg, fReg, fAs, fRes 3, fRes 13, fMw t, fBits 32] fun c v =>
      match v with
      | [d, a, s, _, _, _, o] => (Space.ofCode s).map fun s => f c s (toS d) (toS a) (toImm 32 o)
      | _ => none)
  | .l128 => none

def formLdv (len : Len) (t : Ty) (f : Common → Space → KReg → VReg → SReg → BitVec 32 → Instr) : Option Form :=
  match len with
  | .l64 => some (mk [fReg, fReg, fAs, fBits 3, fBits 13, fMw t] fun c v =>
      match v with
      | [d, a, s, k, o, _] => (Space.ofCode s).map fun s => f c s (toG k) (toS d) (toS a) (toImm 13 o)
      | _ => none)
  | .l96 => some (mk [fReg, fReg, fAs, fBits 3, fRes 13, fMw t, fBits 32] fun c v =>
      match v with
      | [d, a, s, k, _, _, o] => (Space.ofCode s).map fun s => f c s (toG k) (toS d) (toS a) (toImm 32 o)
      | _ => none)
  | .l128 => none

/-- With NBND the bound register is reserved (spec/06 R127). -/
def gatherCross (nbnd sc : Nat) : Option Nat := if nbnd ≠ 0 ∧ sc ≠ 0 then some (47 + lowBit 5 sc) else none

/-- LDG (`ld` true) and STG (spec/06 R127). -/
def formGather (ld : Bool) (t : Ty) (f : Common → VReg → SReg → VReg → SReg → Gather → Instr) : Form :=
  ⟨[fReg, fReg, fReg, fReg, if ld then fReg else fNone, fRes 1, if ld then fBits 1 else fRes 1, fBits 1, fMw t,
    fRes 15, fAs, (3, .lt 7), fBits 1, fBits 2, fBits 3, fBits 3, fBits 3],
   fun v => match v with
    | [_, _, _, e, _, _, _, nb, _, _, _, _, _, _, _, _, _] => gatherCross nb e
    | _ => none,
   fun c v => match v with
    | [d, a, b, e, fr, _, fi, nb, _, _, s, scl, isg, iw, fk, ok, km] =>
        match Space.ofCode s, IdxWidth.ofCode iw with
        | some s, some iw => some (f c (toS d) (toS a) (toS b) (toS e)
            ⟨toG km, toG ok, toG fk, iw, toB isg, .ofNat 3 scl, s, toB nb, toB fi, toS fr⟩)
        | _, _ => none
    | _ => none⟩

def formPref (len : Len) : Option Form :=
  match len with
  | .l64 => some (mk [fReg, fReg, fReg, fBits 17] fun c v =>
      match v with
      | [d, a, b, o] => some (.pref c (toS d) (toS a) (toS b) (toImm 17 o))
      | _ => none)
  | .l96 => some (mk [fReg, fReg, fReg, fRes 17, fBits 32] fun c v =>
      match v with
      | [d, a, b, _, o] => some (.pref c (toS d) (toS a) (toS b) (toImm 32 o))
      | _ => none)
  | .l128 => none

/-- A form of SA and SB alone. -/
def formAB (f : Common → SReg → SReg → Instr) : Form :=
  mk [fNone, fReg, fReg, fRes 17] fun c v =>
    match v with
    | [_, a, b, _] => some (f c (toS a) (toS b))
    | _ => none

/-- OP 0x50 to 0x59 (spec/06 R122-R133). -/
def formMem (op : Nat) (len : Len) (sub : Nat) : Option Form :=
  let t := Ty.ofCode (sub % 16)
  let fn := sub / 16
  match op with
  | 0x50 => match t with
      | some t => if fn = 0 ∧ t.isNum then formLd len t (fun c => .ld c t) else none
      | none => none
  | 0x51 => match t with
      | some t => if fn = 0 ∧ t.isNum then formLd len t (fun c => .st c t) else none
      | none => none
  | 0x52 => match t with
      | some t => if fn ≤ 1 ∧ t.isNum then formLdv len t (fun c => .ldv c (toB fn) t) else none
      | none => none
  | 0x53 => match t with
      | some t => if fn = 0 ∧ t.isNum then formLdv len t (fun c => .stv c t) else none
      | none => none
  | 0x54 => if len = .l96 ∧ fn = 0 then typed t Ty.isNum (fun t => formGather true t (fun c => .ldg c t)) else none
  | 0x55 => if len = .l96 ∧ fn = 0 then typed t Ty.isNum (fun t => formGather false t (fun c => .stg c t)) else none
  | 0x56 => if sub = 0 then formPref len else none
  | 0x57 => onlyIf (len == .l64 && sub == 0) (formAB .wb)
  | 0x58 => onlyIf (len == .l64 && sub == 0) (formAB .inv)
  | 0x59 => match Scope.ofCode sub with
      | some s => onlyIf (len == .l64 && s != .cascade) (formAB fun c => .icinv c s)
      | none => none
  | _ => none

/-! ### Vector forms (spec/07) -/

/-- VADD and its like: three registers, with SAT (spec/07 R141, R142). -/
def formV3s (t : Ty) (f : Common → Ty → Bool → Bool → KReg → VReg → VReg → VReg → Instr) : Form :=
  mk [fReg, fReg, fReg, fNone, fBits 3, fRes 3, fSat t, fBits 1, fMw t] fun c v =>
    match v with
    | [d, a, b, _, k, _, s, z, _] => some (f c t (toB z) (toB s) (toG k) (toS d) (toS a) (toS b))
    | _ => none

def formV3 (t : Ty) (f : Common → Ty → Bool → KReg → VReg → VReg → VReg → Instr) : Form :=
  mk [fReg, fReg, fReg, fNone, fBits 3, fRes 3, fRes 1, fBits 1, fMw t] fun c v =>
    match v with
    | [d, a, b, _, k, _, _, z, _] => some (f c t (toB z) (toG k) (toS d) (toS a) (toS b))
    | _ => none

def formV2s (t : Ty) (f : Common → Ty → Bool → Bool → KReg → VReg → VReg → Instr) : Form :=
  mk [fReg, fReg, fNone, fNone, fBits 3, fRes 3, fSat t, fBits 1, fMw t] fun c v =>
    match v with
    | [d, a, _, _, k, _, s, z, _] => some (f c t (toB z) (toB s) (toG k) (toS d) (toS a))
    | _ => none

def formVmad (t : Ty) : Form :=
  mk [fReg, fReg, fReg, fReg, fBits 3, fRes 3, fSat t, fBits 1, fMw t] fun c v =>
    match v with
    | [d, a, b, e, k, _, s, z, _] => some (.vmad c t (toB z) (toB s) (toG k) (toS d) (toS a) (toS b) (toS e))
    | _ => none

def formVcmp (cd : VCond) (t : Ty) : Form :=
  mk [fPred, fReg, fReg, fNone, fBits 3, fBits 3, fRes 1, fRes 1, fMw t] fun c v =>
    match v with
    | [d, a, b, _, k, x, _, _, _] => some (.vcmp c cd t (toG k) (toG d) (toS a) (toS b) (toG x))
    | _ => none

def formVsel (t : Ty) : Form :=
  mk [fReg, fReg, fReg, fNone, fBits 3, fRes 3, fRes 1, fRes 1, fMw t] fun c v =>
    match v with
    | [d, a, b, _, k, _, _, _, _] => some (.vsel c t (toG k) (toS d) (toS a) (toS b))
    | _ => none

def formVcvt (s t : Ty) : Form :=
  mk [fReg, fReg, fNone, fNone, fBits 3, (3, .lt (s.ratio t)), fRes 1, fBits 1, fMw t] fun c v =>
    match v with
    | [d, a, _, _, k, h, _, z, _] => some (.vcvt c s t (toB z) (.ofNat 3 h) (toG k) (toS d) (toS a))
    | _ => none

def formVpack (s : Ty) : Form :=
  mk [fReg, fReg, if s.width = 32 then fReg else fNone, if s.isBlock then fReg else fNone, fReg, fBits 3,
      (4, .rng 2 8)] fun c v =>
    match v with
    | [d, a, b, e, es, k, m] => some (.vpack c s (.ofNat 4 m) (toG k) (toS es) (toS d) (toS a) (toS b) (toS e))
    | _ => none

def formVunpack (t : Ty) : Form :=
  mk [fReg, fReg, fNone, fReg, fRes 3, if t.width = 32 then fBits 1 else fRes 1, fBits 1, fBits 3,
      (4, .rng 2 8)] fun c v =>
    match v with
    | [d, a, _, e, _, h, z, k, m] => some (.vunpack c t (.ofNat 4 m) (toB z) (toB h) (toG k) (toS d) (toS a) (toS e))
    | _ => none

def formVredsum (t : Ty) : Form :=
  mk [fReg, fReg, fNone, fNone, fBits 3, fRes 3, fSat t, fRes 1, fMw t] fun c v =>
    match v with
    | [d, a, _, _, k, _, s, _, _] => some (.vredsum c t (toB s) (toG k) (toS d) (toS a))
    | _ => none

def formVredm (t : Ty) (f : Common → Ty → KReg → SReg → VReg → SReg → Instr) : Form :=
  mk [fReg, fReg, fNone, fReg, fBits 3, fRes 3, fRes 1, fRes 1, fMw t] fun c v =>
    match v with
    | [d, a, _, e, k, _, _, _, _] => some (f c t (toG k) (toS d) (toS a) (toS e))
    | _ => none

def formVperm (t2 : Bool) (t : Ty) : Form :=
  mk [fReg, fReg, fReg, if t2 then fReg else fNone, fBits 3, fRes 3, fRes 1, fBits 1, fMw t] fun c v =>
    match v with
    | [d, a, b, e, k, _, _, z, _] => some (.vperm c t2 t (toB z) (toG k) (toS d) (toS a) (toS b) (toS e))
    | _ => none

def formVslide (up : Bool) (t : Ty) : Form :=
  mk [fReg, fReg, fReg, fReg, fBits 3, fRes 3, fRes 1, fBits 1, fMw t] fun c v =>
    match v with
    | [d, a, b, e, k, _, _, z, _] => some (.vslide c up t (toB z) (toG k) (toS d) (toS a) (toS b) (toS e))
    | _ => none

def formVext (t : Ty) (f : Common → Ty → BitVec 5 → BitVec 5 → BitVec 5 → Instr) : Form :=
  mk [fReg, fReg, fReg, fNone, fRes 3, fRes 3, fRes 1, fRes 1, fMw t] fun c v =>
    match v with
    | [d, a, b, _, _, _, _, _, _] => some (f c t (toS d) (toS a) (toS b))
    | _ => none

def formVbcast (len : Len) (fn : Nat) (t : Ty) : Option Form :=
  match fn, len with
  | 0, .l64 => some (mk [fReg, fReg, fRes 1, fBits 1, fBits 3, fRes 13, fMw t] fun c v =>
      match v with
      | [d, a, _, z, k, _, _] => some (.vbcast c (.reg (toS a)) t (toB z) (toG k) (toS d))
      | _ => none)
  | 2, .l64 => some (mk [fReg, fReg, fRes 1, fBits 1, fBits 3, (6, .lt t.lanes), fRes 7, fMw t] fun c v =>
      match v with
      | [d, a, _, z, k, l, _, _] => some (.vbcast c (.lane (toS a) (.ofNat 6 l)) t (toB z) (toG k) (toS d))
      | _ => none)
  | 1, .l64 => some (mk [fReg, fNone, fRes 1, fBits 1, fBits 3, fBits 13, fMw t] fun c v =>
      match v with
      | [d, _, _, z, k, i, _] => some (.vbcast c (.imm (toImmW 13 i)) t (toB z) (toG k) (toS d))
      | _ => none)
  | 1, .l96 => some (mk [fReg, fNone, fRes 1, fBits 1, fBits 3, fRes 13, fMw t, fBits 32] fun c v =>
      match v with
      | [d, _, _, z, k, _, _, i] => some (.vbcast c (.imm (toImmW 32 i)) t (toB z) (toG k) (toS d))
      | _ => none)
  | 1, .l128 => some (mk [fReg, fNone, fRes 1, fBits 1, fBits 3, fRes 13, fMw t, fBits 64] fun c v =>
      match v with
      | [d, _, _, z, k, _, _, i] => some (.vbcast c (.imm (toImmW 64 i)) t (toB z) (toG k) (toS d))
      | _ => none)
  | _, _ => none

def formVdist (f : DistFn) (t : Ty) : Form :=
  mk [fReg, fReg, fReg, fBits 3, fRes 2, fBits 3, fRes 1, (3, .rng (distGs t).1 (distGs t).2), fBits 1, fMw t] fun c v =>
    match v with
    | [d, a, b, o, _, k, _, g, x, _] => some (.vdist c f t (toB x) (.ofNat 3 g) (toG k) (toG o) (toS d) (toS a) (toS b))
    | _ => none

def formVtab (t : Ty) : Form :=
  mk [fReg, fReg, fNone, fBits 2, fRes 3, fBits 3, fRes 4, fBits 1, fMw t] fun c v =>
    match v with
    | [d, a, _, b, _, k, _, z, _] => some (.vtab c t (toB z) (toG k) (.ofNat 2 b) (toS d) (toS a))
    | _ => none

def formVstrm (ax : Bool) (t : Ty) : Form :=
  mk [fNone, fReg, fReg, if ax then fReg else fNone, fRes 8, fMw t, fAs, fAs, fRes 28] fun c v =>
    match v with
    | [_, a, b, e, _, m, ss, ds, _] =>
        match Space.ofCode ds, Space.ofCode ss with
        | some ds, some ss => some (.vstrm c ax t (.ofNat 4 m) ds ss (toS a) (toS b) (toS e))
        | _, _ => none
    | _ => none

/-- OP 0x60 to 0x6F (spec/07 R142), all of 64 bits. -/
def formVecA (op fn : Nat) (t : Option Ty) : Option Form :=
  match op with
  | 0x60 => if fn = 0 then typed t Ty.isNum (fun t => formV3s t .vadd) else none
  | 0x61 => if fn = 0 then typed t Ty.isNum (fun t => formV3s t .vsub) else none
  | 0x62 => if fn = 0 then typed t Ty.isNum (fun t => formV3s t .vmul) else none
  | 0x63 => if fn = 0 then typed t Ty.isNum formVmad else none
  | 0x64 => if fn = 0 then typed t Ty.isNum (fun t => formV3 t .vmin) else none
  | 0x65 => if fn = 0 then typed t Ty.isNum (fun t => formV3 t .vmax) else none
  | 0x66 => if fn = 0 then typed t Ty.isNum (fun t => formV2s t .vabs) else none
  | 0x67 => if fn = 0 then typed t Ty.isNum (fun t => formV2s t .vneg) else none
  | 0x68 => if fn = 0 then typed t logicTyOk (fun t => formV3 t .vand) else none
  | 0x69 => if fn = 0 then typed t logicTyOk (fun t => formV3 t .vor) else none
  | 0x6A => if fn = 0 then typed t logicTyOk (fun t => formV3 t .vxor) else none
  | 0x6B => if fn = 0 then typed t Ty.isInt (fun t => formV3 t .vshl) else none
  | 0x6C => if fn = 0 then typed t Ty.isInt (fun t => formV3 t .vshr) else none
  | 0x6D => if fn = 0 then typed t Ty.isInt (fun t => formV3 t .vsra) else none
  | 0x6E => match VCond.ofCode fn with
      | some k => typed t (fun t => t.isNum && (k != .un || t.isFloat)) (formVcmp k)
      | none => none
  | 0x6F => if fn = 0 then typed t (fun t => t.isNum || t == .bit) formVsel else none
  | _ => none

/-- OP 0x70 to 0x7D (spec/07 R142, R153-R165). -/
def formVecB (op : Nat) (len : Len) (fn : Nat) (t : Option Ty) : Option Form :=
  match op with
  | 0x70 => match Ty.ofCode fn with
      | some s => if len = .l64 ∧ s.isNum then typed t Ty.isNum (formVcvt s) else none
      | none => none
  | 0x71 => match Ty.ofCode fn with
      | some s => if len = .l64 ∧ packTyOk s then typed t (· == .gbf) (fun _ => formVpack s) else none
      | none => none
  | 0x72 => match Ty.ofCode fn with
      | some s => if len = .l64 ∧ unpackTyOk s then typed t (· == .gbf) (fun _ => formVunpack s) else none
      | none => none
  | 0x73 => if len = .l64 ∧ fn = 0 then typed t (fun t => t.isNum || t == .bit) formVredsum else none
  | 0x74 => if len = .l64 ∧ fn = 0 then typed t Ty.isNum (fun t => formVredm t .vredmax) else none
  | 0x75 => if len = .l64 ∧ fn = 0 then typed t Ty.isNum (fun t => formVredm t .vredmin) else none
  | 0x76 => if len = .l64 ∧ fn ≤ 1 then typed t Ty.isNum (formVperm (toB fn)) else none
  | 0x77 => match t with
      | some t => if t.isNum then formVbcast len fn t else none
      | none => none
  | 0x78 => if len = .l64 ∧ fn ≤ 1 then typed t Ty.isNum (formVslide (toB fn)) else none
  | 0x79 => if len = .l64 ∧ fn = 0 then typed t Ty.isNum (fun t => formVext t .vext) else none
  | 0x7A => if len = .l64 ∧ fn = 0 then typed t Ty.isNum (fun t => formVext t .vins) else none
  | 0x7B => match DistFn.ofCode fn with
      | some f => if len = .l64 then typed t (distTyOk f) (formVdist f) else none
      | none => none
  | 0x7C => if len = .l64 ∧ fn = 0 then typed t Ty.isFloat formVtab else none
  | 0x7D => if len = .l96 ∧ fn ≤ 1 then
        typed t (fun t => if fn = 1 then t.isFloat else t.isNum || t == .gbf) (formVstrm (toB fn))
      else none
  | _ => none

/-! ### Matrix and walk forms (spec/08) -/

def formWld : Form :=
  mk [fNone, fReg, fNone, fAs, fRes 15, fBits 11, fBits 16, (7, .rng 1 80), fBits 1, fRes 29] fun c v =>
    match v with
    | [_, a, _, s, _, k, col, nw, fu, _] =>
        (Space.ofCode s).map fun s => .wld c (toS a) s (toB fu) (.ofNat 7 nw) (.ofNat 16 col) (.ofNat 11 k)
    | _ => none

def formMma : Form :=
  mk [fPred, fReg, fNone, fAs, fRes 2, fBits 11, fRes 2, fBits 16, fRes 16, (10, .rng 1 48), fRes 10, fRes 6,
      fRes 6] fun c v =>
    match v with
    | [d, a, _, s, _, k, _, r0, _, nr, _, _, _] =>
        (Space.ofCode s).map fun s => .mma c (toG d) (toS a) s (.ofNat 11 k) (.ofNat 16 r0) (.ofNat 10 nr)
    | _ => none

def formMmaG : Form :=
  mk [fPred, fReg, fReg, fAs, fAs, fBits 11, fRes 2, fBits 16, fBits 16, (10, .rng 1 384), (10, .rng 1 640),
      (6, .rng 1 32), fRes 6] fun c v =>
    match v with
    | [d, a, b, s, w, k, _, r0, c0, nr, nc, nk, _] =>
        match Space.ofCode s, Space.ofCode w with
        | some s, some w => some (.mmaG c (toG d) (toS a) (toS b) s w (.ofNat 11 k) (.ofNat 16 r0) (.ofNat 16 c0)
            (.ofNat 10 nr) (.ofNat 10 nc) (.ofNat 6 nk))
        | _, _ => none
    | _ => none

def formAccz : Form :=
  mk [fPred, fNone, fNone, fRes 17] fun c v =>
    match v with
    | [d, _, _, _] => some (.accz c (toG d))
    | _ => none

def formAccrd (t : Ty) : Form :=
  mk [fNone, fPred, fReg, fAs, fRes 11, fMw t, fBits 16, fBits 16] fun c v =>
    match v with
    | [_, a, b, s, _, m, dc, dr] =>
        (Space.ofCode s).map fun s => .accrd c t (.ofNat 4 m) (toG a) (toS b) s (.ofNat 16 dc) (.ofNat 16 dr)
    | _ => none

def formAccexp (fn : Nat) : Option Form :=
  match fn with
  | 0 => some (mk [fReg, fPred, fNone, fRes 17] fun c v =>
      match v with
      | [d, a, _, _] => some (.accexpRd c (toS d) (toG a))
      | _ => none)
  | 1 => some (mk [fPred, fReg, fNone, fRes 17] fun c v =>
      match v with
      | [d, a, _, _] => some (.accexpAl c (toG d) (toS a))
      | _ => none)
  | _ => none

def formWalki : Form :=
  mk [fReg, fReg, fReg, fReg, fAs, fRes 10, (8, .rng 1 255), fBits 16, (6, .rng 1 48), fRes 34] fun c v =>
    match v with
    | [d, a, b, e, s, _, m, r, n, _] => (Space.ofCode s).map fun s =>
        .walki c (toS d) (toS a) (toS b) (toS e) s (.ofNat 8 m) (.ofNat 16 r) (.ofNat 6 n)
    | _ => none

def formWalk : Form :=
  mk [fNone, fReg, fReg, fReg, fAs, fRes 10, (8, .rng 1 255), fBits 16, fRes 6, fRes 34] fun c v =>
    match v with
    | [_, a, b, e, s, _, m, r, _, _] => (Space.ofCode s).map fun s =>
        .walk c (toS a) (toS b) (toS e) s (.ofNat 8 m) (.ofNat 16 r)
    | _ => none

/-- OP 0x80 to 0x86 (spec/08). -/
def formMat (op : Nat) (len : Len) (sub : Nat) : Option Form :=
  match op with
  | 0x80 => onlyIf (len == .l128 && sub == 0) formWld
  | 0x81 => if len = .l128 then
        (match sub with
         | 0 => some formMma
         | 1 => some formMmaG
         | _ => none)
      else none
  | 0x82 => onlyIf (len == .l64 && sub == 0) formAccz
  | 0x83 => if len = .l96 ∧ sub / 16 = 0 then typed (Ty.ofCode (sub % 16)) (fun _ => true) formAccrd else none
  | 0x84 => if len = .l64 then formAccexp sub else none
  | 0x85 => onlyIf (len == .l128 && sub == 0) formWalki
  | 0x86 => onlyIf (len == .l128 && sub == 0) formWalk
  | _ => none

/-! ### Synchronisation, engine, task, join and system forms (spec/09 R197) -/

def formAmo (f : AmoFn) (t : Ty) : Form :=
  mk [fReg, fReg, fReg, fBits 8, fAs, fScope, (4, .lt 1)] fun c v =>
    match v with
    | [d, a, b, o, s, sc, _] =>
        match Space.ofCode s, Scope.ofCode sc with
        | some s, some sc => some (.amo c f t sc s (.ofNat 8 o) (toS d) (toS a) (toS b))
        | _, _ => none
    | _ => none

def formCas (t : Ty) : Form :=
  mk [fReg, fReg, fReg, fReg, fRes 3, fAs, fScope, (4, .lt 1)] fun c v =>
    match v with
    | [d, a, b, e, _, s, sc, _] =>
        match Space.ofCode s, Scope.ofCode sc with
        | some s, some sc => some (.cas c t sc s (toS d) (toS a) (toS b) (toS e))
        | _, _ => none
    | _ => none

def formFence (sc : Scope) : Form :=
  mk [fNone, fNone, fNone, (2, .rng 1 3), fRes 15] fun c v =>
    match v with
    | [_, _, _, h, _] => (Half.ofCode h).map fun h => .fence c sc h
    | _ => none

def formBind (f : Common → SReg → SReg → SReg → Instr) : Form :=
  mk [fNone, fReg, fReg, fReg, fRes 12] fun c v =>
    match v with
    | [_, a, b, e, _] => some (f c (toS a) (toS b) (toS e))
    | _ => none

/-- A form of SA alone. -/
def formA (f : Common → SReg → Instr) : Form :=
  mk [fNone, fReg, fNone, fRes 17] fun c v =>
    match v with
    | [_, a, _, _] => some (f c (toS a))
    | _ => none

/-- A form without operands. -/
def formZ (f : Common → Instr) : Form := mk [fRes 32] fun c _ => some (f c)

/-- A form of a guard-predicate destination alone. -/
def formG (f : Common → GReg → Instr) : Form :=
  mk [fPred, fNone, fNone, fRes 17] fun c v =>
    match v with
    | [d, _, _, _] => some (f c (toG d))
    | _ => none

/-- A form of a 17-bit immediate alone. -/
def formI (f : Common → BitVec 17 → Instr) : Form :=
  mk [fRes 15, fBits 17] fun c v =>
    match v with
    | [_, i] => some (f c (.ofNat 17 i))
    | _ => none

def formSend : Form :=
  mk [fPred, fReg, fReg, fRes 17, fBits 32] fun c v =>
    match v with
    | [d, a, b, _, o] => some (.send c (toG d) (toS a) (toS b) (.ofNat 32 o))
    | _ => none

def formRecv (len : Len) : Option Form :=
  match len with
  | .l64 => some (mk [fReg, fPred, fReg, fBits 17] fun c v =>
      match v with
      | [d, a, b, o] => some (.recv c (toS d) (toG a) (toS b) (.ofNat 32 o))
      | _ => none)
  | .l96 => some (mk [fReg, fPred, fReg, fRes 17, fBits 32] fun c v =>
      match v with
      | [d, a, b, _, o] => some (.recv c (toS d) (toG a) (toS b) (.ofNat 32 o))
      | _ => none)
  | .l128 => none

def formJwait (len : Len) : Option Form :=
  match len with
  | .l64 => some (mk [fReg, fReg, fPred, fBits 17] fun c v =>
      match v with
      | [d, a, b, o] => some (.jwait c (toS d) (toS a) (toG b) (.ofNat 32 o))
      | _ => none)
  | .l96 => some (mk [fReg, fReg, fPred, fRes 17, fBits 32] fun c v =>
      match v with
      | [d, a, b, _, o] => some (.jwait c (toS d) (toS a) (toG b) (.ofNat 32 o))
      | _ => none)
  | .l128 => none

def formRdrem : Form :=
  mk [fReg, fReg, fNone, fBits 3, fRes 14, (12, .mult8), fRes 4, (16, .rng 1 65535)] fun c v =>
    match v with
    | [d, a, _, e, _, o, _, t] => some (.rdrem c (toS d) (toS a) (toG e) (.ofNat 12 o) (.ofNat 16 t))
    | _ => none

def formCopy : Form :=
  mk [fReg, fReg, fNone, fRes 17, fAs, fRes 30] fun c v =>
    match v with
    | [d, a, _, _, s, _] => (Space.ofCode s).map fun s => .copy c (toS d) (toS a) s
    | _ => none

def formTkpush : Form :=
  mk [fNone, fReg, fReg, fReg, fBits 3, fRes 9] fun c v =>
    match v with
    | [_, a, b, e, k, _] => some (.tkpush c (toS a) (toS b) (toG k) (toS e))
    | _ => none

def formTkdrain (f : Common → SReg → SReg → SReg → Space → Instr) : Form :=
  mk [fReg, fReg, fReg, fAs, fRes 15] fun c v =>
    match v with
    | [d, a, b, s, _] => (Space.ofCode s).map fun s => f c (toS d) (toS a) (toS b) s
    | _ => none

def formTabld : Form :=
  mk [fReg, fReg, fNone, fRes 17, fAs, fBits 2, fRes 28] fun c v =>
    match v with
    | [d, a, _, _, s, t, _] => (Space.ofCode s).map fun s => .tabld c (toS d) (toS a) s (.ofNat 2 t)
    | _ => none

def formTdep : Form :=
  mk [fNone, fReg, fNone, fBits 17] fun c v =>
    match v with
    | [_, a, _, i] => some (.tdep c (toS a) (.ofNat 17 i))
    | _ => none

def formJcont (s32 : Bool) : Form :=
  mk [fNone, fReg, fReg, fNone, fBits 3, fRes 9] fun c v =>
    match v with
    | [_, a, b, _, k, _] => some (.jcont c s32 (toS a) (toS b) (toG k))
    | _ => none

def formMfc : Form :=
  mk [fReg, fNone, fNone, fBits 12, fRes 5] fun c v =>
    match v with
    | [d, _, _, n, _] => some (.mfc c (toS d) (.ofNat 12 n))
    | _ => none

def formMtc : Form :=
  mk [fNone, fReg, fNone, fBits 12, fRes 5] fun c v =>
    match v with
    | [_, a, _, n, _] => some (.mtc c (toS a) (.ofNat 12 n))
    | _ => none

/-- OP 0x90 to 0x9F (spec/09 R197). -/
def formSyncA (op : Nat) (len : Len) (sub : Nat) : Option Form :=
  match op with
  | 0x90 => match AmoFn.ofCode (sub / 16) with
      | some f => if len = .l64 then typed (Ty.ofCode (sub % 16)) (amoTyOk f) (formAmo f) else none
      | none => none
  | 0x91 => if len = .l64 ∧ sub / 16 = 0 then typed (Ty.ofCode (sub % 16)) casTyOk formCas else none
  | 0x92 => match Scope.ofCode sub with
      | some s => onlyIf (len == .l64) (formFence s)
      | none => none
  | 0x93 => onlyIf (len == .l64 && sub == 0) (formBind .bind)
  | 0x94 => onlyIf (len == .l64 && sub == 0) (formBind .unbind)
  | 0x95 => if len = .l64 then
        (match sub with
         | 0 => some (formA .acq)
         | 1 => some (formA .acqV)
         | _ => none)
      else none
  | 0x96 => if len = .l64 then
        (match sub with
         | 0 => some (formA .rel)
         | 1 => some (formA .relV)
         | _ => none)
      else none
  | 0x97 => if len = .l64 then
        (match sub with
         | 0 => some (formS2 .evwait)
         | 1 => some (formS2 .evwaitPk)
         | _ => none)
      else none
  | 0x98 => if len = .l64 then
        (match sub with
         | 0 => some (formAB .evsig)
         | 1 => some (formAB .evsigClr)
         | _ => none)
      else none
  | 0x99 => match Scope.ofCode sub with
      | some s => onlyIf (len == .l64) (formAB fun c => .bar c s)
      | none => none
  | 0x9A => onlyIf (len == .l96 && sub == 0) formSend
  | 0x9B => if sub = 0 then formRecv len else none
  | 0x9C => onlyIf (len == .l96 && sub == 0) formRdrem
  | 0x9D => match Engine.ofCode sub with
      | some e => onlyIf (len == .l64) (formA fun c => .waitseq c e)
      | none => none
  | 0x9E => onlyIf (len == .l96 && sub == 0) formCopy
  | 0x9F => match TopkFn.ofCode sub with
      | some f => onlyIf (len == .l64) (formS2 fun c => .tkopen c f)
      | none => none
  | _ => none

/-- OP 0xA0 to 0xB4 (spec/09 R197). -/
def formSyncB (op : Nat) (len : Len) (sub : Nat) : Option Form :=
  match op with
  | 0xA0 => onlyIf (len == .l64 && sub == 0) formTkpush
  | 0xA1 => if len = .l64 then
        (match sub with
         | 0 => some (formTkdrain .tkdrain)
         | 1 => some (formTkdrain .tkdrainCl)
         | _ => none)
      else none
  | 0xA2 => onlyIf (len == .l96 && sub == 0) formTabld
  | 0xA3 => onlyIf (len == .l64 && sub == 0) (formA .tspawn)
  | 0xA4 => if len = .l64 then
        (match sub with
         | 0 => some (formZ .tdone)
         | 1 => some (formZ .tdoneR)
         | _ => none)
      else none
  | 0xA5 => onlyIf (len == .l64 && sub == 0) formTdep
  | 0xA6 => onlyIf (len == .l64 && sub == 0) (formG .tcard)
  | 0xA7 => onlyIf (len == .l64 && sub == 0) (formA .jopen)
  | 0xA8 => onlyIf (len == .l64 && sub == 0) (formAB .jenter)
  | 0xA9 => onlyIf (len == .l64 && sub ≤ 1) (formJcont (toB sub))
  | 0xAA => onlyIf (len == .l64 && sub == 0) (formG .jarrive)
  | 0xAB => if sub = 0 then formJwait len else none
  | 0xAC => if len = .l64 then
        (match sub with
         | 0 => some (formA .jclose)
         | 1 => some (formA .jcloseF)
         | _ => none)
      else none
  | 0xAD => onlyIf (len == .l64) (formAB fun c => .trace c (.ofNat 8 sub))
  | 0xAE => onlyIf (len == .l64 && sub == 0) formMfc
  | 0xAF => onlyIf (len == .l64 && sub == 0) formMtc
  | 0xB0 => onlyIf (len == .l64 && sub == 0) (formI .trap)
  | 0xB1 => onlyIf (len == .l64 && sub == 0) (formZ .tret)
  | 0xB2 => if len = .l64 then
        (match sub with
         | 0 => some (formAB .tlbinvAll)
         | 1 => some (formAB .tlbinvPg)
         | _ => none)
      else none
  | 0xB3 => onlyIf (len == .l64 && sub == 0) (formI .bkpt)
  | 0xB4 => if len = .l64 then
        (match sub with
         | 0 => some (formA .slotwMat)
         | 1 => some (formA .slotwCpy)
         | 2 => some (formA .slotwTku)
         | _ => none)
      else none
  | _ => none

/-! ### The decoder -/

/-- The form of an OP at a length with a function code, none where unassigned (spec/04 R81, R82). -/
def formOf (op : Nat) (len : Len) (sub : Nat) : Option Form :=
  match op / 16 with
  | 0 | 1 => if len = .l64 then formAlu op sub else none
  | 2 | 4 => formCtl op len sub
  | 3 => if len = .l64 then formFp op sub else none
  | 5 => formMem op len sub
  | 6 => if len = .l64 then formVecA op (sub / 16) (Ty.ofCode (sub % 16)) else none
  | 7 => formVecB op len (sub / 16) (Ty.ofCode (sub % 16))
  | 8 => formMat op len sub
  | 9 => formSyncA op len sub
  | 10 | 11 => formSyncB op len sub
  | _ => none

/-- Widths of the common fields LEN, OP, GP, NEG, WAIT, SET, KPT, SUB (spec/04 R71). -/
def headWidths : List Nat := [2, 8, 3, 1, 6, 3, 1, 8]

/-- Decode after LEN, OP and SUB are known: the reserved-value check, then the instruction (spec/04 R79). -/
def decodeForm (f : Form) (c : Common) (w0 : Nat) (vs : List Nat) : Decoded :=
  let setBad : Option Nat := if c.set.toNat = 6 then some 20 else none
  match minBit setBad (minBit (firstBad 32 f.layout vs) (f.cross vs)) with
  | some b => .trap 2 b
  | none =>
    match f.build c vs with
    | some i => .instr i
    | none => .trap 1 w0

/-- Decode the fields of an encoding of a known length. -/
def decodeFields (len : Len) (n : Nat) : Decoded :=
  match unpack headWidths n with
  | [_, op, gp, neg, wait, set, kpt, sub] =>
      match formOf op len sub with
      | none => .trap 1 (n % 2 ^ 32)
      | some f =>
          decodeForm f ⟨len, toB kpt, .ofNat 3 set, .ofNat 6 wait, toB neg, .ofNat 3 gp⟩ (n % 2 ^ 32)
            (unpack (f.layout.map Prod.fst) (n / 2 ^ 32))
  | _ => .trap 1 (n % 2 ^ 32)

/-- Decode the bits found at window offset `off` (spec/04 R68, R69, R79). -/
def decodeAt (off n : Nat) : Decoded :=
  match Len.ofCode (n % 4) with
  | none => if n % 2 ^ 32 = 0xFFFFFFFC ∧ off = 28 then .pad else .trap 1 (n % 2 ^ 32)
  | some len => if off + len.bytes > 32 then .trap 1 (n % 2 ^ 32) else decodeFields len n

/-- The instruction that the decoder reads from an encoding at the start of a fetch window. -/
def decodeTableWord (nbits w : Nat) : Option Instr :=
  match decodeAt 0 (w % 2 ^ nbits) with
  | .instr i => some i
  | _ => none

/-! ### The encoder -/

/-- OP, SUB, the common fields and the form's fields (width, value) from bit 32 up. -/
structure Enc where
  op : Nat
  sub : Nat
  c : Common
  fields : List (Nat × Nat)

/-- A register or other field of five bits or fewer, in the 5-bit slots of R71. -/
def e5 {w : Nat} (r : BitVec w) : Nat × Nat := (5, r.toNat)
/-- An unused field. -/
def e0 (w : Nat) : Nat × Nat := (w, 0)
def eBool (b : Bool) : Nat × Nat := (1, if b then 1 else 0)
def eBits {w : Nat} (v : BitVec w) : Nat × Nat := (w, v.toNat)
/-- The low bits of an operand in a field of the given width. -/
def eLow {w : Nat} (k : Nat) (v : BitVec w) : Nat × Nat := (k, (v.setWidth k).toNat)

def encS3 (c : Common) (op sub : Nat) (d a b : SReg) : Enc := ⟨op, sub, c, [e5 d, e5 a, e5 b, e0 17]⟩
def encS2 (c : Common) (op sub : Nat) (d a : BitVec w) : Enc := ⟨op, sub, c, [e5 d, e5 a, e0 5, e0 17]⟩
/-- Fields DST, SA, SB with the immediate in the short or the long place (spec/04 R72). -/
def encImm (c : Common) (op sub : Nat) (d a b : Nat × Nat) (i : BitVec 32) : Enc :=
  ⟨op, sub, c, if c.len = .l64 then [d, a, b, eLow 17 i] else [d, a, b, e0 17, eBits i]⟩
def encAB (c : Common) (op sub : Nat) (a b : SReg) : Enc := ⟨op, sub, c, [e0 5, e5 a, e5 b, e0 17]⟩
def encA (c : Common) (op sub : Nat) (a : SReg) : Enc := ⟨op, sub, c, [e0 5, e5 a, e0 5, e0 17]⟩
def encZ (c : Common) (op sub : Nat) : Enc := ⟨op, sub, c, [e0 32]⟩
def encI (c : Common) (op : Nat) (i : BitVec 17) : Enc := ⟨op, 0, c, [e0 15, eBits i]⟩
def encLd (c : Common) (op fn : Nat) (t : Ty) (s : Space) (k : KReg) (d a : SReg) (o : BitVec 32) : Enc :=
  ⟨op, 16 * fn + t.code, c,
   if c.len = .l64 then [e5 d, e5 a, (2, s.code), eBits k, eLow 13 o, e0 4]
   else [e5 d, e5 a, (2, s.code), eBits k, e0 13, e0 4, eBits o]⟩
def encGather (c : Common) (op : Nat) (t : Ty) (d : VReg) (a : SReg) (b : VReg) (e : SReg) (x : Gather) : Enc :=
  ⟨op, t.code, c, [e5 d, e5 a, e5 b, e5 e, e5 x.fr, e0 1, eBool x.fill, eBool x.nbnd, e0 4, e0 15, (2, x.as.code),
    eBits x.scl, eBool x.isg, (2, x.iw.code), eBits x.fk, eBits x.ok, eBits x.km]⟩
/-- The common vector layout of spec/07 R141. -/
def encV (c : Common) (op fn : Nat) (t : Ty) (d a b e : BitVec 5) (k x : BitVec 3) (sat mz : Bool) : Enc :=
  ⟨op, 16 * fn + t.code, c, [e5 d, e5 a, e5 b, e5 e, eBits k, eBits x, eBool sat, eBool mz, e0 4]⟩
def encMov (c : Common) : MovOp → Enc
  | .ss d a => ⟨0x1B, 0, c, [e5 d, e5 a, e0 5, e0 17]⟩
  | .ks d a => ⟨0x1B, 1, c, [e5 d, e5 a, e0 5, e0 17]⟩
  | .sk d a => ⟨0x1B, 2, c, [e5 d, e5 a, e0 5, e0 17]⟩
  | .kk d a => ⟨0x1B, 3, c, [e5 d, e5 a, e0 5, e0 17]⟩
def encPmov (c : Common) : PmovOp → Enc
  | .move d a na => ⟨0x3B, 0, c, [e5 d, e5 a, e0 5, eBool na, e0 16]⟩
  | .sg d => ⟨0x3B, 1, c, [e5 d, e0 5, e0 5, e0 17]⟩
  | .gs a => ⟨0x3B, 2, c, [e0 5, e5 a, e0 5, e0 17]⟩
def encCmp (c : Common) (op fn : Nat) (p : GReg) (a b : SReg) (q : GReg) : Enc :=
  ⟨op, fn, c, [e5 p, e5 a, e5 b, eBits q, e0 14]⟩
def encPred (c : Common) (op : Nat) (d a b : GReg) (na nb : Bool) : Enc :=
  ⟨op, 0, c, [e5 d, e5 a, e5 b, eBool na, eBool nb, e0 15]⟩
def LoopSrc.num : LoopSrc → Nat
  | .s r => r.toNat
  | .mb r => r.toNat
def LoopSrc.mbx : LoopSrc → Nat
  | .s _ => 0
  | .mb _ => 1
def encLoop (c : Common) (s : LoopSrc) (stg smod : BitVec 3) (body : BitVec 25) : Enc :=
  ⟨0x44, 0, c,
   if c.len = .l64 then [e0 5, (5, s.num), e0 5, eLow 10 body, (1, s.mbx), eBits smod, eBits stg]
   else [e0 5, (5, s.num), e0 5, e0 17, eBits body, (1, s.mbx), eBits smod, eBits stg]⟩
def encNop (c : Common) : Enc :=
  ⟨0x45, 0, c, match c.len with
    | .l64 => [e0 32]
    | .l96 => [e0 32, e0 32]
    | .l128 => [e0 32, e0 64]⟩
def encLi (c : Common) (d : LiDst) (i : BitVec 64) : Enc :=
  match d with
  | .s r => ⟨0x28, 0, c, [e5 r, e0 5, e0 5, e0 17, eBits i]⟩
  | .k r => ⟨0x28, 1, c, [e5 r, e0 5, e0 5, e0 17, eBits i]⟩
def encVbcast (c : Common) (op : BcastOp) (t : Ty) (mz : Bool) (k : KReg) (d : VReg) : Enc :=
  match op with
  | .reg a => ⟨0x77, t.code, c, [e5 d, e5 a, e0 1, eBool mz, eBits k, e0 13, e0 4]⟩
  | .lane a l => ⟨0x77, 16 * 2 + t.code, c, [e5 d, e5 a, e0 1, eBool mz, eBits k, eBits l, e0 7, e0 4]⟩
  | .imm v => ⟨0x77, 16 * 1 + t.code, c, match c.len with
      | .l64 => [e5 d, e0 5, e0 1, eBool mz, eBits k, eLow 13 v, e0 4]
      | .l96 => [e5 d, e0 5, e0 1, eBool mz, eBits k, e0 13, e0 4, eLow 32 v]
      | .l128 => [e5 d, e0 5, e0 1, eBool mz, eBits k, e0 13, e0 4, eBits v]⟩
def encTkdrain (c : Common) (fn : Nat) (d a b : SReg) (s : Space) : Enc :=
  ⟨0xA1, fn, c, [e5 d, e5 a, e5 b, (2, s.code), e0 15]⟩

/-- The fields of an instruction's encoding; a device step has none. -/
def encFields (i : Instr) : Option Enc :=
  match i with
  | .add c d a b => some (encS3 c 0x01 0 d a b)
  | .sub c d a b => some (encS3 c 0x02 0 d a b)
  | .mul c d a b => some (encS3 c 0x03 0 d a b)
  | .mulh c d a b => some (encS3 c 0x04 0 d a b)
  | .mulhz c d a b => some (encS3 c 0x05 0 d a b)
  | .div c d a b => some (encS3 c 0x06 0 d a b)
  | .divz c d a b => some (encS3 c 0x07 0 d a b)
  | .rem c d a b => some (encS3 c 0x08 0 d a b)
  | .remz c d a b => some (encS3 c 0x09 0 d a b)
  | .divT c k d a b => some (encS3 c k.op 1 d a b)
  | .addx c k sh d a b => some (encS3 c 0x0A (4 * k.code + sh.toNat) d a b)
  | .and c d a b => some (encS3 c 0x0B 0 d a b)
  | .or c d a b => some (encS3 c 0x0C 0 d a b)
  | .xor c d a b => some (encS3 c 0x0D 0 d a b)
  | .shl c d a b => some (encS3 c 0x0E 0 d a b)
  | .shr c d a b => some (encS3 c 0x0F 0 d a b)
  | .sra c d a b => some (encS3 c 0x10 0 d a b)
  | .min c d a b => some (encS3 c 0x11 0 d a b)
  | .max c d a b => some (encS3 c 0x12 0 d a b)
  | .minz c d a b => some (encS3 c 0x13 0 d a b)
  | .maxz c d a b => some (encS3 c 0x14 0 d a b)
  | .clz c d a => some (encS2 c 0x15 0 d a)
  | .ctz c d a => some (encS2 c 0x16 0 d a)
  | .popc c d a => some (encS2 c 0x17 0 d a)
  | .bswap c k d a => some (encS2 c 0x18 k.code d a)
  | .sext c k d a => some (encS2 c 0x19 k.code d a)
  | .zext c k d a => some (encS2 c 0x1A k.code d a)
  | .mov c op => some (encMov c op)
  | .sel c d a b g n => some ⟨0x1C, 0, c, [e5 d, e5 a, e5 b, eBits g, eBool n, e0 13]⟩
  | .cmp c k p a b q => some (encCmp c 0x1D k.code p a b q)
  | .addi c d a i => some (encImm c 0x20 0 (e5 d) (e5 a) (e0 5) i)
  | .andi c d a i => some (encImm c 0x21 0 (e5 d) (e5 a) (e0 5) i)
  | .ori c d a i => some (encImm c 0x22 0 (e5 d) (e5 a) (e0 5) i)
  | .xori c d a i => some (encImm c 0x23 0 (e5 d) (e5 a) (e0 5) i)
  | .cmpi c k p a q i => some (encImm c 0x24 k.code (e5 p) (e5 a) (e5 q) i)
  | .shli c d a n => some ⟨0x25, 0, c, [e5 d, e5 a, e0 5, eBits n, e0 11]⟩
  | .shri c d a n => some ⟨0x26, 0, c, [e5 d, e5 a, e0 5, eBits n, e0 11]⟩
  | .srai c d a n => some ⟨0x27, 0, c, [e5 d, e5 a, e0 5, eBits n, e0 11]⟩
  | .li c d i => some (encLi c d i)
  | .fadd c d a b => some (encS3 c 0x30 0 d a b)
  | .fsub c d a b => some (encS3 c 0x31 0 d a b)
  | .fmul c d a b => some (encS3 c 0x32 0 d a b)
  | .ffma c d a b e => some ⟨0x33, 0, c, [e5 d, e5 a, e5 b, e5 e, e0 12]⟩
  | .fmin c d a b => some (encS3 c 0x34 0 d a b)
  | .fmax c d a b => some (encS3 c 0x35 0 d a b)
  | .fcmp c k p a b q => some (encCmp c 0x36 k.code p a b q)
  | .fcvt c s t d a => some ⟨0x37, 16 * s.code + t.code, c, [e5 d, e5 a, e0 5, e0 13, e0 4]⟩
  | .pand c d a b x y => some (encPred c 0x38 d a b x y)
  | .por c d a b x y => some (encPred c 0x39 d a b x y)
  | .pxor c d a b x y => some (encPred c 0x3A d a b x y)
  | .pmov c op => some (encPmov c op)
  | .br c o => some (encImm c 0x40 0 (e0 5) (e0 5) (e0 5) o)
  | .jmp c a o => some (encImm c 0x41 0 (e0 5) (e5 a) (e0 5) o)
  | .jal c d o => some (encImm c 0x42 0 (e5 d) (e0 5) (e0 5) o)
  | .jr c d a => some (encS2 c 0x43 0 d a)
  | .loop c s stg smod body => some (encLoop c s stg smod body)
  | .nop c => some (encNop c)
  | .endStrand c => some (encZ c 0x46 0)
  | .yield c n => some (encI c 0x47 n)
  | .ld c t s d a o => some (encLd c 0x50 0 t s 0 d a o)
  | .st c t s d a o => some (encLd c 0x51 0 t s 0 d a o)
  | .ldv c m t s k d a o => some (encLd c 0x52 (if m then 1 else 0) t s k d a o)
  | .stv c t s k d a o => some (encLd c 0x53 0 t s k d a o)
  | .ldg c t d a b e x => some (encGather c 0x54 t d a b e x)
  | .stg c t d a b e x => some (encGather c 0x55 t d a b e x)
  | .pref c d a b o => some (encImm c 0x56 0 (e5 d) (e5 a) (e5 b) o)
  | .wb c a b => some (encAB c 0x57 0 a b)
  | .inv c a b => some (encAB c 0x58 0 a b)
  | .icinv c s a b => some (encAB c 0x59 s.code a b)
  | .vadd c t z s k d a b => some (encV c 0x60 0 t d a b 0 k 0 s z)
  | .vsub c t z s k d a b => some (encV c 0x61 0 t d a b 0 k 0 s z)
  | .vmul c t z s k d a b => some (encV c 0x62 0 t d a b 0 k 0 s z)
  | .vmad c t z s k d a b e => some (encV c 0x63 0 t d a b e k 0 s z)
  | .vmin c t z k d a b => some (encV c 0x64 0 t d a b 0 k 0 false z)
  | .vmax c t z k d a b => some (encV c 0x65 0 t d a b 0 k 0 false z)
  | .vabs c t z s k d a => some (encV c 0x66 0 t d a 0 0 k 0 s z)
  | .vneg c t z s k d a => some (encV c 0x67 0 t d a 0 0 k 0 s z)
  | .vand c t z k d a b => some (encV c 0x68 0 t d a b 0 k 0 false z)
  | .vor c t z k d a b => some (encV c 0x69 0 t d a b 0 k 0 false z)
  | .vxor c t z k d a b => some (encV c 0x6A 0 t d a b 0 k 0 false z)
  | .vshl c t z k d a b => some (encV c 0x6B 0 t d a b 0 k 0 false z)
  | .vshr c t z k d a b => some (encV c 0x6C 0 t d a b 0 k 0 false z)
  | .vsra c t z k d a b => some (encV c 0x6D 0 t d a b 0 k 0 false z)
  | .vcmp c f t k d a b x => some (encV c 0x6E f.code t (d.setWidth 5) a b 0 k x false false)
  | .vsel c t k d a b => some (encV c 0x6F 0 t d a b 0 k 0 false false)
  | .vcvt c s t z h k d a => some (encV c 0x70 s.code t d a 0 0 k h false z)
  | .vpack c s mw k es d a b e => some ⟨0x71, 16 * s.code + 11, c, [e5 d, e5 a, e5 b, e5 e, e5 es, eBits k, eBits mw]⟩
  | .vunpack c t mw z h k d a e =>
      some ⟨0x72, 16 * t.code + 11, c, [e5 d, e5 a, e0 5, e5 e, e0 3, eBool h, eBool z, eBits k, eBits mw]⟩
  | .vredsum c t s k d a => some (encV c 0x73 0 t d a 0 0 k 0 s false)
  | .vredmax c t k d a e => some (encV c 0x74 0 t d a 0 e k 0 false false)
  | .vredmin c t k d a e => some (encV c 0x75 0 t d a 0 e k 0 false false)
  | .vperm c t2 t z k d a b e => some (encV c 0x76 (if t2 then 1 else 0) t d a b e k 0 false z)
  | .vbcast c op t z k d => some (encVbcast c op t z k d)
  | .vslide c up t z k d a b e => some (encV c 0x78 (if up then 1 else 0) t d a b e k 0 false z)
  | .vext c t d a b => some (encV c 0x79 0 t d a b 0 0 0 false false)
  | .vins c t d a b => some (encV c 0x7A 0 t d a b 0 0 0 false false)
  | .vdist c f t x g k o d a b =>
      some ⟨0x7B, 16 * f.code + t.code, c, [e5 d, e5 a, e5 b, eBits o, e0 2, eBits k, e0 1, eBits g, eBool x, e0 4]⟩
  | .vtab c t z k tb d a =>
      some ⟨0x7C, t.code, c, [e5 d, e5 a, e0 5, eBits tb, e0 3, eBits k, e0 4, eBool z, e0 4]⟩
  | .vstrm c ax t mw ds ss a b e =>
      some ⟨0x7D, 16 * (if ax then 1 else 0) + t.code, c,
        [e0 5, e5 a, e5 b, e5 e, e0 8, eBits mw, (2, ss.code), (2, ds.code), e0 28]⟩
  | .wld c a s fu nw col k =>
      some ⟨0x80, 0, c, [e0 5, e5 a, e0 5, (2, s.code), e0 15, eBits k, eBits col, eBits nw, eBool fu, e0 29]⟩
  | .mma c d a s k r n =>
      some ⟨0x81, 0, c, [e5 d, e5 a, e0 5, (2, s.code), e0 2, eBits k, e0 2, eBits r, e0 16, eBits n, e0 10, e0 6, e0 6]⟩
  | .mmaG c d a b s w k r col m n nk =>
      some ⟨0x81, 1, c, [e5 d, e5 a, e5 b, (2, s.code), (2, w.code), eBits k, e0 2, eBits r, eBits col, eBits m, eBits n,
        eBits nk, e0 6]⟩
  | .accz c d => some ⟨0x82, 0, c, [e5 d, e0 5, e0 5, e0 17]⟩
  | .accrd c t mw a b s dc dr =>
      some ⟨0x83, t.code, c, [e0 5, e5 a, e5 b, (2, s.code), e0 11, eBits mw, eBits dc, eBits dr]⟩
  | .accexpRd c d a => some ⟨0x84, 0, c, [e5 d, e5 a, e0 5, e0 17]⟩
  | .accexpAl c d a => some ⟨0x84, 1, c, [e5 d, e5 a, e0 5, e0 17]⟩
  | .walki c d a b e s m r n =>
      some ⟨0x85, 0, c, [e5 d, e5 a, e5 b, e5 e, (2, s.code), e0 10, eBits m, eBits r, eBits n, e0 34]⟩
  | .walk c a b e s m r =>
      some ⟨0x86, 0, c, [e0 5, e5 a, e5 b, e5 e, (2, s.code), e0 10, eBits m, eBits r, e0 6, e0 34]⟩
  | .amo c f t sc s o d a b =>
      some ⟨0x90, 16 * f.code + t.code, c, [e5 d, e5 a, e5 b, eBits o, (2, s.code), (3, sc.code), e0 4]⟩
  | .cas c t sc s d a b e =>
      some ⟨0x91, t.code, c, [e5 d, e5 a, e5 b, e5 e, e0 3, (2, s.code), (3, sc.code), e0 4]⟩
  | .fence c sc h => some ⟨0x92, sc.code, c, [e0 5, e0 5, e0 5, (2, h.code), e0 15]⟩
  | .bind c a b e => some ⟨0x93, 0, c, [e0 5, e5 a, e5 b, e5 e, e0 12]⟩
  | .unbind c a b e => some ⟨0x94, 0, c, [e0 5, e5 a, e5 b, e5 e, e0 12]⟩
  | .acq c a => some (encA c 0x95 0 a)
  | .acqV c a => some (encA c 0x95 1 a)
  | .rel c a => some (encA c 0x96 0 a)
  | .relV c a => some (encA c 0x96 1 a)
  | .evwait c d a => some (encS2 c 0x97 0 d a)
  | .evwaitPk c d a => some (encS2 c 0x97 1 d a)
  | .evsig c a b => some (encAB c 0x98 0 a b)
  | .evsigClr c a b => some (encAB c 0x98 1 a b)
  | .bar c s a b => some (encAB c 0x99 s.code a b)
  | .send c d a b o => some ⟨0x9A, 0, c, [e5 d, e5 a, e5 b, e0 17, eBits o]⟩
  | .recv c d a b o => some (encImm c 0x9B 0 (e5 d) (e5 a) (e5 b) o)
  | .rdrem c d a e o t => some ⟨0x9C, 0, c, [e5 d, e5 a, e0 5, eBits e, e0 14, eBits o, e0 4, eBits t]⟩
  | .waitseq c e a => some (encA c 0x9D e.code a)
  | .copy c d a s => some ⟨0x9E, 0, c, [e5 d, e5 a, e0 5, e0 17, (2, s.code), e0 30]⟩
  | .tkopen c f d a => some (encS2 c 0x9F f.code d a)
  | .tkpush c a b k e => some ⟨0xA0, 0, c, [e0 5, e5 a, e5 b, e5 e, eBits k, e0 9]⟩
  | .tkdrain c d a b s => some (encTkdrain c 0 d a b s)
  | .tkdrainCl c d a b s => some (encTkdrain c 1 d a b s)
  | .tabld c d a s t => some ⟨0xA2, 0, c, [e5 d, e5 a, e0 5, e0 17, (2, s.code), eBits t, e0 28]⟩
  | .tspawn c a => some (encA c 0xA3 0 a)
  | .tdone c => some (encZ c 0xA4 0)
  | .tdoneR c => some (encZ c 0xA4 1)
  | .tdep c a i => some ⟨0xA5, 0, c, [e0 5, e5 a, e0 5, eBits i]⟩
  | .tcard c d => some ⟨0xA6, 0, c, [e5 d, e0 5, e0 5, e0 17]⟩
  | .jopen c a => some (encA c 0xA7 0 a)
  | .jenter c a b => some (encAB c 0xA8 0 a b)
  | .jcont c s a b k => some ⟨0xA9, if s then 1 else 0, c, [e0 5, e5 a, e5 b, e0 5, eBits k, e0 9]⟩
  | .jarrive c d => some ⟨0xAA, 0, c, [e5 d, e0 5, e0 5, e0 17]⟩
  | .jwait c d a b o => some (encImm c 0xAB 0 (e5 d) (e5 a) (e5 b) o)
  | .jclose c a => some (encA c 0xAC 0 a)
  | .jcloseF c a => some (encA c 0xAC 1 a)
  | .trace c code a b => some (encAB c 0xAD code.toNat a b)
  | .mfc c d n => some ⟨0xAE, 0, c, [e5 d, e0 5, e0 5, eBits n, e0 5]⟩
  | .mtc c a n => some ⟨0xAF, 0, c, [e0 5, e5 a, e0 5, eBits n, e0 5]⟩
  | .trap c i => some (encI c 0xB0 i)
  | .tret c => some (encZ c 0xB1 0)
  | .tlbinvAll c a b => some (encAB c 0xB2 0 a b)
  | .tlbinvPg c a b => some (encAB c 0xB2 1 a b)
  | .bkpt c i => some (encI c 0xB3 i)
  | .slotwMat c a => some (encA c 0xB4 0 a)
  | .slotwCpy c a => some (encA c 0xB4 1 a)
  | .slotwTku c a => some (encA c 0xB4 2 a)
  | _ => none

/-- The common fields as (width, value), lowest first (spec/04 R71). -/
def encHead (e : Enc) : List (Nat × Nat) :=
  [(2, e.c.len.code), (8, e.op), (3, e.c.gp.toNat), (1, if e.c.neg then 1 else 0), (6, e.c.wait.toNat),
   (3, e.c.set.toNat), (1, if e.c.kpt then 1 else 0), (8, e.sub)]

/-- The encoding as one number; 0 for a device step. -/
def encodeBits (i : Instr) : Nat :=
  match encFields i with
  | some e => pack (encHead e ++ e.fields)
  | none => 0

/-- The common fields of an instruction; none for a device step. -/
def Instr.common (i : Instr) : Option Common := (encFields i).map Enc.c

/-- Consecutive 32-bit words of a number, lowest first. -/
def wordsOf : Nat → Nat → List (BitVec 32)
  | 0, _ => []
  | k + 1, n => BitVec.ofNat 32 n :: wordsOf k (n / 2 ^ 32)

/-- The words of an instruction's encoding, in the order of their addresses (spec/04 R68). -/
def encode (i : Instr) : List (BitVec 32) :=
  match i.common with
  | some c => wordsOf (c.len.bytes / 4) (encodeBits i)
  | none => []

/-- The first word of an encoding, which the traps of R79 report. -/
def firstWord (i : Instr) : Nat := encodeBits i % 2 ^ 32

end Sys2Proof
end

