-- ==== Sys2Proof/Machine/StrandState.lean ====
section
/-!
DEFINITION. The state of one strand and of one core (spec/01, spec/05, spec/07, spec/08, spec/09), as plain data. What each field
holds at reset, and where the spec gives no value, is in INVENTORY.md and in log 2.
-/
namespace Sys2Proof.Machine

/-- Whether a strand exists and issues (spec/01 R12, spec/05 R115, spec/20 R335). -/
inductive RunState where
  | absent
  | running
  | stopped
  | saved
  deriving DecidableEq, Repr

/-- An entry of the loop stack (spec/05 R106, R107). -/
structure LoopEntry where
  top : Word
  stop : Word
  left : Word
  pass : Nat
  stg : BitVec 3
  smod : BitVec 3
  deriving DecidableEq, Repr

/-- Where a lane of a load that is performed later lies: in global memory, or in a core's pool (spec/13 R252). -/
inductive LaneLoc where
  | glob (key : Nat)
  | pool (core off : Nat)
  deriving DecidableEq, Repr

/-- A lane of such a load: its number, its address and its location. -/
structure LoadLane where
  j : Nat
  va : Nat
  loc : LaneLoc
  deriving DecidableEq, Repr

/-- A load that has issued and is performed when it lands (spec/13 R258; log 7): the class and number of its destination, its type, the lanes it keeps,
its lanes with their locations, its context, and its place in the core issue order. -/
structure PendLoad where
  vec : Bool
  dst : Nat
  ty : Ty
  mask : Word
  merge : Bool
  lanes : List LoadLane
  ctx : Nat
  no : Nat
  deriving DecidableEq, Repr

/-- A result that has not landed (spec/04 R74): the counter it will decrement (7 for none), the global lines whose
dirty bytes the L2 slice accepts when it lands (spec/06 R126), and whether its instruction was served from the spill carve-out (spec/01 R28), names the
bank v16 to v31 (R25), or can add to NANCNT (spec/02 R48), and the load that it still has to perform. -/
structure Flight where
  ctr : BitVec 3
  lines : List Nat
  carved : Bool
  bank : Bool
  nan : Bool
  load : Option PendLoad
  deriving DecidableEq, Repr

/-- A queued request of the table unit, with its operands as read at issue (spec/07 R161-R163), its place in the core issue order, and whether it names a register of
the bank v16 to v31 (spec/01 R25). -/
structure VtabReq where
  ty : Ty
  mz : Bool
  mask : Word
  tb : BitVec 2
  dst : VReg
  src : Vec
  ctr : BitVec 3
  order : Nat
  bank : Bool
  deriving DecidableEq, Repr

/-- What a blocked strand waits for (spec/09 R202-R209, R215, R219). -/
inductive WaitFor where
  | event (cl line : Nat) (pk : Bool)
  | mutex (cl idx : Nat)
  | lock (key : Nat)
  | barc (cl idx : Nat)
  | brec (rank : Nat)
  | mailbox (dest : Nat) (payload : Vec)
  | message
  | remote
  | ticket
  | task
  | join (key : Nat)
  | spawn
  | jopen
  | away (dev : Nat)
  | revoked
  | refused
  deriving DecidableEq, Repr

/-- A blocking wait in progress: the instruction as it issued, what it waits for, the operand it names the object by, the cycle it
began, the cycle at which it times out (0 for never), the cycles for which a halt stopped its counts (spec/21 R360), the carried time of its request, the value with which it was served, whether its LONGWAIT
record has been produced (spec/21 R363), and its place in the core issue order (spec/01 R13). -/
structure Wait where
  i : Instr
  what : WaitFor
  arg : Word
  since : Nat
  limit : Nat
  paused : Nat
  time : Nat
  served : Option Word
  noted : Bool
  no : Nat
  deriving DecidableEq, Repr

/-- An event of KIND 1 to 5 at its place (spec/03 R63, R64). -/
structure ProvEv where
  kblk : Nat
  row : Nat
  col : Nat
  pos : Nat
  kind : Nat
  fmt : Nat
  mw : Nat
  opnd : Nat
  deriving DecidableEq, Repr

/-- A group of 32 positions as the tree-matrix unit takes it (spec/03 R52, R53, R55): scale, stored positions, mantissas, marked positions, elements
replaced, and the non-finite elements and saturation met, as (KIND, POS). -/
structure OpGroup where
  e : Nat
  mask : BitVec 32
  m : List Int
  marked : BitVec 32
  count : Nat
  evs : List (Nat × Nat)
  deriving DecidableEq, Repr

/-- An accumulator tile (spec/03 R56): exponent, EMPTY, SAT, and its elements by row. -/
structure Tile where
  x : Int
  empty : Bool
  sat : Bool
  rows : List (List Int)
  deriving DecidableEq, Repr

/-- The visit of a walk to a node (spec/08 R191): its record, the rows that remain with their activation groups, the chunks that the
staging engine has fetched and that the array has taken, the private tile, the elements replaced so far in the matrix, and the first event. -/
structure Visit where
  node : Nat
  rows : List Nat
  acts : List (List OpGroup)
  staged : Nat
  taken : Nat
  tile : Tile
  count : Nat
  ev : List ProvEv
  deriving DecidableEq, Repr

/-- A round of a walk (spec/08 R190): the rows that were ACTIVE at its start, the nodes still to visit with their rows, and the visit to the first of
them, none before its record has been fetched. -/
structure WalkProg where
  act : List Nat
  todo : List (Nat × List Nat)
  visit : Option Visit
  deriving DecidableEq, Repr

/-- A long instruction between two of its boundaries (spec/07 R165-R168, spec/08 R171-R193): the instruction, the shape
records and modes read at issue, the bound latch buffer, the factor of AXPY or the ordinal of an MMA.G instance, the
rows of a walk with its round in progress, and its place in the core issue order. Progress itself is in RESUME. -/
structure Long where
  i : Instr
  tsrA : BitVec 512
  tsrB : BitVec 512
  nanm : Bool
  wte : Bool
  geom : Word
  buf : Nat
  x : Word
  rows : List (BitVec 256)
  round : Nat
  prog : Option WalkProg
  no : Nat
  deriving DecidableEq, Repr

/-- Counts of one engine for one strand (spec/09 R208): issued, completed, tickets completed out of order, and the latest time that
a completion carries (spec/21 R355). -/
structure EngCount where
  iss : Nat
  cmp : Nat
  early : List Nat
  time : Nat
  deriving DecidableEq, Repr

/-- A mailbox entry (spec/09 R205): payload, sender's strand address, and the time it carries (spec/21 R355). -/
structure Msg where
  payload : Vec
  sender : Word
  time : Nat
  deriving DecidableEq, Repr

/-- A pending kill (spec/15 R304): the join record and the participant it names, and the handler the join fixed at `JOPEN`, none for a
retiring kill (R305). -/
structure PendKill where
  record : Word
  pid : Nat
  kpc : Option Word
  time : Nat
  deriving DecidableEq, Repr

/-- The task a strand runs (spec/09 R215): its TCB's address and location, and whether it is a batch card. -/
structure CurTask where
  tcb : Nat
  key : Nat
  card : Bool
  deriving DecidableEq, Repr

/-- A trace record that has been produced and not written to its ring (spec/21 R343, R349, R352): its words, its ring, whether it
is lossless, the strand or the source unit that produced it, its context, whether its producer holds it, and the time since which that has held the
producer back (R352). -/
structure TraceRec where
  words : List Word
  ring : Nat
  lossless : Bool
  strand : Option Nat
  src : Nat
  ctx : Nat
  held : Bool
  since : Option Nat
  deriving DecidableEq, Repr

/-- One strand (spec/01 R11-R16, R29). `frozen` is the cycle in which a halt stopped its counts (spec/21 R360); `entered` says that the strand has entered a trap and fetched nothing since (R227).
`rbuf` holds the words of the repetition buffer with their addresses and the pass that fetched them, `rbufOk` its validity (spec/05 R111, R112). `wrote` and `carved` gather what the
instruction that executes has stored to and whether the spill carve-out served it. `mmagN` counts the `MMA.G` instances begun since the launch and `mmagOpen` lists those begun and not
completed, the latest first, with whether they have passed their first rendezvous (spec/08 R177). -/
structure Strand where
  run : RunState
  pc : Word
  s : Map Word
  v : Map Vec
  g : BitVec 7
  k : Map Word
  d : Map (BitVec 6)
  tile : Map (BitVec 18)
  status : Word
  cause : Word
  epc : Word
  tval : Word
  tvec : Word
  resume : Word
  geom : Word
  mb : Map Word
  oscale : Word
  nancnt : Word
  prova : Word
  provb : Word
  spillp : Word
  tenant : Word
  jslot : Word
  copyN : EngCount
  topkN : EngCount
  tabN : EngCount
  loops : List LoopEntry
  shadow : List LoopEntry
  rbuf : List (Nat × Nat × Nat)
  rbufOver : Bool
  rbufOk : Bool
  entered : Bool
  mail : List Msg
  kills : List PendKill
  irq : BitVec 3
  wait : Option Wait
  long : Option Long
  inflight : List Flight
  vtabQ : List VtabReq
  notBefore : Nat
  frozen : Option Nat
  task : Option CurTask
  floor : Nat
  mmagN : Nat
  mmagOpen : List (Nat × Bool)
  wrote : List Nat
  carved : Bool
  deriving DecidableEq, Repr

/-- One group of a latched tile (spec/03 R52, R55): scale, occupancy mask, and a mantissa for each of 32 positions, 0 where
the position is skipped. -/
structure WGroup where
  ew : Nat
  mask : BitVec 32
  m : List Int
  deriving DecidableEq, Repr

/-- One buffer of the weight latch (spec/03 R52, R54): groups by K-block and column, block-major, the strands whose `MMA`s hold it, and the strand whose `WLD`
is filling it. -/
structure LatchBuf where
  valid : Bool
  nb : Nat
  nw : Nat
  n : Nat
  bw : Nat
  groups : List WGroup
  holders : List Nat
  filling : Option Nat
  deriving DecidableEq, Repr

/-- One entry of a table: x, a and b as FP32 encodings (spec/07 R159). -/
structure TabEntry where
  x : BitVec 32
  a : BitVec 32
  b : BitVec 32
  deriving DecidableEq, Repr

/-- A table load that has issued and not completed (spec/09 R213). -/
structure TabLoad where
  strand : Nat
  ticket : Nat
  tb : BitVec 2
  as : Space
  addr : Word
  c : Nat
  ctx : Nat
  order : Nat
  floor : Nat
  deriving DecidableEq, Repr

/-- A cached copy of a 128-byte line (spec/13 R254, spec/20 R327): data, mask of written bytes, mask of contexts. -/
structure Line where
  data : BitVec 1024
  dirty : BitVec 128
  ctxs : BitVec 16
  deriving DecidableEq, Repr

/-- A cached translation (spec/20 R333): context, first address and size of the page, leaf entry. -/
structure TlbEntry where
  ctx : Nat
  base : Nat
  size : Nat
  leaf : Word
  deriving DecidableEq, Repr

/-- One core (spec/01 R18-R25, spec/03 R54, spec/07 R159, spec/08 R170, spec/20 R327, R337). `vidle` is the cycle in which the bank was last used;
in retention it is the cycle in which the bank will have woken, 0 while nothing has asked for it. `issuedAt` is one more than the cycle in which the core issued last (R13). -/
structure Core where
  part : Word
  vmode : BitVec 2
  vstate : BitVec 2
  vidle : Nat
  pool : Memory
  pwin : Map (BitVec 128)
  matSlot : Word
  matLast : Nat
  startCycle : Nat
  latch0 : LatchBuf
  latch1 : LatchBuf
  latest : Bool
  tables : Map (List TabEntry)
  tabLoads : List TabLoad
  vtabLast : Nat
  issueNo : Nat
  lastIssued : Nat
  issuedAt : Nat
  dcache : Map Line
  icache : Map (BitVec 256)
  tlb : List TlbEntry
  outc : Nat
  inc : Nat
  recvFlag : Bool
  owner : Option Nat
  launch : Option Nat
  desc : BitVec 512
  deriving DecidableEq, Repr

/-! ### Values before any launch (spec/01 R17, R29; log 2) -/

def EngCount.zero : EngCount := ⟨0, 0, [], 0⟩

/-- A strand that no launch has started. -/
def Strand.reset : Strand :=
  { run := .absent, pc := 0, s := [], v := [], g := 0, k := [], d := [], tile := [], status := 4, cause := 0, epc := 0,
    tval := 0, tvec := 0, resume := 0, geom := 0, mb := [], oscale := 0x3F800000, nancnt := 0, prova := 0, provb := 0,
    spillp := 0, tenant := 0, jslot := 0, copyN := .zero, topkN := .zero, tabN := .zero, loops := [], shadow := [],
    rbuf := [], rbufOver := false, rbufOk := false, entered := false, mail := [], kills := [], irq := 0, wait := none, long := none, inflight := [],
    vtabQ := [], notBefore := 0, frozen := none, task := none, floor := 0, mmagN := 0, mmagOpen := [],
    wrote := [], carved := false }

def LatchBuf.empty : LatchBuf := ⟨false, 0, 0, 32, 8, [], [], none⟩

/-- A core that no launch has used. -/
def Core.reset : Core :=
  { part := 0x3F000001, vmode := 0, vstate := 0, vidle := 0, pool := [], pwin := [], matSlot := 0, matLast := 3,
    startCycle := 0, latch0 := .empty, latch1 := .empty, latest := true, tables := [], tabLoads := [], vtabLast := 3,
    issueNo := 0, lastIssued := 3, issuedAt := 0, dcache := [], icache := [], tlb := [], outc := 0, inc := 0, recvFlag := false,
    owner := none, launch := none, desc := 0 }

end Sys2Proof.Machine
end

