-- ==== Sys2Proof/Machine/UnitState.lean ====
section
/-!
DEFINITION. The state of a cluster's units and of the device's contexts and launches (spec/09, spec/14, spec/20, spec/21 R357), as
plain data.
-/
namespace Sys2Proof.Machine

/-- An event line (spec/14 R284): count, value, and its waiters in order of arrival, true for a peeking one. -/
structure EvLine where
  cnt : Nat
  val : Word
  q : List (Nat × Bool)
  deriving DecidableEq, Repr

/-- A barrier counter (spec/14 R284): 0 for N unset; the strands that have arrived, and those whose instance was released while they were not waiting
(spec/09 R204). -/
structure BarCounter where
  n : Nat
  arr : Nat
  q : List Nat
  released : List Nat
  deriving DecidableEq, Repr

/-- A mutex (spec/14 R284): the holder's strand address and the requesters in order. -/
structure Mutex where
  holder : Option Word
  q : List Word
  deriving DecidableEq, Repr

/-- A TCB that a task unit holds (spec/14 R275-R278, spec/20 R328): address, location, context, priority, kind, the cycle in which it
became ready if it is ready, the launch that spawned it, and the strand that did. -/
structure TaskEnt where
  tcb : Nat
  key : Nat
  ctx : Nat
  prio : Nat
  kind : Nat
  ready : Option Nat
  launch : Nat
  spawner : Option Nat
  tenant : Nat
  desc : BitVec 512
  deriving DecidableEq, Repr

/-- A notice on its way to a task unit that a TCB has become ready (spec/14 R277). -/
structure ReadyNotice where
  key : Nat
  time : Nat
  deriving DecidableEq, Repr

/-- What a copy-engine command does (spec/06 R131, spec/09 R210). -/
inductive CopyKind where
  | move
  | fill
  | rwrite
  | rread
  | pref
  deriving DecidableEq, Repr

/-- A command of the copy engine (spec/09 R210, R211): who issued it, its records as read at issue, its progress, and the elements that it has replaced, which NANCNT
takes when it completes (spec/02 R48). -/
structure CopyCmd where
  kind : CopyKind
  strand : Option Nat
  ctx : Nat
  desc : BitVec 512
  ticket : Nat
  ccr : BitVec 512
  src : BitVec 512
  dst : BitVec 512
  addr : Word
  len : Nat
  nanm : Bool
  tenant : Nat
  launch : Nat
  done : Nat
  nflt : Nat
  faddr : Nat
  sat : Bool
  xerr : Nat
  count : Nat
  nan : Nat
  killed : Bool
  registered : Bool
  task : Option Nat
  floor : Nat
  deriving DecidableEq, Repr

/-- An open top-k stream (spec/09 R212): holder, score order, k, and the entries (key, score), best first. -/
structure Stream where
  owner : Nat
  fn : TopkFn
  k : Nat
  entries : List (BitVec 32 × BitVec 32)
  deriving DecidableEq, Repr

/-- A drain of a stream that has issued (spec/09 R212). -/
structure Drain where
  strand : Nat
  ticket : Nat
  ctx : Nat
  desc : BitVec 512
  addr : Word
  as : Space
  k : Nat
  entries : List (BitVec 32 × BitVec 32)
  frees : Option Nat
  floor : Nat
  deriving DecidableEq, Repr

/-- The debug module of a cluster (spec/21 R357); `haltedAt` is one more than the cycle in which a cause halted it last. -/
structure Debug where
  ctl : Word
  sel : Word
  addr : Word
  lbp0 : Word
  lbp1 : Word
  ica : Word
  halted : Bool
  haltedAt : Nat
  cause : Nat
  strand : Nat
  icbusy : Bool
  stepping : Option Nat
  deriving DecidableEq, Repr

/-- One cluster (spec/01 R10). -/
structure Cluster where
  l2 : Map Line
  tlb : List TlbEntry
  ev : Map EvLine
  barc : Map BarCounter
  mutex : Map Mutex
  owners : Memory
  pwinImg : Memory
  cpySlot : Word
  tkuSlot : Word
  cpyLast : Nat
  tkuLast : Nat
  tasks : List TaskEnt
  notices : List ReadyNotice
  copies : List CopyCmd
  streams : Map Stream
  drains : List Drain
  dm : Debug
  unav : BitVec 64
  failed : Bool
  deriving DecidableEq, Repr

/-- An entry of a bind table (spec/09 R201). -/
structure Binding where
  handle : Word
  base : Word
  len : Word
  deriving DecidableEq, Repr

/-- A launch in progress (spec/20 R327, R328): its number, its context and launch id, the record's clusters and cores, its PART word, and the
descriptor that governs it (R319), the tasks that a `SAVE` took from the task units with it, and whether a fatal error ends it (spec/22 R380). -/
structure Launch where
  num : Nat
  ctx : Nat
  lid : Nat
  clus : Nat
  cores : Nat
  part : Word
  desc : BitVec 512
  orph : Nat
  abort : Bool
  deriving DecidableEq, Repr

/-- What the image of a saved context does not list and the launch controller keeps of one of its strands (spec/20 R338; log 14): pending interrupt lines, whether it has
just entered a trap, the task it runs, and its `MMA.G` instances. -/
structure Kept where
  strand : Nat
  irq : BitVec 3
  entered : Bool
  task : Option CurTask
  mmagN : Nat
  mmagOpen : List (Nat × Bool)
  deriving DecidableEq, Repr

/-- One context (spec/20 R318, R324, R335, spec/09 R201). -/
structure Ctx where
  desc : BitVec 512
  lqbase : Word
  lqcnt : Nat
  lqtail : Nat
  lqhead : Nat
  lqerr : Bool
  cqbase : Word
  cqhead : Nat
  cqtail : Nat
  cmd : Nat
  stat : Nat
  reason : Nat
  pimg : Word
  binds : List Binding
  saved : Bool
  heldKills : List (Nat × PendKill)
  kept : List Kept
  deriving DecidableEq, Repr

def EvLine.reset : EvLine := ⟨0, 0, []⟩
def BarCounter.reset : BarCounter := ⟨0, 0, [], []⟩
def Mutex.reset : Mutex := ⟨none, []⟩

def Debug.reset : Debug :=
  { ctl := 0, sel := 0, addr := 0, lbp0 := 0, lbp1 := 0, ica := 0, halted := false, haltedAt := 0, cause := 0, strand := 0,
    icbusy := false, stepping := none }

/-- A cluster at power-up; the slot words as spec/20 R323 says. -/
def Cluster.reset : Cluster :=
  { l2 := [], tlb := [], ev := [], barc := [], mutex := [], owners := [], pwinImg := [],
    cpySlot := 0xFEDCBA9876543210, tkuSlot := 0xFEDCBA9876543210, cpyLast := 15, tkuLast := 15, tasks := [], notices := [],
    copies := [], streams := [], drains := [], dm := .reset, unav := 0, failed := false }

def Ctx.reset : Ctx :=
  { desc := 0, lqbase := 0, lqcnt := 0, lqtail := 0, lqhead := 0, lqerr := false, cqbase := 0, cqhead := 0, cqtail := 0,
    cmd := 0, stat := 0, reason := 0, pimg := 0, binds := [], saved := false, heldKills := [], kept := [] }

end Sys2Proof.Machine
end

