-- ==== Sys2Proof/Machine/JoinState.lean ====
section
/-!
DEFINITION. The state of the join homes (spec/15), as plain data: the tracked instances, the kills and the child arrivals on their way.
Fields of a record that the home writes stay in the record in memory (R290, R292).
-/
namespace Sys2Proof.Machine

/-- What a kill or a registration names (spec/15 R291): a strand of the cascade by its strand address and context, a command of a cluster's copy
engine by cluster and ticket of its strand (or TCB address), or a child join by its record's location and instance. -/
inductive Party where
  | strand (addr : Word) (ctx : Nat)
  | copy (cl : Nat) (strand : Option Nat) (ticket : Nat)
  | join (key num : Nat)
  deriving DecidableEq, Repr

/-- A registered participant of an instance (spec/15 R292, R295): its id, who it is, and the record address it used. -/
structure Registration where
  pid : Nat
  who : Party
  va : Word
  deriving DecidableEq, Repr

/-- A tracked join instance (spec/15 R292): the record's physical location, the instance's number, the software fields and
weights as `JOPEN` copied them, the context that opened it with its descriptor, the record's address there, its state, its registrations,
the frames of its areas by virtual page, and the location and instance of its parent. -/
structure JoinInst where
  key : Nat
  num : Nat
  sw : BitVec 2048
  weights : List Nat
  ctx : Nat
  desc : BitVec 512
  tenant : Nat
  va : Word
  state : Nat
  regs : List Registration
  pages : Map Nat
  pkey : Nat
  pnum : Nat
  deriving DecidableEq, Repr

/-- A kill on its way to a participant (spec/15 R300, R304, R306). -/
structure KillMsg where
  who : Party
  va : Word
  pid : Nat
  kpc : Option Word
  time : Nat
  deriving DecidableEq, Repr

/-- The arrival of a released child at its parent (spec/15 R307): parent's location and instance, participant id, and the child's
result array as FP32 encodings. -/
structure ChildArrival where
  key : Nat
  num : Nat
  pid : Nat
  vals : List (BitVec 32)
  time : Nat
  deriving DecidableEq, Repr

/-- Stall time on its way to a join's account (spec/15 R299). -/
structure StallMsg where
  key : Nat
  num : Nat
  units : Nat
  deriving DecidableEq, Repr

end Sys2Proof.Machine
end

