-- ==== Sys2Proof/Machine/DeviceState.lean ====
section
/-!
DEFINITION. The state of the device's links, clocks, trace rings, error counters and management controller (spec/21, spec/22), as
plain data.
-/
namespace Sys2Proof.Machine

/-- A flit sent and not acknowledged (spec/22 R373). -/
structure Flit where
  header : Word
  payload : List Byte
  deriving DecidableEq, Repr

/-- A link (spec/22 R367-R375): LINKST, for a cascade port the sequence numbers and the consecutive retries of each VC with the flits kept, and for an Ethernet port the cycle up
to which each priority is paused. -/
structure LinkUnit where
  state : Nat
  dis : Bool
  width : Nat
  rate : Nat
  reason : Nat
  retry : Nat
  txSeq : Map Nat
  rxSeq : Map Nat
  unacked : List Flit
  tries : Map Nat
  pauseTo : Map Nat
  deriving DecidableEq, Repr

/-- The PTP clock (spec/22 R377): whether its acquisition has been started, whether 1PPS is its source, the Ethernet port it runs over, state, PTPTOD, selected master, consecutive
good Sync intervals, and the offset still to be removed by slewing. -/
structure PtpClock where
  on : Bool
  pps : Bool
  port : Nat
  state : Nat
  tod : Nat
  master : Option Nat
  good : Nat
  slew : Int
  deriving DecidableEq, Repr

/-- A reliable-connected queue pair (spec/22 R376): its rate in parts of 2^32 of the line rate, retries in a row, and the CNPs it has sent. -/
structure QueuePair where
  rate : Nat
  retries : Nat
  cnps : Nat
  deriving DecidableEq, Repr

/-- A memory region of the responder (spec/22 R376). -/
structure Region where
  rkey : BitVec 32
  base : Nat
  len : Nat
  write : Bool
  deriving DecidableEq, Repr

/-- A trace ring (spec/21 R347, R350). -/
structure Ring where
  base : Word
  cfg : Word
  wr : Nat
  rd : Nat
  filt : BitVec 256
  drops : Nat
  deriving DecidableEq, Repr

/-- The management controller (spec/22 R365, R366, R382-R386): DEVST, the key hashes of its boot ROM, secure flash, SVN floor, measurements, the recovery mailbox,
the repair table with the entries of self-test, the routing table, the device kernel image accepted last, and the last SPDM response. -/
structure Mgmt where
  state : Nat
  fail : Nat
  nrep : Nat
  slots : List (BitVec 256)
  flash : List Byte
  floor : Nat
  meas : List (BitVec 256)
  rmstat : Nat
  rmreason : Nat
  rmcount : Nat
  rmlen : Nat
  rmwin : Memory
  staging : List Byte
  repairs : List Word
  routes : List Word
  kernel : List Byte
  doe : List Byte
  deriving DecidableEq, Repr

/-- An issuer of a merged atomic: the strand, the counter to decrement when it is performed, and the address it named. -/
structure MergedBy where
  strand : Nat
  ctr : BitVec 3
  va : Nat
  deriving DecidableEq, Repr

/-- A merged reduction on its way (spec/09 R199, spec/13 R266): location, operation, type, value, and its issuers. -/
structure Reduction where
  pa : Nat
  fn : AmoFn
  ty : Ty
  val : Nat
  owners : List MergedBy
  deriving DecidableEq, Repr

/-- A message for a mailbox of this device from a strand of another that has not been accepted (spec/14 R288): the destination, the sender, the payload, the time it carries and the
cycle of its arrival. -/
structure AwaySend where
  target : Nat
  sender : Word
  payload : Vec
  time : Nat
  since : Nat
  deriving DecidableEq, Repr

/-- A request of another device's strand that has arrived and is not served: one of a cycle in which its unit has served a later one (spec/09 R202, R206), or a read of a
register that is not ready (R207). -/
structure AwayReq where
  cdom : Nat
  sender : Word
  time : Nat
  req : CascadeReq
  since : Nat
  deriving DecidableEq, Repr

/-- What system software and the host set by registers to which the spec gives no address: the clock's acquisition, source, port and master (spec/22 R377), queue pairs and regions
(R376), HDM decoder ranges (R368), and a device kernel image (R383). -/
inductive ManageCmd where
  | clockOn
  | clockOff
  | clockSource (pps : Bool)
  | clockPort (p : Nat)
  | clockMaster (m : Nat)
  | queuePair (q : Nat)
  | region (r : Region)
  | hdm (i base len : Nat)
  | kernelImage (m : List Byte)
  deriving DecidableEq, Repr

/-- Which agent moves next: a strand; a strand where the units that the strands `busy` need do not accept their instructions in this cycle (spec/01 R13), `late` saying that a
load it issues is performed later (spec/13 R258); a result of a strand, by its place among those on their way, which lands; a home that evicts the LAST of an object (spec/21 R355); the management of the device; or a device step with its outside input. -/
inductive Agent where
  | strand (k : Nat)
  | pick (k : Nat) (busy : List Nat) (late : Bool)
  | lands (k i : Nat)
  | evictLast (o : Nat)
  | manage (m : ManageCmd)
  | event (i : Instr)
  deriving DecidableEq, Repr

/-- One entry of the agenda: cycles that pass first, and the agent (log 4). -/
structure Choice where
  dt : Nat
  who : Agent
  deriving DecidableEq, Repr

def LinkUnit.reset : LinkUnit := ⟨0, false, 0, 0, 0, 0, [], [], [], [], []⟩
def PtpClock.reset : PtpClock := ⟨false, false, 0, 0, 0, none, 0, 0⟩
def QueuePair.reset : QueuePair := ⟨2 ^ 32, 0, 0⟩
def Ring.reset : Ring := ⟨0, 0, 0, 0, 0, 0⟩

/-- DEVST in RESET, empty flash, floor 0, measurements of 32 zero bytes (spec/22 R365, R386; log 2). -/
def Mgmt.reset : Mgmt :=
  { state := 0, fail := 0, nrep := 0, slots := [Config.keySlotHash 0, Config.keySlotHash 1], flash := [], floor := 0, meas := [0, 0, 0, 0], rmstat := 0, rmreason := 0,
    rmcount := 0, rmlen := 0, rmwin := [], staging := [], repairs := [], routes := [], kernel := [], doe := [] }

end Sys2Proof.Machine
end

