-- ==== Sys2Proof/Machine/State.lean ====
section
/-!
DEFINITION. The whole machine as plain data, its reset state, and the reasons a step can stop.
-/
namespace Sys2Proof.Machine

/-- The device (spec/00 R8) and what lies about it. INVENTORY.md lists every field with its rule and its reset value. -/
structure State where
  cycle : Nat
  time : Map Nat
  agenda : List Choice
  cur : Nat
  late : Bool
  lastRun : Nat
  tick : Nat
  devNo : Nat
  strands : Map Strand
  cores : Map Core
  clusters : Map Cluster
  ctxs : Map Ctx
  mem : Memory
  poison : List Nat
  joins : List JoinInst
  joinNo : Nat
  kills : List KillMsg
  childArr : List ChildArrival
  stalls : List StallMsg
  lockQ : Map (List Word)
  reductions : List Reduction
  lastT : Map Nat
  lastGone : List Nat
  lastFloor : Map Nat
  lastAsk : Map (Nat × Nat)
  launches : List Launch
  launchNo : Nat
  recs : List TraceRec
  dieSeq : Map Nat
  srcStamp : Map Nat
  rings : Map Ring
  ptp : PtpClock
  links : Map LinkUnit
  unreach : List Nat
  fabricQ : List Flit
  awaySends : List AwaySend
  awayReqs : List AwayReq
  ethDrops : Map Nat
  qps : Map QueuePair
  regions : List Region
  hdm : List (Nat × Nat)
  rasctl : Word
  rascnt : Map Word
  xtrig : List Nat
  msix : List Nat
  mgmt : Mgmt
  deriving DecidableEq, Repr

/-- Why the machine stops. -/
inductive Fault where
  /-- Raised by `step` when DEVST.STATE is FAILED (spec/22 R366, R380): the device takes no further step until power is cycled,
  which the spec describes as a power-up. Safe: the hardware does no more. -/
  | deviceFailed
  deriving DecidableEq, Repr

/-- Why an instruction has no meaning in the model. -/
inductive Refusal where
  /-- Raised by an arm of `exec` whose instruction has no meaning yet. Safe: nothing is claimed of it. -/
  | notModelled (mnemonic : String)
  deriving DecidableEq, Repr

/-- The machine at power-on, before the management controller has run (spec/22 R365, R366). -/
def State.reset : State :=
  { cycle := 0, time := [], agenda := [], cur := 0, late := false, lastRun := 0, tick := 0, devNo := 0, strands := [], cores := [],
    clusters := [], ctxs := [], mem := [], poison := [], joins := [], joinNo := 0, kills := [], childArr := [],
    stalls := [], lockQ := [], reductions := [], lastT := [], lastGone := [], lastFloor := [], lastAsk := [], launches := [], launchNo := 0, recs := [], dieSeq := [], srcStamp := [],
    rings := [], ptp := .reset, links := [], unreach := [], fabricQ := [], awaySends := [], awayReqs := [], ethDrops := [], qps := [], regions := [], hdm := [], rasctl := 0, rascnt := [],
    xtrig := [], msix := [], mgmt := .reset }

end Sys2Proof.Machine
end

