-- ==== Sys2Proof/Machine/Ops.lean ====
section
/-!
DEFINITION. The named operations over the state: registers and control registers, units by number, the caches and the homes of
global lines, address translation, the core pool with its register blocks, trace emission, and trap entry with its return.
-/
namespace Sys2Proof.Machine

/-! ### Units by number (spec/00 R8) -/

def coreOf (k : Nat) : Nat := k / 4
def clusterOf (k : Nat) : Nat := k / 256
def clusterOfCore (c : Nat) : Nat := c / 64
def strandNo (k : Nat) : Nat := k % 4
def coreNo (k : Nat) : Nat := k / 4 % 64
/-- The die of a cluster. -/
def dieOf (cl : Nat) : Nat := cl / 4

def getStrand (s : State) (k : Nat) : Strand := mget Strand.reset s.strands k
def setStrand (s : State) (k : Nat) (x : Strand) : State := { s with strands := mput s.strands k x }
def modStrand (s : State) (k : Nat) (f : Strand → Strand) : State := setStrand s k (f (getStrand s k))
def getCore (s : State) (c : Nat) : Core := mget Core.reset s.cores c
def setCore (s : State) (c : Nat) (x : Core) : State := { s with cores := mput s.cores c x }
def modCore (s : State) (c : Nat) (f : Core → Core) : State := setCore s c (f (getCore s c))
def getCluster (s : State) (c : Nat) : Cluster := mget Cluster.reset s.clusters c
def setCluster (s : State) (c : Nat) (x : Cluster) : State := { s with clusters := mput s.clusters c x }
def modCluster (s : State) (c : Nat) (f : Cluster → Cluster) : State := setCluster s c (f (getCluster s c))
def getCtx (s : State) (x : Nat) : Ctx := mget Ctx.reset s.ctxs x
def modCtx (s : State) (x : Nat) (f : Ctx → Ctx) : State := { s with ctxs := mput s.ctxs x (f (getCtx s x)) }

/-- The strand whose instruction runs. -/
def me (s : State) : Strand := getStrand s s.cur
def modMe (s : State) (f : Strand → Strand) : State := modStrand s s.cur f
def myCore (s : State) : Core := getCore s (coreOf s.cur)

/-- The strand address of a strand of this device (spec/09 R196), with RDEV 0, which is the model's choice (log 94). -/
def addrOfStrand (s : State) (k : Nat) : Word := BitVec.ofNat 64 (k + 4096 * s.devNo)

/-! ### Registers (spec/01 R14, R15) -/

def getS (x : Strand) (r : SReg) : Word := if r = 0 then 0 else mget 0 x.s r.toNat
def setS (x : Strand) (r : SReg) (v : Word) : Strand := if r = 0 then x else { x with s := mset 0 x.s r.toNat v }
def getV (x : Strand) (r : VReg) : Vec := mget 0 x.v r.toNat
def setV (x : Strand) (r : VReg) (v : Vec) : Strand := { x with v := mset 0 x.v r.toNat v }
def getK (x : Strand) (r : KReg) : Word := if r = 0 then BitVec.allOnes 64 else mget 0 x.k r.toNat
def setK (x : Strand) (r : KReg) (v : Word) : Strand := if r = 0 then x else { x with k := mset 0 x.k r.toNat v }
def getG (x : Strand) (r : GReg) : Bool := if r = 7 then true else x.g.getLsbD r.toNat
def setG (x : Strand) (r : GReg) (b : Bool) : Strand :=
  if r = 7 then x
  else { x with g := if b then x.g ||| (1#7 <<< r.toNat) else x.g &&& ~~~ (1#7 <<< r.toNat) }
def getD (x : Strand) (i : Nat) : Nat := (mget 0 x.d i).toNat
def setD (x : Strand) (i n : Nat) : Strand := { x with d := mset 0 x.d i (BitVec.ofNat 6 n) }
/-- A tile-state word; the cleared state where nothing is listed (spec/01 R20, spec/03 R56). -/
def getTile (x : Strand) (a : Nat) : BitVec 18 := mget 0x18000 x.tile a
def setTile (x : Strand) (a : Nat) (w : BitVec 18) : Strand := { x with tile := mset 0x18000 x.tile a w }

/-- All the guard predicates as a byte, bit 7 reading 1. -/
def guardByte (x : Strand) : Nat := x.g.toNat + 128

/-! ### STATUS (spec/01 R31) -/

def stPriv (x : Strand) : Bool := x.status.getLsbD 0
def stIE (x : Strand) : Bool := x.status.getLsbD 2
def stPPriv (x : Strand) : Bool := x.status.getLsbD 3
def stPIE (x : Strand) : Bool := x.status.getLsbD 4
def stKillp (x : Strand) : Bool := x.status.getLsbD 5
def stCtx (x : Strand) : Nat := bits x.status.toNat 12 4
def stNanm (x : Strand) : Bool := x.status.getLsbD 16
def stWte (x : Strand) : Bool := x.status.getLsbD 17
/-- Write one bit of STATUS. -/
def putStatus (x : Strand) (i : Nat) (b : Bool) : Strand :=
  { x with status := if b then x.status ||| (1#64 <<< i) else x.status &&& ~~~ (1#64 <<< i) }

/-- Live strands of a core (spec/01 R12): NSTR + 1. -/
def liveCount (c : Core) : Nat := bits c.part.toNat 32 2 + 1
def regionAcc (c : Core) : Nat := bits c.part.toNat 8 7
def regionSpl (c : Core) : Nat := bits c.part.toNat 16 7
/-- Accumulator tiles of each strand (spec/01 R22). -/
def tileCount (c : Core) : Nat := min 8 (regionAcc c * 16384 / (30720 * liveCount c))
/-- Pool offset of a tile (spec/01 R22). -/
def tileOffset (c : Core) (strand tile : Nat) : Nat := 0x4000 + (strand * tileCount c + tile) * 30720
/-- First offset of the spill carve-out and the size of one strand's share (spec/01 R19, R26). -/
def carveBase (c : Core) : Nat := 0x4000 * (1 + regionAcc c)
def carveShare (c : Core) : Nat := regionSpl c * 16384 / (liveCount c * 128) * 128

/-! ### Trace emission (spec/21 R342-R348, R355) -/

/-- Trace-time units of some core cycles at 2.25 GHz (spec/00 R5, R8; log 5). -/
def cycleUnits (n : Nat) : Nat := n * 16 / 9

/-- A die's time (spec/21 R341). -/
def dieTime (s : State) (d : Nat) : Nat := mget 0 s.time d % 2 ^ 63

/-- Source code of a strand (spec/21 R345). -/
def srcStrand (k : Nat) : Nat := clusterOf k * 1024 + coreNo k * 16 + strandNo k
/-- Source code of a device unit. -/
def srcUnit (u : Nat) : Nat := u * 16 + 15
def srcCopy (cl : Nat) : Nat := cl * 1024 + 8
def srcTopk (cl : Nat) : Nat := cl * 1024 + 9
def srcTask (cl : Nat) : Nat := cl * 1024 + 10
def srcDebug (cl : Nat) : Nat := cl * 1024 + 12

/-- Trace mode of a descriptor (spec/20 R318). -/
def trcOf (desc : BitVec 512) : Nat := bits desc.toNat 196 2

/-- Is a ring enabled (spec/21 R347)? -/
def ringOn (r : Ring) : Bool :=
  r.cfg.getLsbD 63 && decide (12 ≤ bits r.cfg.toNat 0 5)

/-- Does a tenant's ring take records of a class (spec/21 R348)? -/
def ringTakes (s : State) (t cls : Nat) : Bool :=
  let r := mget Ring.reset s.rings t
  ringOn r && r.filt.getLsbD cls

/-- Header word of a record (spec/21 R343). -/
def traceHeader (len cls tenant die src seq : Nat) (ll clamp : Bool) : Word :=
  BitVec.ofNat 64 (2 ^ 63 + (len - 1) * 2 ^ 60 + cls * 2 ^ 52 + tenant * 2 ^ 48 + die * 2 ^ 46 + src * 2 ^ 32
    + seq * 2 ^ 8 + 2 * bnat ll + bnat clamp)

/-- What a producer says about a record: class, source, die, causal floor, payload words, and who it is attributed to. -/
structure Emission where
  cls : Nat
  src : Nat
  die : Nat
  floor : Nat
  payload : List Nat
  strand : Option Nat
  ctx : Nat
  deriving DecidableEq, Repr

/-- Does a unit hold so many lossless records of a context that it defers the context's requests (spec/21 R352)? -/
def unitDefers (s : State) (src x : Nat) : Bool :=
  decide (16 ≤ (s.recs.filter fun r => r.held && r.strand.isNone && r.src == src && r.ctx == x).length)

/-- Queue a record for one tenant's ring with a given SEQ, stamped no lower than its producer's record before (spec/21 R342, R348, R356). -/
def emitTo (s : State) (e : Emission) (tenant seq : Nat) (lossless : Bool) : State :=
  if ringTakes s tenant e.cls then
    let now := dieTime s e.die
    let stamp := max (max now e.floor) (mget 0 s.srcStamp e.src)
    let ws := traceHeader (2 + e.payload.length) e.cls tenant e.die e.src seq lossless (decide (now < stamp))
      :: BitVec.ofNat 64 (stamp % 2 ^ 63) :: e.payload.map fun p => BitVec.ofNat 64 (p % 2 ^ 63)
    { s with srcStamp := mput s.srcStamp e.src stamp, recs := s.recs ++ [⟨ws, tenant, lossless, e.strand, e.src, e.ctx, false, none⟩] }
  else s

/-- Take the next SEQ of a die (spec/21 R342). -/
def nextSeq (s : State) (die : Nat) : Nat × State :=
  let q := mget 0 s.dieSeq die
  (q, { s with dieSeq := mput s.dieSeq die ((q + 1) % 2 ^ 24) })

/-- A record for tenant 0 alone: always lossy (spec/21 R348). -/
def emitSys (s : State) (e : Emission) : State :=
  if ringTakes s 0 e.cls then
    let q := nextSeq s e.die
    emitTo q.2 e 0 q.1 false
  else s

/-- A record attributed to a context with the given trace mode, for one tenant. -/
def emitOwn (s : State) (e : Emission) (tenant trc : Nat) : State :=
  if (trc == 1 || trc == 2) && ringTakes s tenant e.cls then
    let q := nextSeq s e.die
    emitTo q.2 e tenant q.1 (trc == 2)
  else s

/-- A record for tenant 0 and for the tenant of a context, with one SEQ and one stamp (spec/21 R348). -/
def emitBoth (s : State) (e : Emission) (tenant trc : Nat) : State :=
  let a := ringTakes s 0 e.cls
  let b := tenant != 0 && (trc == 1 || trc == 2) && ringTakes s tenant e.cls
  if a || b then
    let q := nextSeq s e.die
    let s := if a then emitTo q.2 e 0 q.1 false else q.2
    if b then emitTo s e tenant q.1 (trc == 2) else s
  else s

/-- A strand's own record (spec/21 R346). -/
def emitStrand (s : State) (k cls : Nat) (payload : List Nat) : State :=
  let x := getStrand s k
  emitOwn s ⟨cls, srcStrand k, dieOf (clusterOf k), x.floor, payload, some k, stCtx x⟩ (bits x.tenant.toNat 0 4)
    (trcOf (getCore s (coreOf k)).desc)

/-- A strand's time at an event (spec/21 R355): its die's time, not below its floor. -/
def timeOf (s : State) (k : Nat) : Nat := max (dieTime s (dieOf (clusterOf k))) (getStrand s k).floor

/-- A carried time raises a strand's floor above it (spec/21 R355). -/
def raiseFloor (s : State) (k t : Nat) : State := modStrand s k fun x => { x with floor := max x.floor (t + 1) }

/-! ### Error reports (spec/09 R226, spec/21 R345, spec/22 R379, R381) -/

/-- Make an interrupt line pending on a strand named by its strand address. -/
def pendIrq (s : State) (addr line : Nat) : State :=
  if addr / 4096 % 64 = s.devNo ∨ bitOf addr 18 = false then
    modStrand s (addr % 4096) fun x => { x with irq := x.irq ||| (1#3 <<< line) }
  else s

/-- Die of a device unit (spec/21 R345). -/
def dieOfUnit (u : Nat) : Nat :=
  if 8 ≤ u ∧ u < 16 then (u - 8) / 2
  else if 16 ≤ u ∧ u < 28 then (u - 16) / 3
  else if 32 ≤ u ∧ u < 36 then u - 32
  else if 41 ≤ u ∧ u < 43 then 1 + (u - 41)
  else 0

/-- Is a location near-tier memory of some device (spec/20 R317)? -/
def isNear (key : Nat) : Bool := decide (key % 2 ^ 52 < 0x8000000000)
/-- Stack of a near-tier location. -/
def stackOf (key : Nat) : Nat := key / 4096 % 8

/-- Unit number of the memory port of a location (spec/21 R345). -/
def unitOfLoc (key : Nat) : Nat :=
  if 2 ^ 52 ≤ key then 1
  else if isNear key then 8 + stackOf key
  else if key < 0x200000000000 then 41
  else if key < 0x8000000000000 then 42
  else 40

/-- Die of the memory port of a location. -/
def dieOfLoc (key : Nat) : Nat := dieOfUnit (unitOfLoc key)

/-- Error kind of a memory location (spec/22 R381). -/
def kindOfLoc (key : Nat) : Nat :=
  if 2 ^ 52 ≤ key then 6 else if isNear key then 4 else if key < 0x8000000000000 then 5 else 7

/-- Count an error of a kind (spec/22 R381). -/
def countError (s : State) (kind : Nat) (unc : Bool) : State :=
  let w := (mget 0 s.rascnt kind).toNat
  let lo := if unc then 32 else 0
  { s with rascnt := mset 0 s.rascnt kind (BitVec.ofNat 64 (setBits w lo 32 (min (bits w lo 32 + 1) (2 ^ 32 - 1)))) }

/-- MSI-X vector 16 tells the host of an error (spec/22 R368; log 77). -/
def tellHost (s : State) : State := { s with msix := s.msix ++ [16] }

/-- A corrected error (spec/22 R379). -/
def reportCorrected (s : State) (kind src space addr : Nat) : State :=
  emitSys (tellHost (countError s kind false)) ⟨0x48, srcUnit 3, 0, 0, [kind % 256 + src % 2 ^ 14 * 2 ^ 8 + space % 16 * 2 ^ 32, addr], none, 0⟩

/-- An uncorrected error: RASUE, and line 2 on the strand that RASCTL names, where that is one of context 0 (spec/09 R226, spec/22 R379). -/
def reportUncorrected (s : State) (kind src space addr : Nat) : State :=
  let s := emitSys (tellHost (countError s kind true))
    ⟨0x49, srcUnit 3, 0, 0, [kind % 256 + src % 2 ^ 14 * 2 ^ 8 + space % 16 * 2 ^ 32, addr], none, 0⟩
  let a := bits s.rasctl.toNat 0 19
  if s.rasctl.getLsbD 63 && stCtx (getStrand s (a % 4096)) == 0 then pendIrq s a 2 else s

/-- An uncorrected error at a memory location. -/
def reportLoc (s : State) (key : Nat) : State := reportUncorrected s (kindOfLoc key) (srcUnit (unitOfLoc key)) 0 key

/-! ### Links and homes that do not answer (spec/22 R367, R370, R373, R374, R378) -/

def getLink (s : State) (u : Nat) : LinkUnit := mget LinkUnit.reset s.links u
/-- Does a link carry traffic: UP or DEGRADED? -/
def linkCarries (s : State) (u : Nat) : Bool := (getLink s u).state == 2 || (getLink s u).state == 3

/-- The port by which requests for a device leave, from the routing table: the primary one while it carries traffic, else the alternate. -/
def routeOf (s : State) (dev : Nat) : Option Nat :=
  let e := s.mgmt.routes.getD dev 0
  let p := Config.primaryPort e % 12
  let q := Config.alternatePort e % 12
  if linkCarries s (16 + p) then some p else if linkCarries s (16 + q) then some q else none

/-- Can no request reach a device of the cascade? -/
def deviceGone (s : State) (dev : Nat) : Bool := s.unreach.contains dev || (routeOf s dev).isNone

/-- Is a global location one whose home does not answer: another device that is unreachable, an expander whose port is not up or whose
capacity ends below it, or host memory while the host link is down? -/
def noHome (s : State) (key : Nat) : Bool :=
  if 2 ^ 52 ≤ key then deviceGone s (key / 2 ^ 52 - 1)
  else if key < 0x8000000000 then false
  else if key < 0x200000000000 then !linkCarries s 41 || decide (Config.farCapacity 0 ≤ key % 0x40000000000 / 4096)
  else if key < 0x8000000000000 then !linkCarries s 42 || decide (Config.farCapacity 1 ≤ key % 0x40000000000 / 4096)
  else !linkCarries s 40

/-! ### Flits that leave (spec/22 R373) -/

/-- A flit leaves by a port: it takes the next sequence number of its VC, acknowledges what that VC has accepted, and is kept until it is acknowledged. -/
def sendFlit (s : State) (p : Nat) (header : Word) (payload : List Byte) : State :=
  let l := getLink s (16 + p)
  let vc := bits header.toNat 0 2
  let n := mget 0 l.txSeq vc
  let h := BitVec.ofNat 64 (setBits (setBits header.toNat 8 8 n) 16 8 ((mget 0 l.rxSeq vc + 255) % 256))
  { s with links := mput s.links (16 + p) { l with txSeq := mset 0 l.txSeq vc ((n + 1) % 256), unacked := l.unacked ++ [⟨h, payload⟩] } }

/-- Does a port other than `q` keep a flit for a device: traffic that has moved to `q` waits until it has been acknowledged. -/
def flowWaits (s : State) (dev q : Nat) : Bool :=
  (upFrom 0 12).any fun p => p != q && (getLink s (16 + p)).unacked.any fun f => bits f.header.toNat 24 6 == dev

/-- A flit of this device for another goes out by the port of its route; while its flow waits to move, or earlier flits of the flow do, it stays in the fabric interface. -/
def sendOwn (s : State) (f : Flit) : State :=
  let dev := bits f.header.toNat 24 6
  match routeOf s dev with
  | some p =>
      if flowWaits s dev p || s.fabricQ.any (fun g => bits g.header.toNat 24 6 == dev) then { s with fabricQ := s.fabricQ ++ [f] }
      else sendFlit s p f.header f.payload
  | none => s

/-- The flits that stayed are tried again, in order. -/
def flushFabric (s : State) : State := s.fabricQ.foldl sendOwn { s with fabricQ := [] }

/-- A message of this device for another, in a flit of a VC (0 request, 1 response, 2 reduction, 3 barrier and join). -/
def sendMsg (s : State) (dev vc : Nat) (m : List Nat) : State :=
  sendOwn s ⟨BitVec.ofNat 64 (vc + dev % 64 * 2 ^ 24 + s.devNo % 64 * 2 ^ 30), Config.messageBytes m⟩

/-- An access to a location of another device leaves as a flit of a VC. -/
def askHomeOn (s : State) (vc key : Nat) (m : List Nat) : State :=
  if 2 ^ 52 ≤ key then sendMsg s (key / 2 ^ 52 - 1) vc m else s
def askHome (s : State) (key : Nat) (m : List Nat) : State := askHomeOn s 0 key m

/-! ### Homes of global lines (spec/13 R254, R259, spec/20 R317) -/

/-- A location's key: the physical address, with 1 + d in bits 57:52 and up for another device d. -/
def physKey (s : State) (rdev : Bool) (dev pa : Nat) : Nat := if rdev && dev != s.devNo then (1 + dev) * 2 ^ 52 + pa else pa

/-- Does an address of this device hold memory or a control block (spec/20 R317)? -/
def backed (pa : Nat) : Bool :=
  decide (pa < 0x8000000000) || (decide (0x100000000000 ≤ pa) && decide (pa < 0x140000000000))
  || (decide (0x200000000000 ≤ pa) && decide (pa < 0x240000000000))
  || (decide (0xF00000000000 ≤ pa) && decide (pa < 0xF00000100000))
  || (decide (0xF01000000000 ≤ pa) && decide (pa < 0xF01000020000))
  || (decide (0x8000000000000 ≤ pa) && decide (pa < 0x10000000000000))

/-- The control space: the CCBs and the DCB. -/
def isControl (key : Nat) : Bool :=
  (decide (0xF00000000000 ≤ key) && decide (key < 0xF00000100000))
  || (decide (0xF01000000000 ≤ key) && decide (key < 0xF01000020000))

def lineOf (key : Nat) : Nat := key / 128

/-- Clear the poison of every 64-bit unit that a write covers whole (spec/22 R379). -/
def unpoison (s : State) (key n : Nat) : State :=
  { s with poison := s.poison.filter fun u => !(decide (key ≤ u) && decide (u + 8 ≤ key + n)) }

/-- A write to a home that does not answer may or may not be performed there; it raises its RAS event (spec/22 R370, R374). -/
def lostWrite (s : State) (key : Nat) (f : State → State) : State :=
  let s := reportLoc { s with tick := s.tick + 1 } key
  if Config.writeArrives (s.tick - 1) then f s else s

/-- Write bytes at their home, by a VC where it is another device. -/
def homeWriteOn (s : State) (vc key n v : Nat) : State :=
  let s := askHomeOn s vc key [1, key, n, v]
  let f (s : State) : State := unpoison { s with mem := writeLE s.mem key n v } key n
  if noHome s key then lostWrite s key f else f s

def homeWrite (s : State) (key n v : Nat) : State := homeWriteOn s 0 key n v
/-- The write of a merged reduction, and that of a barrier or a join (spec/22 R373). -/
def reduceWrite (s : State) (key n v : Nat) : State := homeWriteOn s 2 key n v
def meetWrite (s : State) (key n v : Nat) : State := homeWriteOn s 3 key n v

/-- Write at the home those bytes of a line that a mask names. -/
def homeWriteLine (s : State) (line : Nat) (data : BitVec 1024) (mask : BitVec 128) : State :=
  if mask = 0 then s
  else
    let f (s : State) : State :=
      { s with
        mem := writeMasked s.mem (line * 128) 128 data.toNat mask.toNat
        poison := s.poison.filter fun u => !(decide (u / 128 = line) && (mask.toNat / 2 ^ (u % 128)) % 256 == 255) }
    let s := askHome s (line * 128) [1, line * 128, 128, data.toNat, mask.toNat]
    if noHome s (line * 128) then lostWrite s (line * 128) f else f s

def homeRead (s : State) (key n : Nat) : Nat := readLE s.mem key n

/-- A byte mask of a line, spread over its bits. -/
def spread : Nat → Nat → Nat
  | 0, _ => 0
  | n + 1, m => (if m % 2 = 1 then 255 else 0) + 256 * spread n (m / 2)

def bitMask (m : BitVec 128) : BitVec 1024 := BitVec.ofNat 1024 (spread 128 m.toNat)

/-- The bytes of one line replaced by those of another where a mask is set. -/
def mergeLine (old new : BitVec 1024) (m : BitVec 128) : BitVec 1024 :=
  (old &&& ~~~ bitMask m) ||| (new &&& bitMask m)

def ctxBit (x : Nat) : BitVec 16 := 1#16 <<< x

/-! #### The L2 slice -/

def l2Line (s : State) (cl line : Nat) : Option Line :=
  if mhas (getCluster s cl).l2 line then some (mget ⟨0, 0, 0⟩ (getCluster s cl).l2 line) else none

def setL2 (s : State) (cl line : Nat) (x : Line) : State :=
  modCluster s cl fun c => { c with l2 := mput c.l2 line x }

/-- Write the dirty bytes of an L2 line to its home and keep the line. -/
def wbL2 (s : State) (cl line : Nat) : State :=
  match l2Line s cl line with
  | none => s
  | some l => setL2 (homeWriteLine s line l.data l.dirty) cl line { l with dirty := 0 }

/-- Write back, then drop, an L2 line. -/
def dropL2 (s : State) (cl line : Nat) : State :=
  modCluster (wbL2 s cl line) cl fun c => { c with l2 := mdel c.l2 line }

/-- Lines of an L2 slice of 16 MiB (spec/00 R8, spec/13 R259). -/
def l2Capacity : Nat := 131072

/-- A slice that is full gives up a line before it takes another; the spec names no replacement policy, so which line is free (spec/13 R259; log 9). -/
def makeRoom (s : State) (cl : Nat) : State :=
  let l := (getCluster s cl).l2
  if l.length < l2Capacity then s
  else dropL2 { s with tick := s.tick + 1 } cl ((l.map Prod.fst).getD (Config.l2Victim s.tick % l.length) 0)

/-- The line of a cluster's L2 slice, filled from its home where it is not held. -/
def fillL2 (s : State) (cl line x : Nat) : Line × State :=
  match l2Line s cl line with
  | some l =>
      let l := { l with ctxs := l.ctxs ||| ctxBit x }
      (l, setL2 s cl line l)
  | none =>
      let s := askHome (makeRoom s cl) (line * 128) [0, line * 128, 128]
      let l : Line := ⟨BitVec.ofNat 1024 (homeRead s (line * 128) 128), 0, ctxBit x⟩
      (l, setL2 s cl line l)

/-! #### The core data cache -/

def coreLine (s : State) (c line : Nat) : Option Line :=
  if mhas (getCore s c).dcache line then some (mget ⟨0, 0, 0⟩ (getCore s c).dcache line) else none

def setCoreLine (s : State) (c line : Nat) (x : Line) : State :=
  modCore s c fun y => { y with dcache := mput y.dcache line x }

/-- The line of a core's data cache, filled through the L2 slice where it is not held. -/
def fillCore (s : State) (c line x : Nat) : Line × State :=
  match coreLine s c line with
  | some l =>
      let l := { l with ctxs := l.ctxs ||| ctxBit x }
      (l, setCoreLine s c line l)
  | none =>
      let r := fillL2 s (clusterOfCore c) line x
      let l : Line := ⟨r.1.data, 0, ctxBit x⟩
      (l, setCoreLine r.2 c line l)

/-- The L2 slice accepts the dirty bytes of a core's line (spec/06 R126). -/
def landLine (s : State) (c line : Nat) : State :=
  match coreLine s c line with
  | none => s
  | some l =>
      if l.dirty = 0 then s
      else
        let r := fillL2 s (clusterOfCore c) line 0
        let m : Line := ⟨mergeLine r.1.data l.data l.dirty, r.1.dirty ||| l.dirty, r.1.ctxs ||| l.ctxs⟩
        let m := match l2Line s (clusterOfCore c) line with
          | some o => { m with ctxs := o.ctxs ||| l.ctxs }
          | none => { m with ctxs := l.ctxs }
        setCoreLine (setL2 r.2 (clusterOfCore c) line m) c line { l with dirty := 0 }

/-- Land, then drop, a core's line. -/
def dropCore (s : State) (c line : Nat) : State :=
  modCore (landLine s c line) c fun y => { y with dcache := mdel y.dcache line }

/-- A byte mask of `n` bytes from an offset within a line. -/
def byteMask (off n : Nat) : BitVec 128 := BitVec.ofNat 128 ((2 ^ n - 1) * 2 ^ off)

/-- Replace `n` bytes of a line. -/
def putBytes (d : BitVec 1024) (off n v : Nat) : BitVec 1024 :=
  mergeLine d (BitVec.ofNat 1024 (v % 2 ^ (8 * n) * 2 ^ (8 * off))) (byteMask off n)

/-- A load of `n` bytes within one line by a core for a context. -/
def cacheRead (s : State) (c x key n : Nat) : Nat × State :=
  let r := fillCore s c (lineOf key) x
  (bits r.1.data.toNat (8 * (key % 128)) (8 * n), r.2)

/-- A store of `n` bytes within one line by a core for a context (spec/13 R258). -/
def cacheWrite (s : State) (c x key n v : Nat) : State :=
  let r := fillCore s c (lineOf key) x
  setCoreLine r.2 c (lineOf key)
    { r.1 with data := putBytes r.1.data (key % 128) n v, dirty := r.1.dirty ||| byteMask (key % 128) n }

/-- An engine's read through its cluster's L2 slice. -/
def l2Read (s : State) (cl x key n : Nat) : Nat × State :=
  let r := fillL2 s cl (lineOf key) x
  (bits r.1.data.toNat (8 * (key % 128)) (8 * n), r.2)

/-- An engine's write: the L2 slice is updated and the home written (spec/13 R270). -/
def l2Write (s : State) (cl x key n v : Nat) : State :=
  let r := fillL2 s cl (lineOf key) x
  homeWrite (setL2 r.2 cl (lineOf key)
    { r.1 with data := putBytes r.1.data (key % 128) n v, dirty := r.1.dirty &&& ~~~ byteMask (key % 128) n }) key n v

/-- Do a core or its cluster hold a copy of a line? -/
def heldCopy (s : State) (c line : Nat) : Bool := (coreLine s c line).isSome || (l2Line s (clusterOfCore c) line).isSome

/-- Does a read of `n` bytes meet an uncorrected error: a poisoned byte at its home that no cache on the way has rewritten (spec/22 R379), or a
home that does not answer and no copy on the way (spec/22 R370, R374)? -/
def poisoned (s : State) (c key n : Nat) : Bool :=
  (noHome s key && !heldCopy s c (lineOf key)) ||
  s.poison.any fun u =>
    decide (u < key + n) && decide (key < u + 8) &&
    !((match coreLine s c (lineOf key) with
       | some l => l.dirty &&& byteMask (key % 128) n == byteMask (key % 128) n
       | none => false) ||
      (match l2Line s (clusterOfCore c) (lineOf key) with
       | some l => l.dirty &&& byteMask (key % 128) n == byteMask (key % 128) n
       | none => false))

/-- Fold an operation over the numbers of a list. -/
def foldUnits (f : State → Nat → State) : List Nat → State → State
  | [], s => s
  | a :: r, s => foldUnits f r (f s a)

/-- The lines a core's data cache holds that satisfy a test. -/
def coreLines (s : State) (c : Nat) (p : Nat → Line → Bool) : List Nat :=
  ((getCore s c).dcache.filter fun e => p e.1 e.2).map Prod.fst
def l2Lines (s : State) (cl : Nat) (p : Nat → Line → Bool) : List Nat :=
  ((getCluster s cl).l2.filter fun e => p e.1 e.2).map Prod.fst

/-- Land every dirty line of a core that satisfies a test. -/
def landCore (s : State) (c : Nat) (p : Nat → Line → Bool) : State :=
  foldUnits (fun s l => landLine s c l) (coreLines s c p) s
def dropCoreLines (s : State) (c : Nat) (p : Nat → Line → Bool) : State :=
  foldUnits (fun s l => dropCore s c l) (coreLines s c p) s
def wbL2Lines (s : State) (cl : Nat) (p : Nat → Line → Bool) : State :=
  foldUnits (fun s l => wbL2 s cl l) (l2Lines s cl p) s
def dropL2Lines (s : State) (cl : Nat) (p : Nat → Line → Bool) : State :=
  foldUnits (fun s l => dropL2 s cl l) (l2Lines s cl p) s

/-! ### Translation (spec/20 R330-R333) -/

/-- Why an address is translated. -/
inductive AccKind where
  | read
  | write
  | atomic
  | fetch
  deriving DecidableEq, Repr

/-- Is a valid entry malformed at its level (spec/20 R331)? -/
def malformedPte (level e : Nat) : Bool :=
  let leaf := bitOf e 1
  let p64 := bitOf e 5
  bits e 59 5 != 0 || bitOf e 11
  || (leaf && decide (4 ≤ level)) || (!leaf && level == 1)
  || (!leaf && (bits e 2 9 != 0 || bits e 52 7 != 0))
  || (leaf && (level == 3 && bits e 12 18 != 0 || level == 2 && bits e 12 9 != 0 || level == 1 && p64 && bits e 12 4 != 0))
  || (bits e 8 3 != 0 && !bitOf e 6) || (bits e 52 6 != 0 && !bitOf e 58)
  || (bitOf e 6 && decide (0x1000000000 ≤ bits e 12 40 * 4096))
  || (leaf && p64 && (level == 2 || level == 3))

/-- A table entry at its home; none where it has no home or meets an uncorrected error. -/
def readPte (s : State) (pa : Nat) : Option Nat :=
  if backed pa && !isControl pa && !s.poison.contains pa && !noHome s pa then some (homeRead s pa 8) else none

/-- Size of a leaf's page. -/
def pageSize (level : Nat) (p64 : Bool) : Nat :=
  if level = 3 then 0x40000000 else if level = 2 then 0x200000 else if p64 then 0x10000 else 0x1000

/-- The walk from a level down (spec/20 R330): the leaf entry and the page size. -/
def walkTable (s : State) (va : Nat) : Nat → Nat → Option (Nat × Nat)
  | 0, _ => none
  | l + 1, t =>
    let i := bits va (12 + 9 * l) 9
    match readPte s (t + 8 * i) with
    | none => none
    | some e =>
      if !bitOf e 0 || malformedPte (l + 1) e then none
      else if l = 0 && bitOf e 5 then
        match readPte s (t + 8 * (i / 16 * 16)) with
        | none => none
        | some e => if bitOf e 0 && bitOf e 5 && !malformedPte 1 e then some (e, 0x10000) else none
      else if bitOf e 1 then some (e, pageSize (l + 1) false)
      else walkTable s va l (bits e 12 40 * 4096)

/-- The table entry at which a walk meets an uncorrected error, if it does (spec/20 R332). -/
def walkPoison (s : State) (va : Nat) : Nat → Nat → Option Nat
  | 0, _ => none
  | l + 1, t =>
    let pa := t + 8 * bits va (12 + 9 * l) 9
    if s.poison.contains pa || noHome s pa then some pa
    else
      match readPte s pa with
      | some e =>
        if !bitOf e 0 || malformedPte (l + 1) e || bitOf e 1 then none
        else if l = 0 && bitOf e 5 then
          let pa := t + 8 * (bits va 12 9 / 16 * 16)
          if s.poison.contains pa || noHome s pa then some pa else none
        else walkPoison s va l (bits e 12 40 * 4096)
      | none => none

/-- Root table of a context descriptor (spec/20 R318). -/
def trootOf (desc : BitVec 512) : Nat := bits desc.toNat 12 40 * 4096

/-- A leaf's permission for an access (spec/20 R330). -/
def permits (k : AccKind) (e : Nat) : Bool :=
  match k with
  | .read => bitOf e 2
  | .write => bitOf e 3
  | .atomic => bitOf e 2 && bitOf e 3
  | .fetch => bitOf e 4

/-- Location of an address under a leaf entry (spec/20 R317, R331). -/
def leafLoc (s : State) (e size va : Nat) : Nat :=
  let off := va % size
  let base := bits e 12 40 * 4096
  if bitOf e 6 then
    let q := (base + off) / 4096
    physKey s (bitOf e 58) (bits e 52 6) ((8 * q + bits e 8 3) * 4096 + off % 4096)
  else physKey s (bitOf e 58) (bits e 52 6) (base + off)

/-- A cached translation of an address for a context. -/
def tlbHit (t : List TlbEntry) (x va : Nat) : Option TlbEntry :=
  t.find? fun e => e.ctx == x && decide (e.base ≤ va) && decide (va < e.base + e.size)

/-- The leaf of an address in a context: from the TLBs, else by a walk (spec/20 R333). -/
def findLeaf (s : State) (c x : Nat) (desc : BitVec 512) (va : Nat) : Option TlbEntry :=
  match tlbHit (getCore s c).tlb x va with
  | some e => some e
  | none =>
    match tlbHit (getCluster s (clusterOfCore c)).tlb x va with
    | some e => some e
    | none =>
      match walkTable s va 5 (trootOf desc) with
      | some (e, size) => some ⟨x, va / size * size, size, BitVec.ofNat 64 e⟩
      | none => none

/-- The location of an address for an access, and its leaf entry; none where translation fails (spec/20 R330-R332). -/
def translate (s : State) (c x : Nat) (desc : BitVec 512) (va : Nat) (k : AccKind) : Option (Nat × TlbEntry) :=
  if 2 ^ 57 ≤ va then none
  else
    match findLeaf s c x desc va with
    | none => none
    | some e =>
      let loc := leafLoc s e.leaf.toNat e.size va
      if permits k e.leaf.toNat && backed (loc % 2 ^ 52) then some (loc, e) else none

/-- Keep a translation in the TLBs (spec/20 R333). -/
def keepTlb (s : State) (c : Nat) (e : TlbEntry) : State :=
  let s := if (tlbHit (getCore s c).tlb e.ctx e.base).isSome then s
    else modCore s c fun y => { y with tlb := e :: y.tlb }
  if (tlbHit (getCluster s (clusterOfCore c)).tlb e.ctx e.base).isSome then s
  else modCluster s (clusterOfCore c) fun y => { y with tlb := e :: y.tlb }

/-! ### The core pool and its register blocks (spec/01 R20, R21) -/

/-- A 64-bit word of a register block, at a multiple of 8. -/
def regWord (s : State) (k off : Nat) : Nat :=
  let x := getStrand s k
  if off < 0x100 then (getS x (BitVec.ofNat 5 (off / 8))).toNat
  else if off < 0x140 then (getK x (BitVec.ofNat 3 (off / 8 % 8))).toNat
  else if off < 0x148 then guardByte x
  else if off < 0x150 then
    getD x 0 + getD x 1 * 2 ^ 6 + getD x 2 * 2 ^ 12 + getD x 3 * 2 ^ 18 + getD x 4 * 2 ^ 24 + getD x 5 * 2 ^ 30
  else if off < 0x190 then (getTile x ((off - 0x150) / 8)).toNat
  else if off < 0x400 then 0
  else if off < 0xC00 then bits (getV x (BitVec.ofNat 5 ((off - 0x400) / 64))).toNat (64 * (off / 8 % 8)) 64
  else 0

/-- Write all six counters from a word. -/
def putCounters (x : Strand) (w : Nat) : Strand :=
  (upFrom 0 6).foldl (fun x i => setD x i (bits w (6 * i) 6)) x

/-- Write a 64-bit word of a register block as a pool store does at task or system level (spec/01 R20). -/
def putRegWord (x : Strand) (off w : Nat) (sys : Bool) : Strand :=
  if off < 0x100 then setS x (BitVec.ofNat 5 (off / 8)) (BitVec.ofNat 64 w)
  else if off < 0x140 then setK x (BitVec.ofNat 3 (off / 8 % 8)) (BitVec.ofNat 64 w)
  else if off < 0x148 then { x with g := BitVec.ofNat 7 w }
  else if off < 0x150 then (if sys then putCounters x w else x)
  else if off < 0x190 then (if sys then setTile x ((off - 0x150) / 8) (BitVec.ofNat 18 w) else x)
  else if off < 0x400 then x
  else if off < 0xC00 then
    let r : VReg := BitVec.ofNat 5 ((off - 0x400) / 64)
    setV x r (BitVec.ofNat 512 (setBits (getV x r).toNat (64 * (off / 8 % 8)) 64 w))
  else x

/-- Does a pool offset name a register of the bank v16 to v31 (spec/01 R21, R25)? -/
def bankOffset (off : Nat) : Bool :=
  decide (off < 0x4000) && decide (0x800 ≤ off % 0x1000) && decide (off % 0x1000 < 0xC00)

/-- Number of the vector register at a pool offset. -/
def bankReg (off : Nat) : Nat := (off % 0x1000 - 0x400) / 64

/-- A load of `n` bytes, within an aligned 8-byte quantity, from a core's pool (spec/01 R12, R20). -/
def poolRead (s : State) (c off n : Nat) : Nat :=
  if off < 0x4000 then
    if off / 0x1000 < liveCount (getCore s c) then
      bits (regWord s (4 * c + off / 0x1000) (off % 0x1000 / 8 * 8)) (8 * (off % 8)) (8 * n)
    else 0
  else readLE (getCore s c).pool off n

/-- A store of `n` bytes, within an aligned 8-byte quantity, to a core's pool. -/
def poolWrite (s : State) (c off n v : Nat) (sys : Bool) : State :=
  if off < 0x4000 then
    if off / 0x1000 < liveCount (getCore s c) then
      let k := 4 * c + off / 0x1000
      let o := off % 0x1000 / 8 * 8
      let w := setBits (regWord s k o) (8 * (off % 8)) (8 * n) v
      modStrand s k fun x => putRegWord x o w sys
    else s
  else modCore s c fun y => { y with pool := writeLE y.pool off n v }

/-- Does a pool offset of a core name a bank register of one of its live strands (spec/01 R12, R25)? -/
def bankAt (s : State) (c off : Nat) : Bool := bankOffset off && decide (off / 0x1000 < liveCount (getCore s c))

/-- Is the bank of a core in retention: asleep, or within the 12 cycles in which it wakes (spec/01 R25)? -/
def bankSleeps (s : State) (c : Nat) : Bool :=
  (getCore s c).vstate == 1 && ((getCore s c).vidle == 0 || decide (s.cycle < (getCore s c).vidle))

/-- The bank of a core begins to wake, where an access waits for it. -/
def wakeBank (s : State) (b : Option Nat) : State :=
  match b with
  | some c => modCore s c fun y => { y with vidle := if y.vidle = 0 then s.cycle + 12 else y.vidle }
  | none => s

/-- A use of the bank by a core restarts its idle count and wakes it (spec/01 R25). -/
def touchBank (s : State) (c : Nat) : State :=
  modCore s c fun y => { y with vidle := s.cycle, vstate := if y.vmode = 2 then 2 else 0 }

/-! ### Trap entry and return (spec/09 R227, R228) -/

/-- Trap entry on a strand: cause word, trap value and return address. The strand's table-unit requests have completed. -/
def enterTrap (s : State) (k : Nat) (cause : Word) (tv epc : Word) : State :=
  let s := modStrand s k fun x =>
    let st := setBits x.status.toNat 4 1 (bnat (stIE x))
    let st := setBits st 3 1 (bnat (stPriv x))
    let st := setBits st 2 1 0
    let st := setBits st 0 1 1
    { x with
      cause := cause, epc := epc, tval := tv, status := BitVec.ofNat 64 st, shadow := x.loops, loops := [],
      rbuf := [], rbufOver := false, rbufOk := false, entered := true, pc := x.tvec &&& ~~~ 3#64, wait := none, long := none }
  emitStrand s k 0x10 [epc.toNat, tv.toNat % 2 ^ 63, cause.toNat % 256 + 256 * (cause.toNat / 2 ^ 63)
    + 512 * (tv.toNat / 2 ^ 63)]

/-- Return from a trap: the program counter, privilege, interrupt enable and loop stack as trap entry left them. -/
def leaveTrap (s : State) (k : Nat) : State :=
  let s := modStrand s k fun x =>
    let st := setBits x.status.toNat 0 1 (bnat (stPPriv x))
    let st := setBits st 2 1 (bnat (stPIE x))
    { x with status := BitVec.ofNat 64 st, pc := x.epc &&& ~~~ 3#64, loops := x.shadow, rbuf := [], rbufOver := false, rbufOk := false }
  emitStrand s k 0x11 [(getStrand s k).pc.toNat]

end Sys2Proof.Machine
end

