-- ==== Sys2Proof/Machine/Operands.lean ====
section
/-!
DEFINITION. Operand forms: the vector registers and tiles an instruction names, stagger, lanes and lane masks, and scalar
immediates (spec/04 R76, spec/05 R110, spec/07 R138).
-/
namespace Sys2Proof.Machine

/-- The v-class register fields of an instruction, lowest bit first, and those of class a (spec/04 R76). -/
def vecRegs : Instr → List VReg
  | .ldv _ _ _ _ _ d _ _ => [d]
  | .stv _ _ _ _ d _ _ => [d]
  | .ldg _ _ d _ b _ _ => [d, b]
  | .stg _ _ d _ b _ _ => [d, b]
  | .vadd _ _ _ _ _ d a b | .vsub _ _ _ _ _ d a b | .vmul _ _ _ _ _ d a b => [d, a, b]
  | .vmad _ _ _ _ _ d a b e => [d, a, b, e]
  | .vmin _ _ _ _ d a b | .vmax _ _ _ _ d a b => [d, a, b]
  | .vabs _ _ _ _ _ d a | .vneg _ _ _ _ _ d a => [d, a]
  | .vand _ _ _ _ d a b | .vor _ _ _ _ d a b | .vxor _ _ _ _ d a b => [d, a, b]
  | .vshl _ _ _ _ d a b | .vshr _ _ _ _ d a b | .vsra _ _ _ _ d a b => [d, a, b]
  | .vcmp _ _ _ _ _ a b _ => [a, b]
  | .vsel _ _ _ d a b => [d, a, b]
  | .vcvt _ _ _ _ _ _ d a => [d, a]
  | .vpack _ s _ _ _ d a b _ => if s.width = 32 then [d, a, b] else [d, a]
  | .vunpack _ _ _ _ _ _ d a _ => [d, a]
  | .vredsum _ _ _ _ _ a => [a]
  | .vredmax _ _ _ _ a _ | .vredmin _ _ _ _ a _ => [a]
  | .vperm _ t2 _ _ _ d a b e => if t2 then [d, a, b, e] else [d, a, b]
  | .vbcast _ (.lane a _) _ _ _ d => [d, a]
  | .vbcast _ (.reg _) _ _ _ d | .vbcast _ (.imm _) _ _ _ d => [d]
  | .vslide _ _ _ _ _ d a b _ => [d, a, b]
  | .vext _ _ _ a _ => [a]
  | .vins _ _ d _ _ => [d]
  | .vdist _ _ _ _ _ _ _ d a b => [d, a, b]
  | .vtab _ _ _ _ _ d a => [d, a]
  | .send _ _ _ b _ => [b]
  | .recv _ d _ _ _ => [d]
  | .tkpush _ a b _ _ => [a, b]
  | .jcont _ _ _ b _ => [b]
  | _ => []

/-- The scalar registers that an instruction reads or writes, by its fields or by its meaning (spec/04 R76, spec/09 R215, R216). -/
def scaRegs : Instr → List SReg
  | .add _ d a b | .sub _ d a b | .mul _ d a b | .mulh _ d a b | .mulhz _ d a b | .div _ d a b | .divz _ d a b | .rem _ d a b
  | .remz _ d a b | .divT _ _ d a b | .addx _ _ _ d a b | .and _ d a b | .or _ d a b | .xor _ d a b | .shl _ d a b | .shr _ d a b
  | .sra _ d a b | .min _ d a b | .max _ d a b | .minz _ d a b | .maxz _ d a b | .sel _ d a b .. | .fadd _ d a b | .fsub _ d a b
  | .fmul _ d a b | .fmin _ d a b | .fmax _ d a b | .pref _ d a b _ | .vstrm _ _ _ _ _ _ d a b | .walk _ d a b ..
  | .amo _ _ _ _ _ _ d a b | .bind _ d a b | .unbind _ d a b | .tkdrain _ d a b _ | .tkdrainCl _ d a b _ => [d, a, b]
  | .clz _ d a | .ctz _ d a | .popc _ d a | .bswap _ _ d a | .sext _ _ d a | .zext _ _ d a | .mov _ (.ss d a) | .cmp _ _ _ d a _
  | .addi _ d a _ | .andi _ d a _ | .ori _ d a _ | .xori _ d a _ | .shli _ d a _ | .shri _ d a _ | .srai _ d a _
  | .fcmp _ _ _ d a _ | .fcvt _ _ _ d a | .jr _ d a | .ld _ _ _ d a _ | .st _ _ _ d a _ | .wb _ d a | .inv _ d a | .icinv _ _ d a
  | .vpack _ _ _ _ d _ _ _ a | .vredmax _ _ _ d _ a | .vredmin _ _ _ d _ a | .vext _ _ d _ a | .vins _ _ _ d a | .mmaG _ _ d a ..
  | .evwait _ d a | .evwaitPk _ d a | .evsig _ d a | .evsigClr _ d a | .bar _ _ d a | .rdrem _ d a .. | .copy _ d a _
  | .tkopen _ _ d a | .tabld _ d a .. | .jenter _ d a | .jwait _ d a .. | .trace _ _ d a | .tlbinvAll _ d a | .tlbinvPg _ d a => [d, a]
  | .mov _ (.ks _ a) | .pmov _ (.gs a) | .loop _ (.s a) _ _ _ | .vbcast _ (.reg a) .. => [a]
  | .mov _ (.sk d _) | .cmpi _ _ _ d .. | .li _ (.s d) _ | .pmov _ (.sg d) | .jmp _ d _ | .jal _ d _ | .ldv _ _ _ _ _ _ d _
  | .stv _ _ _ _ _ d _ | .vunpack _ _ _ _ _ _ _ _ d | .vredsum _ _ _ _ d _ | .vslide _ _ _ _ _ _ _ _ d | .wld _ d ..
  | .mma _ _ d .. | .accrd _ _ _ _ d .. | .accexpRd _ d _ | .accexpAl _ _ d | .acq _ d | .acqV _ d | .rel _ d | .relV _ d
  | .send _ _ d .. | .recv _ _ _ d _ | .waitseq _ _ d | .tkpush _ _ _ _ d | .tspawn _ d | .tdep _ d _ | .jopen _ d
  | .jcont _ _ d .. | .jclose _ d | .jcloseF _ d | .mfc _ d _ | .mtc _ d _ | .slotwMat _ d | .slotwCpy _ d | .slotwTku _ d => [d]
  | .ffma _ d a b e | .walki _ d a b e .. | .cas _ _ _ _ d a b e => [d, a, b, e]
  | .ldg _ _ _ a _ b x => if x.fill then [a, b, x.fr] else [a, b]
  | .stg _ _ _ a _ b _ => [a, b]
  | .tdone _ | .tdoneR _ => [3, 4]
  | .tcard .. => [3, 5]
  | _ => []

/-- The accumulator tiles an instruction names. -/
def tileRegs : Instr → List AReg
  | .mma _ d _ _ _ _ _ => [d]
  | .mmaG _ d _ _ _ _ _ _ _ _ _ _ => [d]
  | .accz _ d => [d]
  | .accrd _ _ _ a _ _ _ _ => [a]
  | .accexpRd _ _ a => [a]
  | .accexpAl _ d _ => [d]
  | _ => []

/-- Does an instruction name a register of the bank v16 to v31 (spec/01 R25)? -/
def namesBank (i : Instr) : Bool := (vecRegs i).any fun r => 16 ≤ r.toNat

/-- An instruction with every v-class register field replaced (spec/05 R110). -/
def mapVec (f : VReg → VReg) (i : Instr) : Instr :=
  match i with
  | .ldv c m t s k d a o => .ldv c m t s k (f d) a o
  | .stv c t s k d a o => .stv c t s k (f d) a o
  | .ldg c t d a b e x => .ldg c t (f d) a (f b) e x
  | .stg c t d a b e x => .stg c t (f d) a (f b) e x
  | .vadd c t z s k d a b => .vadd c t z s k (f d) (f a) (f b)
  | .vsub c t z s k d a b => .vsub c t z s k (f d) (f a) (f b)
  | .vmul c t z s k d a b => .vmul c t z s k (f d) (f a) (f b)
  | .vmad c t z s k d a b e => .vmad c t z s k (f d) (f a) (f b) (f e)
  | .vmin c t z k d a b => .vmin c t z k (f d) (f a) (f b)
  | .vmax c t z k d a b => .vmax c t z k (f d) (f a) (f b)
  | .vabs c t z s k d a => .vabs c t z s k (f d) (f a)
  | .vneg c t z s k d a => .vneg c t z s k (f d) (f a)
  | .vand c t z k d a b => .vand c t z k (f d) (f a) (f b)
  | .vor c t z k d a b => .vor c t z k (f d) (f a) (f b)
  | .vxor c t z k d a b => .vxor c t z k (f d) (f a) (f b)
  | .vshl c t z k d a b => .vshl c t z k (f d) (f a) (f b)
  | .vshr c t z k d a b => .vshr c t z k (f d) (f a) (f b)
  | .vsra c t z k d a b => .vsra c t z k (f d) (f a) (f b)
  | .vcmp c q t k d a b x => .vcmp c q t k d (f a) (f b) x
  | .vsel c t k d a b => .vsel c t k (f d) (f a) (f b)
  | .vcvt c s t z h k d a => .vcvt c s t z h k (f d) (f a)
  | .vpack c s m k es d a b e => .vpack c s m k es (f d) (f a) (if s.width = 32 then f b else b) e
  | .vunpack c t m z h k d a e => .vunpack c t m z h k (f d) (f a) e
  | .vredsum c t s k d a => .vredsum c t s k d (f a)
  | .vredmax c t k d a e => .vredmax c t k d (f a) e
  | .vredmin c t k d a e => .vredmin c t k d (f a) e
  | .vperm c t2 t z k d a b e => .vperm c t2 t z k (f d) (f a) (f b) (if t2 then f e else e)
  | .vbcast c (.lane a l) t z k d => .vbcast c (.lane (f a) l) t z k (f d)
  | .vbcast c (.reg a) t z k d => .vbcast c (.reg a) t z k (f d)
  | .vbcast c (.imm v) t z k d => .vbcast c (.imm v) t z k (f d)
  | .vslide c u t z k d a b e => .vslide c u t z k (f d) (f a) (f b) e
  | .vext c t d a b => .vext c t d (f a) b
  | .vins c t d a b => .vins c t (f d) a b
  | .vdist c g t x n k o d a b => .vdist c g t x n k o (f d) (f a) (f b)
  | .vtab c t z k tb d a => .vtab c t z k tb (f d) (f a)
  | .send c d a b o => .send c d a (f b) o
  | .recv c d a b o => .recv c (f d) a b o
  | .tkpush c a b k e => .tkpush c (f a) (f b) k e
  | .jcont c s a b k => .jcont c s a (f b) k
  | i => i

/-- A register number rotated within its window (spec/05 R110). -/
def staggerReg (e : LoopEntry) (r : VReg) : VReg :=
  let w := 2 ^ (e.smod.toNat + 1)
  BitVec.ofNat 5 (r.toNat - r.toNat % w + (r.toNat % w + e.pass * e.stg.toNat) % w)

/-- The instruction at an address as the top of the loop stack staggers it (spec/05 R110). -/
def stagger (x : Strand) (pc : Word) (i : Instr) : Instr :=
  match x.loops with
  | e :: _ =>
      if e.stg != 0 && decide (e.top.toNat ≤ pc.toNat) && decide (pc.toNat < e.stop.toNat)
      then mapVec (staggerReg e) i else i
  | [] => i

/-! ### Lanes (spec/07 R138) -/

/-- Lane `j` of a register viewed at width `w`. -/
def lane (v : Vec) (w j : Nat) : Nat := bits v.toNat (w * j) w


/-- A number made of consecutive fields of one width, lowest first. -/
def packFields (w : Nat) : List Nat → Nat
  | [] => 0
  | x :: xs => x % 2 ^ w + 2 ^ w * packFields w xs

/-- A register made of lanes; missing lanes are zero. -/
def ofLanes (w : Nat) (l : List Nat) : Vec := BitVec.ofNat 512 (packFields w l)

/-- One lane replaced. -/
def setLane (v : Vec) (w j x : Nat) : Vec := BitVec.ofNat 512 (setBits v.toNat (w * j) w x)

/-- Is a lane enabled (spec/07 R138)? -/
def laneOn (m : Word) (t : Ty) (j : Nat) : Bool := m.getLsbD (if t = .bit then j / 8 else j)

/-- Every enabled lane takes the value given for it; a disabled lane keeps its value or becomes zero (spec/07 R138). -/
def mapLanes (t : Ty) (m : Word) (mz : Bool) (old : Vec) (f : Nat → Nat) : Vec :=
  ofLanes t.width ((upFrom 0 t.lanes).map fun j =>
    if laneOn m t j then f j else if mz then 0 else lane old t.width j)

/-- An element extended or placed in a scalar register as a load does (spec/06 R124). -/
def extend (t : Ty) (b : Nat) : Word :=
  if t.isInt then BitVec.ofInt 64 (intOf t b) else BitVec.ofNat 64 b

/-- An integer result reduced to a lane (spec/07 R140). -/
def reduceInt (t : Ty) (sat : Bool) (n : Int) : Nat :=
  bitsOfInt t.width (if sat then clampI (Ty.lo t) (Ty.hi t) n else n)

/-- The enabled lanes of a register by number. -/
def onLanes (t : Ty) (m : Word) : List Nat := (upFrom 0 t.lanes).filter (laneOn m t)

/-- A mask register from one truth value for each lane; bits from the lane count up are zero. -/
def maskOf (n : Nat) (f : Nat → Bool) : Word :=
  BitVec.ofNat 64 (packFields 1 ((upFrom 0 n).map fun j => bnat (f j)))

/-- A 32-bit immediate extended to a word. -/
def immWord (i : BitVec 32) : Word := i.signExtend 64

/-- A type's shift of a byte count: the operand size in bytes. -/
def elemBytes (t : Ty) : Nat := t.width / 8

end Sys2Proof.Machine
end

