-- ==== Sys2Proof/Machine/Flags.lean ====
section
/-!
DEFINITION. Conditions and the predicates they are written to (spec/05 R93, R94, R100, spec/07 R145).
-/
namespace Sys2Proof.Machine

/-- The condition of CMP and CMPI (spec/05 R93). -/
def condHolds (c : Cond) (a b : Word) : Bool :=
  match c with
  | .eq => a == b
  | .ne => a != b
  | .lt => a.slt b
  | .ge => b.sle a
  | .le => a.sle b
  | .gt => b.slt a
  | .ltz => a.ult b
  | .gez => b.ule a
  | .lez => a.ule b
  | .gtz => b.ult a
  | .any => a &&& b != 0
  | .none => a &&& b == 0

/-- The condition of FCMP on two FP32 encodings (spec/05 R100). -/
def fcondHolds (c : FCond) (a b : Nat) : Bool :=
  match c with
  | .eq => eqF fmtF32 a b
  | .lt => ltF fmtF32 a b
  | .le => ltF fmtF32 a b || eqF fmtF32 a b
  | .un => isNan fmtF32 a || isNan fmtF32 b

/-- The condition of VCMP on two lanes (spec/07 R145). -/
def vcondHolds (c : VCond) (t : Ty) (a b : Nat) : Bool :=
  if t.isFloat then
    let f := fmtOf t
    match c with
    | .eq => eqF f a b
    | .ne => !eqF f a b
    | .lt => ltF f a b
    | .ge => ltF f b a || eqF f a b
    | .le => ltF f a b || eqF f a b
    | .gt => ltF f b a
    | .un => isNan f a || isNan f b
  else
    let x := intOf t a
    let y := intOf t b
    match c with
    | .eq => x == y
    | .ne => x != y
    | .lt => decide (x < y)
    | .ge => decide (y ≤ x)
    | .le => decide (x ≤ y)
    | .gt => decide (y < x)
    | .un => false

/-- A compare's two predicates in one step; the first wins where they are the same (spec/05 R94). -/
def putPreds (x : Strand) (pt pf : GReg) (cond : Bool) : Strand := setG (setG x pf (!cond)) pt cond

end Sys2Proof.Machine
end

