-- ==== Sys2Proof/Machine/Queues.lean ====
section
/-!
DEFINITION. The queues of the event unit and of locks, and how a strand leaves a wait or a long instruction (spec/09 R202-R206, R215, R226;
spec/14 R284; spec/03 R54; spec/04 R74).
-/
namespace Sys2Proof.Machine

def getEv (s : State) (cl l : Nat) : EvLine := mget EvLine.reset (getCluster s cl).ev l
def setEv (s : State) (cl l : Nat) (e : EvLine) : State := modCluster s cl fun c => { c with ev := mput c.ev l e }

def getMutex (s : State) (cl i : Nat) : Mutex := mget Mutex.reset (getCluster s cl).mutex i
def setMutex (s : State) (cl i : Nat) (m : Mutex) : State := modCluster s cl fun c => { c with mutex := mput c.mutex i m }

def lockQueue (s : State) (key : Nat) : List Word := mget [] s.lockQ key
def setLockQueue (s : State) (key : Nat) (q : List Word) : State := { s with lockQ := mset [] s.lockQ key q }

def getBarc (s : State) (cl i : Nat) : BarCounter := mget BarCounter.reset (getCluster s cl).barc i
def setBarc (s : State) (cl i : Nat) (b : BarCounter) : State := modCluster s cl fun c => { c with barc := mput c.barc i b }

/-- Does a request to another device count for the drain probe: a message or an `RDREM` (spec/20 R337)? -/
def countsOut (i : Instr) : Bool :=
  match i with
  | .send .. | .rdrem .. => true
  | _ => false

/-- A core's strands have sent one more, or one fewer where a request is taken back. -/
def countOut (s : State) (c : Nat) : State := modCore s c fun y => { y with outc := (y.outc + 1) % 2 ^ 64 }
def uncountOut (s : State) (c : Nat) : State := modCore s c fun y => { y with outc := (y.outc + (2 ^ 64 - 1)) % 2 ^ 64 }

/-- Something is performed at a core as its destination. -/
def countIn (s : State) (c : Nat) : State := modCore s c fun y => { y with inc := (y.inc + 1) % 2 ^ 64, recvFlag := true }

/-- The request of a strand's wait is taken back: it is counted no longer. -/
def takeBack (s : State) (k : Nat) (w : Wait) : State := if countsOut w.i then uncountOut s (coreOf k) else s

/-- A strand leaves the queue of what it waits for; an arrival at a barrier stays. -/
def leaveQueue (s : State) (k : Nat) (w : Wait) : State :=
  match w.what with
  | .event cl l _ =>
      let e := getEv s cl l
      setEv s cl l { e with q := e.q.filter fun p => p.1 != k }
  | .mutex cl i =>
      let m := getMutex s cl i
      setMutex s cl i { m with q := m.q.filter (· != addrOfStrand s k) }
  | .lock key => setLockQueue s key ((lockQueue s key).filter (· != addrOfStrand s k))
  | .away dev => if w.served.isNone then sendMsg (takeBack s k w) dev 0 [5, (addrOfStrand s k).toNat, w.arg.toNat] else s
  | _ => s

/-- Did the waiting instruction issue, so that its SET counter counts it? -/
def hasIssued (w : WaitFor) : Bool :=
  match w with
  | .spawn | .jopen => false
  | _ => true

/-- Offsets and lengths in its strand's register block of the destination registers of an instruction that waits after its issue (spec/01 R20, R21). -/
def waitDests : Instr → List (Nat × Nat)
  | .evwait _ d _ | .evwaitPk _ d _ => [(8 * d.toNat, 8)]
  | .send _ .. => [(0x140, 8)]
  | .recv _ d _ b _ => [(0x400 + 64 * d.toNat, 64), (0x140, 8), (8 * b.toNat, 8)]
  | .rdrem _ d .. => [(8 * d.toNat, 8), (0x140, 8)]
  | .jwait _ d .. => [(8 * d.toNat, 8), (0x140, 8)]
  | _ => []

/-- Do two ranges of bytes meet? -/
def overlaps (a n b m : Nat) : Bool := decide (a < b + m) && decide (b < a + n)

/-- Is an instruction of issue number `n` earlier in its core's issue order than an access; `no` is the number of the long instruction that makes
the access, none for any other (spec/01 R13)? -/
def earlier (no : Option Nat) (n : Nat) : Bool :=
  match no with
  | some m => decide (n < m)
  | none => true

/-- Offset and length of the destination of a load in its strand's register block. -/
def PendLoad.place (p : PendLoad) : Nat × Nat := if p.vec then (0x400 + 64 * p.dst, 64) else (8 * p.dst, 8)

/-- Has an earlier instruction still to write the register that an access reaches: one that waits after its issue (spec/01 R21), a load, or a request of the
table unit (spec/07 R162)? -/
def poolPending (s : State) (c off n : Nat) (no : Option Nat) : Bool :=
  decide (off < 0x4000) &&
  (let x := getStrand s (4 * c + off / 0x1000)
   (x.vtabQ.any fun q => earlier no q.order && overlaps (off % 0x1000) n (0x400 + 64 * q.dst.toNat) 64) ||
   (x.inflight.any fun f => f.load.any fun p => earlier no p.no && overlaps (off % 0x1000) n p.place.1 p.place.2) ||
   (match x.wait with
    | some w => hasIssued w.what && earlier no w.no && ((waitDests w.i).any fun p => overlaps (off % 0x1000) n p.1 p.2)
    | none => false))

/-- Has a strand a merged atomic on its way? -/
def hasReduction (s : State) (k : Nat) : Bool := s.reductions.any fun x => x.owners.any fun o => o.strand == k

/-- Is a location homed on the host or on another device (spec/06 R126, spec/20 R317)? -/
def behindPort (key : Nat) : Bool := decide (0x8000000000000 ≤ key)

/-- May a strand's command be handed to its engine: its merged atomics have been performed, and its stores to homes behind a port have been accepted there; those of its core's
other dirty lines the hand-over itself lands (spec/09 R208)? -/
def handReady (s : State) (k : Nat) : Bool :=
  !hasReduction s k && !((getStrand s k).inflight.any fun f => f.lines.any fun l => behindPort (l * 128))

/-- Has every earlier access of a strand landed (spec/09 R200)? -/
def allLanded (s : State) (k : Nat) : Bool := (getStrand s k).inflight.isEmpty && !hasReduction s k

/-- Withdraw the SET increment of an instruction (spec/04 R74). -/
def unset (x : Strand) (i : Instr) : Strand :=
  match i.common with
  | some c => if c.set = 7 then x else setD x c.set.toNat (getD x c.set.toNat - 1)
  | none => x

/-- An interrupt or the quiesce abandons a wait with no effect. -/
def abandonWait (s : State) (k : Nat) : State :=
  match (getStrand s k).wait with
  | some w =>
      modStrand (leaveQueue s k w) k fun x => { (if hasIssued w.what then unset x w.i else x) with wait := none }
  | none => s

def freeBuf (b : LatchBuf) (k : Nat) : LatchBuf := { b with holders := b.holders.filter (· != k) }

/-- A strand releases its hold on the weight latch (spec/03 R54). -/
def releaseLatch (s : State) (k : Nat) : State :=
  modCore s (coreOf k) fun y => { y with latch0 := freeBuf y.latch0 k, latch1 := freeBuf y.latch1 k }

/-- Both buffers lose their tiles for later `MMA`s (spec/03 R54). -/
def invalidateLatch (s : State) (c : Nat) : State :=
  modCore s c fun y => { y with latch0 := { y.latch0 with valid := false }, latch1 := { y.latch1 with valid := false } }

/-- Does an instruction stream its weights through the latch? -/
def streamsWeights (i : Instr) : Bool :=
  match i with
  | .mmaG .. | .walki .. | .walk .. => true
  | _ => false

/-- A `WLD` that does not latch its tile leaves its buffer without one (spec/08 R173). -/
def dropFill (s : State) (k : Nat) : State :=
  let off (b : LatchBuf) : LatchBuf := if b.filling = some k then { LatchBuf.empty with holders := b.holders } else b
  modCore s (coreOf k) fun y => { y with latch0 := off y.latch0, latch1 := off y.latch1 }

/-- A long instruction is left at a boundary: its SET increment is withdrawn and its progress word stays (spec/04 R74, spec/03 R54). -/
def leaveLong (s : State) (k : Nat) : State :=
  match (getStrand s k).long with
  | none => s
  | some l =>
      let s := dropFill (if streamsWeights l.i then invalidateLatch s (coreOf k) else s) k
      modStrand s k fun x => { unset x l.i with long := none }

end Sys2Proof.Machine
end

