-- ==== Sys2Proof/Machine/Rings.lean ====
section
/-!
DEFINITION. Trace rings: reservation of a record with its FILL and GAP records, lossy and lossless producers, and stall time (spec/21 R347-R353,
spec/15 R299).
-/
namespace Sys2Proof.Machine

/-! ### Reservation (spec/21 R349) -/

def getRing (s : State) (t : Nat) : Ring := mget Ring.reset s.rings t
def setRing (s : State) (t : Nat) (r : Ring) : State := { s with rings := mput s.rings t r }

/-- Words of a ring. -/
def ringCap (r : Ring) : Nat := 2 ^ (bits r.cfg.toNat 0 5 - 3)

/-- FILL records over `n` words; the fuel counts records. -/
def fillWords (t : Nat) : Nat → Nat → List Word
  | 0, _ => []
  | f + 1, n =>
    if n = 0 then []
    else
      let m := min n 8
      BitVec.ofNat 64 (2 ^ 63 + (m - 1) * 2 ^ 60 + t * 2 ^ 48) :: (List.replicate (m - 1) 0 ++ fillWords t f (n - m))

/-- The GAP record that precedes a record: its stamp, DIE, SRC, SEQ, CLAMP and LL, and the number of drops (spec/21 R350). -/
def gapWords (ws : List Word) (drops : Nat) : List Word :=
  let h := (ws.headD 0).toNat
  [BitVec.ofNat 64 (setBits (setBits h 60 3 2) 52 8 1), ws.getD 1 0, BitVec.ofNat 64 drops]

/-- Words written to a ring from its word `w` on. -/
def writeRing (base cap : Nat) : List Word → Nat → State → State
  | [], _, s => s
  | v :: r, w, s => writeRing base cap r (w + 1) (homeWrite s (base + 8 * (w % cap)) 8 v.toNat)

/-- Line 1 of the strand that a ring names, when its level rises to the watermark (spec/21 R351). -/
def watermark (s : State) (r : Ring) (before after : Nat) : State :=
  let m := bits r.cfg.toNat 8 24 * 16
  if m ≠ 0 ∧ before < m ∧ m ≤ after ∧ r.cfg.getLsbD 52 then pendIrq s (bits r.cfg.toNat 32 19) 1 else s

/-- The reservation of a block with the GAP and FILL records before it; none where there is no room. -/
def reserve (s : State) (t : Nat) (ws : List Word) : Option State :=
  let r := getRing s t
  let block := if r.drops = 0 then ws else gapWords ws r.drops ++ ws
  let cap := ringCap r
  let pos := r.wr % cap
  let fill := if pos + block.length ≤ cap then 0 else cap - pos
  let all := fillWords t fill fill ++ block
  if !ringOn r || decide (cap < r.wr + all.length - r.rd) then none
  else
    let s := writeRing r.base.toNat cap all r.wr s
    some (watermark (setRing s t { r with wr := r.wr + all.length, drops := 0 }) r (r.wr - r.rd) (r.wr + all.length - r.rd))

/-- A ring counts drops, holding at 0xFFFF_FFFF. -/
def countDrops (s : State) (t n : Nat) : State :=
  setRing s t { getRing s t with drops := min ((getRing s t).drops + n) (2 ^ 32 - 1) }

/-! ### Stalls (spec/21 R352, R353, spec/15 R299) -/

/-- Die of a record. -/
def dieOfRec (r : TraceRec) : Nat := bits (r.words.headD 0).toNat 46 2

/-- Are two records of one producer, for one ring and one context? -/
def sameProducer (q r : TraceRec) : Bool := q.ring == r.ring && q.src == r.src && q.ctx == r.ctx

/-- Of the held records of each producer that a test names, the last takes the time at which its stall began. -/
def markStalls (p : TraceRec → Bool) (t : TraceRec → Nat) : List TraceRec → List TraceRec
  | [] => []
  | r :: l =>
    (if r.held && p r && r.since.isNone && !(l.any fun q => q.held && sameProducer q r) then { r with since := some (t r) } else r) :: markStalls p t l

/-- A producer that held records hold back notes when that began: with the last of them, since its stall ends when that has been reserved. -/
def noteStall (s : State) (p : TraceRec → Bool) : State := { s with recs := markStalls p (fun r => dieTime s (dieOfRec r)) s.recs }

/-- A record is held, and takes over the beginning of its producer's stall. -/
def holdRec (s : State) (idx : Nat) (r : TraceRec) : State :=
  let since := (s.recs.find? fun q => q.held && sameProducer q r && q.since.isSome).bind TraceRec.since
  { s with recs := lset (s.recs.map fun q => if q.held && sameProducer q r then { q with since := none } else q) idx { r with held := true, since := since } }

/-- The part of a stall that a halt has taken so far (spec/21 R360): of a strand's since its counts stopped, of a copy engine's since its cluster halted. -/
def haltedUnits (s : State) (r : TraceRec) : Nat :=
  let span (c : Nat) : Nat := cycleUnits s.cycle - cycleUnits c
  match r.strand with
  | some k => match (getStrand s k).frozen with
    | some c => span c
    | none => 0
  | none =>
      let d := (getCluster s (r.src / 1024)).dm
      if r.src % 16 = 8 ∧ d.halted then span (d.haltedAt - 1) else 0

/-- How long a stall that began at a time has lasted. -/
def stallTime (s : State) (r : TraceRec) (start : Nat) : Nat := dieTime s (dieOfRec r) - start - haltedUnits s r

/-- The instance tracked at a location. -/
def instAt (s : State) (key : Nat) : Option JoinInst := s.joins.find? fun j => j.key == key

/-- The instance at which a party is registered as a participant. -/
def registeredAt (s : State) (key p : Nat) (who : Party) : Option JoinInst :=
  (instAt s key).bind fun j => if j.regs.any fun r => r.pid == p && r.who == who then some j else none

/-- How a kill names a command of a cluster's copy engine (spec/15 R306): by the TCB of its task, else by its strand's ticket. -/
def cmdParty (cl : Nat) (q : CopyCmd) : Party :=
  match q.task with
  | some key => .copy cl none key
  | none => .copy cl q.strand q.ticket

/-- Stall time of a participant on its way to the join at which it registered; where that is no longer tracked it is discarded. -/
def sendStall (s : State) (key p : Nat) (who : Party) (units : Nat) : State :=
  match registeredAt s key p who with
  | some j => { s with stalls := s.stalls ++ [⟨key, j.num, units⟩] }
  | none => s

/-- Location of the record in which a strand participates. -/
def slotLoc (s : State) (k : Nat) : Option Nat :=
  let x := getStrand s k
  if x.jslot.getLsbD 63 then
    (translate s (coreOf k) (stCtx x) (getCore s (coreOf k)).desc (bits x.jslot.toNat 8 49 * 256) .read).map Prod.fst
  else none

/-- The duration of an ended stall is credited: to the strand's participation, or to the registered commands of the engine's context. -/
def creditStall (s : State) (r : TraceRec) : State :=
  match r.since with
  | none => s
  | some t =>
      let d := stallTime s r t
      match r.strand with
      | some k =>
          match slotLoc s k with
          | some key => sendStall s key (bits (getStrand s k).jslot.toNat 57 6) (.strand (addrOfStrand s k) (stCtx (getStrand s k))) d
          | none => s
      | none =>
          if r.src % 16 = 8 then
            ((getCluster s (r.src / 1024)).copies.filter fun q => q.ctx == r.ctx && q.registered).foldl
              (fun s q => sendStall s q.addr.toNat (bits q.ccr.toNat 186 6) (cmdParty (r.src / 1024) q) d) s
          else s

/-- Discard the records held for a ring and release their producers. -/
def dropHeld (s : State) (t : Nat) : State :=
  let gone := s.recs.filter fun r => r.ring == t && r.held
  let s := gone.foldl creditStall { s with recs := s.recs.filter fun r => !(r.ring == t && r.held) }
  countDrops s t gone.length

/-- The STALL record of a producer that goes on (spec/21 R346, R352), stamped no lower than its record before (R342). -/
def stallRecord (s : State) (r : TraceRec) (start : Nat) : List Word × State :=
  let die := dieOfRec r
  let q := nextSeq s die
  let now := dieTime s die
  let stamp := max (max now (match r.strand with
    | some k => (getStrand s k).floor
    | none => 0)) (mget 0 s.srcStamp r.src)
  ([traceHeader 4 0x02 r.ring die r.src q.1 r.lossless (decide (now < stamp)), BitVec.ofNat 64 (stamp % 2 ^ 63),
    BitVec.ofNat 64 (start % 2 ^ 63), BitVec.ofNat 64 (stallTime s r start % 2 ^ 63)], { q.2 with srcStamp := mput q.2.srcStamp r.src stamp })

/-- A held record is tried again: with its STALL record where its producer, a strand or an engine, was held back. -/
def retryRec (s : State) (r : TraceRec) : Option State :=
  let rest := { s with recs := s.recs.erase r }
  match r.since with
  | none => reserve rest r.ring r.words
  | some t =>
      let q := stallRecord rest r t
      (reserve q.2 r.ring (r.words ++ q.1)).map fun s => creditStall s r

/-- Does a record of the same producer, ring and context stand before the one at an index? -/
def recBlocked (s : State) (idx : Nat) (r : TraceRec) : Bool := (s.recs.take idx).any fun q => sameProducer q r

/-- The held records of a ring are tried in order; the fuel counts them. -/
def retryAll (t : Nat) : Nat → State → State
  | 0, s => s
  | f + 1, s =>
    match s.recs.find? fun r => r.ring == t && r.held with
    | some r =>
        match retryRec s r with
        | some s => retryAll t f s
        | none => s
    | none => s

def retryRing (s : State) (t : Nat) : State := retryAll t s.recs.length s

/-- The reservation of a record that has been produced: written, dropped and counted, or held by its producer (spec/21 R350, R352). -/
def reserveRec (s : State) (idx : Nat) (r : TraceRec) : State :=
  match reserve { s with recs := ldel s.recs idx } r.ring r.words with
  | some s => s
  | none =>
      if r.lossless && ringOn (getRing s r.ring) then holdRec s idx r
      else countDrops { s with recs := ldel s.recs idx } r.ring 1

/-- The reservation of a record at its place in the list: behind a held one of its producer it is held too, behind another it waits. -/
def attemptRec (s : State) (idx : Nat) (r : TraceRec) : State :=
  if !recBlocked s idx r then reserveRec s idx r
  else if r.lossless && (s.recs.take idx).any (fun q => q.held && sameProducer q r) then holdRec s idx r
  else s

end Sys2Proof.Machine
end

