-- ==== Sys2Proof/Machine/Control.lean ====
section
/-!
DEFINITION. The device control space: the CCBs and the DCB as registers (spec/20 R317, R322, R324, R335, spec/21 R347, R357, R362,
spec/22 R365, R367, R377, R381, R384), and the operations that a write of one starts.
-/
namespace Sys2Proof.Machine

/-! ### Ranges of lines -/

/-- Physical runs (first location, bytes) of a virtual range in a context; untranslatable pages are passed over (spec/06
R132), and a basin-local page is a run for each 4 KiB of its stack (spec/20 R331). The fuel counts pages of 4 KiB. -/
def pageRuns (s : State) (c x : Nat) (desc : BitVec 512) : Nat → Nat → Nat → List (Nat × Nat)
  | 0, _, _ => []
  | f + 1, va, len =>
    if len = 0 ∨ 2 ^ 57 ≤ va then []
    else
      match findLeaf s c x desc va with
      | some e =>
          let n := min len (if e.leaf.getLsbD 6 then 4096 - va % 4096 else e.base + e.size - va)
          (leafLoc s e.leaf.toNat e.size va, n) :: pageRuns s c x desc f (va + n) (len - n)
      | none =>
          let n := min len (4096 - va % 4096)
          pageRuns s c x desc f (va + n) (len - n)

/-- The runs of [va, va + len). -/
def runsOf (s : State) (c x : Nat) (desc : BitVec 512) (va len : Nat) : List (Nat × Nat) :=
  pageRuns s c x desc (len / 4096 + 2) va len

/-- Does a block of `size` bytes at `a` meet one of the runs? -/
def inRuns (runs : List (Nat × Nat)) (a size : Nat) : Bool :=
  runs.any fun r => decide (a < r.1 + r.2) && decide (r.1 < a + size)

/-- Does a line meet one of the runs? -/
def lineInRuns (runs : List (Nat × Nat)) (line : Nat) : Bool := inRuns runs (line * 128) 128

/-- Drop the fetch windows of a core's instruction cache that meet the runs. -/
def dropIcache (s : State) (c : Nat) (runs : List (Nat × Nat)) : State :=
  modCore s c fun y => { y with icache := y.icache.filter fun w => !inRuns runs (w.1 * 32) 32 }

/-- Does a strand of context `x` hold in its repetition buffer a word of the range [va, va + n)? -/
def bufMeets (y : Strand) (x va n : Nat) : Bool :=
  stCtx y == x && y.rbuf.any fun w => decide (w.1 < va + n) && decide (va < w.1 + 4 + 4 * (w.2.1 % 4))

/-- Empty the repetition buffers that hold words of a range of a context (spec/05 R111, spec/06 R133). -/
def dropRbufs (s : State) (x va n : Nat) (ks : List Nat) : State :=
  foldUnits (fun s k => modStrand s k fun y => if bufMeets y x va n then { y with rbuf := [], rbufOver := false, rbufOk := false } else y) ks s

def allClusters : List Nat := upFrom 0 16

/-- The units a state lists, in ascending order. -/
def listedCores (s : State) : List Nat := s.cores.map Prod.fst
def listedStrands (s : State) : List Nat := s.strands.map Prod.fst
def listedClusters (s : State) : List Nat := s.clusters.map Prod.fst

/-- A strand of the device that a launch has started and nothing has stopped. -/
def isLive (x : Strand) : Bool := x.run == .running || x.run == .saved

/-- Is a strand live: one of those that the launch of its core has started, be it stopped by now (spec/01 R12)? -/
def liveStrand (s : State) (k : Nat) : Bool :=
  isLive (getStrand s k) || ((getCore s (coreOf k)).launch.isSome && decide (strandNo k < liveCount (getCore s (coreOf k))))

/-! ### Owner bytes (spec/20 R322) -/

def ownerByte (s : State) (cl off : Nat) : Nat := (byteAt (getCluster s cl).owners off).toNat
/-- The context that an owner byte grants to. -/
def grantee (b : Nat) : Option Nat := if bitOf b 7 then some (b % 16) else none

/-- The register files of a strand, which stand in its core's pool, zeroed (spec/01 R23). -/
def clearFiles (x : Strand) : Strand := { x with s := [], v := [], g := 0, k := [], d := [], tile := [] }

/-- A core passes to the owner its byte names, when no launch runs on it (spec/20 R322, spec/01 R23, spec/06 R120). -/
def applyOwner (s : State) (c : Nat) : State :=
  let want := grantee (ownerByte s (clusterOfCore c) (c % 64))
  let y := getCore s c
  if y.launch.isSome || y.owner == want then s
  else
    let s := setCore s c { y with owner := want, pool := [], pwin := [], tables := [], tlb := y.tlb.filter fun e => some e.ctx != y.owner }
    foldUnits (fun s k => modStrand s k clearFiles) ((listedStrands s).filter fun k => k / 4 == c) s

/-- A strand waiting on a resource whose grant is withdrawn (spec/14 R284). -/
def revokeWait (s : State) (k : Nat) : State :=
  modStrand s k fun x => { x with wait := x.wait.map fun w => { w with what := .revoked } }

/-- Does a device field with its RDEV bit name another device (spec/09 R195)? -/
def otherDev (s : State) (w : Word) (rdev lo : Nat) : Bool := w.getLsbD rdev && bits w.toNat lo 6 != s.devNo

/-- The answer to a request of another device's strand, none where it is refused (spec/20 R321). -/
def sendAnswer (s : State) (sender : Word) (v : Option Word) : State :=
  sendMsg s (bits sender.toNat 12 6) 1 (match v with
    | some w => [2, sender.toNat, 1, w.toNat]
    | none => [2, sender.toNat, 0])

/-- A requester of a mutex, of this device or of another, is turned away. -/
def revokeAddr (s : State) (a : Word) : State := if otherDev s a 18 12 then sendAnswer s a none else revokeWait s (a.toNat % 4096)

/-- Does a strand wait at a barrier counter? One that an interrupt took from its wait there does not. -/
def waitsAtBarc (s : State) (cl l k : Nat) : Bool := (getStrand s k).wait.any fun w => w.what == .barc cl l

/-- Reset an event-unit resource and turn its waiters away (spec/14 R284). -/
def resetResource (s : State) (cl off : Nat) : State :=
  if off < 0x80 then
    let l := off - 0x40
    let e := mget EvLine.reset (getCluster s cl).ev l
    let s := foldUnits revokeWait (e.q.map Prod.fst) s
    modCluster s cl fun c => { c with ev := mdel c.ev l }
  else if off < 0x90 then
    let l := off - 0x80
    let e := mget BarCounter.reset (getCluster s cl).barc l
    let s := foldUnits revokeWait (e.q.filter (waitsAtBarc s cl l)) s
    modCluster s cl fun c => { c with barc := mdel c.barc l }
  else
    let l := off - 0x90
    let e := mget Mutex.reset (getCluster s cl).mutex l
    let s := e.q.foldl revokeAddr s
    modCluster s cl fun c => { c with mutex := mdel c.mutex l }

/-- A store to an owner byte (spec/20 R322, spec/22 R381). -/
def writeOwner (s : State) (cl off : Nat) (v : Byte) : State :=
  let v := v &&& 0x8F#8
  if off < 0x40 ∧ (getCluster s cl).unav.getLsbD off then s
  else
    let old := ownerByte s cl off
    let s := modCluster s cl fun c => { c with owners := setByte c.owners off v }
    if off < 0x40 then applyOwner s (64 * cl + off)
    else if grantee old = grantee v.toNat then s
    else resetResource s cl off

/-! ### The debug module (spec/21 R357-R364) -/

/-- The tenants other than 0 of a cluster's live strands whose contexts are traced, each once, with a trace mode. -/
def clusterTenants (s : State) (cl : Nat) : List (Nat × Nat) :=
  ((listedStrands s).filter fun k => clusterOf k == cl && liveStrand s k).foldl
    (fun l k =>
      let t := (bits (getStrand s k).tenant.toNat 0 4, trcOf (getCore s (coreOf k)).desc)
      if t.1 = 0 ∨ (t.2 ≠ 1 ∧ t.2 ≠ 2) ∨ l.any (fun u => u.1 == t.1) then l else l ++ [t]) []

/-- A record for tenant 0 and the tenants of a cluster's strands, with one SEQ (spec/21 R346, R348). -/
def emitCluster (s : State) (cl cls : Nat) (payload : List Nat) : State :=
  let e : Emission := ⟨cls, srcDebug cl, dieOf cl, 0, payload, none, 0⟩
  let ts := (clusterTenants s cl).filter fun t => ringTakes s t.1 cls
  if ringTakes s 0 cls || !ts.isEmpty then
    let q := nextSeq s e.die
    let s := if ringTakes s 0 cls then emitTo q.2 e 0 q.1 false else q.2
    ts.foldl (fun s t => emitTo s e t.1 q.1 (t.2 == 2)) s
  else s

/-- A strand's counts of waiting stop (spec/21 R360). -/
def freeze (s : State) (k : Nat) : State := modStrand s k fun x => { x with frozen := x.frozen.or (some s.cycle) }

/-- They go on. -/
def thawCounts (s : State) (k : Nat) : State :=
  modStrand s k fun x =>
    match x.frozen with
    | some c => { x with frozen := none, wait := x.wait.map fun w => { w with paused := w.paused + (s.cycle - c) } }
    | none => x

/-- A halt accrues no stall time: the stall of a strand that goes on begins later by the time it was halted (spec/21 R360). -/
def shiftStall (s : State) (k : Nat) : State :=
  match (getStrand s k).frozen with
  | some c => { s with recs := s.recs.map fun r =>
      if r.strand = some k then { r with since := r.since.map (· + (cycleUnits s.cycle - cycleUnits c)) } else r }
  | none => s

/-- The stalls of a cluster's copy engine begin later by the time for which it was halted. -/
def shiftEngine (s : State) (cl u : Nat) : State :=
  { s with recs := s.recs.map fun r => if r.strand.isNone && r.src == srcCopy cl then { r with since := r.since.map (· + u) } else r }

def thaw (s : State) (k : Nat) : State := thawCounts (shiftStall s k) k

/-- The clock of a strand's counts. -/
def clockOf (s : State) (k : Nat) : Nat := ((getStrand s k).frozen).getD s.cycle

/-- The listed strands of a cluster. -/
def strandsIn (s : State) (cl : Nat) : List Nat := (listedStrands s).filter fun k => clusterOf k == cl

/-- A halt cause stops a cluster, also one that steps a strand (spec/21 R358; log 102). -/
def haltCluster (s : State) (cl cause strand : Nat) : State :=
  let d := (getCluster s cl).dm
  if d.halted && d.stepping.isNone then s
  else
    let s := modCluster s cl fun c => { c with dm := { c.dm with
      halted := true, haltedAt := if d.halted then d.haltedAt else s.cycle + 1, cause := cause, strand := strand, stepping := none } }
    let s := foldUnits freeze (strandsIn s cl) s
    let s := if (getCluster s cl).dm.ctl.getLsbD 4 && cause != 2 then { s with xtrig := s.xtrig ++ [cl] } else s
    emitCluster s cl 0x40 [cause + 256 * strand]

/-- RUNREQ (spec/21 R358). -/
def runCluster (s : State) (cl : Nat) : State :=
  let d := (getCluster s cl).dm
  if d.halted then
    let s := modCluster s cl fun c => { c with dm := { c.dm with halted := false, cause := 0, stepping := none } }
    let s := shiftEngine (foldUnits thaw (strandsIn s cl) s) cl (cycleUnits s.cycle - cycleUnits (d.haltedAt - 1))
    emitCluster s cl 0x41 []
  else s

/-- STEP (spec/21 R361). -/
def stepCluster (s : State) (cl : Nat) : State :=
  let d := (getCluster s cl).dm
  let k := 256 * cl + bits d.sel.toNat 0 8
  if d.halted && d.stepping.isNone then thaw (modCluster s cl fun c => { c with dm := { c.dm with stepping := some k } }) k else s

/-- The step of a strand ends: the cluster halts again with CAUSE 5 (spec/21 R361). -/
def endStep (s : State) (cl : Nat) : State :=
  match (getCluster s cl).dm.stepping with
  | some k =>
      let s := modCluster s cl fun c => { c with dm := { c.dm with stepping := none, cause := 5, strand := k % 256 } }
      let s := freeze s k
      let s := if (getCluster s cl).dm.ctl.getLsbD 4 then { s with xtrig := s.xtrig ++ [cl] } else s
      emitCluster s cl 0x40 [5 + 256 * (k % 256)]
  | none => s

/-- DMPC: the next pc of the selected strand while halted (spec/21 R357). -/
def readDmpc (s : State) (cl : Nat) : Nat :=
  let d := (getCluster s cl).dm
  if d.halted then (getStrand s (256 * cl + bits d.sel.toNat 0 8)).pc.toNat % 2 ^ 57 else 0

/-- A write of DMPC redirects the selected strand (spec/21 R357, R360); bits 1:0 of an instruction address are zero (spec/04 R70). -/
def writeDmpc (s : State) (cl : Nat) (v : Word) : State :=
  let d := (getCluster s cl).dm
  if d.halted then
    let k := 256 * cl + bits d.sel.toNat 0 8
    modStrand (leaveLong (abandonWait s k) k) k fun x =>
      { x with pc := BitVec.ofNat 64 (v.toNat % 2 ^ 57) &&& ~~~ 3#64, resume := if v.getLsbD 63 then 0 else x.resume }
  else s

/-- A pool access at a register of the bank restarts the idle count (spec/01 R25). -/
def touchPool (s : State) (c off : Nat) : State := if bankAt s c off then touchBank s c else s

/-- Core and pool offset of DMADDR. -/
def dmPlace (s : State) (cl : Nat) : Nat × Nat :=
  let a := bits (getCluster s cl).dm.addr.toNat 0 26
  (64 * cl + a / 0x100000, a % 0x100000 / 8 * 8)

/-- DMDATA: a pool load or store at DMADDR, at system level and past the windows (spec/21 R357). No strand could take R25's trap: a load of a register of a bank that is OFF reads zero,
which is the model's choice (log 59). -/
def readDmdata (s : State) (cl : Nat) : Nat := poolRead s (dmPlace s cl).1 (dmPlace s cl).2 8

/-- The use that a load of DMDATA makes of the vector bank. -/
def touchDmdata (s : State) (cl : Nat) : State := touchPool s (dmPlace s cl).1 (dmPlace s cl).2

/-- A bank that is off takes no store (spec/01 R25). -/
def writeDmdata (s : State) (cl : Nat) (v : Word) : State :=
  let p := dmPlace s cl
  if bankAt s p.1 p.2 && (getCore s p.1).vmode == 2 then s else poolWrite (touchPool s p.1 p.2) p.1 p.2 8 v.toNat true

/-- DMICL: a device-wide invalidation of instruction copies (spec/21 R364, spec/06 R133). -/
def writeDmicl (s : State) (cl : Nat) (v : Word) : State :=
  let d := (getCluster s cl).dm
  if d.icbusy then s
  else
    let x := bits v.toNat 60 4
    let runs := runsOf s (64 * cl) x (getCtx s x).desc (bits d.ica.toNat 0 57) (bits v.toNat 0 32)
    let s := foldUnits (fun s c => dropIcache s c runs) (listedCores s) s
    let s := foldUnits (fun s c => dropL2Lines s c fun l _ => lineInRuns runs l) (listedClusters s) s
    let s := dropRbufs s x (bits d.ica.toNat 0 57) (bits v.toNat 0 32) (listedStrands s)
    modCluster s cl fun c => { c with dm := { c.dm with icbusy := true } }

/-- A store to DMCTL (spec/21 R357). -/
def writeDmctl (s : State) (cl : Nat) (v : Word) : State :=
  let s := modCluster s cl fun c => { c with dm := { c.dm with ctl := v &&& 0xFFFF0018#64 } }
  let s := if v.getLsbD 0 then haltCluster s cl 1 0 else s
  let s := if v.getLsbD 1 then runCluster s cl else s
  if v.getLsbD 2 then stepCluster s cl else s

/-- OP of the instruction a strand waits in, for the census (spec/21 R362). -/
def waitOp (w : WaitFor) : Nat :=
  match w with
  | .event .. => 0x97
  | .mutex .. | .lock .. => 0x95
  | .barc .. | .brec _ => 0x99
  | .mailbox .. => 0x9A
  | .message => 0x9B
  | .remote => 0
  | .ticket => 0x9D
  | .task => 0xA4
  | .join .. => 0xAB
  | .spawn => 0xA3
  | .jopen => 0xA7
  | .away _ => 0
  | .revoked => 0
  | .refused => 0

/-- OP of the blocking wait that a strand is in, 0 where it is in none: a request to another device counts where its instruction is one of those of R362. -/
def blockedOp (w : Wait) : Nat :=
  match w.what, w.i with
  | .away _, .acq .. => 0x95
  | .away _, .send .. => 0x9A
  | what, _ => waitOp what

/-- A census entry (spec/21 R362). -/
def census (s : State) (k : Nat) : Nat :=
  let x := getStrand s k
  if liveStrand s k then
    let w := match x.wait with
      | some w => if blockedOp w = 0 then 0 else min (clockOf s k - w.since - w.paused) (2 ^ 40 - 1) * 2 ^ 8 + blockedOp w
      | none => 0
    bnat (getCluster s (clusterOf k)).dm.halted * 2 ^ 63
      + bnat (s.recs.any fun r => r.strand == some k && r.held) * 2 ^ 62 + 2 ^ 61 + w
  else 0

/-! ### Registers of the DCB -/

/-- LINKST (spec/22 R367). -/
def linkWord (l : LinkUnit) : Nat :=
  l.state + 16 * bnat l.dis + 2 ^ 8 * (l.width % 256) + 2 ^ 16 * (l.rate % 65536) + 2 ^ 32 * l.reason
    + 2 ^ 40 * min l.retry (2 ^ 24 - 1)

/-- A change of a link's state, with its LINK record (spec/22 R367). -/
def changeLink (s : State) (u : Nat) (l : LinkUnit) : State :=
  let old := mget LinkUnit.reset s.links u
  let s := { s with links := mput s.links u l }
  if old.state = l.state then s
  else emitSys s ⟨0x50, srcUnit u, dieOfUnit u, 0,
    [l.state + 16 * old.state + 2 ^ 8 * (l.width % 256) + 2 ^ 16 * (l.rate % 65536) + 2 ^ 32 * l.reason], none, 0⟩

/-- The unit numbers of links (spec/22 R367). -/
def isLink (u : Nat) : Bool :=
  (decide (8 ≤ u) && decide (u < 28)) || (decide (32 ≤ u) && decide (u < 36)) || (decide (40 ≤ u) && decide (u < 43))

/-- A write of LINKST.DIS: 1 takes the link down, 0 has it train again (spec/22 R367). -/
def writeDis (s : State) (u : Nat) (v : Bool) : State :=
  if !isLink u then s
  else
    let l := mget LinkUnit.reset s.links u
    if v then changeLink s u { l with dis := true, state := 0, reason := if l.state = 0 then l.reason else 6, width := 0, rate := 0 }
    else changeLink s u { l with dis := false, state := 1, width := 0, rate := 0 }

/-- A write of LQTAIL (spec/20 R324). -/
def writeLqtail (s : State) (x : Nat) (v : Word) : State :=
  let t := bits v.toNat 0 32
  modCtx s x fun c =>
    if 2 ^ c.lqcnt < (t + 2 ^ 32 - c.lqhead) % 2 ^ 32 then { c with lqerr := true } else { c with lqtail := t }

/-- A write of DBELL: a strand address of the context (spec/20 R324). -/
def writeDbell (s : State) (x : Nat) (v : Word) : State :=
  let k := v.toNat % 4096
  if bits v.toNat 19 45 == 0 && !otherDev s v 18 12 && isLive (getStrand s k) && stCtx (getStrand s k) == x then pendIrq s k 0 else s

def writeCqhead (s : State) (x : Nat) (v : Word) : State := modCtx s x fun c => { c with cqhead := bits v.toNat 0 32 }

/-- A write of PCMD (spec/20 R335): a command is taken unless one is busy; command 0 is none, and its write is ignored (log 100). -/
def writePcmd (s : State) (x : Nat) (v : Word) : State :=
  let cmd := bits v.toNat 0 2
  modCtx s x fun c => if c.stat = 1 ∨ cmd = 0 then c else { c with cmd := cmd, stat := 1, reason := 0 }

/-- A write of TRCFG; an SZ outside 12-31 acts as EN = 0 (spec/21 R347, R352, R353). -/
def writeTrcfg (s : State) (t : Nat) (v : Word) : State :=
  let r := mget Ring.reset s.rings t
  let v := v &&& 0x8017_FFFF_FFFF_FF1F#64
  let v := if ringOn r then BitVec.ofNat 64 (setBits v.toNat 0 5 (bits r.cfg.toNat 0 5)) else v
  let rise := ringOn { r with cfg := v } && !ringOn r
  let r' := { r with cfg := v, wr := if rise then 0 else r.wr, rd := if rise then 0 else r.rd }
  let s := { s with rings := mput s.rings t r' }
  if ringOn r' then retryRing s t else dropHeld s t

/-- A write of TRRD frees words of the ring; the held records are tried again (spec/21 R347, R352). -/
def writeTrrd (s : State) (t : Nat) (v : Word) : State :=
  let r := mget Ring.reset s.rings t
  if r.wr < v.toNat ∨ v.toNat < r.rd then s else retryRing { s with rings := mput s.rings t { r with rd := v.toNat } } t

/-- A write of RASCNT: zero clears (spec/22 R381). -/
def writeRascnt (s : State) (k : Nat) (v : Word) : State :=
  if v = 0 then { s with rascnt := mset 0 s.rascnt k 0 } else s

/-- A 64-bit word of a descriptor replaced (spec/20 R318): reserved bits stay zero. -/
def writeDesc (s : State) (x i : Nat) (v : Word) : State :=
  let keep : Nat := [0x000FFFFFFFFFF001, 0x01FFFFFFFFFFFFFC, 0xFFFFFFFFFFFFFFFF, 0xFFFFF1FF, 0, 0, 0, 0].getD i 0
  modCtx s x fun c => { c with desc := BitVec.ofNat 512 (setBits c.desc.toNat (64 * i) 64 (v.toNat &&& keep)) }

/-- Part of DEVST (spec/22 R365). -/
def devst (m : Mgmt) : Nat := m.state + 2 ^ 8 * m.fail + 2 ^ 16 * (m.nrep % 65536)

/-- A read of the 64-bit register at a multiple of 8 in the DCB. -/
def dcbRead (s : State) (off : Nat) : Nat :=
  if off < 0x400 then bits (getCtx s (off / 64)).desc.toNat (64 * (off / 8 % 8)) 64
  else if off < 0x500 then
    let c := getCtx s ((off - 0x400) / 16)
    if off % 16 = 0 then c.cmd + 2 ^ 8 * c.stat + 2 ^ 12 * c.reason else c.pimg.toNat
  else if off < 0x800 then 0
  else if off < 0xC00 then
    let c := getCtx s ((off - 0x800) / 64)
    match off / 8 % 8 with
    | 0 => c.lqbase.toNat
    | 1 => c.lqcnt
    | 2 => c.lqtail
    | 3 => c.lqhead + bnat c.lqerr * 2 ^ 63
    | 4 => c.cqbase.toNat
    | 5 => c.cqhead
    | 6 => c.cqtail
    | _ => 0
  else if off < 0x1000 then
    let r := mget Ring.reset s.rings ((off - 0xC00) / 64)
    match off / 8 % 8 with
    | 0 => r.base.toNat
    | 1 => r.cfg.toNat
    | 2 => r.wr
    | 3 => r.rd
    | n => bits r.filt.toNat (64 * (n - 4)) 64
  else if off = 0x1000 then s.rasctl.toNat
  else if 0x1040 ≤ off ∧ off < 0x1100 then (mget 0 s.rascnt ((off - 0x1040) / 8)).toNat
  else if 0x1100 ≤ off ∧ off < 0x1258 then
    if isLink ((off - 0x1100) / 8) then linkWord (mget LinkUnit.reset s.links ((off - 0x1100) / 8)) else 0
  else if off = 0x1280 then devst s.mgmt
  else if off = 0x1288 then s.ptp.state
  else if off = 0x1290 then s.ptp.tod
  else if 0x1300 ≤ off ∧ off < 0x1380 then (getCluster s ((off - 0x1300) / 8)).unav.toNat
  else if s.mgmt.state = 5 then
    if off = 0x1408 then s.mgmt.rmstat + 2 ^ 8 * s.mgmt.rmreason + 2 ^ 32 * s.mgmt.rmcount
    else if off = 0x1410 then s.mgmt.rmlen
    else if 0x10000 ≤ off then readLE s.mgmt.rmwin (off - 0x10000) 8
    else 0
  else 0

/-- A read of the 64-bit register at a multiple of 8 in a CCB. -/
def ccbRead (s : State) (cl off : Nat) : Nat :=
  let c := getCluster s cl
  if off < 0xA0 then readLE c.owners off 8
  else if off = 0xA0 then c.cpySlot.toNat
  else if off = 0xA8 then c.tkuSlot.toNat
  else if 0x400 ≤ off ∧ off < 0x1400 then readLE c.pwinImg off 8
  else if off = 0x2000 then c.dm.ctl.toNat
  else if off = 0x2008 then
    if c.dm.halted then 1 + 2 * bnat c.dm.icbusy + 2 ^ 8 * c.dm.cause + 2 ^ 16 * c.dm.strand else 2 * bnat c.dm.icbusy
  else if off = 0x2010 then c.dm.sel.toNat
  else if off = 0x2018 then readDmpc s cl
  else if off = 0x2020 then c.dm.addr.toNat
  else if off = 0x2028 then readDmdata s cl
  else if off = 0x2030 then c.dm.lbp0.toNat
  else if off = 0x2038 then c.dm.lbp1.toNat
  else if off = 0x2040 then c.dm.ica.toNat
  else if 0x3000 ≤ off ∧ off < 0x3800 then census s (256 * cl + (off - 0x3000) / 8)
  else 0

/-- The recovery mailbox in RECOVERY (spec/22 R384): RMLEN and the window. RMCTL starts a command elsewhere. -/
def writeMailbox (s : State) (off v : Nat) : State :=
  if off = 0x1410 then { s with mgmt := { s.mgmt with rmlen := bits v 0 32 } }
  else if 0x10000 ≤ off then { s with mgmt := { s.mgmt with rmwin := writeLE s.mgmt.rmwin (off - 0x10000) 8 v } }
  else s

/-- A write of the 64-bit register at a multiple of 8 in the DCB. -/
def dcbWrite (s : State) (off : Nat) (v : Word) : State :=
  if off < 0x400 then writeDesc s (off / 64) (off / 8 % 8) v
  else if off < 0x500 then
    let x := (off - 0x400) / 16
    if off % 16 = 0 then writePcmd s x v
    else modCtx s x fun c => if c.stat = 1 then c else { c with pimg := v &&& 0x000FFFFFFFFFF000#64 }
  else if off < 0x800 then s
  else if off < 0xC00 then
    let x := (off - 0x800) / 64
    let idle := (getCtx s x).lqhead == (getCtx s x).lqtail
    match off / 8 % 8 with
    | 0 => if idle then modCtx s x fun c => { c with lqbase := v &&& 0x000FFFFFFFFFF000#64 } else s
    | 1 => if idle && decide (bits v.toNat 0 5 ≤ 16) then modCtx s x fun c => { c with lqcnt := bits v.toNat 0 5 } else s
    | 2 => writeLqtail s x v
    | 4 => if idle then modCtx s x fun c => { c with cqbase := v &&& 0x000FFFFFFFFFF000#64 } else s
    | 5 => writeCqhead s x v
    | 7 => writeDbell s x v
    | _ => s
  else if off < 0x1000 then
    let t := (off - 0xC00) / 64
    let r := mget Ring.reset s.rings t
    match off / 8 % 8 with
    | 0 => if ringOn r then s else { s with rings := mput s.rings t { r with base := v &&& 0x000FFFFFFFFFF000#64 } }
    | 1 => writeTrcfg s t v
    | 2 => s
    | 3 => writeTrrd s t v
    | n => { s with rings := mput s.rings t { r with filt := BitVec.ofNat 256 (setBits r.filt.toNat (64 * (n - 4)) 64 v.toNat) } }
  else if off = 0x1000 then { s with rasctl := v &&& 0x800000000007FFFF#64 }
  else if 0x1040 ≤ off ∧ off < 0x1100 then writeRascnt s ((off - 0x1040) / 8) v
  else if 0x1100 ≤ off ∧ off < 0x1258 then writeDis s ((off - 0x1100) / 8) (v.getLsbD 4)
  else if off = 0x1290 then { s with ptp := { s.ptp with tod := v.toNat % 2 ^ 63 } }
  else if s.mgmt.state = 5 then writeMailbox s off v.toNat
  else s

/-- What a write to half a window image keeps: all of SRC, and V, RD, WR, NG and FIRSTG of the control word (spec/06 R120, spec/20 R322). -/
def pwinBits (off : Nat) (v : Word) : Word := if off % 16 = 0 then v &&& 0xE000000000003FBF#64 else v

/-- The fields of a window descriptor. -/
def windowBits (w : BitVec 128) : BitVec 128 := w &&& 0xFFFFFFFFFFFFFFFFE000000000003FBF#128

/-- A write of the 64-bit register at a multiple of 8 in a CCB, beyond the owner bytes. -/
def ccbWrite (s : State) (cl off : Nat) (v : Word) : State :=
  let dm (f : Debug → Debug) : State := modCluster s cl fun c => { c with dm := f c.dm }
  if 0x400 ≤ off ∧ off < 0x1400 then modCluster s cl fun c => { c with pwinImg := writeLE c.pwinImg off 8 (pwinBits off v).toNat }
  else if off = 0x2000 then writeDmctl s cl v
  else if off = 0x2010 then dm fun d => { d with sel := v &&& 0xFF#64 }
  else if off = 0x2018 then writeDmpc s cl v
  else if off = 0x2020 then dm fun d => { d with addr := v &&& 0x3FFFFF8#64 }
  else if off = 0x2028 then writeDmdata s cl v
  else if off = 0x2030 then dm fun d => { d with lbp0 := v }
  else if off = 0x2038 then dm fun d => { d with lbp1 := v }
  else if off = 0x2040 then dm fun d => { d with ica := v &&& 0x01FFFFFFFFFFFFFF#64 }
  else if off = 0x2048 then writeDmicl s cl v
  else s

/-- Owner bytes stored one by one. -/
def writeOwners (s : State) (cl off : Nat) : Nat → Nat → State
  | 0, _ => s
  | n + 1, v => writeOwners (writeOwner s cl off (BitVec.ofNat 8 v)) cl (off + 1) n (v / 256)

/-- A load of `n` bytes, within an aligned 8-byte quantity, from the control space. -/
def ctlRead (s : State) (pa n : Nat) : Nat :=
  let a := pa / 8 * 8
  let w := if a < 0xF01000000000 then ccbRead s ((a - 0xF00000000000) / 0x10000) (a % 0x10000)
    else dcbRead s (a - 0xF01000000000)
  bits w (8 * (pa % 8)) (8 * n)

/-- The cluster whose DMDATA lies at an address of the control space. -/
def dmdataAt (pa : Nat) : Option Nat :=
  if pa < 0xF00000100000 ∧ pa % 0x10000 / 8 * 8 = 0x2028 then some ((pa - 0xF00000000000) / 0x10000) else none

/-- What a load from the control space does beside. -/
def ctlTouch (s : State) (pa : Nat) : State :=
  match dmdataAt pa with
  | some cl => touchDmdata s cl
  | none => s

/-- A store of `n` bytes, within an aligned 8-byte quantity, to the control space. -/
def ctlWrite (s : State) (pa n v : Nat) : State :=
  let a := pa / 8 * 8
  if a < 0xF01000000000 then
    let cl := (a - 0xF00000000000) / 0x10000
    if a % 0x10000 < 0xA0 then writeOwners s cl (pa % 0x10000) n v
    else ccbWrite s cl (a % 0x10000)
      (BitVec.ofNat 64 (setBits (if n = 8 then 0 else ccbRead s cl (a % 0x10000)) (8 * (pa % 8)) (8 * n) v))
  else
    let off := a - 0xF01000000000
    dcbWrite s off (BitVec.ofNat 64 (setBits (if n = 8 then 0 else dcbRead s off) (8 * (pa % 8)) (8 * n) v))

end Sys2Proof.Machine
end

