-- ==== Sys2Proof/Machine/Access.lean ====
section
/-!
DEFINITION. Accesses to memory by strands and by engines: where an address lies, whether the access is admitted, and its performance
(spec/01 R25-R28, spec/06 R117-R121, R126, spec/13 R257, R258, R270, spec/20 R332).
-/
namespace Sys2Proof.Machine

/-- Answer of an access: a result, a fault with its cause and TVAL, or a wait, with the core whose vector bank it waits for (spec/01 R25). -/
inductive Acc (α : Type) where
  | ok (a : α)
  | fault (cause tval : Nat)
  | wait (bank : Option Nat)
  deriving DecidableEq, Repr

/-- Where an access goes: a pool, the spill carve-out in place of global memory (spec/01 R27), global memory, or the control space. -/
inductive Loc where
  | pool (core off : Nat)
  | carve (core off : Nat)
  | glob (key : Nat) (e : TlbEntry)
  | ctl (pa : Nat)
  deriving DecidableEq, Repr

/-- Who accesses: the core, the strand whose spill shadow applies, the context and its descriptor, whether register-block
writes have the system level, whether it is an engine (spec/01 R20, R27), and the issue number of the long instruction that accesses (R21). -/
structure Actor where
  core : Nat
  strand : Option Nat
  ctx : Nat
  desc : BitVec 512
  sys : Bool
  engine : Bool
  no : Option Nat
  deriving DecidableEq, Repr

/-- A strand as the party of an access. -/
def strandActor (s : State) (k : Nat) : Actor :=
  ⟨coreOf k, some k, stCtx (getStrand s k), (getCore s (coreOf k)).desc, stPriv (getStrand s k), false, (getStrand s k).long.map Long.no⟩

/-- An engine operation of a core's cluster as the party of an access. -/
def engineActor (c x : Nat) (desc : BitVec 512) : Actor := ⟨c, none, x, desc, false, true, none⟩

/-- Does a window admit an access (spec/06 R120, R121)? -/
def windowAdmits (w : BitVec 128) (src off n : Nat) (k : AccKind) : Bool :=
  let v := w.toNat
  let first := bits v 0 6
  let ng := bits v 7 7
  bitOf v 63 && ng != 0 && decide (first + ng ≤ 64)
  && decide (first * 0x4000 ≤ off) && decide (off + n ≤ (first + ng) * 0x4000) && bitOf v (64 + src)
  && (match k with
      | .write => bitOf v 61
      | .atomic => bitOf v 61 && bitOf v 62
      | _ => bitOf v 62)

/-- Is an access of a remote core admitted by the target's descriptors (spec/06 R121)? A saved context admits none (spec/20 R336). -/
def admitted (s : State) (src target off n : Nat) (k : AccKind) : Bool :=
  !((getCore s target).owner.any fun x => (getCtx s x).saved)
  && (upFrom 0 4).any fun i => windowAdmits (mget 0 (getCore s target).pwin i) src off n k

/-- Does an earlier matrix instruction in progress name the tile, or the tile-state word, that an access reaches (spec/01 R21, spec/03 R66, R67)? -/
def tileBusy (s : State) (c off n : Nat) (no : Option Nat) : Bool :=
  (upFrom 0 4).any fun i =>
    match (getStrand s (4 * c + i)).long with
    | some l => earlier no l.no && (tileRegs l.i).any fun a =>
        overlaps off n (tileOffset (getCore s c) i a.toNat) 30720 || overlaps off n (0x1000 * i + 0x150 + 8 * a.toNat) 8
    | none => false

/-- An access that reaches a pool: unavailable while it names the bank v16 to v31 and the bank is off (spec/01 R21, R25), delayed while the bank
wakes, while an earlier instruction has still to write the register (R21), or while a matrix instruction holds the tile. -/
def poolLoc (s : State) (c off n : Nat) (no : Option Nat) : Acc Loc :=
  if bankAt s c off && (getCore s c).vmode == 2 then .fault 3 (32 + bankReg off)
  else if poolPending s c off n no || tileBusy s c off n no then .wait none
  else if bankAt s c off && bankSleeps s c then .wait (some c)
  else .ok (.pool c off)

/-- The issue number with which an actor's access compares at a core: numbers of another core order nothing. -/
def Actor.noAt (a : Actor) (c : Nat) : Option Nat := if c = a.core then a.no else none

/-- Offset in the owner's share of the carve-out where the spill shadow serves an address (spec/01 R27). -/
def shadowOff (s : State) (k ea n : Nat) : Option Nat :=
  let x := getStrand s k
  let y := getCore s (coreOf k)
  let base := bits x.spillp.toNat 7 50 * 128
  let p := carveShare y
  if x.spillp.getLsbD 0 && decide (base ≤ ea) && decide (ea + n ≤ base + p) then
    some (carveBase y + strandNo k * p + (ea - base))
  else none

/-- Does an access of DMDATA wait for the register or tile it reaches (spec/01 R21)? -/
def dmWaits (s : State) (cl : Nat) : Bool :=
  let p := dmPlace s cl
  poolPending s p.1 p.2 8 none || tileBusy s p.1 p.2 8 none || (bankAt s p.1 p.2 && bankSleeps s p.1)

/-- The core whose bank an access of DMDATA waits for. -/
def dmBank (s : State) (cl : Nat) : Option Nat :=
  let p := dmPlace s cl
  if bankAt s p.1 p.2 && bankSleeps s p.1 then some p.1 else none

def ctlWaits (s : State) (pa : Nat) : Bool := (dmdataAt pa).any (dmWaits s)

/-- Does a lane of a load of `m` bytes meet some global bytes; does it lie in a core's pool? -/
def LoadLane.meets (l : LoadLane) (key n m : Nat) : Bool :=
  match l.loc with
  | .glob p => overlaps key n p m
  | .pool .. => false
def LoadLane.inPool (l : LoadLane) (c : Nat) : Bool :=
  match l.loc with
  | .glob _ => false
  | .pool d _ => d == c

/-- Has a strand a merged atomic on its way to bytes that it accesses, or a load of them that is not performed (spec/13 R254, R255, R266)? -/
def reductionAt (s : State) (a : Actor) (key n : Nat) : Bool :=
  match a.strand with
  | some k =>
      (s.reductions.any fun x => overlaps key n x.pa (elemBytes x.ty) && x.owners.any fun o => o.strand == k) ||
      (getStrand s k).inflight.any fun f => f.load.any fun p => p.lanes.any fun l => l.meets key n (elemBytes p.ty)
  | none => false

/-- Has a strand a load of a core's pool that is not performed? Its accesses to one pool keep its program order (spec/13 R257). -/
def poolHeld (s : State) (a : Actor) (c : Nat) : Bool :=
  match a.strand with
  | some k => (getStrand s k).inflight.any fun f => f.load.any fun p => p.lanes.any fun l => l.inPool c
  | none => false

/-- A global address after translation (spec/06 R117, spec/20 R330-R332). -/
def globLoc (s : State) (a : Actor) (ea n : Nat) (k : AccKind) : Acc Loc :=
  match translate s a.core a.ctx a.desc ea k with
  | none => .fault 6 ea
  | some (key, e) =>
      if isControl key then (if ctlWaits s key then .wait ((dmdataAt key).bind (dmBank s)) else .ok (.ctl key))
      else if reductionAt s a key n then .wait none
      else if (k == .read || k == .atomic) && poisoned s a.core key n then .fault 0xE ea
      else if (k == .atomic || (k == .write && a.engine)) && noHome s key then .fault 0xE ea
      else .ok (.glob key e)

/-- An access of a party to a pool, which waits for that party's earlier loads of it. -/
def heldLoc (s : State) (a : Actor) (c off n : Nat) : Acc Loc := if poolHeld s a c then .wait none else poolLoc s c off n (a.noAt c)

/-- Target core of an address of the cluster space. -/
def clusCore (a : Actor) (ea : Nat) : Nat := clusterOfCore a.core * 64 + ea / 0x100000

/-- The checks of an access that come before any of its effects and before its admission: alignment, range and translation (spec/06 R117, R118, R125). -/
def placeFault (s : State) (a : Actor) (as : Space) (ea n al : Nat) (k : AccKind) : Option (Nat × Nat) :=
  if ea % al ≠ 0 then some (0xD, ea)
  else
    match as with
    | .own => if ea + n ≤ 0x100000 then none else some (0xF, ea)
    | .clus => if ea + n ≤ 0x4000000 then none else some (0xF, ea)
    | .glob =>
        if (a.strand.bind fun k' => shadowOff s k' ea n).isSome then none
        else if (translate s a.core a.ctx a.desc ea k).isNone then some (6, ea) else none

/-- Where an access of `n` bytes lies; it must be a multiple of `al`, and lie within an aligned 8-byte quantity. Without `win` the target's
windows are not asked. -/
def locateIn (win : Bool) (s : State) (a : Actor) (as : Space) (ea n al : Nat) (k : AccKind) : Acc Loc :=
  if ea % al ≠ 0 then .fault 0xD ea
  else
    match as with
    | .own => if ea + n ≤ 0x100000 then heldLoc s a a.core ea n else .fault 0xF ea
    | .clus =>
        if ea + n ≤ 0x4000000 then
          let t := clusCore a ea
          if !win || t == a.core || admitted s (a.core % 64) t (ea % 0x100000) n k then heldLoc s a t (ea % 0x100000) n
          else .fault 7 ea
        else .fault 0xF ea
    | .glob =>
        match a.strand with
        | some k' =>
            match shadowOff s k' ea n with
            | some off => if poolHeld s a a.core then .wait none else .ok (.carve a.core off)
            | none => globLoc s a ea n k
        | none => globLoc s a ea n k

/-- Where an access of `n` bytes lies, the target's windows being asked. -/
def locate (s : State) (a : Actor) (as : Space) (ea n al : Nat) (k : AccKind) : Acc Loc := locateIn true s a as ea n al k

/-- Something that a strand of core `src` has sent is performed at core `dst` (spec/20 R337): a message, a remote pool access or an `RDREM`. -/
def countSent (s : State) (src dst : Nat) : State := countIn (countOut s src) dst

/-- Counts of a pool access of a strand, where it is remote. -/
def countRemote (s : State) (a : Actor) (dst : Nat) : State := if a.core = dst ∨ a.strand = none then s else countSent s a.core dst

/-- The carve-out has served an access of a strand (spec/01 R28). -/
def noteCarved (s : State) (a : Actor) : State :=
  match a.strand with
  | some k => modStrand s k fun x => { x with carved := true }
  | none => s

/-- Perform a load at a location. -/
def loadLoc (s : State) (a : Actor) (l : Loc) (n : Nat) : Nat × State :=
  match l with
  | .pool c off => (poolRead s c off n, touchPool (countRemote s a c) c off)
  | .carve c off => (poolRead s c off n, noteCarved s a)
  | .glob key e =>
      let s := keepTlb s a.core e
      if a.engine then l2Read s (clusterOfCore a.core) a.ctx key n else cacheRead s a.core a.ctx key n
  | .ctl pa => (ctlRead s pa n, ctlTouch s pa)

/-- Perform a store at a location; that one to another core's pool is performed at its issue is the model's choice (spec/13 R257; log 96). -/
def storeLoc (s : State) (a : Actor) (l : Loc) (n v : Nat) : State :=
  match l with
  | .pool c off => poolWrite (touchPool (countRemote s a c) c off) c off n v a.sys
  | .carve c off => poolWrite (noteCarved s a) c off n v a.sys
  | .glob key e =>
      let s := keepTlb s a.core e
      if a.engine then l2Write s (clusterOfCore a.core) a.ctx key n v
      else
        let s := cacheWrite s a.core a.ctx key n v
        match a.strand with
        | some k => modStrand s k fun x =>
            { x with wrote := if x.wrote.contains (lineOf key) then x.wrote else x.wrote ++ [lineOf key] }
        | none => s
  | .ctl pa => ctlWrite s pa n v

/-- A load of an aligned element. -/
def loadElem (s : State) (a : Actor) (as : Space) (ea n : Nat) : Acc (Nat × State) :=
  match locate s a as ea n n .read with
  | .ok l => .ok (loadLoc s a l n)
  | .fault c t => .fault c t
  | .wait b => .wait b

/-- A store of an aligned element. -/
def storeElem (s : State) (a : Actor) (as : Space) (ea n v : Nat) : Acc State :=
  match locate s a as ea n n .write with
  | .ok l => .ok (storeLoc s a l n v)
  | .fault c t => .fault c t
  | .wait b => .wait b

/-- Bytes of any alignment, one by one, as a little-endian quantity. -/
def loadSpan (s : State) (a : Actor) (as : Space) (ea : Nat) : Nat → Acc (Nat × State)
  | 0 => .ok (0, s)
  | n + 1 =>
    match locate s a as ea 1 1 .read with
    | .ok l =>
        let r := loadLoc s a l 1
        match loadSpan r.2 a as (ea + 1) n with
        | .ok (v, s) => .ok (r.1 + 256 * v, s)
        | .fault c t => .fault c t
        | .wait b => .wait b
    | .fault c t => .fault c t
    | .wait b => .wait b

/-- Aligned 8-byte words as a little-endian quantity. -/
def loadWords (s : State) (a : Actor) (as : Space) (ea : Nat) : Nat → Acc (Nat × State)
  | 0 => .ok (0, s)
  | n + 1 =>
    match locate s a as ea 8 8 .read with
    | .ok l =>
        let r := loadLoc s a l 8
        match loadWords r.2 a as (ea + 8) n with
        | .ok (v, s) => .ok (r.1 + 2 ^ 64 * v, s)
        | .fault c t => .fault c t
        | .wait b => .wait b
    | .fault c t => .fault c t
    | .wait b => .wait b

/-- Store bytes of any alignment, one by one. -/
def storeSpan (s : State) (a : Actor) (as : Space) (ea : Nat) : Nat → Nat → Acc State
  | 0, _ => .ok s
  | n + 1, v =>
    match locate s a as ea 1 1 .write with
    | .ok l => storeSpan (storeLoc s a l 1 (v % 256)) a as (ea + 1) n (v / 256)
    | .fault c t => .fault c t
    | .wait b => .wait b

/-- Store aligned 8-byte words. -/
def storeWords (s : State) (a : Actor) (as : Space) (ea : Nat) : Nat → Nat → Acc State
  | 0, _ => .ok s
  | n + 1, v =>
    match locate s a as ea 8 8 .write with
    | .ok l => storeWords (storeLoc s a l 8 (v % 2 ^ 64)) a as (ea + 8) n (v / 2 ^ 64)
    | .fault c t => .fault c t
    | .wait b => .wait b

/-- The first failure of a span of bytes, or none: cause and address. -/
def checkSpan (s : State) (a : Actor) (as : Space) (ea : Nat) (k : AccKind) : Nat → Acc Unit
  | 0 => .ok ()
  | n + 1 =>
    match locate s a as ea 1 1 k with
    | .ok _ => checkSpan s a as (ea + 1) k n
    | .fault c t => .fault c t
    | .wait b => .wait b

/-- Effective address: base plus offset modulo 2^64 (spec/06 R117). -/
def effAddr (base off : Word) : Nat := (base + off).toNat

/-! ### Accesses at the home, by units that keep no copy (spec/14 R275, spec/15 R292) -/

/-- Location of a virtual address for a unit that acts for a context, without the caches. -/
def homeLoc (s : State) (a : Actor) (va n : Nat) (k : AccKind) : Acc Nat :=
  match translate s a.core a.ctx a.desc va k with
  | none => .fault 6 va
  | some (key, _) =>
      if isControl key then .fault 7 va
      else if noHome s key || s.poison.any fun u => decide (u < key + n) && decide (key < u + 8) then .fault 0xE va
      else .ok key

/-- Aligned words read at their home. -/
def homeWords (s : State) (a : Actor) (va : Nat) : Nat → Acc Nat
  | 0 => .ok 0
  | n + 1 =>
    match homeLoc s a va 8 .read with
    | .ok key =>
        match homeWords s a (va + 8) n with
        | .ok v => .ok (homeRead s key 8 + 2 ^ 64 * v)
        | .fault c t => .fault c t
        | .wait b => .wait b
    | .fault c t => .fault c t
    | .wait b => .wait b

/-- Write back to their homes the copies of the lines of a range that a core and its cluster hold (spec/14 R275). -/
def pushRuns (s : State) (c : Nat) (runs : List (Nat × Nat)) : State :=
  wbL2Lines (landCore s c fun l _ => lineInRuns runs l) (clusterOfCore c) fun l _ => lineInRuns runs l

/-- Write back, then drop, the copies of the lines of a range that a core and its cluster hold. -/
def dropRuns (s : State) (c : Nat) (runs : List (Nat × Nat)) : State :=
  dropL2Lines (dropCoreLines s c fun l _ => lineInRuns runs l) (clusterOfCore c) fun l _ => lineInRuns runs l

/-- Write at the home `n` bytes and keep a copy held by a core and its cluster out of the way, as an atomic does (spec/13 R256). -/
def flushLine (s : State) (c line : Nat) : State :=
  dropL2 (dropCore s c line) (clusterOfCore c) line

end Sys2Proof.Machine
end

