-- ==== Sys2Proof/Machine/Ras.lean ====
section
/-!
DEFINITION. Reports of errors: counters, RASCE and RASUE records, and interrupt line 2 (spec/22 R379, R381; spec/21 R345), with the unit and the
die that a memory location belongs to.
-/
namespace Sys2Proof.Machine

/-- A translation that failed at an uncorrected error of a table entry reports it (spec/20 R332). -/
def reportWalk (s : State) (c x : Nat) (desc : BitVec 512) (va : Nat) : State :=
  if va < 2 ^ 57 ∧ findLeaf s c x desc va = none then
    match walkPoison s va 5 (trootOf desc) with
    | some pa => reportLoc s pa
    | none => s
  else s

/-- The pages of a range, each by its first address in the range. -/
def pagesOf (va n : Nat) : List Nat :=
  ((upFrom 0 (n / 4096 + 2)).map fun i => if i = 0 then va else (va / 4096 + i) * 4096).filter fun p => decide (p < va + n)

/-- A check of some ranges that ends at the first page of them which does not translate reports what that met. -/
def reportFirst (s : State) (a : Actor) (l : List (AccKind × Nat × Nat)) : State :=
  match (l.flatMap fun r => (pagesOf r.2.1 r.2.2).map fun p => (r.1, p)).find? fun p => (translate s a.core a.ctx a.desc p.2 p.1).isNone with
  | some p => reportWalk s a.core a.ctx a.desc p.2
  | none => s

/-- RASUE of kind 6 for a request. -/
def reportCascade (s : State) (addr : Nat) : State := reportUncorrected s 6 (srcUnit 1) 0 addr

/-- A device RAS event that names a strand (spec/09 R227; log 19). -/
def reportStrand (s : State) (k : Nat) (addr : Nat) : State := reportUncorrected s 9 (srcStrand k) 3 addr

end Sys2Proof.Machine
end

