-- ==== Sys2Proof/Machine/Sync.lean ====
section
/-!
DEFINITION. Synchronisation objects: handles and strand addresses, release and acquire, the halves of a fence, and the units that
strands wait at (spec/09 R195, R196, R200-R205, spec/13 R260, spec/14 R284-R288, spec/21 R355).
-/
namespace Sys2Proof.Machine

/-! ### Handles and strand addresses (spec/09 R195, R196) -/

def hKind (h : Word) : Nat := bits h.toNat 60 4
def hAddr (h : Word) : Nat := bits h.toNat 0 57
def hCluster (h : Word) : Nat := bits h.toNat 6 4
def hIdx (h : Word) : Nat := bits h.toNat 0 6

/-- Offset of a resource's owner byte in the CCB (spec/20 R322). -/
def ownerOff (kind idx : Nat) : Nat := if kind = 2 then 0x40 + idx else if kind = 6 then 0x80 + idx else 0x90 + idx

/-- Is a handle of the event unit (spec/09 R195)? -/
def isUnitKind (kind : Nat) : Bool := kind == 1 || kind == 2 || kind == 6

/-- The form of a handle: its reserved bits and KIND, an index in range, an aligned address (spec/09 R195). -/
def handleForm (h : Word) : Bool :=
  let kind := hKind h
  bits h.toNat 57 3 == 0 &&
  (if isUnitKind kind then bits h.toNat 17 40 == 0 && decide (hIdx h < if kind = 2 then 64 else 16)
   else if kind = 3 then hAddr h % 256 == 0
   else if kind = 4 || kind = 7 then hAddr h % 64 == 0
   else if kind = 5 then hAddr h % 8 == 0
   else false)

/-- The context to which an event-unit resource of this device is granted. -/
def handleCtx (s : State) (h : Word) : Option Nat := grantee (ownerByte s (hCluster h) (ownerOff (hKind h) (hIdx h)))

/-- A handle of this device that a context may use (spec/09 R195). -/
def handleOk (s : State) (x : Nat) (h : Word) : Bool :=
  handleForm h && (!isUnitKind (hKind h) || !otherDev s h 16 10 && handleCtx s h == some x)

/-! ### The cascade domain (spec/20 R321) -/

/-- CDOM of a descriptor (spec/20 R318). -/
def cdomOf (desc : BitVec 512) : Nat := bits desc.toNat 208 16

/-- Is a device one of the cascade: the routing table has an entry for it (spec/22 R373; log 18)? -/
def inCascade (s : State) (dev : Nat) : Bool := decide (dev < s.mgmt.routes.length) && decide (dev < 64)

/-- The valid contexts that hold a domain. -/
def domainCtxs (s : State) (cdom : Nat) : List Nat :=
  (upFrom 0 16).filter fun x => (getCtx s x).desc.getLsbD 0 && cdomOf (getCtx s x).desc == cdom

/-- Does this device admit, for context `x`, a request of a domain from another device? -/
def admitsFor (s : State) (cdom x : Nat) : Bool := cdom != 0 && domainCtxs s cdom == [x]

/-- The device that an event-unit handle names, where it is another one of the cascade that the strand `k` may ask (spec/09 R195). -/
def handleAway (s : State) (k : Nat) (h : Word) : Option Nat :=
  let dev := bits h.toNat 10 6
  if handleForm h && isUnitKind (hKind h) && otherDev s h 16 10 && inCascade s dev && cdomOf (getCore s (coreOf k)).desc != 0 then some dev else none

/-- One spelling of the handles of one local event-unit resource (spec/09 R195). -/
def canonHandle (s : State) (h : Word) : Word :=
  if isUnitKind (hKind h) && !otherDev s h 16 10 then h &&& ~~~ 0x1FC00#64 else h

/-- Handle of a task or join record at an address. -/
def memHandle (kind va : Nat) : Word := BitVec.ofNat 64 (kind * 2 ^ 60 + va % 2 ^ 57)

/-- Outcome of reading a strand address for the strand `cur`: malformed or outside the cascade, refused by the issuer's having no domain, another device of the cascade, or a
strand of this device (spec/09 R196, spec/20 R321). -/
inductive Target where
  | bad
  | closed
  | away (dev : Nat)
  | here (k : Nat)
  deriving DecidableEq, Repr

def targetOf (s : State) (a : Word) : Target :=
  let dev := bits a.toNat 12 6
  if bits a.toNat 19 45 != 0 then .bad
  else if !otherDev s a 18 12 then .here (a.toNat % 4096)
  else if !inCascade s dev then .bad
  else if cdomOf (getCore s (coreOf s.cur)).desc = 0 then .closed
  else .away dev

/-! ### Releases and acquires (spec/13 R260, spec/09 R202, spec/21 R355) -/

/-- The runs bound to a handle in a context's bind table (spec/09 R201, spec/13 R263). -/
def boundRuns (s : State) (c x : Nat) (desc : BitVec 512) (h : Word) : List (Nat × Nat) :=
  ((getCtx s x).binds.filter fun b => canonHandle s b.handle == canonHandle s h).flatMap fun b =>
    runsOf s c x desc b.base.toNat b.len.toNat

/-- Where an object's LAST time is kept: by kind and resource, or by kind and the location of the record. -/
def objKey (s : State) (a : Actor) (h : Word) : Option Nat :=
  if isUnitKind (hKind h) then some (hKind h * 2 ^ 64 + hCluster h * 64 + hIdx h + if otherDev s h 16 10 then (1 + bits h.toNat 10 6) * 2 ^ 20 else 0)
  else (translate s a.core a.ctx a.desc (hAddr h) .read).map fun r => hKind h * 2 ^ 64 + r.1

/-- The memory port that keeps the LAST of an object with such a key: of its device and its unit number (log 101). -/
def lastPort (o : Nat) : Nat := o % 2 ^ 64 / 2 ^ 52 * 64 + unitOfLoc (o % 2 ^ 52)

/-- What an acquire of an object finds: its LAST, or its port's floor where that has been evicted. -/
def lastOf (s : State) (o : Nat) : Option Nat :=
  if mhas s.lastT o then some (mget 0 s.lastT o) else if s.lastGone.contains o then some (mget 0 s.lastFloor (lastPort o)) else none

/-- A release notes the time it carries; LAST is the largest that any release of the object has carried. -/
def noteLast (s : State) (key : Option Nat) (t : Nat) : State :=
  match key with
  | some o => { s with lastT := mput s.lastT o (max t ((lastOf s o).getD 0)), lastGone := s.lastGone.filter (· != o) }
  | none => s

/-- A home evicts the LAST of an object in memory, which raises its port's floor. -/
def evictLast (s : State) (o : Nat) : State :=
  if mhas s.lastT o && !isUnitKind (o / 2 ^ 64) then
    { s with lastT := mdel s.lastT o, lastGone := s.lastGone ++ [o], lastFloor := mmod 0 s.lastFloor (lastPort o) (max (mget 0 s.lastT o)) }
  else s

/-- The release of a handle by a strand. -/
def releaseBy (s : State) (k : Nat) (h : Word) : State :=
  let a := strandActor s k
  noteLast (pushRuns s a.core (boundRuns s a.core a.ctx a.desc h)) (objKey s a h) (timeOf s k)

/-- The release of a handle by an engine operation or a unit of a cluster, which carries a time. -/
def releaseUnit (s : State) (cl : Nat) (a : Actor) (h : Word) (t : Nat) : State :=
  let runs := boundRuns s a.core a.ctx a.desc h
  noteLast (wbL2Lines s cl fun l _ => lineInRuns runs l) (objKey s a h) t

/-- The acquire of a handle by a strand. -/
def acquireBy (s : State) (k : Nat) (h : Word) : State :=
  let a := strandActor s k
  let s' := dropRuns s a.core (boundRuns s a.core a.ctx a.desc h)
  match objKey s a h with
  | some o => match lastOf s o with
    | some t => raiseFloor s' k t
    | none => s'
  | none => s'

/-- The acquire of a handle by an engine operation of a cluster: what the handle binds leaves its L2 slice. -/
def acquireUnit (s : State) (cl : Nat) (a : Actor) (h : Word) : State :=
  let runs := boundRuns s a.core a.ctx a.desc h
  dropL2Lines s cl fun l _ => lineInRuns runs l

/-! ### The halves of a fence (spec/09 R200) -/

/-- REL: write back what lies below the scope's sharing level. -/
def relHalf (s : State) (k : Nat) (sc : Scope) : State :=
  match sc with
  | .strand | .core => s
  | .cluster => landCore s (coreOf k) fun _ _ => true
  | _ => wbL2Lines (landCore s (coreOf k) fun _ _ => true) (clusterOf k) fun _ _ => true

/-- ACQ: drop what lies below that level, writing dirty lines back first. -/
def acqHalf (s : State) (k : Nat) (sc : Scope) : State :=
  match sc with
  | .strand | .core => s
  | .cluster => dropCoreLines s (coreOf k) fun _ _ => true
  | _ => dropL2Lines (dropCoreLines s (coreOf k) fun _ _ => true) (clusterOf k) fun _ _ => true

/-! ### Waits -/

/-- A wait of a strand has been served with a value. -/
def serveWait (s : State) (k : Nat) (v : Word) : State :=
  modStrand s k fun x => { x with wait := x.wait.map fun w => { w with served := some v } }

/-- The value with which a strand's wait has been served. -/
def servedOf (s : State) (k : Nat) : Option Word := (getStrand s k).wait.bind Wait.served

/-- Has a wait reached its time-out (spec/14 R288)? -/
def timedOut (s : State) (k : Nat) (w : Wait) : Bool := w.limit != 0 && decide (w.limit + w.paused ≤ clockOf s k)

/-- A new wait of a strand. -/
def newWait (s : State) (k : Nat) (i : Instr) (what : WaitFor) (arg : Word) (tmo : Nat) : Wait :=
  ⟨i, what, arg, s.cycle, if tmo = 0 then 0 else s.cycle + tmo, 0, timeOf s k, none, false, (getCore s (coreOf k)).issueNo⟩

/-- Strands that wait for something, in order of arrival and then of number. -/
def insWaiter (s : State) (k : Nat) : List Nat → List Nat
  | [] => [k]
  | a :: r =>
    let t (j : Nat) := match (getStrand s j).wait with
      | some w => w.since
      | none => 0
    if t k < t a then k :: a :: r else a :: insWaiter s k r

def waitersFor (s : State) (p : Nat → Wait → Bool) : List Nat :=
  ((listedStrands s).filter fun k =>
    match (getStrand s k).wait with
    | some w => w.served.isNone && p k w
    | none => false).foldl (fun l k => insWaiter s k l) []

/-! ### Requests of one cycle (spec/09 R202, R203, R206, spec/14 R278, R281, spec/15 R297) -/

/-- May a request of the party `who` reach a unit now? Those of one cycle reach it in ascending order. -/
def mayAsk (s : State) (unit who : Nat) : Bool :=
  let a := mget (0, 0) s.lastAsk unit
  a.1 != s.cycle + 1 || decide (a.2 ≤ who)

/-- A request has reached a unit in this cycle. -/
def noteAsk (s : State) (unit who : Nat) : State := { s with lastAsk := mput s.lastAsk unit (s.cycle + 1, who) }

def askMutex (cl i : Nat) : Nat := 2 ^ 80 + cl * 64 + i
def askEvent (cl l : Nat) : Nat := 2 * 2 ^ 80 + cl * 64 + l
def askLock (key : Nat) : Nat := 3 * 2 ^ 80 + key
def askMail (d : Nat) : Nat := 4 * 2 ^ 80 + d
def askTask (cl x : Nat) : Nat := 5 * 2 ^ 80 + cl * 16 + x
def askCard (key : Nat) : Nat := 6 * 2 ^ 80 + key
def askJoin (key : Nat) : Nat := 7 * 2 ^ 80 + key
/-- Where a party without a place in the order asks a join, and where the deadline closes it for the cycle (spec/15 R299). -/
def joinAny : Nat := 2 ^ 64
def joinClosed : Nat := 2 ^ 64 + 1
def askBreak (cl : Nat) : Nat := 8 * 2 ^ 80 + cl

/-! ### Event lines (spec/09 R203) -/

/-- Serve the queue of a line that has a count from its head: the waiters served, the count left and the queue left. Every peeking waiter ahead of the first
consumer that finds no count is served. -/
def serveQueue : Nat → List (Nat × Bool) → List Nat × Nat × List (Nat × Bool)
  | n, [] => ([], n, [])
  | 0, (k, false) :: q => ([], 0, (k, false) :: q)
  | n, (k, true) :: q =>
      let r := serveQueue n q
      (k :: r.1, r.2)
  | n + 1, (k, false) :: q =>
      let r := serveQueue n q
      (k :: r.1, r.2)

/-- Serve a line's waiters. -/
def serveEv (s : State) (cl l : Nat) : State :=
  let e := getEv s cl l
  if e.cnt = 0 then s
  else
    let r := serveQueue e.cnt e.q
    foldUnits (fun s k => serveWait s k e.val) r.1 (setEv s cl l { e with cnt := r.2.1, q := r.2.2 })

/-- A signal at a line (FN 0 adds a count, CLR clears it). -/
def signalEv (s : State) (cl l : Nat) (v : Word) (clr : Bool) : State :=
  let e := getEv s cl l
  serveEv (setEv s cl l { e with val := v, cnt := if clr then 0 else min (e.cnt + 1) 65535 }) cl l

/-! ### Mutexes and locks (spec/09 R202) -/

/-- A requester, of this device or of another, has been served with a value. -/
def serveAddr (s : State) (a v : Word) : State := if otherDev s a 18 12 then sendAnswer s a (some v) else serveWait s (a.toNat % 4096) v

/-- A free mutex is granted to the next requester. -/
def grantMutex (s : State) (cl i : Nat) : State :=
  match getMutex s cl i with
  | ⟨none, a :: r⟩ => serveAddr (setMutex s cl i ⟨some a, r⟩) a 0
  | _ => s

/-- What a lock word holds while a strand holds the lock: its own address, which has RDEV 0. -/
def lockWord (a : Word) : Word := 0x8000000000000000#64 ||| (a &&& ~~~ 0x40000#64)

/-- A lock whose word reads 0 at its home is granted to the next requester, whose core and cluster keep no older copy of it (spec/13 R255, R262). -/
def grantLock (s : State) (key : Nat) : State :=
  match lockQueue s key with
  | a :: r =>
      if homeRead s key 8 = 0 then
        let t := if otherDev s a 18 12 then s else flushLine s (coreOf (a.toNat % 4096)) (lineOf key)
        if homeRead t key 8 = 0 then serveAddr (setLockQueue (homeWrite t key 8 (lockWord a).toNat) key r) a 0 else t
      else s
  | [] => s

/-! ### Barrier counters (spec/09 R204) -/

/-- A counter remembers that the instance of a strand's arrival has been released. -/
def noteReleased (s : State) (cl i k : Nat) : State :=
  let b := getBarc s cl i
  setBarc s cl i { b with released := b.released ++ [k] }

/-- The release of one arrival: a waiter is served, another is remembered. -/
def departBarc (s : State) (cl i k : Nat) : State :=
  match (getStrand s k).wait with
  | some w =>
      if w.what = .barc cl i then serveWait s k 0
      else noteReleased s cl i k
  | none => noteReleased s cl i k

/-- An arrival with count `n`; the n-th releases every waiter and resets the counter. -/
def arriveBarc (s : State) (cl i k n : Nat) : State :=
  let b := getBarc s cl i
  if b.arr + 1 = n then foldUnits (fun s j => departBarc s cl i j) (b.q ++ [k]) (setBarc s cl i { BarCounter.reset with released := b.released })
  else setBarc s cl i { b with n := n, arr := b.arr + 1, q := b.q ++ [k] }

/-- A strand's arrival is withdrawn. -/
def withdrawBarc (s : State) (cl i k : Nat) : State :=
  let b := getBarc s cl i
  if b.q.contains k then
    setBarc s cl i { b with n := if b.arr ≤ 1 then 0 else b.n, arr := b.arr - 1, q := b.q.filter (· != k) }
  else s

/-- The counters of a strand's cluster forget the arrivals of an earlier launch of its. -/
def forgetBars (s : State) (k : Nat) : State :=
  modCluster s (clusterOf k) fun c => { c with barc := c.barc.map fun e => (e.1, { e.2 with released := e.2.released.filter (· != k) }) }

/-! ### The dissemination barrier (spec/14 R285, R286) -/

/-- Rounds of a barrier of `n` ranks: ceil(log2 n). -/
def roundsOf (n : Nat) : Nat := if n ≤ 1 then 0 else (n - 1).log2 + 1

/-- Location of a rank's flag entry for a context. -/
def flagLoc (s : State) (a : Actor) (flags i : Nat) : Acc Nat := homeLoc s a (flags + 64 * i) 64 .atomic

/-- Does a slot reach a generation? -/
def reaches (slot g : Nat) : Bool := decide ((slot + 2 ^ 32 - g % 2 ^ 32) % 2 ^ 32 < 2 ^ 31)

/-- What becomes of a rank in the rounds of a barrier: through, still waiting, or a failure at an entry. -/
inductive Rounds where
  | through (s : State)
  | waits (s : State)
  | fails (s : State) (cause tval : Nat)
  deriving DecidableEq, Repr

/-- The rounds from `r` on of rank `i` of `n`, in generation `g`; its own entry lies at `e`. -/
def barRounds (a : Actor) (flags n i g e : Nat) : Nat → Nat → State → Rounds
  | 0, _, s => .through (meetWrite s (e + 52) 4 (setBits (homeRead s (e + 52) 4) 0 1 0))
  | f + 1, r, s =>
    match flagLoc s a flags ((i + 2 ^ r) % n) with
    | .ok p =>
        let s := meetWrite s (p + 4 * r) 4 g
        if reaches (homeRead s (e + 4 * r) 4) g then
          barRounds a flags n i g e f (r + 1) (meetWrite s (e + 52) 4 (setBits (homeRead s (e + 52) 4) 1 4 (r + 1)))
        else .waits s
    | .fault c t => .fails s c t
    | .wait _ => .waits s

/-- `BAR` of a rank over a record whose N and FLAGS have been read: its own entry first, then the rounds. None where another strand
is in the barrier as this rank. -/
def enterBarrier (s : State) (a : Actor) (own : Nat) (flags n i : Nat) : Option Rounds :=
  match flagLoc s a flags i with
  | .ok e =>
      let w := homeRead s (e + 52) 4
      if bitOf w 0 && bits w 5 19 != own % 2 ^ 19 then none
      else
        let s := if bitOf w 0 then s
          else meetWrite (meetWrite s (e + 48) 4 (homeRead s (e + 48) 4 + 1)) (e + 52) 4 (1 + own % 2 ^ 19 * 2 ^ 5)
        let g := homeRead s (e + 48) 4
        let r := bits (homeRead s (e + 52) 4) 1 4
        some (barRounds a flags n i g e (roundsOf n - r) r s)
  | .fault c t => some (.fails s c t)
  | .wait _ => some (.waits s)

/-! ### Mailboxes (spec/09 R205, R206, spec/14 R287, R288) -/

/-- The queued `SEND` requests for a destination that may still be granted. -/
def sendersTo (s : State) (d : Nat) : List Nat :=
  waitersFor s fun k w => match w.what with
    | .mailbox e _ => e == d && !timedOut s k w
    | _ => false

/-- A strand that waits in RECV has a message in time. -/
def wakeReceiver (s : State) (d : Nat) : State :=
  match (getStrand s d).wait with
  | some w => if w.what = .message ∧ w.served = none ∧ !timedOut s d w then serveWait s d 0 else s
  | none => s

/-- A message is placed in a mailbox that has a free entry; the probe counts it (spec/20 R337). -/
def placeMail (s : State) (d : Nat) (m : Msg) : State :=
  wakeReceiver (modStrand (noteAsk s (askMail d) m.sender.toNat) d fun x => { x with mail := x.mail ++ [m] }) d

/-- Accept one queued request of a strand of this device. -/
def acceptSend (s : State) (d k : Nat) : State :=
  match (getStrand s k).wait with
  | some w =>
      match w.what with
      | .mailbox _ p => serveWait (placeMail (countSent s (coreOf k) (coreOf d)) d ⟨p, addrOfStrand s k, w.time⟩) k 1
      | _ => s
  | none => s

/-- The queued requests of other devices, in order of arrival and, in one cycle, of the sender's strand address. -/
def insAway (a : AwaySend) : List AwaySend → List AwaySend
  | [] => [a]
  | b :: r => if a.since < b.since ∨ a.since = b.since ∧ a.sender.toNat < b.sender.toNat then a :: b :: r else b :: insAway a r

/-- Accept the first queued request of another device's strand. -/
def acceptAway (s : State) (d : Nat) (a : AwaySend) : State :=
  sendAnswer (placeMail (countIn { s with awaySends := s.awaySends.erase a } (coreOf d)) d ⟨a.payload, a.sender, a.time⟩) a.sender (some 1)

/-- Is the queued request of a strand ahead of one of another device: earlier, or in the same cycle of a lower strand address? -/
def aheadOf (s : State) (k : Nat) (a : AwaySend) : Bool :=
  match (getStrand s k).wait with
  | some w => decide (w.since < a.since) || w.since == a.since && decide ((addrOfStrand s k).toNat < a.sender.toNat)
  | none => false

/-- Grant free entries to the queued requests in order of arrival; the count is that of the entries. -/
def serveMail (s : State) (d : Nat) : Nat → State
  | 0 => s
  | n + 1 =>
    if 4 ≤ (getStrand s d).mail.length then s
    else
      match sendersTo s d, s.awaySends.find? fun a => a.target == d with
      | [], none => s
      | k :: _, none => serveMail (acceptSend s d k) d n
      | [], some a => serveMail (acceptAway s d a) d n
      | k :: _, some a => serveMail (if aheadOf s k a then acceptSend s d k else acceptAway s d a) d n

/-! ### Leaving a wait (spec/09 R202-R206, R215, R226) -/

/-- A kill or a stop abandons a wait; an arrival at a barrier counter is withdrawn (spec/09 R204). -/
def killWait (s : State) (k : Nat) : State :=
  match (getStrand s k).wait with
  | some w =>
      match w.what with
      | .barc cl i => abandonWait (withdrawBarc s cl i k) k
      | _ => abandonWait s k
  | none => s

end Sys2Proof.Machine
end

