-- ==== Sys2Proof/Machine/Tasks.lean ====
section
/-!
DEFINITION. The task units: TCBs and their checks, predecessor counts, readiness, dealing, batch cards and retirement (spec/14 R273-R283,
spec/09 R214-R217).
-/
namespace Sys2Proof.Machine

/-! ### TCB fields at the home (spec/14 R273) -/

/-- A field of a record: the bytes that hold its bits. -/
def homeField (s : State) (key lo w : Nat) : Nat := bits (homeRead s (key + lo / 8) ((lo % 8 + w + 7) / 8)) (lo % 8) w
def tcbField (s : State) (key lo w : Nat) : Nat := homeField s key lo w
/-- Write a field of a record at its home in one step, by a VC where that is another device. -/
def putFieldOn (s : State) (vc key lo w v : Nat) : State :=
  let b := lo / 8
  let n := (lo + w - 1) / 8 - b + 1
  homeWriteOn s vc (key + b) n (setBits (homeRead s (key + b) n) (lo % 8) w v)
def putField (s : State) (key lo w v : Nat) : State := putFieldOn s 0 key lo w v

def tcbPred (s : State) (key : Nat) : Int := sextNat 16 (tcbField s key 224 16)
def tcbState (s : State) (key : Nat) : Nat := tcbField s key 208 3
def tcbNrec (s : State) (key : Nat) : Nat := tcbField s key 256 32
def tcbDealt (s : State) (key : Nat) : Nat := tcbField s key 352 32
def tcbNhold (s : State) (key : Nat) : Nat := tcbField s key 336 16

/-- The conditions of R273 and R275 on a TCB's own 64 bytes. -/
def tcbOk (t : Nat) : Bool :=
  let kind := bits t 214 2
  let arg := bits t 64 57
  let entry := bits t 0 57
  let succ := bits t 128 57
  let nsucc := bits t 240 16
  let rsize := bits t 304 16
  let minch := bits t 288 16
  bits t 403 109 == 0 && bits t 320 16 == 0 && bits t 219 5 == 0 && bits t 211 3 == 0 && bits t 185 23 == 0
  && bits t 121 7 == 0 && bits t 57 7 == 0
  && [0, 4, 5, 6].contains (bits t 208 3) && decide (bits t 224 16 < 32768)
  && succ % 8 == 0 && (nsucc != 0 || succ == 0)
  && (match kind with
      | 0 => entry % 4 == 0
      | 1 => entry == 0 && arg != 0 && arg % 64 == 0
      | 2 => entry % 4 == 0 && arg % 8 == 0 && rsize % 8 == 0 && decide (8 ≤ rsize) && decide (rsize ≤ 4096) && minch != 0
      | _ => false)
  && (kind == 2 || (rsize == 0 && minch == 0 && bits t 256 32 == 0))

/-- A successor entry (spec/14 R274). -/
def succOk (e : Nat) : Bool := e != 0 && bits e 57 7 == 0 && e % 64 == 0

/-- The successor list read entry by entry: is every entry well formed? -/
def succsOk (s : State) (a : Actor) (addr : Nat) : Nat → Acc Bool
  | 0 => .ok true
  | n + 1 =>
    match homeLoc s a addr 8 .read with
    | .ok key => if succOk (homeRead s key 8) then succsOk s a (addr + 8) n else .ok false
    | .fault c t => .fault c t
    | .wait b => .wait b

/-- The checks of R275: the TCB's location, a fault of a read, or the format fault of R214. -/
def checkTcb (s : State) (a : Actor) (tcb : Nat) : Acc Nat :=
  if tcb % 64 ≠ 0 then .fault 9 tcb
  else
    match homeLoc s a tcb 64 .atomic with
    | .ok key =>
        let t := homeRead s key 64
        if !tcbOk t then .fault 9 tcb
        else
          match succsOk s a (bits t 128 57) (bits t 240 16) with
          | .ok true => .ok key
          | .ok false => .fault 9 tcb
          | .fault c v => .fault c v
          | .wait b => .wait b
    | .fault c v => .fault c v
    | .wait b => .wait b

/-- A strand writes back its copies of a TCB's line and of its successor list (spec/14 R275, R279). -/
def pushTcb (s : State) (k tcb : Nat) : State :=
  let a := strandActor s k
  match homeLoc s a tcb 64 .read with
  | .ok key =>
      let s := pushRuns s a.core [(key, 64)]
      pushRuns s a.core (runsOf s a.core a.ctx a.desc (tcbField s key 128 57) (8 * tcbField s key 240 16))
  | _ => s

/-! ### Held TCBs and readiness (spec/14 R275-R277) -/

def heldIn (s : State) (cl key : Nat) : Option TaskEnt := (getCluster s cl).tasks.find? fun t => t.key == key
/-- The cluster whose task unit holds a TCB. -/
def holderOf (s : State) (key : Nat) : Option Nat := (listedClusters s).find? fun cl => (heldIn s cl key).isSome
def modTask (s : State) (cl key : Nat) (f : TaskEnt → TaskEnt) : State :=
  modCluster s cl fun c => { c with tasks := c.tasks.map fun t => if t.key = key then f t else t }
def dropTask (s : State) (cl key : Nat) : State :=
  modCluster s cl fun c => { c with tasks := c.tasks.filter fun t => t.key != key }

/-- A task unit as the party of an access for a context. -/
def unitActor (cl x : Nat) (desc : BitVec 512) : Actor := engineActor (64 * cl) x desc

/-- A record of a unit that acts for a context (spec/21 R346). -/
def emitUnit (s : State) (cl cls floor : Nat) (payload : List Nat) (x : Nat) (desc : BitVec 512) : State :=
  emitOwn s ⟨cls, srcTask cl, dieOf cl, floor, payload, none, x⟩ (bits desc.toNat 204 4) (trcOf desc)

/-- A held TCB becomes READY at its unit. -/
def readyTask (s : State) (cl key floor : Nat) : State :=
  match heldIn s cl key with
  | none => s
  | some t =>
      emitUnit (modTask (putField s key 208 3 2) cl key fun t => { t with ready := some s.cycle }) cl 0x28 floor
        [t.tcb + t.prio * 2 ^ 60] t.ctx t.desc

/-- The unit takes a TCB that has been checked (spec/14 R275). -/
def holdTcb (s : State) (cl : Nat) (t : TaskEnt) (floor : Nat) : State :=
  let s := putField (putField (putField s t.key 352 32 0) t.key 336 16 0) t.key 384 19 0
  let s := putField s t.key 208 3 1
  let s := modCluster s cl fun c => { c with tasks := c.tasks ++ [t] }
  if tcbPred s t.key = 0 then readyTask s cl t.key floor else s

/-- A change of a predecessor count in one step at the home (spec/14 R276): the new count and the state. -/
def changePred (s : State) (key : Nat) (by_ : Int) (floor : Nat) : Int × State :=
  let p := clampI (-32768) 32767 (tcbPred s key + by_)
  let st := tcbState s key
  let s := putField s key 224 16 (bitsOfInt 16 p)
  match holderOf s key with
  | none => (p, s)
  | some cl =>
      if st = 1 ∧ p = 0 then
        (p, modCluster (putField s key 208 3 2) cl fun c => { c with notices := c.notices ++ [⟨key, floor⟩] })
      else if st = 2 ∧ 0 < p ∧ !(tcbField s key 214 2 == 2 && tcbNhold s key != 0) then
        let s := modTask (putField s key 208 3 1) cl key fun t => { t with ready := none }
        (p, modCluster s cl fun c => { c with notices := c.notices.filter fun n => n.key != key })
      else (p, s)

/-- Does one ready task stand before another (spec/14 R277)? -/
def taskBefore (a b : TaskEnt) : Bool :=
  decide (b.prio < a.prio) || (a.prio == b.prio &&
    match a.ready, b.ready with
    | some x, some y => decide (x < y) || (x == y && decide (a.tcb < b.tcb))
    | _, _ => false)

/-- The first of a list by an order. -/
def firstBy {α : Type} (lt : α → α → Bool) : List α → Option α
  | [] => none
  | a :: r =>
    match firstBy lt r with
    | some b => some (if lt b a then b else a)
    | none => some a

/-- The head of a context's ready queue among the tasks that satisfy a test. -/
def headTask (s : State) (cl x : Nat) (p : TaskEnt → Bool) : Option TaskEnt :=
  firstBy taskBefore ((getCluster s cl).tasks.filter fun t => t.ctx == x && t.ready.isSome && p t)

/-! ### Retirement (spec/14 R279, R280) -/

/-- The release of a handle by the retiring party: a strand, or a unit of the cluster. -/
def releaseParty (s : State) (who : Option Nat) (cl : Nat) (a : Actor) (h : Word) (t : Nat) : State :=
  match who with
  | some k => releaseBy s k h
  | none => releaseUnit s cl a h t

/-- The retiring strand's own copy of a line goes home first. -/
def pushParty (s : State) (who : Option Nat) (key n : Nat) : State :=
  match who with
  | some k => pushRuns s (coreOf k) [(key, n)]
  | none => s

/-- An uncorrected error met by a unit raises its record (spec/14 R279). -/
def noteError (s : State) (cause va : Nat) (a : Actor) : State :=
  if cause = 0xE then
    match translate s a.core a.ctx a.desc va .read with
    | some r => reportLoc s r.1
    | none => s
  else if cause = 6 then reportWalk s a.core a.ctx a.desc va
  else s

/-- Decrement the successors of a list in order: the first count taken below zero, and the state. -/
def decSuccs (who : Option Nat) (cl : Nat) (a : Actor) (t : Nat) : Nat → Nat → Option Nat → State → Option Nat × State
  | 0, _, u, s => (u, s)
  | n + 1, addr, u, s =>
    match homeLoc s a addr 8 .read with
    | .ok key =>
        let e := homeRead s key 8
        if !succOk e then decSuccs who cl a t n (addr + 8) u s
        else
          match homeLoc s a e 64 .atomic with
          | .ok k2 =>
              let s := releaseParty s who cl a (memHandle 4 e) t
              let r := changePred (pushParty s who k2 64) k2 (-1) (t + 1)
              decSuccs who cl a t n (addr + 8) (if r.1 < 0 then u.or (some e) else u) r.2
          | .fault c v => decSuccs who cl a t n (addr + 8) u (noteError s c v a)
          | .wait _ => decSuccs who cl a t n (addr + 8) u s
    | .fault c v => (u, noteError s c v a)
    | .wait _ => (u, s)

/-- Retirement of a held task by a strand or by a unit: the first successor whose count fell below zero, and the state. `traps` says
whether the party reports an underflow by a trap; `final` is the STATE it writes otherwise. A command that failed stays FAILED (spec/14 R280, R283; log 97). -/
def retireTask (s : State) (who : Option Nat) (cl : Nat) (a : Actor) (t : TaskEnt) (time : Nat) (traps : Bool) (final : Nat) :
    Option Nat × State :=
  let s := releaseParty s who cl a (memHandle 4 t.tcb) time
  let s := match who with
    | some k => pushTcb s k t.tcb
    | none => s
  let r := decSuccs who cl a time (tcbField s t.key 240 16) (tcbField s t.key 128 57) none s
  let st := if final = 4 ∧ r.1.isSome ∧ !traps then 5 else final
  let s := putField (putField r.2 t.key 208 3 st) t.key 384 19 0
  (r.1, emitUnit (dropTask s cl t.key) cl 0x29 (time + 1) [t.tcb + st * 2 ^ 60] t.ctx t.desc)

/-- A strand ends its current task (spec/14 R279, R282): a card only when it was the last holder of a card dealt whole. -/
def endTask (s : State) (k : Nat) (traps : Bool) : Option Nat × State :=
  match (getStrand s k).task with
  | none => (none, s)
  | some c =>
      let cl := clusterOf k
      let s := modStrand s k fun x => { x with task := none }
      match heldIn s cl c.key with
      | none => (none, s)
      | some t =>
          let a := strandActor s k
          if !c.card then retireTask s (some k) cl a t (timeOf s k) traps 4
          else
            let s := putField s c.key 336 16 (tcbNhold s c.key - 1)
            if tcbDealt s c.key = tcbNrec s c.key ∧ tcbNhold s c.key = 0 then
              retireTask s (some k) cl a t (timeOf s k) traps 4
            else (none, releaseBy s k (memHandle 4 t.tcb))

/-! ### Dealing (spec/14 R278, R281, spec/09 R215, R217) -/

/-- A wait that completes by an event: the counter of its SET field falls when its result lands. -/
def completeWait (x : Strand) : Strand :=
  match x.wait with
  | some w =>
      match w.i.common with
      | some c => { x with wait := none, inflight := if c.set = 7 then x.inflight else x.inflight ++ [⟨c.set, [], false, namesBank w.i, false, none⟩] }
      | none => { x with wait := none }
  | none => x

/-- The unit deals its head task to its head waiting strand in a context. -/
def dealTask (s : State) (cl x : Nat) : State :=
  let ws := waitersFor s fun k w => w.what == .task && clusterOf k == cl && stCtx (getStrand s k) == x
  match headTask s cl x (fun t => t.kind == 0 || (t.kind == 2 && tcbNrec s t.key != 0)), ws with
  | some t, k :: _ =>
      let s := if t.kind = 2 then putField s t.key 336 16 (tcbNhold s t.key + 1)
        else modTask (putField (putField s t.key 208 3 3) t.key 384 19 (addrOfStrand s k).toNat) cl t.key
          fun t => { t with ready := none }
      let arg := tcbField s t.key 64 57
      let entry := tcbField s t.key 0 57
      let s := modStrand s k fun y =>
        { setS (setS (completeWait y) 3 (BitVec.ofNat 64 arg)) 4 (BitVec.ofNat 64 t.tcb) with
          pc := BitVec.ofNat 64 (entry / 4 * 4), task := some ⟨t.tcb, t.key, t.kind == 2⟩ }
      acquireBy s k (memHandle 4 t.tcb)
  | _, _ => s

/-- Does the unit hold a task of a context that has been spawned and not retired? -/
def holdsTasks (s : State) (cl x : Nat) : Bool := (getCluster s cl).tasks.any fun t => t.ctx == x

/-- The next chunk of a card for a holder (spec/14 R281): first record and count. -/
def cardChunk (s : State) (key : Nat) : Nat × Nat :=
  let left := tcbNrec s key - tcbDealt s key
  let h := 2 * tcbNhold s key
  (tcbField s key 64 57 + tcbDealt s key * tcbField s key 304 16,
    min (max (tcbField s key 288 16) ((left + h - 1) / h)) left)

/-- A card's records are dealt. -/
def takeChunk (s : State) (cl key n : Nat) : State :=
  let s := putField s key 352 32 (tcbDealt s key + n)
  if tcbDealt s key = tcbNrec s key then
    modTask (putField s key 208 3 3) cl key fun t => { t with ready := none }
  else s

end Sys2Proof.Machine
end

