-- ==== Sys2Proof/Machine/Joins.lean ====
section
/-!
DEFINITION. Quorum joins at the record's home: fields, registration, contribution, arrival, release and waiting (spec/15 R290-R308, spec/09
R218, R219).
-/
namespace Sys2Proof.Machine

/-! ### Records and instances (spec/15 R290-R292) -/

def setInst (s : State) (j : JoinInst) : State := { s with joins := s.joins.map fun i => if i.num = j.num then j else i }
def dropInst (s : State) (key : Nat) : State := { s with joins := s.joins.filter fun i => i.key != key }

def recField (s : State) (key lo w : Nat) : Nat := homeField s key lo w
/-- Write a field of a join record (spec/22 R373: the VC of barriers and joins). -/
def putRec (s : State) (key lo w v : Nat) : State := putFieldOn s 3 key lo w v
def swField (j : JoinInst) (lo w : Nat) : Nat := bits j.sw.toNat lo w
def jN (j : JoinInst) : Nat := swField j 46 7
def jNE (j : JoinInst) : Nat := swField j 35 11
/-- XS, a signed scale exponent. -/
def jXS (j : JoinInst) : Int := sextNat 16 (swField j 0 16)

/-- The state that a join instruction requires: the tracked instance's, else the field of the record (spec/15 R292). -/
def joinState (s : State) (key : Nat) : Nat :=
  match instAt s key with
  | some j => j.state
  | none => recField s key 62 2

/-- Location of a byte of an instance's areas. -/
def areaLoc (j : JoinInst) (va : Nat) : Nat := mget 0 j.pages (va / 4096) + va % 4096

/-- TVAL of a join fault (spec/09 R218). -/
def joinTval (va reason : Nat) : Nat := reason * 2 ^ 60 + va % 2 ^ 57

/-- The NaN element (spec/15 R290). -/
def nanElem : Int := -(2 ^ 127 : Nat)

def stagingVa (j : JoinInst) (p e : Nat) : Nat := swField j 384 57 + 16 * (p * jNE j + e)
def targetVa (j : JoinInst) (e : Nat) : Nat := swField j 320 57 + 16 * e
def readElem (s : State) (j : JoinInst) (va : Nat) : Int := sextNat 128 (homeRead s (areaLoc j va) 16)
def writeElem (s : State) (j : JoinInst) (va : Nat) (n : Int) : State := meetWrite s (areaLoc j va) 16 (bitsOfInt 128 n)

/-- Zero an area of an instance, page by page. -/
def zeroArea (s : State) (j : JoinInst) : Nat → Nat → Nat → State
  | 0, _, _ => s
  | f + 1, va, n =>
    if n = 0 then s
    else
      let m := min n (4096 - va % 4096)
      let l := areaLoc j va
      zeroArea (unpoison { s with mem := clearRange s.mem l m } l m) j f (va + m) (n - m)

def zeroStaging (s : State) (j : JoinInst) (p : Nat) : State := zeroArea s j (16 * jNE j / 4096 + 2) (stagingVa j p 0) (16 * jNE j)

/-- The time of a record's home (spec/15 R294). -/
def homeTime (s : State) (key : Nat) : Nat := dieTime s (dieOfLoc key)

/-- Does the home defer the requests to a record while it holds the record's trace record (spec/15 R308, spec/21 R352)? -/
def joinDefers (s : State) (key : Nat) : Bool :=
  match instAt s key with
  | some j =>
      unitDefers s (srcUnit (unitOfLoc key)) j.ctx
        && s.recs.any fun r => r.held && r.strand.isNone && r.src == srcUnit (unitOfLoc key) && r.words[2]? == some (j.va &&& 0x7FFFFFFFFFFFFFFF#64)
  | none => false

/-! ### Opening (spec/15 R294) -/

/-- The conditions of R290 and R294 on a record's own bytes and its address. -/
def joinOk (va r : Nat) : Bool :=
  let n := bits r 46 7
  let q := bits r 64 17
  let fill := bits r 56 2
  let qm := bitOf r 55
  let kact := bitOf r 54
  let adr (lo : Nat) : Nat := bits r lo 57
  bits r 1344 704 == 0 && !bitOf r 703 && bits r 633 7 == 0 && bits r 569 7 == 0 && bits r 505 7 == 0
  && bits r 441 7 == 0 && bits r 377 7 == 0 && bits r 313 7 == 0 && !bitOf r 191 && bits r 113 15 == 0 && bits r 81 15 == 0
  && bits r 16 19 == 0 && bits r 697 6 * bnat (adr 640 == 0) == 0
  && decide (1 ≤ n) && decide (n ≤ 64) && decide (1 ≤ bits r 35 11) && decide (bits r 35 11 ≤ 1024)
  && decide (1 ≤ q) && decide (q ≤ if qm then 65536 else n) && decide (bits r 96 17 ≤ q)
  && fill != 3 && (adr 512 != 0) == (fill == 2) && (adr 576 != 0) == !kact && adr 576 % 4 == 0
  && adr 256 % 16 == 0 && adr 320 % 16 == 0 && adr 384 % 16 == 0 && adr 448 % 16 == 0 && adr 512 % 16 == 0
  && adr 640 % 256 == 0 && (adr 640 == 0 || adr 640 != va)

/-- Add the frames of an area's pages; none where a page does not translate to near-tier memory of the device of `key`. -/
def mapArea (s : State) (a : Actor) (k : AccKind) (key : Nat) : Nat → Nat → Nat → Map Nat → Option (Map Nat)
  | 0, _, _, m => some m
  | f + 1, va, n, m =>
    if n = 0 then some m
    else
      match translate s a.core a.ctx a.desc (va / 4096 * 4096) k with
      | none => none
      | some (l, _) =>
        if isNear l && l / 2 ^ 52 == key / 2 ^ 52 then
          let b := min n (4096 - va % 4096)
          mapArea s a k key f (va + b) (n - b) (mput m (va / 4096) l)
        else none

/-- The areas of a record at an address: how each is accessed, its address and its length. -/
def areasOf (va r : Nat) : List (AccKind × Nat × Nat) :=
  let n := bits r 46 7
  let ne := bits r 35 11
  [(.write, va, 256), (.write, bits r 256 57, 16 * n), (.write, bits r 384 57, 16 * n * ne), (.write, bits r 320 57, 16 * ne), (.write, bits r 448 57, 4 * ne)]
    ++ if bits r 56 2 = 2 then [(.read, bits r 512 57, 4 * ne)] else []

/-- The frames of all the areas of a record. -/
def mapAreas (s : State) (a : Actor) (key va r : Nat) : Option (Map Nat) :=
  (areasOf va r).foldl (fun m p => m.bind fun m => mapArea s a p.1 key (p.2.2 / 4096 + 2) p.2.1 p.2.2 m) (some [])

/-- The weights of a participant table; none where an entry breaks R291. -/
def readWeights (s : State) (j : JoinInst) (va : Nat) : Nat → Option (List Nat)
  | 0 => some []
  | n + 1 =>
    let e := homeRead s (areaLoc j va) 16
    if bits e 32 32 = 0 ∧ bits e 0 32 ≤ 0x01000000 then (readWeights s j (va + 16) n).map (bits e 0 32 :: ·) else none

/-- OPEN joins tracked by one home memory port (spec/15 R292). -/
def openAt (s : State) (key : Nat) : Nat :=
  (s.joins.filter fun j => j.state == 1 && unitOfLoc j.key == unitOfLoc key && j.key / 2 ^ 52 == key / 2 ^ 52).length

/-- Does a record name itself as its parent: by a virtual address that translates to its own location (spec/15 R292, R294)? -/
def ownParent (s : State) (a : Actor) (key r : Nat) : Bool :=
  bits r 640 57 != 0 && (match translate s a.core a.ctx a.desc (bits r 640 57) .read with
    | some (l, _) => l == key
    | none => false)

/-- An instance over the bytes of a record, without its weights. -/
def recordInst (s : State) (a : Actor) (key va r : Nat) (pages : Map Nat) : JoinInst :=
  ⟨key, s.joinNo, BitVec.ofNat 2048 r, [], a.ctx, a.desc, bits a.desc.toNat 204 4, BitVec.ofNat 64 va, 1, [], pages, 0, 0⟩

/-- The validated instance that a `JOPEN` would open, or its fault. -/
def checkOpen (s : State) (k : Nat) (va : Nat) : Acc JoinInst :=
  let a := strandActor s k
  if va % 256 ≠ 0 then .fault 9 va
  else
    match homeLoc s a va 256 .write with
    | .ok key =>
        let r := homeRead s key 256
        if joinDefers s key || !mayAsk s (askJoin key) joinAny then .wait none
        else if !joinOk va r || ownParent s a key r then .fault 9 va
        else
          match mapAreas s a key va r with
          | none => .fault 9 va
          | some pages =>
              let j := recordInst s a key va r pages
              match readWeights s j (swField j 256 57) (jN j) with
              | none => .fault 9 va
              | some ws => if swField j 55 1 = 1 ∧ ws.sum = 0 then .fault 9 va else .ok { j with weights := ws }
    | .fault 0xE v => .fault 0xE v
    | _ => .fault 9 va

/-- What a `JOPEN` that fails meets in its translations: of the record, and, where that is well formed, of its areas (spec/20 R332). -/
def reportOpen (s : State) (a : Actor) (va : Nat) : State :=
  match translate s a.core a.ctx a.desc va .write with
  | none => reportWalk s a.core a.ctx a.desc va
  | some (key, _) => if joinOk va (homeRead s key 256) then reportFirst s a (areasOf va (homeRead s key 256)) else s

/-- A strand's copies of a record and its participant table go home first. -/
def pushRecord (s : State) (k va : Nat) : State :=
  let a := strandActor s k
  let s := pushRuns s a.core (runsOf s a.core a.ctx a.desc va 256)
  match homeLoc s a va 256 .read with
  | .ok key =>
      pushRuns s a.core (runsOf s a.core a.ctx a.desc (recField s key 256 57) (16 * recField s key 46 7))
  | _ => s

/-- Zero the DEV fields of the participant entries from `p` on. -/
def clearEntries (s : State) (j : JoinInst) : Nat → Nat → State
  | 0, _ => s
  | n + 1, p => clearEntries (meetWrite s (areaLoc j (swField j 256 57 + 16 * p + 8)) 8 0) j n (p + 1)

/-- The step at the home that opens an instance. -/
def openJoin (s : State) (j : JoinInst) : State :=
  let w := j.weights.sum
  let s := meetWrite (meetWrite s (j.key + 24) 8 0) (j.key + 88) 80 0
  let s := putRec (putRec s j.key 62 2 1) j.key 58 4 0
  let s := meetWrite (meetWrite s (j.key + 120) 8 (homeTime s j.key)) (j.key + 164) 4 w
  let s := clearEntries s j (jN j) 0
  let s := zeroArea s j (16 * jN j * jNE j / 4096 + 2) (swField j 384 57) (16 * jN j * jNE j)
  let s := zeroArea s j (16 * jNE j / 4096 + 2) (swField j 320 57) (16 * jNE j)
  { s with joins := (s.joins.filter fun i => i.key != j.key) ++ [j], joinNo := s.joinNo + 1 }

/-! ### Entering (spec/15 R295) -/

/-- The instance that a join instruction of a party finds at a record: the tracked one; else one over the bytes of a record whose STATE reads OPEN, which the home then tracks (spec/15
R292, R293; log 55). A record that reads OPEN but whose areas do not map, or whose weights are wrong, is no instance (log 99). -/
def findInst (s : State) (a : Actor) (key va : Nat) : Option (JoinInst × State) :=
  match instAt s key with
  | some j => some (j, s)
  | none =>
      let r := homeRead s key 256
      if bits r 62 2 ≠ 1 then none
      else
        (mapAreas s a key va r).bind fun pages =>
          let j := recordInst s a key va r pages
          (readWeights s j (swField j 256 57) (jN j)).map fun ws =>
            let j := { j with weights := ws }
            (j, { s with joins := s.joins ++ [j], joinNo := s.joinNo + 1 })

/-- What the search for an instance at an untracked record whose STATE reads OPEN meets in the translations of its areas. -/
def reportFind (s : State) (a : Actor) (key va : Nat) : State :=
  if (instAt s key).isNone && recField s key 62 2 == 1 then reportFirst s a (areasOf va (homeRead s key 256)) else s

/-- Register a participant: the reason of a join fault, or the state. -/
def enterJoin (s : State) (a : Actor) (key p : Nat) (who : Party) (pk ident : Nat) (va : Word) : Except Nat State :=
  match findInst s a key va.toNat with
  | none => .error 1
  | some (j, s) =>
      if j.state ≠ 1 then .error 1
      else if jN j ≤ p ∨ bitOf (recField s key 704 64) p then .error 2
      else
        let s := putRec s key (704 + p) 1 1
        let s := meetWrite s (areaLoc j (swField j 256 57 + 16 * p + 8)) 8 (ident % 2 ^ 57 + pk * 2 ^ 62)
        .ok (setInst s { j with regs := j.regs ++ [⟨p, who, va⟩] })

/-! ### Contributing (spec/15 R296) -/

/-- floor(v * 2^-xs) for a finite value. -/
def floorUnits (neg : Bool) (m : Nat) (e xs : Int) : Int :=
  let n : Int := if neg then -(m : Int) else m
  if xs ≤ e then n * 2 ^ (e - xs).toNat else n / 2 ^ (xs - e).toNat

/-- One lane added to a staging element: the new element, and whether it was clamped. -/
def addLane (b xs : Int) (v : Val) : Int × Bool :=
  if b = nanElem then (b, false)
  else
    match v with
    | .fin neg m e =>
        let t := b + floorUnits neg m e xs
        let lim : Int := 2 ^ 95 - 1
        if lim < t then (lim, true) else if t < -lim then (-lim, true) else (t, false)
    | _ => (nanElem, false)

/-- Add lanes, given as element and value, to a participant's staging. -/
def addLanes (j : JoinInst) (p : Nat) : List (Nat × Val) → State → State
  | [], s => s
  | (e, v) :: r, s =>
      let x := addLane (readElem s j (stagingVa j p e)) (jXS j) v
      let s := writeElem s j (stagingVa j p e) x.1
      addLanes j p r (if x.2 then putRec s j.key 58 1 1 else s)

/-! ### Release (spec/15 R300, R301) -/

/-- Is a quorum in the units of Q met (spec/15 R298)? -/
def quorumMet (s : State) (j : JoinInst) (q : Nat) : Bool :=
  if swField j 55 1 = 0 then decide (q ≤ recField s j.key 1224 7)
  else decide (q * recField s j.key 1312 32 ≤ 65536 * recField s j.key 1280 32)

/-- A rational `n * 2^e / d` rounded to FP32, ties to even; an exact zero gives +0 (spec/15 R301). The quotient keeps 64 bits beyond
the format and a sticky bit, so one rounding of it is the rounding of the exact value. -/
def ratF32 (n : Int) (e : Int) (d : Nat) : Nat :=
  if n = 0 then 0
  else
    let k := d.log2 + 64
    let m := n.natAbs * 2 ^ k
    roundF fmtF32 (n < 0) (2 * (m / d) + bnat (m % d != 0)) (e - k - 1)

/-- The filled value of an element (spec/15 R301): committed C, the substitute where one is read. -/
def fillValue (j : JoinInst) (c : Int) (wtot warr : Nat) (sub : Option Nat) : Nat :=
  let e := jXS j - 16
  if c = nanElem then fmtF32.nan
  else
    match swField j 56 2 with
    | 1 => if warr = 0 then fmtF32.nan else ratF32 (c * wtot) e warr
    | 2 =>
        if wtot - warr = 0 then ratF32 c e 1
        else
          match sub.map (decodeF fmtF32) with
          | some (.fin neg m x) =>
              let v := addV (ofInt c e) (ofInt ((if neg then -(m : Int) else m) * ((wtot - warr : Nat) : Int)) (x - 16))
              match v with
              | .fin n q y => if q = 0 then 0 else roundF fmtF32 n q y
              | _ => fmtF32.nan
          | some (.inf neg) => fmtF32.inf + if neg then fmtF32.sign else 0
          | _ => fmtF32.nan
    | _ => ratF32 c e 1

/-- The substitute of an element read at the release; none where it does not translate. -/
def substitute (s : State) (j : JoinInst) (e : Nat) : Option Nat :=
  match homeLoc s (engineActor 0 j.ctx j.desc) (swField j 512 57 + 4 * e) 4 .read with
  | .ok l => some (homeRead s l 4)
  | _ => none

/-- Step 3 of R300 for the elements from `e` on: the values written to the result array, with the substitutes read before. -/
def fillResult (j : JoinInst) (wtot warr : Nat) (failed : Bool) : List (Option Nat) → Nat → State → State
  | [], _, s => s
  | sub :: r, e, s =>
    let v := if failed then fmtF32.nan else fillValue j (readElem s j (targetVa j e)) wtot warr sub
    fillResult j wtot warr failed r (e + 1) (meetWrite s (areaLoc j (swField j 448 57 + 4 * e)) 4 v)

/-- The release status word of `JWAIT` (spec/15 R303). -/
def statusWord (s : State) (key : Nat) : Word :=
  let narr := recField s key 1224 7
  BitVec.ofNat 64 (recField s key 59 3 + 8 * recField s key 58 1 + 16 * bnat (narr == 0) + narr * 2 ^ 8)

/-- Retract the staging of every participant that has not arrived. -/
def retract (j : JoinInst) (arrived : Nat) : Nat → Nat → State → State
  | 0, _, s => s
  | n + 1, p, s => retract j arrived n (p + 1) (if bitOf arrived p then s else zeroStaging s j p)

/-- Has a command not completed? -/
def commandLives (s : State) (cl : Nat) (k : Option Nat) (ticket : Nat) : Bool :=
  (getCluster s cl).copies.any fun q => cmdParty cl q == .copy cl k ticket

/-- The release of an OPEN instance with a status, in the order of R300. Kills and the arrival at a parent carry a time above the cause's and the record's (spec/21 R355, R356). -/
def releaseJoin (s : State) (key rstat floor : Nat) : State :=
  match instAt s key with
  | none => s
  | some j =>
      let s := setInst (putRec (putRec s key 62 2 2) key 59 3 rstat) { j with state := 2 }
      let arrived := recField s key 768 64
      let s := retract j arrived (jN j) 0 s
      let wtot := recField s key 1312 32
      let warr := recField s key 1280 32
      let needs := swField j 56 2 == 2 && wtot != warr && rstat != 3
      let subs := (upFrom 0 (jNE j)).map fun e => if needs then substitute s j e else none
      let s := if needs && subs.any Option.isNone then reportLoc s key else s
      let s := fillResult j wtot warr (rstat == 3) subs 0 s
      let killed := recField s key 704 64 &&& (arrived ^^^ (2 ^ 64 - 1))
      let late := j.regs.filter fun r => bitOf killed r.pid && (match r.who with
        | .copy cl k t => commandLives s cl k t
        | _ => true)
      let s := putRec s key 832 64 killed
      let time := max (max (homeTime s key) floor) (mget 0 s.srcStamp (srcUnit (unitOfLoc key)))
      let kpc := if swField j 54 1 = 0 then some (BitVec.ofNat 64 (swField j 576 57)) else none
      let s := { s with kills := s.kills ++ late.map fun r => ⟨r.who, r.va, r.pid, kpc, time⟩ }
      let st := statusWord s key
      let s := foldUnits (fun s k => serveWait s k st) (waitersFor s fun _ w => w.what == .join key) s
      let stall := recField s key 192 64
      let tsum := recField s key 1152 64
      let s := emitBoth s ⟨0x22, srcUnit (unitOfLoc key), dieOfLoc key, floor,
        [j.va.toNat, rstat + recField s key 1224 7 * 2 ^ 8 + recField s key 1216 6 * 2 ^ 16 + tsum / 2 ^ 63 * 2 ^ 24
          + stall / 2 ^ 63 * 2 ^ 25, recField s key 1024 64, recField s key 1088 64, tsum, stall], none, j.ctx⟩ j.tenant (trcOf j.desc)
      if swField j 640 57 ≠ 0 ∧ rstat ≠ 3 then
        let vals := (upFrom 0 (jNE j)).map fun e => BitVec.ofNat 32 (homeRead s (areaLoc j (swField j 448 57 + 4 * e)) 4)
        { s with childArr := s.childArr ++ [⟨j.pkey, j.pnum, swField j 697 6, vals, time⟩] }
      else s

/-! ### Arriving (spec/15 R297, R298) -/

/-- Merge a participant's staging into the committed sum, element by element. -/
def mergeStaging (j : JoinInst) (p wt : Nat) : Nat → Nat → State → State
  | 0, _, s => s
  | n + 1, e, s =>
    let b := readElem s j (stagingVa j p e)
    let c := readElem s j (targetVa j e)
    let s := writeElem s j (targetVa j e) (if b = nanElem ∨ c = nanElem then nanElem else c + wt * b)
    mergeStaging j p wt n (e + 1) (writeElem s j (stagingVa j p e) 0)

/-- An arrival of a registered participant, performed at the home: was it accepted, and the state. -/
def arriveJoin (s : State) (key p : Nat) (who : Party) (floor : Nat) : Bool × State :=
  match registeredAt s key p who with
  | none => (false, s)
  | some j =>
      if j.state = 1 ∧ !bitOf (recField s key 768 64) p then
        let t := homeTime s key
        let wt := j.weights.getD p 0
        let s := mergeStaging j p wt (jNE j) 0 s
        let s := putRec s key (768 + p) 1 1
        let s := putRec s key 1280 32 (recField s key 1280 32 + wt)
        let s := putRec s key 1224 7 (recField s key 1224 7 + 1)
        let s := if recField s key 1224 7 = 1 then putRec s key 1024 64 t else s
        let s := putRec (putRec s key 1088 64 t) key 1216 6 p
        let s := putRec s key 1152 64 (recField s key 1152 64 + (t - recField s key 960 64))
        (true, if quorumMet s j (swField j 64 17) then releaseJoin s key 1 floor else s)
      else (false, zeroStaging (putRec s key (896 + p) 1 1) j p)

/-- The release by the deadline rule: with one status where QMIN is met, else FAILED (spec/15 R293). -/
def releaseByQmin (s : State) (key rstat floor : Nat) : State :=
  match instAt s key with
  | none => s
  | some j => releaseJoin s key (if quorumMet s j (swField j 96 17) then rstat else 3) floor

/-- Has the effective deadline passed (spec/15 R299)? -/
def deadlinePassed (s : State) (j : JoinInst) : Bool :=
  let dl := swField j 128 63
  j.state == 1 && dl != 0 && decide (dl + (if swField j 53 1 = 1 then recField s j.key 192 64 else 0) ≤ homeTime s j.key)

/-! ### Waiting (spec/15 R303, spec/13 R267) -/

/-- Drop a waiter's copies of a record and of its contribution target. -/
def dropJoinCopies (s : State) (k : Nat) (va key : Nat) : State :=
  let a := strandActor s k
  let ne := recField s key 35 11
  match instAt s key with
  | some j =>
      let lines (b n : Nat) : List (Nat × Nat) := (upFrom 0 (n / 128 + 2)).map fun i => (areaLoc j (b + min (128 * i) (n - 1)), 1)
      dropRuns s a.core ((key, 256) :: (lines (swField j 320 57) (16 * jNE j) ++ lines (swField j 448 57) (4 * jNE j)))
  | none =>
      let runs := runsOf s a.core a.ctx a.desc (recField s key 320 57) (16 * ne) ++ runsOf s a.core a.ctx a.desc (recField s key 448 57) (4 * ne)
      dropRuns s a.core ((key, 256) :: (runs ++ runsOf s a.core a.ctx a.desc va 0))

/-- Location of a join record for a strand (spec/15 R292); the home may defer the request. -/
def recordLoc (s : State) (k va : Nat) : Acc Nat :=
  if va % 256 ≠ 0 then .fault 9 va
  else
    match homeLoc s (strandActor s k) va 256 .read with
    | .ok key => if joinDefers s key || !mayAsk s (askJoin key) joinAny then .wait none else .ok key
    | .fault c t => .fault c t
    | .wait b => .wait b

end Sys2Proof.Machine
end

