-- ==== Sys2Proof/Machine/Stop.lean ====
section
/-!
DEFINITION. How a strand stops, leaves a long instruction, and takes a kill (spec/05 R112, R115, spec/15 R304, R305, spec/03 R54, spec/09
R212).
-/
namespace Sys2Proof.Machine

/-- The top-k streams of a strand are freed (spec/09 R212). -/
def freeStreams (s : State) (k : Nat) : State :=
  modCluster s (clusterOf k) fun c => { c with streams := c.streams.filter fun e => e.2.owner != k }

/-- What `END` does beside its trace record: the strand stops for good in this launch. -/
def stopStrand (s : State) (k : Nat) : State :=
  let s := (endTask s k false).2
  let s := freeStreams (releaseLatch s k) k
  modStrand s k fun x =>
    { putStatus x 5 false with
      run := .stopped, loops := [], shadow := [], rbuf := [], rbufOver := false, rbufOk := false, kills := [], wait := none, long := none }

/-- The pending kill that names a strand's participation; every other one is discarded at the check (spec/15 R304). -/
def matchingKill (x : Strand) : Option PendKill :=
  if x.jslot.getLsbD 63 then
    x.kills.find? fun p => p.pid == bits x.jslot.toNat 57 6 && p.record.toNat % 2 ^ 57 == bits x.jslot.toNat 8 49 * 256
  else none

/-- The check of a kill point at task level: a matching kill is taken (spec/15 R305), else the pending ones are discarded. -/
def takeKill (s : State) (k : Nat) : State :=
  match matchingKill (getStrand s k) with
  | none => modStrand s k fun x => { putStatus x 5 false with kills := [] }
  | some p =>
      let pc := (getStrand s k).pc
      let s := releaseLatch (leaveLong (killWait s k) k) k
      let s := raiseFloor s k p.time
      let s := modStrand s k fun x =>
        { putStatus x 5 false with kills := [], jslot := 0, resume := 0, loops := [], shadow := [], rbuf := [], rbufOver := false, rbufOk := false }
      let s := emitStrand s k 0x12 [p.record.toNat, p.pid + 2 ^ 8 * bnat p.kpc.isNone, pc.toNat]
      match p.kpc with
      | some h =>
          modStrand s k fun x => { setS (setS x 3 p.record) 4 (BitVec.ofNat 64 p.pid) with pc := h &&& ~~~ 3#64 }
      | none => stopStrand s k

/-- May a kill point take a kill: the strand's table requests and loads have written their registers (spec/07 R164), and what the task that a retiring kill ends has stored has
landed (spec/14 R275)? -/
def killReady (s : State) (k : Nat) : Bool :=
  let x := getStrand s k
  x.vtabQ.isEmpty && (x.inflight.all fun f => f.load.isNone) && ((matchingKill x).all (fun p => p.kpc.isSome) || allLanded s k)

/-- A kill point takes a kill once it may. -/
def tryKill (s : State) (k : Nat) : State := if killReady s k then takeKill s k else s

/-- Is a kill pending that a kill point of the strand would check (spec/04 R75)? -/
def killDue (x : Strand) : Bool := stKillp x && !stPriv x

end Sys2Proof.Machine
end

