-- ==== Sys2Proof/Machine/Issue.lean ====
section
/-!
DEFINITION. Issue and completion of one instruction of the strand `cur`: the checks of R79 after decoding, the SET counter, and what follows from
the result of its body (spec/04 R73-R75, R79; spec/05 R108, R109; spec/07 R164; spec/09 R227).
-/
namespace Sys2Proof.Machine

/-- What the body of an instruction answers. -/
inductive Res where
  /-- It completes; its result is then in flight. -/
  | done (s : State)
  /-- It completes and its SET counter lands at issue. -/
  | landed (s : State)
  /-- It completes by a transfer of control; the flag says whether loops are popped (spec/05 R109). -/
  | jump (s : State) (target : Word) (pops : Bool)
  /-- It completes; another unit will land its result. -/
  | queued (s : State)
  /-- A LOOP has been pushed. -/
  | enter (s : State)
  /-- A LOOP of no trips: the next address is the one given. -/
  | skip (s : State) (next : Word)
  /-- It completes and control goes where the state says. -/
  | goes (s : State)
  /-- A precise trap. -/
  | trap (cause tval : Nat)
  /-- A trap with EPC = the instruction that keeps what the state says was done. -/
  | trapPart (s : State) (cause tval : Nat)
  /-- A trap taken after completion, with EPC = the next instruction. -/
  | trapAfter (s : State) (cause tval : Nat)
  /-- The device that its request is bound for cannot be reached: cause 0x0E at the address (spec/22 R374). -/
  | lost (s : State) (tval : Nat)
  /-- It does not issue yet, or goes on as it stands. -/
  | hold
  /-- It does not issue yet: the vector bank of a core that its access reaches wakes (spec/01 R25). -/
  | asleep (core : Nat)
  /-- It has issued and waits; or it waits to issue, and nothing of it has happened yet. -/
  | wait (s : State) (w : Wait)
  /-- A long instruction has begun. -/
  | start (s : State)
  /-- The strand stops. -/
  | stop (s : State)
  deriving DecidableEq, Repr

/-! ### Checks before issue -/

/-- The system-only forms (spec/04 R81). -/
def systemOnly (i : Instr) : Bool :=
  match i with
  | .tret .. | .tlbinvAll .. | .tlbinvPg .. | .slotwMat .. | .slotwCpy .. | .slotwTku .. => true
  | _ => false

/-- The first register an instruction names that is unavailable, as class times 32 plus number (spec/04 R79; log 12). -/
def unavailable (s : State) (k : Nat) (i : Instr) : Option Nat :=
  let y := getCore s (coreOf k)
  let v := if y.vmode = 2 then (vecRegs i).find? fun r => 16 ≤ r.toNat else none
  match v with
  | some r => some (32 + r.toNat)
  | none => ((tileRegs i).find? fun a => tileCount y ≤ a.toNat).map fun a => 160 + a.toNat

/-- Does a strand hold a trace record (spec/21 R352)? -/
def heldBack (s : State) (k : Nat) : Bool := s.recs.any fun r => r.strand == some k && r.held

/-- Is every counter named in WAIT zero? -/
def countersClear (x : Strand) (c : Common) : Bool :=
  (upFrom 0 6).all fun j => !c.wait.getLsbD j || getD x j == 0

/-- Does a request of the table unit still have to write a register the instruction names (spec/04 R13)? -/
def vtabBlocks (x : Strand) (i : Instr) : Bool := x.vtabQ.any fun q => (vecRegs i).contains q.dst

/-- Does a load that is not performed still have to write a register the instruction names (spec/01 R13)? -/
def loadBlocks (x : Strand) (i : Instr) : Bool :=
  x.inflight.any fun f => f.load.any fun p =>
    if p.vec then (vecRegs i).any fun r => r.toNat == p.dst else (scaRegs i).any fun r => r.toNat == p.dst

/-- Does an operand of an instruction still have to be written? -/
def operandsBlock (x : Strand) (i : Instr) : Bool := vtabBlocks x i || loadBlocks x i

/-- Is the bank that the instruction names in retention (spec/01 R25)? -/
def bankAsleep (s : State) (k : Nat) (i : Instr) : Bool := namesBank i && bankSleeps s (coreOf k)

/-- The guard of an instruction (spec/04 R73). -/
def guardOf (x : Strand) (c : Common) : Bool := getG x c.gp != c.neg

/-- Is the SET counter at its limit (spec/01 R16)? -/
def counterFull (x : Strand) (c : Common) : Bool := c.set != 7 && getD x c.set.toNat == 63

/-! ### Completion -/

/-- The end test of R108: the loop stack and the next address. -/
def endTest (next : Word) : List LoopEntry → List LoopEntry × Word
  | [] => ([], next)
  | e :: r =>
    if next = e.stop then
      if e.left = 1 then endTest next r else ({ e with left := e.left - 1, pass := e.pass + 1 } :: r, e.top)
    else (e :: r, next)

/-- Loops that a transfer leaves (spec/05 R109). -/
def popLoops (target : Word) : List LoopEntry → List LoopEntry
  | [] => []
  | e :: r => if e.top.toNat ≤ target.toNat ∧ target.toNat < e.stop.toNat then e :: r else popLoops target r

/-- Replace the loop stack; the repetition buffer is emptied when the top entry changes (spec/05 R111). -/
def putLoops (x : Strand) (l : List LoopEntry) : Strand :=
  if l.length = x.loops.length then { x with loops := l } else { x with loops := l, rbuf := [], rbufOver := false, rbufOk := false }

/-- Completion without a transfer. -/
def advance (x : Strand) (next : Word) : Strand :=
  let r := endTest next x.loops
  { putLoops x r.1 with pc := r.2 }

/-- Can an instruction add to NANCNT (spec/02 R47)? -/
def addsNan (i : Instr) : Bool :=
  match i with
  | .wld .. | .mma .. | .mmaG .. | .walki .. | .walk .. | .accrd .. | .vpack .. | .vstrm .. => true
  | _ => false

/-- The instruction's result is in flight (spec/04 R74, spec/06 R126). -/
def inFlight (x : Strand) (i : Instr) (ctr : BitVec 3) : Strand :=
  { x with
    inflight := if ctr = 7 ∧ x.wrote = [] ∧ x.carved = false then x.inflight
      else x.inflight ++ [⟨ctr, x.wrote, x.carved, namesBank i, addsNan i, none⟩]
    wrote := [], carved := false, wait := none }

/-- Length of an instruction in bytes. -/
def lenWord (c : Common) : Word := BitVec.ofNat 64 c.len.bytes

/-- Increment of the SET counter, in a strand. -/
def setUp (x : Strand) (c : Common) : Strand := if c.set = 7 then x else setD x c.set.toNat (getD x c.set.toNat + 1)
def setDown (x : Strand) (c : Common) : Strand := if c.set = 7 then x else setD x c.set.toNat (getD x c.set.toNat - 1)

/-- A strand that meets an uncorrected error at a global address reports it (spec/22 R379). -/
def reportAt (s : State) (k va : Nat) : State :=
  match findLeaf s (coreOf k) (stCtx (getStrand s k)) (getCore s (coreOf k)).desc va with
  | some e => reportLoc s (leafLoc s e.leaf.toNat e.size va)
  | none => s

/-- Trap entry of a strand; it waits until the strand's table requests have completed (spec/07 R164): until then the instruction has had
no effect. -/
def trapOr (s0 s : State) (k cause tval : Nat) (epc : Word) : State :=
  if (getStrand s0 k).vtabQ = [] then
    enterTrap (if cause = 0xE then reportAt s k tval
      else if cause = 6 ∨ cause = 5 then reportWalk s (coreOf k) (stCtx (getStrand s k)) (getCore s (coreOf k)).desc tval
      else s) k (BitVec.ofNat 64 cause) (BitVec.ofNat 64 tval) epc
  else s0

/-- Has the strand an instruction that has issued and waits? -/
def waitIssued (x : Strand) : Bool :=
  match x.wait with
  | some w => hasIssued w.what
  | none => false

/-- Does a wait end for an interrupt or a kill (spec/09 R202-R209, R226)? -/
def breakable (w : Wait) : Bool := w.served.isNone && w.what != .remote && (match w.what, w.i with
  | .away _, .acq .. | .away _, .send .. => true
  | .away _, _ => false
  | _, _ => true)

/-- The issue of an instruction by the strand `cur`, noted by its core: its place in the core issue order (spec/01 R13), and the use that it makes of the vector
bank (R25). -/
def noteIssue (i : Instr) (s : State) : State :=
  let s := if namesBank i then touchBank s (coreOf s.cur) else s
  modCore s (coreOf s.cur) fun y => { y with issueNo := y.issueNo + 1, lastIssued := strandNo s.cur, issuedAt := s.cycle + 1 }

/-- The state before issue with the issue noted, by the core and in the SET counter. -/
def opened (i : Instr) (c : Common) (s : State) : State :=
  if waitIssued (me s) then s else modMe (noteIssue i s) fun x => setUp x c

/-- What follows from a body's answer; `s0` is the state before issue. -/
def settle (i : Instr) (c : Common) (s0 : State) (r : Res) : State :=
  let pc := (me s0).pc
  let next := pc + lenWord c
  match r with
  | .done s => modMe s fun x => advance (inFlight x i c.set) next
  | .landed s => modMe s fun x => advance (setDown (inFlight x i 7) c) next
  | .queued s => modMe s fun x => advance (inFlight x i 7) next
  | .jump s t pops =>
      modMe s fun x =>
        let x := inFlight x i c.set
        let t := t &&& ~~~ 3#64
        { (if pops then putLoops x (popLoops t x.loops) else x) with pc := t }
  | .enter s => modMe s fun x => { setDown (inFlight x i 7) c with pc := next }
  | .skip s n => modMe s fun x => advance (setDown (inFlight x i 7) c) n
  | .goes s => modMe s fun x => inFlight x i c.set
  | .trap cause tv => trapOr s0 (modMe s0 fun x => if waitIssued x then setDown x c else x) s0.cur cause tv pc
  | .trapPart s cause tv => trapOr s0 (modMe s fun x => setDown (inFlight x i 7) c) s0.cur cause tv pc
  | .trapAfter s cause tv => trapOr s0 (modMe s fun x => inFlight x i c.set) s0.cur cause tv next
  | .lost s tv =>
      if (me s0).vtabQ = [] then enterTrap (reportCascade (modMe s0 fun x => if waitIssued x then setDown x c else x) tv) s.cur 0xE (BitVec.ofNat 64 tv) pc else s0
  | .hold => s0
  | .asleep b => wakeBank s0 (some b)
  | .wait s w =>
      if hasIssued w.what then modMe s fun x => { x with wait := some w, wrote := [], carved := false }
      else modMe s0 fun x => { x with wait := some w }
  | .start s => modMe s fun x => { inFlight x i 7 with wait := none }
  | .stop s => if (me s0).vtabQ = [] ∧ (me s0).inflight = [] ∧ !hasReduction s0 s0.cur then modMe s fun x => setDown x c else s0

/-- May a strand go on: it runs, its cluster is not halted or steps it, and no trace record holds it (spec/21 R352, R358, R361)? In the cycle in which one strand meets
a `BKPT` the others still issue (R359). -/
def mayRun (s : State) (k : Nat) : Bool :=
  let d := (getCluster s (clusterOf k)).dm
  (getStrand s k).run == .running && (!d.halted || d.stepping == some k || (d.cause == 3 && d.haltedAt == s.cycle + 1)) && !heldBack s k

/-- A strand that a record holds notes its stall in a cycle in which it would issue otherwise (spec/21 R352). -/
def stallHere (i : Instr) (c : Common) (s : State) : State :=
  let x := me s
  if x.long.isNone && countersClear x c && !operandsBlock x i && decide (x.notBefore ≤ s.cycle) then noteStall s fun r => r.strand == some s.cur else s

/-- The checks from the privilege check to the SET counter: the state where one of them holds the instruction, none where it issues. That an instruction with a false guard which
names the bank v16 to v31 waits for its wake, and counts as a use of it, is the model's choice (spec/01 R25; log 59). -/
def gate (i : Instr) (c : Common) (s : State) : Option State :=
  let x := me s
  let k := s.cur
  match x.wait with
  | some w =>
      if breakable w && killDue x && mayRun s k then some (tryKill s k)
      else if hasIssued w.what then none
      else if heldBack s k then some (stallHere i c s)
      else if !mayRun s k || !countersClear x c || operandsBlock x i || counterFull x c then some s
      else none
  | none =>
      if heldBack s k then some (stallHere i c s)
      else
      if systemOnly i && !stPriv x then some (trapOr s s k 4 (firstWord i) x.pc)
      else
        match unavailable s k i with
        | some n => some (trapOr s s k 3 n x.pc)
        | none =>
            if c.kpt && killDue x then some (tryKill s k)
            else if !countersClear x c || operandsBlock x i || decide (s.cycle < x.notBefore) then some s
            else if bankAsleep s k i then
              some (wakeBank s (some (coreOf k)))
            else if !guardOf x c then some (modMe (noteIssue i s) fun x => advance x (x.pc + lenWord c))
            else if counterFull x c then some s
            else none

/-- An instruction of the strand `cur`, given what its body does once it has issued. -/
def issue (i : Instr) (c : Common) (s : State) (body : State → Res) : Host.Outcome State Fault Refusal :=
  match gate i c s with
  | some t => .next t
  | none => .next (settle i c s (body (opened i c s)))

/-- A body that changes the strand alone. -/
def onMe (s : State) (f : Strand → Strand) : Res := .done (modMe s f)

/-- The answer of a body that makes an access. -/
def ofAcc {α : Type} (a : Acc α) (f : α → Res) : Res :=
  match a with
  | .ok v => f v
  | .fault c t => .trap c t
  | .wait none => .hold
  | .wait (some b) => .asleep b

/-! ### Long instructions (spec/07 R167, R168, spec/08 R175-R193) -/

/-- Does a long instruction keep its progress in RESUME? `WLD` is one step and has none (spec/08 R172). -/
def resumable (i : Instr) : Bool :=
  match i with
  | .wld .. => false
  | _ => true

/-- Is a long instruction at one of its boundaries, where an interrupt, a kill or the quiesce may leave it (spec/03 R54, spec/07 R167, spec/08 R172, R177, R179, R192)? -/
def atBoundary (l : Long) : Bool :=
  match l.i with
  | .wld .. => false
  | .mmaG .. => l.round == 0
  | .walki .. | .walk .. => l.prog.isNone && l.round != 0
  | _ => true

/-- A long instruction completes: RESUME is zero, its result is in flight and control goes on. -/
def finishLong (s : State) (k : Nat) (l : Long) : State :=
  modStrand s k fun x =>
    match l.i.common with
    | some c => advance (inFlight { x with long := none, resume := if resumable l.i then 0 else x.resume } l.i c.set) (x.pc + lenWord c)
    | none => x

/-- A long instruction stops at a boundary with a fault: its SET increment is withdrawn and RESUME stays (spec/04 R74); `s0` is the state in which the trap still waits. -/
def faultFrom (s0 s : State) (k cause tval : Nat) : State := trapOr s0 (leaveLong s k) k cause tval (getStrand s k).pc
def faultLong (s : State) (k cause tval : Nat) : State := faultFrom s s k cause tval

/-! ### Interrupts (spec/09 R226) -/

/-- The line that a strand would take: the lowest pending one while IE = 1. -/
def irqLine (x : Strand) : Option Nat := if stIE x then (upFrom 0 3).find? x.irq.getLsbD else none

/-- Is a strand inside an instruction at a point where an interrupt is taken? -/
def insideIrqPoint (x : Strand) : Bool :=
  match x.wait, x.long with
  | some w, _ => breakable w
  | none, some l => atBoundary l
  | none, none => true

/-- A line is taken: the wait or the long instruction is left, and trap entry follows. -/
def takeIrq (s : State) (k line : Nat) : State :=
  let s := leaveLong (abandonWait s k) k
  let s := modStrand s k fun x => { x with irq := x.irq &&& ~~~ (1#3 <<< line) }
  enterTrap s k (BitVec.ofNat 64 (2 ^ 63 + line)) 0 (getStrand s k).pc

/-- Does a kill come before an interrupt: at a wait or a boundary with a kill due? -/
def killFirst (x : Strand) : Bool := killDue x && (x.wait.isSome || x.long.isSome)

/-- What stops a strand at a boundary of its long instruction: a kill that is due, which comes first, else a pending interrupt (spec/04 R75, spec/08 R177, R179, R192); none where neither
is due. An interrupt waits for the strand's table requests (spec/07 R164). -/
def leavePoint (s : State) (k : Nat) : Option State :=
  let x := getStrand s k
  if killDue x then some (tryKill s k) else (irqLine x).map fun line => if x.vtabQ.isEmpty then takeIrq s k line else s

end Sys2Proof.Machine
end

