-- ==== Sys2Proof/Machine/Mem.lean ====
section
/-!
DEFINITION. The memory instructions (spec/06 R117-R133).
-/
namespace Sys2Proof.Machine

/-- The party of the strand `cur`. -/
def self (s : State) : Actor := strandActor s s.cur

/-- Effective address of a scalar base and a signed offset (spec/06 R117). -/
def eaOf (s : State) (sa : SReg) (o : BitVec 32) : Nat := effAddr (getS (me s) sa) (immWord o)

/-! ### LD and ST (spec/06 R124) -/

/-- Where a load that is performed later finds a lane; none for the control space, and for the addresses of registers and accumulators, where R21 orders it with the
instructions that name them. -/
def laterLoc (s : State) (l : Loc) : Option LaneLoc :=
  match l with
  | .glob key _ => some (.glob key)
  | .pool c off => if carveBase (getCore s c) ≤ off then some (.pool c off) else none
  | .carve c off => some (.pool c off)
  | .ctl _ => none

/-- The lanes of a load that is performed later, given by number, address and location; none where one of them cannot be. -/
def laterLanes (s : State) : List (Nat × Nat × Loc) → Option (List LoadLane)
  | [] => some []
  | (j, va, l) :: r =>
    match laterLoc s l, laterLanes s r with
    | some p, some ls => some (⟨j, va, p⟩ :: ls)
    | _, _ => none

/-- The issue of such a load keeps the translation of a lane, and counts one of another core's pool as sent (spec/20 R337). -/
def sendLane (s : State) (a : Actor) (l : Loc) : State :=
  match l with
  | .glob _ e => keepTlb s a.core e
  | .pool t _ => if t = a.core then s else countOut s a.core
  | .carve .. => noteCarved s a
  | .ctl _ => s

/-- A load that the step defers is in flight until it is performed (spec/13 R258; log 7). -/
def putLoad (s : State) (c : Common) (i : Instr) (p : PendLoad) : Res :=
  .queued (modMe s fun x => { x with inflight := x.inflight ++ [⟨c.set, [], x.carved, namesBank i, false, some p⟩], carved := false })

/-- The load of lanes at their locations: performed at once, or deferred where the step says so and every lane can be. -/
def loadOrDefer (s : State) (c : Common) (i : Instr) (p : PendLoad) (ls : List (Nat × Nat × Loc)) (now : Res) : Res :=
  if s.late && !ls.isEmpty then
    match laterLanes s ls with
    | some ks =>
        putLoad (ls.foldl (fun t l => sendLane t (self s) l.2.2) s) c i { p with lanes := ks, ctx := stCtx (me s), no := (myCore s).issueNo }
    | none => now
  else now

def execLd (c : Common) (t : Ty) (as : Space) (d a : SReg) (o : BitVec 32) (s : State) : Host.Outcome State Fault Refusal :=
  issue (.ld c t as d a o) c s fun s =>
    let n := elemBytes t
    ofAcc (locate s (self s) as (eaOf s a o) n n .read) fun l =>
      let r := loadLoc s (self s) l n
      loadOrDefer s c (.ld c t as d a o) ⟨false, d.toNat, t, 0, false, [], 0, 0⟩ [(0, eaOf s a o, l)] (onMe r.2 fun x => setS x d (extend t r.1))

def execSt (c : Common) (t : Ty) (as : Space) (d a : SReg) (o : BitVec 32) (s : State) : Host.Outcome State Fault Refusal :=
  issue (.st c t as d a o) c s fun s =>
    ofAcc (storeElem s (self s) as (eaOf s a o) (elemBytes t) (bits (getS (me s) d).toNat 0 t.width)) .done

/-! ### LDV and STV (spec/06 R118, R121, R125) -/

/-- Does one descriptor of each target core, whose context is not saved (spec/20 R336), cover every lane that lies in its pool? -/
def lanesAdmitted (s : State) (a : Actor) (as : Space) (ea b : Nat) (k : AccKind) (l : List Nat) : Bool :=
  as != .clus ||
  l.all fun j =>
    let t := clusCore a (ea + j * b)
    t == a.core || !((getCore s t).owner.any fun x => (getCtx s x).saved) && (upFrom 0 4).any fun i =>
      (l.filter fun q => clusCore a (ea + q * b) == t).all fun q =>
        windowAdmits (mget 0 (getCore s t).pwin i) (a.core % 64) ((ea + q * b) % 0x100000) b k

/-- Locations of the lanes of a list, in order; the first failing lane is the answer. -/
def laneLocs (s : State) (a : Actor) (as : Space) (ea b : Nat) (k : AccKind) : List Nat → Acc (List (Nat × Loc))
  | [] => .ok []
  | j :: r =>
    match locateIn false s a as (ea + j * b) b b k with
    | .ok l =>
        match laneLocs s a as ea b k r with
        | .ok ls => .ok ((j, l) :: ls)
        | .fault c t => .fault c t
        | .wait b => .wait b
    | .fault c t => .fault c t
    | .wait b => .wait b

/-- The first failure of alignment, range or translation among the lanes of a list. -/
def lanesFault (s : State) (a : Actor) (as : Space) (ea b : Nat) (k : AccKind) (l : List Nat) : Option (Nat × Nat) :=
  l.findSome? fun j => placeFault s a as (ea + j * b) b b k

/-- The checks of R125 over the enabled lanes: alignment, range and translation of every lane in order, then a refusal as a whole, then what the
memory or the register reached says. -/
def vecLocs (s : State) (a : Actor) (as : Space) (ea b : Nat) (k : AccKind) (l : List Nat) : Acc (List (Nat × Loc)) :=
  match lanesFault s a as ea b k l with
  | some f => .fault f.1 f.2
  | none => if lanesAdmitted s a as ea b k l then laneLocs s a as ea b k l else .fault 7 (ea + l.headD 0 * b)

/-- Loads of the lanes at their locations. -/
def loadLanes (a : Actor) (b : Nat) : List (Nat × Loc) → State → List (Nat × Nat) × State
  | [], s => ([], s)
  | (j, l) :: r, s =>
    let x := loadLoc s a l b
    let y := loadLanes a b r x.2
    ((j, x.1) :: y.1, y.2)

/-- Stores of the lanes at their locations. -/
def storeLanes (a : Actor) (b w : Nat) (v : Vec) : List (Nat × Loc) → State → State
  | [], s => s
  | (j, l) :: r, s => storeLanes a b w v r (storeLoc s a l b (lane v w j))

def execLdv (c : Common) (m : Bool) (t : Ty) (as : Space) (km : KReg) (d : VReg) (sa : SReg) (o : BitVec 32) (s : State) :
    Host.Outcome State Fault Refusal :=
  issue (.ldv c m t as km d sa o) c s fun s =>
    let k := getK (me s) km
    ofAcc (vecLocs s (self s) as (eaOf s sa o) (elemBytes t) .read (onLanes t k)) fun ls =>
      let r := loadLanes (self s) (elemBytes t) ls s
      loadOrDefer s c (.ldv c m t as km d sa o) ⟨true, d.toNat, t, k, m, [], 0, 0⟩ (ls.map fun l => (l.1, eaOf s sa o + l.1 * elemBytes t, l.2))
        (onMe r.2 fun x => setV x d (mapLanes t k (!m) (getV x d) fun j => mget 0 r.1 j))

def execStv (c : Common) (t : Ty) (as : Space) (km : KReg) (d : VReg) (sa : SReg) (o : BitVec 32) (s : State) :
    Host.Outcome State Fault Refusal :=
  issue (.stv c t as km d sa o) c s fun s =>
    ofAcc (vecLocs s (self s) as (eaOf s sa o) (elemBytes t) .write (onLanes t (getK (me s) km))) fun ls =>
      .done (storeLanes (self s) (elemBytes t) t.width (getV (me s) d) ls s)

/-! ### LDG and STG (spec/06 R127-R130) -/

/-- Width of an index. -/
def idxBits : IdxWidth → Nat
  | .w8 => 8
  | .w16 => 16
  | .w32 => 32
  | .w64 => 64

/-- Lanes of a gather or scatter. -/
def gatherLanes (t : Ty) (x : Gather) : Nat := 512 / max t.width (idxBits x.iw)

/-- The operands of a gather or scatter as read at issue, and whether a gather's lanes are read when it lands. -/
structure GatherArgs where
  store : Bool
  base : Word
  bound : Nat
  idx : Vec
  data : Vec
  fill : Nat
  mask : Word
  later : Bool
  deriving DecidableEq, Repr

/-- Progress over the lanes: the state, the register so far, the two flag sets, the address of the first refused lane, and the lanes to be read later. -/
structure GatherRun where
  s : State
  v : Vec
  ok : Word
  fk : Word
  refused : Option Nat
  got : List LoadLane
  deriving DecidableEq, Repr

/-- A lane that receives the fill value. -/
def gatherFill (t : Ty) (g : GatherArgs) (j : Nat) (r : GatherRun) : GatherRun :=
  if g.store then r else { r with v := setLane r.v t.width j g.fill }

/-- The address of a lane, or why it makes no access: true for one out of its bound, false for a sentinel. -/
def laneAddr (x : Gather) (g : GatherArgs) (j : Nat) : Except Bool Nat :=
  let w := (idxBits x.iw)
  let raw := lane g.idx w j
  if raw = 2 ^ w - 1 then .error false
  else
    let i : Int := if x.isg && decide (2 ^ (w - 1) ≤ raw) then (raw : Int) - (2 ^ w : Nat) else raw
    if !x.nbnd && (decide (i < 0) || decide ((g.bound : Int) ≤ i)) then .error true
    else .ok (g.base + BitVec.ofInt 64 (i * (2 ^ x.scl.toNat : Nat))).toNat

/-- Lane `j` of R128. -/
def gatherLane (t : Ty) (x : Gather) (g : GatherArgs) (a : Actor) (j : Nat) (r : GatherRun) : Acc GatherRun :=
  if !g.mask.getLsbD j then .ok r
  else
    match laneAddr x g j with
    | .error bound =>
        .ok (gatherFill t g j (if bound then { r with ok := r.ok ||| (1#64 <<< j) } else r))
    | .ok ea =>
      match locate r.s a x.as ea (elemBytes t) (elemBytes t) (if g.store then .write else .read) with
      | .ok l =>
          if g.store then .ok { r with s := storeLoc r.s a l (elemBytes t) (lane g.data t.width j) }
          else
            match if g.later then laterLoc r.s l else none with
            | some p => .ok { r with s := sendLane r.s a l, got := r.got ++ [⟨j, ea, p⟩] }
            | none =>
                let p := loadLoc r.s a l (elemBytes t)
                .ok { r with s := p.2, v := setLane r.v t.width j p.1 }
      | .fault cause tv =>
          if cause = 3 ∨ cause = 0xE then .fault cause tv
          else
            .ok (gatherFill t g j { r with
              s := noteError r.s cause tv a
              fk := r.fk ||| (1#64 <<< j)
              refused := if cause = 7 ∧ r.refused = none then some ea else r.refused })
      | .wait b => .wait b

/-- The lanes in ascending order. -/
def gatherRun (t : Ty) (x : Gather) (g : GatherArgs) (a : Actor) : List Nat → GatherRun → Acc GatherRun
  | [], r => .ok r
  | j :: l, r =>
    match gatherLane t x g a j r with
    | .ok r => gatherRun t x g a l r
    | .fault c tv => .fault c tv
    | .wait b => .wait b

/-- The operands of a gather or scatter. -/
def gatherArgs (st later : Bool) (t : Ty) (d : VReg) (sa : SReg) (sb : VReg) (sc : SReg) (x : Gather) (y : Strand) : GatherArgs :=
  { store := st, base := getS y sa, bound := (getS y sc).toNat, idx := getV y sb, data := getV y d
    fill := if x.fill then bits (getS y x.fr).toNat 0 t.width else 0, mask := getK y x.km, later := later }

/-- Completion of a gather or scatter: the register, the flags, and the trap of a refused lane. -/
def gatherDone (st : Bool) (d : VReg) (x : Gather) (r : GatherRun) : Res :=
  let s := modMe r.s fun y => setK (setK (if st then y else setV y d r.v) x.ok r.ok) x.fk r.fk
  match r.refused with
  | some ea => .trapAfter s 7 ea
  | none => .done s

/-- The lanes of LDG and STG, from the state `s` on. -/
def gatherAll (st later : Bool) (t : Ty) (d : VReg) (sa : SReg) (sb : VReg) (sc : SReg) (x : Gather) (s : State) : Acc GatherRun :=
  gatherRun t x (gatherArgs st later t d sa sb sc x (me s)) (self s) (upFrom 0 (gatherLanes t x)) ⟨s, getV (me s) d, 0, 0, none, []⟩

/-- A gather some of whose lanes the step defers (spec/13 R258; log 7): its flags and the rest of its register are written at its issue, and those lanes when it lands. -/
def gatherLater (c : Common) (t : Ty) (d : VReg) (sa : SReg) (sb : VReg) (sc : SReg) (x : Gather) (r : GatherRun) : Res :=
  let s := modMe r.s fun y => setK (setK (setV y d r.v) x.ok r.ok) x.fk r.fk
  putLoad s c (.ldg c t d sa sb sc x)
    ⟨true, d.toNat, t, maskOf 64 fun j => r.got.any fun l => l.j == j, true, r.got, stCtx (me s), (myCore s).issueNo⟩

/-- LDG: what it does at its issue. One with a refused lane, which traps, is performed whole. -/
def gatherBody (c : Common) (t : Ty) (d : VReg) (sa : SReg) (sb : VReg) (sc : SReg) (x : Gather) (s : State) : Res :=
  ofAcc (gatherAll false s.late t d sa sb sc x s) fun r =>
    if r.got = [] then gatherDone false d x r
    else if r.refused = none then gatherLater c t d sa sb sc x r
    else ofAcc (gatherAll false false t d sa sb sc x s) (gatherDone false d x)

def execLdg (c : Common) (t : Ty) (d : VReg) (sa : SReg) (sb : VReg) (sc : SReg) (x : Gather) (s : State) :
    Host.Outcome State Fault Refusal :=
  issue (.ldg c t d sa sb sc x) c s (gatherBody c t d sa sb sc x)

def execStg (c : Common) (t : Ty) (d : VReg) (sa : SReg) (sb : VReg) (sc : SReg) (x : Gather) (s : State) :
    Host.Outcome State Fault Refusal :=
  issue (.stg c t d sa sb sc x) c s fun s => ofAcc (gatherAll true false t d sa sb sc x s) (gatherDone true d x)

/-! ### PREF (spec/06 R131) -/

/-- A length clamped as PREF, WB, INV and ICINV clamp it. -/
def clampLen (w : Word) : Nat := min w.toNat 0x100000000

/-- The next value of a strand's copy-engine sequence is taken. -/
def takeTicket (s : State) (d : SReg) : Nat × State :=
  let n := (me s).copyN.iss + 1
  (n, modMe s fun x => setS { x with copyN := { x.copyN with iss := n } } d (BitVec.ofNat 64 n))

/-- A command of the strand `cur` for its cluster's copy engine. -/
def newCommand (s : State) (kind : CopyKind) (ticket : Nat) (ccr src dst : BitVec 512) (addr : Word) (len : Nat) : CopyCmd :=
  let x := me s
  { kind := kind, strand := some s.cur, ctx := stCtx x, desc := (myCore s).desc, ticket := ticket, ccr := ccr, src := src,
    dst := dst, addr := addr, len := len, nanm := stNanm x, tenant := bits x.tenant.toNat 0 4,
    launch := (myCore s).launch.getD 0, done := 0, nflt := 0, faddr := 2 ^ 64, sat := false, xerr := 0, count := 0, nan := 0,
    killed := false, registered := false, task := none, floor := timeOf s s.cur + 1 }

/-- Before a command reaches its engine the core's dirty lines go to the L2 slice (spec/09 R208). -/
def handOff (s : State) (k : Nat) : State := landCore s (coreOf k) fun _ _ => true

/-- A command joins the copy engine's queue. -/
def pushCommand (s : State) (q : CopyCmd) : State :=
  modCluster s (clusterOf s.cur) fun c => { c with copies := c.copies ++ [q] }

def execPref (c : Common) (d a b : SReg) (o : BitVec 32) (s : State) : Host.Outcome State Fault Refusal :=
  issue (.pref c d a b o) c s fun s =>
    if !handReady s s.cur then .hold
    else
      let r := takeTicket s d
      .done (pushCommand (handOff r.2 s.cur) (newCommand s .pref r.1 0 0 0 (BitVec.ofNat 64 (eaOf s a o)) (clampLen (getS (me s) b))))

/-! ### WB, INV and ICINV (spec/06 R132, R133) -/

/-- The runs that WB, INV and ICINV name. -/
def rangeOf (s : State) (a b : SReg) : List (Nat × Nat) :=
  runsOf s (coreOf s.cur) (stCtx (me s)) (myCore s).desc (getS (me s) a).toNat (clampLen (getS (me s) b))

/-- The pages of a range that an uncorrected error of a table entry keeps from translating, with the device RAS events that this raises (spec/20 R332). The fuel counts pages. -/
def reportPages (c x : Nat) (desc : BitVec 512) : Nat → Nat → Nat → State → State
  | 0, _, _, s => s
  | f + 1, va, len, s =>
    if len = 0 ∨ 2 ^ 57 ≤ va then s
    else
      let n := min len (match findLeaf s c x desc va with
        | some e => e.base + e.size - va
        | none => 4096 - va % 4096)
      reportPages c x desc f (va + n) (len - n) (reportWalk s c x desc va)

/-- The failed translations of the range that WB or INV names. -/
def reportRange (s : State) (a b : SReg) : State :=
  let n := clampLen (getS (me s) b)
  reportPages (coreOf s.cur) (stCtx (me s)) (myCore s).desc (n / 4096 + 2) (getS (me s) a).toNat n s

def execWb (c : Common) (a b : SReg) (s : State) : Host.Outcome State Fault Refusal :=
  issue (.wb c a b) c s fun s => .done (pushRuns (reportRange s a b) (coreOf s.cur) (rangeOf s a b))

def execInv (c : Common) (a b : SReg) (s : State) : Host.Outcome State Fault Refusal :=
  issue (.inv c a b) c s fun s => .done (dropRuns (reportRange s a b) (coreOf s.cur) (rangeOf s a b))

/-- The clusters whose copies a scope names. -/
def scopeClusters (sc : Scope) (cl : Nat) : List Nat :=
  match sc with
  | .strand | .core => []
  | .cluster => [cl]
  | .basin => [cl / 2 * 2, cl / 2 * 2 + 1]
  | .device | .cascade => allClusters

/-- Invalidate instruction copies of the range [va, va + n), which the runs hold, in the scope (spec/06 R133): instruction caches, the repetition buffers of the
strands that fetch through them, and the L2 copies of other clusters. Scope `strand` too leaves the issuer's core no older window, since the issuer's own later fetches return
the new bytes. -/
def invalidateCode (s : State) (k : Nat) (sc : Scope) (va n : Nat) (runs : List (Nat × Nat)) : State :=
  let cl := clusterOf k
  let cls := scopeClusters sc cl
  let inCls (c : Nat) := cls.contains (clusterOfCore c) || c == coreOf k
  let s := foldUnits (fun s c => dropIcache s c runs) ((listedCores s).filter inCls) s
  let s := foldUnits (fun s q => dropL2Lines s q fun l _ => lineInRuns runs l) ((listedClusters s).filter fun q => q != cl && cls.contains q) s
  dropRbufs s (stCtx (getStrand s k)) va n ((listedStrands s).filter fun j => j == k || (sc != .strand && inCls (coreOf j)))

def execIcinv (c : Common) (sc : Scope) (a b : SReg) (s : State) : Host.Outcome State Fault Refusal :=
  issue (.icinv c sc a b) c s fun s =>
    let runs := rangeOf s a b
    .done (invalidateCode (pushRuns (reportRange s a b) (coreOf s.cur) runs) s.cur sc (getS (me s) a).toNat (clampLen (getS (me s) b)) runs)

end Sys2Proof.Machine
end

