-- ==== Sys2Proof/Machine/Scalar.lean ====
section
/-!
DEFINITION. The scalar, predicate and control instructions (spec/05).
-/
namespace Sys2Proof.Machine

/-! ### Values (spec/05 R89-R91) -/

/-- An instruction that writes one scalar register from two. -/
def alu (i : Instr) (c : Common) (d a b : SReg) (f : Word → Word → Word) (s : State) : Host.Outcome State Fault Refusal :=
  issue i c s fun s => onMe s fun x => setS x d (f (getS x a) (getS x b))

/-- An instruction that writes one scalar register from one. -/
def alu1 (i : Instr) (c : Common) (d a : SReg) (f : Word → Word) (s : State) : Host.Outcome State Fault Refusal :=
  issue i c s fun s => onMe s fun x => setS x d (f (getS x a))

def mulHigh (a b : Word) : Word := BitVec.ofInt 64 (a.toInt * b.toInt / 2 ^ 64)
def mulHighZ (a b : Word) : Word := BitVec.ofNat 64 (a.toNat * b.toNat / 2 ^ 64)
/-- Division with the special cases of R90. -/
def divS (a b : Word) : Word := if b = 0 then BitVec.allOnes 64 else BitVec.ofInt 64 (a.toInt.tdiv b.toInt)
def divZ (a b : Word) : Word := if b = 0 then BitVec.allOnes 64 else BitVec.ofNat 64 (a.toNat / b.toNat)
def remS (a b : Word) : Word := if b = 0 then a else BitVec.ofInt 64 (a.toInt.tmod b.toInt)
def remZ (a b : Word) : Word := if b = 0 then a else BitVec.ofNat 64 (a.toNat % b.toNat)
/-- Shifts by the whole of b (spec/05 R89). -/
def shlW (a b : Word) : Word := if 64 ≤ b.toNat then 0 else a <<< b.toNat
def shrW (a b : Word) : Word := if 64 ≤ b.toNat then 0 else a >>> b.toNat
def sraW (a b : Word) : Word := a.sshiftRight (min b.toNat 63)
def minS (a b : Word) : Word := if b.slt a then b else a
def maxS (a b : Word) : Word := if a.slt b then b else a
def minZ (a b : Word) : Word := if b.ult a then b else a
def maxZ (a b : Word) : Word := if a.ult b then b else a
/-- The index of ADDX (spec/05 R88). -/
def indexOf (k : IdxKind) (b : Word) : Word :=
  match k with
  | .whole => b
  | .sext32 => (b.setWidth 32).signExtend 64
  | .zext32 => (b.setWidth 32).setWidth 64

/-- Zero bits of a number below a position that are found before the first one bit, from the position down. -/
def leadZeros (n : Nat) : Nat → Nat
  | 0 => 0
  | k + 1 => if bitOf n k then 0 else 1 + leadZeros n k
def trailZeros (n : Nat) : Nat → Nat → Nat
  | 0, _ => 0
  | k + 1, j => if bitOf n j then 0 else 1 + trailZeros n k (j + 1)
def oneBits (n : Nat) : Nat → Nat
  | 0 => 0
  | k + 1 => bnat (bitOf n k) + oneBits n k

/-- The low `n` bytes of a word reversed and zero-extended. -/
def swapBytes (n : Nat) (a : Word) : Word := BitVec.ofNat 64 (leOf (bytesOf n a.toNat).reverse)

/-! ### Three-register integer forms (spec/05 R89, R90) -/

def execAdd (c : Common) (d a b : SReg) (s : State) := alu (.add c d a b) c d a b (· + ·) s
def execSub (c : Common) (d a b : SReg) (s : State) := alu (.sub c d a b) c d a b (· - ·) s
def execMul (c : Common) (d a b : SReg) (s : State) := alu (.mul c d a b) c d a b (· * ·) s
def execMulh (c : Common) (d a b : SReg) (s : State) := alu (.mulh c d a b) c d a b mulHigh s
def execMulhz (c : Common) (d a b : SReg) (s : State) := alu (.mulhz c d a b) c d a b mulHighZ s
def execDiv (c : Common) (d a b : SReg) (s : State) := alu (.div c d a b) c d a b divS s
def execDivz (c : Common) (d a b : SReg) (s : State) := alu (.divz c d a b) c d a b divZ s
def execRem (c : Common) (d a b : SReg) (s : State) := alu (.rem c d a b) c d a b remS s
def execRemz (c : Common) (d a b : SReg) (s : State) := alu (.remz c d a b) c d a b remZ s

/-- Is the kind of division signed? -/
def divSigned (k : DivKind) : Bool := k == .div || k == .rem

/-- Quotient or remainder of a kind. -/
def divValue (k : DivKind) (a b : Word) : Word :=
  match k with
  | .div => divS a b
  | .divz => divZ a b
  | .rem => remS a b
  | .remz => remZ a b

/-- The T functions trap in the special cases (spec/05 R90). -/
def execDivT (c : Common) (k : DivKind) (d a b : SReg) (s : State) : Host.Outcome State Fault Refusal :=
  issue (.divT c k d a b) c s fun s =>
    let x := me s
    let p := getS x a
    let q := getS x b
    if q = 0 then .trap 0xB 0
    else if divSigned k && p == 0x8000000000000000#64 && q == BitVec.allOnes 64 then .trap 0xB 1
    else onMe s fun x => setS x d (divValue k p q)

def execAddx (c : Common) (k : IdxKind) (sh : BitVec 2) (d a b : SReg) (s : State) :=
  alu (.addx c k sh d a b) c d a b (fun p q => p + (indexOf k q <<< sh.toNat)) s
def execAnd (c : Common) (d a b : SReg) (s : State) := alu (.and c d a b) c d a b (· &&& ·) s
def execOr (c : Common) (d a b : SReg) (s : State) := alu (.or c d a b) c d a b (· ||| ·) s
def execXor (c : Common) (d a b : SReg) (s : State) := alu (.xor c d a b) c d a b (· ^^^ ·) s
def execShl (c : Common) (d a b : SReg) (s : State) := alu (.shl c d a b) c d a b shlW s
def execShr (c : Common) (d a b : SReg) (s : State) := alu (.shr c d a b) c d a b shrW s
def execSra (c : Common) (d a b : SReg) (s : State) := alu (.sra c d a b) c d a b sraW s
def execMin (c : Common) (d a b : SReg) (s : State) := alu (.min c d a b) c d a b minS s
def execMax (c : Common) (d a b : SReg) (s : State) := alu (.max c d a b) c d a b maxS s
def execMinz (c : Common) (d a b : SReg) (s : State) := alu (.minz c d a b) c d a b minZ s
def execMaxz (c : Common) (d a b : SReg) (s : State) := alu (.maxz c d a b) c d a b maxZ s

/-! ### One-source forms and SEL (spec/05 R91, R92) -/

def execClz (c : Common) (d a : SReg) (s : State) := alu1 (.clz c d a) c d a (fun v => BitVec.ofNat 64 (leadZeros v.toNat 64)) s
def execCtz (c : Common) (d a : SReg) (s : State) := alu1 (.ctz c d a) c d a (fun v => BitVec.ofNat 64 (trailZeros v.toNat 64 0)) s
def execPopc (c : Common) (d a : SReg) (s : State) := alu1 (.popc c d a) c d a (fun v => BitVec.ofNat 64 (oneBits v.toNat 64)) s

def swapSize (k : SwapWidth) : Nat :=
  match k with
  | .d => 8
  | .w => 4
  | .h => 2

def extSize (k : ExtWidth) : Nat :=
  match k with
  | .b => 8
  | .h => 16
  | .w => 32

def execBswap (c : Common) (wd : SwapWidth) (d a : SReg) (s : State) := alu1 (.bswap c wd d a) c d a (swapBytes (swapSize wd)) s
def execSext (c : Common) (wd : ExtWidth) (d a : SReg) (s : State) :=
  alu1 (.sext c wd d a) c d a (fun v => (v.setWidth (extSize wd)).signExtend 64) s
def execZext (c : Common) (wd : ExtWidth) (d a : SReg) (s : State) :=
  alu1 (.zext c wd d a) c d a (fun v => (v.setWidth (extSize wd)).setWidth 64) s

/-- MOV's four functions. -/
def movStrand (op : MovOp) (x : Strand) : Strand :=
  match op with
  | .ss d a => setS x d (getS x a)
  | .ks d a => setK x d (getS x a)
  | .sk d a => setS x d (getK x a)
  | .kk d a => setK x d (getK x a)

def execMov (c : Common) (op : MovOp) (s : State) : Host.Outcome State Fault Refusal :=
  issue (.mov c op) c s fun s => onMe s (movStrand op)

def execSel (c : Common) (d a b : SReg) (gs : GReg) (ns : Bool) (s : State) : Host.Outcome State Fault Refusal :=
  issue (.sel c d a b gs ns) c s fun s => onMe s fun x => setS x d (if getG x gs != ns then getS x a else getS x b)

/-! ### Compares (spec/05 R93, R94) -/

def execCmp (c : Common) (q : Cond) (pt : GReg) (a b : SReg) (pf : GReg) (s : State) : Host.Outcome State Fault Refusal :=
  issue (.cmp c q pt a b pf) c s fun s => onMe s fun x => putPreds x pt pf (condHolds q (getS x a) (getS x b))

def execCmpi (c : Common) (q : Cond) (pt : GReg) (a : SReg) (pf : GReg) (i : BitVec 32) (s : State) : Host.Outcome State Fault Refusal :=
  issue (.cmpi c q pt a pf i) c s fun s => onMe s fun x => putPreds x pt pf (condHolds q (getS x a) (immWord i))

/-! ### Immediate forms (spec/05 R95-R97) -/

def execAddi (c : Common) (d a : SReg) (i : BitVec 32) (s : State) := alu1 (.addi c d a i) c d a (· + immWord i) s
def execAndi (c : Common) (d a : SReg) (i : BitVec 32) (s : State) := alu1 (.andi c d a i) c d a (· &&& immWord i) s
def execOri (c : Common) (d a : SReg) (i : BitVec 32) (s : State) := alu1 (.ori c d a i) c d a (· ||| immWord i) s
def execXori (c : Common) (d a : SReg) (i : BitVec 32) (s : State) := alu1 (.xori c d a i) c d a (· ^^^ immWord i) s
def execShli (c : Common) (d a : SReg) (n : BitVec 6) (s : State) := alu1 (.shli c d a n) c d a (· <<< n.toNat) s
def execShri (c : Common) (d a : SReg) (n : BitVec 6) (s : State) := alu1 (.shri c d a n) c d a (· >>> n.toNat) s
def execSrai (c : Common) (d a : SReg) (n : BitVec 6) (s : State) := alu1 (.srai c d a n) c d a (fun v => v.sshiftRight n.toNat) s

def liStrand (d : LiDst) (v : Word) (x : Strand) : Strand :=
  match d with
  | .s r => setS x r v
  | .k r => setK x r v

def execLi (c : Common) (d : LiDst) (i : BitVec 64) (s : State) : Host.Outcome State Fault Refusal :=
  issue (.li c d i) c s fun s => onMe s (liStrand d i)

/-! ### Scalar FP32 (spec/05 R98-R101) -/

/-- An FP32 operand and result of a scalar register (spec/05 R98). -/
def f32Of (w : Word) : Nat := bits w.toNat 0 32

def falu (i : Instr) (c : Common) (d a b : SReg) (f : Nat → Nat → Nat) (s : State) : Host.Outcome State Fault Refusal :=
  alu i c d a b (fun p q => BitVec.ofNat 64 (f (f32Of p) (f32Of q))) s

def execFadd (c : Common) (d a b : SReg) (s : State) := falu (.fadd c d a b) c d a b (addF fmtF32) s
def execFsub (c : Common) (d a b : SReg) (s : State) := falu (.fsub c d a b) c d a b (subF fmtF32) s
def execFmul (c : Common) (d a b : SReg) (s : State) := falu (.fmul c d a b) c d a b (mulF fmtF32) s
def execFmin (c : Common) (d a b : SReg) (s : State) := falu (.fmin c d a b) c d a b (minF fmtF32) s
def execFmax (c : Common) (d a b : SReg) (s : State) := falu (.fmax c d a b) c d a b (maxF fmtF32) s

def execFfma (c : Common) (d a b e : SReg) (s : State) : Host.Outcome State Fault Refusal :=
  issue (.ffma c d a b e) c s fun s => onMe s fun x =>
    setS x d (BitVec.ofNat 64 (fmaF fmtF32 (f32Of (getS x a)) (f32Of (getS x b)) (f32Of (getS x e))))

def execFcmp (c : Common) (q : FCond) (pt : GReg) (a b : SReg) (pf : GReg) (s : State) : Host.Outcome State Fault Refusal :=
  issue (.fcmp c q pt a b pf) c s fun s => onMe s fun x => putPreds x pt pf (fcondHolds q (f32Of (getS x a)) (f32Of (getS x b)))

def execFcvt (c : Common) (src t : Ty) (d a : SReg) (s : State) : Host.Outcome State Fault Refusal :=
  alu1 (.fcvt c src t d a) c d a (fun v => extend t (convert src t (bits v.toNat 0 src.width))) s

/-! ### Predicates (spec/05 R102, R103) -/

def predOp (i : Instr) (c : Common) (d a b : GReg) (na nb : Bool) (f : Bool → Bool → Bool) (s : State) :
    Host.Outcome State Fault Refusal :=
  issue i c s fun s => onMe s fun x => setG x d (f (getG x a != na) (getG x b != nb))

def execPand (c : Common) (d a b : GReg) (na nb : Bool) (s : State) := predOp (.pand c d a b na nb) c d a b na nb (· && ·) s
def execPor (c : Common) (d a b : GReg) (na nb : Bool) (s : State) := predOp (.por c d a b na nb) c d a b na nb (· || ·) s
def execPxor (c : Common) (d a b : GReg) (na nb : Bool) (s : State) := predOp (.pxor c d a b na nb) c d a b na nb (· != ·) s

/-- PMOV's three functions. -/
def pmovStrand (op : PmovOp) (x : Strand) : Strand :=
  match op with
  | .move d a na => setG x d (getG x a != na)
  | .sg d => setS x d (BitVec.ofNat 64 (guardByte x))
  | .gs a => { x with g := (getS x a).setWidth 7 }

def execPmov (c : Common) (op : PmovOp) (s : State) : Host.Outcome State Fault Refusal :=
  issue (.pmov c op) c s fun s => onMe s (pmovStrand op)

/-! ### Branches (spec/05 R104, R109) -/

/-- A word count as a byte displacement. -/
def dispOf (o : BitVec 32) : Word := immWord o <<< 2

def execBr (c : Common) (o : BitVec 32) (s : State) : Host.Outcome State Fault Refusal :=
  issue (.br c o) c s fun s => .jump s ((me s).pc + dispOf o) true

def execJmp (c : Common) (a : SReg) (o : BitVec 32) (s : State) : Host.Outcome State Fault Refusal :=
  issue (.jmp c a o) c s fun s => .jump s (getS (me s) a + dispOf o) true

def execJal (c : Common) (d : SReg) (o : BitVec 32) (s : State) : Host.Outcome State Fault Refusal :=
  issue (.jal c d o) c s fun s => .jump (modMe s fun x => setS x d (x.pc + lenWord c)) ((me s).pc + dispOf o) false

def execJr (c : Common) (d a : SReg) (s : State) : Host.Outcome State Fault Refusal :=
  issue (.jr c d a) c s fun s => .jump (modMe s fun x => setS x d (x.pc + lenWord c)) (getS (me s) a) (d == 0)

/-! ### LOOP (spec/05 R106, R107) -/

def tripCount (x : Strand) (r : LoopSrc) : Word :=
  match r with
  | .s a => getS x a
  | .mb m => mget 0 x.mb m.toNat

def execLoop (c : Common) (r : LoopSrc) (stg smod : BitVec 3) (body : BitVec 25) (s : State) : Host.Outcome State Fault Refusal :=
  issue (.loop c r stg smod body) c s fun s =>
    let x := me s
    let n := tripCount x r
    let top := x.pc + lenWord c
    let stop := top + BitVec.ofNat 64 (4 * body.toNat)
    if n = 0 then .skip s stop
    else if 3 ≤ x.loops.length then .trap 0xC n.toNat
    else .enter (modMe s fun x => { x with loops := ⟨top, stop, n, 0, stg, smod⟩ :: x.loops, rbuf := [], rbufOver := false, rbufOk := false })

/-! ### NOP, END and YIELD (spec/05 R114-R116) -/

def execNop (c : Common) (s : State) : Host.Outcome State Fault Refusal := issue (.nop c) c s fun s => .landed s

def execEndStrand (c : Common) (s : State) : Host.Outcome State Fault Refusal :=
  issue (.endStrand c) c s fun s =>
    .stop (stopStrand (emitStrand s s.cur 0x13 [(me s).pc.toNat]) s.cur)

/-- Not ready for the next n cycles; with n = 0, in the next cycle only. -/
def execYield (c : Common) (n : BitVec 17) (s : State) : Host.Outcome State Fault Refusal :=
  issue (.yield c n) c s fun s => onMe s fun x => { x with notBefore := s.cycle + 1 + max n.toNat 1 }

end Sys2Proof.Machine
end

