-- ==== Sys2Proof/Machine/SyncOps.lean ====
section
/-!
DEFINITION. Atomics, fences, bindings, locks, events, barriers and messages (spec/09 R197-R209, spec/13 R256, R266, spec/14 R284-R289).
-/
namespace Sys2Proof.Machine

/-! ### Atomics (spec/09 R198, R199) -/

/-- The new value of an AMO on an element of a type. -/
def amoValue (fn : AmoFn) (t : Ty) (old b : Nat) : Nat :=
  match fn with
  | .add => if t.isFloat then addF fmtF32 old b else (old + b) % 2 ^ t.width
  | .and => old &&& b
  | .or => old ||| b
  | .xor => old ^^^ b
  | .min => if t.isFloat then minF fmtF32 old b else if intOf t b < intOf t old then b else old
  | .max => if t.isFloat then maxF fmtF32 old b else if intOf t old < intOf t b then b else old
  | .swap => b

/-- A read-modify-write of `n` bytes in the core's data cache. -/
def rmwCore (s : State) (a : Actor) (key n : Nat) (f : Nat → Option Nat) : Nat × State :=
  let r := cacheRead s a.core a.ctx key n
  (r.1, match f r.1 with
    | some v => cacheWrite r.2 a.core a.ctx key n v
    | none => r.2)

/-- A read-modify-write in the L2 slice, the core's copy going there first (spec/13 R256). -/
def rmwL2 (s : State) (a : Actor) (key n : Nat) (f : Nat → Option Nat) : Nat × State :=
  let s := dropCore s a.core (lineOf key)
  let cl := clusterOfCore a.core
  let r := fillL2 s cl (lineOf key) a.ctx
  let old := bits r.1.data.toNat (8 * (key % 128)) (8 * n)
  (old, match f old with
    | some v => setL2 r.2 cl (lineOf key)
        { r.1 with data := putBytes r.1.data (key % 128) n v, dirty := r.1.dirty ||| byteMask (key % 128) n }
    | none => r.2)

/-- A read-modify-write at the home, the core's and the cluster's copies going there first (spec/13 R256). -/
def rmwHome (s : State) (a : Actor) (key n : Nat) (f : Nat → Option Nat) : Nat × State :=
  let s := flushLine s a.core (lineOf key)
  let old := homeRead s key n
  (old, match f old with
    | some v => homeWrite s key n v
    | none => s)

/-- Is a page a reduction window (spec/20 R331)? -/
def isReduction (e : TlbEntry) : Bool := e.leaf.getLsbD 7

/-- The indivisible read-modify-write of an atomic at the level that serves its scope; a reduction window is served at the home. -/
def rmwLoc (s : State) (a : Actor) (sc : Scope) (l : Loc) (n : Nat) (f : Nat → Option Nat) : Nat × State :=
  match l with
  | .pool .. | .carve .. | .ctl _ =>
      let r := loadLoc s a l n
      (r.1, match f r.1 with
        | some v => storeLoc r.2 a l n v
        | none => r.2)
  | .glob key e =>
      let s := keepTlb s a.core e
      if isReduction e then rmwHome s a key n f
      else
        match sc with
        | .strand | .core => rmwCore s a key n f
        | .cluster => rmwL2 s a key n f
        | _ => rmwHome s a key n f

/-- The old value as it is placed in s[DST] (spec/09 R198, spec/05 R98). -/
def amoOld (t : Ty) (old : Nat) : Word := if t.isFloat then BitVec.ofNat 64 old else extend t old

/-- Is an AMO merged on its way (spec/09 R199)? -/
def merges (fn : AmoFn) (t : Ty) (d : SReg) (l : Loc) : Option Nat :=
  match l with
  | .glob key e => if isReduction e && fn != .swap && t.isInt && d == 0 then some key else none
  | _ => none

def execAmo (c : Common) (fn : AmoFn) (t : Ty) (sc : Scope) (as : Space) (o : BitVec 8) (d sa sb : SReg) (s : State) :
    Host.Outcome State Fault Refusal :=
  issue (.amo c fn t sc as o d sa sb) c s fun s =>
    let a := self s
    let n := elemBytes t
    let b := bits (getS (me s) sb).toNat 0 t.width
    ofAcc (locate s a as (effAddr (getS (me s) sa) (o.signExtend 64)) n n .atomic) fun l =>
      match merges fn t d l with
      | some key =>
          let s := flushLine s a.core (lineOf key)
          .queued { s with reductions := s.reductions ++ [⟨key, fn, t, b, [⟨s.cur, c.set, effAddr (getS (me s) sa) (o.signExtend 64)⟩]⟩] }
      | none =>
          let r := rmwLoc s a sc l n fun old => some (amoValue fn t old b)
          onMe r.2 fun x => setS x d (amoOld t r.1)

def execCas (c : Common) (t : Ty) (sc : Scope) (as : Space) (d sa sb se : SReg) (s : State) : Host.Outcome State Fault Refusal :=
  issue (.cas c t sc as d sa sb se) c s fun s =>
    let a := self s
    let n := elemBytes t
    let want := bits (getS (me s) sb).toNat 0 t.width
    let new := bits (getS (me s) se).toNat 0 t.width
    ofAcc (locate s a as (getS (me s) sa).toNat n n .atomic) fun l =>
      let r := rmwLoc s a sc l n fun old => if old = want then some new else none
      onMe r.2 fun x => setS x d (amoOld t r.1)

/-- Two merged atomics of one location meet in a router. -/
def mergePair (x y : Reduction) : Reduction := { x with val := amoValue x.fn x.ty x.val y.val, owners := x.owners ++ y.owners }

/-- Two merged atomics that are on their way, by their places in the list, are combined (spec/09 R199). -/
def execReductionMerge (a b : Nat) (s : State) : Host.Outcome State Fault Refusal :=
  match s.reductions[a]?, s.reductions[b]? with
  | some x, some y =>
      if a < b && x.pa == y.pa && x.fn == y.fn && x.ty == y.ty then
        .next { s with reductions := ldel (lset s.reductions a (mergePair x y)) b }
      else .next s
  | _, _ => .next s

/-- A SET counter falls. -/
def lowerCtr (s : State) (k : Nat) (ctr : BitVec 3) : State := modStrand s k fun y => if ctr = 7 then y else setD y ctr.toNat (getD y ctr.toNat - 1)

/-- Must a strand's trap for what it sent earlier wait: for its table requests (spec/07 R164)? -/
def trapWaits (s : State) (k : Nat) : Bool := (getStrand s k).run == .running && !(getStrand s k).vtabQ.isEmpty

/-- A strand leaves what it is in and takes cause 0x0E for an access that it sent earlier, which has no effect on it but that its counter falls (spec/04 R74,
spec/22 R374, R379); a strand that the quiesce has stopped takes it too (log 103). -/
def failSent (s : State) (k : Nat) (ctr : BitVec 3) (va : Nat) : State :=
  let s := lowerCtr (leaveLong (killWait s k) k) k ctr
  if (getStrand s k).run = .running ∨ (getStrand s k).run = .saved then enterTrap s k 0xE (BitVec.ofNat 64 va) (getStrand s k).pc else s

/-- A merged atomic bound for a home that does not answer: each of its issuers traps, and each such request raises its RAS event. It stays while one of them cannot. -/
def loseReduction (s : State) (r : Reduction) : State :=
  if r.owners.any fun o => trapWaits s o.strand then s
  else
    r.owners.foldl (fun s o => failSent (reportCascade s (r.pa % 2 ^ 52)) o.strand o.ctr o.va) { s with reductions := s.reductions.erase r }

/-- A merged atomic is performed at the home and lands for each of its issuers, whose cores and clusters keep no older copy of the line (spec/13 R255,
R266). -/
def performReduction (s : State) (x : Reduction) : State :=
  if noHome s x.pa then loseReduction s x
  else
    let s := foldUnits (fun s k => flushLine s (coreOf k) (lineOf x.pa)) (x.owners.map MergedBy.strand) { s with reductions := s.reductions.erase x }
    let old := homeRead s x.pa (elemBytes x.ty)
    let s := reduceWrite s x.pa (elemBytes x.ty) (amoValue x.fn x.ty old x.val)
    x.owners.foldl (fun s o => lowerCtr s o.strand o.ctr) s

/-! ### FENCE (spec/09 R200) -/

/-- The two halves of a fence as HALF selects them. -/
def fenceHalves (s : State) (k : Nat) (sc : Scope) (h : Half) : State :=
  match h with
  | .rel => relHalf s k sc
  | .acq => acqHalf s k sc
  | .both => acqHalf (relHalf s k sc) k sc

def execFence (c : Common) (sc : Scope) (h : Half) (s : State) : Host.Outcome State Fault Refusal :=
  issue (.fence c sc h) c s fun s => if allLanded s s.cur then .done (fenceHalves s s.cur sc h) else .hold

/-! ### BIND and UNBIND (spec/09 R201) -/

/-- Go on with a wait: the fault where its resource was withdrawn (spec/14 R284) or its request refused, its end where it has been served. -/
def resumeWait (s : State) (w : Wait) (poll : State → State) (late : State → Option Res) (fin : Word → State → Res) : Res :=
  if w.what = .revoked then .trap 0x13 w.arg.toNat
  else if w.what = .refused then .trap 7 w.arg.toNat
  else
    let s := poll s
    match servedOf s s.cur with
    | some v => fin v s
    | none => if timedOut s s.cur w then (late s).getD (.wait s w) else .wait s w

/-- A request to another device of the cascade leaves, and the strand waits for the answer (spec/20 R321); where no request can reach the device, it fails (spec/22 R374). -/
def askAway (i : Instr) (a : Word) (tmo dev : Nat) (req : List Nat) (s : State) : Res :=
  if deviceGone s dev then .lost s a.toNat
  else
    .wait (sendMsg (if countsOut i then countOut s (coreOf s.cur) else s) dev 0 (req ++ [(addrOfStrand s s.cur).toNat, cdomOf (getCore s (coreOf s.cur)).desc, timeOf s s.cur]))
      (newWait s s.cur i (.away dev) a tmo)

/-- A handle that the strand `cur` may use, or the object fault; one of another device is asked for there. -/
def withHandle (s : State) (h : Word) (away : Nat → Res) (f : Res) : Res :=
  if handleOk s (stCtx (me s)) h then f
  else
    match handleAway s s.cur h with
    | some dev => away dev
    | none => .trap 0x13 h.toNat

/-- An instruction that names an event-unit handle and, once it may use that, completes without a wait. -/
def namingHandle (i : Instr) (h : Word) (f : State → Res) (s : State) : Res :=
  match (me s).wait with
  | some w => resumeWait s w id (fun _ => none) fun _ s => f s
  | none => withHandle s h (fun dev => askAway i h 0 dev [6, h.toNat] s) (f s)

/-- A handle that no other device can serve. -/
def ownHandle (s : State) (h : Word) (f : Res) : Res := withHandle s h (fun _ => .trap 0x13 h.toNat) f

/-- The operands of BIND and UNBIND as an entry. -/
def bindingOf (x : Strand) (a b e : SReg) : Binding := ⟨getS x a, getS x b, getS x e⟩

def execBind (c : Common) (a b e : SReg) (s : State) : Host.Outcome State Fault Refusal :=
  issue (.bind c a b e) c s fun s =>
    let n := bindingOf (me s) a b e
    namingHandle (.bind c a b e) n.handle (fun s =>
      let t := getCtx s (stCtx (me s))
      if n.len = 0 ∨ n ∈ t.binds then .done s
      else if 1024 ≤ t.binds.length then .trap 0x14 n.handle.toNat
      else .done (modCtx s (stCtx (me s)) fun t => { t with binds := t.binds ++ [n] })) s

def execUnbind (c : Common) (a b e : SReg) (s : State) : Host.Outcome State Fault Refusal :=
  issue (.unbind c a b e) c s fun s =>
    let n := bindingOf (me s) a b e
    namingHandle (.unbind c a b e) n.handle (fun s => .done (modCtx s (stCtx (me s)) fun t => { t with binds := t.binds.filter (· != n) })) s

/-! ### Waits -/

/-- Begin a wait: the request is queued, and the wait ends at once where it is served. -/
def beginWait (s : State) (w : Wait) (ask : State → State) (fin : Word → State → Res) : Res :=
  let s := ask (modMe s fun x => { x with wait := some w })
  match servedOf s s.cur with
  | some v => fin v s
  | none => .wait s w

/-! ### ACQ and REL (spec/09 R202) -/

/-- Location of a lock word. -/
def lockLoc (s : State) (h : Word) : Acc Nat := homeLoc s (self s) (hAddr h) 8 .atomic

/-- A lock's requests are looked at again. -/
def pollLock (s : State) (w : Wait) : State :=
  match w.what with
  | .lock key => grantLock s key
  | _ => s

def execAcq (c : Common) (sa : SReg) (s : State) : Host.Outcome State Fault Refusal :=
  let i : Instr := .acq c sa
  issue i c s fun s =>
    let k := s.cur
    let own := addrOfStrand s k
    match (me s).wait with
    | some w => resumeWait s w (fun s => pollLock s w) (fun _ => none) fun _ s => .done (acquireBy s k w.arg)
    | none =>
        let h := getS (me s) sa
        let fin (_ : Word) (s : State) : Res := .done (acquireBy s k h)
        withHandle s h (fun dev => if hKind h = 1 then askAway i h 0 dev [3, h.toNat] s else .trap 0x13 h.toNat) <|
          if hKind h = 1 then
            let cl := hCluster h
            let n := hIdx h
            if !mayAsk s (askMutex cl n) own.toNat then .hold
            else
              beginWait s (newWait s k i (.mutex cl n) h 0) (fun s =>
                let m := getMutex s cl n
                grantMutex (setMutex (noteAsk s (askMutex cl n) own.toNat) cl n { m with q := m.q ++ [own] }) cl n) fin
          else if hKind h = 5 then
            ofAcc (lockLoc s h) fun key =>
              if reductionAt s (self s) key 8 || !mayAsk s (askLock key) own.toNat then .hold
              else
                beginWait s (newWait s k i (.lock key) h 0) (fun s =>
                  let s := flushLine (noteAsk s (askLock key) own.toNat) (coreOf k) (lineOf key)
                  grantLock (setLockQueue s key (lockQueue s key ++ [own])) key) fin
          else .trap 0x13 h.toNat

def execAcqV (c : Common) (sa : SReg) (s : State) : Host.Outcome State Fault Refusal :=
  issue (.acqV c sa) c s fun s => namingHandle (.acqV c sa) (getS (me s) sa) (fun s => .done (acquireBy s s.cur (getS (me s) sa))) s

/-- A release follows the strand's earlier merged atomics (spec/13 R262). -/
def afterReductions (s : State) (f : Res) : Res := if hasReduction s s.cur then .hold else f

def execRel (c : Common) (sa : SReg) (s : State) : Host.Outcome State Fault Refusal :=
  let i : Instr := .rel c sa
  issue i c s fun s =>
    let k := s.cur
    let own := addrOfStrand s k
    let h := getS (me s) sa
    match (me s).wait with
    | some w => resumeWait s w id (fun _ => none) fun _ s => .done s
    | none =>
      afterReductions s <|
      withHandle s h (fun dev => if hKind h = 1 then askAway i h 0 dev [4, h.toNat] (releaseBy s k h) else .trap 0x13 h.toNat) <|
        if hKind h = 1 then
          let cl := hCluster h
          let n := hIdx h
          if (getMutex s cl n).holder = some own then
            let s := releaseBy s k h
            .done (grantMutex (setMutex s cl n { getMutex s cl n with holder := none }) cl n)
          else .trap 0x13 h.toNat
        else if hKind h = 5 then
          ofAcc (lockLoc s h) fun key =>
            let t := flushLine s (coreOf k) (lineOf key)
            if homeRead t key 8 = (lockWord own).toNat then .done (grantLock (homeWrite (releaseBy t k h) key 8 0) key)
            else .trap 0x13 h.toNat
        else .trap 0x13 h.toNat

def execRelV (c : Common) (sa : SReg) (s : State) : Host.Outcome State Fault Refusal :=
  issue (.relV c sa) c s fun s =>
    afterReductions s (namingHandle (.relV c sa) (getS (me s) sa) (fun s => .done (releaseBy s s.cur (getS (me s) sa))) s)

/-! ### Event lines (spec/09 R203) -/

/-- The body of EVWAIT; `pk` for the peeking form. -/
def evwaitBody (i : Instr) (pk : Bool) (d sa : SReg) (s : State) : Res :=
  let k := s.cur
  let fin (h v : Word) (s : State) : Res := .done (acquireBy (modMe s fun x => setS x d v) k h)
  match (me s).wait with
  | some w => resumeWait s w id (fun _ => none) (fin w.arg)
  | none =>
      let h := getS (me s) sa
      ownHandle s h <|
        if hKind h = 2 ∧ hCluster h = clusterOf k then
          let cl := hCluster h
          let l := hIdx h
          if !mayAsk s (askEvent cl l) k then .hold
          else
            beginWait s (newWait s k i (.event cl l pk) h 0) (fun s =>
              let e := getEv s cl l
              serveEv (setEv (noteAsk s (askEvent cl l) k) cl l { e with q := e.q ++ [(k, pk)] }) cl l) (fin h)
        else .trap 0x13 h.toNat

def execEvwait (c : Common) (d sa : SReg) (s : State) : Host.Outcome State Fault Refusal :=
  issue (.evwait c d sa) c s (evwaitBody (.evwait c d sa) false d sa)

def execEvwaitPk (c : Common) (d sa : SReg) (s : State) : Host.Outcome State Fault Refusal :=
  issue (.evwaitPk c d sa) c s (evwaitBody (.evwaitPk c d sa) true d sa)

/-- The body of EVSIG; `clr` for the clearing form. -/
def evsigBody (i : Instr) (clr : Bool) (sa sb : SReg) (s : State) : Res :=
  let h := getS (me s) sa
  let v := getS (me s) sb
  match (me s).wait with
  | some w => resumeWait s w id (fun _ => none) fun _ s => .done s
  | none =>
      afterReductions s <|
        withHandle s h
          (fun dev => if hKind h = 2 then askAway i h 0 dev [7, h.toNat, v.toNat, bnat clr] (releaseBy s s.cur h) else .trap 0x13 h.toNat)
          (if hKind h = 2 then .done (signalEv (releaseBy s s.cur h) (hCluster h) (hIdx h) v clr) else .trap 0x13 h.toNat)

def execEvsig (c : Common) (sa sb : SReg) (s : State) : Host.Outcome State Fault Refusal :=
  issue (.evsig c sa sb) c s (evsigBody (.evsig c sa sb) false sa sb)

def execEvsigClr (c : Common) (sa sb : SReg) (s : State) : Host.Outcome State Fault Refusal :=
  issue (.evsigClr c sa sb) c s (evsigBody (.evsigClr c sa sb) true sa sb)

/-! ### Barriers (spec/09 R204, spec/14 R285, R286) -/

/-- Departure: the acquire of the handle and the ACQ half. -/
def departBar (sc : Scope) (h : Word) (s : State) : Res := .done (acqHalf (acquireBy s s.cur h) s.cur sc)

/-- Arrival: the REL half and the release of the handle. -/
def arriveBar (sc : Scope) (h : Word) (s : State) : State := releaseBy (relHalf s s.cur sc) s.cur h

/-- A counter barrier from its start. -/
def counterBar (i : Instr) (sc : Scope) (h n : Word) (s : State) : Res :=
  let k := s.cur
  let cl := hCluster h
  let idx := hIdx h
  let b := getBarc s cl idx
  if hKind h ≠ 6 ∨ cl ≠ clusterOf k then .trap 0x13 h.toNat
  else if b.released.contains k then departBar sc h (setBarc s cl idx { b with released := b.released.filter (· != k) })
  else if b.q.contains k then .wait s (newWait s k i (.barc cl idx) h 0)
  else if n.toNat = 0 ∨ 256 < n.toNat ∨ (b.n ≠ 0 ∧ b.n ≠ n.toNat) then .trap 0x13 h.toNat
  else if !allLanded s k then .hold
  else
    beginWait (arriveBar sc h s) (newWait s k i (.barc cl idx) h 0) (fun s => arriveBarc s cl idx k n.toNat)
      fun _ s => departBar sc h s

/-- A barrier record's count and flag array, where its bytes are well formed (spec/14 R285). -/
def recordOk (r : Nat) : Option (Nat × Nat) :=
  let n := bits r 64 13
  let flags := bits r 0 57
  if bits r 77 435 = 0 ∧ bits r 57 7 = 0 ∧ 1 ≤ n ∧ n ≤ 4096 ∧ flags % 64 = 0 then some (n, flags) else none

/-- The rounds of a dissemination barrier, from wherever this rank stands. -/
def recordBar (i : Instr) (sc : Scope) (h : Word) (rank : Nat) (s : State) : Res :=
  let k := s.cur
  ofAcc (homeWords s (self s) (hAddr h) 8) fun r =>
    match recordOk r with
    | none => .trap 0x13 h.toNat
    | some (n, flags) =>
        if n ≤ rank then .trap 0x13 h.toNat
        else
          match enterBarrier s (self s) (addrOfStrand s k).toNat flags n rank with
          | none => .trap 0x13 h.toNat
          | some (.through s) => departBar sc h s
          | some (.waits s) => .wait s ((me s).wait.getD (newWait s k i (.brec rank) h 0))
          | some (.fails s q v) => .trapPart s q v

/-- A record barrier from its start: the REL half and the release come first. -/
def startRecordBar (i : Instr) (sc : Scope) (h n : Word) (s : State) : Res :=
  if hKind h ≠ 7 then .trap 0x13 h.toNat
  else if !allLanded s s.cur then .hold
  else recordBar i sc h n.toNat (arriveBar sc h s)

def execBar (c : Common) (sc : Scope) (sa sb : SReg) (s : State) : Host.Outcome State Fault Refusal :=
  let i : Instr := .bar c sc sa sb
  issue i c s fun s =>
    match (me s).wait with
    | some w =>
        match w.what with
        | .brec rank => recordBar i sc w.arg rank s
        | _ => resumeWait s w id (fun _ => none) fun _ s => departBar sc w.arg s
    | none =>
        let h := getS (me s) sa
        match sc with
        | .strand => .done s
        | .core | .cluster => ownHandle s h (counterBar i sc h (getS (me s) sb) s)
        | _ => ownHandle s h (startRecordBar i sc h (getS (me s) sb) s)

/-! ### Messages (spec/09 R205, R206, spec/14 R287, R288) -/

/-- The context whose launch occupies a core. -/
def coreCtx (s : State) (c : Nat) : Option Nat :=
  (getCore s c).launch.bind fun n => (s.launches.find? fun l => l.num == n).map Launch.ctx

/-- Does a strand exist in its core's launch (spec/01 R12)? -/
def existsIn (s : State) (k : Nat) : Bool := decide (strandNo k < liveCount (getCore s (coreOf k)))

/-- A wait completes by a device step: its effect, its counter and the next address. -/
def finishWait (s : State) (k : Nat) (f : Strand → Strand) : State :=
  modStrand s k fun x =>
    match x.wait.bind fun w => w.i.common with
    | some c => advance (completeWait (f x)) (x.pc + lenWord c)
    | none => x

def execSend (c : Common) (d : GReg) (sa : SReg) (sb : VReg) (tmo : BitVec 32) (s : State) : Host.Outcome State Fault Refusal :=
  let i : Instr := .send c d sa sb tmo
  let fin (v : Word) (s : State) : Res := onMe s fun x => setG x d (v != 0)
  issue i c s fun s =>
    match (me s).wait with
    | some w => resumeWait s w id (fun s => some (fin 0 (leaveQueue s s.cur w))) fin
    | none =>
        let a := getS (me s) sa
        match targetOf s a with
        | .bad => .trap 0x13 a.toNat
        | .closed => .trap 7 a.toNat
        | .away dev => askAway i a tmo.toNat dev [8, a.toNat, (getV (me s) sb).toNat] s
        | .here t =>
            if coreCtx s (coreOf t) = some (stCtx (me s)) ∧ existsIn s t then
              if !mayAsk s (askMail t) (addrOfStrand s s.cur).toNat then .hold
              else beginWait s (newWait s s.cur i (.mailbox t (getV (me s) sb)) a tmo.toNat) (fun s => serveMail s t 4) fin
            else .trap 7 a.toNat

/-- A queued request whose time-out has come is withdrawn (spec/14 R288). -/
def execSendTimeout (k : StrandId) (s : State) : Host.Outcome State Fault Refusal :=
  match (getStrand s k).wait with
  | some w =>
      match w.i with
      | .send _ d .. =>
          if timedOut s k w && w.served.isNone then .next (finishWait (leaveQueue s k w) k fun x => setG x d false) else .next s
      | _ => .next s
  | none => .next s

/-- The oldest message of a strand goes to its registers; an entry is then free for a queued request. -/
def takeMessage (s : State) (k : Nat) (d : VReg) (a : GReg) (b : SReg) : State :=
  match (getStrand s k).mail with
  | m :: r =>
      let s := modStrand s k fun x => setG (setS (setV { x with mail := r } d m.payload) b m.sender) a true
      serveMail (raiseFloor s k m.time) k 4
  | [] => s

def execRecv (c : Common) (d : VReg) (a : GReg) (b : SReg) (tmo : BitVec 32) (s : State) : Host.Outcome State Fault Refusal :=
  let i : Instr := .recv c d a b tmo
  issue i c s fun s =>
    match (me s).wait with
    | some w => resumeWait s w id (fun s => some (onMe s fun x => setG x a false)) fun _ s => .done (takeMessage s s.cur d a b)
    | none =>
        if (me s).mail = [] then .wait s (newWait s s.cur i .message 0 tmo.toNat) else .done (takeMessage s s.cur d a b)

/-- The time-out of a waiting RECV (spec/09 R206). -/
def execRecvTimeout (k : StrandId) (s : State) : Host.Outcome State Fault Refusal :=
  match (getStrand s k).wait with
  | some w =>
      match w.i with
      | .recv _ _ a .. =>
          if timedOut s k w && w.served.isNone then .next (finishWait s k fun x => setG x a false) else .next s
      | _ => .next s
  | none => .next s

/-! ### RDREM (spec/09 R207, spec/14 R289) -/

/-- The value of a remote register, none while it is not ready, for a strand of a core of this device or for one of another. -/
def remoteRead (s : State) (src : Option Nat) (t ofs : Nat) : Acc (Nat × State) :=
  let d := (getCluster s (clusterOf t)).dm
  if !existsIn s t then .ok (0, s)
  else if (d.halted && d.stepping != some t) || (getStrand s t).run == .saved then .wait none
  else
    match poolLoc s (coreOf t) (0x1000 * strandNo t + ofs) 8 none with
    | .ok l =>
        .ok (loadLoc (match src with
          | some c => countSent s c (coreOf t)
          | none => countIn s (coreOf t)) { self s with strand := none } l 8)
    | .fault q v => .fault q v
    | .wait b => .wait b

def execRdrem (c : Common) (d sa : SReg) (p : GReg) (ofs : BitVec 12) (tmo : BitVec 16) (s : State) : Host.Outcome State Fault Refusal :=
  let i : Instr := .rdrem c d sa p ofs tmo
  issue i c s fun s =>
    let go (t : Nat) (w : Wait) (s : State) : Res :=
      if timedOut s s.cur w then onMe s fun x => setG x p false
      else
        match remoteRead s (some (coreOf s.cur)) t ofs.toNat with
        | .ok (v, s) => onMe s fun x => setG (setS x d (BitVec.ofNat 64 v)) p true
        | .fault q v => .trap q v
        | .wait b => .wait (wakeBank s b) w
    match (me s).wait with
    | some w =>
        match w.what with
        | .remote => go w.arg.toNat w s
        | _ => resumeWait s w id (fun s => some (onMe (leaveQueue s s.cur w) fun x => setG x p false)) fun v s => onMe s fun x => setG (setS x d v) p true
    | none =>
        let a := getS (me s) sa
        match targetOf s a with
        | .bad => .trap 0x13 a.toNat
        | .closed => .trap 7 a.toNat
        | .away dev => askAway i a (16 * tmo.toNat) dev [9, a.toNat, ofs.toNat] s
        | .here t =>
            if coreCtx s (coreOf t) = some (stCtx (me s)) then
              go t (newWait s s.cur i .remote (BitVec.ofNat 64 t) (16 * tmo.toNat)) s
            else .trap 7 a.toNat

/-- The window of an RDREM ends without a value (spec/14 R289). -/
def execRdremTimeout (k : StrandId) (s : State) : Host.Outcome State Fault Refusal :=
  match (getStrand s k).wait with
  | some w =>
      match w.i with
      | .rdrem _ _ _ p .. => if timedOut s k w && w.served.isNone then .next (finishWait (leaveQueue s k w) k fun x => setG x p false) else .next s
      | _ => .next s
  | none => .next s

/-! ### WAITSEQ (spec/09 R209) -/

def engCount (x : Strand) (e : Engine) : EngCount :=
  match e with
  | .copy => x.copyN
  | .topk => x.topkN
  | .tab => x.tabN

def execWaitseq (c : Common) (e : Engine) (sa : SReg) (s : State) : Host.Outcome State Fault Refusal :=
  let i : Instr := .waitseq c e sa
  issue i c s fun s =>
    let x := me s
    let go (t : Word) (w : Wait) (s : State) : Res :=
      if t.toNat ≤ (engCount x e).cmp then
        let s := acqHalf s s.cur .cluster
        .done (if t = 0 then s else raiseFloor s s.cur (engCount x e).time)
      else .wait s w
    match x.wait with
    | some w => go w.arg w s
    | none =>
        let t := getS x sa
        if (engCount x e).iss < t.toNat then .trap 0x13 t.toNat else go t (newWait s s.cur i .ticket t 0) s

end Sys2Proof.Machine
end

