-- ==== Sys2Proof/Machine/Tsr.lean ====
section
/-!
DEFINITION. Tensor shape records: reading and validating one, locating its elements, and reading and writing them (spec/06 R134-R137, R387;
spec/02 R38, R39).
-/
namespace Sys2Proof.Machine

/-! ### Fields (spec/06 R134) -/

def tsrCode (r : BitVec 512) : Nat := bits r.toNat 192 4
def tsrTy (r : BitVec 512) : Ty := (Ty.ofCode (tsrCode r)).getD .s8
def tsrMw (r : BitVec 512) : Nat := bits r.toNat 196 4
def tsrBax (r : BitVec 512) : Nat := bits r.toNat 200 2
def tsrNdm (r : BitVec 512) : Nat := bits r.toNat 202 2
def tsrSpn (r : BitVec 512) : Nat := bits r.toNat 204 2
def tsrSize (r : BitVec 512) (d : Nat) : Nat := bits r.toNat (256 + 16 * d) 16
def tsrStride (r : BitVec 512) (d : Nat) : Int := sextNat 48 (bits r.toNat (320 + 48 * d) 48)
def tsrMptr (r : BitVec 512) : Nat := bits r.toNat 0 57
def tsrSptr (r : BitVec 512) : Nat := bits r.toNat 64 57
def tsrKptr (r : BitVec 512) : Nat := bits r.toNat 128 57
def tsrMas (r : BitVec 512) : Space := (Space.ofCode (bits r.toNat 57 2)).getD .glob
/-- Stored positions of a group. -/
def tsrStored (r : BitVec 512) : Nat := 32 / 2 ^ tsrSpn r
/-- Bytes of a group's field. -/
def tsrField (r : BitVec 512) : Nat := (tsrStored r * tsrMw r + 7) / 8

/-- The extents, 1 for an absent dimension. -/
def tsrSizes (r : BitVec 512) : List Nat := (upFrom 0 4).map fun d => if d ≤ tsrNdm r then tsrSize r d else 1
/-- Extent of dimension 1, taken as 1 when absent (spec/08 R175). -/
def tsrRows (r : BitVec 512) : Nat := lget 1 (tsrSizes r) 1
/-- The number of elements. -/
def tsrTotal (r : BitVec 512) : Nat := (tsrSizes r).foldl (· * ·) 1

/-- Does MW match TY (spec/06 R134)? -/
def tsrMwOk (r : BitVec 512) : Bool :=
  if tsrCode r = 11 then decide (2 ≤ tsrMw r) && decide (tsrMw r ≤ 8)
  else if tsrCode r = 12 ∨ tsrCode r = 13 then tsrMw r == 8 else tsrMw r == 0

/-- The conditions of R136 on the record itself, but for the instruction's own. -/
def tsrOk (r : BitVec 512) : Bool :=
  bits r.toNat 59 5 == 0 && bits r.toNat 121 7 == 0 && bits r.toNat 185 7 == 0 && bits r.toNat 206 50 == 0
  && tsrMwOk r && bits r.toNat 57 2 != 3
  && (upFrom 0 4).all (fun d => decide (d ≤ tsrNdm r) || (tsrSize r d == 0 && tsrStride r d == 0))
  && (!(tsrTy r).isBlock || decide (tsrBax r ≤ tsrNdm r))
  && (tsrSpn r == 0 || tsrTy r == .gbf) && tsrKptr r % 4 == 0

/-- Does a 64-byte record at an address lie in its space? -/
def tsrPlace (as : Space) (va : Nat) : Bool :=
  va % 64 == 0 &&
  (match as with
   | .glob => decide (va < 2 ^ 57)
   | .own => decide (va < 0x100000)
   | .clus => decide (va < 0x4000000))

/-- Read and validate the TSR that an instruction names (spec/06 R136, R137), but for a TY of 15. R136 gives TVAL = the TSR's address to a translation fault and a refusal; that a TSR at a register
address of an OFF bank (cause 0x03), or in bytes that meet an error (0x0E), has it too is the model's choice (log 88). -/
def readTsrAny (s : State) (a : Actor) (as : Space) (va : Nat) (accepts : BitVec 512 → Bool) : Acc (BitVec 512 × State) :=
  if !tsrPlace as va then .fault 9 va
  else
    match loadWords s a as va 8 with
    | .ok (n, s) =>
        let r := BitVec.ofNat 512 n
        if tsrOk r && accepts r then .ok (r, s) else .fault 9 va
    | .fault c _ => .fault c va
    | .wait b => .wait b

/-- Read and validate the TSR that an instruction names; a TY of 15 is no type (spec/06 R136). -/
def readTsr (s : State) (a : Actor) (as : Space) (va : Nat) (accepts : BitVec 512 → Bool) : Acc (BitVec 512 × State) :=
  readTsrAny s a as va fun r => tsrCode r != 15 && accepts r

/-! ### Elements (spec/06 R135) -/

/-- The index of an element from its place in the linear order. -/
def idxOf : List Nat → Nat → List Nat
  | [], _ => []
  | z :: r, n => n % z :: idxOf r (n / z)

/-- Σ i_d × STRIDE_d over the dimensions other than one (4 for none). -/
def dotIdx (r : BitVec 512) (skip : Nat) (ix : List Nat) : Int :=
  (upFrom 0 4).foldl (fun a d => if d = skip then a else a + lget 0 ix d * tsrStride r d) 0

/-- An address computed from a base and a signed displacement. The sum is taken modulo 2^64, of R135's bit addresses as well (log 83): the spec states the
sums and not their range. -/
def addrPlus (b : Nat) (n : Int) : Nat := (BitVec.ofInt 64 ((b : Int) + n)).toNat

/-- Address of an element of an ordinary type. -/
def elemAddr (r : BitVec 512) (ix : List Nat) : Nat := addrPlus (tsrMptr r) (dotIdx r 4 ix)

/-- Group number of a position along the blocked axis at an index. -/
def groupOf (r : BitVec 512) (ix : List Nat) (q : Nat) : Int := q * tsrStride r (tsrBax r) + dotIdx r (tsrBax r) ix

def fieldAddr (r : BitVec 512) (g : Int) : Nat := addrPlus (tsrMptr r) (g * (tsrField r : Nat))
def scaleAddr (r : BitVec 512) (g : Int) : Nat := addrPlus (tsrSptr r) g
def maskAddr (r : BitVec 512) (g : Int) : Nat := addrPlus (tsrKptr r) (4 * g)

/-- The value of an element of a block type, from its scale, mask and mantissa. -/
def blockVal (t : Ty) (mw e m : Nat) : Val :=
  if t = .gbf then mantVal mw e (sextNat mw m) else mxVal t e m

/-- Entry of a stored position: the number of mask bits below it. -/
def popBelow (mask p : Nat) : Nat := ((upFrom 0 p).filter (bitOf mask)).length

/-- Read an entry of a group's field. -/
def readMant (s : State) (a : Actor) (r : BitVec 512) (g : Int) (entry : Nat) : Acc (Nat × State) :=
  let lo := tsrMw r * entry
  match loadSpan s a (tsrMas r) (fieldAddr r g + lo / 8) ((lo + tsrMw r - 1) / 8 - lo / 8 + 1) with
  | .ok (v, s) => .ok (bits v (lo % 8) (tsrMw r), s)
  | .fault c t => .fault c t
  | .wait b => .wait b

/-- Read position `p` of a group: scale, then mask, then mantissa. Every position of a NaN block is NaN (spec/02 R37); of a finite group a position that is
not stored reads as zero (log 21). -/
def readPos (s : State) (a : Actor) (r : BitVec 512) (g : Int) (p : Nat) : Acc (Val × State) :=
  match loadElem s a (tsrMas r) (scaleAddr r g) 1 with
  | .ok (e, s) =>
      match (if tsrSpn r = 0 then .ok (2 ^ 32 - 1, s) else loadElem s a (tsrMas r) (maskAddr r g) 4) with
      | .ok (mask, s) =>
          if bitOf mask p then
            match readMant s a r g (popBelow mask p) with
            | .ok (m, s) => .ok (blockVal (tsrTy r) (tsrMw r) e m, s)
            | .fault c t => .fault c t
            | .wait b => .wait b
          else .ok (if e = 255 then .nan else zeroV, s)
      | .fault c t => .fault c t
      | .wait b => .wait b
  | .fault c t => .fault c t
  | .wait b => .wait b

/-- Read one element as its exact value. -/
def readVal (s : State) (a : Actor) (r : BitVec 512) (ix : List Nat) : Acc (Val × State) :=
  let t := tsrTy r
  if t.isNum then
    match loadElem s a (tsrMas r) (elemAddr r ix) (elemBytes t) with
    | .ok (b, s) => .ok (valOf t b, s)
    | .fault c t => .fault c t
    | .wait b => .wait b
  else if t = .bit then
    let n := addrPlus (8 * tsrMptr r) (dotIdx r 4 ix)
    match loadElem s a (tsrMas r) (n / 8) 1 with
    | .ok (b, s) => .ok (ofInt (bits b (n % 8) 1) 0, s)
    | .fault c t => .fault c t
    | .wait b => .wait b
  else
    let i := lget 0 ix (tsrBax r)
    readPos s a r (groupOf r ix (i / 32)) (i % 32)

/-- Will a group's field and scale byte be written? Nothing is written yet. -/
def checkGroup (s : State) (a : Actor) (r : BitVec 512) (g : Int) : Acc Unit :=
  match checkSpan s a (tsrMas r) (fieldAddr r g) .write (tsrField r) with
  | .ok _ => checkSpan s a (tsrMas r) (scaleAddr r g) .write 1
  | .fault c t => .fault c t
  | .wait b => .wait b

/-- Write a dense group: its field, then its scale byte (spec/02 R38, R39). -/
def writeGroup (s : State) (a : Actor) (r : BitVec 512) (g : Int) (x : Group) : Acc State :=
  match storeSpan s a (tsrMas r) (fieldAddr r g) (tsrField r) (packMants (tsrMw r) x.m) with
  | .ok s => storeSpan s a (tsrMas r) (scaleAddr r g) 1 x.e
  | .fault c t => .fault c t
  | .wait b => .wait b

/-- Pad a list of values with zero to a whole group. -/
def padGroup (l : List Val) : List Val := l ++ List.replicate (32 - l.length) zeroV

/-- Non-finite elements replaced are counted in a strand's NANCNT (spec/02 R47). -/
def countNan (s : State) (k n : Nat) : State :=
  if n = 0 then s else modStrand s k fun x => { x with nancnt := BitVec.ofNat 64 (min (x.nancnt.toNat + n) 0xFFFFFFFF) }

end Sys2Proof.Machine
end

