-- ==== Sys2Proof/Machine/Matrix.lean ====
section
/-!
DEFINITION. The tree-matrix unit: operand groups, the block step, the weight latch, readout, provenance, and the matrix instructions
(spec/03, spec/08 R169-R183).
-/
namespace Sys2Proof.Machine

/-! ### Provenance (spec/03 R63, R64) -/

/-- The order of R64. -/
def evKey (e : ProvEv) : Nat := (((e.kblk * 2 ^ 10 + e.row) * 2 ^ 10 + e.col) * 2 ^ 5 + e.pos) * 8 + e.kind

/-- The first event of a list. -/
def firstEv : List ProvEv → Option ProvEv
  | [] => none
  | e :: r =>
    match firstEv r with
    | some f => some (if evKey f < evKey e then f else e)
    | none => some e

/-- A strand's record of an event, with its trace record. -/
def recordProv (s : State) (k : Nat) (e : ProvEv) : State :=
  let x := getStrand s k
  let a := 2 ^ 63 + e.kind * 2 ^ 60 + strandNo k * 2 ^ 58 + e.fmt * 2 ^ 54 + e.mw * 2 ^ 50 + e.opnd * 2 ^ 49
    + e.kblk % 32 * 2 ^ 44 + e.col % 1024 * 2 ^ 34 + e.row % 512 * 2 ^ 25 + e.pos % 32 * 2 ^ 20
  let b := x.pc.toNat % 2 ^ 57 / 4 * 4
  emitStrand (modStrand s k fun x => { x with prova := BitVec.ofNat 64 a, provb := BitVec.ofNat 64 b }) k 0x20 [a % 2 ^ 63, b, 1]

def recordFirst (s : State) (k : Nat) (l : List ProvEv) : State :=
  match firstEv l with
  | some e => recordProv s k e
  | none => s

/-! ### Operand groups (spec/03 R52, R53, R55) -/

def fullMask : BitVec 32 := BitVec.allOnes 32
def zeros32 : List Int := List.replicate 32 0

/-- A group wholly beyond its tensor. -/
def padOp (stored : Nat) : OpGroup := ⟨0, if stored = 32 then fullMask else Config.padMask stored, zeros32, 0, 0, []⟩

/-- A stored GBF group with `lim` positions inside its tensor. In zero-and-count mode every element of a NaN block that lies inside the tensor counts,
whether its position is stored or not (spec/02 R46); that elements beyond SIZE0 do not is the model's choice (log 84). -/
def gbfOp (zc : Bool) (mw e : Nat) (mask : BitVec 32) (fld lim : Nat) : OpGroup :=
  if e = 255 then
    if zc then ⟨0, mask, zeros32, 0, min lim 32, [(1, 0)]⟩
    else ⟨255, mask, zeros32, fullMask, 0, [(1, 0)]⟩
  else
    ⟨e, mask, (upFrom 0 32).map fun p => if mask.getLsbD p && decide (p < lim) then fieldMant mw (popBelow mask.toNat p) fld else 0, 0, 0, []⟩

/-- The non-finite positions of a list of values, as (KIND, POS). -/
def badPositions : Nat → List Val → List (Nat × Nat)
  | _, [] => []
  | p, .nan :: r => (1, p) :: badPositions (p + 1) r
  | p, .inf _ :: r => (2, p) :: badPositions (p + 1) r
  | p, .fin .. :: r => badPositions (p + 1) r

def markBits : List (Nat × Nat) → BitVec 32
  | [] => 0
  | (_, p) :: r => (1#32 <<< p) ||| markBits r

/-- A group formed in flight at width `b` from 32 values. -/
def fpOp (zc : Bool) (b : Nat) (vs : List Val) : OpGroup :=
  let bad := badPositions 0 vs
  let r := formBlock b (vs.map fun v => if v.isFin then v else zeroV)
  ⟨r.1.e, fullMask, r.1.m, if zc then 0 else markBits bad, if zc then bad.length else 0, bad ++ if r.2 then [(5, 0)] else []⟩

/-- A group as a weight: one with marked positions is a NaN block (spec/02 R41). -/
def asWeight (o : OpGroup) : OpGroup :=
  if o.marked = 0 then o else { o with e := 255, m := zeros32, evs := o.evs.filter fun v => v.1 != 5 }

def latchGroup (o : OpGroup) : WGroup := ⟨o.e, o.mask, o.m⟩

/-! ### Reading operands: the lowest faulting address is kept (spec/08 R178) -/

/-- What a run of reads has found: the lowest faulting address with its cause, whether a result on its way is awaited, and the core whose vector bank
an access waits for. -/
structure Reads where
  s : State
  bad : Option (Nat × Nat)
  hold : Bool
  bank : Option Nat
  deriving DecidableEq, Repr

/-- A run of reads begins. -/
def readsFrom (s : State) : Reads := ⟨s, none, false, none⟩

def Reads.fault (r : Reads) (c t : Nat) : Reads :=
  { r with bad := match r.bad with
      | some b => if t < b.1 then some (t, c) else some b
      | none => some (t, c) }

/-- Note the answer of a read; a failure reads as zero. -/
def Reads.note (r : Reads) (a : Acc (Nat × State)) : Nat × Reads :=
  match a with
  | .ok (v, s) => (v, { r with s := s })
  | .fault c t => (0, r.fault c t)
  | .wait b => (0, { r with hold := true, bank := r.bank.or b })

/-- Read the elements of a group of FP16 or BF16, `lim` of them inside the tensor. -/
def readElems (a : Actor) (as : Space) (t : Ty) (addr : Nat → Nat) (lim : Nat) : List Nat → Reads → List Val × Reads
  | [], r => ([], r)
  | p :: l, r =>
    if p < lim then
      let x := r.note (loadElem r.s a as (addr p) (elemBytes t))
      let y := readElems a as t addr lim l x.2
      (valOf t x.1 :: y.1, y.2)
    else
      let y := readElems a as t addr lim l r
      (zeroV :: y.1, y.2)

/-- Read group `kb` along dimension 0 at an index of dimension 1 of a tensor blocked along dimension 0; FP16 and BF16 are formed at width
`b`. `wt` asks that a mask stores as many positions as the record says. -/
def readOp (zc wt : Bool) (b : Nat) (a : Actor) (r : BitVec 512) (kb other : Nat) (x : Reads) : OpGroup × Reads :=
  let lim := tsrSize r 0 - 32 * kb
  if lim = 0 then (padOp (tsrStored r), x)
  else if tsrTy r = .gbf then
    let g := groupOf r [32 * kb, other, 0, 0] kb
    let fld := x.note (loadSpan x.s a (tsrMas r) (fieldAddr r g) (tsrField r))
    let sc := fld.2.note (loadElem fld.2.s a (tsrMas r) (scaleAddr r g) 1)
    let mk := if tsrSpn r = 0 then (2 ^ 32 - 1, sc.2) else sc.2.note (loadElem sc.2.s a (tsrMas r) (maskAddr r g) 4)
    let y := mk.2
    let y := if wt && y.bad.isNone && !y.hold && tsrSpn r != 0 && popBelow mk.1 32 != tsrStored r then y.fault 9 (maskAddr r g) else y
    (gbfOp zc (tsrMw r) sc.1 (BitVec.ofNat 32 mk.1) fld.1 lim, y)
  else
    let v := readElems a (tsrMas r) (tsrTy r) (fun p => elemAddr r [32 * kb + p, other, 0, 0]) lim (upFrom 0 32) x
    (fpOp zc b v.1, v.2)

/-- A weight group; a column at or beyond SIZE1 is a zero group. -/
def readWeight (zc : Bool) (a : Actor) (r : BitVec 512) (kb col : Nat) (x : Reads) : OpGroup × Reads :=
  if tsrRows r ≤ col then (padOp (tsrStored r), x)
  else
    let o := readOp zc true 8 a r kb col x
    (asWeight o.1, o.2)

/-- Width of a weight source's latched mantissas. -/
def weightWidth (r : BitVec 512) : Nat := if tsrTy r = .gbf then tsrMw r else 8
def actWidth (r : BitVec 512) : Nat := if tsrTy r = .gbf then tsrMw r else 16

/-- The TSR conditions of a weight source and of an activation source (spec/03 R52, R53, spec/08 R172, R175). -/
def operandOk (r : BitVec 512) : Bool := tsrCode r == 8 || tsrCode r == 9 || (tsrCode r == 11 && tsrBax r == 0)

/-- The conditions of a weight source in a context whose descriptor allows some of the sparsities (spec/20 R318, R320). -/
def weightOk (desc : BitVec 512) (r : BitVec 512) : Bool := operandOk r && (tsrSpn r == 0 || desc.getLsbD (197 + tsrSpn r))

/-! ### The block step (spec/03 R56, R57, R59) -/

def nanInt : Int := -(2 ^ 63 : Nat)
def maxAcc : Int := (2 ^ 63 : Nat) - 1
/-- Arithmetic shift right that floors (spec/00 R6). -/
def asr (n : Int) (d : Nat) : Int := n / (2 ^ d : Nat)

def badPair (a : OpGroup) (w : WGroup) : Bool := w.ew == 255 || a.marked &&& w.mask != 0
def sigOf (a : OpGroup) (w : WGroup) : Int := (a.e : Int) - 127 + ((w.ew : Int) - 127)
def dot : List Int → List Int → Int
  | x :: xs, y :: ys => x * y + dot xs ys
  | _, _ => 0

/-- The product scales of the finite elements of a row that participate. -/
def rowSigs (a : OpGroup) : List Int → List (Option WGroup) → List Int
  | v :: vs, some w :: ws => if badPair a w || v == nanInt then rowSigs a vs ws else sigOf a w :: rowSigs a vs ws
  | _ :: vs, none :: ws => rowSigs a vs ws
  | _, _ => []

def tileSigs (ws : List (Option WGroup)) : List (Option OpGroup) → List (List Int) → List Int
  | some a :: as, r :: rs => rowSigs a r ws ++ tileSigs ws as rs
  | none :: as, _ :: rs => tileSigs ws as rs
  | _, _ => []

/-- The greatest of a list. -/
def maxInt : List Int → Option Int
  | [] => none
  | v :: r =>
    match maxInt r with
    | some w => some (max v w)
    | none => some v

/-- One element of a row: its new value and whether it was clamped. -/
def stepElem (sh : Nat) (x : Int) (a : OpGroup) (w : WGroup) (v : Int) : Int × Bool :=
  if badPair a w then (nanInt, false)
  else if v = nanInt then (v, false)
  else
    let t := v + asr (dot a.m w.m * (2 ^ sh : Nat)) (x - sigOf a w).toNat
    if maxAcc < t then (maxAcc, true) else if t < -maxAcc then (-maxAcc, true) else (t, false)

def stepRow (sh : Nat) (x : Int) (a : OpGroup) : List Int → List (Option WGroup) → List (Int × Bool)
  | v :: vs, some w :: ws => stepElem sh x a w v :: stepRow sh x a vs ws
  | v :: vs, none :: ws => (v, false) :: stepRow sh x a vs ws
  | vs, [] => vs.map fun v => (v, false)
  | [], _ => []

def stepRows (sh : Nat) (x : Int) (ws : List (Option WGroup)) : List (Option OpGroup) → List (List Int) → List (List (Int × Bool))
  | some a :: as, r :: rs => stepRow sh x a r ws :: stepRows sh x ws as rs
  | none :: as, r :: rs => (r.map fun v => (v, false)) :: stepRows sh x ws as rs
  | [], rs => rs.map fun r => r.map fun v => (v, false)
  | _, [] => []

/-- Realign every element that is no NaN. -/
def realign (d : Nat) (rows : List (List Int)) : List (List Int) := rows.map fun r => r.map fun v => if v = nanInt then v else asr v d

/-- Places of the clamped elements. -/
def clampedIn (i : Nat) : Nat → List (Int × Bool) → List (Nat × Nat)
  | _, [] => []
  | j, (_, b) :: r => if b then (i, j) :: clampedIn i (j + 1) r else clampedIn i (j + 1) r
def clampedAt : Nat → List (List (Int × Bool)) → List (Nat × Nat)
  | _, [] => []
  | i, r :: rs => clampedIn i 0 r ++ clampedAt (i + 1) rs

/-- The block step of R57; the places of the elements it clamped. -/
def blockStep (ba bw : Nat) (acts : List (Option OpGroup)) (ws : List (Option WGroup)) (t : Tile) : Tile × List (Nat × Nat) :=
  let t := match maxInt (tileSigs ws acts t.rows) with
    | none => t
    | some m =>
        if t.empty then { t with x := m }
        else if t.x < m then { t with x := m, rows := realign (m - t.x).toNat t.rows }
        else t
  let rs := stepRows (48 - ba - bw) t.x ws acts t.rows
  let hit := clampedAt 0 rs
  ({ t with empty := false, sat := t.sat || !hit.isEmpty, rows := rs.map fun r => r.map Prod.fst }, hit)

/-! ### Tiles in the pool (spec/01 R20, R22) -/

/-- Little-endian words of a list of bytes. -/
def words8 : List Byte → List Nat
  | a :: b :: c :: d :: e :: f :: g :: h :: r => leOf [a, b, c, d, e, f, g, h] :: words8 r
  | _ => []

/-- A list in rows of 80. -/
def rows80 : Nat → List Int → List (List Int)
  | 0, _ => []
  | n + 1, l => l.take 80 :: rows80 n (l.drop 80)

def loadTile (s : State) (k : Nat) (a : AReg) : Tile :=
  let y := getCore s (coreOf k)
  let w := (getTile (getStrand s k) a.toNat).toNat
  ⟨sextNat 16 (bits w 0 16), bitOf w 16, bitOf w 17,
    rows80 48 ((words8 (readBytes y.pool (tileOffset y (strandNo k) a.toNat) 30720)).map (sextNat 64))⟩

/-- Tile-state word of a tile. -/
def tileWord (t : Tile) : BitVec 18 := BitVec.ofNat 18 (bitsOfInt 16 t.x + bnat t.empty * 2 ^ 16 + bnat t.sat * 2 ^ 17)

def storeTile (s : State) (k : Nat) (a : AReg) (t : Tile) : State :=
  let bs := t.rows.flatMap fun r => r.flatMap fun v => bytesOf 8 (bitsOfInt 64 v)
  let s := modCore s (coreOf k) fun y => { y with pool := writeBytes y.pool (tileOffset y (strandNo k) a.toNat) bs }
  modStrand s k fun x => setTile x a.toNat (tileWord t)

/-! ### The weight latch (spec/03 R54) -/

def getBuf (y : Core) (b : Bool) : LatchBuf := if b then y.latch1 else y.latch0
def putBuf (y : Core) (b : Bool) (l : LatchBuf) : Core := if b then { y with latch1 := l } else { y with latch0 := l }

/-- Is the buffer that a `WLD` would fill held by a strand other than `k`, or being filled? -/
def targetHeld (y : Core) (k : Nat) : Bool :=
  let b := getBuf y (!y.latest)
  b.filling.isSome || b.holders.any (· != k)

/-! ### WLD (spec/08 R171-R173) -/

/-- Events of a weight group at a place. -/
def weightEvs (r : BitVec 512) (kblk row col : Nat) (o : OpGroup) : List ProvEv :=
  o.evs.map fun v => ⟨kblk, if v.1 = 5 then 0 else row, col, v.2, v.1, tsrCode r, tsrMw r, 1⟩

/-- What a run over weight groups has gathered: the groups, the elements replaced, the events. -/
structure Gathered where
  groups : List WGroup
  count : Nat
  evs : List ProvEv
  deriving DecidableEq, Repr

/-- Latch the groups of a list of (K-block, column) in order, stopping at the first failure. -/
def latchAll (zc : Bool) (a : Actor) (r : BitVec 512) (kb0 col0 : Nat) : List (Nat × Nat) → Reads → Gathered × Reads
  | [], x => (⟨[], 0, []⟩, x)
  | (t, j) :: l, x =>
    let o := readWeight zc a r (kb0 + t) (col0 + j) x
    if o.2.bad.isSome || o.2.hold then (⟨[], 0, []⟩, o.2)
    else
      let y := latchAll zc a r kb0 col0 l o.2
      (⟨latchGroup o.1 :: y.1.groups, o.1.count + y.1.count, weightEvs r t 0 j o.1 ++ y.1.evs⟩, y.2)

/-- K-blocks and columns of a tile, block-major. -/
def blockCols (nb nw : Nat) : List (Nat × Nat) := (upFrom 0 nb).flatMap fun t => (upFrom 0 nw).map fun j => (t, j)

/-- At its issue a `WLD` makes the buffer that it will fill the latest one; the tile is latched by its step. -/
def execWld (c : Common) (sa : SReg) (was : Space) (full : Bool) (nw : BitVec 7) (col0 : BitVec 16) (kb0 : BitVec 11) (s : State) :
    Host.Outcome State Fault Refusal :=
  let i : Instr := .wld c sa was full nw col0 kb0
  issue i c s fun s =>
    let k := s.cur
    if targetHeld (myCore s) k then .hold
    else
      ofAcc (readTsr s (strandActor s k) was (getS (me s) sa).toNat (weightOk (myCore s).desc)) fun p =>
        let s := modCore (releaseLatch p.2 k) (coreOf k) fun y =>
          { putBuf y (!y.latest) { LatchBuf.empty with filling := some k } with latest := !y.latest }
        .start (modMe s fun x =>
          { x with long := some ⟨i, p.1, 0, stNanm x, stWte x, 0, bnat (myCore s).latest, 0, [], 0, none, (myCore s).issueNo⟩ })

/-- K-blocks, columns, first column and first K-block that a `WLD` latches from a source that stores `n` positions of a group. -/
def wldShape (i : Instr) (n : Nat) : Nat × Nat × Nat × Nat :=
  match i with
  | .wld _ _ _ full nw col0 kb0 => (if full then 64 / n else 1, nw.toNat, col0.toNat, kb0.toNat)
  | _ => (0, 0, 0, 0)

/-- The step of a `WLD`: its tile is latched, or the buffer is left without one (spec/08 R172, R173). -/
def wldStep (s : State) (k : Nat) (l : Long) : State :=
  let r := l.tsrA
  let n := tsrStored r
  let q := wldShape l.i n
  let y := latchAll l.nanm (strandActor s k) r q.2.2.2 q.2.2.1 (blockCols q.1 q.2.1) (readsFrom s)
  if y.2.hold then wakeBank s y.2.bank
  else
    match y.2.bad with
    | some (t, cause) => faultFrom s y.2.s k cause t
    | none =>
        let s := modCore y.2.s (coreOf k) fun c => putBuf c (l.buf == 1) ⟨true, q.1, q.2.1, n, weightWidth r, y.1.groups, (getBuf c (l.buf == 1)).holders, none⟩
        finishLong (recordFirst (countNan s k y.1.count) k y.1.evs) k l

/-! ### MMA and MMA.G (spec/08 R174-R179) -/

/-- RESUME of a matrix instruction. -/
def mmaResume (rec_ g : Bool) (done : Nat) : Word := BitVec.ofNat 64 (0x81 * 2 ^ 56 + bnat rec_ * 2 ^ 55 + bnat g * 2 ^ 54 + done)
/-- Does RESUME hold the progress of an instruction of this kind? -/
def mmaResumes (x : Strand) (g : Bool) : Bool := bits x.resume.toNat 56 8 == 0x81 && bitOf x.resume.toNat 54 == g
def mmaDone (x : Strand) : Nat := bits x.resume.toNat 0 6
def recBit (x : Strand) : Bool := bitOf x.resume.toNat 55

/-- The buffer a strand holds. -/
def heldBuf (y : Core) (k : Nat) : Option Bool :=
  if y.latch0.holders.contains k then some false else if y.latch1.holders.contains k then some true else none

/-- At its issue an `MMA` binds the latest buffer, or the one that it still holds; it keeps the RESUME that it found in case that buffer turns out to hold no tile
(spec/03 R54). -/
def execMma (c : Common) (d : AReg) (sa : SReg) (aas : Space) (kb0 : BitVec 11) (row0 : BitVec 16) (nrow : BitVec 10) (s : State) :
    Host.Outcome State Fault Refusal :=
  let i : Instr := .mma c d sa aas kb0 row0 nrow
  issue i c s fun s =>
    let k := s.cur
    ofAcc (readTsr s (strandActor s k) aas (getS (me s) sa).toNat operandOk) fun p =>
      let s := p.2
      let again := mmaResumes (me s) false
      let kept := if again then heldBuf (myCore s) k else none
      let b := kept.getD (myCore s).latest
      let buf := getBuf (myCore s) b
      if kept.isNone && !buf.valid && buf.filling.isNone then .trap 9 0
      else
        let s := modCore (releaseLatch s k) (coreOf k) fun y => putBuf y b { getBuf y b with holders := (getBuf y b).holders ++ [k] }
        .start (modMe s fun x =>
          { x with
            resume := if again then x.resume else mmaResume false false 0
            long := some ⟨i, p.1, 0, stNanm x, stWte x, x.geom, bnat b, x.resume, [], 0, none, (myCore s).issueNo⟩ })

def geomRows (g : Word) : Nat := bits g.toNat 10 4
def geomCols (g : Word) : Nat := bits g.toNat 6 4
def geomOrgRow (g : Word) : Nat := bits g.toNat 3 3
def geomOrgCol (g : Word) : Nat := bits g.toNat 0 3
def geomPosRow (g : Word) : Nat := bits g.toNat 17 3
def geomPosCol (g : Word) : Nat := bits g.toNat 14 3
def geomIn (g : Word) : Bool := g.getLsbD 20
/-- The geometry is valid (spec/01 R32). -/
def geomValid (g : Word) : Bool :=
  decide (1 ≤ geomRows g) && decide (1 ≤ geomCols g) && decide (geomOrgRow g + geomRows g ≤ 8) && decide (geomOrgCol g + geomCols g ≤ 8)

/-- A strand begins its next `MMA.G` instance (spec/08 R177). -/
def openInstance (x : Strand) : Strand := { x with mmagN := x.mmagN + 1, mmagOpen := (x.mmagN + 1, false) :: x.mmagOpen }

/-- The instance that a strand's `MMA.G` continues: the latest one begun and not completed. -/
def openOrdinal (x : Strand) : Nat :=
  match x.mmagOpen with
  | p :: _ => p.1
  | [] => x.mmagN

/-- Starting `MMA.G`. Where the core is in no group it retires with no effect, and its strand keeps the buffer that it holds, which is the model's choice (spec/03 R54, spec/08 R176; log 91). -/
def execMmaG (c : Common) (d : AReg) (sa sb : SReg) (aas was : Space) (kb0 : BitVec 11) (row0 col0 : BitVec 16) (nrow ncol : BitVec 10)
    (nkb : BitVec 6) (s : State) : Host.Outcome State Fault Refusal :=
  let i : Instr := .mmaG c d sa sb aas was kb0 row0 col0 nrow ncol nkb
  issue i c s fun s =>
    let k := s.cur
    let g := (me s).geom
    if !geomValid g || decide (48 * geomRows g < nrow.toNat) || decide (80 * geomCols g < ncol.toNat) then .trap 9 g.toNat
    else if !geomIn g then .landed s
    else
      ofAcc (readTsr s (strandActor s k) aas (getS (me s) sa).toNat operandOk) fun p =>
      ofAcc (readTsr p.2 (strandActor s k) was (getS (me s) sb).toNat (weightOk (myCore s).desc)) fun q =>
        let s := releaseLatch q.2 k
        let s := if mmaResumes (me s) true then s else modMe s fun x => openInstance { x with resume := mmaResume false true 0 }
        .start (modMe s fun x =>
          { x with long := some ⟨i, p.1, q.1, stNanm x, stWte x, g, 0, BitVec.ofNat 64 (openOrdinal x), [], 0, none, (myCore s).issueNo⟩ })

/-- One K-block of a matrix instruction, as its step needs it: destination, activation rows and K-block, offsets of the result's
coordinates, the rows and columns of P, the number of K-blocks. -/
structure BlockJob where
  dst : AReg
  arow : Nat
  akb : Nat
  ro : Nat
  co : Nat
  rows : List Nat
  cols : List Nat
  nkb : Nat
  deriving DecidableEq, Repr

/-- The next K-block of a long matrix instruction. -/
def jobOf (y : Core) (l : Long) (t : Nat) : Option BlockJob :=
  match l.i with
  | .mma _ d _ _ kb0 row0 nrow =>
      let b := getBuf y (l.buf == 1)
      some ⟨d, row0.toNat, kb0.toNat + t, 0, 0,
        (upFrom 0 48).filter fun i => decide (i < nrow.toNat) && decide (row0.toNat + i < tsrRows l.tsrA), upFrom 0 b.nw, b.nb⟩
  | .mmaG _ d _ _ _ _ kb0 row0 col0 m n nkb =>
      let ro := 48 * geomPosRow l.geom
      let co := 80 * geomPosCol l.geom
      some ⟨d, row0.toNat + ro, kb0.toNat + t, ro, co,
        (upFrom 0 48).filter fun i => decide (ro + i < m.toNat) && decide (row0.toNat + ro + i < tsrRows l.tsrA),
        (upFrom 0 80).filter fun j => decide (co + j < n.toNat) && decide (col0.toNat + co + j < tsrRows l.tsrB), nkb.toNat⟩
  | _ => none

/-- First weight column of an `MMA.G`'s core. -/
def groupCol0 (l : Long) (co : Nat) : Nat :=
  match l.i with
  | .mmaG _ _ _ _ _ _ _ _ col0 .. => col0.toNat + co
  | _ => 0

def isGroup (l : Long) : Bool :=
  match l.i with
  | .mmaG .. => true
  | _ => false

/-- Activation groups of the rows of P. -/
def readActs (zc : Bool) (b : Nat) (a : Actor) (r : BitVec 512) (kb row0 : Nat) (p : List Nat) : List Nat → Reads → List (Option OpGroup) × Reads
  | [], x => ([], x)
  | i :: l, x =>
    if p.contains i then
      let o := readOp zc false b a r kb (row0 + i) x
      let y := readActs zc b a r kb row0 p l o.2
      (some o.1 :: y.1, y.2)
    else
      let y := readActs zc b a r kb row0 p l x
      (none :: y.1, y.2)

/-- Weight groups of the columns of P, streamed for one block. -/
def readCols (zc : Bool) (a : Actor) (r : BitVec 512) (kb col0 : Nat) (p : List Nat) : List Nat → Reads → List (Option OpGroup) × Reads
  | [], x => ([], x)
  | j :: l, x =>
    if p.contains j then
      let o := readWeight zc a r kb (col0 + j) x
      let y := readCols zc a r kb col0 p l o.2
      (some o.1 :: y.1, y.2)
    else
      let y := readCols zc a r kb col0 p l x
      (none :: y.1, y.2)

/-- The first column of P that stores a position; any column stores some position of a group. -/
def storingCol (ws : List (Option WGroup)) (kind : Nat) (whole : Bool) (pos : Nat) : Option Nat :=
  (upFrom 0 ws.length).find? fun j =>
    match lget none ws j with
    | some w => kind == 5 || whole || w.mask.getLsbD pos
    | none => false

/-- Events of the activation groups, placed (spec/03 R64). -/
def actEvs (r : BitVec 512) (kblk row0 col0 : Nat) (ro co : Nat) (ws : List (Option WGroup)) : Nat → List (Option OpGroup) → List ProvEv
  | _, [] => []
  | i, none :: l => actEvs r kblk row0 col0 ro co ws (i + 1) l
  | i, some o :: l =>
      (o.evs.map fun v =>
        match storingCol ws v.1 (tsrTy r == .gbf) v.2 with
        | some j => (⟨kblk, ro + i, co + j, v.2, v.1, tsrCode r, tsrMw r, 0⟩ : ProvEv)
        | none => ⟨kblk, ro + row0, co + col0, v.2, v.1, tsrCode r, tsrMw r, 0⟩)
      ++ actEvs r kblk row0 col0 ro co ws (i + 1) l

/-- Events of latched NaN blocks that an `MMA` meets in propagate mode. -/
def latchedEvs (bw kblk row co : Nat) : Nat → List (Option WGroup) → List ProvEv
  | _, [] => []
  | j, some w :: l =>
      (if w.ew = 255 then [(⟨kblk, row, co + j, 0, 1, 11, bw, 1⟩ : ProvEv)] else []) ++ latchedEvs bw kblk row co (j + 1) l
  | j, none :: l => latchedEvs bw kblk row co (j + 1) l

/-- The latched groups of one block, for the columns of P. -/
def latchedCols (b : LatchBuf) (t : Nat) (p : List Nat) : List (Option WGroup) :=
  (upFrom 0 80).map fun j => if p.contains j then some (lget ⟨0, 0, []⟩ b.groups (t * b.nw + j)) else none

/-- The operand groups of one K-block, of activations and of weights that stream, with what reading them finds. An instruction with an empty P reads no operand. -/
def blockReads (s : State) (k : Nat) (l : Long) (j : BlockJob) : (List (Option OpGroup) × List (Option OpGroup)) × Reads :=
  let a := strandActor s k
  if j.rows = [] ∨ j.cols = [] then (([], []), readsFrom s)
  else
    let ar := readActs l.nanm (actWidth l.tsrA) a l.tsrA j.akb j.arow j.rows (upFrom 0 48) (readsFrom s)
    let wr := if isGroup l then readCols l.nanm a l.tsrB j.akb (groupCol0 l j.co) j.cols (upFrom 0 80) ar.2 else ([], ar.2)
    ((ar.1, wr.1), wr.2)

/-- What one K-block's step finds and makes: the operand reads, the tile with its clamped places, the elements replaced, the events. -/
structure BlockRun where
  x : Reads
  tile : Tile
  count : Nat
  evs : List ProvEv
  deriving DecidableEq, Repr

/-- The operands and the step of K-block `t` of a long matrix instruction of a strand. An instruction with an empty P reads no operand and meets no event; and where
an activation event and a weight event have one place and KIND, the record names the activation. The spec says neither (log 85). -/
def runBlock (s : State) (k : Nat) (l : Long) (j : BlockJob) (t : Nat) : BlockRun :=
  let y := getCore s (coreOf k)
  let tile := loadTile s k j.dst
  if j.rows = [] ∨ j.cols = [] then ⟨readsFrom s, { tile with empty := false }, 0, []⟩
  else
    let o := blockReads s k l j
    let acts := o.1.1
    let cols := o.1.2
    let ws := if isGroup l then cols.map (Option.map latchGroup) else latchedCols (getBuf y (l.buf == 1)) t j.cols
    let bw := if isGroup l then weightWidth l.tsrB else (getBuf y (l.buf == 1)).bw
    let r := blockStep (actWidth l.tsrA) bw acts ws tile
    let row0 := j.rows.headD 0
    let col0 := j.cols.headD 0
    let wEvs := if isGroup l then
        (upFrom 0 cols.length).flatMap fun q =>
          match lget none cols q with
          | some o => weightEvs l.tsrB t (j.ro + row0) (j.co + q) o
          | none => []
      else latchedEvs bw t row0 0 0 ws
    let cnt (q : List (Option OpGroup)) : Nat := q.foldl (fun n o => match o with
      | some o => n + o.count
      | none => n) 0
    ⟨o.2, r.1, cnt acts + cnt cols,
      actEvs l.tsrA t row0 col0 j.ro j.co ws 0 acts ++ wEvs
        ++ r.2.map fun p => ⟨t, j.ro + p.1, j.co + p.2, 0, 3, 0, 0, 0⟩⟩

/-- A matrix instruction has applied its last K-block. -/
def finishMatrix (s : State) (k : Nat) (l : Long) : State :=
  let s := if isGroup l then
      modStrand (invalidateLatch s (coreOf k)) k fun x => { x with mmagOpen := x.mmagOpen.filter fun p => p.1 != l.x.toNat }
    else releaseLatch s k
  finishLong s k l

/-- An `MMA` whose buffer turns out to hold no tile traps with no effect (spec/03 R54). -/
def noTile (s : State) (k : Nat) (l : Long) : State :=
  faultFrom s (modStrand (releaseLatch s k) k fun x => { x with resume := l.x }) k 9 0

/-- One granted K-block step. -/
def matrixStep (s : State) (k : Nat) (l : Long) : State :=
  let x := getStrand s k
  let t := mmaDone x
  match jobOf (getCore s (coreOf k)) l t with
  | none => s
  | some j =>
      if !isGroup l && (getBuf (getCore s (coreOf k)) (l.buf == 1)).nb == 0 then noTile s k l
      else if j.nkb ≤ t then finishMatrix s k l
      else
        let r := runBlock s k l j t
        if r.x.hold then wakeBank s r.x.bank
        else
          match r.x.bad with
          | some (tv, c) => faultLong s k c tv
          | none =>
              let s := storeTile (countNan r.x.s k r.count) k j.dst r.tile
              let hit := !recBit x && !r.evs.isEmpty
              let s := if hit then recordFirst s k r.evs else s
              let s := modStrand s k fun x =>
                { x with resume := mmaResume (recBit x || hit) (isGroup l) (t + 1), long := some { l with round := 0 } }
              if j.nkb ≤ t + 1 then finishMatrix s k l else s

/-! ### The rendezvous of MMA.G (spec/08 R177) -/

/-- The strands of the rectangle of a geometry, in ascending core order. -/
def groupMembers (k : Nat) (g : Word) : List Nat :=
  (upFrom 0 (geomRows g)).flatMap fun r => (upFrom 0 (geomCols g)).map fun c =>
    256 * clusterOf k + 4 * ((geomOrgRow g + r) * 8 + geomOrgCol g + c) + strandNo k

/-- Has a strand completed an `MMA.G` instance? -/
def instanceDone (x : Strand) (n : Nat) : Bool := decide (n ≤ x.mmagN) && !(x.mmagOpen.any fun p => p.1 == n)

/-- Has the instance that a strand's `MMA.G` continues passed its first rendezvous? -/
def instanceBegun (x : Strand) (n : Nat) : Bool := x.mmagOpen.any fun p => p.1 == n && p.2

/-- Does strand `m` let the instance of strand `k` pass boundary `b`: it is in the instance, at boundary `b` or past it, under the same context and geometry, with its
table requests complete, or it has completed an instance that has begun? -/
def memberAt (s : State) (k : Nat) (l : Long) (b m : Nat) : Bool :=
  let x := getStrand s m
  (instanceBegun (getStrand s k) l.x.toNat && instanceDone x l.x.toNat) ||
  (match x.long with
   | some q => isGroup q && q.x == l.x && decide (b ≤ mmaDone x) && stCtx x == stCtx (getStrand s k)
      && bits q.geom.toNat 0 14 == bits l.geom.toNat 0 14 && x.vtabQ.isEmpty
   | none => false)

/-- Is a strand inside its `MMA.G` of an instance? -/
def inInstance (s : State) (n : Word) (m : Nat) : Bool := (getStrand s m).long.any fun q => isGroup q && q.x == n

/-- The operands that every member of an instance must share: the X64 fields, bits 63:47 and the two TSR images. -/
def sharedOps (s : State) (m : Nat) : Nat × BitVec 512 × BitVec 512 :=
  match (getStrand s m).long with
  | some q => (encodeBits q.i / 2 ^ 47, q.tsrA, q.tsrB)
  | none => (0, 0, 0)

/-- The first member whose shared operands differ from the first one's. -/
def mismatch (s : State) (ms : List Nat) : Option Nat := ms.find? fun m => sharedOps s m != sharedOps s (ms.headD 0)

/-- A member's reading of its operands for the block after boundary `b`, if it waits there. -/
def memberReads (s : State) (b m : Nat) : Option Reads :=
  match (getStrand s m).long with
  | some q =>
      if mmaDone (getStrand s m) = b ∧ q.round = 0 then
        (jobOf (getCore s (coreOf m)) q b).map fun j => (blockReads s m q j).2
      else none
  | none => none

/-- The failure of a member's operands for the block after boundary `b`. -/
def memberFault (s : State) (b m : Nat) : Option (Nat × Nat) := (memberReads s b m).bind fun r => if r.hold then none else r.bad

/-- A member passes a rendezvous: its next step is the block after boundary `b`. -/
def passMember (n b : Nat) (x : Strand) : Strand :=
  { x with
    mmagOpen := x.mmagOpen.map fun p => if p.1 = n then (n, true) else p
    long := x.long.map fun q => if mmaDone x = b then { q with round := 1 } else q }

/-- Must a member that waits at boundary `b` stop there, for a kill or an interrupt? -/
def stopsAt (s : State) (b m : Nat) : Bool :=
  let x := getStrand s m
  (x.long.any fun q => mmaDone x == b && q.round == 0) && (leavePoint s m).isSome

/-- The members of an instance rendezvous at the boundary at which strand `k` waits. A member with a kill due or an interrupt pending stops there, and the others pause; members that
differ all fault; a member whose operands fail stops; else all that wait there go on. -/
def execMmaGRendezvous (k : StrandId) (s : State) : Host.Outcome State Fault Refusal :=
  let x := getStrand s k
  match x.long with
  | none => .next s
  | some l =>
    if !isGroup l || l.round != 0 || !mayRun s k then .next s
    else
      let b := mmaDone x
      let ms := groupMembers k l.geom
      let here := ms.filter (inInstance s l.x)
      match leavePoint s k with
      | some t => .next t
      | none =>
      if !ms.all (memberAt s k l b) then .next s
      else
        match here.find? (stopsAt s b) with
        | some m => .next ((leavePoint s m).getD s)
        | none =>
        match (if b = 0 then mismatch s here else none) with
        | some m => .next (foldUnits (fun s m' => faultLong s m' 9 (2 ^ 63 + coreNo m)) here s)
        | none =>
          let bad := here.filter fun m => (memberFault s b m).isSome
          match here.find? fun m => (memberReads s b m).any Reads.hold with
          | some m => .next (wakeBank s ((memberReads s b m).bind Reads.bank))
          | none =>
            if bad.isEmpty then .next (foldUnits (fun s m => modStrand s m (passMember l.x.toNat b)) here s)
            else
              .next (foldUnits (fun s m => match memberFault s b m with
                | some (tv, c) => faultLong s m c tv
                | none => s) bad s)

/-! ### ACCZ, ACCRD and ACCEXP (spec/08 R180-R183, spec/03 R61) -/

def clearedTile : Tile := ⟨-32768, true, false, List.replicate 48 (List.replicate 80 0)⟩

def execAccz (c : Common) (d : AReg) (s : State) : Host.Outcome State Fault Refusal :=
  issue (.accz c d) c s fun s => .done (storeTile s s.cur d clearedTile)

/-- Value of an element at readout under a scale (spec/03 R61); an exact zero is +0. -/
def readout (x : Int) (scale : Val) (v : Int) : Val :=
  if v = nanInt then .nan
  else
    match mulV (ofInt v (x - 46)) scale with
    | .fin _ 0 _ => zeroV
    | r => r

/-- A finite value that overflows a format. -/
def overflows (t : Ty) (v : Val) : Bool := v.isFin && encodeF (fmtOf t) v % (fmtOf t).sign == (fmtOf t).inf

/-- What ACCRD writes: the first column of each element or group, its value, group and overflow. -/
structure ReadoutItem where
  row : Nat
  col : Nat
  bits : Nat
  g : Group
  ovf : Bool
  count : Nat
  deriving DecidableEq, Repr

/-- The readout of a tile, in the linear order of the destination. A GBF group with a value that is NaN at readout is a NaN block in either mode, uncounted, whether the NaN comes
from the tile or from OSCALE; the spec does not say which of R61 and R41 forms a value that a non-finite OSCALE makes NaN or Inf (log 86). -/
def readoutItems (zc : Bool) (t : Ty) (mw : Nat) (scale : Val) (tile : Tile) (rows cols : Nat) : List ReadoutItem :=
  (upFrom 0 (min 48 rows)).flatMap fun i =>
    let vs := (lget [] tile.rows i).map (readout tile.x scale)
    if t = .gbf then
      ((upFrom 0 3).filter fun g => 32 * g < cols).map fun g =>
        let l := padGroup (((vs.take cols).drop (32 * g)).take 32)
        let f := formGroup (zc && !l.any (· == .nan)) mw l
        ⟨i, 32 * g, 0, f.g, f.sat, f.count⟩
    else
      (upFrom 0 (min 80 cols)).map fun j =>
        let v := lget zeroV vs j
        ⟨i, j, elemOf t v, ⟨0, []⟩, overflows t v, 0⟩

/-- Destination index of an item. -/
def itemIdx (dcol drow : Nat) (q : ReadoutItem) : List Nat := [dcol + q.col, drow + q.row, 0, 0]

/-- Check one item's destination. -/
def checkItem (s : State) (a : Actor) (r : BitVec 512) (ix : List Nat) : Acc Unit :=
  if tsrTy r = .gbf then checkGroup s a r (groupOf r ix (lget 0 ix 0 / 32))
  else
    match locate s a (tsrMas r) (elemAddr r ix) (elemBytes (tsrTy r)) (elemBytes (tsrTy r)) .write with
    | .ok _ => .ok ()
    | .fault c t => .fault c t
    | .wait b => .wait b

def checkItems (s : State) (a : Actor) (r : BitVec 512) (dcol drow : Nat) : List ReadoutItem → Acc Unit
  | [] => .ok ()
  | q :: l =>
    match checkItem s a r (itemIdx dcol drow q) with
    | .ok _ => checkItems s a r dcol drow l
    | .fault c t => .fault c t
    | .wait b => .wait b

def writeItems (s : State) (a : Actor) (r : BitVec 512) (dcol drow : Nat) : List ReadoutItem → Acc State
  | [] => .ok s
  | q :: l =>
    let ix := itemIdx dcol drow q
    match (if tsrTy r = .gbf then writeGroup s a r (groupOf r ix (lget 0 ix 0 / 32)) q.g
           else storeElem s a (tsrMas r) (elemAddr r ix) (elemBytes (tsrTy r)) q.bits) with
    | .ok s => writeItems s a r dcol drow l
    | .fault c t => .fault c t
    | .wait b => .wait b

/-- The conditions of R182 on the destination record. -/
def accrdOk (t : Ty) (mw dcol : Nat) (r : BitVec 512) : Bool :=
  tsrCode r == t.code && tsrMw r == mw && tsrSpn r == 0 && decide (8 ≤ t.code) && decide (t.code ≤ 11)
  && (t != .gbf || (tsrBax r == 0 && dcol % 32 == 0))

def execAccrd (c : Common) (t : Ty) (mw : BitVec 4) (sa : AReg) (sb : SReg) (das : Space) (dcol drow : BitVec 16) (s : State) :
    Host.Outcome State Fault Refusal :=
  issue (.accrd c t mw sa sb das dcol drow) c s fun s =>
    let k := s.cur
    let a := strandActor s k
    ofAcc (readTsr s a das (getS (me s) sb).toNat (accrdOk t mw.toNat dcol.toNat)) fun p =>
      let s := p.2
      let l := readoutItems (stNanm (me s)) t mw.toNat (decodeF fmtF32 (bits (me s).oscale.toNat 0 32)) (loadTile s k sa)
        (tsrRows p.1 - drow.toNat) (tsrSize p.1 0 - dcol.toNat)
      ofAcc (checkItems s a p.1 dcol.toNat drow.toNat l) fun _ =>
      ofAcc (writeItems s a p.1 dcol.toNat drow.toNat l) fun s =>
        let s := countNan s k (l.foldl (fun n q => n + q.count) 0)
        .done (recordFirst s k ((l.filter ReadoutItem.ovf).map fun q => ⟨0, q.row, q.col, 0, 4, 0, 0, 0⟩))

def execAccexpRd (c : Common) (d : SReg) (sa : AReg) (s : State) : Host.Outcome State Fault Refusal :=
  issue (.accexpRd c d sa) c s fun s => onMe s fun x => setS x d (BitVec.ofNat 64 (getTile x sa.toNat).toNat)

/-- Raise a tile's exponent. -/
def alignTile (e : Int) (t : Tile) : Tile :=
  if !t.empty && decide (t.x < e) then { t with x := e, rows := realign (e - t.x).toNat t.rows } else t

def execAccexpAl (c : Common) (d : AReg) (sa : SReg) (s : State) : Host.Outcome State Fault Refusal :=
  issue (.accexpAl c d sa) c s fun s =>
    .done (storeTile s s.cur d (alignTile (clampI (-32768) 32767 (getS (me s) sa).toInt) (loadTile s s.cur d)))

end Sys2Proof.Machine
end

