-- ==== Sys2Proof/Machine/Walk.lean ====
section
/-!
DEFINITION. Tree walks and the granting of steps of the tree-matrix unit (spec/08 R169, R170, R184-R194).
-/
namespace Sys2Proof.Machine

/-! ### Walk records (spec/08 R186, R187) -/

/-- A walk record's fields. -/
structure WalkRow where
  node : Nat
  depth : Nat
  stat : Nat
  chosen : Nat
  nanc : Nat
  value : Nat
  faddr : Nat
  rounds : Nat
  deriving DecidableEq, Repr

def unpackRow (r : BitVec 256) : WalkRow :=
  let n := r.toNat
  ⟨bits n 0 64, bits n 64 8, bits n 72 4, bits n 76 8, bits n 84 8, bits n 96 32, bits n 128 57, bits n 192 64⟩

def packRow (r : WalkRow) : BitVec 256 :=
  BitVec.ofNat 256 (r.node % 2 ^ 64 + r.depth % 256 * 2 ^ 64 + r.stat % 16 * 2 ^ 72 + r.chosen % 256 * 2 ^ 76 + r.nanc % 256 * 2 ^ 84
    + r.value % 2 ^ 32 * 2 ^ 96 + r.faddr % 2 ^ 57 * 2 ^ 128 + r.rounds % 2 ^ 64 * 2 ^ 192)

def rowStat (r : BitVec 256) : Nat := bits r.toNat 72 4

/-- The 48 records as they stand in the pool. -/
def readRows (s : State) (core base : Nat) : List (BitVec 256) :=
  (upFrom 0 48).map fun i => BitVec.ofNat 256 (readLE (getCore s core).pool (base + 32 * i) 32)

/-- Write one record, as one access of the core. -/
def writeRow (s : State) (core base i : Nat) (r : BitVec 256) : State :=
  modCore s core fun y => { y with pool := writeLE y.pool (base + 32 * i) 32 r.toNat }

def writeRows (core base : Nat) : List Nat → List (BitVec 256) → State → State
  | [], _, s => s
  | i :: l, rs, s => writeRows core base l rs (writeRow s core base i (lget 0 rs i))

/-! ### Node records and child entries (spec/08 R184, R185) -/

def nodeMw (n : Nat) : Nat := bits n 352 4
def nodeCode (n : Nat) : Nat := bits n 348 4
def nodeTy (n : Nat) : Ty := (Ty.ofCode (nodeCode n)).getD .s8
def nodeRule (n : Nat) : Nat := bits n 344 2
def nodeC (n : Nat) : Nat := bits n 336 7
def nodeK (n : Nat) : Nat := bits n 320 11
def nodeBptr (n : Nat) : Nat := bits n 256 57
def nodeTptr (n : Nat) : Nat := bits n 192 57
def nodeCptr (n : Nat) : Nat := bits n 128 57
def nodeSptr (n : Nat) : Nat := bits n 64 57
def nodeMptr (n : Nat) : Nat := bits n 0 57

/-- Is a node record well formed? -/
def nodeOk (n : Nat) : Bool :=
  bits n 356 156 == 0 && bits n 346 2 == 0 && bits n 343 1 == 0 && bits n 331 5 == 0 && bits n 313 7 == 0 && bits n 249 7 == 0
  && bits n 185 7 == 0 && bits n 121 7 == 0 && bits n 57 7 == 0
  && decide (32 ≤ nodeK n) && decide (nodeK n ≤ 1024) && nodeK n % 32 == 0
  && decide (1 ≤ nodeC n) && decide (nodeC n ≤ if nodeRule n = 3 then 6 else 80)
  && (if nodeCode n = 11 then decide (2 ≤ nodeMw n) && decide (nodeMw n ≤ 8)
      else (nodeCode n == 8 || nodeCode n == 9) && nodeMw n == 0 && nodeSptr n == 0)
  && (nodeRule n == 2) == (nodeTptr n != 0)
  && nodeMptr n % 4 == 0 && nodeSptr n % 4 == 0 && nodeTptr n % 4 == 0 && nodeBptr n % 4 == 0 && nodeCptr n % 8 == 0

/-- Is a child entry a well-formed node entry? -/
def nodeEntryOk (e : Nat) : Bool := !bitOf e 63 && bits e 57 6 == 0 && bits e 0 6 == 0 && e != 0
def isLeaf (e : Nat) : Bool := bitOf e 63

/-! ### Issue (spec/08 R188, R190) -/

def walkResume (op : Nat) (initd rtry rec_ : Bool) : Word :=
  BitVec.ofNat 64 (op * 2 ^ 56 + bnat rec_ * 2 ^ 55 + bnat initd * 2 ^ 54 + bnat rtry * 2 ^ 53)

/-- Does a region lie in the spill carve-out and the scratchpad? -/
def walkRegion (y : Core) (base n : Nat) : Bool := decide (carveBase y ≤ base) && decide (base + n ≤ 0x100000)

/-- The failure of the regions of a walk: its TVAL. -/
def walkBad (y : Core) (recs stage : Nat) : Option Nat :=
  if recs % 32 ≠ 0 ∨ !walkRegion y recs 1536 then some recs
  else if stage % 256 ≠ 0 ∨ !walkRegion y stage 0x6000 then some stage
  else if overlaps recs 1536 stage 0x6000 then some stage
  else none

/-- The records that `WALKI` makes. -/
def initRows (nr root : Nat) : List (BitVec 256) :=
  (upFrom 0 48).map fun i => packRow (if i < nr then ⟨root, 0, 0, 0, 0, 0, 0, 0⟩ else ⟨0, 0, 15, 0, 0, 0, 0, 0⟩)

/-- FAULT rows become ACTIVE. -/
def retryRows (rows : List (BitVec 256)) : List (BitVec 256) :=
  rows.map fun r => if rowStat r = 2 then packRow { unpackRow r with stat := 0 } else r

/-- The issue of a walk; `init` gives the rows and the root of `WALKI`. -/
def walkBody (i : Instr) (op : Nat) (sa sb sc : SReg) (aas : Space) (init : Option (Nat × Nat)) (s : State) : Res :=
  let k := s.cur
  if hasReduction s k then .hold
  else
  ofAcc (readTsr s (strandActor s k) aas (getS (me s) sa).toNat operandOk) fun p =>
    let s := p.2
    let recs := (getS (me s) sb).toNat
    let stage := (getS (me s) sc).toNat
    match walkBad (myCore s) recs stage with
    | some t => .trap 9 t
    | none =>
        let x := me s
        let fresh := bits x.resume.toNat 56 8 != op
        let s := releaseLatch (landCore s (coreOf k) fun _ _ => true) k
        let s := match init with
          | some (nr, root) =>
              if fresh || !bitOf x.resume.toNat 54 then writeRows (coreOf k) recs (upFrom 0 48) (initRows nr root) s else s
          | none => s
        let rows := readRows s (coreOf k) recs
        let rows := if fresh || bitOf x.resume.toNat 53 then retryRows rows else rows
        .start (modMe s fun x =>
          { x with
            resume := walkResume op init.isSome false (!fresh && bitOf x.resume.toNat 55)
            long := some ⟨i, p.1, 0, stNanm x, stWte x, 0, recs, BitVec.ofNat 64 stage, rows, 0, none, (myCore s).issueNo⟩ })

def execWalki (c : Common) (d sa sb sc : SReg) (aas : Space) (maxd : BitVec 8) (row0 : BitVec 16) (nr : BitVec 6) (s : State) :
    Host.Outcome State Fault Refusal :=
  let i : Instr := .walki c d sa sb sc aas maxd row0 nr
  issue i c s fun s => walkBody i 0x85 sa sb sc aas (some (nr.toNat, (getS (me s) d).toNat)) s

def execWalk (c : Common) (sa sb sc : SReg) (aas : Space) (maxd : BitVec 8) (row0 : BitVec 16) (s : State) :
    Host.Outcome State Fault Refusal :=
  let i : Instr := .walk c sa sb sc aas maxd row0
  issue i c s (walkBody i 0x86 sa sb sc aas none)

/-- Opcode, activation row of walk row 0 and maximum depth of a walk. -/
def walkArgs (i : Instr) : Option (Nat × Nat × Nat) :=
  match i with
  | .walki _ _ _ _ _ _ maxd row0 _ => some (0x85, row0.toNat, maxd.toNat)
  | .walk _ _ _ _ _ maxd row0 => some (0x86, row0.toNat, maxd.toNat)
  | _ => none

/-! ### Fetching a node (spec/08 R191) -/

/-- Offset in a plane and bytes of chunk `c` of a node: its mantissa or element plane, and its scale plane. -/
def chunkPlanes (n c : Nat) : (Nat × Nat) × (Nat × Nat) :=
  let ks := min 64 (nodeK n - 64 * c)
  if nodeCode n = 11 then
    ((4 * nodeMw n * (2 * c * nodeC n), 4 * nodeMw n * (ks / 32 * nodeC n)), (2 * c * nodeC n, ks / 32 * nodeC n))
  else ((2 * (64 * c * nodeC n), 2 * (ks * nodeC n)), (0, 0))

/-- The staging half of a chunk. -/
def stageHalf (stage c : Nat) : Nat := stage + 0x3000 * (c % 2)

/-- The staging engine fetches one chunk into its staging half. -/
def fetchChunk (s : State) (core : Nat) (a : Actor) (n stage c : Nat) : Acc State :=
  let p := chunkPlanes n c
  match loadSpan s a .glob (nodeMptr n + p.1.1) p.1.2 with
  | .ok (m, s) =>
    match loadSpan s a .glob (nodeSptr n + p.2.1) p.2.2 with
    | .ok (e, s) =>
        let half := stageHalf stage c
        .ok (modCore s core fun y =>
          { y with pool := writeBytes (writeBytes y.pool half (bytesOf p.1.2 m)) (half + 0x2800) (bytesOf p.2.2 e) })
    | .fault c t => .fault c t
    | .wait b => .wait b
  | .fault c t => .fault c t
  | .wait b => .wait b

/-- The planes of a chunk as the array reads them from the staging area (spec/08 R191). -/
def stagedPlanes (s : State) (core n stage c : Nat) : Nat × Nat :=
  let p := chunkPlanes n c
  let pool := (getCore s core).pool
  (readLE pool (stageHalf stage c) p.1.2, readLE pool (stageHalf stage c + 0x2800) p.2.2)

/-- FP32 values of a vector. -/
def fetchF32 (a : Actor) (base : Nat) : List Nat → State → Acc (List Nat × State)
  | [], s => .ok ([], s)
  | j :: l, s =>
    match loadElem s a .glob (base + 4 * j) 4 with
    | .ok (v, s) =>
      match fetchF32 a base l s with
      | .ok (vs, s) => .ok (v :: vs, s)
      | .fault c t => .fault c t
      | .wait b => .wait b
    | .fault c t => .fault c t
    | .wait b => .wait b

/-- The bias and the thresholds of a node, fetched in that order. -/
def fetchRest (s : State) (a : Actor) (n : Nat) : Acc ((List Nat × List Nat) × State) :=
  match (if nodeBptr n = 0 then .ok (List.replicate (nodeC n) 0, s) else fetchF32 a (nodeBptr n) (upFrom 0 (nodeC n)) s) with
  | .ok (b, s) =>
    match (if nodeRule n = 2 then fetchF32 a (nodeTptr n) (upFrom 0 (nodeC n)) s else .ok ([], s)) with
    | .ok (t, s) => .ok ((b, t), s)
    | .fault c t => .fault c t
    | .wait b => .wait b
  | .fault c t => .fault c t
  | .wait b => .wait b

/-- Group (kb, j) of a node from the planes of its chunk, as the array takes it. -/
def nodeGroup (zc : Bool) (n : Nat) (p : Nat × Nat) (kb j : Nat) : OpGroup :=
  if nodeCode n = 11 then
    let g := kb % 2 * nodeC n + j
    gbfOp zc (nodeMw n) (bits p.2 (8 * g) 8) fullMask (bits p.1 (32 * nodeMw n * g) (32 * nodeMw n)) 32
  else
    asWeight (fpOp zc 8 ((upFrom 0 32).map fun q => decodeF (fmtOf (nodeTy n)) (bits p.1 (16 * ((kb % 2 * 32 + q) * nodeC n + j)) 16)))

def nodeWidth (n : Nat) : Nat := if nodeCode n = 11 then nodeMw n else 8

/-! ### Evaluating the rows at a node (spec/08 R189) -/

/-- Activation groups of one row, K-block by K-block; the first failing block stops the row. -/
def rowActs (zc : Bool) (a : Actor) (r : BitVec 512) (row : Nat) : List Nat → State → List OpGroup × Reads
  | [], s => ([], readsFrom s)
  | kb :: l, s =>
    let o := readOp zc false (actWidth r) a r kb row (readsFrom s)
    if o.2.bad.isSome || o.2.hold then ([], o.2)
    else
      let y := rowActs zc a r row l o.2.s
      (o.1 :: y.1, y.2)

/-- The K-blocks of a chunk of a node. -/
def chunkBlocks (n c : Nat) : List Nat := (upFrom (2 * c) 2).filter fun kb => kb < nodeK n / 32

/-- Events of a weight group: at the first element of P, or at 0 and 0 where no row remains (spec/03 R64). -/
def nodeEvs (n : Nat) (rows : List Nat) (kb j : Nat) (o : OpGroup) : List ProvEv :=
  let at_ := rows.headD 0
  o.evs.map fun v => ⟨kb, if v.1 = 5 then 0 else at_, if rows = [] then 0 else j, v.2, v.1, nodeCode n, nodeMw n, 1⟩

/-- The block steps of a chunk's K-blocks over the rows of a visit: the private tile, the first event, the elements replaced in the matrix. Where an activation
event and a weight event have one place and KIND, the record names the activation; the spec does not say which (log 85). -/
def walkBlocks (zc : Bool) (r : BitVec 512) (p : Nat × Nat) : List Nat → Visit → Visit
  | [], v => v
  | kb :: l, v =>
    let n := v.node
    let gs := (upFrom 0 (nodeC n)).map fun j => nodeGroup zc n p kb j
    let as := v.acts.map fun q => some (lget (padOp 32) q kb)
    let b := blockStep (actWidth r) (nodeWidth n) as (gs.map fun o => some (latchGroup o)) v.tile
    let row (i : Nat) : Nat := lget 0 v.rows i
    let evs := ((upFrom 0 as.length).flatMap fun i =>
        match lget none as i with
        | some o => o.evs.map fun e => (⟨kb, row i, 0, e.2, e.1, tsrCode r, tsrMw r, 0⟩ : ProvEv)
        | none => [])
      ++ ((upFrom 0 gs.length).flatMap fun j => nodeEvs n v.rows kb j (lget (padOp 32) gs j))
      ++ b.2.map fun q => ⟨kb, row q.1, q.2, 0, 3, 0, 0, 0⟩
    walkBlocks zc r p l
      { v with tile := b.1, count := gs.foldl (fun m o => m + o.count) v.count, ev := (firstEv (v.ev ++ evs)).toList }

/-- y_j of one row, before rounding. -/
def rowSums (x : Int) : List Int → List Val → List Val
  | v :: vs, b :: bs => addV (if v = nanInt then .nan else ofInt v (x - 46)) b :: rowSums x vs bs
  | _, _ => []

/-- The best column of a list of encodings, by `lt`: the first among equals. -/
def bestCol (up : Bool) : Nat → Option (Nat × Nat) → List Nat → Option (Nat × Nat)
  | _, b, [] => b
  | j, none, y :: r => bestCol up (j + 1) (some (j, y)) r
  | j, some b, y :: r =>
      let better := if up then ltF fmtF32 b.2 y else ltF fmtF32 y b.2
      bestCol up (j + 1) (some (if better then (j, y) else b)) r

/-- The first column above its threshold, else the last one. -/
def firstAbove : Nat → List Nat → List Nat → Nat × Nat
  | j, [y], _ => (j, y)
  | j, y :: r, t :: ts => if ltF fmtF32 t y then (j, y) else firstAbove (j + 1) r ts
  | j, y :: _, [] => (j, y)
  | j, [], _ => (j, 0)

/-- The sign bits of negative values as an index. -/
def signIndex : Nat → List Nat → Nat
  | _, [] => 0
  | j, y :: r => (if ltF fmtF32 y 0 then 2 ^ j else 0) + signIndex (j + 1) r

/-- The value of least magnitude, the first among equals. -/
def leastMag : Option Nat → List Nat → Nat
  | b, [] => b.getD 0
  | none, y :: r => leastMag (some y) r
  | some b, y :: r => leastMag (some (if y % 2 ^ 31 < b % 2 ^ 31 then y else b)) r

/-- Child index and value, none where a NaN meets the rule. -/
def decideChild (rule : Nat) (ys thr : List Nat) : Option (Nat × Nat) :=
  if ys.any (isNan fmtF32) || (rule == 2 && thr.any (isNan fmtF32)) then none
  else if rule = 0 then bestCol true 0 none ys
  else if rule = 1 then bestCol false 0 none ys
  else if rule = 2 then some (firstAbove 0 ys thr)
  else some (signIndex 0 ys, leastMag none ys)

/-- A row after its decision: the issuing strand reads its child entry and the row advances (spec/08 R191). -/
def takeChild (a : Actor) (n : Nat) (dec : Option (Nat × Nat)) (r : WalkRow) (s : State) : Acc (WalkRow × State) :=
  match dec with
  | none => .ok ({ r with stat := 5, chosen := 0, value := 0x7FC00000 }, s)
  | some (j, y) =>
      let ea := nodeCptr n + 8 * j
      match loadElem s a .glob ea 8 with
      | .ok (e, s) =>
          let up : WalkRow := { r with depth := r.depth + 1, chosen := j, value := y, node := e }
          if isLeaf e then .ok ({ up with stat := 1 }, s)
          else if nodeEntryOk e then .ok (up, s)
          else .ok ({ r with stat := 3, faddr := ea }, s)
      | .fault c _ => .ok ({ r with stat := 2, faddr := ea }, noteError s c ea a)
      | .wait b => .wait b

/-- A zero for a non-finite FP32 encoding, in zero-and-count mode. -/
def finiteOr0 (zc : Bool) (b : Nat) : Nat := if zc && !(decodeF fmtF32 b).isFin then 0 else b
def badF32 (l : List Nat) : Nat := (l.filter fun b => !(decodeF fmtF32 b).isFin).length

/-- The decisions of the rows of a visit, in ascending order; `nodeBad` is the number of elements replaced in the node. -/
def decideRows (a : Actor) (n : Nat) (zc : Bool) (x : Int) (bias thr : List Nat) (nodeBad : Nat) :
    List Nat → List (List Int) → List Nat → List (BitVec 256) → State → Acc (List (BitVec 256) × State)
  | i :: is, v :: vs, m :: ms, rows, s =>
      let ys := (rowSums x v (bias.map (decodeF fmtF32))).map (encodeF fmtF32)
      let r := unpackRow (lget 0 rows i)
      let r := if zc then { r with nanc := min 255 (r.nanc + m + nodeBad) } else r
      match takeChild a n (decideChild (nodeRule n) ys thr) r s with
      | .ok (r, s) => decideRows a n zc x bias thr nodeBad is vs ms (lset rows i (packRow r)) s
      | .fault c t => .fault c t
      | .wait b => .wait b
  | _, _, _, rows, s => .ok (rows, s)

/-- Events of readout: a y_j that becomes infinite from a finite value. -/
def overEvs (x : Int) (bias : List Nat) : List Nat → List (List Int) → List ProvEv
  | i :: is, v :: vs =>
      let ys := rowSums x v (bias.map (decodeF fmtF32))
      ((upFrom 0 ys.length).filterMap fun j =>
        if overflows .f32 (lget zeroV ys j) then some (⟨0, i, j, 0, 4, 0, 0, 0⟩ : ProvEv) else none) ++ overEvs x bias is vs
  | _, _ => []

/-! ### A visit and a round (spec/08 R190, R191, R194) -/

/-- Give a list of rows one status and FADDR. -/
def failRows (stat addr : Nat) (q : List Nat) (rows : List (BitVec 256)) : List (BitVec 256) :=
  q.foldl (fun rs i => lset rs i (packRow { unpackRow (lget 0 rs i) with stat := stat, faddr := addr })) rows

/-- What the rows of a visit have read of their activations: those that remain with their groups, the records, and the state; or what they wait for. -/
structure ActRun where
  rows : List Nat
  acts : List (List OpGroup)
  recs : List (BitVec 256)
  s : State
  deriving DecidableEq, Repr

/-- The activations of the rows of a visit (spec/08 R191): a row that fails becomes FAULT. -/
def visitActs (zc : Bool) (a : Actor) (r : BitVec 512) (row0 nkb : Nat) : List Nat → List (BitVec 256) → State → Acc ActRun
  | [], recs, s => .ok ⟨[], [], recs, s⟩
  | i :: l, recs, s =>
      let o := rowActs zc a r (row0 + i) (upFrom 0 nkb) s
      if o.2.hold then .wait o.2.bank
      else
        match o.2.bad with
        | some (tv, c) => visitActs zc a r row0 nkb l (failRows 2 tv [i] recs) (noteError o.2.s c tv a)
        | none =>
            match visitActs zc a r row0 nkb l recs o.2.s with
            | .ok y => .ok { y with rows := i :: y.rows, acts := o.1 :: y.acts }
            | .fault c t => .fault c t
            | .wait b => .wait b

/-- Distinct nodes of rows in order of the first row at each, with the rows there. -/
def groupNodes (rows : List (BitVec 256)) : List Nat → List (Nat × List Nat) → List (Nat × List Nat)
  | [], acc => acc
  | i :: l, acc =>
      let n := (unpackRow (lget 0 rows i)).node
      groupNodes rows l (if acc.any fun p => p.1 == n then acc.map fun p => if p.1 = n then (n, p.2 ++ [i]) else p else acc ++ [(n, [i])])

/-- ACTIVE rows in ascending order. -/
def activeRows (rows : List (BitVec 256)) : List Nat := (upFrom 0 rows.length).filter fun i => rowStat (lget 0 rows i) == 0

/-- The checks at the start of a round. -/
def startRow (maxd : Nat) (r : BitVec 256) : BitVec 256 :=
  let w := unpackRow r
  if !nodeEntryOk w.node then packRow { w with stat := 3, faddr := 0 }
  else if maxd ≤ w.depth then packRow { w with stat := 4 }
  else r

/-- A round begins over the ACTIVE rows: those that fail its checks leave it, and the others are at nodes to visit. -/
def startRound (l : Long) (maxd : Nat) (act : List Nat) : Long :=
  let rows := act.foldl (fun rs i => lset rs i (startRow maxd (lget 0 rs i))) l.rows
  { l with rows := rows, prog := some ⟨act, groupNodes rows (act.filter fun i => rowStat (lget 0 rows i) == 0) [], none⟩ }

/-- The strand's walk goes on as it stands. -/
def putWalk (s : State) (k : Nat) (l : Long) : State := modStrand s k fun x => { x with long := some l }

/-- A round ends where no node is left to visit: its rows have taken part in one more, and every record is written (spec/08 R190, R194). -/
def endRound (s : State) (k : Nat) (l : Long) (p : WalkProg) : State :=
  if p.todo ≠ [] then putWalk s k { l with prog := some p }
  else
    let rows := p.act.foldl (fun rs i =>
      let r := unpackRow (lget 0 rs i)
      lset rs i (packRow { r with rounds := r.rounds + 1 })) l.rows
    putWalk (writeRows (coreOf k) l.buf p.act rows s) k { l with rows := rows, round := l.round + 1, prog := none }

/-- The part of a visit that the array has processed is counted in NANCNT, and its first event is recorded (spec/02 R47, spec/03 R64; log 87). -/
def noteVisit (s : State) (k : Nat) (n : Nat) (evs : List ProvEv) : State :=
  let s := countNan s k n
  if recBit (getStrand s k) || evs.isEmpty then s
  else modStrand (recordFirst s k evs) k fun x => { x with resume := x.resume ||| (1#64 <<< 55) }

/-- Elements that the array has found replaced in the activations of each row, over the chunks it has taken. -/
def actBad (v : Visit) : List Nat := v.acts.map fun o => (o.take (2 * v.taken)).foldl (fun n g => n + g.count) 0

/-- A visit ends: the records of its rows are written. -/
def endVisit (s : State) (k : Nat) (l : Long) (p : WalkProg) (q : List Nat) (rows : List (BitVec 256)) : State :=
  endRound (writeRows (coreOf k) l.buf q rows s) k { l with rows := rows } { p with todo := p.todo.tail, visit := none }

/-- A node fault: every row of the visit becomes FAULT. -/
def nodeFault (s : State) (k : Nat) (l : Long) (p : WalkProg) (q : List Nat) (v : Option Visit) (a : Actor) (c t : Nat) : State :=
  let s := match v with
    | some v => noteVisit s k ((actBad v).foldl (· + ·) v.count) v.ev
    | none => s
  endVisit (noteError s c t a) k l p q (failRows 2 t q l.rows)

/-- The last part of a visit: bias and thresholds are fetched and every remaining row takes its decision. -/
def decideVisit (s0 s : State) (k : Nat) (l : Long) (p : WalkProg) (q : List Nat) (v : Visit) (a : Actor) : State :=
  let n := v.node
  let zc := l.nanm
  match fetchRest s a n with
  | .wait b => wakeBank s0 b
  | .fault c t => nodeFault s k l p q (some v) a c t
  | .ok ((b, t), s) =>
      let nodeBad := if zc then v.count + badF32 b + badF32 t else 0
      let bias := b.map (finiteOr0 zc)
      let s := noteVisit s k ((actBad v).foldl (· + ·) nodeBad) (v.ev ++ overEvs v.tile.x bias v.rows v.tile.rows)
      match decideRows (strandActor s k) n zc v.tile.x bias (t.map (finiteOr0 zc)) nodeBad v.rows v.tile.rows (actBad v) l.rows s with
      | .ok (rows, s) => endVisit s k l p q rows
      | .wait b => wakeBank s0 b
      | .fault .. => s

/-- Chunks of a node. -/
def nodeChunks (n : Nat) : Nat := (nodeK n + 63) / 64

/-- The engine that stages the chunks of a strand's walk. -/
def stagingActor (s : State) (k : Nat) : Actor := engineActor (coreOf k) (stCtx (getStrand s k)) (getCore s (coreOf k)).desc

/-- One chunk of a visit: it is staged where the staging engine has not done so, the array reads it from the staging area and applies its block steps, and
after the last one the rows decide. `s0` is the state that a step which must wait leaves. -/
def chunkStep (s0 s : State) (k : Nat) (l : Long) (p : WalkProg) (q : List Nat) (v : Visit) : State :=
  let core := coreOf k
  let a := stagingActor s k
  let stage := l.x.toNat
  match (if v.staged ≤ v.taken then fetchChunk s core a v.node stage v.taken else .ok s) with
  | .wait b => wakeBank s0 b
  | .fault c t => nodeFault s k l p q (some v) a c t
  | .ok s =>
      let v' := walkBlocks l.nanm l.tsrA (stagedPlanes s core v.node stage v.taken) (chunkBlocks v.node v.taken) v
      let v' := { v' with staged := max v.staged (v.taken + 1), taken := v.taken + 1 }
      if nodeChunks v.node ≤ v'.taken then decideVisit s0 s k l p q v' a
      else putWalk s k { l with prog := some { p with visit := some v' } }

/-- A visit begins: the core's dirty lines go to the L2 slice, the staging engine fetches the record, and the activations are read (spec/08 R191, spec/13 R269): the visit with the
walk and the state, or the state that is left where the visit is over already or must wait. -/
def beginVisit (s0 : State) (k : Nat) (l : Long) (p : WalkProg) (row0 n : Nat) (q : List Nat) : Except State (State × Long × Visit) :=
  let s := landCore s0 (coreOf k) fun _ _ => true
  let a := stagingActor s k
  match loadWords s a .glob n 8 with
  | .wait b => .error (wakeBank s0 b)
  | .fault c t => .error (nodeFault s k l p q none a c t)
  | .ok (nd, s) =>
      if !nodeOk nd then .error (endVisit s k l p q (failRows 3 n q l.rows))
      else
        match visitActs l.nanm (strandActor s k) l.tsrA row0 (nodeK nd / 32) q l.rows s with
        | .wait b => .error (wakeBank s0 b)
        | .fault .. => .error s
        | .ok y =>
            let t0 : Tile := ⟨-32768, true, false, List.replicate y.rows.length (List.replicate (nodeC nd) 0)⟩
            .ok (y.s, { l with rows := y.recs }, ⟨nd, y.rows, y.acts, 0, 0, t0, 0, []⟩)

/-- A visit that the staging engine has not begun begins with the array's step over its first chunk. -/
def startVisit (s0 : State) (k : Nat) (l : Long) (p : WalkProg) (row0 n : Nat) (q : List Nat) : State :=
  match beginVisit s0 k l p row0 n q with
  | .ok (s, l, v) => chunkStep s0 s k l p q v
  | .error t => t

/-- A walk with no ACTIVE row completes; with FAULT rows and the trap enabled it then traps (spec/08 R193). -/
def finishWalk (s : State) (k op : Nat) (l : Long) : State :=
  let x := getStrand s k
  let bad := (upFrom 0 l.rows.length).filter fun i => rowStat (lget 0 l.rows i) == 2
  let s' := invalidateLatch s (coreOf k)
  if bad = [] ∨ l.wte = false then finishLong s' k l
  else
    let r := walkResume op (bitOf x.resume.toNat 54) true (bitOf x.resume.toNat 55)
    trapOr s (modStrand s' k fun x => { unset x l.i with long := none, resume := r }) k 8 (bad.length * 256 + bad.headD 0) x.pc

/-- The next step of a round: a chunk of the visit to its first node. -/
def roundStep (s : State) (k : Nat) (l : Long) (row0 : Nat) (p : WalkProg) : State :=
  match p.todo, p.visit with
  | [], _ => endRound s k l p
  | (_, q) :: _, some v => chunkStep s s k l p q v
  | (n, q) :: _, none => startVisit s k l p row0 n q

/-- A step of a strand's walk, or its end. -/
def walkStep (s : State) (k : Nat) (l : Long) : State :=
  match walkArgs l.i with
  | none => s
  | some (op, row0, maxd) =>
      match l.prog with
      | some p => roundStep s k l row0 p
      | none =>
          let act := activeRows l.rows
          if act = [] then finishWalk s k op l
          else
            let l := startRound l maxd act
            match l.prog with
            | some p => roundStep s k l row0 p
            | none => s

/-! ### Granting steps (spec/08 R169, R170) -/

/-- Has a strand a step of the tree-matrix unit to come, with the latch buffer that it needs: a bound buffer that is still being filled keeps its `MMA` waiting (spec/03 R54)? -/
def stepDue (s : State) (k : Nat) : Bool :=
  mayRun s k &&
  (match (getStrand s k).long with
   | some l =>
      match l.i with
      | .wld .. => true
      | .mma .. => (getBuf (getCore s (coreOf k)) (l.buf == 1)).filling.isNone
      | .mmaG .. => l.round == 1 && !targetHeld (getCore s (coreOf k)) k
      | .walki .. | .walk .. => !targetHeld (getCore s (coreOf k)) k
      | _ => false
   | none => false)

/-- A strand's step, or what stops it at the boundary before; a walk has its first round before its first boundary. A step whose operands must wait leaves the strand as it stands and
asks for the vector bank that it waits for (spec/01 R21, R25). -/
def tryStep (s : State) (k : Nat) : State :=
  match (getStrand s k).long with
  | none => s
  | some l =>
      match (if atBoundary l then leavePoint s k else none) with
      | some t => t
      | none =>
        match l.i with
        | .wld .. => wldStep s k l
        | .walki .. | .walk .. => walkStep s k l
        | _ => matrixStep s k l

/-- Has a strand a step of the tree-matrix unit ready: one that it can take now? -/
def stepReady (s : State) (k : Nat) : Bool := stepDue s k && getStrand (tryStep s k) k != getStrand s k

/-- The current slot's owner, if the slot has one. -/
def slotOwner (y : Core) (cycle : Nat) : Option Nat :=
  let e := bits y.matSlot.toNat (4 * ((cycle - y.startCycle) / 256 % 16)) 4
  if bitOf e 3 then some (e % 4) else none

/-- The strand to which the unit grants the next step. -/
def granted (s : State) (c : Nat) : Option Nat :=
  let y := getCore s c
  let own := match slotOwner y s.cycle with
    | some n => if decide (n < liveCount y) && stepReady s (4 * c + n) then some (4 * c + n) else none
    | none => none
  match own with
  | some k => some k
  | none => ((upFrom 1 4).map fun n => 4 * c + (y.matLast + n) % 4).find? (stepReady s)

/-- The step that the unit grants a strand. -/
def unitStep (s : State) (k : Nat) : State := tryStep (modCore s (coreOf k) fun y => { y with matLast := strandNo k }) k

/-- A strand whose step must wait asks for the vector bank that its operands lie in. -/
def askStep (s : State) (k : Nat) : State := if stepDue s k && !stepReady s k then tryStep s k else s

/-- A strand moves in its long instruction: its step where the unit grants it. -/
def takeStep (s : State) (k : Nat) : State := if granted s (coreOf k) == some k then unitStep s k else askStep s k

/-- One step of a strand's `WLD`, `MMA` or `MMA.G`, if the unit grants it. -/
def execBlockStep (k : StrandId) (s : State) : Host.Outcome State Fault Refusal :=
  match (getStrand s k).long with
  | some l => .next (if (walkArgs l.i).isNone then takeStep s k else s)
  | none => .next s

/-- Is a strand inside a round of a walk? -/
def insideRound (x : Strand) : Bool := x.long.any fun l => l.prog.isSome

/-- Steps of a strand's walk while the unit grants them, up to the end of the round; the fuel counts them. -/
def runRound (k : Nat) : Nat → State → State
  | 0, s => s
  | f + 1, s =>
    if granted s (coreOf k) == some k then
      let t := unitStep s k
      if insideRound (getStrand t k) then runRound k f t else t
    else askStep s k

/-- One round of a strand's walk, as far as the unit grants its steps. -/
def execWalkRound (k : StrandId) (s : State) : Host.Outcome State Fault Refusal :=
  match (getStrand s k).long with
  | some l => if (walkArgs l.i).isSome then .next (runRound k 1000 s) else .next s
  | none => .next s

/-- One step of a strand's walk, if the unit grants it. -/
def walkTurn (k : Nat) (s : State) : State := takeStep s k

/-- The staging engine fetches a chunk of a visit ahead of the array; one that fails is left to the array's own turn. -/
def stageAhead (s : State) (k chunk : Nat) (l : Long) (p : WalkProg) (v : Visit) : Acc State :=
  let put (s : State) (v : Visit) : State := putWalk s k { l with prog := some { p with visit := some v } }
  match fetchChunk s (coreOf k) (stagingActor s k) v.node l.x.toNat chunk with
  | .ok s => .ok (put s { v with staged := chunk + 1 })
  | .wait b => .wait b
  | .fault .. => .ok (put s v)

/-- The round that a walk is in, or that it begins: none at a boundary where it stops, or with no row ACTIVE. -/
def roundOf (s : State) (k maxd : Nat) (l : Long) : Option (Long × WalkProg) :=
  let l' := if l.prog.isNone && (l.round == 0 || (leavePoint s k).isNone) && activeRows l.rows != [] then startRound l maxd (activeRows l.rows) else l
  l'.prog.map fun p => (l', p)

/-- The staging engine fetches the next chunk of a walk ahead of the array: that of the visit in progress, or the first one of the next visit, which it begins. -/
def execWalkStagingFetch (k : StrandId) (chunk : Nat) (s : State) : Host.Outcome State Fault Refusal :=
  let at_ (r : Acc State) : Host.Outcome State Fault Refusal :=
    match r with
    | .ok t => .next t
    | .wait b => .next (wakeBank s b)
    | .fault .. => .next s
  match (getStrand s k).long with
  | none => .next s
  | some l =>
    match walkArgs l.i with
    | none => .next s
    | some (_, row0, maxd) =>
      if !mayRun s k then .next s
      else
        match roundOf s k maxd l with
        | none => .next s
        | some (l, p) =>
          match p.todo, p.visit with
          | _, some v => if chunk == v.staged && decide (chunk ≤ v.taken + 1) && decide (chunk < nodeChunks v.node) then at_ (stageAhead s k chunk l p v) else .next s
          | [], none => .next s
          | (n, q) :: _, none =>
              if chunk ≠ 0 then .next s
              else
                match beginVisit s k l p row0 n q with
                | .ok (t, l, v) => at_ (stageAhead t k 0 l p v)
                | .error t => .next t

/-- The unit grants the next step of a core and performs it. -/
def execStepGrant (core : CoreId) (s : State) : Host.Outcome State Fault Refusal :=
  match granted s core with
  | some k => .next (unitStep s k)
  | none => .next (foldUnits askStep (upFrom (4 * core) 4) s)

end Sys2Proof.Machine
end

