-- ==== Sys2Proof/Machine/Fetch.lean ====
section
/-!
DEFINITION. Fetching an instruction, and the device steps of one strand and one core: results that land, interrupts, the vector bank, evictions
(spec/04 R68-R70, R74, R79, R80; spec/05 R105, R111; spec/09 R226, R227; spec/01 R25; spec/13 R259).
-/
namespace Sys2Proof.Machine

/-! ### Fetch -/

/-- The fetch window of an address, through the core's instruction cache (spec/04 R80). -/
def fetchWindow (s : State) (k : Nat) (pc : Word) : Acc (BitVec 256 × State) :=
  let c := coreOf k
  let x := stCtx (getStrand s k)
  match translate s c x (getCore s c).desc pc.toNat .fetch with
  | none => .fault 5 pc.toNat
  | some (key, e) =>
      let w := key / 32
      let s := keepTlb s c e
      if isControl key then .fault 5 pc.toNat
      else if mhas (getCore s c).icache w then .ok (mget 0 (getCore s c).icache w, s)
      else if poisoned s c (32 * w) 32 then .fault 0xE pc.toNat
      else
        let r := l2Read s (clusterOfCore c) x (32 * w) 32
        let b := BitVec.ofNat 256 r.1
        .ok (b, modCore r.2 c fun y => { y with icache := mput y.icache w b })

/-- The bits of a window from an address on. -/
def bitsAt (w : BitVec 256) (pc : Word) : Nat := w.toNat / 2 ^ (8 * (pc.toNat % 32))

/-- Number of instructions from an address to the end of a loop's body, found by the lengths of their words; 17 where the count passes 16 or a window cannot be
fetched (spec/05 R111). The fuel counts instructions and pads, of which a window has at most one. -/
def bodyCount (s : State) (k : Nat) (stop : Word) : Nat → Nat → Word → Nat
  | 0, _, _ => 17
  | f + 1, n, pc =>
    if stop.toNat ≤ pc.toNat then n
    else
      match fetchWindow s k pc with
      | .ok (w, _) =>
          let l := bitsAt w pc % 4
          if l = 0 then bodyCount s k stop f n (pc + 4)
          else if 16 ≤ n then 17 else bodyCount s k stop f (n + 1) (pc + BitVec.ofNat 64 (4 + 4 * l))
      | _ => 17

/-- Is the program counter in the body of the top loop? -/
def inBody (x : Strand) (e : LoopEntry) : Bool := decide (e.top.toNat ≤ x.pc.toNat) && decide (x.pc.toNat < e.stop.toNat)

/-- The bits that the repetition buffer holds for an address: those that an earlier pass of the top loop fetched (spec/05 R111). -/
def replayed (x : Strand) : Option Nat :=
  match x.loops with
  | e :: _ =>
      if inBody x e && x.rbufOk && !x.rbufOver then
        (x.rbuf.find? fun p => p.1 == x.pc.toNat && decide (p.2.2 < e.pass)).map fun p => p.2.1
      else none
  | [] => none

/-- The body of the top loop is measured when its first word goes to an empty buffer: a longer one than 16 instructions is fetched on every pass. -/
def measured (s : State) (k : Nat) : Strand :=
  let x := getStrand s k
  match x.loops with
  | e :: _ => if inBody x e && !x.rbufOk && !x.rbufOver then { x with rbufOver := decide (16 < bodyCount s k e.stop 40 0 e.top) } else x
  | [] => x

/-- The buffer takes the words that a pass of the top loop fetches. -/
def recordFetch (x : Strand) (n : Nat) : Strand :=
  match x.loops with
  | e :: _ =>
      if inBody x e && !x.rbufOver && !(x.rbuf.any fun p => p.1 == x.pc.toNat) then
        { x with rbuf := x.rbuf ++ [(x.pc.toNat, n, e.pass)], rbufOk := true }
      else x
  | [] => x

/-- What a fetch gives. -/
inductive Fetched where
  | instr (i : Instr) (s : State)
  | stopped (s : State)
  deriving DecidableEq, Repr

/-- A fetch fault is a trap; met at `TVEC` right after trap entry it stops the strand (spec/09 R227). -/
def fetchFault (s : State) (k cause tval : Nat) : State :=
  let x := getStrand s k
  if x.entered && cause == 5 && x.pc == x.tvec &&& ~~~ 3#64 then
    (if x.vtabQ = [] ∧ x.inflight = [] ∧ !hasReduction s k then reportStrand (stopStrand s k) k x.pc.toNat else s)
  else trapOr s s k cause tval x.pc

/-- Decode the bits found at the program counter. -/
def decodeHere (s : State) (k n : Nat) (again : State → Fetched) : Fetched :=
  let x := getStrand s k
  match decodeAt (x.pc.toNat % 32) n with
  | .instr i => .instr (stagger x x.pc i) (setStrand s k { recordFetch (measured s k) n with entered := false })
  | .pad => again (setStrand s k { recordFetch (measured s k) n with pc := x.pc + 4 })
  | .trap c t => .stopped (trapOr s s k c t x.pc)

/-- Fetch and decode the instruction of a strand, skipping a pad word (spec/04 R79). -/
def fetchOne (k : Nat) : Nat → State → Fetched
  | 0, s => .stopped s
  | f + 1, s =>
    match replayed (getStrand s k) with
    | some n => decodeHere s k n (fetchOne k f)
    | none =>
        match fetchWindow s k (getStrand s k).pc with
        | .ok (w, s) => decodeHere s k (bitsAt w (getStrand s k).pc) (fetchOne k f)
        | .fault c t => .stopped (fetchFault s k c t)
        | .wait _ => .stopped s

/-- A pad is followed by the start of a window, where no pad stands. -/
def fetch (s : State) (k : Nat) : Fetched := fetchOne k 2 s

/-- May a strand issue its next instruction: it runs and neither waits nor is inside a long instruction? -/
def mayIssue (s : State) (k : Nat) : Bool :=
  mayRun s k && (getStrand s k).wait.isNone && (getStrand s k).long.isNone

/-- The fetch and the checks of the encoding alone; what was fetched stays in the caches. -/
def execInstructionFetch (k : StrandId) (s : State) : Host.Outcome State Fault Refusal :=
  if mayIssue s k then
    match fetch s k with
    | .instr _ t => .next t
    | .stopped t => .next t
  else .next s

/-! ### Results (spec/04 R74, spec/06 R126, spec/13 R266) -/

/-- A line of a store lands: the L2 slice accepts its dirty bytes, and for a home behind the host port or the fabric interface that port does (spec/06 R126). -/
def landStore (s : State) (c line : Nat) : State :=
  let s := landLine s c line
  if behindPort (line * 128) then wbL2 s (clusterOfCore c) line else s

/-- The first lane of a load that meets an uncorrected error or a home that does not answer (spec/22 R370, R374, R379). -/
def failedLane (s : State) (k : Nat) (p : PendLoad) : Option LoadLane :=
  p.lanes.find? fun l => match l.loc with
    | .glob key => poisoned s (coreOf k) key (elemBytes p.ty)
    | .pool .. => false

/-- A lane of such a load is read. -/
def readLane (s : State) (k : Nat) (p : PendLoad) (l : LoadLane) : Nat × State :=
  match l.loc with
  | .glob key => cacheRead s (coreOf k) p.ctx key (elemBytes p.ty)
  | .pool c off => (poolRead s c off (elemBytes p.ty), if c = coreOf k then s else countIn s c)

/-- A load that was not performed at its issue is performed: its lanes are read and its destination is written (spec/13 R258). -/
def performLoad (s : State) (k : Nat) (p : PendLoad) : State :=
  let r := p.lanes.foldl (fun (a : List (Nat × Nat) × State) l =>
    let x := readLane a.2 k p l
    (a.1 ++ [(l.j, x.1)], x.2)) ([], s)
  modStrand r.2 k fun x =>
    if p.vec then
      let d : VReg := BitVec.ofNat 5 p.dst
      setV x d (mapLanes p.ty p.mask (!p.merge) (getV x d) fun j => mget 0 r.1 j)
    else setS x (BitVec.ofNat 5 p.dst) (extend p.ty (mget 0 r.1 0))

/-- A result on its way lands: its load is performed, or traps in its place once the strand may trap; its stores reach the L2 slice; and its counter falls. -/
def landFlight (s : State) (k : Nat) (f : Flight) (r : List Flight) : State :=
  let gone := modStrand s k fun x => { x with inflight := r }
  match f.load with
  | some p =>
      match failedLane s k p with
      | some l =>
          if trapWaits s k then s
          else
            failSent (match l.loc with
              | .glob key => reportLoc gone key
              | .pool .. => gone) k f.ctr l.va
      | none => lowerCtr (performLoad gone k p) k f.ctr
  | none => lowerCtr (foldUnits (fun s l => landStore s (coreOf k) l) f.lines gone) k f.ctr

/-- The result of a strand at a place in the list lands, or a merged atomic of its is performed, those counting on from its results. -/
def landAt (s : State) (k i : Nat) : State :=
  let l := (getStrand s k).inflight
  match l[i]? with
  | some f => landFlight s k f (ldel l i)
  | none =>
      match (s.reductions.filter fun x => x.owners.any fun o => o.strand == k)[i - l.length]? with
      | some x => performReduction s x
      | none => s

/-- The oldest result of a strand lands, or the first merged atomic that waits for it is performed. The spec leaves the order in which the results of one
strand land open (R74, R126, R388); this step takes the oldest, and the agenda may name another (log 17). -/
def landNext (s : State) (k : Nat) : State := landAt s k 0

def execResultLands (k : StrandId) (s : State) : Host.Outcome State Fault Refusal := .next (landNext s k)

/-! ### Interrupts (spec/09 R226) -/

/-- A pending line is taken where the strand is at an interrupt point. -/
def execInterruptTaken (k : StrandId) (s : State) : Host.Outcome State Fault Refusal :=
  let x := getStrand s k
  match irqLine x with
  | some line =>
      if mayRun s k && insideIrqPoint x && !killFirst x && x.vtabQ.isEmpty then
        if mayIssue s k then
          match fetch s k with
          | .instr i _ =>
              .next (if ((i.common.map Common.kpt).getD false && killDue x) then s else takeIrq s k line)
          | .stopped _ => .next (takeIrq s k line)
        else .next (takeIrq s k line)
      else .next s
  | none => .next s

/-! ### The vector bank (spec/01 R25) -/

/-- After 1,024 cycles in which nothing named it, the bank of an AUTO core enters retention. -/
def retainBank (s : State) (c : Nat) : State :=
  let y := getCore s c
  if y.vmode = 1 ∧ !bankSleeps s c ∧ 1024 ≤ s.cycle - y.vidle then setCore s c { y with vstate := 1, vidle := 0 } else s

def execVbankRetention (core : CoreId) (s : State) : Host.Outcome State Fault Refusal := .next (retainBank s core)

/-- The bank has woken, 12 cycles after the access that asked for it. -/
def execVbankWake (core : CoreId) (s : State) : Host.Outcome State Fault Refusal :=
  let y := getCore s core
  if y.vstate = 1 ∧ y.vidle ≠ 0 ∧ y.vidle ≤ s.cycle then .next (setCore s core { y with vstate := 0 }) else .next s

/-! ### Evictions (spec/13 R259, spec/20 R333) -/

/-- A cache gives up an entry of its own accord; dirty bytes go home. A fetch window or a translation is named by its number. -/
def execCacheEviction (u : CacheUnit) (line : Nat) (s : State) : Host.Outcome State Fault Refusal :=
  match u with
  | .dcache c => .next (wbL2 (dropCore s c line) (clusterOfCore c) line)
  | .l2 cl => .next (dropL2 s cl line)
  | .icache c => .next (modCore s c fun y => { y with icache := mdel y.icache line })
  | .tlbCore c => .next (modCore s c fun y => { y with tlb := ldel y.tlb line })
  | .tlbCluster cl => .next (modCluster s cl fun y => { y with tlb := ldel y.tlb line })

end Sys2Proof.Machine
end

