-- ==== Sys2Proof/Machine/System.lean ====
section
/-!
DEFINITION. The system instructions and the control registers (spec/01 R24-R32, spec/03 R63, spec/09 R220-R224, R228).
-/
namespace Sys2Proof.Machine

/-! ### TRACE (spec/09 R220) -/

def execTrace (c : Common) (code : BitVec 8) (sa sb : SReg) (s : State) : Host.Outcome State Fault Refusal :=
  issue (.trace c code sa sb) c s fun s =>
    let a := (getS (me s) sa).toNat
    let b := (getS (me s) sb).toNat
    .done (emitStrand s s.cur 0x18 [a % 2 ^ 63, b % 2 ^ 63, a / 2 ^ 63 + 2 * (b / 2 ^ 63) + 2 ^ 8 * code.toNat])

/-! ### Control registers (spec/01 R24, R29-R32) -/

/-- GEOM with its derived fields, on core `n` of its cluster (spec/01 R32). -/
def geomOf (n : Nat) (w : Word) : Word :=
  let rows := bits w.toNat 10 4
  let cols := bits w.toNat 6 4
  let r0 := bits w.toNat 3 3
  let c0 := bits w.toNat 0 3
  let m := n / 8
  let q := n % 8
  let low := bits w.toNat 0 14
  if 1 ≤ rows ∧ 1 ≤ cols ∧ r0 + rows ≤ 8 ∧ c0 + cols ≤ 8 ∧ r0 ≤ m ∧ m < r0 + rows ∧ c0 ≤ q ∧ q < c0 + cols then
    BitVec.ofNat 64 (low + (q - c0) * 2 ^ 14 + (m - r0) * 2 ^ 17 + 2 ^ 20)
  else BitVec.ofNat 64 low

/-- VBANK.STATE: a bank whose 12 cycles of waking have passed is powered (spec/01 R24, R25). -/
def vbankState (s : State) (c : Nat) : Nat :=
  if (getCore s c).vstate = 1 ∧ !bankSleeps s c then 0 else (getCore s c).vstate.toNat

/-- The value that MFC reads of a control register; none for a number that R29 does not list. -/
def readCr (s : State) (n : Nat) : Option Word :=
  let x := me s
  let y := myCore s
  match n with
  | 0x00 => some x.status
  | 0x01 => some x.cause
  | 0x02 => some x.epc
  | 0x03 => some x.tval
  | 0x04 => some x.tvec
  | 0x05 => some x.resume
  | 0x06 => some x.geom
  | 0x07 => some y.part
  | 0x08 | 0x09 | 0x0A | 0x0B | 0x0C | 0x0D | 0x0E | 0x0F => some (mget 0 x.mb (n - 8))
  | 0x10 => some x.oscale
  | 0x11 => some x.nancnt
  | 0x12 => some x.prova
  | 0x13 => some x.provb
  | 0x14 => some (BitVec.ofNat 64 (y.vmode.toNat + 4 * vbankState s (coreOf s.cur)))
  | 0x15 => some (BitVec.ofNat 64 (dieTime s (dieOf (clusterOf s.cur)) % 2 ^ 63))
  | 0x16 => some x.spillp
  | 0x17 => some x.tenant
  | 0x18 => some x.jslot
  | _ => none

def execMfc (c : Common) (d : SReg) (cr : BitVec 12) (s : State) : Host.Outcome State Fault Refusal :=
  issue (.mfc c d cr) c s fun s =>
    match readCr s cr.toNat with
    | some v => onMe s fun x => setS x d v
    | none => .trap 1 cr.toNat

/-- Control registers whose fields are all RO (spec/01 R30). -/
def crReadOnly (n : Nat) : Bool := n == 0x07 || n == 0x15 || n == 0x18
/-- Control registers with no RW field (spec/01 R30). -/
def crSystem (n : Nat) : Bool := decide (n ≤ 5) || n == 0x14 || n == 0x17

/-- Bits of a control register that an MTC writes at system level (spec/01 R29-R31, spec/03 R63). -/
def crMask (n : Nat) (sys : Bool) : Word :=
  match n with
  | 0x00 => 0x1C
  | 0x01 => 0x80000000000000FF
  | 0x04 => 0xFFFFFFFFFFFFFFFC
  | 0x10 | 0x11 => 0xFFFFFFFF
  | 0x12 => 0xFFFFFFFFFFF00000
  | 0x13 => 0x01FFFFFFFFFFFFFC
  | 0x16 => if sys then 0x01FFFFFFFFFFFF81 else 0x01FFFFFFFFFFFF80
  | 0x17 => 0xF
  | _ => BitVec.allOnes 64

/-- A masked write. -/
def crMerge (n : Nat) (sys : Bool) (old v : Word) : Word := (old &&& ~~~ crMask n sys) ||| (v &&& crMask n sys)

/-- Every register of the bank of one strand reads zero. -/
def clearBank (x : Strand) : Strand := { x with v := x.v.filter fun e => e.1 < 16 }

/-- A write of VBANK.MODE (spec/01 R24, R25). That the cycles idle before it do not count towards the 1,024 of R25 is the model's choice (log 90). -/
def writeVbank (s : State) (c : Nat) (v : Word) : State :=
  let m : BitVec 2 := v.setWidth 2
  let old := (getCore s c).vmode
  if m = 3 ∨ m = old then s
  else
    let s := if m = 2 then foldUnits (fun s k => modStrand s k clearBank) (upFrom (4 * c) 4) s else s
    modCore s c fun y => { y with vmode := m, vstate := if m = 2 then 2 else 0, vidle := s.cycle }

/-- Has an instruction of the core that names the bank issued and not completed? -/
def bankInUse (s : State) (c : Nat) : Bool :=
  (upFrom (4 * c) 4).any fun k =>
    let x := getStrand s k
    x.vtabQ.any VtabReq.bank || x.inflight.any Flight.bank ||
    (match x.wait with
     | some w => hasIssued w.what && namesBank w.i
     | none => false)

/-- The register file of control registers after an MTC, but for GEOM, the mailbox words and VBANK. -/
def putCr (x : Strand) (n : Nat) (v : Word) : Strand :=
  let w (old : Word) : Word := crMerge n (stPriv x) old v
  match n with
  | 0x00 => { x with status := w x.status }
  | 0x01 => { x with cause := w x.cause }
  | 0x02 => { x with epc := w x.epc }
  | 0x03 => { x with tval := w x.tval }
  | 0x04 => { x with tvec := w x.tvec }
  | 0x05 => { x with resume := w x.resume }
  | 0x10 => { x with oscale := w x.oscale }
  | 0x11 => { x with nancnt := w x.nancnt }
  | 0x12 => { x with prova := w x.prova }
  | 0x13 => { x with provb := w x.provb }
  | 0x16 => { x with spillp := w x.spillp }
  | 0x17 => { x with tenant := w x.tenant }
  | _ => x

/-- Does a write of a control register wait for an earlier instruction of the strand: SPILLP for one that the carve-out served (spec/01 R28), NANCNT for one
that can add to it (spec/02 R48)? -/
def crHeld (x : Strand) (n : Nat) : Bool :=
  n == 0x16 && x.inflight.any Flight.carved || n == 0x11 && x.inflight.any Flight.nan

def execMtc (c : Common) (sa : SReg) (cr : BitVec 12) (s : State) : Host.Outcome State Fault Refusal :=
  issue (.mtc c sa cr) c s fun s =>
    let n := cr.toNat
    let v := getS (me s) sa
    if 0x18 < n ∨ crReadOnly n then .trap 1 n
    else if crSystem n && !stPriv (me s) then .trap 4 n
    else if n = 0x14 then (if bankInUse s (coreOf s.cur) then .hold else .done (writeVbank s (coreOf s.cur) v))
    else if n = 0x06 then onMe s fun x => { x with geom := geomOf (coreNo s.cur) v }
    else if 0x08 ≤ n ∧ n < 0x10 then onMe s fun x => { x with mb := mset 0 x.mb (n - 8) v }
    else if crHeld (me s) n then .hold
    else onMe s fun x => putCr x n v

/-! ### TRAP, BKPT and TRET (spec/09 R222, R228, spec/21 R359) -/

def execTrap (c : Common) (code : BitVec 17) (s : State) : Host.Outcome State Fault Refusal :=
  issue (.trap c code) c s fun s => .trapAfter s 0x11 code.toNat

/-- Does the debug module of a cluster halt on `BKPT` of a context? -/
def breaksOn (s : State) (cl x : Nat) : Bool := (getCluster s cl).dm.ctl.getLsbD (16 + x)

def execBkpt (c : Common) (code : BitVec 17) (s : State) : Host.Outcome State Fault Refusal :=
  issue (.bkpt c code) c s fun s =>
    let cl := clusterOf s.cur
    if breaksOn s cl (stCtx (me s)) then
      if mayAsk s (askBreak cl) (s.cur % 256) then .landed (haltCluster (noteAsk s (askBreak cl) (s.cur % 256)) cl 3 (s.cur % 256)) else .hold
    else .trapAfter s 0x10 code.toNat

def execTret (c : Common) (s : State) : Host.Outcome State Fault Refusal :=
  issue (.tret c) c s fun s => .goes (leaveTrap s s.cur)

/-! ### TLBINV (spec/09 R223) -/

/-- Remove the translations of a context that satisfy a test, device-wide. -/
def dropTlb (s : State) (p : TlbEntry → Bool) : State :=
  let s := foldUnits (fun s c => modCore s c fun y => { y with tlb := y.tlb.filter fun e => !p e }) (listedCores s) s
  foldUnits (fun s cl => modCluster s cl fun y => { y with tlb := y.tlb.filter fun e => !p e }) (listedClusters s) s

/-- The context that TLBINV names. -/
def tlbCtx (x : Strand) (sb : SReg) : Nat := if stCtx x = 0 then bits (getS x sb).toNat 0 4 else stCtx x

def execTlbinvAll (c : Common) (sa sb : SReg) (s : State) : Host.Outcome State Fault Refusal :=
  issue (.tlbinvAll c sa sb) c s fun s =>
    let x := tlbCtx (me s) sb
    .done (dropTlb s fun e => e.ctx == x)

def execTlbinvPg (c : Common) (sa sb : SReg) (s : State) : Host.Outcome State Fault Refusal :=
  issue (.tlbinvPg c sa sb) c s fun s =>
    let x := tlbCtx (me s) sb
    let va := (getS (me s) sa).toNat
    .done (dropTlb s fun e => e.ctx == x && decide (e.base ≤ va) && decide (va < e.base + e.size))

/-! ### SLOTW (spec/09 R224) -/

/-- The slot word of the matrix unit: bit 2 of each entry is reserved (spec/08 R170, spec/00 R9). -/
def matSlotBits (v : Word) : Word := v &&& 0xBBBBBBBBBBBBBBBB#64

def execSlotwMat (c : Common) (sa : SReg) (s : State) : Host.Outcome State Fault Refusal :=
  issue (.slotwMat c sa) c s fun s => .done (modCore s (coreOf s.cur) fun y => { y with matSlot := matSlotBits (getS (me s) sa) })

/-- The word of an engine's slot table, which context 0 alone may write. -/
def slotw (i : Instr) (sa : SReg) (f : Cluster → Word → Cluster) (s : State) : Res :=
  if stCtx (me s) = 0 then .done (modCluster s (clusterOf s.cur) fun y => f y (getS (me s) sa))
  else .trap 4 (firstWord i)

def execSlotwCpy (c : Common) (sa : SReg) (s : State) : Host.Outcome State Fault Refusal :=
  issue (.slotwCpy c sa) c s (slotw (.slotwCpy c sa) sa fun y v => { y with cpySlot := v })

def execSlotwTku (c : Common) (sa : SReg) (s : State) : Host.Outcome State Fault Refusal :=
  issue (.slotwTku c sa) c s (slotw (.slotwTku c sa) sa fun y v => { y with tkuSlot := v })

end Sys2Proof.Machine
end

