-- ==== Sys2Proof/Machine/Image.lean ====
section
/-!
DEFINITION. Context images (spec/20 R338): the sections of a saved context and their bytes. Where R338 gives a section's items and not their
places, they are written as 64-bit words in the order of this file (log 14).
-/
namespace Sys2Proof.Machine

/-! ### Writing words -/

def optWords : Option Nat → List Nat
  | none => [0, 0]
  | some v => [1, v]

def listWords {α : Type} (f : α → List Nat) (l : List α) : List Nat := l.length :: l.flatMap f

/-- The 64-bit words of a number. -/
def wordsOf : Nat → Nat → List Nat
  | 0, _ => []
  | n + 1, v => v % 2 ^ 64 :: wordsOf n (v / 2 ^ 64)

/-- Bytes as 64-bit words; the fuel counts words. -/
def bytesToWords : Nat → List Byte → List Nat
  | 0, _ => []
  | n + 1, l => leOf (l.take 8) :: bytesToWords n (l.drop 8)

def wordsToBytes (l : List Nat) : List Byte := l.flatMap (bytesOf 8)

/-! ### Reading words -/

/-- A reader of words. -/
abbrev Reader (α : Type) := StateT (List Nat) Option α

def getWord : Reader Nat := fun l =>
  match l with
  | [] => none
  | a :: r => some (a, r)

def getNats : Nat → Reader (List Nat)
  | 0 => pure []
  | n + 1 => do
      let a ← getWord
      let r ← getNats n
      pure (a :: r)

def getMany {α : Type} (p : Reader α) : Nat → Reader (List α)
  | 0 => pure []
  | n + 1 => do
      let a ← p
      let r ← getMany p n
      pure (a :: r)

/-- A list with its length before it; a length beyond the words that are left fails. -/
def getList {α : Type} (p : Reader α) : Reader (List α) := fun l =>
  match l with
  | [] => none
  | n :: r => if r.length < n then none else getMany p n r

def getOpt : Reader (Option Nat) := do
  let a ← getWord
  let b ← getWord
  pure (if a = 0 then none else some b)

def getBig (n : Nat) : Reader Nat := do
  let l ← getNats n
  pure (l.foldr (fun a v => a + 2 ^ 64 * v) 0)

def getW : Reader Word := do
  let a ← getWord
  pure (BitVec.ofNat 64 a)

/-! ### Items -/

def taskWords (t : TaskEnt) : List Nat :=
  [t.tcb, t.key, t.ctx, t.prio, t.kind] ++ optWords t.ready ++ [t.launch] ++ optWords t.spawner ++ [t.tenant] ++ wordsOf 8 t.desc.toNat

def getTask : Reader TaskEnt := do
  let tcb ← getWord
  let key ← getWord
  let ctx ← getWord
  let prio ← getWord
  let kind ← getWord
  let ready ← getOpt
  let launch ← getWord
  let spawner ← getOpt
  let tenant ← getWord
  let desc ← getBig 8
  pure ⟨tcb, key, ctx, prio, kind, ready, launch, spawner, tenant, BitVec.ofNat 512 desc⟩

def fnCode (f : TopkFn) : Nat :=
  match f with
  | .fd => 0
  | .fa => 1
  | .id => 2
  | .ia => 3

def fnOf (n : Nat) : TopkFn :=
  match n with
  | 0 => .fd
  | 1 => .fa
  | 2 => .id
  | _ => .ia

def streamWords (e : Nat × Stream) : List Nat :=
  [e.1, e.2.owner, fnCode e.2.fn, e.2.k] ++ listWords (fun p => [p.1.toNat, p.2.toNat]) e.2.entries

def getPair : Reader (Nat × Nat) := do
  let a ← getWord
  let b ← getWord
  pure (a, b)

def getStream : Reader (Nat × Stream) := do
  let i ← getWord
  let owner ← getWord
  let fn ← getWord
  let k ← getWord
  let es ← getList getPair
  pure (i, ⟨owner, fnOf fn, k, es.map fun p => (BitVec.ofNat 32 p.1, BitVec.ofNat 32 p.2)⟩)

def evWords (e : Nat × EvLine) : List Nat := [e.1, e.2.cnt, e.2.val.toNat] ++ listWords (fun p => [p.1, bnat p.2]) e.2.q

def getEvLine : Reader (Nat × EvLine) := do
  let i ← getWord
  let cnt ← getWord
  let val ← getW
  let q ← getList getPair
  pure (i, ⟨cnt, val, q.map fun p => (p.1, p.2 == 1)⟩)

def barWords (e : Nat × BarCounter) : List Nat := [e.1, e.2.n, e.2.arr] ++ listWords (fun k => [k]) e.2.q ++ listWords (fun k => [k]) e.2.released

def getBarCounter : Reader (Nat × BarCounter) := do
  let i ← getWord
  let n ← getWord
  let arr ← getWord
  let q ← getList getWord
  let r ← getList getWord
  pure (i, ⟨n, arr, q, r⟩)

def mutexWords (e : Nat × Mutex) : List Nat := e.1 :: optWords (e.2.holder.map BitVec.toNat) ++ listWords (fun a => [a.toNat]) e.2.q

def getMutexEnt : Reader (Nat × Mutex) := do
  let i ← getWord
  let h ← getOpt
  let q ← getList getW
  pure (i, ⟨h.map (BitVec.ofNat 64), q⟩)

def loopWords (e : LoopEntry) : List Nat := [e.top.toNat, e.stop.toNat, e.left.toNat, e.pass, e.stg.toNat, e.smod.toNat]

def getLoop : Reader LoopEntry := do
  let top ← getW
  let stop ← getW
  let left ← getW
  let pass ← getWord
  let stg ← getWord
  let smod ← getWord
  pure ⟨top, stop, left, pass, BitVec.ofNat 3 stg, BitVec.ofNat 3 smod⟩

def countWords (e : EngCount) : List Nat := [e.iss, e.cmp]

/-- Counts of a restored strand; the times that its completions and messages carried are no later than the save time (spec/21 R355). -/
def getCount (time : Nat) : Reader EngCount := do
  let i ← getWord
  let c ← getWord
  pure ⟨i, c, [], time⟩

def msgWords (m : Msg) : List Nat := wordsOf 8 m.payload.toNat ++ [m.sender.toNat]

def getMsg (time : Nat) : Reader Msg := do
  let p ← getBig 8
  let a ← getW
  pure ⟨BitVec.ofNat 512 p, a, time⟩

def killWords (p : PendKill) : List Nat := [p.record.toNat, p.pid] ++ optWords (p.kpc.map BitVec.toNat)

def getKill (time : Nat) : Reader PendKill := do
  let r ← getW
  let p ← getWord
  let h ← getOpt
  pure ⟨r, p, h.map (BitVec.ofNat 64), time⟩

/-- The control registers of a strand, 8 bytes each at 8 times the number. -/
def crWords (s : State) (k : Nat) : List Nat := (upFrom 0 25).map fun n => ((readCr { s with cur := k } n).getD 0).toNat

/-- The body of a STRAND section. -/
def strandWords (s : State) (k : Nat) : List Nat :=
  let x := getStrand s k
  [x.pc.toNat] ++ crWords s k ++ listWords loopWords x.loops ++ listWords loopWords x.shadow ++ [bnat x.rbufOk]
    ++ countWords x.copyN ++ countWords x.topkN ++ countWords x.tabN ++ listWords msgWords x.mail ++ listWords killWords x.kills

/-- The bits that a control register has (spec/00 R9, spec/01 R27, R29, R31, R32, spec/03 R63, spec/15 R295). -/
def crBits (n : Nat) : Word :=
  match n with
  | 0x00 => 0x3FF3D
  | 0x06 => 0x1FFFFF
  | 0x18 => 0xFFFFFFFFFFFFFF00
  | n => crMask n true

/-- A strand from its section, of an image saved at a time; reserved bits of the registers read as zero (spec/00 R9), the register files are in the pool's register block, and the
repetition buffer is refilled on the next pass (spec/05 R112). -/
def getStrandBody (time : Nat) : Reader Strand := do
  let pc ← getW
  let cr ← getNats 25
  let loops ← getList getLoop
  let shadow ← getList getLoop
  let ok ← getWord
  let copyN ← getCount time
  let topkN ← getCount time
  let tabN ← getCount time
  let mail ← getList (getMsg time)
  let kills ← getList (getKill time)
  let w (n : Nat) : Word := BitVec.ofNat 64 (cr.getD n 0) &&& crBits n
  let mb : Map Word := (upFrom 0 8).foldl (fun m i => mset 0 m i (w (8 + i))) []
  pure { Strand.reset with
    run := .running, pc := pc &&& ~~~ 3#64, status := w 0, cause := w 1, epc := w 2, tval := w 3, tvec := w 4, resume := w 5, geom := w 6, mb := mb
    oscale := w 0x10, nancnt := w 0x11, prova := w 0x12, provb := w 0x13, spillp := w 0x16, tenant := w 0x17, jslot := w 0x18
    loops := loops, shadow := shadow, rbufOk := ok == 1, copyN := copyN, topkN := topkN, tabN := tabN, mail := mail, kills := kills, floor := time }

/-- (column, K-block) pairs of a buffer, column-major. -/
def colBlocks (nb nw : Nat) : List (Nat × Nat) := (upFrom 0 nw).flatMap fun j => (upFrom 0 nb).map fun t => (j, t)

/-- The strands that hold a buffer, one bit for each. -/
def holdMask (l : List Nat) : Nat := l.foldl (fun m k => m ||| 2 ^ strandNo k) 0

/-- The body of a LATCH section: validity, hold strands, KL, Nw, bw, N, then the mantissas, the scales and the masks in (column, K-block, position) order. -/
def latchWords (b : LatchBuf) : List Nat :=
  let gs := (colBlocks b.nb b.nw).map fun p => lget ⟨0, 0, []⟩ b.groups (p.2 * b.nw + p.1)
  [bnat b.valid, holdMask b.holders, 32 * b.nb, b.nw, b.bw, b.n]
    ++ (gs.flatMap fun g => (upFrom 0 32).map fun p => bitsOfInt 64 (lget 0 g.m p)) ++ gs.map WGroup.ew ++ gs.map fun g => g.mask.toNat

/-- A buffer of core `c` from its section. -/
def getLatch (c : Nat) : Reader LatchBuf := do
  let valid ← getWord
  let hold ← getWord
  let kl ← getWord
  let nw ← getWord
  let bw ← getWord
  let n ← getWord
  let nb := kl / 32
  let ms ← getNats (32 * nb * nw)
  let es ← getNats (nb * nw)
  let ks ← getNats (nb * nw)
  let gs : List WGroup := (upFrom 0 (nb * nw)).map fun i =>
    let q := i % nw * nb + i / nw
    ⟨es.getD q 0, BitVec.ofNat 32 (ks.getD q 0), ((ms.drop (32 * q)).take 32).map (sextNat 64)⟩
  pure ⟨valid == 1, nb, nw, n, bw, gs, ((upFrom 0 4).filter (bitOf hold)).map fun i => 4 * c + i, none⟩

/-- A table as its image of R213, padded to 3,104 bytes. -/
def tableWords (t : List TabEntry) : List Nat :=
  let bs := bytesOf 16 t.length ++ t.flatMap fun e => bytesOf 4 e.x.toNat ++ bytesOf 4 e.a.toNat ++ bytesOf 4 e.b.toNat
  bytesToWords 388 bs

def tableEntries (bs : List Byte) : Nat → List TabEntry
  | 0 => []
  | n + 1 =>
    ⟨BitVec.ofNat 32 (leOf (bs.take 4)), BitVec.ofNat 32 (leOf ((bs.drop 4).take 4)), BitVec.ofNat 32 (leOf ((bs.drop 8).take 4))⟩
      :: tableEntries (bs.drop 12) n

def getTable : Reader (List TabEntry) := do
  let l ← getNats 388
  pure (tableEntries (wordsToBytes (l.drop 2)) (min (l.getD 0 0) 257))

/-- The body of a CORE section. -/
def coreWords (s : State) (c lid : Nat) : List Nat :=
  let y := getCore s c
  [y.part.toNat, (getStrand s (4 * c)).geom.toNat, y.vmode.toNat, y.matSlot.toNat]
    ++ ((upFrom 0 4).flatMap fun i => wordsOf 2 (mget 0 y.pwin i).toNat) ++ [lid]

/-- What a CORE section gives a core. -/
structure CoreImage where
  part : Word
  vmode : BitVec 2
  matSlot : Word
  pwin : Map (BitVec 128)
  lid : Nat
  deriving DecidableEq, Repr

/-- The fields of a `PART` word (spec/01 R18). -/
def partBits (v : Word) : Word := v &&& 0x37F7F7F7F#64

/-- What a CORE section gives, without the reserved bits of its registers (spec/00 R9); a bank mode of 3 names none (spec/01 R24). -/
def getCoreBody : Reader CoreImage := do
  let part ← getW
  let _ ← getWord
  let vmode ← getWord
  let slot ← getW
  let wins ← getMany (getBig 2) 4
  let lid ← getWord
  let pwin : Map (BitVec 128) := (upFrom 0 4).foldl (fun m i => mset 0 m i (windowBits (BitVec.ofNat 128 (wins.getD i 0)))) []
  pure ⟨partBits part, if vmode % 4 = 3 then 0 else BitVec.ofNat 2 vmode, matSlotBits slot, pwin, lid⟩

/-- The pool of a core in offset order: the register blocks, then the rest. -/
def poolWords (s : State) (c : Nat) : List Nat :=
  ((upFrom 0 2048).map fun i => poolRead s c (8 * i) 8) ++ bytesToWords 129024 (readBytes (getCore s c).pool 0x4000 0xFC000)

/-- The pool written back: the register blocks as a system-level store writes them. -/
def takePool (s : State) (c : Nat) (ws : List Nat) : State :=
  let s := (upFrom 0 2048).foldl (fun s i => poolWrite s c (8 * i) 8 (ws.getD i 0) true) s
  modCore s c fun y => { y with pool := writeBytes [] 0x4000 (wordsToBytes ((ws.drop 2048).take 129024)) }

/-! ### Sections -/

/-- A section: its type, its coordinates and its words. -/
structure Section where
  ty : Nat
  cl : Nat
  core : Nat
  strand : Nat
  body : List Nat
  deriving DecidableEq, Repr

def sectionWords (x : Section) : List Nat :=
  [x.ty + x.cl * 2 ^ 16 + x.core * 2 ^ 20 + x.strand * 2 ^ 26, 8 * x.body.length] ++ x.body

def getSection : Reader Section := fun l =>
  match l with
  | h :: n :: r =>
      if h / 2 ^ 28 ≠ 0 ∨ n % 8 ≠ 0 ∨ 8 * r.length < n then none
      else some (⟨bits h 0 16, bits h 16 4, bits h 20 6, bits h 26 2, r.take (n / 8)⟩, r.drop (n / 8))
  | _ => none

/-- The sections of an image; the fuel counts words. -/
def getSections : Nat → List Nat → Option (List Section)
  | 0, _ => none
  | f + 1, l =>
    if l.isEmpty then some []
    else
      match getSection l with
      | some (x, r) => (getSections f r).map (x :: ·)
      | none => none

/-- The cores of a context. -/
def ctxCores (s : State) (x : Nat) : List Nat := (listedCores s).filter fun c => (getCore s c).owner == some x
/-- The strands of a context that a launch has started and that have not stopped. -/
def ctxStrands (s : State) (x : Nat) : List Nat :=
  (listedStrands s).filter fun k => isLive (getStrand s k) && stCtx (getStrand s k) == x && (getCore s (coreOf k)).launch.isSome

/-- Is an event-unit resource granted to a context? -/
def grantedTo (s : State) (x cl off : Nat) : Bool := grantee (ownerByte s cl off) == some x

/-- The clusters in which a context has a core, a resource or a task. -/
def ctxClusters (s : State) (x : Nat) : List Nat :=
  (listedClusters s).filter fun cl =>
    (ctxCores s x).any (clusterOfCore · == cl) || (upFrom 0x40 96).any (grantedTo s x cl) || holdsTasks s cl x

/-- Launch id of a launch number. -/
def lidOf (s : State) (n : Option Nat) : Nat :=
  match n with
  | some n => ((s.launches.find? fun l => l.num == n).map Launch.lid).getD 0
  | none => 0

/-- Strand address, record address and participant id of a kill. -/
def heldWords (s : State) (e : Nat × PendKill) : List Nat := [(addrOfStrand s e.1).toNat, e.2.record.toNat, e.2.pid]

/-- The body of a CLUSTER section. -/
def clusterWords (s : State) (x cl : Nat) : List Nat :=
  let c := getCluster s cl
  listWords taskWords (c.tasks.filter fun t => t.ctx == x)
    ++ listWords streamWords (c.streams.filter fun e => stCtx (getStrand s e.2.owner) == x && (getStrand s e.2.owner).run == .saved)
    ++ listWords evWords (c.ev.filter fun e => grantedTo s x cl (0x40 + e.1))
    ++ listWords barWords (c.barc.filter fun e => grantedTo s x cl (0x80 + e.1))
    ++ listWords mutexWords (c.mutex.filter fun e => grantedTo s x cl (0x90 + e.1))

/-- What the launch controller keeps of the strands of a context beside their image. -/
def keptOf (s : State) (x : Nat) : List Kept :=
  (ctxStrands s x).map fun k =>
    let y := getStrand s k
    ⟨k, y.irq, y.entered, y.task, y.mmagN, y.mmagOpen⟩

/-- The trace time of a save: no time that a strand, a message, a completion or a kill of the context carries is later. -/
def saveTime (s : State) (x : Nat) : Nat :=
  (ctxStrands s x).foldl (fun t k =>
    let y := getStrand s k
    let l := [y.floor, y.copyN.time, y.topkN.time, y.tabN.time] ++ y.mail.map Msg.time ++ y.kills.map PendKill.time
    l.foldl max t) (dieTime s 0)

/-- The sections of a context whose strands are all stopped; of a core's two buffers the latest one comes second (spec/03 R54; log 14). -/
def sectionsOf (s : State) (x : Nat) : List Section :=
  let cs := ctxCores s x
  let ks := ctxStrands s x
  let binds := (getCtx s x).binds
  let kills := (ks.flatMap fun k => (getStrand s k).kills.map fun p => (k, p)) ++ (getCtx s x).heldKills
  let core (ty c : Nat) (b : List Nat) : Section := ⟨ty, clusterOfCore c, c % 64, 0, b⟩
  [⟨1, 0, 0, 0, binds.length :: ((binds.flatMap fun b => [b.handle.toNat, b.base.toNat, b.len.toNat])
      ++ List.replicate (3 * (1024 - binds.length)) 0)⟩,
   ⟨2, 0, 0, 0, kills.flatMap (heldWords s)⟩]
  ++ ((ctxClusters s x).map fun cl => ⟨3, cl, 0, 0, clusterWords s x cl⟩)
  ++ (cs.map fun c => core 4 c (coreWords s c (lidOf s (getCore s c).launch)))
  ++ (ks.map fun k => ⟨5, clusterOf k, coreNo k, strandNo k, strandWords s k⟩)
  ++ (cs.map fun c => core 6 c (poolWords s c))
  ++ (cs.flatMap fun c =>
      let y := getCore s c
      [core 7 c (latchWords (if y.latest then y.latch0 else y.latch1)), core 7 c (latchWords (if y.latest then y.latch1 else y.latch0))])
  ++ (cs.map fun c => core 8 c ((upFrom 0 4).flatMap fun t => tableWords (mget [] (getCore s c).tables t)))

/-- The 64-byte header of an image. -/
def imageHeader (x dev len time : Nat) : Nat :=
  0x47435649 + 2 ^ 32 + x * 2 ^ 48 + dev * 2 ^ 56 + len * 2 ^ 64 + time % 2 ^ 63 * 2 ^ 128

/-- The bytes of a context's image. -/
def imageBytes (s : State) (x : Nat) : List Byte :=
  let body := wordsToBytes ((sectionsOf s x).flatMap sectionWords)
  bytesOf 64 (imageHeader x s.devNo (64 + body.length) (saveTime s x)) ++ body

/-! ### Reading an image back -/

/-- The cells of a range as whole numbers: is all of it backed by memory? -/
def rangeBacked (a n : Nat) : Bool :=
  backed a && !isControl a && backed (a + n - 1) && !isControl (a + n - 1) && decide (n ≤ 0x8000000000)
    && (decide (a + n ≤ 0x8000000000) || decide (0x8000000000 ≤ a)) && decide (a / 0x40000000000 = (a + n - 1) / 0x40000000000 ∨ 0x8000000000000 ≤ a)

/-- Does a range of memory hold a poisoned unit? -/
def rangePoisoned (s : State) (a n : Nat) : Bool := s.poison.any fun u => decide (u < a + n) && decide (a < u + 8)

/-- The two buffers of a core, the latest one second. -/
def takeLatches (s : State) (c : Nat) (a b : LatchBuf) : State := modCore s c fun y => { y with latch0 := a, latch1 := b, latest := true }

/-- The kill handler of a record that a KILLS entry names and no STRAND section does (spec/15 R290, R305). -/
def kpcOf (s : State) (x k va : Nat) : Option Word :=
  match homeLoc s (engineActor (coreOf k) x (getCore s (coreOf k)).desc) va 256 .read with
  | .ok key => if recField s key 54 1 = 0 then some (BitVec.ofNat 64 (recField s key 576 57)) else none
  | _ => none

/-- A held or pending kill of an image makes KILLP (spec/20 R339). -/
def restoreKill (s : State) (k : Nat) (p : PendKill) : State :=
  if (getStrand s k).run ≠ .running then s
  else modStrand s k fun y =>
    { putStatus y 5 true with
      kills := if y.kills.any fun q => q.record == p.record && q.pid == p.pid then y.kills else y.kills ++ [p] }

end Sys2Proof.Machine
end

