-- ==== Sys2Proof/Machine/Engines.lean ====
section
/-!
DEFINITION. The cluster's copy engine, its top-k unit and the loads of a core's table unit (spec/09 R208, R210-R213, R224; spec/06 R131; spec/15
R306).
-/
namespace Sys2Proof.Machine

/-! ### Tickets and slots (spec/09 R208, R224) -/

/-- The completed count moves over the tickets completed out of order. -/
def catchUp : Nat → EngCount → EngCount
  | 0, e => e
  | n + 1, e => if e.early.contains (e.cmp + 1) then catchUp n { e with cmp := e.cmp + 1, early := e.early.filter (· != e.cmp + 1) } else e

/-- A ticket completes at a time. -/
def completeTicket (e : EngCount) (ticket t : Nat) : EngCount :=
  let e := { e with early := e.early ++ [ticket], time := max e.time t }
  catchUp e.early.length e

/-- The context that an engine serves next: the slot's owner, else the next in turn (spec/09 R224). -/
def slotPick (word : Word) (cycle last : Nat) (ready : Nat → Bool) : Option Nat :=
  let owner := bits word.toNat (4 * (cycle / 256 % 16)) 4
  if ready owner then some owner else ((upFrom 1 16).map fun n => (last + n) % 16).find? ready

/-- Does an engine of a cluster hold a lossless record of a context (spec/21 R352)? -/
def engineHeld (s : State) (src x : Nat) : Bool := s.recs.any fun r => r.held && r.strand.isNone && r.src == src && r.ctx == x

/-- A state without the records that an engine holds for a context: as it were if nothing held it back. -/
def withoutHeld (s : State) (src x : Nat) : State :=
  { s with recs := s.recs.filter fun r => !(r.held && r.strand.isNone && r.src == src && r.ctx == x) }

/-! ### Copy command records (spec/09 R210) -/

def ccrField (r : BitVec 512) (lo w : Nat) : Nat := bits r.toNat lo w
def ccrOp (r : BitVec 512) : Nat := ccrField r 60 4
def ccrJp (r : BitVec 512) : Bool := r.getLsbD 185
def ccrSpace (r : BitVec 512) (lo : Nat) : Space := (Space.ofCode (ccrField r lo 2)).getD .glob

/-- The conditions of R210 on the record's own bytes. -/
def ccrOk (r : BitVec 512) : Bool :=
  ccrField r 480 32 == 0 && ccrField r 360 24 == 0 && ccrField r 330 6 == 0 && ccrField r 322 6 == 0 && ccrField r 313 7 == 0
  && ccrField r 123 5 == 0 && ccrField r 59 1 == 0 && decide (ccrOp r < 4)
  && ccrField r 320 2 != 3 && ccrField r 121 2 != 3 && ccrField r 57 2 != 3
  && ccrField r 256 57 % 16 == 0 && ccrField r 128 57 % 256 == 0

/-- The conditions of R210 on the records of a MOVE. -/
def moveOk (a b : BitVec 512) : Bool :=
  tsrCode b != 15 && tsrNdm a == tsrNdm b && tsrSizes a == tsrSizes b && decide (tsrTotal b < 2 ^ 48) && tsrCode b != 12 && tsrCode b != 13
  && (tsrCode a == 14) == (tsrCode b == 14) && (!(tsrCode a == 12 || tsrCode a == 13) || tsrCode b == 11)
  && (!(tsrTy b).isBlock || tsrSpn b == 0)

/-- A run of bytes: Z8 with one dimension. -/
def runOk (r : BitVec 512) : Bool := tsrCode r == 4 && tsrNdm r == 0

/-- A copy command record and the shape records it names. -/
structure CcrRead where
  ccr : BitVec 512
  src : BitVec 512
  dst : BitVec 512
  deriving DecidableEq, Repr

/-- Sequence two accesses. -/
def accThen {α β : Type} (a : Acc α) (f : α → Acc β) : Acc β :=
  match a with
  | .ok v => f v
  | .fault c t => .fault c t
  | .wait b => .wait b

/-- Read and validate a copy command record with its shape records; a destination TY of 15 of MOVE or FILL is a fault of the command record (spec/09 R210). -/
def readCcr (s : State) (a : Actor) (as : Space) (va : Nat) : Acc (CcrRead × State) :=
  if !tsrPlace as va then .fault 9 va
  else
    accThen (loadWords s a as va 8) fun (n, s) =>
      let r := BitVec.ofNat 512 n
      let src (s : State) : Acc (BitVec 512 × State) := readTsr s a (ccrSpace r 57) (ccrField r 0 57) fun _ => true
      let dst (s : State) : Acc (BitVec 512 × State) := readTsrAny s a (ccrSpace r 121) (ccrField r 64 57) fun _ => true
      if !ccrOk r then .fault 9 va
      else
        match ccrOp r with
        | 0 => accThen (src s) fun (x, s) => accThen (dst s) fun (y, s) => if moveOk x y then .ok (⟨r, x, y⟩, s) else .fault 9 va
        | 1 =>
            if ccrField r 0 57 ≠ 0 then .fault 9 va
            else accThen (dst s) fun (y, s) => if tsrCode y = 15 ∨ (tsrTy y).isBlock then .fault 9 va else .ok (⟨r, 0, y⟩, s)
        | 2 =>
            if ccrField r 64 57 ≠ 0 then .fault 9 va
            else accThen (readTsrAny s a (ccrSpace r 57) (ccrField r 0 57) fun _ => true) fun (x, s) => if runOk x then .ok (⟨r, x, 0⟩, s) else .fault 9 va
        | _ =>
            if ccrField r 0 57 ≠ 0 then .fault 9 va
            else accThen (dst s) fun (y, s) => if runOk y then .ok (⟨r, 0, y⟩, s) else .fault 9 va

def kindOfOp (n : Nat) : CopyKind :=
  match n with
  | 0 => .move
  | 1 => .fill
  | 2 => .rwrite
  | _ => .rread

/-! ### Registration of a command at a join (spec/09 R211, spec/15 R291, R295) -/

/-- The engine operation of a cluster as the party of an access: it acts for its strand's core. -/
def cmdActor (cl : Nat) (q : CopyCmd) : Actor :=
  engineActor (match q.strand with
    | some k => coreOf k
    | none => 64 * cl) q.ctx q.desc

/-- A command with JP = 1 registers as it is handed over; the command notes the record's location. IDENT of a task's command is the address of its spawner, 0 where no strand spawned it
(spec/15 R295; log 98). -/
def registerCommand (s : State) (cl : Nat) (q : CopyCmd) : State × CopyCmd :=
  if !ccrJp q.ccr then (s, q)
  else
    let va := ccrField q.ccr 128 57
    let p := ccrField q.ccr 186 6
    let ident := match q.strand with
      | some k => (addrOfStrand s k).toNat
      | none => 0
    match homeLoc s (cmdActor cl q) va 256 .read with
    | .ok key =>
        match enterJoin (noteAsk s (askJoin key) p) (cmdActor cl q) key p (cmdParty cl q) 2 ident (BitVec.ofNat 64 va) with
        | .ok s => (s, { q with registered := true, addr := BitVec.ofNat 64 key })
        | .error _ => (reportFind (noteAsk s (askJoin key) p) (cmdActor cl q) key va, q)
    | .fault c v => (noteError s c v (cmdActor cl q), q)
    | .wait _ => (s, q)

/-- Must a registration wait for the next cycle: a later one has reached the home in this one, or the home defers it (spec/15 R297, R308)? -/
def registerWaits (s : State) (cl : Nat) (q : CopyCmd) : Bool :=
  ccrJp q.ccr &&
    (match homeLoc s (cmdActor cl q) (ccrField q.ccr 128 57) 256 .read with
     | .ok key => joinDefers s key || !mayAsk s (askJoin key) (ccrField q.ccr 186 6)
     | _ => false)

/-- A command whose registration failed does not run. -/
def cmdDead (q : CopyCmd) : Bool := q.kind != .pref && ccrJp q.ccr && !q.registered

def execCopy (c : Common) (d sa : SReg) (as : Space) (s : State) : Host.Outcome State Fault Refusal :=
  issue (.copy c d sa as) c s fun s =>
    if !handReady s s.cur then .hold
    else
      ofAcc (readCcr s (self s) as (getS (me s) sa).toNat) fun p =>
        let r := takeTicket (handOff p.2 s.cur) d
        let q := newCommand r.2 (kindOfOp (ccrOp p.1.ccr)) r.1 p.1.ccr p.1.src p.1.dst 0 0
        if registerWaits r.2 (clusterOf s.cur) q then .hold
        else
          let y := registerCommand r.2 (clusterOf s.cur) q
          .landed (pushCommand y.1 y.2)

/-! ### Chunks of a command (spec/09 R211) -/

/-- The record whose elements a command goes through. -/
def cmdShape (q : CopyCmd) : BitVec 512 := if q.kind = .rwrite then q.src else q.dst

/-- The index space of a command's units: elements, or groups along BAX of a block destination. -/
def unitSizes (r : BitVec 512) : List Nat :=
  if (tsrTy r).isBlock then lset (tsrSizes r) (tsrBax r) ((lget 0 (tsrSizes r) (tsrBax r) + 31) / 32) else tsrSizes r

/-- How many units a command has: bytes of a prefetch, else elements or groups. -/
def cmdUnits (q : CopyCmd) : Nat := if q.kind = .pref then q.len else (unitSizes (cmdShape q)).foldl (· * ·) 1

/-- Units of a chunk of at most 4 KiB of destination. -/
def chunkUnits (q : CopyCmd) : Nat :=
  let r := cmdShape q
  if q.kind = .pref then 4096
  else if (tsrTy r).isBlock then max 1 (4096 / (tsrField r + 1))
  else if tsrTy r = .bit then 32768
  else 4096 / elemBytes (tsrTy r)

/-- Has a command nothing left to do? -/
def cmdOver (q : CopyCmd) : Bool := q.killed || cmdDead q || q.xerr != 0 || decide (cmdUnits q ≤ q.done)

/-- Elements are skipped from an address on. -/
def skipAt (q : CopyCmd) (va n : Nat) : CopyCmd :=
  { q with nflt := min (q.nflt + n) 0xFFFFFFFF, faddr := if q.faddr = 2 ^ 64 then va else q.faddr }

/-- A unit is behind the command, with the elements it holds. -/
def passUnit (q : CopyCmd) (n : Nat) : CopyCmd := { q with done := q.done + 1, count := q.count + n }

/-- The encoding that an element of the destination receives: that of the source where the types are the same, else converted
(spec/02 R45). -/
def moveElem (s : State) (a : Actor) (src dst : BitVec 512) (ix : List Nat) : Acc (Nat × State) :=
  if tsrCode src = tsrCode dst ∧ (tsrTy src).isNum then loadElem s a (tsrMas src) (elemAddr src ix) (elemBytes (tsrTy src))
  else accThen (readVal s a src ix) fun (v, s) => .ok ((if tsrTy dst = .bit then bnat (v != zeroV) else elemOf (tsrTy dst) v), s)

/-- What a command has read for each unit of a chunk: an encoding, or the address that failed; it stops where a read must wait. -/
def readMoves (a : Actor) (src dst : BitVec 512) : List (List Nat) → State → List (Except Nat Nat) × State
  | [], s => ([], s)
  | ix :: r, s =>
    match moveElem s a src dst ix with
    | .ok (v, s) => let y := readMoves a src dst r s; (.ok v :: y.1, y.2)
    | .fault c t => let y := readMoves a src dst r (noteError s c t a); (.error t :: y.1, y.2)
    | .wait b => ([], wakeBank s b)

/-- Write one element of an ordinary or BIT type. -/
def putElem (s : State) (a : Actor) (dst : BitVec 512) (ix : List Nat) (v : Nat) : Acc State :=
  if tsrTy dst = .bit then
    let n := addrPlus (8 * tsrMptr dst) (dotIdx dst 4 ix)
    match locate s a (tsrMas dst) (n / 8) 1 1 .write with
    | .ok l =>
        let r := loadLoc s a l 1
        .ok (storeLoc r.2 a l 1 (setBits r.1 (n % 8) 1 v))
    | .fault c t => .fault c t
    | .wait b => .wait b
  else storeElem s a (tsrMas dst) (elemAddr dst ix) (elemBytes (tsrTy dst)) v

/-- Write the elements of a chunk in order; it stops where a write must wait. -/
def writeMoves (a : Actor) (dst : BitVec 512) : List (List Nat) → List (Except Nat Nat) → CopyCmd → State → CopyCmd × State
  | ix :: r, .ok v :: vs, q, s =>
    match putElem s a dst ix v with
    | .ok s => writeMoves a dst r vs (passUnit q 1) s
    | .fault c t => writeMoves a dst r vs (passUnit (skipAt q t 1) 1) (noteError s c t a)
    | .wait b => (q, wakeBank s b)
  | _ :: r, .error t :: vs, q, s => writeMoves a dst r vs (passUnit (skipAt q t 1) 1) s
  | _, _, q, s => (q, s)

/-- The element indices of a group of a block destination. -/
def groupElems (r : BitVec 512) (gx : List Nat) : List (List Nat) :=
  let b := tsrBax r
  let i := 32 * lget 0 gx b
  (upFrom i (min 32 (lget 0 (tsrSizes r) b - i))).map fun j => lset gx b j

/-- The values of a group's elements, or the first address that failed. -/
def readGroup (a : Actor) (src : BitVec 512) : List (List Nat) → State → Acc (Except Nat (List Val) × State)
  | [], s => .ok (.ok [], s)
  | ix :: r, s =>
    match readVal s a src ix with
    | .ok (v, s) =>
        accThen (readGroup a src r s) fun (vs, s) => .ok (vs.map (v :: ·), s)
    | .fault c t => .ok (.error t, noteError s c t a)
    | .wait b => .wait b

/-- The groups of a chunk as read. -/
def readGroups (a : Actor) (src dst : BitVec 512) : List (List Nat) → State → List (Except Nat (List Val)) × State
  | [], s => ([], s)
  | gx :: r, s =>
    match readGroup a src (groupElems dst gx) s with
    | .ok (v, s) => let y := readGroups a src dst r s; (v :: y.1, y.2)
    | .wait b => ([], wakeBank s b)
    | .fault .. => ([], s)

/-- The non-finite elements that a command replaced are counted in its strand's NANCNT as it completes (spec/02 R47, R48). -/
def countCmd (s : State) (q : CopyCmd) : State :=
  match q.strand with
  | some k => countNan s k q.nan
  | none => s

/-- Write the groups of a chunk in order. A conversion from GBF never saturates (spec/02 R45). -/
def writeGroups (a : Actor) (dst : BitVec 512) : List (List Nat) → List (Except Nat (List Val)) → CopyCmd → State → CopyCmd × State
  | gx :: r, .ok vs :: l, q, s =>
    let g := groupOf dst gx (lget 0 gx (tsrBax dst))
    let n := vs.length
    match checkGroup s a dst g with
    | .ok _ =>
        let f := formGroup q.nanm (tsrMw dst) (padGroup vs)
        match writeGroup s a dst g f.g with
        | .ok s => writeGroups a dst r l (passUnit { q with sat := q.sat || (f.sat && tsrCode q.src != 11), nan := q.nan + f.count } n) s
        | _ => (q, s)
    | .fault c t => writeGroups a dst r l (passUnit (skipAt q t n) n) (noteError s c t a)
    | .wait b => (q, wakeBank s b)
  | gx :: r, .error t :: l, q, s =>
    let n := (groupElems dst gx).length
    writeGroups a dst r l (passUnit (skipAt q t n) n) s
  | _, _, q, s => (q, s)

/-- A prefetch fills a line; one that a load could not read is passed over, since a prefetch changes no value that a load returns (spec/06 R131, spec/13 R271). -/
def prefLine (s : State) (cl x line : Nat) : State :=
  if noHome s (line * 128) || s.poison.any fun u => u / 128 == line then s else (fillL2 s cl line x).2

/-- A prefetch brings the readable lines of its next page into the L2 slice (spec/06 R131), past 2^64 those from address 0 on (log 92). -/
def prefChunk (s : State) (cl : Nat) (a : Actor) (q : CopyCmd) : CopyCmd × State :=
  let n := min (4096 - (q.addr.toNat + q.done) % 4096) (q.len - q.done)
  let va := (q.addr.toNat + q.done) % 2 ^ 64
  let s := match translate s a.core q.ctx q.desc va .read with
    | some (key, _) =>
        if isControl key then s else foldUnits (fun s l => prefLine s cl q.ctx l) (upFrom (key / 128) ((key + n - 1) / 128 - key / 128 + 1)) s
    | none => reportWalk s a.core q.ctx q.desc va
  ({ q with done := q.done + n }, s)

/-- State of an Ethernet port's link (spec/22 R367). -/
def portState (s : State) (p : Nat) : Nat := (mget LinkUnit.reset s.links (32 + p)).state

/-- The answers of a remote end to a READ of `n` bytes. -/
def remoteBytes (s : State) (n : Nat) : List (Except Nat Nat) × State :=
  ((upFrom s.tick n).map fun i => .ok (Config.remoteByte i).toNat, { s with tick := s.tick + n })

/-- The XERR with which an RDMA operation fails at a chunk: its port is not up, its queue pair does not exist, or the remote end refuses (spec/22 R376). -/
def rdmaError (s : State) (q : CopyCmd) : Option Nat :=
  if portState s (ccrField q.ccr 328 2) ≠ 2 then some 3
  else if !mhas s.qps (ccrField q.ccr 336 24) then some (if Config.noPairRetries s.tick then 1 else 2)
  else if Config.remoteRefuses s.tick then some 2 else none

/-- One chunk of a command. -/
def cmdChunk (s : State) (cl : Nat) (q : CopyCmd) : CopyCmd × State :=
  let a := cmdActor cl q
  let n := min (chunkUnits q) (cmdUnits q - q.done)
  let ixs := (upFrom q.done n).map (idxOf (unitSizes (cmdShape q)))
  match q.kind with
  | .pref => prefChunk s cl a q
  | .move =>
      if (tsrTy q.dst).isBlock then
        let r := readGroups a q.src q.dst ixs s
        writeGroups a q.dst ixs r.1 q r.2
      else
        let r := readMoves a q.src q.dst ixs s
        writeMoves a q.dst ixs r.1 q r.2
  | .fill =>
      let v := ccrField q.ccr 192 64 % 2 ^ (tsrTy q.dst).width
      writeMoves a q.dst ixs (ixs.map fun _ => .ok v) q s
  | .rwrite =>
      match rdmaError s q with
      | some e => ({ q with xerr := e }, { s with tick := s.tick + 1 })
      | none =>
        let r := readMoves a q.src q.src ixs { s with tick := s.tick + 1 }
        (r.1.foldl (fun q v => match v with
          | .ok _ => passUnit q 1
          | .error t => passUnit (skipAt q t 1) 1) q, r.2)
  | .rread =>
      match rdmaError s q with
      | some e => ({ q with xerr := e }, { s with tick := s.tick + 1 })
      | none =>
        let r := remoteBytes { s with tick := s.tick + 1 } n
        writeMoves a q.dst ixs r.1 q r.2

/-- Replace a command of a cluster's copy engine. -/
def putCommand (s : State) (cl idx : Nat) (q : CopyCmd) : State :=
  modCluster s cl fun c => { c with copies := lset c.copies idx q }

def getQp (s : State) (q : Nat) : QueuePair := mget QueuePair.reset s.qps q

/-- System software creates a queue pair, one of at most 4,096 (spec/22 R376). -/
def makeQp (s : State) (q : Nat) : State :=
  if mhas s.qps q || decide (4096 ≤ s.qps.length) then s else { s with qps := mput s.qps q .reset }

/-- A change of a queue pair that has been created. -/
def setQp (s : State) (q : Nat) (x : QueuePair) : State := if mhas s.qps q then { s with qps := mput s.qps q x } else s

/-- Is a command an RDMA operation? -/
def isRdma (q : CopyCmd) : Bool := q.kind == .rwrite || q.kind == .rread

/-- Does the partner of an Ethernet port pause the priority of its RDMA traffic (spec/22 R375)? -/
def portPaused (s : State) (p : Nat) : Bool := decide (s.cycle < mget 0 (mget LinkUnit.reset s.links (32 + p)).pauseTo (Config.rocePriority p % 8))

/-- Does a chunk of a command wait for its port? -/
def cmdPaused (s : State) (q : CopyCmd) : Bool := isRdma q && portPaused s (ccrField q.ccr 328 2)

/-- The remote end has answered a chunk of an RDMA operation: the retries in a row are over (spec/22 R376). -/
def noteAnswer (s : State) (q r : CopyCmd) : State :=
  if isRdma q && r.xerr == 0 then
    setQp s (ccrField q.ccr 336 24) { getQp s (ccrField q.ccr 336 24) with retries := 0 }
  else s

/-- May a command have its next chunk: it has work, and one that has not begun has no earlier such one of its context before it and is
not held back (spec/09 R224, spec/21 R352)? -/
def cmdReady (s : State) (cl idx : Nat) (q : CopyCmd) : Bool :=
  !cmdOver q && (q.done != 0 ||
    (!engineHeld s (srcCopy cl) q.ctx
      && ((getCluster s cl).copies.take idx).all fun p => p.ctx != q.ctx || p.done != 0 || cmdOver p))

/-- The context that the copy engine serves. -/
def copyTurn (s : State) (cl : Nat) : Option Nat :=
  let c := getCluster s cl
  slotPick c.cpySlot s.cycle c.cpyLast fun x =>
    (upFrom 0 c.copies.length).any fun i =>
      match c.copies[i]? with
      | some q => q.ctx == x && cmdReady s cl i q
      | none => false

/-- The copy engine performs one chunk of a command, where it is the turn of the command's context. -/
def execCopyChunk (cl idx : Nat) (s : State) : Host.Outcome State Fault Refusal :=
  match (getCluster s cl).copies[idx]? with
  | some q =>
      if cmdReady s cl idx q && copyTurn s cl == some q.ctx && !(getCluster s cl).failed && !(getCluster s cl).dm.halted && !cmdPaused s q then
        let r := cmdChunk s cl q
        .next (modCluster (putCommand (noteAnswer r.2 q r.1) cl idx r.1) cl fun c => { c with cpyLast := q.ctx })
      else .next (if engineHeld s (srcCopy cl) q.ctx && q.done == 0 && cmdReady (withoutHeld s (srcCopy cl) q.ctx) cl idx q
          && copyTurn (withoutHeld s (srcCopy cl) q.ctx) cl == some q.ctx && !(getCluster s cl).failed && !(getCluster s cl).dm.halted then
        noteStall s fun r => r.strand.isNone && r.src == srcCopy cl && r.ctx == q.ctx else s)
  | none => .next s

/-! ### Completion (spec/09 R211, spec/14 R283, spec/15 R306) -/

/-- Address of the first element that a command did not reach. -/
def restAddr (q : CopyCmd) : Nat :=
  let r := cmdShape q
  let ix := idxOf (unitSizes r) q.done
  if (tsrTy r).isBlock then fieldAddr r (groupOf r ix (lget 0 ix (tsrBax r)))
  else if tsrTy r = .bit then addrPlus (8 * tsrMptr r) (dotIdx r 4 ix) / 8
  else elemAddr r ix

/-- The counts of a command that a kill stopped: every element that was not written (spec/15 R306). -/
def closeCounts (q : CopyCmd) : CopyCmd :=
  let left := tsrTotal (cmdShape q) - q.count
  if q.killed && q.kind != .pref && left != 0 then skipAt q (restAddr q) left else q

/-- FLT of a command (spec/09 R211). -/
def cmdFlt (q : CopyCmd) : Bool := q.nflt != 0 || q.xerr != 0 || q.killed || cmdDead q

/-- Address of the first skipped element, 0 where there is none. -/
def cmdFaddr (q : CopyCmd) : Nat := if q.faddr = 2 ^ 64 then 0 else q.faddr

/-- The status block. -/
def statusBlock (q : CopyCmd) : Nat :=
  q.nflt + q.xerr * 2 ^ 40 + bnat q.sat * 2 ^ 61 + bnat (cmdFlt q) * 2 ^ 62 + 2 ^ 63 + cmdFaddr q % 2 ^ 57 * 2 ^ 64

/-- The status block is written where the record names one. -/
def writeStatus (s : State) (a : Actor) (q : CopyCmd) : State :=
  if q.kind = .pref ∨ ccrField q.ccr 256 57 = 0 then s
  else
    match storeWords s a (ccrSpace q.ccr 320) (ccrField q.ccr 256 57) 2 (statusBlock q) with
    | .ok s => s
    | .fault c t => noteError s c t a
    | .wait _ => s

/-- The arrival of a registered command at its join, after all its writes (spec/13 R260, R270). -/
def arriveCommand (s : State) (cl : Nat) (a : Actor) (q : CopyCmd) (t : Nat) : State :=
  if q.registered && !q.killed then
    let s := noteAsk (releaseUnit s cl a (memHandle 3 (ccrField q.ccr 128 57)) t) (askJoin q.addr.toNat) (ccrField q.ccr 186 6)
    (arriveJoin s q.addr.toNat (ccrField q.ccr 186 6) (cmdParty cl q) (t + 1)).2
  else s

/-- COPYDONE (spec/21 R346). -/
def emitCopyDone (s : State) (cl : Nat) (q : CopyCmd) : State :=
  let issuer := match q.strand with
    | some k => (addrOfStrand s k).toNat
    | none => 0
  emitOwn s ⟨0x30, srcCopy cl, dieOf cl, q.floor,
    [q.ticket, issuer % 2 ^ 19 + bnat (cmdFlt q) * 2 ^ 24 + bnat q.sat * 2 ^ 25 + q.xerr * 2 ^ 32 + q.ticket / 2 ^ 63 % 2 * 2 ^ 40, q.nflt],
    none, q.ctx⟩ q.tenant (trcOf q.desc)

/-- The time that a command's completion carries: not below the stamp of its record (spec/21 R355, R356). -/
def copyTime (s : State) (cl : Nat) (q : CopyCmd) : Nat :=
  let t := max (dieTime s (dieOf cl)) q.floor
  if (trcOf q.desc == 1 || trcOf q.desc == 2) && ringTakes s q.tenant 0x30 then max t (mget 0 s.srcStamp (srcCopy cl)) else t

/-- Completion: the status block, the arrival, the trace record, and the ticket or the retirement of the task. -/
def completeCommand (s : State) (cl : Nat) (q : CopyCmd) : State :=
  let q := closeCounts q
  let a := cmdActor cl q
  let t := copyTime s cl q
  let s := emitCopyDone (arriveCommand (writeStatus (countCmd s q) a q) cl a q t) cl q
  match q.task with
  | some key =>
      match heldIn s cl key with
      | some e => (retireTask s none cl a e t false 4).2
      | none => s
  | none =>
      match q.strand with
      | some k => modStrand s k fun x => { x with copyN := completeTicket x.copyN q.ticket t }
      | none => s

/-- What the first engine access of a list of addresses waits for, if one waits: the core whose bank wakes. -/
def engineWait (s : State) (a : Actor) (as : Space) (n : Nat) (l : List Nat) : Option (Option Nat) :=
  l.findSome? fun ea =>
    match locate s a as ea n 1 .write with
    | .wait b => some b
    | _ => none

/-- What the status block of a command waits for. -/
def statusWait (s : State) (cl : Nat) (q : CopyCmd) : Option (Option Nat) :=
  if q.kind = .pref ∨ ccrField q.ccr 256 57 = 0 then none
  else engineWait s (cmdActor cl q) (ccrSpace q.ccr 320) 8 ((upFrom 0 2).map fun i => ccrField q.ccr 256 57 + 8 * i)

/-- A kill that reaches a command that has completed is discarded (spec/15 R306). -/
def dropKills (s : State) (who : Party) : State := { s with kills := s.kills.filter fun m => m.who != who }

/-- A command that has nothing left to do completes; the engine of a halted cluster performs nothing (spec/21 R358). -/
def execCopyComplete (cl idx : Nat) (s : State) : Host.Outcome State Fault Refusal :=
  match (getCluster s cl).copies[idx]? with
  | some q =>
      if !cmdOver q || (getCluster s cl).dm.halted then .next s
      else
        match statusWait s cl q with
        | some b => .next (wakeBank s b)
        | none =>
            if q.registered && !mayAsk s (askJoin q.addr.toNat) (ccrField q.ccr 186 6) then .next s
            else .next (completeCommand (dropKills (modCluster s cl fun c => { c with copies := ldel c.copies idx }) (cmdParty cl q)) cl q)
  | none => .next s

/-- A kill reaches a command: it stops at this boundary (spec/15 R306). -/
def execCopyKill (cl idx : Nat) (s : State) : Host.Outcome State Fault Refusal :=
  match (getCluster s cl).copies[idx]? with
  | some q =>
      match s.kills.find? fun m => m.who == cmdParty cl q with
      | some m =>
          .next (putCommand { s with kills := s.kills.filter (· != m) } cl idx { q with killed := true, floor := max q.floor (m.time + 1) })
      | none => .next s
  | none => .next s

/-! ### Copy-command tasks (spec/14 R283) -/

/-- The command of a copy-command task. -/
def taskCommand (t : TaskEnt) (p : CcrRead) (floor : Nat) : CopyCmd :=
  { kind := kindOfOp (ccrOp p.ccr), strand := t.spawner, ctx := t.ctx, desc := t.desc, ticket := 0, ccr := p.ccr, src := p.src,
    dst := p.dst, addr := 0, len := 0, nanm := t.desc.getLsbD 192, tenant := t.tenant, launch := t.launch, done := 0, nflt := 0,
    faddr := 2 ^ 64, sat := false, xerr := 0, count := 0, nan := 0, killed := false, registered := false, task := some t.key, floor := floor }

/-- The first ready copy-command task of a cluster's unit. -/
def readyCopyTask (s : State) (cl : Nat) : Option TaskEnt :=
  (upFrom 0 16).findSome? fun x =>
    if unitDefers s (srcTask cl) x then none else headTask s cl x fun t => t.kind == 1

/-- Time of a unit that takes a ready task: it stands above every time that a release of the task carries (spec/21 R355). -/
def taskTime (s : State) (cl : Nat) (a : Actor) (t : TaskEnt) : Nat :=
  let now := dieTime s (dieOf cl)
  match objKey s a (memHandle 4 t.tcb) with
  | some o => match lastOf s o with
    | some u => max now (u + 1)
    | none => now
  | none => now

/-- The unit hands a ready copy command to its copy engine, or the task fails. -/
def execCopyTaskHandoff (cl : Nat) (s : State) : Host.Outcome State Fault Refusal :=
  match readyCopyTask s cl with
  | none => .next s
  | some t =>
      let a := engineActor (match t.spawner with
        | some k => coreOf k
        | none => 64 * cl) t.ctx t.desc
      let now := taskTime s cl a t
      match readCcr (acquireUnit s cl a (memHandle 4 t.tcb)) a .glob (tcbField s t.key 64 57) with
      | .ok (p, s') =>
          if registerWaits s' cl (taskCommand t p now) then .next s
          else
            let s := modTask (putField s' t.key 208 3 3) cl t.key fun t => { t with ready := none }
            let y := registerCommand s cl (taskCommand t p now)
            .next (modCluster y.1 cl fun c => { c with copies := c.copies ++ [y.2] })
      | .fault c v => .next (retireTask (noteError s c v a) none cl a t now false 6).2
      | .wait b => .next (wakeBank s b)

/-- The unit retires a ready batch card that has no records (spec/14 R282). -/
def execEmptyCardRetire (cl : Nat) (s : State) : Host.Outcome State Fault Refusal :=
  match (upFrom 0 16).findSome? fun x =>
      if unitDefers s (srcTask cl) x then none else headTask s cl x fun t => t.kind == 2 && tcbNrec s t.key == 0 with
  | none => .next s
  | some t =>
      let a := unitActor cl t.ctx t.desc
      .next (retireTask s none cl a t (taskTime s cl a t) false 4).2

/-! ### The top-k unit (spec/09 R212) -/

/-- Is a score no number in its order? -/
def scoreNan (fn : TopkFn) (v : BitVec 32) : Bool := (fn == .fd || fn == .fa) && isNan fmtF32 v.toNat

/-- Does one entry (key, score) stand before another: the better score, then the lower key? -/
def entryBefore (fn : TopkFn) (x y : BitVec 32 × BitVec 32) : Bool :=
  let lt := match fn with
    | .fd | .fa => ltF fmtF32 x.2.toNat y.2.toNat
    | .id | .ia => decide (x.2.toInt < y.2.toInt)
  let gt := match fn with
    | .fd | .fa => ltF fmtF32 y.2.toNat x.2.toNat
    | .id | .ia => decide (y.2.toInt < x.2.toInt)
  let better := match fn with
    | .fd | .id => gt
    | .fa | .ia => lt
  better || (!lt && !gt && decide (x.1.toNat < y.1.toNat))

/-- Insert an entry in order. -/
def insertEntry (fn : TopkFn) (e : BitVec 32 × BitVec 32) : List (BitVec 32 × BitVec 32) → List (BitVec 32 × BitVec 32)
  | [] => [e]
  | a :: r => if entryBefore fn e a then e :: a :: r else a :: insertEntry fn e r

/-- One key and score pushed to a stream. -/
def pushEntry (st : Stream) (key score : BitVec 32) : Stream :=
  if key = BitVec.allOnes 32 || scoreNan st.fn score then st
  else { st with entries := (insertEntry st.fn (key, score) st.entries).take st.k }

/-- The stream that a strand holds under a number. -/
def heldStream (s : State) (k : Nat) (n : Word) : Option Stream :=
  if n.toNat < 16 then
    ((getCluster s (clusterOf k)).streams.find? fun e => e.1 == n.toNat && e.2.owner == k).map Prod.snd
  else none

def putStream (s : State) (cl n : Nat) (x : Stream) : State := modCluster s cl fun c => { c with streams := mput c.streams n x }

def execTkopen (c : Common) (fn : TopkFn) (d sa : SReg) (s : State) : Host.Outcome State Fault Refusal :=
  issue (.tkopen c fn d sa) c s fun s =>
    let k := getS (me s) sa
    let cl := clusterOf s.cur
    if k.toNat = 0 ∨ 256 < k.toNat then .trap 0x13 k.toNat
    else
      match (upFrom 0 16).find? fun n => !mhas (getCluster s cl).streams n with
      | some n => onMe (putStream s cl n ⟨s.cur, fn, k.toNat, []⟩) fun x => setS x d (BitVec.ofNat 64 n)
      | none => onMe s fun x => setS x d (BitVec.allOnes 64)

def execTkpush (c : Common) (sa sb : VReg) (km : KReg) (sc : SReg) (s : State) : Host.Outcome State Fault Refusal :=
  issue (.tkpush c sa sb km sc) c s fun s =>
    let x := me s
    let n := getS x sc
    match heldStream s s.cur n with
    | none => .trap 0x13 n.toNat
    | some st =>
        let st := ((upFrom 0 16).filter (getK x km).getLsbD).foldl (fun st j =>
          pushEntry st (BitVec.ofNat 32 (lane (getV x sa) 32 j)) (BitVec.ofNat 32 (lane (getV x sb) 32 j))) st
        .done (putStream s (clusterOf s.cur) n.toNat st)

/-- The first failure of a range of aligned words for an access. -/
def checkWords (s : State) (a : Actor) (as : Space) (ea b : Nat) (k : AccKind) : Nat → Acc Unit
  | 0 => .ok ()
  | n + 1 => accThen (locate s a as ea b b k) fun _ => checkWords s a as (ea + b) b k n

/-- The body of TKDRAIN; `close` for the form that frees the stream. -/
def drainBody (close : Bool) (d sa sb : SReg) (as : Space) (s : State) : Res :=
  let x := me s
  let k := s.cur
  let n := getS x sb
  match heldStream s k n with
  | none => .trap 0x13 n.toNat
  | some st =>
      if !handReady s k then .hold
      else
        let ea := (getS x sa).toNat
        ofAcc (checkWords s (engineActor (coreOf k) (stCtx x) (myCore s).desc) as ea 8 .write st.k) fun _ =>
          let t := x.topkN.iss + 1
          let q : Drain := ⟨k, t, stCtx x, (myCore s).desc, getS x sa, as, st.k, st.entries, if close then some n.toNat else none, timeOf s k + 1⟩
          let s := modCluster (handOff s k) (clusterOf k) fun c => { c with drains := c.drains ++ [q] }
          onMe s fun x => setS { x with topkN := { x.topkN with iss := t } } d (BitVec.ofNat 64 t)

def execTkdrain (c : Common) (d sa sb : SReg) (as : Space) (s : State) : Host.Outcome State Fault Refusal :=
  issue (.tkdrain c d sa sb as) c s (drainBody false d sa sb as)

def execTkdrainCl (c : Common) (d sa sb : SReg) (as : Space) (s : State) : Host.Outcome State Fault Refusal :=
  issue (.tkdrainCl c d sa sb as) c s (drainBody true d sa sb as)

/-- An entry of 8 bytes; the empty one where there is none. -/
def entryWord (l : List (BitVec 32 × BitVec 32)) (i : Nat) : Nat :=
  match l[i]? with
  | some e => e.1.toNat + e.2.toNat * 2 ^ 32
  | none => 2 ^ 32 - 1

/-- Write `n` entries from place `i` on; one that its mapping no longer admits is passed over. -/
def writeEntries (a : Actor) (q : Drain) : Nat → Nat → State → State
  | 0, _, s => s
  | n + 1, i, s =>
    match storeElem s a q.as (q.addr.toNat + 8 * i) 8 (entryWord q.entries i) with
    | .ok s => writeEntries a q n (i + 1) s
    | .fault c t => writeEntries a q n (i + 1) (noteError s c t a)
    | .wait _ => writeEntries a q n (i + 1) s

/-- The context that the top-k unit serves. -/
def topkTurn (s : State) (cl : Nat) : Option Nat :=
  let c := getCluster s cl
  slotPick c.tkuSlot s.cycle c.tkuLast fun x => c.drains.any fun q => q.ctx == x && !engineHeld s (srcTopk cl) x

/-- A drain writes its entries, frees its stream where it closes it, and completes its ticket. -/
def finishDrain (s : State) (cl idx : Nat) (q : Drain) : State :=
  let s := writeEntries (engineActor (coreOf q.strand) q.ctx q.desc) q q.k 0 s
  let s := modCluster s cl fun c =>
    { c with
      drains := (ldel c.drains idx).map fun p => if q.frees.isSome && p.strand == q.strand && p.frees == q.frees then { p with frees := none } else p
      tkuLast := q.ctx
      streams := match q.frees with
        | some n => c.streams.filter fun e => !(e.1 == n && e.2.owner == q.strand)
        | none => c.streams }
  modStrand s q.strand fun x => { x with topkN := completeTicket x.topkN q.ticket (max (dieTime s (dieOf cl)) q.floor) }

/-- The top-k unit completes a drain in its context's turn. -/
def execTopkDrainComplete (cl idx : Nat) (s : State) : Host.Outcome State Fault Refusal :=
  match (getCluster s cl).drains[idx]? with
  | some q =>
      let a := engineActor (coreOf q.strand) q.ctx q.desc
      let wt := engineWait s a q.as 8 ((upFrom 0 q.k).map fun i => q.addr.toNat + 8 * i)
      if !(topkTurn s cl == some q.ctx) || (getCluster s cl).failed then
        .next (if engineHeld s (srcTopk cl) q.ctx && topkTurn (withoutHeld s (srcTopk cl) q.ctx) cl == some q.ctx && !(getCluster s cl).failed then
          noteStall s fun r => r.strand.isNone && r.src == srcTopk cl && r.ctx == q.ctx else s)
      else if wt.isSome then .next (wakeBank s (wt.getD none))
      else .next (finishDrain s cl idx q)
  | none => .next s

/-! ### Table loads (spec/09 R213, spec/07 R163) -/

/-- The header of a table image: its count, where it is well formed. -/
def tableCount (h : Nat) : Option Nat := if bits h 9 119 = 0 ∧ bits h 0 9 ≤ 257 then some (bits h 0 9) else none

def execTabld (c : Common) (d sa : SReg) (as : Space) (tb : BitVec 2) (s : State) : Host.Outcome State Fault Refusal :=
  issue (.tabld c d sa as tb) c s fun s =>
    let x := me s
    let k := s.cur
    let ea := (getS x sa).toNat
    let a := engineActor (coreOf k) (stCtx x) (myCore s).desc
    if ea % 16 ≠ 0 then .trap 9 ea
    else if !handReady s k then .hold
    else
      ofAcc (loadWords (handOff s k) a as ea 2) fun (h, s) =>
        match tableCount h with
        | none => .trap 9 ea
        | some n =>
            match checkWords s a as (ea + 16) 4 .read (3 * n) with
            | .fault q v => if q = 0xE then .done (startLoad s ea n) else .trap q v
            | .wait none => .hold
            | .wait (some b) => .asleep b
            | .ok _ => .done (startLoad s ea n)
where
  /-- The load is handed to the table unit under its ticket. -/
  startLoad (s : State) (ea n : Nat) : State :=
    let k := s.cur
    let x := me s
    let t := x.tabN.iss + 1
    let q : TabLoad := ⟨k, t, tb, as, BitVec.ofNat 64 ea, n, stCtx x, (myCore s).issueNo, timeOf s k + 1⟩
    let s := modCore s (coreOf k) fun y => { y with tabLoads := y.tabLoads ++ [q] }
    modMe s fun x => setS { x with tabN := { x.tabN with iss := t } } d (BitVec.ofNat 64 t)

/-- The entries of an image, read in order. -/
def readTable (s : State) (a : Actor) (as : Space) (ea : Nat) : Nat → Acc (List TabEntry × State)
  | 0 => .ok ([], s)
  | n + 1 =>
    accThen (loadElem s a as ea 4) fun (x, s) => accThen (loadElem s a as (ea + 4) 4) fun (p, s) =>
      accThen (loadElem s a as (ea + 8) 4) fun (q, s) => accThen (readTable s a as (ea + 12) n) fun (l, s) =>
        .ok (⟨BitVec.ofNat 32 x, BitVec.ofNat 32 p, BitVec.ofNat 32 q⟩ :: l, s)

/-- May a load change its table: every earlier load of it is over, and every earlier VTAB of it has been served? -/
def loadMay (s : State) (c : Nat) (q : TabLoad) : Bool :=
  ((getCore s c).tabLoads.all fun p => p.tb != q.tb || decide (q.order ≤ p.order))
  && (upFrom (4 * c) 4).all fun k => (getStrand s k).vtabQ.all fun v => v.tb != q.tb || decide (q.order < v.order)

/-- A load leaves its table with some entries and completes its ticket. -/
def finishLoad (s : State) (core : Nat) (q : TabLoad) (l : List TabEntry) : State :=
  let s := modCore s core fun y => { y with tables := mset [] y.tables q.tb.toNat l, tabLoads := y.tabLoads.filter (· != q) }
  modStrand s q.strand fun x =>
    { x with tabN := completeTicket x.tabN q.ticket (max (dieTime s (dieOf (clusterOfCore core))) q.floor) }

/-- A load replaces its table whole and completes its ticket; a read that fails leaves the table empty. -/
def execTableLoadComplete (core : CoreId) (uncorrected : Bool) (s : State) : Host.Outcome State Fault Refusal :=
  match (getCore s core).tabLoads.find? (loadMay s core) with
  | none => .next s
  | some q =>
      let a := engineActor core q.ctx (getCore s core).desc
      let r := readTable s a q.as (q.addr.toNat + 16) q.c
      let fin (l : List TabEntry) (s : State) : State := finishLoad s core q l
      match r with
      | .ok (l, t) => .next (if uncorrected then fin [] (noteError t 0xE q.addr.toNat a) else fin l t)
      | .fault c t => .next (fin [] (noteError s c t a))
      | .wait b => .next (wakeBank s b)

end Sys2Proof.Machine
end

