-- ==== Sys2Proof/Machine/TaskOps.lean ====
section
/-!
DEFINITION. The task instructions and the steps of the task unit (spec/09 R214-R217, spec/14 R275-R282).
-/
namespace Sys2Proof.Machine

/-- The entry of a TCB that a strand hands to its unit. -/
def spawnEntry (s : State) (k tcb key : Nat) : TaskEnt :=
  let x := getStrand s k
  { tcb := tcb, key := key, ctx := stCtx x, prio := tcbField s key 216 3, kind := tcbField s key 214 2, ready := none,
    launch := (getCore s (coreOf k)).launch.getD 0, spawner := some k, tenant := bits x.tenant.toNat 0 4,
    desc := (getCore s (coreOf k)).desc }

def execTspawn (c : Common) (sa : SReg) (s : State) : Host.Outcome State Fault Refusal :=
  let i : Instr := .tspawn c sa
  issue i c s fun s =>
    let k := s.cur
    let cl := clusterOf k
    let tcb := (getS (me s) sa).toNat
    if unitDefers s (srcTask cl) (stCtx (me s)) then .hold
    else if 4096 ≤ (getCluster s cl).tasks.length then .wait s ((me s).wait.getD (newWait s k i .spawn 0 0))
    else if !allLanded s k then .hold
    else
      let s := pushTcb s k tcb
      ofAcc (checkTcb s (self s) tcb) fun key =>
        let t := timeOf s k
        let s := releaseBy s k (memHandle 4 tcb)
        .done (holdTcb s cl (spawnEntry s k tcb key) (t + 1))

/-- TDONE: the retirement, then the wait for a task; it falls through when the unit holds none of the context. -/
def execTdone (c : Common) (s : State) : Host.Outcome State Fault Refusal :=
  let i : Instr := .tdone c
  issue i c s fun s =>
    let k := s.cur
    let cl := clusterOf k
    match (me s).wait with
    | some w => if holdsTasks s cl (stCtx (me s)) then .wait s w else .done s
    | none =>
        if unitDefers s (srcTask cl) (stCtx (me s)) || !allLanded s k || !mayAsk s (askTask cl (stCtx (me s))) k then .hold
        else
        match endTask (noteAsk s (askTask cl (stCtx (me s))) k) k true with
        | (some u, s) => .trapPart s 0xA u
        | (none, s) => if holdsTasks s cl (stCtx (me s)) then .wait s (newWait s k i .task 0 0) else .done s

/-- TDONE.R: the retirement alone. -/
def execTdoneR (c : Common) (s : State) : Host.Outcome State Fault Refusal :=
  issue (.tdoneR c) c s fun s =>
    if unitDefers s (srcTask (clusterOf s.cur)) (stCtx (me s)) || !allLanded s s.cur then .hold
    else
    match endTask s s.cur true with
    | (some u, s) => .trapAfter s 0xA u
    | (none, s) => .done s

/-- The unit of a cluster deals a task of a context. -/
def execTaskDeal (cl ctx : Nat) (s : State) : Host.Outcome State Fault Refusal :=
  .next (if unitDefers s (srcTask cl) ctx then s else dealTask s cl ctx)

/-- The notice of a decrement that made a TCB READY arrives at its holding unit (spec/14 R277). -/
def execTaskReadyNotice (cl tcb : Nat) (s : State) : Host.Outcome State Fault Refusal :=
  match (getCluster s cl).notices.find? fun n => n.key == tcb with
  | some n =>
      if (heldIn s cl tcb).any fun t => unitDefers s (srcTask cl) t.ctx then .next s
      else .next (readyTask (modCluster s cl fun c => { c with notices := c.notices.filter fun m => m.key != tcb }) cl tcb n.time)
  | none => .next s

def execTdep (c : Common) (sa : SReg) (imm : BitVec 17) (s : State) : Host.Outcome State Fault Refusal :=
  issue (.tdep c sa imm) c s fun s =>
    let k := s.cur
    let tcb := (getS (me s) sa).toNat
    if tcb % 64 ≠ 0 then .trap 9 tcb
    else if !allLanded s k then .hold
    else
      ofAcc (homeLoc s (self s) tcb 64 .atomic) fun key =>
        let t := timeOf s k
        let s := pushRuns (releaseBy s k (memHandle 4 tcb)) (coreOf k) [(key, 64)]
        let r := changePred s key imm.toInt (t + 1)
        if r.1 < 0 then .trapAfter r.2 0xA tcb else .done r.2

def execTcard (c : Common) (d : GReg) (s : State) : Host.Outcome State Fault Refusal :=
  issue (.tcard c d) c s fun s =>
    let cl := clusterOf s.cur
    let no (s : State) : Res := onMe s fun x => setG x d false
    if unitDefers s (srcTask cl) (stCtx (me s)) then .hold
    else
    match (me s).task with
    | some t =>
        if t.card && (heldIn s cl t.key).isSome then
          if !mayAsk s (askCard t.key) s.cur then .hold
          else
            let s := noteAsk s (askCard t.key) s.cur
            if tcbDealt s t.key = tcbNrec s t.key then no s
            else
              let r := cardChunk s t.key
              onMe (takeChunk s cl t.key r.2) fun x => setG (setS (setS x 3 (BitVec.ofNat 64 r.1)) 5 (BitVec.ofNat 64 r.2)) d true
        else no s
    | none => no s

end Sys2Proof.Machine
end

