-- ==== Sys2Proof/Machine/Launch.lean ====
section
/-!
DEFINITION. The launch controller: launch queues, launches from start to completion, pre-emption, and the registers of the control space as
written from outside (spec/20 R322-R329, R335-R340).
-/
namespace Sys2Proof.Machine

/-! ### Writes of the launch-queue registers (spec/20 R324) -/

def execLqtail (ctx : Nat) (v : Word) (s : State) : Host.Outcome State Fault Refusal := .next (writeLqtail s (ctx % 16) v)
def execDbell (ctx : Nat) (v : Word) (s : State) : Host.Outcome State Fault Refusal := .next (writeDbell s (ctx % 16) v)
def execCqhead (ctx : Nat) (v : Word) (s : State) : Host.Outcome State Fault Refusal := .next (writeCqhead s (ctx % 16) v)

/-! ### Launch records (spec/20 R325, R326) -/

/-- Location of a context's next slot. -/
def slotAddr (c : Ctx) : Nat := c.lqbase.toNat + 128 * (c.lqhead % 2 ^ c.lqcnt)

/-- Is a PART word valid (spec/01 R19)? -/
def partOk (p : Nat) : Bool :=
  bits p 0 7 == 1 && bits p 0 7 + bits p 8 7 + bits p 16 7 + bits p 24 7 == 64
    && !bitOf p 7 && !bitOf p 15 && !bitOf p 23 && !bitOf p 31 && bits p 34 30 == 0

def recClus (r : Nat) : Nat := bits r 256 16
def recCores (r : Nat) : Nat := bits r 128 64
/-- The clusters and the cores that a record names, in ascending order. -/
def recClusters (r : Nat) : List Nat := (upFrom 0 16).filter (bitOf (recClus r))
def recCoreList (r : Nat) : List Nat := (recClusters r).flatMap fun cl => ((upFrom 0 64).filter (bitOf (recCores r))).map fun n => 64 * cl + n
/-- The lowest cluster of a record. -/
def recFirst (r : Nat) : Nat := (recClusters r).headD 0

/-- Are the reserved bits of a record clear and its entry aligned? -/
def recFormOk (r : Nat) : Bool :=
  bits r 486 26 == 0 && bits r 441 7 == 0 && bits r 352 32 == 0 && bits r 306 14 == 0 && bits r 302 2 == 0 && bits r 272 16 == 0
    && bits r 121 7 == 0 && bits r 57 7 == 0 && bits r 0 2 == 0

/-- Is every byte of [va, va + n) readable? The fuel counts pages. -/
def readableRange (s : State) (a : Actor) : Nat → Nat → Nat → Bool
  | 0, _, n => n == 0
  | f + 1, va, n =>
    n == 0 ||
      (let m := min n (4096 - va % 4096)
       match globLoc s a va 1 .read with
       | .ok (.glob key _) => !rangePoisoned s key m && readableRange s a f (va + m) (n - m)
       | .ok (.ctl _) | .wait _ => readableRange s a f (va + m) (n - m)
       | _ => false)

/-- May the launch use the core: it is owned by the context and available (spec/22 R381)? -/
def coreUsable (s : State) (x c : Nat) : Bool :=
  (getCore s c).owner == some x && !(getCluster s (clusterOfCore c)).unav.getLsbD (c % 64)

/-- The controller as the party of a context's accesses. -/
def launchActor (r x : Nat) (desc : BitVec 512) : Actor := unitActor (recFirst r) x desc

/-- Does the pool have the place that a record names for its image? -/
def placeOk (r : Nat) : Bool := decide (1 + bits r 200 7 ≤ bits r 480 6) && decide (bits r 480 6 * 0x4000 + bits r 448 32 ≤ 0x100000)

/-- The reason for which a record is refused, 0 where it is valid. -/
def refuseReason (s : State) (x r : Nat) : Nat :=
  let d := (getCtx s x).desc
  let a := launchActor r x d
  let part := bits r 192 64
  let plen := bits r 448 32
  let root := bits r 64 57
  if !d.getLsbD 0 then 1
  else if !recFormOk r then 2
  else if !partOk part || bits r 304 2 != bits part 32 2 then 3
  else if recClus r == 0 || recCores r == 0 || (recCoreList r).any (fun c => !coreUsable s x c) then 4
  else if plen != 0 && (!placeOk r || !readableRange s a (plen / 4096 + 2) (bits r 384 57) plen) then 5
  else if root != 0 && !(match checkTcb s a root with
      | .ok _ => true
      | _ => false) then 6
  else 0

/-! ### Completion entries (spec/20 R328) -/

def cqFull (c : Ctx) : Bool := decide (2 ^ c.lqcnt ≤ (c.cqtail + 2 ^ 32 - c.cqhead) % 2 ^ 32)

/-- Does the launch controller defer the launches of a context (spec/21 R352)? -/
def launchDefers (s : State) (x : Nat) : Bool := unitDefers s (srcUnit 0) x

/-- A record of the launch controller for a context's tenant. -/
def emitLaunch (s : State) (x cls : Nat) (desc : BitVec 512) (payload : List Nat) : State :=
  emitOwn s ⟨cls, srcUnit 0, 0, 0, payload, none, x⟩ (bits desc.toNat 204 4) (trcOf desc)

/-- A completion entry, the context's message to the host, and LDONE. -/
def completion (s : State) (x lid stat reason orph : Nat) (desc : BitVec 512) : State :=
  let c := getCtx s x
  let orph := min orph 65535
  let e := lid + stat * 2 ^ 32 + reason * 2 ^ 40 + orph * 2 ^ 48 + dieTime s 0 % 2 ^ 63 * 2 ^ 64
  let s := homeWrite s (c.cqbase.toNat + 16 * (c.cqtail % 2 ^ c.lqcnt)) 16 e
  let s := modCtx s x fun c => { c with cqtail := (c.cqtail + 1) % 2 ^ 32 }
  emitLaunch { s with msix := s.msix ++ [x] } x 0x09 desc [lid + stat * 2 ^ 32 + reason * 2 ^ 40, orph]

def nextSlot (s : State) (x : Nat) : State := modCtx s x fun c => { c with lqhead := (c.lqhead + 1) % 2 ^ 32 }

/-! ### The start of a launch (spec/20 R327, spec/01 R17, R29, R31) -/

/-- Does a cached line hold a line of a context? -/
def lineOfCtx (x : Nat) (_ : Nat) (l : Line) : Bool := l.ctxs.getLsbD x

/-- Write back, then drop, every line of a context in a cluster's L2 slice and in some core data caches. -/
def dropCtxLines (s : State) (x : Nat) (cls cs : List Nat) : State :=
  let s := foldUnits (fun s c => dropCoreLines s c (lineOfCtx x)) cs s
  foldUnits (fun s cl => dropL2Lines s cl (lineOfCtx x)) cls s

/-- The cores of some clusters that the state lists. -/
def coresIn (s : State) (cls : List Nat) : List Nat := (listedCores s).filter fun c => cls.contains (clusterOfCore c)

/-- STATUS at the start of a strand. -/
def startStatus (x : Nat) (desc : BitVec 512) (nstr strand : Nat) : Word :=
  BitVec.ofNat 64 (bnat (x == 0) + 4 + strand * 2 ^ 8 + nstr * 2 ^ 10 + x * 2 ^ 12 + bits desc.toNat 192 2 * 2 ^ 16)

/-- The state that a launch gives a strand. -/
def startStrand (x : Nat) (desc : BitVec 512) (r : Nat) (mb : Map Word) (k : Nat) : Strand :=
  if strandNo k ≤ bits r 304 2 then
    { Strand.reset with
      run := .running, pc := BitVec.ofNat 64 (bits r 0 57), status := startStatus x desc (bits r 304 2) (strandNo k)
      tvec := BitVec.ofNat 64 (bits desc.toNat 64 57 / 4 * 4), geom := geomOf (coreNo k) (BitVec.ofNat 64 (bits r 288 14)), mb := mb
      spillp := BitVec.ofNat 64 (bits desc.toNat 128 64) &&& crMask 0x16 true, tenant := BitVec.ofNat 64 (bits desc.toNat 204 4) }
  else .reset

/-- A core before its strands start. -/
def startCore (s : State) (desc : BitVec 512) (r num c : Nat) : State :=
  let y := getCore s c
  let vm := bits desc.toNat 194 2
  let vm := if vm = 3 then 0 else vm
  let img := (getCluster s (clusterOfCore c)).pwinImg
  setCore s c { y with
    part := BitVec.ofNat 64 (bits r 192 64), vmode := BitVec.ofNat 2 vm, vstate := if vm = 2 then 2 else 0, vidle := s.cycle
    pool := clearRange y.pool 0x4000 (bits r 200 7 * 0x4000), latch0 := .empty, latch1 := .empty, latest := true
    pwin := (upFrom 0 4).foldl (fun m i => mset 0 m i (BitVec.ofNat 128 (readLE img (0x400 + 64 * (c % 64) + 16 * i) 16))) []
    matSlot := y.matSlot &&& 0x7777777777777777#64, startCycle := s.cycle, desc := desc, launch := some num }

/-- The bytes of a virtual range at their homes, or in the control space. -/
def homeBytes (s : State) (a : Actor) (va n : Nat) : List Byte :=
  (runsOf s a.core a.ctx a.desc va n).flatMap fun r =>
    if isControl r.1 then (upFrom 0 r.2).map fun i => BitVec.ofNat 8 (ctlRead s (r.1 + i) 1) else readBytes s.mem r.1 r.2

/-- Does a launch breakpoint of a cluster match (spec/21 R359)? -/
def lbpMatches (b : Word) (x entry : Nat) : Bool :=
  b.getLsbD 63 && (!b.getLsbD 62 || bits b.toNat 0 57 == entry) && (!b.getLsbD 61 || bits b.toNat 57 4 == x)

/-- The clusters whose launch breakpoints match halt before the first instruction of the launch. -/
def launchBreaks (s : State) (x r : Nat) : State :=
  foldUnits (fun s cl =>
    let d := (getCluster s cl).dm
    if lbpMatches d.lbp0 x (bits r 0 57) || lbpMatches d.lbp1 x (bits r 0 57) then
      haltCluster s cl 4 (4 * (((upFrom 0 64).filter (bitOf (recCores r))).headD 0))
    else s) (recClusters r) s

/-- The ROOT task is spawned as `TSPAWN` does, at the lowest cluster's unit. -/
def spawnRoot (s : State) (x r num : Nat) (desc : BitVec 512) : State :=
  let tcb := bits r 64 57
  if tcb = 0 then s
  else
    match checkTcb s (launchActor r x desc) tcb with
    | .ok key =>
        holdTcb s (recFirst r) ⟨tcb, key, x, tcbField s key 216 3, tcbField s key 214 2, none, num, none, bits desc.toNat 204 4, desc⟩ 0
    | _ => s

/-- A validated launch starts. -/
def startLaunch (s : State) (x r : Nat) (mb : Map Word) : State :=
  let desc := (getCtx s x).desc
  let num := s.launchNo
  let cs := recCoreList r
  let s := dropCtxLines s x (recClusters r) cs
  let image := homeBytes s (launchActor r x desc) (bits r 384 57) (bits r 448 32)
  let s := foldUnits (fun s c => foldUnits forgetBars (upFrom (4 * c) 4) (startCore s desc r num c)) cs s
  let s := if image.isEmpty then s
    else foldUnits (fun s c => modCore s c fun y => { y with pool := writeBytes y.pool (bits r 480 6 * 0x4000) image }) cs s
  let s := spawnRoot s x r num desc
  let s := foldUnits (fun s k => setStrand s k (startStrand x desc r mb k)) (cs.flatMap fun c => upFrom (4 * c) 4) s
  let s := { s with
    launches := s.launches ++ [⟨num, x, bits r 320 32, recClus r, recCores r, BitVec.ofNat 64 (bits r 192 64), desc, 0, false⟩]
    launchNo := num + 1 }
  let s := emitLaunch (nextSlot s x) x 0x08 desc [bits r 320 32 + x * 2 ^ 32 + recClus r * 2 ^ 36]
  launchBreaks s x r

/-- Does the controller serve a context's queue (spec/20 R324, R335, R336, spec/22 R366)? -/
def servesQueue (s : State) (x : Nat) : Bool :=
  let c := getCtx s x
  s.mgmt.state == 4 && !c.saved && !(c.stat == 1 && c.cmd == 1) && c.lqhead != c.lqtail && !launchDefers s x

/-- Do the launch's cores stand free, with room for its ROOT at the unit? -/
def canStart (s : State) (r : Nat) : Bool :=
  !((recCoreList r).any fun c => (getCore s c).launch.isSome)
    && (bits r 64 57 == 0 || decide ((getCluster s (recFirst r)).tasks.length < 4096))

/-- What the validation that refused a record met in its translations, or in the TCB it read (spec/20 R332). -/
def reportRefusal (s : State) (x r why : Nat) : State :=
  let a := launchActor r x (getCtx s x).desc
  match why with
  | 5 => if placeOk r then reportFirst s a [(.read, bits r 384 57, bits r 448 32)] else s
  | 6 =>
      match checkTcb s a (bits r 64 57) with
      | .fault c v => noteError s c v a
      | _ => s
  | _ => s

/-- The controller takes the next slot of a context: it refuses the record, starts the launch, or waits. -/
def takeSlot (s : State) (x : Nat) : State :=
  if servesQueue s x then
    let p := slotAddr (getCtx s x)
    let r := homeRead s p 64
    let mb : Map Word := (upFrom 0 8).foldl (fun m i => mset 0 m i (BitVec.ofNat 64 (homeRead s (p + 64 + 8 * i) 8))) []
    let why := refuseReason s x r
    if why ≠ 0 then
      if cqFull (getCtx s x) then s else nextSlot (completion (reportRefusal s x r why) x (bits r 320 32) 1 why 0 (getCtx s x).desc) x
    else if canStart s r then startLaunch s x r mb
    else s
  else s

def execLaunchStart (ctx : Nat) (s : State) : Host.Outcome State Fault Refusal := .next (takeSlot s (ctx % 16))

/-! ### The end of a launch (spec/20 R328) -/

def launchClusters (l : Launch) : List Nat := (upFrom 0 16).filter (bitOf l.clus)
def launchCores (l : Launch) : List Nat := (launchClusters l).flatMap fun cl => ((upFrom 0 64).filter (bitOf l.cores)).map fun n => 64 * cl + n
def launchStrands (l : Launch) : List Nat := (launchCores l).flatMap fun c => upFrom (4 * c) (bits l.part.toNat 32 2 + 1)

/-- Have the engine commands that some strands issued completed, and their merged atomics been performed? -/
def enginesDone (s : State) (cs : List Nat) (p : CopyCmd → Bool) : Bool :=
  ((listedClusters s).all fun cl =>
    let y := getCluster s cl
    (y.copies.all fun q => !p q) && y.drains.all fun d => !cs.contains (coreOf d.strand))
  && (cs.all fun c => (getCore s c).tabLoads.isEmpty)
  && s.reductions.all fun r => r.owners.all fun o => !cs.contains (coreOf o.strand)

/-- Has every strand of a launch stopped, and every engine command of it completed? -/
def launchOver (s : State) (l : Launch) : Bool :=
  (launchCores l).all (fun c => (getCore s c).launch == some l.num) && (launchStrands l).all (fun k => (getStrand s k).run == .stopped)
    && enginesDone s (launchCores l) fun q => q.launch == l.num

/-- Tasks of a launch still held. -/
def orphansOf (s : State) (l : Launch) : Nat :=
  ((listedClusters s).map fun cl => ((getCluster s cl).tasks.filter fun t => t.launch == l.num).length).foldl (· + ·) 0

/-- The task units let go of a launch's tasks, without retirement. -/
def dropOrphans (s : State) (l : Launch) : State :=
  foldUnits (fun s cl => modCluster s cl fun c =>
    let gone := (c.tasks.filter fun t => t.launch == l.num).map TaskEnt.key
    { c with tasks := c.tasks.filter fun t => t.launch != l.num, notices := c.notices.filter fun n => !gone.contains n.key })
    (listedClusters s) s

/-- Dirty lines of a context go home from a launch's core data caches and from the L2 slices of its clusters. -/
def writeBackLaunch (s : State) (l : Launch) : State :=
  let s := foldUnits (fun s c => landCore s c (lineOfCtx l.ctx)) (launchCores l) s
  foldUnits (fun s cl => wbL2Lines s cl (lineOfCtx l.ctx)) (launchClusters l) s

/-- A core is free of its launch; an owner byte that waited takes effect (spec/20 R322). -/
def freeCore (s : State) (c : Nat) : State := applyOwner (modCore s c fun y => { y with launch := none }) c

/-- The completion of a launch. -/
def endLaunch (s : State) (l : Launch) : State :=
  let orph := orphansOf s l
  let s := writeBackLaunch (dropOrphans s l) l
  let s := { s with launches := s.launches.filter fun m => m.num != l.num }
  let s := foldUnits freeCore (launchCores l) s
  let s := if trcOf (getCtx s l.ctx).desc = trcOf l.desc then s else dropHeld s (bits l.desc.toNat 204 4)
  completion s l.ctx l.lid (if l.abort then 2 else 0) 0 orph l.desc

def execLaunchComplete (idx : Nat) (s : State) : Host.Outcome State Fault Refusal :=
  match s.launches[idx]? with
  | some l =>
      if launchOver s l && !cqFull (getCtx s l.ctx) && !launchDefers s l.ctx then .next (endLaunch s l) else .next s
  | none => .next s

/-! ### SAVE (spec/20 R336-R338) -/

/-- A command of PCMD ends, with its PREEMPT record. -/
def endCommand (s : State) (x stat reason : Nat) : State :=
  let c := getCtx s x
  let s := modCtx s x fun c => { c with stat := stat, reason := reason }
  emitBoth s ⟨0x0A, srcUnit 0, 0, 0, [x + c.cmd * 2 ^ 8 + stat * 2 ^ 16 + reason * 2 ^ 24], none, x⟩ (bits c.desc.toNat 204 4) (trcOf c.desc)

/-- Is a command of a kind in progress for a context? -/
def commandBusy (s : State) (x cmd : Nat) : Bool := (getCtx s x).stat == 1 && (getCtx s x).cmd == cmd

/-- May a strand stop for the quiesce where it stands, its records reserved (spec/21 R353)? -/
def canQuiesce (s : State) (k : Nat) : Bool :=
  let x := getStrand s k
  x.run == .running && insideIrqPoint x && x.vtabQ.isEmpty && !(s.recs.any fun r => r.strand == some k)

/-- A strand stops for the quiesce. -/
def quiesce (s : State) (k : Nat) : State :=
  modStrand (leaveLong (abandonWait s k) k) k fun x => { x with run := .saved, frozen := none, rbuf := [], rbufOver := false }

/-- One circuit of the drain probe: is it white with sum 0? In a cascade domain the context has cores of other devices too (spec/20 R321), whose counts are not known here. -/
def probe (s : State) (x : Nat) (cs : List Nat) : Bool × State :=
  let away : Int := if cdomOf (getCtx s x).desc = 0 then 0 else Config.awaySum s.tick
  let sum : Int := (cs.map fun c => ((getCore s c).outc : Int) - (getCore s c).inc).foldl (· + ·) away
  let s := { s with tick := s.tick + 1 }
  (sum % 2 ^ 64 == 0 && cs.all (fun c => !(getCore s c).recvFlag), foldUnits (fun s c => modCore s c fun y => { y with recvFlag := false }) cs s)

/-- Has the context come to rest: strands stopped with no result on its way, engines done, no record of theirs unreserved (spec/21 R353), no notice on its way? -/
def atRest (s : State) (x : Nat) : Bool :=
  let ks := ctxStrands s x
  (ks.all fun k => (getStrand s k).run == .saved && (getStrand s k).inflight.isEmpty)
  && enginesDone s (ctxCores s x) (fun q => q.ctx == x)
  && !(s.recs.any fun r => match r.strand with
      | some k => ks.contains k
      | none => r.ctx == x && (r.src % 16 == 8 || r.src % 16 == 9))
  && (listedClusters s).all fun cl => (getCluster s cl).notices.all fun n => !((heldIn s cl n.key).any fun t => t.ctx == x)

/-- The units let go of what the image holds, and the cores of their launches. -/
def vacate (s : State) (x : Nat) : State :=
  let s := { s with launches := s.launches.map fun l => if l.ctx = x then { l with orph := orphansOf s l } else l }
  let s := foldUnits (fun s cl => modCluster s cl fun c =>
    { c with
      tasks := c.tasks.filter fun t => t.ctx != x
      streams := c.streams.filter fun e => !(stCtx (getStrand s e.2.owner) == x && (getStrand s e.2.owner).run == .saved) })
    (listedClusters s) s
  foldUnits freeCore (ctxCores s x) s

/-- The image of a context at rest is written. -/
def writeImage (s : State) (x : Nat) : State :=
  let base := (getCtx s x).pimg.toNat
  let s := dropCtxLines s x (ctxClusters s x) (coresIn s (ctxClusters s x))
  let bs := imageBytes s x
  if !rangeBacked base bs.length then endCommand s x 3 1
  else if noHome s base || noHome s (base + bs.length - 1) then endCommand s x 3 2
  else
    let s := unpoison { s with mem := writeBytes s.mem base bs } base bs.length
    endCommand (vacate (modCtx s x fun c => { c with saved := true, kept := keptOf s x }) x) x 2 0

/-- SAVE goes on as far as it can: strands stop, the context comes to rest, the probe runs, and the image is written. -/
def saveStep (s : State) (x : Nat) : State :=
  let s := foldUnits (fun s k => if canQuiesce s k then quiesce s k else s) (ctxStrands s x) s
  if atRest s x then
    let r := probe s x (ctxCores s x)
    if r.1 then writeImage r.2 x else r.2
  else s

def execSave (ctx : Nat) (s : State) : Host.Outcome State Fault Refusal :=
  .next (if commandBusy s (ctx % 16) 1 && !launchDefers s (ctx % 16) then saveStep s (ctx % 16) else s)

/-! ### RESTORE (spec/20 R339) -/

/-- The header and the sections at an image's address, or the reason they cannot be had. -/
def readImage (s : State) (x base : Nat) : Except Nat (Nat × List Section) :=
  let h := homeRead s base 64
  let len := bits h 64 64
  if !rangeBacked base 64 then .error 1
  else if noHome s base || rangePoisoned s base 64 then .error 2
  else if bits h 0 32 ≠ 0x47435649 ∨ bits h 32 16 ≠ 1 ∨ bits h 48 4 ≠ x ∨ bits h 56 6 ≠ s.devNo ∨ len < 64 ∨ len % 8 ≠ 0 then .error 3
  else if !rangeBacked base len then .error 1
  else if noHome s (base + len - 1) || rangePoisoned s base len then .error 2
  else
    let ws := bytesToWords ((len - 64) / 8) (readBytes s.mem (base + 64) (len - 64))
    match getSections (ws.length + 1) ws with
    | some l => .ok (bits h 128 63, l)
    | none => .error 3

def secCore (x : Section) : Nat := 64 * x.cl + x.core
def secStrand (x : Section) : Nat := 256 * x.cl + 4 * x.core + x.strand
def ofType (l : List Section) (ty : Nat) : List Section := l.filter fun x => x.ty == ty

/-- Read the whole body of a section. -/
def readBody {α : Type} (p : Reader α) (x : Section) : Option α := (p x.body).map Prod.fst

/-- Is every core that an image names owned by the context and free of launches? -/
def imageFits (s : State) (x : Nat) (l : List Section) : Bool :=
  l.all fun q => q.ty < 4 || ((getCore s (secCore q)).owner == some x && (getCore s (secCore q)).launch.isNone)

def restoreBinds (s : State) (x : Nat) (q : Section) : State :=
  let n := q.body.headD 0
  let r : Option (List Binding) := readBody (do
    let _ ← getWord
    getMany (do
      let h ← getW
      let b ← getW
      let m ← getW
      pure (⟨h, b, m⟩ : Binding)) (min n 1024)) q
  match r with
  | some bs => modCtx s x fun c => { c with binds := bs }
  | none => s

/-- A task that the unit takes back; a count that fell to 0 meanwhile makes it READY (spec/14 R276). -/
def retakeTask (s : State) (cl : Nat) (t : TaskEnt) : State :=
  let s := modCluster s cl fun c => { c with tasks := c.tasks ++ [t] }
  if (tcbState s t.key = 1 ∧ tcbPred s t.key = 0) ∨ (tcbState s t.key = 2 ∧ t.ready = none) then readyTask s cl t.key 0 else s

def restoreCluster (s : State) (x : Nat) (q : Section) : State :=
  let cl := q.cl
  let r := readBody (do
    let ts ← getList getTask
    let ss ← getList getStream
    let es ← getList getEvLine
    let bs ← getList getBarCounter
    let ms ← getList getMutexEnt
    pure (ts, ss, es, bs, ms)) q
  match r with
  | none => s
  | some (ts, ss, es, bs, ms) =>
      let s := ts.foldl (fun s t => retakeTask s cl t) s
      let s := ss.foldl (fun s e => modCluster s cl fun c => { c with streams := mput c.streams e.1 e.2 }) s
      let s := es.foldl (fun s e => if grantedTo s x cl (0x40 + e.1) then setEv s cl e.1 e.2 else s) s
      let s := bs.foldl (fun s e => if grantedTo s x cl (0x80 + e.1) then setBarc s cl e.1 e.2 else s) s
      ms.foldl (fun s e => if grantedTo s x cl (0x90 + e.1) then setMutex s cl e.1 e.2 else s) s

/-- Does a launch name a core? -/
def launchNames (l : Launch) (c : Nat) : Bool := bitOf l.clus (clusterOfCore c) && bitOf l.cores (c % 64)

/-- The launch of a context under whose id a restored core goes on: the one that names the core, else one that this restore has made. -/
def launchOfCore (s : State) (x c lid : Nat) : Option Launch :=
  (s.launches.find? fun l => l.ctx == x && l.lid == lid && launchNames l c).or (s.launches.find? fun l => l.ctx == x && l.lid == lid)

/-- The launch of a restored core goes on under its id; a controller that does not know it learns it from the image. -/
def resumeLaunch (s : State) (x c : Nat) (q : CoreImage) : State :=
  match launchOfCore s x c q.lid with
  | some m =>
      { s with launches := s.launches.map fun l =>
          if l.num = m.num then { l with clus := l.clus ||| 2 ^ clusterOfCore c, cores := l.cores ||| 2 ^ (c % 64) } else l }
  | none =>
      { s with
        launches := s.launches ++ [⟨s.launchNo, x, q.lid, 2 ^ clusterOfCore c, 2 ^ (c % 64), q.part, (getCtx s x).desc, 0, false⟩]
        launchNo := s.launchNo + 1 }

/-- A core takes what its section gives; its slots are counted from the restore on, which is the model's choice (spec/08 R170; log 93). -/
def restoreCore (s : State) (x : Nat) (q : Section) : State :=
  let c := secCore q
  match readBody getCoreBody q with
  | none => s
  | some y =>
      let s := resumeLaunch s x c y
      let l := launchOfCore s x c y.lid
      let s := modCore s c fun z => { z with
        part := y.part, vmode := y.vmode, vstate := if y.vmode = 2 then 2 else 0, vidle := s.cycle, matSlot := y.matSlot, pwin := y.pwin
        startCycle := s.cycle, desc := (l.map Launch.desc).getD z.desc, launch := l.map Launch.num }
      foldUnits (fun s k => setStrand s k { Strand.reset with run := if strandNo k < liveCount (getCore s c) ∧ l.isSome then .stopped else .absent })
        (upFrom (4 * c) 4) s

/-- What the launch controller has kept of a strand. -/
def takeKept (l : List Kept) (k : Nat) (y : Strand) : Strand :=
  match l.find? fun q => q.strand == k with
  | some q => { y with irq := q.irq, entered := q.entered, task := q.task, mmagN := q.mmagN, mmagOpen := q.mmagOpen }
  | none => y

/-- A strand starts at its saved pc, with its floor at the save time (spec/21 R355) and the derived fields of GEOM as its core gives them (spec/01 R32); lines made pending on it while it was away stay
pending. -/
def restoreStrand (s : State) (old : State) (x time : Nat) (q : Section) : State :=
  let k := secStrand q
  match readBody (getStrandBody time) q with
  | none => s
  | some y =>
      let y := takeKept (getCtx old x).kept k y
      let o := getStrand old k
      let more : BitVec 3 := if o.run == .saved && stCtx o == x then o.irq else 0
      setStrand s k { y with irq := y.irq ||| more, geom := geomOf (coreNo k) y.geom }

def restoreKills (s : State) (x time : Nat) (q : Section) : State :=
  let n := q.body.length / 3
  (upFrom 0 n).foldl (fun s i =>
    let k := q.body.getD (3 * i) 0 % 4096
    let va := q.body.getD (3 * i + 1) 0
    restoreKill s k ⟨BitVec.ofNat 64 va, q.body.getD (3 * i + 2) 0, kpcOf s x k (va % 2 ^ 57), time⟩) s

def restoreTables (s : State) (q : Section) : State :=
  match readBody (getMany getTable 4) q with
  | some ts => modCore s (secCore q) fun y => { y with tables := (upFrom 0 4).foldl (fun m i => mset [] m i (ts.getD i [])) [] }
  | none => s

/-- The two LATCH sections of a core, in order. -/
def restoreLatches (s : State) (l : List Section) (c : Nat) : State :=
  match (ofType l 7).filter fun q => secCore q == c with
  | a :: b :: _ =>
      match readBody (getLatch c) a, readBody (getLatch c) b with
      | some u, some v => takeLatches s c u v
      | _, _ => s
  | _ => s

/-- Every section goes back to the unit of the same coordinates, and the strands start. A kill that the controller holds keeps the handler that its join fixed at `JOPEN`
(spec/15 R305). -/
def restoreImage (s : State) (x time : Nat) (l : List Section) : State :=
  let old := s
  let cs := (ofType l 4).map secCore
  let cls := (ofType l 3).map Section.cl
  let s := dropCtxLines s x cls (coresIn s cls)
  let s := (ofType l 1).foldl (fun s q => restoreBinds s x q) s
  let s := (ofType l 4).foldl (fun s q => restoreCore s x q) s
  let s := (ofType l 5).foldl (fun s q => restoreStrand s old x time q) s
  let s := (ofType l 6).foldl (fun s q => takePool s (secCore q) q.body) s
  let s := cs.foldl (fun s c => restoreLatches s l c) s
  let s := (ofType l 8).foldl restoreTables s
  let s := (ofType l 3).foldl (fun s q => restoreCluster s x q) s
  let s := (getCtx s x).heldKills.foldl (fun s p => restoreKill s p.1 p.2) s
  let s := (ofType l 2).foldl (fun s q => restoreKills s x time q) s
  modCtx s x fun c => { c with saved := false, heldKills := [], kept := [] }

/-- RESTORE: the checks, then the image, then the end of the command. -/
def restoreStep (s : State) (x : Nat) : State :=
  match readImage s x (getCtx s x).pimg.toNat with
  | .error e => endCommand s x 3 e
  | .ok (time, l) => if imageFits s x l then endCommand (restoreImage s x time l) x 2 0 else endCommand s x 3 3

def execRestore (ctx : Nat) (s : State) : Host.Outcome State Fault Refusal :=
  .next (if commandBusy s (ctx % 16) 2 && !launchDefers s (ctx % 16) then restoreStep s (ctx % 16) else s)

/-! ### DISCARD (spec/20 R335, R340) -/

/-- A strand that DISCARD stops leaves the barrier counters of its cluster (spec/09 R204). -/
def leaveBarriers (s : State) (k : Nat) : State := foldUnits (fun s i => withdrawBarc s (clusterOf k) i k) (upFrom 0 16) s

/-- The first interrupted launch of a saved context gets its entry; with none left the command ends. -/
def discardStep (s : State) (x : Nat) : State :=
  if !(getCtx s x).saved then endCommand s x 2 0
  else
    match s.launches.find? fun l => l.ctx == x with
    | some l =>
        if cqFull (getCtx s x) then s
        else completion { s with launches := s.launches.filter fun m => m.num != l.num } x l.lid 2 0 l.orph l.desc
    | none =>
        let s := foldUnits (fun s k => if (getStrand s k).run == .saved && stCtx (getStrand s k) == x then setStrand (leaveBarriers s k) k .reset else s)
          (listedStrands s) s
        endCommand (modCtx s x fun c => { c with saved := false, heldKills := [], kept := [] }) x 2 0

def execDiscard (ctx : Nat) (s : State) : Host.Outcome State Fault Refusal :=
  .next (if commandBusy s (ctx % 16) 3 && !launchDefers s (ctx % 16) then discardStep s (ctx % 16) else s)

/-! ### Registers written from outside (spec/20 R322, R324, spec/00 R9) -/

def execOwnerByteWrite (cl off : Nat) (v : Byte) (s : State) : Host.Outcome State Fault Refusal :=
  .next (if off < 0xA0 ∧ cl < 16 then writeOwner s cl off v else s)

end Sys2Proof.Machine
end

