-- ==== Sys2Proof/Machine/Boot.lean ====
section
/-!
DEFINITION. The management controller: signed images, the boot, the recovery mailbox, measurements and their attestation (spec/10 R248, spec/22
R365, R366, R382-R386).
-/
namespace Sys2Proof.Machine

/-! ### Signed images (spec/10 R248, spec/22 R383, R385) -/

/-- A section entry of a firmware payload: type, offset and length. -/
structure FwSection where
  ty : Nat
  off : Nat
  len : Nat
  deriving DecidableEq, Repr

/-- Little-endian field of a list of bytes. -/
def fieldOf (l : List Byte) (off n : Nat) : Nat := leOf ((l.drop off).take n)

/-- The wrapper's payload. -/
def payloadOf (m : List Byte) : List Byte := (m.drop 128).take (fieldOf m 8 8)

/-- The public key carried in the payload of an image of a KIND: after the header of a firmware payload (R385); where a device kernel image has it the spec does not say
(log 81). -/
def keyBytes (kind : Nat) (p : List Byte) : List Byte := if kind = 1 then Config.kernelKey p else (p.drop 64).take 64

/-- Hash of a public key as the uncompressed point: its two coordinates after the byte 0x04 (log 95). -/
def keyHash (k : List Byte) : BitVec 256 := sha256 (4#8 :: k)

/-- The key slot that KEYID names: the first 8 output bytes of its hash, in order. -/
def keySlot (slots : List (BitVec 256)) (m : List Byte) : Option (BitVec 256) :=
  slots.find? fun h => beBytes 8 (h.toNat / 2 ^ 192) == (m.drop 24).take 8

/-- The section entries of a payload. -/
def fwSections (p : List Byte) : List FwSection :=
  (upFrom 0 (fieldOf p 4 1)).map fun i => ⟨fieldOf p (128 + 16 * i) 2, fieldOf p (132 + 16 * i) 4, fieldOf p (136 + 16 * i) 8⟩

def fwBody (p : List Byte) (x : FwSection) : List Byte := (p.drop x.off).take x.len

/-- The bytes of a payload's first section of a type, none where it has none. -/
def fwSection (p : List Byte) (ty : Nat) : List Byte :=
  match (fwSections p).find? fun x => x.ty == ty with
  | some x => fwBody p x
  | none => []

/-- Is the payload well formed (R385)? -/
def payloadOk (p : List Byte) : Bool :=
  let ss := fwSections p
  decide (128 ≤ p.length) && fieldOf p 0 4 == 0x57464756
    && decide (128 + 16 * ss.length ≤ p.length) && ss.all (fun x => decide (1 ≤ x.ty) && decide (x.ty ≤ 5) && decide (x.off + x.len ≤ p.length))
    && ss.any (fun x => x.ty == 1) && ss.any fun x => x.ty == 3

/-- Does the signature of an image verify under a key, its coordinates big-endian, and its digest match? What follows the payload is not looked at (log 95). -/
def signatureOk (k m : List Byte) : Bool :=
  let p := payloadOf m
  p.length == fieldOf m 8 8 && decide (128 ≤ m.length)
    && beBytes 32 (sha256 p).toNat == (m.drop 32).take 32
    && ecdsaVerify (beOf (k.take 32), beOf (k.drop 32)) (sha256 (m.take 64)).toNat (fieldOf m 64 32) (fieldOf m 96 32)

/-- Why an image of a KIND is rejected under trusted key hashes and a floor, by the codes of RMSTAT; 0 where it is accepted. -/
def imageReason (kind : Nat) (slots : List (BitVec 256)) (floor : Nat) (m : List Byte) : Nat :=
  match keySlot slots m with
  | none => 1
  | some h =>
      if keyHash (keyBytes kind (payloadOf m)) ≠ h then 2
      else if !signatureOk (keyBytes kind (payloadOf m)) m then 3
      else if fieldOf m 16 8 < floor then 4
      else if fieldOf m 4 2 ≠ 1 ∨ fieldOf m 6 2 ≠ kind ∨ fieldOf m 0 4 ≠ 0x49534756 then 5
      else 0

/-- Why an image is rejected as firmware, by the codes of RMSTAT; 0 where it is accepted (R383, R384). -/
def rejectReason (slots : List (BitVec 256)) (floor : Nat) (m : List Byte) : Nat :=
  let r := imageReason 0 slots floor m
  if r ≠ 0 then r else if !payloadOk (payloadOf m) then 6 else 0

/-! ### The boot (spec/22 R366, R382, R383, R386) -/

/-- MEAS <- SHA-256(MEAS || digest). -/
def extendMeas (m d : BitVec 256) : BitVec 256 := sha256 (beBytes 32 m.toNat ++ beBytes 32 d.toNat)

/-- The four measurements of a boot from an image. -/
def measure (m : List Byte) : List (BitVec 256) :=
  let p := payloadOf m
  [extendMeas 0 Config.romDigest, extendMeas 0 (BitVec.ofNat 256 (beOf ((m.drop 32).take 32))), extendMeas 0 (sha256 (fwSection p 3)),
    extendMeas 0 (sha256 (fwSection p 2))]

/-- Bytes as words of 8 bytes. -/
def wordList (l : List Byte) : List Word := (bytesToWords (l.length / 8) l).map (BitVec.ofNat 64)

/-- The floor after a boot: it is raised only by an accepted image and never falls. -/
def raisedFloor (floor : Nat) (m : List Byte) : Nat := max floor (Config.floorCommand m)

/-- Unit code and address of an added repair, for its RASCE record. -/
def reportRepair (s : State) (w : Word) : State := reportCorrected s 11 (srcUnit 4) 3 (w.toNat % 2 ^ 63)

/-- Fields of a repair entry (R382); its other bits are zero. -/
def repairMask : Word := 0xFFFC_FFFF_0000_00FF#64
/-- What an entry says of the structure that it repairs: UNIT, cluster or basin, and core. -/
def repairPlace (w : Word) : Nat := bits w.toNat 50 14

/-- Spares of a structure: 2 rows and 2 columns of a core's array, and what the part has of the others. -/
def spareCount (unit : Nat) : Nat := if unit = 1 ∨ unit = 2 then 2 else Config.spares unit

/-- The lowest spare of a structure that no entry of a table uses, if one is left. -/
def freeSpare (table : List Word) (w : Word) : Option Nat :=
  (upFrom 0 (min (spareCount (bits w.toNat 60 4)) 256)).find? fun n => !table.any fun e => repairPlace e == repairPlace w && bits e.toNat 0 8 == n

/-- A core that self-test cannot repair is unavailable. -/
def markUnav (s : State) (c : Nat) : State := modCluster s (clusterOfCore c) fun y => { y with unav := y.unav ||| (1#64 <<< (c % 64)) }

/-- Is a structure that cannot be repaired a core's own: an array, a pool or a register file? An L2 slice or an HBM4E interface is its basin's. -/
def ofCore (unit : Nat) : Bool := unit == 1 || unit == 2 || unit == 3 || unit == 5

/-- A fault that self-test finds: an entry is added, counted and reported while a spare remains; else the core is unavailable, or the basin cannot be repaired (true). -/
def repairFault (r : State × Bool) (w : Word) : State × Bool :=
  let w := w &&& repairMask
  let m := r.1.mgmt
  match freeSpare m.repairs w with
  | some n =>
      let e := BitVec.ofNat 64 (setBits w.toNat 0 8 n)
      (reportRepair { r.1 with mgmt := { m with repairs := m.repairs ++ [e], nrep := m.nrep + 1 } } e, r.2)
  | none => if ofCore (bits w.toNat 60 4) then (markUnav r.1 (64 * bits w.toNat 56 4 + bits w.toNat 50 6), r.2) else (r.1, true)

/-- BIST with the repair table of the firmware applied: the state, and whether a basin cannot be repaired. -/
def selfTest (s : State) (x : PowerUpInput) (table : List Word) : State × Bool :=
  let r := x.faults.foldl repairFault ({ s with mgmt := { s.mgmt with repairs := table, nrep := 0 } }, false)
  (x.badCores.foldl markUnav r.1, r.2)

/-- A link that has trained, or trains, with its width and rate; flits that are not acknowledged are kept (R373). -/
def linkTo (s : State) (u state width rate reason : Nat) : State :=
  changeLink s u { getLink s u with state := state, width := width, rate := rate, reason := reason, retry := 0, tries := [] }

/-- A link begins to train. -/
def beginTraining (s : State) (u : Nat) : State :=
  let l := getLink s u
  if l.state = 0 ∧ l.dis = false then linkTo s u 1 0 0 l.reason else s

/-- Lanes, or channels, of a link at full width. -/
def fullWidth (u : Nat) : Nat := if u < 16 then 32 else if u < 40 then 8 else 16
/-- A cascade port. -/
def isCascade (u : Nat) : Bool := decide (16 ≤ u) && decide (u < 28)
/-- Least width at which a link carries traffic. -/
def leastWidth (u : Nat) : Nat := if isCascade u then 4 else 1

/-- How a training ends: the new STATE and the REASON. -/
def trainResult (u : Nat) (x : TrainInput) : Nat × Nat :=
  if !x.partner then (0, 1)
  else if isCascade u && x.mismatch then (4, 5)
  else if x.timeout then (4, 2)
  else if x.width.toNat < leastWidth u then (4, 4)
  else if x.full && decide (fullWidth u ≤ x.width.toNat) then (2, 0)
  else (3, 0)

/-- The training of a link ends. -/
def endTraining (s : State) (u : Nat) (x : TrainInput) : State :=
  let r := trainResult u x
  if (getLink s u).state ≠ 1 then s
  else if r.1 = 2 ∨ r.1 = 3 then linkTo s u r.1 x.width.toNat x.rate.toNat (getLink s u).reason else linkTo s u r.1 0 0 r.2

/-- The links of one kind train in parallel: all begin, and those end whose training the input tells of. -/
def trainKind (x : PowerUpInput) (s : State) (us : List Nat) : State :=
  let s := foldUnits beginTraining us s
  foldUnits (fun s u => match x.ports.find? fun p => p.1 == u with
    | some p => endTraining s u p.2
    | none => s) us s

/-- Training of the near-tier interfaces. -/
def trainStacks (s : State) (up : BitVec 8) : State :=
  let s := foldUnits beginTraining (upFrom 8 8) s
  foldUnits (fun s b => if (getLink s (8 + b)).state ≠ 1 then s else if up.getLsbD b then linkTo s (8 + b) 2 32 75 (getLink s (8 + b)).reason else linkTo s (8 + b) 4 0 0 2) (upFrom 0 8) s

/-- TRAIN: the near-tier interfaces, the far-tier ports, the cascade ports and the Ethernet ports, in that order; then the clock's acquisition starts (R366). -/
def trainAll (s : State) (x : PowerUpInput) : State :=
  let s := [[41, 42], upFrom 16 12, upFrom 32 4].foldl (trainKind x) (trainStacks s x.stacksUp)
  { s with ptp := { s.ptp with on := true } }

/-- STATE is READY when every near-tier stack and the host link are UP. -/
def settleReady (s : State) : State :=
  if s.mgmt.state = 3 ∧ (upFrom 0 8).all (fun b => (getLink s (8 + b)).state == 2) ∧ (getLink s 40).state = 2 then
    { s with mgmt := { s.mgmt with state := 4 } }
  else s

def setDevst (s : State) (state fail : Nat) : State := { s with mgmt := { s.mgmt with state := state, fail := fail } }

/-- Context 0's descriptor is written at boot. -/
def writeCtx0 (s : State) (d : BitVec 512) : State := (upFrom 0 8).foldl (fun s i => writeDesc s 0 i (BitVec.ofNat 64 (bits d.toNat (64 * i) 64))) s

/-- BOOT, BIST and TRAIN of the firmware in flash. -/
def bringUp (s : State) (x : PowerUpInput) : State :=
  let m := s.mgmt.flash
  let s := if x.hostUp then endTraining (beginTraining s 40) 40 ⟨true, false, false, 16, 128, true⟩ else s
  if rejectReason s.mgmt.slots s.mgmt.floor m ≠ 0 then setDevst s 5 1
  else
    let p := payloadOf m
    let s := { s with mgmt := { s.mgmt with
      meas := measure m, floor := raisedFloor s.mgmt.floor m, routes := wordList (fwSection p 4), fail := 0 } }
    let t := selfTest (setDevst s 2 0) x (wordList (fwSection p 3))
    if x.badUnit || t.2 then setDevst t.1 6 2
    else
      let s := trainAll (writeCtx0 (setDevst t.1 3 0) x.ctx0) x
      if (upFrom 0 8).any fun b => (getLink s (8 + b)).state == 4 then setDevst s 6 3 else settleReady s

/-- The machine when power is cycled: what secure flash holds stays (R383, R384), all else is as at power-on. -/
def powerCycle (s : State) : State :=
  { State.reset with
    agenda := s.agenda, tick := s.tick, devNo := s.devNo, mgmt := { Mgmt.reset with slots := s.mgmt.slots, flash := s.mgmt.flash, floor := s.mgmt.floor } }

/-- A power-up; after an accepted recovery image the controller restarts from BOOT as it stands. -/
def execPowerUp (x : PowerUpInput) (s : State) : Host.Outcome State Fault Refusal :=
  .next (bringUp (if s.mgmt.state = 1 then s else powerCycle s) x)

/-- A device kernel image is accepted under the keys that the firmware names; a rejected one sends the controller to RECOVERY (R383). -/
def loadKernel (s : State) (m : List Byte) : State :=
  if imageReason 1 (Config.kernelKeys s.mgmt.flash) s.mgmt.floor m = 0 then { s with mgmt := { s.mgmt with kernel := payloadOf m } } else setDevst s 5 1

/-! ### The recovery mailbox (spec/22 R384) -/

/-- RMSTAT after a command, with the bytes staged. -/
def setRm (s : State) (stat reason : Nat) (staged : List Byte) : State :=
  { s with mgmt := { s.mgmt with rmstat := stat, rmreason := reason, rmcount := staged.length, staging := staged } }

/-- BEGIN. -/
def rmBegin (s : State) : State :=
  if s.mgmt.state ≠ 5 then s
  else if 128 ≤ s.mgmt.rmlen ∧ s.mgmt.rmlen ≤ 0x4000000 then setRm s 1 0 [] else setRm s 5 0 []

/-- CHUNK of the first bytes of the window; a length that CLEN does not admit is ignored. -/
def rmChunk (s : State) (clen : Nat) : State :=
  if s.mgmt.state ≠ 5 ∨ clen = 0 ∨ 0x10000 < clen then s
  else if s.mgmt.rmstat = 1 ∧ s.mgmt.rmcount + clen ≤ s.mgmt.rmlen then
    setRm s 1 0 (s.mgmt.staging ++ readBytes s.mgmt.rmwin 0 clen)
  else setRm s 5 0 []

/-- COMMIT: an accepted image replaces the boot image and the controller restarts from BOOT. -/
def rmCommit (s : State) : State :=
  if s.mgmt.state ≠ 5 then s
  else if s.mgmt.rmstat = 1 ∧ s.mgmt.rmcount = s.mgmt.rmlen then
    let r := rejectReason s.mgmt.slots s.mgmt.floor s.mgmt.staging
    if r = 0 then
      let s := setRm { s with mgmt := { s.mgmt with flash := s.mgmt.staging, state := 1, fail := 0 } } 3 0 s.mgmt.staging
      { s with msix := s.msix ++ [16] }
    else setRm s 4 r s.mgmt.staging
  else setRm s 5 0 []

/-- ABORT. -/
def rmAbort (s : State) : State := if s.mgmt.state ≠ 5 then s else setRm s 0 0 []

def execRmBegin (s : State) : Host.Outcome State Fault Refusal := .next (rmBegin s)
def execRmChunk (clen : Nat) (s : State) : Host.Outcome State Fault Refusal := .next (rmChunk s clen)
def execRmCommit (s : State) : Host.Outcome State Fault Refusal := .next (rmCommit s)
def execRmAbort (s : State) : Host.Outcome State Fault Refusal := .next (rmAbort s)

/-- A write of RMCTL. -/
def writeRmctl (s : State) (v : Word) : State :=
  match bits v.toNat 0 4 with
  | 1 => rmBegin s
  | 2 => rmChunk s (bits v.toNat 32 17)
  | 3 => rmCommit s
  | 4 => rmAbort s
  | _ => s

/-- A store of a whole register of the control space from outside, over CXL.io or by context 0. -/
def execRegisterWrite (pa : Nat) (v : Word) (s : State) : Host.Outcome State Fault Refusal :=
  let a := pa / 8 * 8
  .next (if !isControl a then s else if ctlWaits s a then wakeBank s ((dmdataAt a).bind (dmBank s)) else if a = 0xF01000001400 then writeRmctl s v else ctlWrite s a 8 v.toNat)

/-! ### Attestation (spec/22 R386) -/

/-- An SPDM 1.2 message: version, code and the two parameters. -/
def spdmMsg (code p1 p2 : Nat) (body : List Byte) : List Byte := BitVec.ofNat 8 0x12 :: BitVec.ofNat 8 code :: BitVec.ofNat 8 p1 :: BitVec.ofNat 8 p2 :: body

/-- A measurement block: index, DMTF specification, size, then type, size and value. -/
def measBlock (i : Nat) (d : BitVec 256) : List Byte :=
  bytesOf 1 i ++ bytesOf 1 1 ++ bytesOf 2 35 ++ bytesOf 1 0 ++ bytesOf 2 32 ++ beBytes 32 d.toNat

/-- The measurement blocks of the four registers. -/
def measRecord (m : List (BitVec 256)) : List Byte := (upFrom 0 4).flatMap fun i => measBlock (i + 1) (m.getD i 0)

/-- The answer to a request (log 15). -/
def spdmAnswer (m : Mgmt) (x : SpdmRequest) : List Byte :=
  match x with
  | .getVersion => BitVec.ofNat 8 0x10 :: BitVec.ofNat 8 0x04 :: bytesOf 2 0 ++ bytesOf 1 0 ++ bytesOf 1 1 ++ bytesOf 2 0x1200
  | .getCapabilities => spdmMsg 0x61 0 0 (bytesOf 4 0 ++ bytesOf 4 0x16)
  | .negotiateAlgorithms => spdmMsg 0x63 0 0 (bytesOf 4 0x10 ++ bytesOf 4 0x1)
  | .getDigests => spdmMsg 0x01 0 1 (beBytes 32 (sha256 Config.identityCert).toNat)
  | .getCertificate => spdmMsg 0x02 0 0 (bytesOf 2 Config.identityCert.length ++ bytesOf 2 0 ++ Config.identityCert)
  | .getMeasurements nonce =>
      let b := measRecord m.meas
      spdmMsg 0x60 0 0 (bytesOf 1 4 ++ bytesOf 3 b.length ++ b ++ nonce ++ Config.identitySign (nonce ++ b))
  | .other code => spdmMsg 0x7F 0x07 code.toNat []

/-- The controller answers in the DOE mailbox. -/
def execSpdmRequest (x : SpdmRequest) (s : State) : Host.Outcome State Fault Refusal :=
  .next { s with mgmt := { s.mgmt with doe := spdmAnswer s.mgmt x } }

end Sys2Proof.Machine
end

