-- ==== Sys2Proof/Machine/Debug.lean ====
section
/-!
DEFINITION. The rows of the trace fabric and of the debug modules (spec/21 R347-R364).
-/
namespace Sys2Proof.Machine

/-! ### Rings (spec/21 R347-R353) -/

def execTrcfg (t : Nat) (v : Word) (s : State) : Host.Outcome State Fault Refusal := .next (writeTrcfg s (t % 16) v)
def execTrrd (t : Nat) (v : Word) (s : State) : Host.Outcome State Fault Refusal := .next (writeTrrd s (t % 16) v)

/-- A record that has been produced is reserved at its ring, after the earlier ones of its producer. -/
def execTraceReservation (idx : Nat) (s : State) : Host.Outcome State Fault Refusal :=
  match s.recs[idx]? with
  | some r => .next (if r.held then s else attemptRec s idx r)
  | none => .next s

/-- The fabric tries a held record again. -/
def execLosslessRetry (idx : Nat) (s : State) : Host.Outcome State Fault Refusal :=
  match s.recs[idx]? with
  | some r => if r.held && !recBlocked s idx r then .next ((retryRec s r).getD s) else .next s
  | none => .next s

/-! ### Waits (spec/21 R362, R363) -/

/-- Cycles that a strand has spent in its wait. -/
def waitCount (s : State) (k : Nat) (w : Wait) : Nat := clockOf s k - w.since - w.paused

/-- A blocking wait whose count has reached 2^26 produces its record, once. -/
def noteLong (s : State) (k : Nat) : State :=
  match (getStrand s k).wait with
  | some w =>
      if !w.noted && blockedOp w != 0 && decide (2 ^ 26 ≤ waitCount s k w) then
        emitStrand (modStrand s k fun x => { x with wait := some { w with noted := true } }) k 0x38 [(getStrand s k).pc.toNat, blockedOp w]
      else s
  | none => s

def execLongwait (k : StrandId) (s : State) : Host.Outcome State Fault Refusal := .next (noteLong s k)

/-! ### The debug modules (spec/21 R357-R364) -/

def execHaltreq (cl : Nat) (s : State) : Host.Outcome State Fault Refusal := .next (haltCluster s (cl % 16) 1 0)
def execRunreq (cl : Nat) (s : State) : Host.Outcome State Fault Refusal := .next (runCluster s (cl % 16))
def execDmStep (cl : Nat) (s : State) : Host.Outcome State Fault Refusal := .next (stepCluster s (cl % 16))

/-- The cross-trigger that a cluster has fired halts every cluster with XTIN set. -/
def execCrossTrigger (s : State) : Host.Outcome State Fault Refusal :=
  if s.xtrig.isEmpty then .next s
  else
    .next (foldUnits (fun s cl => if (getCluster s cl).dm.ctl.getLsbD 3 then haltCluster s cl 2 0 else s) allClusters { s with xtrig := [] })

def execDmpc (cl : Nat) (v : Word) (s : State) : Host.Outcome State Fault Refusal := .next (writeDmpc s (cl % 16) v)

/-- The load goes to who reads the register; in the machine it is a use of the pool. -/
def execDmdataLoad (cl : Nat) (s : State) : Host.Outcome State Fault Refusal :=
  .next (if dmWaits s (cl % 16) then wakeBank s (dmBank s (cl % 16)) else touchDmdata s (cl % 16))

def execDmdataStore (cl : Nat) (v : Word) (s : State) : Host.Outcome State Fault Refusal :=
  .next (if dmWaits s (cl % 16) then wakeBank s (dmBank s (cl % 16)) else writeDmdata s (cl % 16) v)

def execDmicl (cl : Nat) (v : Word) (s : State) : Host.Outcome State Fault Refusal := .next (writeDmicl s (cl % 16) v)

/-- Every cluster has confirmed an invalidation. -/
def execIcbusyClear (cl : Nat) (s : State) : Host.Outcome State Fault Refusal :=
  .next (modCluster s (cl % 16) fun c => { c with dm := { c.dm with icbusy := false } })

end Sys2Proof.Machine
end

