-- ==== Sys2Proof/Machine/JoinOps.lean ====
section
/-!
DEFINITION. The join instructions and the steps of the join homes (spec/09 R218, R219, spec/15 R292-R308).
-/
namespace Sys2Proof.Machine

/-- A join fault of a record (spec/09 R218). -/
def joinFault (va reason : Nat) : Res := .trap 0x12 (joinTval va reason)

/-- The strand `cur` as a participant. -/
def ownParty (s : State) : Party := .strand (addrOfStrand s s.cur) (stCtx (me s))

/-- JSLOT's participation: the participant id and the record's address. -/
def slotOf (x : Strand) : Option (Nat × Nat) :=
  if x.jslot.getLsbD 63 then some (bits x.jslot.toNat 57 6, bits x.jslot.toNat 8 49 * 256) else none

/-- Registration of a record at its parent, if it has one, in the order of the requests of a cycle (spec/15 R297): the parent's location and instance number, or what the
parent's join fault leaves (R294). The child takes the number that comes after the home has found the parent. -/
def enterParent (s : State) (k : Nat) (j : JoinInst) : Acc (Except (Nat × State) (Nat × Nat × State)) :=
  let pva := swField j 640 57
  let p := swField j 697 6
  let a := strandActor s k
  if pva = 0 then .ok (.ok (0, 0, s))
  else
    match recordLoc s k pva with
    | .ok pkey =>
        if !mayAsk s (askJoin pkey) p then .wait none
        else
          let s := ((findInst s a pkey pva).map Prod.snd).getD s
          match enterJoin (noteAsk s (askJoin pkey) p) a pkey p (.join j.key s.joinNo) 3 j.va.toNat (BitVec.ofNat 64 pva) with
          | .ok s => .ok (.ok (pkey, ((instAt s pkey).map JoinInst.num).getD 0, s))
          | .error r => .ok (.error (joinTval pva r, reportFind s a pkey pva))
    | .fault c t => .fault c t
    | .wait b => .wait b

def execJopen (c : Common) (sa : SReg) (s : State) : Host.Outcome State Fault Refusal :=
  let i : Instr := .jopen c sa
  issue i c s fun s =>
    let k := s.cur
    let va := (getS (me s) sa).toNat
    if !allLanded s k then .hold
    else
    let s := pushRecord s k va
    match checkOpen s k va with
    | .fault c v => if c = 9 then .trapPart (reportOpen s (self s) va) 9 v else .trap c v
    | .wait b => ofAcc (.wait b) fun (_ : Unit) => .hold
    | .ok j =>
        if joinState s j.key ≠ 0 ∧ joinState s j.key ≠ 3 then joinFault va 1
        else if 1024 ≤ openAt s j.key then .wait s ((me s).wait.getD (newWait s k i .jopen 0 0))
        else
          ofAcc (enterParent s k j) fun r =>
            match r with
            | .ok (pkey, pnum, s) => .done (openJoin s { j with num := s.joinNo, pkey := pkey, pnum := pnum })
            | .error (v, s) => .trapPart s 0x12 v

def execJenter (c : Common) (sa sb : SReg) (s : State) : Host.Outcome State Fault Refusal :=
  issue (.jenter c sa sb) c s fun s =>
    let x := me s
    let va := getS x sa
    let p := (getS x sb).toNat
    if x.jslot.getLsbD 63 then joinFault va.toNat 4
    else
      ofAcc (recordLoc s s.cur va.toNat) fun key =>
        if !mayAsk s (askJoin key) p then .hold
        else
        match enterJoin (noteAsk s (askJoin key) p) (self s) key p (ownParty s) 1 (addrOfStrand s s.cur).toNat va with
        | .ok s => onMe s fun x => { x with jslot := BitVec.ofNat 64 (2 ^ 63 + p * 2 ^ 57 + va.toNat % 2 ^ 57) }
        | .error r => .trapPart (reportFind s (self s) key va.toNat) 0x12 (joinTval va.toNat r)

/-- The value of a lane of a contribution. -/
def contValue (s32 : Bool) (b : Nat) : Val := if s32 then ofInt (sextNat 32 b) 0 else decodeF fmtF32 b

def execJcont (c : Common) (s32 : Bool) (sa : SReg) (sb : VReg) (km : KReg) (s : State) : Host.Outcome State Fault Refusal :=
  issue (.jcont c s32 sa sb km) c s fun s =>
    let x := me s
    match slotOf x with
    | none => joinFault 0 3
    | some (p, va) =>
        ofAcc (recordLoc s s.cur va) fun key =>
          let e := (getS x sa).toNat
          let on := (upFrom 0 16).filter (getK x km).getLsbD
          let ne := match instAt s key with
            | some j => jNE j
            | none => recField s key 35 11
          if on.any fun l => ne ≤ e + l then joinFault va 5
          else if !mayAsk s (askJoin key) p then .hold
          else
          let s := noteAsk s (askJoin key) p
          match registeredAt s key p (ownParty s) with
          | none => .done s
          | some j =>
              if j.state ≠ 1 then .done s
              else .done (addLanes j p (on.map fun l => (e + l, contValue s32 (lane (getV x sb) 32 l))) s)

def execJarrive (c : Common) (d : GReg) (s : State) : Host.Outcome State Fault Refusal :=
  issue (.jarrive c d) c s fun s =>
    match slotOf (me s) with
    | none => joinFault 0 3
    | some (p, va) =>
        ofAcc (recordLoc s s.cur va) fun key =>
          if hasReduction s s.cur || !mayAsk s (askJoin key) p then .hold
          else
          let t := timeOf s s.cur
          let s := releaseBy (noteAsk s (askJoin key) p) s.cur (memHandle 3 va)
          let r := arriveJoin s key p (ownParty s) (t + 1)
          onMe r.2 fun x => { setG x d r.1 with jslot := 0 }

/-- The home releases a join whose effective deadline has passed; the requests of the cycle have come first, so that one made later in it waits for the next (spec/15
R299). -/
def execJoinDeadline (rec_ : Nat) (s : State) : Host.Outcome State Fault Refusal :=
  match instAt s rec_ with
  | some j => if deadlinePassed s j then .next (releaseByQmin (noteAsk s (askJoin rec_) joinClosed) rec_ 2 0) else .next s
  | none => .next s

/-- The first released child on its way to a record arrives there as its participant (spec/15 R307). -/
def execChildJoinArrival (rec_ : Nat) (s : State) : Host.Outcome State Fault Refusal :=
  match s.childArr.find? fun a => a.key == rec_ with
  | none => .next s
  | some a =>
      if !mayAsk s (askJoin rec_) a.pid then .next s
      else
      let s := noteAsk s (askJoin rec_) a.pid
      let s := { s with childArr := s.childArr.filter (· != a) }
      match instAt s rec_ with
      | none => .next s
      | some j =>
          match j.regs.find? fun r => r.pid == a.pid with
          | none => .next s
          | some r =>
              if j.num ≠ a.num then .next s
              else
                let vals := (upFrom 0 (min a.vals.length (jNE j))).map fun e => (e, decodeF fmtF32 (lget 0 a.vals e).toNat)
                let s := if j.state = 1 then addLanes j a.pid vals s else s
                .next (arriveJoin s rec_ a.pid r.who (a.time + 1)).2

/-- The duration of an ended stall is credited to its join while that is OPEN (spec/15 R299). -/
def execStallCredit (idx : Nat) (s : State) : Host.Outcome State Fault Refusal :=
  match s.stalls[idx]? with
  | none => .next s
  | some m =>
      if !mayAsk s (askJoin m.key) joinAny then .next s
      else
      let s := { s with stalls := ldel s.stalls idx }
      match instAt s m.key with
      | some j =>
          if j.num = m.num ∧ j.state = 1 then .next (putRec s m.key 192 64 (recField s m.key 192 64 + m.units)) else .next s
      | none => .next s

/-- A waiter goes on with the status of its record (spec/09 R219, spec/15 R303, spec/13 R267). -/
def finishJwait (k : Nat) (d : SReg) (p : GReg) (va key : Nat) (v : Word) (s : State) : Res :=
  let s := modStrand s k fun x => setG (setS x d v) p true
  .done (dropJoinCopies (acquireBy s k (memHandle 3 va)) k va key)

def execJwait (c : Common) (d sa : SReg) (p : GReg) (tmo : BitVec 32) (s : State) : Host.Outcome State Fault Refusal :=
  let i : Instr := .jwait c d sa p tmo
  issue i c s fun s =>
    let k := s.cur
    match (me s).wait with
    | some w =>
        match w.what with
        | .join key =>
            resumeWait s w (fun s => if 2 ≤ joinState s key ∧ w.served = none then serveWait s k (statusWord s key) else s)
              (fun s => some (onMe s fun x => setG x p false)) fun v s => finishJwait k d p w.arg.toNat key v s
        | _ => .wait s w
    | none =>
        let va := getS (me s) sa
        ofAcc (recordLoc s k va.toNat) fun key =>
          let st := joinState s key
          if st = 0 then joinFault va.toNat 1
          else if 2 ≤ st then finishJwait k d p va.toNat key (statusWord s key) s
          else .wait s (newWait s k i (.join key) va tmo.toNat)

/-- The time-out of a JWAIT (spec/09 R219). -/
def execJwaitTimeout (k : StrandId) (s : State) : Host.Outcome State Fault Refusal :=
  match (getStrand s k).wait with
  | some w =>
      match w.i with
      | .jwait _ _ _ p .. => if timedOut s k w && w.served.isNone then .next (finishWait s k fun x => setG x p false) else .next s
      | _ => .next s
  | none => .next s

def execJclose (c : Common) (sa : SReg) (s : State) : Host.Outcome State Fault Refusal :=
  issue (.jclose c sa) c s fun s =>
    let va := (getS (me s) sa).toNat
    ofAcc (recordLoc s s.cur va) fun key =>
      if joinState s key = 2 then .done (dropInst (putRec s key 62 2 3) key) else joinFault va 1

def execJcloseF (c : Common) (sa : SReg) (s : State) : Host.Outcome State Fault Refusal :=
  issue (.jcloseF c sa) c s fun s =>
    let va := (getS (me s) sa).toNat
    ofAcc (recordLoc s s.cur va) fun key =>
      match findInst s (self s) key va with
      | some (j, s) => if j.state = 1 then .done (releaseByQmin s key 4 (timeOf s s.cur + 1)) else joinFault va 1
      | none => .trapPart (reportFind s (self s) key va) 0x12 (joinTval va 1)

/-! ### Kills (spec/15 R304-R306) -/

/-- A kill becomes pending on a strand; one that has stopped discards it, and one whose context is saved keeps it with the image. -/
def deliverKill (s : State) (k x : Nat) (p : PendKill) : State :=
  let y := getStrand s k
  if y.run == .running && stCtx y == x then modStrand s k fun y => { putStatus y 5 true with kills := y.kills ++ [p] }
  else if (getCtx s x).saved || (y.run == .saved && stCtx y == x) then modCtx s x fun c => { c with heldKills := c.heldKills ++ [(k, p)] }
  else s

/-- A kill on its way arrives at a strand participant; one for a strand of another device leaves as a flit. -/
def execKillDelivery (idx : Nat) (s : State) : Host.Outcome State Fault Refusal :=
  match s.kills[idx]? with
  | some m =>
      match m.who with
      | .strand a x =>
        if otherDev s a 18 12 then
          .next (sendMsg { s with kills := ldel s.kills idx } (bits a.toNat 12 6) 3 ([10, a.toNat, m.va.toNat, m.pid, m.time] ++ (m.kpc.map BitVec.toNat).toList))
        else .next (deliverKill { s with kills := ldel s.kills idx } (a.toNat % 4096) x ⟨m.va, m.pid, m.kpc, m.time⟩)
      | _ => .next s
  | none => .next s

/-- Is a strand at a kill point inside an instruction: a wait that a kill ends, or a boundary of a long instruction? -/
def insideKillPoint (x : Strand) : Bool := x.wait.any breakable || x.long.any atBoundary

/-- A strand takes, or discards, its pending kill in a wait or at a boundary. -/
def execKillTaken (k : StrandId) (s : State) : Host.Outcome State Fault Refusal :=
  let x := getStrand s k
  if mayRun s k && killDue x && insideKillPoint x then .next (tryKill s k) else .next s

/-- The instance of a child join at a record that a kill names. -/
def childOf (rec_ : Nat) (m : KillMsg) : Option Nat :=
  match m.who with
  | .join key num => if key = rec_ then some num else none
  | _ => none

/-- A kill sent to a child join releases the instance that it names (spec/15 R306). -/
def execChildJoinKill (rec_ : Nat) (s : State) : Host.Outcome State Fault Refusal :=
  match s.kills.find? fun m => (childOf rec_ m).isSome with
  | none => .next s
  | some m =>
      if !mayAsk s (askJoin rec_) joinAny then .next s
      else
      let s := { s with kills := s.kills.erase m }
      match instAt s rec_ with
      | some j => if j.state = 1 ∧ childOf rec_ m = some j.num then .next (releaseByQmin s rec_ 4 (m.time + 1)) else .next s
      | none => .next s

end Sys2Proof.Machine
end

