-- ==== Sys2Proof/Machine/Links.lean ====
section
/-!
DEFINITION. Links, the host, the network and the clock (spec/22 R367-R377, spec/21 R341).
-/
namespace Sys2Proof.Machine

/-! ### Training and loss of lanes (spec/22 R366, R367, R372) -/

/-- Do the management controller's steps let a link train: the host link always, every other from TRAIN on (R366)? -/
def mayTrain (s : State) (u : Nat) : Bool := u == 40 || s.mgmt.state == 3 || s.mgmt.state == 4

/-- The training of a link ends, which a link that is DOWN begins first; a port of the cascade that comes up ends the unreachability of devices. -/
def trainLink (s : State) (u : Nat) (x : TrainInput) : State :=
  let l := getLink s u
  if !isLink u || l.dis || !(l.state == 0 || l.state == 1) || !mayTrain s u then s
  else
    let s := endTraining (if l.state = 0 then beginTraining s u else s) u x
    if linkCarries s u then settleReady (flushFabric (if isCascade u then { s with unreach := [] } else s)) else s

def execLinkTraining (unit : Nat) (x : TrainInput) (s : State) : Host.Outcome State Fault Refusal := .next (trainLink s unit x)

def execDis (unit : Nat) (v : Bool) (s : State) : Host.Outcome State Fault Refusal := .next (writeDis s unit v)

/-- A link that is up is left with some lanes; below its least width it fails (R372). -/
def execLaneLoss (unit : Nat) (lanes : BitVec 8) (s : State) : Host.Outcome State Fault Refusal :=
  let l := getLink s unit
  let n := lanes.toNat
  if !isLink unit || !linkCarries s unit || decide (l.width ≤ n) then .next s
  else if n < leastWidth unit then .next (changeLink s unit { l with state := 4, width := 0, rate := 0, reason := 4 })
  else .next (changeLink s unit { l with state := 3, width := n })

/-! ### Flits of the cascade (spec/22 R373) -/

/-- Drop the kept flits of a VC up to an acknowledged sequence number; none of them has it where the list comes back whole. -/
def ackFlits (vc ack : Nat) (l : List Flit) : Option (List Flit) :=
  let mine (f : Flit) : Bool := bits f.header.toNat 0 2 == vc
  match (l.filter mine).findIdx? fun f => bits f.header.toNat 8 8 == ack with
  | some n => some (l.filter fun f => !(mine f && ((l.filter mine).take (n + 1)).contains f))
  | none => none

/-- A flit that is accepted: what it acknowledges, and its place in its VC. -/
def takeFlit (s : State) (p : Nat) (header : Word) : State :=
  let l := getLink s (16 + p)
  let vc := bits header.toNat 0 2
  let l := match ackFlits vc (bits header.toNat 16 8) l.unacked with
    | some r => { l with unacked := r, tries := mset 0 l.tries vc 0 }
    | none => l
  { s with links := mput s.links (16 + p) { l with rxSeq := mset 0 l.rxSeq vc ((mget 0 l.rxSeq vc + 1) % 256) } }

/-- Has the window of an `RDREM` ended, so that what returns is discarded (spec/14 R289)? -/
def lateRead (s : State) (k : Nat) (w : Wait) : Bool :=
  (match w.i with
    | .rdrem .. => true
    | _ => false) && timedOut s k w

/-- Does an answer meet the request that a strand waits with? -/
def answerStrand (s : State) (k : Nat) (v : Option Word) (time : Nat) : State :=
  match (getStrand s k).wait with
  | some w =>
      match w.what, v with
      | .away _, some v => if w.served.isNone && !lateRead s k w then raiseFloor (serveWait s k v) k time else s
      | .away _, none =>
          if lateRead s k w then s
          else
            modStrand (takeBack s k w) k fun x => { x with wait := some { w with what := if countsOut w.i then .refused else .revoked } }
      | _, _ => s
  | none => s

/-- Does this device admit another's request that names a handle: it is granted to the one context of the domain (spec/20 R321)? -/
def admitsHandle (s : State) (cdom : Nat) (h : Word) : Bool := handleForm h && isUnitKind (hKind h) && (handleCtx s h).any (admitsFor s cdom)

/-- Does it admit a request that names a strand: its context is the one of the domain? -/
def admitsStrand (s : State) (cdom t : Nat) : Bool := (coreCtx s (coreOf t)).any (admitsFor s cdom)

/-- Is a strand one of the saved context of a domain: it is not resident (spec/14 R289)? -/
def savedTarget (s : State) (cdom k : Nat) : Bool :=
  (upFrom 0 16).any fun x => (getCtx s x).saved && admitsFor s cdom x && (getCtx s x).kept.any fun q => q.strand == k

/-- What another device's strand has asked for and not received is withdrawn. -/
def withdrawAway (s : State) (sender : Word) : State :=
  let s := { s with
    awaySends := s.awaySends.filter fun a => a.sender != sender, awayReqs := s.awayReqs.filter fun a => a.sender != sender
    lockQ := (s.lockQ.map fun e => (e.1, e.2.filter (· != sender))).filter fun e => !e.2.isEmpty }
  foldUnits (fun s cl => modCluster s cl fun c => { c with mutex := c.mutex.map fun e => (e.1, { e.2 with q := e.2.q.filter (· != sender) }) })
    (listedClusters s) s

/-- A request stays, among those of its kind in the order of their senders, until it can be served. -/
def insReq (a : AwayReq) : List AwayReq → List AwayReq
  | [] => [a]
  | b :: r => if a.sender.toNat < b.sender.toNat then a :: b :: r else b :: insReq a r
def keepReq (s : State) (a : AwayReq) : State := { s with awayReqs := insReq a s.awayReqs }

/-- The unit whose requests of one cycle are served in the order of strand addresses. -/
def reqUnit (r : CascadeReq) : Option Nat :=
  match r with
  | .acquire h => some (askMutex (hCluster h) (hIdx h))
  | .lock pa => some (askLock pa)
  | .send t _ => some (askMail (t.toNat % 4096))
  | _ => none

/-- A request of another device's strand is served here, and answered. -/
def serveRequest (s : State) (a : AwayReq) : State :=
  let refuse (s : State) : State := sendAnswer s a.sender none
  let last (s : State) (h : Word) : State := noteLast s (some (hKind h * 2 ^ 64 + hCluster h * 64 + hIdx h)) a.time
  match a.req with
  | .evsig h v clr =>
      if admitsHandle s a.cdom h && hKind h == 2 then sendAnswer (signalEv (last s h) (hCluster h) (hIdx h) v clr) a.sender (some 0) else refuse s
  | .acquire h =>
      if admitsHandle s a.cdom h && hKind h == 1 then
        let m := getMutex s (hCluster h) (hIdx h)
        grantMutex (setMutex (noteAsk s (askMutex (hCluster h) (hIdx h)) a.sender.toNat) (hCluster h) (hIdx h) { m with q := m.q ++ [a.sender] })
          (hCluster h) (hIdx h)
      else refuse s
  | .release h =>
      let m := getMutex s (hCluster h) (hIdx h)
      if admitsHandle s a.cdom h && hKind h == 1 && m.holder == some a.sender then
        sendAnswer (grantMutex (setMutex (last s h) (hCluster h) (hIdx h) { m with holder := none }) (hCluster h) (hIdx h)) a.sender (some 0)
      else refuse s
  | .withdraw _ => withdrawAway s a.sender
  | .check h => if admitsHandle s a.cdom h then sendAnswer s a.sender (some 0) else refuse s
  | .send t p =>
      let k := t.toNat % 4096
      if admitsStrand s a.cdom k && existsIn s k then serveMail { s with awaySends := insAway ⟨k, a.sender, p, a.time, a.since⟩ s.awaySends } k 4
      else refuse s
  | .rdrem t ofs =>
      let k := t.toNat % 4096
      if savedTarget s a.cdom k then keepReq s a
      else if !admitsStrand s a.cdom k then refuse s
      else
        match remoteRead s none k ofs with
        | .ok (v, s) => sendAnswer s a.sender (some (BitVec.ofNat 64 v))
        | .fault .. => refuse s
        | .wait b => keepReq (wakeBank s b) a
  | .lock pa =>
      if isNear pa && pa % 8 == 0 && decide (pa < 2 ^ 52) then
        grantLock (setLockQueue (noteAsk s (askLock pa) a.sender.toNat) pa (lockQueue s pa ++ [a.sender])) pa
      else refuse s
  | .unlock pa =>
      if pa < 2 ^ 52 ∧ isNear pa ∧ homeRead s pa 8 = (lockWord a.sender).toNat then sendAnswer (grantLock (homeWrite (noteLast s (some (5 * 2 ^ 64 + pa)) a.time) pa 8 0) pa) a.sender (some 0)
      else refuse s

/-- A request is served where it may reach its unit in this cycle; else it stays. -/
def takeRequest (s : State) (a : AwayReq) : State :=
  if (reqUnit a.req).all fun u => mayAsk s u a.sender.toNat then serveRequest s a else keepReq s a

/-- As a cycle ends, what has stayed is tried again, and the locks whose next requester is another device's strand are looked at. -/
def pollAway (s : State) : State :=
  let s := s.awayReqs.foldl takeRequest { s with awayReqs := [] }
  foldUnits (fun s key => if (lockQueue s key).head?.any fun a => otherDev s a 18 12 then grantLock s key else s) (s.lockQ.map Prod.fst) s

/-- A message for this device is performed. -/
def takeMsg (s : State) (m : CascadeMsg) : State :=
  match m with
  | .answer k v time => answerStrand s k v time
  | .request cdom sender time r => takeRequest s ⟨cdom, sender, time, r, s.cycle⟩
  | .read pa n => if rangePoisoned s pa n then reportLoc s pa else s
  | .write pa data => if isNear pa then unpoison { s with mem := writeBytes s.mem (pa % 2 ^ 52) data } (pa % 2 ^ 52) data.length else s
  | .atomic fn t pa v => if isNear pa then homeWrite s (pa % 2 ^ 52) (elemBytes t) (amoValue fn t (homeRead s (pa % 2 ^ 52) (elemBytes t)) v) else s
  | .kill target record pid kpc time =>
      { s with kills := s.kills ++ [⟨.strand (target &&& 0xFFF) ((coreCtx s (coreOf (target.toNat % 4096))).getD 0), record, pid, kpc, time⟩] }

/-- An accepted flit goes to this device, whose messages are performed, or on by the routing table; it is not accepted (none) while its flow waits to move. -/
def acceptFlit (s : State) (p : Nat) (header : Word) (payload : List Byte) (msgs : List CascadeMsg) : Option State :=
  let s := flushFabric (takeFlit s p header)
  let dev := bits header.toNat 24 6
  if dev = s.devNo then some (msgs.foldl takeMsg s)
  else
    match routeOf s dev with
    | some q => if flowWaits s dev q then none else some (sendFlit s q header payload)
    | none => some s

/-- A received flit: discarded where its CRC fails, its VC has no room, it is not the next one of its VC or its flow waits; else accepted. -/
def receiveFlit (s : State) (p : Nat) (header : Word) (payload : List Byte) (msgs : List CascadeMsg) (ok room : Bool) : State :=
  if !linkCarries s (16 + p) || !ok || !room || bits header.toNat 8 8 != mget 0 (getLink s (16 + p)).rxSeq (bits header.toNat 0 2) then s
  else (acceptFlit s p header payload msgs).getD s

def execCascadeFlit (port : Nat) (header : Word) (body : FlitBody) (crcOk room : Bool) (s : State) : Host.Outcome State Fault Refusal :=
  if port < 12 then .next (receiveFlit s port header body.bytes body.msgs crcOk room) else .next s

/-- A retry of a link that is up: of a cascade port, whose VC resends its unacknowledged flits, oldest first, and whose sixteenth retry in a row fails the port; or of another
link, whose retries alone are counted (R367). -/
def execFlitRetry (flow : FlitFlow) (s : State) : Host.Outcome State Fault Refusal :=
  let unit := flow.unit
  let vc := flow.vc
  let l := getLink s unit
  let n := min (l.retry + 1) (2 ^ 24 - 1)
  if !isLink unit || !linkCarries s unit then .next s
  else if !isCascade unit then .next { s with links := mput s.links unit { l with retry := n } }
  else if (l.unacked.filter fun f => bits f.header.toNat 0 2 == vc).isEmpty then .next s
  else if 15 ≤ mget 0 l.tries vc then
    .next (changeLink s unit { l with state := 4, width := 0, rate := 0, reason := 3, retry := n, tries := mset 0 l.tries vc 16 })
  else .next { s with links := mput s.links unit { l with retry := n, tries := mset 0 l.tries vc (mget 0 l.tries vc + 1) } }

/-! ### Unreachable devices (spec/22 R374) -/

/-- Does a location lie on a device? -/
def onDevice (dev key : Nat) : Bool := decide (2 ^ 52 ≤ key) && key / 2 ^ 52 - 1 == dev

/-- A strand's request bound for the device, sent and not answered: its trap value. -/
def strandRequest (dev : Nat) (w : Wait) : Option Nat :=
  match w.what with
  | .lock key => if onDevice dev key && w.served.isNone then some (bits w.arg.toNat 0 57) else none
  | .join key => if onDevice dev key && w.served.isNone then some w.arg.toNat else none
  | .away d => if d = dev ∧ w.served.isNone then some (if isUnitKind (hKind w.arg) then w.arg.toNat else w.arg.toNat % 2 ^ 19) else none
  | _ => none

/-- Such a strand takes cause 0x0E with no effect. -/
def failRequest (s : State) (dev k : Nat) : State :=
  match (getStrand s k).wait with
  | some w =>
      match strandRequest dev w with
      | some t => enterTrap (reportCascade (abandonWait s k) t) k 0xE (BitVec.ofNat 64 t) (getStrand s k).pc
      | none => s
  | none => s

/-- Is a kill bound for the device? -/
def killBound (s : State) (dev : Nat) (m : KillMsg) : Bool :=
  match m.who with
  | .strand a _ => dev != s.devNo && bits a.toNat 12 6 == dev
  | .join key _ => onDevice dev key
  | .copy .. => false

/-- A strand's loads in flight to a home that does not answer trap (spec/22 R374); the fuel counts them. -/
def loseLoads (k : Nat) : Nat → State → State
  | 0, s => s
  | n + 1, s =>
    match (getStrand s k).inflight.find? fun f => f.load.any fun p => (failedLane s k p).isSome with
    | some f => if trapWaits s k then s else loseLoads k n (landFlight s k f ((getStrand s k).inflight.erase f))
    | none => s

/-- A rank that waits at a barrier record of the device: its messages are lost. -/
def lostBarrier (s : State) (dev k : Nat) : State :=
  match (getStrand s k).wait with
  | some w =>
      match w.what with
      | .brec _ =>
          match translate s (coreOf k) (stCtx (getStrand s k)) (getCore s (coreOf k)).desc (hAddr w.arg) .read with
          | some (key, _) => if onDevice dev key then reportCascade s (key % 2 ^ 52) else s
          | none => s
      | _ => s
  | none => s

/-- A device becomes unreachable: what has been sent to it and not answered fails or is lost. -/
def loseDevice (s : State) (dev : Nat) : State :=
  let s := { s with unreach := if s.unreach.contains dev then s.unreach else dev :: s.unreach }
  let s := (s.reductions.filter fun r => onDevice dev r.pa).foldl loseReduction s
  let gone := s.kills.filter (killBound s dev)
  let late := s.childArr.filter fun a => onDevice dev a.key
  let credits := s.stalls.filter fun m => onDevice dev m.key
  let s := { s with
    fabricQ := s.fabricQ.filter fun f => bits f.header.toNat 24 6 != dev
    kills := s.kills.filter fun m => !killBound s dev m, childArr := s.childArr.filter fun a => !onDevice dev a.key
    stalls := s.stalls.filter fun m => !onDevice dev m.key }
  let s := gone.foldl (fun s m => reportCascade s m.va.toNat) s
  let s := late.foldl (fun s a => reportCascade s (a.key % 2 ^ 52)) s
  let s := credits.foldl (fun s m => reportCascade s (m.key % 2 ^ 52)) s
  let s := foldUnits (fun s k => loseLoads k (getStrand s k).inflight.length s) (listedStrands s) s
  let s := foldUnits (fun s k => lostBarrier s dev k) (listedStrands s) s
  foldUnits (fun s k => failRequest s dev k) (listedStrands s) s

def execDeviceUnreachable (dev : Nat) (s : State) : Host.Outcome State Fault Refusal :=
  if dev = s.devNo ∨ 64 ≤ dev then .next s else .next (loseDevice s dev)

/-! ### The host (spec/22 R368, R369) -/

/-- Does an HDM decoder range expose bytes to the host? -/
def exposed (s : State) (pa n : Nat) : Bool := s.hdm.any fun r => decide (r.1 ≤ pa) && decide (pa + n ≤ r.1 + r.2)

/-- A host read or write of near-tier memory that a decoder range exposes, at its home; a read of poisoned data is an uncorrected error. -/
def execCxlMemRequest (write : Bool) (pa n : Nat) (data : List Byte) (s : State) : Host.Outcome State Fault Refusal :=
  if !exposed s pa n || decide (0x8000000000 < pa + n) || (write && data.length != n) then .next s
  else if write then .next (unpoison { s with mem := writeBytes s.mem pa data } pa n)
  else .next (if rangePoisoned s pa n then reportLoc s pa else s)

/-- A snoop makes a slice write back and drop a line of host memory. -/
def execCxlSnoop (cl line : Nat) (s : State) : Host.Outcome State Fault Refusal :=
  if 0x8000000000000 ≤ line * 128 ∧ line * 128 < 2 ^ 52 then .next (dropL2 s (cl % 16) line) else .next s

/-! ### Ethernet and RoCE v2 (spec/22 R375, R376) -/

/-- The region that admits an access. -/
def regionFor (s : State) (x : RoceRequest) : Option Region :=
  s.regions.find? fun r => r.rkey == x.rkey && decide (r.base ≤ x.addr.toNat) && decide (x.addr.toNat + x.len ≤ r.base + r.len)
    && (!x.write || r.write)

/-- A packet that is ECN-marked has its queue pair send a CNP. -/
def noteEcn (s : State) (x : RoceRequest) : State :=
  if x.ecn then setQp s x.qp { getQp s x.qp with cnps := (getQp s x.qp).cnps + 1 } else s

/-- The responder serves a WRITE or a READ against a registered region; a packet whose ICRC fails is dropped, and every other request
receives a NAK, which changes nothing here. A READ of poisoned data is an uncorrected error. -/
def execRoceRequest (x : RoceRequest) (s : State) : Host.Outcome State Fault Refusal :=
  if !x.icrcOk || !linkCarries s (32 + x.port) || !mhas s.qps x.qp then .next s
  else
    let s := noteEcn s x
    if !x.supported || (regionFor s x).isNone then .next s
    else if x.write && x.data.length == x.len then .next (unpoison { s with mem := writeBytes s.mem x.addr.toNat x.data } x.addr.toNat x.len)
    else .next (if !x.write && rangePoisoned s x.addr.toNat x.len then reportLoc s x.addr.toNat else s)

/-- Is a command an RDMA operation of a queue pair that has not ended? -/
def onQp (q : Nat) (c : CopyCmd) : Bool := (c.kind == .rwrite || c.kind == .rread) && ccrField c.ccr 336 24 == q && !cmdOver c

/-- Every RDMA command of a queue pair in progress fails with XERR 1. -/
def failQp (s : State) (q : Nat) : State :=
  foldUnits (fun s cl => modCluster s cl fun y => { y with copies := y.copies.map fun c => if onQp q c then { c with xerr := 1 } else c })
    (listedClusters s) s

/-- The local ACK time-out: the queue pair retransmits seven times, then its command fails. -/
def execRoceAckTimeout (qp : Nat) (s : State) : Host.Outcome State Fault Refusal :=
  let x := getQp s qp
  if !mhas s.qps qp then .next s
  else if x.retries < 7 then .next (setQp s qp { x with retries := x.retries + 1 })
  else .next (failQp (setQp s qp { x with retries := 0 }) qp)

/-- A received CNP halves the rate. -/
def execCnp (qp : Nat) (s : State) : Host.Outcome State Fault Refusal :=
  .next (setQp s qp { getQp s qp with rate := (getQp s qp).rate / 2 })

/-- The rate recovers by 1/16. -/
def execRateRecovery (qp : Nat) (s : State) : Host.Outcome State Fault Refusal :=
  .next (setQp s qp { getQp s qp with rate := min ((getQp s qp).rate + 2 ^ 28) (2 ^ 32) })

/-- Cycles of some pause quanta, of 512 bit times at 800 Gb/s each (IEEE 802.3, which R375 names). -/
def quantaCycles (q : Nat) : Nat := (q * 36 + 24) / 25

/-- A received frame that fails its FCS is dropped and counted; a pause or PFC frame gives, for priorities, the quanta for which the port pauses them, 0 to resume (R375). -/
def execEthernetFrame (port : Nat) (frame : EthFrame) (s : State) : Host.Outcome State Fault Refusal :=
  let u := 32 + port % 4
  if !frame.fcsOk then .next { s with ethDrops := mput s.ethDrops (port % 4) (mget 0 s.ethDrops (port % 4) + 1) }
  else if frame.pause = [] then .next s
  else
    let l := getLink s u
    .next { s with links := mput s.links u { l with pauseTo := frame.pause.foldl (fun m p => mset 0 m (p.1 % 8) (s.cycle + quantaCycles p.2)) l.pauseTo } }

/-! ### The clock (spec/22 R377, spec/21 R341) -/

/-- An offset as a signed field of 32 bits that saturates. -/
def offsetField (o : Int) : Nat := bitsOfInt 32 (clampI (-(2 ^ 31 : Nat)) ((2 ^ 31 : Nat) - 1) o)

/-- A change of the clock's state, with its record. -/
def changeClock (s : State) (new : Nat) (offset : Int) : State :=
  let old := s.ptp.state
  let s := { s with ptp := { s.ptp with state := new, good := 0 } }
  if old = new then s
  else emitSys s ⟨0x51, srcUnit 2, 0, 0, [new + 16 * old + offsetField offset * 2 ^ 16], none, 0⟩

/-- Every die steps forward to the master's time. -/
def stepTime (s : State) (t : Nat) : State :=
  let old := dieTime s 0
  emitSys { s with time := (upFrom 0 4).foldl (fun m d => mset 0 m d (max t (dieTime s d) % 2 ^ 63)) s.time, ptp := { s.ptp with slew := 0 } }
    ⟨0x03, srcUnit 2, 0, 0, [old, t], none, 0⟩

/-- ACQUIRING is entered: a step where device time lies 1 us or more behind the master's, else slewing. -/
def acquire (s : State) (offset : Int) : State :=
  let s := changeClock s 1 offset
  if offset ≤ -4000 then stepTime s ((dieTime s 0 : Int) - offset).toNat else { s with ptp := { s.ptp with slew := -offset } }

/-- A valid measurement of the offset of device time from its source; until its acquisition has been started the clock takes none. -/
def clockSample (s : State) (offset : Int) : State :=
  if !s.ptp.on then s
  else if s.ptp.state = 0 ∨ s.ptp.state = 3 then acquire s offset
  else
    let good := if offset.natAbs < 400 then s.ptp.good + 1 else 0
    let s := { s with ptp := { s.ptp with slew := -offset, good := good } }
    if s.ptp.state = 1 ∧ 16 ≤ good then changeClock s 2 offset else s

/-- A valid Sync on the port that the clock runs over, where the network is its source; where none is selected its sender becomes the master, and those of others are
passed over. -/
def execSync (source : SyncSource) (offset : Int) (s : State) : Host.Outcome State Fault Refusal :=
  if s.ptp.pps || !s.ptp.on || source.port != s.ptp.port then .next s
  else
    match s.ptp.master with
    | some m => .next (if m = source.master then clockSample s offset else s)
    | none => .next (clockSample { s with ptp := { s.ptp with master := some source.master } } offset)

/-- A 1PPS edge, where that is the source: the master's time is PTPTOD, which goes on by one second. -/
def execPpsEdge (s : State) : Host.Outcome State Fault Refusal :=
  if !s.ptp.pps then .next s
  else
    let s' := clockSample s ((dieTime s 0 : Int) - s.ptp.tod)
    .next { s' with ptp := { s'.ptp with tod := (s'.ptp.tod + 4000000000) % 2 ^ 63 } }

/-- Four announce intervals have passed without Sync: another master may be selected. -/
def execAnnounceTimeout (s : State) : Host.Outcome State Fault Refusal :=
  .next (if s.ptp.state = 1 ∨ s.ptp.state = 2 then
      let s' := changeClock s 3 (-s.ptp.slew)
      { s' with ptp := { s'.ptp with master := none } }
    else s)

/-! ### Management (spec/22 R368, R376, R377, R383) -/

/-- What system software and the host set where the spec gives no register. -/
def manage (m : ManageCmd) (s : State) : State :=
  match m with
  | .clockOn => { s with ptp := { s.ptp with on := true } }
  | .clockOff =>
      let s := changeClock s 0 (-s.ptp.slew)
      { s with ptp := { s.ptp with on := false, master := none, slew := 0 } }
  | .clockSource pps => { s with ptp := { s.ptp with pps := pps } }
  | .clockPort p => { s with ptp := { s.ptp with port := p % 4, master := none } }
  | .clockMaster m => { s with ptp := { s.ptp with master := some m } }
  | .queuePair q => makeQp s q
  | .region r => { s with regions := s.regions ++ [r] }
  | .hdm i base len => if i < 4 then { s with hdm := lset (s.hdm ++ List.replicate (i + 1 - s.hdm.length) (0, 0)) i (base, len) } else s
  | .kernelImage m => loadKernel s m

end Sys2Proof.Machine
end

