-- ==== Sys2Proof/Machine/RasOps.lean ====
section
/-!
DEFINITION. Errors as they occur: scrubbing, corrected and uncorrected errors, fatal errors and the counters (spec/22 R371, R378-R381).
-/
namespace Sys2Proof.Machine

/-- The patrol scrubber reads a near-tier line: it corrects an error, or meets a poisoned unit. -/
def execPatrolScrub (line : Nat) (corrected : Bool) (s : State) : Host.Outcome State Fault Refusal :=
  let a := line * 128
  if !isNear a || decide (2 ^ 52 ≤ a) then .next s
  else
    let s := if corrected then reportCorrected s (kindOfLoc a) (srcUnit (unitOfLoc a)) 0 a else s
    .next (if rangePoisoned s a 128 then reportLoc s a else s)

def execCorrectedError (x : ErrSite) (s : State) : Host.Outcome State Fault Refusal :=
  .next (reportCorrected s x.kind.toNat x.src.toNat x.space.toNat x.addr)

/-- The report of an uncorrected error. -/
def reportSite (s : State) (x : ErrSite) : State := reportUncorrected s x.kind.toNat x.src.toNat x.space.toNat x.addr

/-- The copy command of a cluster that the engine works at, by its index. -/
def activeCommand (s : State) (cl : Nat) : Option Nat :=
  (upFrom 0 (getCluster s cl).copies.length).find? fun i =>
    match (getCluster s cl).copies[i]? with
    | some q => cmdReady s cl i q
    | none => false

/-- How many elements the next unit of a command holds. -/
def unitElems (q : CopyCmd) : Nat :=
  let r := cmdShape q
  if (tsrTy r).isBlock then (groupElems r (idxOf (unitSizes r) q.done)).length else 1

/-- An engine skips the element in which it met the error. -/
def skipElement (s : State) (cl addr : Nat) : State :=
  match activeCommand s cl with
  | some i =>
      match (getCluster s cl).copies[i]? with
      | some q => if q.kind = .pref then s else putCommand s cl i (passUnit (skipAt q addr (unitElems q)) (unitElems q))
      | none => s
  | none => s

/-- A row leaves the round in progress: its visit, with its activation groups, and the nodes still to visit. -/
def leaveRound (row : Nat) (p : WalkProg) : WalkProg :=
  { p with
    todo := p.todo.map fun n => (n.1, n.2.filter fun i => i != row)
    visit := p.visit.map fun v =>
      let keep := (v.rows.zip v.acts).zip v.tile.rows |>.filter fun t => t.1.1 != row
      { v with rows := keep.map fun t => t.1.1, acts := keep.map fun t => t.1.2, tile := { v.tile with rows := keep.map Prod.snd } } }

/-- A walk's row becomes FAULT at the error's address (spec/08 R191). -/
def faultRow (s : State) (k row addr : Nat) : State :=
  match (getStrand s k).long with
  | some l =>
      match walkArgs l.i with
      | some _ =>
          if row < l.rows.length ∧ rowStat (lget 0 l.rows row) = 0 then
            let rows := failRows 2 addr [row] l.rows
            modStrand (writeRows (coreOf k) l.buf [row] rows s) k fun x => { x with long := some { l with rows := rows, prog := l.prog.map (leaveRound row) } }
          else s
      | none => s
  | none => s

/-- Every 64-bit unit of a line is poisoned at its home. -/
def poisonLine (s : State) (line : Nat) : State :=
  let us := (upFrom 0 16).map fun i => line * 128 + 8 * i
  { s with poison := s.poison ++ us.filter fun u => !s.poison.contains u }

/-- A strand whose instruction consumes the error traps before that has any effect, leaving a long instruction or a wait at its point; a strand that does nothing traps not. -/
def trapStrand (s : State) (k : Nat) (tval : Word) : State :=
  if mayRun s k then enterTrap (leaveLong (abandonWait s k) k) k 0xE tval (getStrand s k).pc else s

/-- An uncorrected error, by who consumes it. While a strand's table requests are not complete, no instruction of its traps yet (spec/07 R164). -/
def execUncorrectedError (x : ErrSite) (who : ErrConsumer) (s : State) : Host.Outcome State Fault Refusal :=
  match who with
  | .strand k tval => .next (if mayRun s k && !(getStrand s k).vtabQ.isEmpty then s else trapStrand (reportSite s x) k tval)
  | .engine faddr => .next (skipElement (reportSite s x) (x.src.toNat / 1024) faddr)
  | .walk k row faddr => .next (faultRow (reportSite s x) k row faddr)
  | .writeback => .next (if x.space = 0 then poisonLine (reportSite s x) (x.addr / 128) else reportSite s x)

/-! ### Fatal errors (spec/22 R380) -/

/-- A strand of a lost cluster stops as `END` does. -/
def killStrand (s : State) (k : Nat) : State :=
  if (getStrand s k).run = .running then
    let s := killWait s k
    modStrand (stopStrand s k) k fun x => { x with inflight := [], vtabQ := [] }
  else s

/-- The drains that a cluster's top-k unit has taken complete and write their entries (spec/09 R212); the fuel counts them. -/
def finishDrains (cl : Nat) : Nat → State → State
  | 0, s => s
  | n + 1, s =>
    match (getCluster s cl).drains with
    | q :: _ => finishDrains cl n (finishDrain s cl 0 q)
    | [] => s

/-- The table loads of a core are abandoned: each leaves its table empty and completes its ticket. -/
def abandonLoads (s : State) (c : Nat) : State := (getCore s c).tabLoads.foldl (fun s q => finishLoad s c q []) s

/-- The engines of a cluster abandon their commands; those of the copy engine complete with FLT. -/
def abandonEngines (s : State) (cl : Nat) : State :=
  let s := finishDrains cl (getCluster s cl).drains.length s
  let s := modCluster s cl fun c => { c with
    copies := c.copies.map fun q => { q with killed := true }, failed := true, unav := BitVec.allOnes 64 }
  foldUnits abandonLoads ((listedCores s).filter fun c => clusterOfCore c == cl) s

/-- A fatal error of a cluster, or of a unit outside every cluster where no such cluster exists. -/
def execFatalClusterError (cl : Nat) (s : State) : Host.Outcome State Fault Refusal :=
  if cl < 16 then
    let s := reportUncorrected s 9 (srcDebug cl) 3 0
    let s := abandonEngines s cl
    let s := foldUnits killStrand (strandsIn s cl) s
    .next { s with launches := s.launches.map fun l => if bitOf l.clus cl then { l with abort := true } else l }
  else .next (setDevst (reportUncorrected s 9 (srcUnit 3) 3 0) 6 4)

def execRascnt (k : Nat) (v : Word) (s : State) : Host.Outcome State Fault Refusal := .next (writeRascnt s (k % 24) v)

end Sys2Proof.Machine
end

