-- ==== Sys2Proof/Machine/Vector.lean ====
section
/-!
DEFINITION. The vector, distance, table and streaming instructions (spec/07).
-/
namespace Sys2Proof.Machine

/-! ### Element-wise arithmetic and logic (spec/07 R143, R144) -/

/-- An instruction that writes the enabled lanes of a vector register. -/
def vop (i : Instr) (c : Common) (t : Ty) (mz : Bool) (km : KReg) (d : VReg) (f : Strand → Nat → Nat) (s : State) :
    Host.Outcome State Fault Refusal :=
  issue i c s fun s => onMe s fun x => setV x d (mapLanes t (getK x km) mz (getV x d) (f x))

/-- Two source lanes. -/
def vop2 (i : Instr) (c : Common) (t : Ty) (mz : Bool) (km : KReg) (d a b : VReg) (f : Nat → Nat → Nat) (s : State) :
    Host.Outcome State Fault Refusal :=
  vop i c t mz km d (fun x j => f (lane (getV x a) t.width j) (lane (getV x b) t.width j)) s

/-- One source lane. -/
def vop1 (i : Instr) (c : Common) (t : Ty) (mz : Bool) (km : KReg) (d a : VReg) (f : Nat → Nat) (s : State) :
    Host.Outcome State Fault Refusal :=
  vop i c t mz km d (fun x j => f (lane (getV x a) t.width j)) s

/-- A lane operation by type: exact and reduced on integers, rounded on floating-point types. -/
def laneOp (t : Ty) (sat : Bool) (f : Int → Int → Int) (g : Fmt → Nat → Nat → Nat) (a b : Nat) : Nat :=
  if t.isFloat then g (fmtOf t) a b else reduceInt t sat (f (intOf t a) (intOf t b))

def laneMad (t : Ty) (sat : Bool) (a b e : Nat) : Nat :=
  if t.isFloat then fmaF (fmtOf t) a b e else reduceInt t sat (intOf t a * intOf t b + intOf t e)

def laneAbs (t : Ty) (sat : Bool) (a : Nat) : Nat :=
  if t.isFloat then (if isNan (fmtOf t) a then (fmtOf t).nan else a % (fmtOf t).sign)
  else reduceInt t sat (if intOf t a < 0 then -intOf t a else intOf t a)

def laneNeg (t : Ty) (sat : Bool) (a : Nat) : Nat :=
  if t.isFloat then (if isNan (fmtOf t) a then (fmtOf t).nan else (a + (fmtOf t).sign) % (2 * (fmtOf t).sign))
  else reduceInt t sat (-intOf t a)

/-- Shifts of a lane of `w` bits by the whole of another. -/
def laneShl (w a b : Nat) : Nat := if w ≤ b then 0 else a * 2 ^ b % 2 ^ w
def laneShr (w a b : Nat) : Nat := if w ≤ b then 0 else a / 2 ^ b
def laneSra (w a b : Nat) : Nat := bitsOfInt w (sextNat w a / (2 ^ min b (w - 1) : Nat))

def execVadd (c : Common) (t : Ty) (mz sat : Bool) (km : KReg) (d a b : VReg) (s : State) :=
  vop2 (.vadd c t mz sat km d a b) c t mz km d a b (laneOp t sat (· + ·) addF) s
def execVsub (c : Common) (t : Ty) (mz sat : Bool) (km : KReg) (d a b : VReg) (s : State) :=
  vop2 (.vsub c t mz sat km d a b) c t mz km d a b (laneOp t sat (· - ·) subF) s
def execVmul (c : Common) (t : Ty) (mz sat : Bool) (km : KReg) (d a b : VReg) (s : State) :=
  vop2 (.vmul c t mz sat km d a b) c t mz km d a b (laneOp t sat (· * ·) mulF) s
def execVmad (c : Common) (t : Ty) (mz sat : Bool) (km : KReg) (d a b e : VReg) (s : State) :=
  vop (.vmad c t mz sat km d a b e) c t mz km d
    (fun x j => laneMad t sat (lane (getV x a) t.width j) (lane (getV x b) t.width j) (lane (getV x e) t.width j)) s
def execVmin (c : Common) (t : Ty) (mz : Bool) (km : KReg) (d a b : VReg) (s : State) :=
  vop2 (.vmin c t mz km d a b) c t mz km d a b (laneOp t false min minF) s
def execVmax (c : Common) (t : Ty) (mz : Bool) (km : KReg) (d a b : VReg) (s : State) :=
  vop2 (.vmax c t mz km d a b) c t mz km d a b (laneOp t false max maxF) s
def execVabs (c : Common) (t : Ty) (mz sat : Bool) (km : KReg) (d a : VReg) (s : State) :=
  vop1 (.vabs c t mz sat km d a) c t mz km d a (laneAbs t sat) s
def execVneg (c : Common) (t : Ty) (mz sat : Bool) (km : KReg) (d a : VReg) (s : State) :=
  vop1 (.vneg c t mz sat km d a) c t mz km d a (laneNeg t sat) s
def execVand (c : Common) (t : Ty) (mz : Bool) (km : KReg) (d a b : VReg) (s : State) :=
  vop2 (.vand c t mz km d a b) c t mz km d a b Nat.land s
def execVor (c : Common) (t : Ty) (mz : Bool) (km : KReg) (d a b : VReg) (s : State) :=
  vop2 (.vor c t mz km d a b) c t mz km d a b Nat.lor s
def execVxor (c : Common) (t : Ty) (mz : Bool) (km : KReg) (d a b : VReg) (s : State) :=
  vop2 (.vxor c t mz km d a b) c t mz km d a b Nat.xor s
def execVshl (c : Common) (t : Ty) (mz : Bool) (km : KReg) (d a b : VReg) (s : State) :=
  vop2 (.vshl c t mz km d a b) c t mz km d a b (laneShl t.width) s
def execVshr (c : Common) (t : Ty) (mz : Bool) (km : KReg) (d a b : VReg) (s : State) :=
  vop2 (.vshr c t mz km d a b) c t mz km d a b (laneShr t.width) s
def execVsra (c : Common) (t : Ty) (mz : Bool) (km : KReg) (d a b : VReg) (s : State) :=
  vop2 (.vsra c t mz km d a b) c t mz km d a b (laneSra t.width) s

/-! ### Compares and selection (spec/07 R145, R146) -/

/-- The lanes of a register that satisfy a test, among the enabled ones. -/
def laneTest (t : Ty) (m : Word) (f : Nat → Bool) : Word := maskOf t.lanes fun j => laneOn m t j && f j

def execVcmp (c : Common) (q : VCond) (t : Ty) (km d : KReg) (a b : VReg) (xk : KReg) (s : State) : Host.Outcome State Fault Refusal :=
  issue (.vcmp c q t km d a b xk) c s fun s => onMe s fun x =>
    let f (j : Nat) : Bool := vcondHolds q t (lane (getV x a) t.width j) (lane (getV x b) t.width j)
    setK (setK x xk (laneTest t (getK x km) fun j => !f j)) d (laneTest t (getK x km) f)

def execVsel (c : Common) (t : Ty) (km : KReg) (d a b : VReg) (s : State) : Host.Outcome State Fault Refusal :=
  issue (.vsel c t km d a b) c s fun s => onMe s fun x =>
    setV x d (mapLanes t (getK x km) false (getV x b) fun j => lane (getV x a) t.width j)

/-! ### Conversion (spec/07 R147) -/

/-- The register that VCVT writes. -/
def vcvtVec (src t : Ty) (mz : Bool) (hp : Nat) (m : Word) (old a : Vec) : Vec :=
  let n := 512 / max src.width t.width
  if t.width ≤ src.width then
    ofLanes t.width ((upFrom 0 t.lanes).map fun i =>
      let j := i - hp * n
      if hp * n ≤ i ∧ j < n then
        (if m.getLsbD j then convert src t (lane a src.width j) else if mz then 0 else lane old t.width i)
      else lane old t.width i)
  else
    ofLanes t.width ((upFrom 0 n).map fun j =>
      if m.getLsbD j then convert src t (lane a src.width (hp * n + j)) else if mz then 0 else lane old t.width j)

def execVcvt (c : Common) (src t : Ty) (mz : Bool) (hp : BitVec 3) (km : KReg) (d a : VReg) (s : State) :
    Host.Outcome State Fault Refusal :=
  issue (.vcvt c src t mz hp km d a) c s fun s => onMe s fun x =>
    setV x d (vcvtVec src t mz hp.toNat (getK x km) (getV x d) (getV x a))

/-! ### Block packing (spec/07 R154-R156) -/

/-- The element values that VPACK packs, disabled ones as zero. -/
def packVals (src : Ty) (m : Word) (a b : Vec) (scales : Nat) : List Val :=
  let n := if src.width = 8 then 64 else 32
  (upFrom 0 n).map fun j =>
    if m.getLsbD j then
      (if src = .mxi8 ∨ src = .mxf8 then mxVal src (bits scales (8 * (j / 32)) 8) (lane a 8 j)
       else if src.width = 32 then valOf src (if j < 16 then lane a 32 j else lane b 32 (j - 16))
       else valOf src (lane a src.width j))
    else zeroV

/-- The groups of a list of values. -/
def formAll (zc : Bool) (b : Nat) (vs : List Val) : List Formed :=
  (upFrom 0 (vs.length / 32)).map fun g => formGroup zc b ((vs.drop (32 * g)).take 32)

/-- The scale and status word of VPACK. -/
def packStatus : Nat → List Formed → Nat
  | _, [] => 0
  | g, f :: r => f.g.e * 2 ^ (8 * g) + bnat f.sat * 2 ^ (32 + g) + bnat f.nan * 2 ^ (40 + g) + packStatus (g + 1) r

def execVpack (c : Common) (src : Ty) (mw : BitVec 4) (km : KReg) (es : SReg) (d a b : VReg) (sc : SReg) (s : State) :
    Host.Outcome State Fault Refusal :=
  issue (.vpack c src mw km es d a b sc) c s fun s =>
    let x := me s
    let fs := formAll (stNanm x) mw.toNat (packVals src (getK x km) (getV x a) (getV x b) (getS x sc).toNat)
    let s := countNan s s.cur (fs.foldl (fun n f => n + f.count) 0)
    onMe s fun x =>
      setS (setV x d (BitVec.ofNat 512 (packFields (32 * mw.toNat) (fs.map fun f => packMants mw.toNat f.g.m)))) es
        (BitVec.ofNat 64 (packStatus 0 fs))

/-- Element `j` of the packed register that VUNPACK reads. -/
def unpackVal (mw : Nat) (a : Vec) (scales j : Nat) : Val :=
  let g := j / 32
  mantVal mw (bits scales (8 * g) 8) (fieldMant mw (j % 32) (bits a.toNat (32 * mw * g) (32 * mw)))

def execVunpack (c : Common) (t : Ty) (mw : BitVec 4) (mz hp : Bool) (km : KReg) (d a : VReg) (sc : SReg) (s : State) :
    Host.Outcome State Fault Refusal :=
  vop (.vunpack c t mw mz hp km d a sc) c t mz km d
    (fun x j => elemOf t (unpackVal mw.toNat (getV x a) (getS x sc).toNat (if t.width = 32 then 16 * bnat hp + j else j))) s

/-! ### Reductions (spec/07 R148, R149) -/

/-- The enabled lanes as (number, encoding). -/
def enabledLanes (t : Ty) (m : Word) (v : Vec) : List (Nat × Nat) := (onLanes t m).map fun j => (j, lane v t.width j)

/-- The value of VREDSUM. -/
def redSum (t : Ty) (sat : Bool) (l : List (Nat × Nat)) : Word :=
  if t = .bit then BitVec.ofNat 64 (l.filter fun p => p.2 == 1).length
  else if t.isFloat then BitVec.ofNat 64 (encodeF (fmtOf t) (sumV (l.map fun p => decodeF (fmtOf t) p.2)))
  else
    let n := l.foldl (fun a p => a + intOf t p.2) 0
    if t.width = 64 then BitVec.ofNat 64 (reduceInt t sat n) else BitVec.ofInt 64 n

def execVredsum (c : Common) (t : Ty) (sat : Bool) (km : KReg) (d : SReg) (a : VReg) (s : State) : Host.Outcome State Fault Refusal :=
  issue (.vredsum c t sat km d a) c s fun s => onMe s fun x => setS x d (redSum t sat (enabledLanes t (getK x km) (getV x a)))

/-- The order of two encodings of a type, -0 below +0. -/
def elemKey (t : Ty) (b : Nat) : Int := if t.isFloat then orderKey (fmtOf t) b else intOf t b

/-- The best lane of a list, the lowest among equals. -/
def bestLane (t : Ty) (up : Bool) : Option (Nat × Nat) → List (Nat × Nat) → Option (Nat × Nat)
  | b, [] => b
  | none, p :: r => bestLane t up (some p) r
  | some b, p :: r =>
      let better := if up then decide (elemKey t b.2 < elemKey t p.2) else decide (elemKey t p.2 < elemKey t b.2)
      bestLane t up (some (if better then p else b)) r

/-- Value and index of VREDMAX and VREDMIN. -/
def redBest (t : Ty) (up : Bool) (l : List (Nat × Nat)) : Nat × Word :=
  let f := fmtOf t
  match (if t.isFloat then l.find? fun p => isNan f p.2 else none) with
  | some p => (f.nan, BitVec.ofNat 64 p.1)
  | none =>
    match bestLane t up none l with
    | some p => (p.2, BitVec.ofNat 64 p.1)
    | none =>
        (if t.isFloat then (if up then f.inf + f.sign else f.inf) else bitsOfInt t.width (if up then Ty.lo t else Ty.hi t),
         BitVec.allOnes 64)

/-- VREDMAX and VREDMIN: the index first, so that the value wins where the registers are the same. -/
def redStrand (t : Ty) (up : Bool) (km : KReg) (d : SReg) (a : VReg) (sc : SReg) (x : Strand) : Strand :=
  let r := redBest t up (enabledLanes t (getK x km) (getV x a))
  setS (setS x sc r.2) d (extend t r.1)

def execVredmax (c : Common) (t : Ty) (km : KReg) (d : SReg) (a : VReg) (sc : SReg) (s : State) : Host.Outcome State Fault Refusal :=
  issue (.vredmax c t km d a sc) c s fun s => onMe s (redStrand t true km d a sc)
def execVredmin (c : Common) (t : Ty) (km : KReg) (d : SReg) (a : VReg) (sc : SReg) (s : State) : Host.Outcome State Fault Refusal :=
  issue (.vredmin c t km d a sc) c s fun s => onMe s (redStrand t false km d a sc)

/-! ### Permutes, slides, extraction and broadcast (spec/07 R150-R153) -/

/-- Lane of VPERM for an index. -/
def permLane (t : Ty) (t2 : Bool) (a e : Vec) (idx : Nat) : Nat :=
  if idx = 2 ^ t.width - 1 then 0
  else if idx < t.lanes then lane a t.width idx
  else if t2 ∧ idx < 2 * t.lanes then lane e t.width (idx - t.lanes)
  else 0

def execVperm (c : Common) (t2 : Bool) (t : Ty) (mz : Bool) (km : KReg) (d a b e : VReg) (s : State) :=
  vop (.vperm c t2 t mz km d a b e) c t mz km d (fun x j => permLane t t2 (getV x a) (getV x e) (lane (getV x b) t.width j)) s

/-- The value that VBCAST gives every lane. -/
def bcastVal (op : BcastOp) (t : Ty) (x : Strand) : Nat :=
  match op with
  | .reg a => bits (getS x a).toNat 0 t.width
  | .imm v => bits v.toNat 0 t.width
  | .lane a l => lane (getV x a) t.width l.toNat

def execVbcast (c : Common) (op : BcastOp) (t : Ty) (mz : Bool) (km : KReg) (d : VReg) (s : State) :=
  vop (.vbcast c op t mz km d) c t mz km d (fun x _ => bcastVal op t x) s

/-- Lane `j` of VSLIDE. -/
def slideLane (up : Bool) (t : Ty) (a b : Vec) (m j : Nat) : Nat :=
  let n := t.lanes
  let lo := if up then b else a
  let hi := if up then a else b
  let at_ (p : Nat) : Nat := if p < n then lane lo t.width p else if p < 2 * n then lane hi t.width (p - n) else 0
  if up then (if n + j < m then 0 else at_ (n + j - m)) else at_ (j + m)

def execVslide (c : Common) (up : Bool) (t : Ty) (mz : Bool) (km : KReg) (d a b : VReg) (sc : SReg) (s : State) :=
  vop (.vslide c up t mz km d a b sc) c t mz km d (fun x j => slideLane up t (getV x a) (getV x b) (getS x sc).toNat j) s

def execVext (c : Common) (t : Ty) (d : SReg) (a : VReg) (b : SReg) (s : State) : Host.Outcome State Fault Refusal :=
  issue (.vext c t d a b) c s fun s => onMe s fun x =>
    let l := (getS x b).toNat
    setS x d (if l < t.lanes then extend t (lane (getV x a) t.width l) else 0)

def execVins (c : Common) (t : Ty) (d : VReg) (a b : SReg) (s : State) : Host.Outcome State Fault Refusal :=
  issue (.vins c t d a b) c s fun s => onMe s fun x =>
    let l := (getS x b).toNat
    if l < t.lanes then setV x d (setLane (getV x d) t.width l (bits (getS x a).toNat 0 t.width)) else x

/-! ### Distances (spec/07 R157, R158) -/

/-- Contribution of one element. -/
def distTerm (fn : DistFn) (t : Ty) (a b : Nat) : Int :=
  match fn with
  | .l2 => (intOf t a - intOf t b) * (intOf t a - intOf t b)
  | .ip => intOf t a * intOf t b
  | .ham => if a = b then 0 else 1

/-- The exact sum of a group of elements. -/
def distGroup (fn : DistFn) (t : Ty) (m : Word) (a b : Vec) (size g : Nat) : Int :=
  (upFrom (g * size) size).foldl (fun n j => if laneOn m t j then n + distTerm fn t (lane a t.width j) (lane b t.width j) else n) 0

/-- Lane `g` of VDIST before clamping, none for a lane past the groups. -/
def distLane (fn : DistFn) (t : Ty) (acc : Bool) (gs : Nat) (m : Word) (old a b : Vec) (g : Nat) : Option Int :=
  let size := if fn = .ham then 8 * 2 ^ gs else 2 ^ gs
  if t.lanes / size ≤ g then none
  else some (distGroup fn t m a b size g + (if acc then intOf .s32 (lane old 32 g) else 0))

def execVdist (c : Common) (fn : DistFn) (t : Ty) (acc : Bool) (gs : BitVec 3) (km ok : KReg) (d a b : VReg) (s : State) :
    Host.Outcome State Fault Refusal :=
  issue (.vdist c fn t acc gs km ok d a b) c s fun s => onMe s fun x =>
    let f := distLane fn t acc gs.toNat (getK x km) (getV x d) (getV x a) (getV x b)
    let v := ofLanes 32 ((upFrom 0 16).map fun g =>
      match f g with
      | none => if acc then lane (getV x d) 32 g else 0
      | some n => reduceInt .s32 true n)
    let o := maskOf 16 fun g =>
      match f g with
      | none => false
      | some n => decide (Ty.hi .s32 < n) || decide (n < Ty.lo .s32)
    setK (setV x d v) ok o

/-! ### The table unit (spec/07 R159-R164) -/

/-- A request enters its strand's FIFO; a full FIFO holds it. -/
def execVtab (c : Common) (t : Ty) (mz : Bool) (km : KReg) (tb : BitVec 2) (d a : VReg) (s : State) : Host.Outcome State Fault Refusal :=
  issue (.vtab c t mz km tb d a) c s fun s =>
    if 4 ≤ (me s).vtabQ.length then .hold
    else .queued (modMe s fun x =>
      { x with vtabQ := x.vtabQ ++ [⟨t, mz, getK x km, tb, d, getV x a, c.set, (myCore s).issueNo, namesBank (.vtab c t mz km tb d a)⟩] })

/-- The last entry whose x does not lie above a value; the first entry where there is none. -/
def tabEntry (v : Val) : List TabEntry → Option TabEntry → Option TabEntry
  | [], best => best
  | e :: r, best =>
      let x := decodeF fmtF32 e.x.toNat
      tabEntry v r (if ltV x v || eqV x v then some e else best)

/-- One lane of VTAB. -/
def tabLane (t : Ty) (tab : List TabEntry) (x : Nat) : Nat :=
  let f := fmtOf t
  if isNan f x then f.nan
  else
    match tabEntry (decodeF f x) tab tab.head? with
    | none => f.nan
    | some e => encodeF f (addV (mulV (decodeF fmtF32 e.a.toNat) (decodeF f x)) (decodeF fmtF32 e.b.toNat))

/-- Can a strand's head request be served: no load of its table that precedes it is incomplete (spec/07 R162, R163)? -/
def headReady (s : State) (core k : Nat) : Bool :=
  match (getStrand s k).vtabQ with
  | [] => false
  | q :: _ => !((getCore s core).tabLoads.any fun l => l.tb == q.tb && decide (l.order < q.order))

/-- The strand whose head request the table unit serves next. -/
def nextTable (s : State) (core : Nat) : Option Nat :=
  ((upFrom 1 4).map fun n => 4 * core + ((getCore s core).vtabLast + n) % 4).find? (headReady s core)

/-- The table unit serves one request and lands its result. -/
def execVtabService (core : CoreId) (s : State) : Host.Outcome State Fault Refusal :=
  match nextTable s core with
  | none => .next s
  | some k =>
    match (getStrand s k).vtabQ with
    | [] => .next s
    | q :: r =>
        let tab := mget [] (getCore s core).tables q.tb.toNat
        let s := modStrand s k fun x =>
          let x := { x with vtabQ := r }
          let x := setV x q.dst (mapLanes q.ty q.mask q.mz (getV x q.dst) fun j => tabLane q.ty tab (lane q.src q.ty.width j))
          if q.ctr = 7 then x else setD x q.ctr.toNat (getD x q.ctr.toNat - 1)
        .next (modCore s core fun y => { y with vtabLast := strandNo k })

/-! ### VSTRM (spec/07 R165-R168) -/

/-- The progress that RESUME holds for a streaming instruction. -/
def streamDone (x : Strand) : Nat := if bits x.resume.toNat 56 8 = 0x7D then bits x.resume.toNat 0 48 else 0
def streamResume (n : Nat) : Word := BitVec.ofNat 64 (0x7D * 2 ^ 56 + n)

/-- The source TSR's own conditions (spec/02 R42; log 22). -/
def streamSrcOk (r : BitVec 512) : Bool := tsrCode r != 12 && tsrCode r != 13

/-- The conditions of R166 on the two records. -/
def streamOk (t : Ty) (mw : Nat) (a b : BitVec 512) : Bool :=
  tsrNdm a == tsrNdm b && tsrSizes a == tsrSizes b && tsrCode a != 14 && tsrCode a != 15
  && tsrCode b == t.code && tsrMw b == mw && decide (tsrCode b ≤ 11)
  && (!(tsrTy b).isBlock || (tsrBax b == 0 && tsrSpn b == 0)) && decide (tsrTotal b < 2 ^ 48)

def execVstrm (c : Common) (axpy : Bool) (t : Ty) (mw : BitVec 4) (das sas : Space) (sa sb sc : SReg) (s : State) :
    Host.Outcome State Fault Refusal :=
  let i : Instr := .vstrm c axpy t mw das sas sa sb sc
  issue i c s fun s =>
    let x := me s
    let a := strandActor s s.cur
    ofAcc (readTsrAny s a sas (getS x sa).toNat streamSrcOk) fun p =>
    ofAcc (readTsr p.2 a das (getS x sb).toNat fun _ => true) fun q =>
      if !streamOk t mw.toNat p.1 q.1 then .trap 9 (getS x sb).toNat
      else
        let n := streamDone x
        if tsrTotal q.1 ≤ n then onMe q.2 fun x => { x with resume := 0 }
        else .start (modMe q.2 fun x =>
          { x with
            resume := streamResume n
            long := some ⟨i, p.1, q.1, stNanm x, stWte x, 0, 0, getS x sc, [], 0, none, (myCore s).issueNo⟩ })

/-- Elements of a chunk: those of its row from its first one. -/
def chunkIdx (ix : List Nat) (size0 : Nat) : List (List Nat) :=
  let i := lget 0 ix 0
  (upFrom i (min 32 (size0 - i))).map fun j => lset ix 0 j

/-- Values of a chunk: each source element, and each destination element of AXPY, all admitted before anything is written. -/
def chunkVals (s : State) (a : Actor) (axpy : Bool) (f : Val) (src dst : BitVec 512) : List (List Nat) → Acc (List Val × State)
  | [] => .ok ([], s)
  | ix :: r =>
    match readVal s a src ix with
    | .ok (v, s) =>
      match (if axpy then readVal s a dst ix else .ok (zeroV, s)) with
      | .ok (d, s) =>
        match (if (tsrTy dst).isBlock then .ok () else
            match locate s a (tsrMas dst) (elemAddr dst ix) (elemBytes (tsrTy dst)) (elemBytes (tsrTy dst)) .write with
            | .ok _ => Acc.ok ()
            | .fault c t => .fault c t
            | .wait b => .wait b) with
        | .ok _ =>
          match chunkVals s a axpy f src dst r with
          | .ok (l, s) => .ok ((if axpy then addV (mulV f v) d else v) :: l, s)
          | .fault c t => .fault c t
          | .wait b => .wait b
        | .fault c t => .fault c t
        | .wait b => .wait b
      | .fault c t => .fault c t
      | .wait b => .wait b
    | .fault c t => .fault c t
    | .wait b => .wait b

/-- Write the elements of a chunk of an ordinary type. -/
def chunkWrite (s : State) (a : Actor) (dst : BitVec 512) : List (List Nat) → List Val → Acc State
  | ix :: r, v :: vs =>
    match storeElem s a (tsrMas dst) (elemAddr dst ix) (elemBytes (tsrTy dst)) (elemOf (tsrTy dst) v) with
    | .ok s => chunkWrite s a dst r vs
    | .fault c t => .fault c t
    | .wait b => .wait b
  | _, _ => .ok s

/-- One chunk: its values, then its writes; the number of elements replaced goes to NANCNT. -/
def streamChunk (s : State) (k : Nat) (a : Actor) (axpy nanm : Bool) (f : Val) (src dst : BitVec 512) (l : List (List Nat)) : Acc State :=
  if (tsrTy dst).isBlock then
    let g := groupOf dst (l.headD []) (lget 0 (l.headD []) 0 / 32)
    match chunkVals s a axpy f src dst (l.take 1) with
    | .ok _ =>
      match checkGroup s a dst g with
      | .ok _ =>
        match chunkVals s a axpy f src dst l with
        | .ok (vs, s) =>
            let r := formGroup nanm (tsrMw dst) (padGroup vs)
            writeGroup (countNan s k r.count) a dst g r.g
        | .fault c t => .fault c t
        | .wait b => .wait b
      | .fault c t => .fault c t
      | .wait b => .wait b
    | .fault c t => .fault c t
    | .wait b => .wait b
  else
    match chunkVals s a axpy f src dst l with
    | .ok (vs, s) => chunkWrite s a dst l vs
    | .fault c t => .fault c t
    | .wait b => .wait b

/-- Is a long instruction a VSTRM, and does it accumulate? -/
def axpyOf (i : Instr) : Option Bool :=
  match i with
  | .vstrm _ axpy .. => some axpy
  | _ => none

/-- The next chunk of a strand's VSTRM; at the boundary before it a kill and an interrupt stop the instruction. -/
def execVstrmChunk (k : StrandId) (s : State) : Host.Outcome State Fault Refusal :=
  let x := getStrand s k
  match x.long with
  | none => .next s
  | some l =>
    match axpyOf l.i with
    | none => .next s
    | some axpy =>
      if !mayRun s k then .next s
      else
      match leavePoint s k with
      | some s => .next s
      | none =>
        let dst := l.tsrB
        let z := tsrSizes dst
        let n := streamDone x
        let first := n - lget 0 (idxOf z n) 0 % 32
        let ix := chunkIdx (idxOf z first) (lget 0 z 0)
        match streamChunk s k (strandActor s k) axpy l.nanm (decodeF fmtF32 (bits l.x.toNat 0 32)) l.tsrA dst ix with
        | .ok s =>
            let m := first + ix.length
            if tsrTotal dst ≤ m then .next (finishLong s k l)
            else .next (modStrand s k fun x => { x with resume := streamResume m })
        | .fault c t => .next (faultLong s k c t)
        | .wait b => .next (wakeBank s b)

end Sys2Proof.Machine
end

