-- ==== Sys2Proof/Machine/Dispatch.lean ====
section
/-!
DEFINITION. The meaning of every constructor of Instr: one arm each, one direct call of its meaning.
-/
namespace Sys2Proof.Machine

def exec (i : Instr) (s : State) : Host.Outcome State Fault Refusal :=
  match i with
  | .add c dst sa sb => Sys2Proof.Machine.execAdd c dst sa sb s
  | .sub c dst sa sb => Sys2Proof.Machine.execSub c dst sa sb s
  | .mul c dst sa sb => Sys2Proof.Machine.execMul c dst sa sb s
  | .mulh c dst sa sb => Sys2Proof.Machine.execMulh c dst sa sb s
  | .mulhz c dst sa sb => Sys2Proof.Machine.execMulhz c dst sa sb s
  | .div c dst sa sb => Sys2Proof.Machine.execDiv c dst sa sb s
  | .divz c dst sa sb => Sys2Proof.Machine.execDivz c dst sa sb s
  | .rem c dst sa sb => Sys2Proof.Machine.execRem c dst sa sb s
  | .remz c dst sa sb => Sys2Proof.Machine.execRemz c dst sa sb s
  | .divT c op dst sa sb => Sys2Proof.Machine.execDivT c op dst sa sb s
  | .addx c idx sh dst sa sb => Sys2Proof.Machine.execAddx c idx sh dst sa sb s
  | .and c dst sa sb => Sys2Proof.Machine.execAnd c dst sa sb s
  | .or c dst sa sb => Sys2Proof.Machine.execOr c dst sa sb s
  | .xor c dst sa sb => Sys2Proof.Machine.execXor c dst sa sb s
  | .shl c dst sa sb => Sys2Proof.Machine.execShl c dst sa sb s
  | .shr c dst sa sb => Sys2Proof.Machine.execShr c dst sa sb s
  | .sra c dst sa sb => Sys2Proof.Machine.execSra c dst sa sb s
  | .min c dst sa sb => Sys2Proof.Machine.execMin c dst sa sb s
  | .max c dst sa sb => Sys2Proof.Machine.execMax c dst sa sb s
  | .minz c dst sa sb => Sys2Proof.Machine.execMinz c dst sa sb s
  | .maxz c dst sa sb => Sys2Proof.Machine.execMaxz c dst sa sb s
  | .clz c dst sa => Sys2Proof.Machine.execClz c dst sa s
  | .ctz c dst sa => Sys2Proof.Machine.execCtz c dst sa s
  | .popc c dst sa => Sys2Proof.Machine.execPopc c dst sa s
  | .bswap c wd dst sa => Sys2Proof.Machine.execBswap c wd dst sa s
  | .sext c wd dst sa => Sys2Proof.Machine.execSext c wd dst sa s
  | .zext c wd dst sa => Sys2Proof.Machine.execZext c wd dst sa s
  | .mov c op => Sys2Proof.Machine.execMov c op s
  | .sel c dst sa sb gs ns => Sys2Proof.Machine.execSel c dst sa sb gs ns s
  | .cmp c cond pt sa sb pf => Sys2Proof.Machine.execCmp c cond pt sa sb pf s
  | .addi c dst sa imm => Sys2Proof.Machine.execAddi c dst sa imm s
  | .andi c dst sa imm => Sys2Proof.Machine.execAndi c dst sa imm s
  | .ori c dst sa imm => Sys2Proof.Machine.execOri c dst sa imm s
  | .xori c dst sa imm => Sys2Proof.Machine.execXori c dst sa imm s
  | .cmpi c cond pt sa pf imm => Sys2Proof.Machine.execCmpi c cond pt sa pf imm s
  | .shli c dst sa amt => Sys2Proof.Machine.execShli c dst sa amt s
  | .shri c dst sa amt => Sys2Proof.Machine.execShri c dst sa amt s
  | .srai c dst sa amt => Sys2Proof.Machine.execSrai c dst sa amt s
  | .li c dst imm => Sys2Proof.Machine.execLi c dst imm s
  | .fadd c dst sa sb => Sys2Proof.Machine.execFadd c dst sa sb s
  | .fsub c dst sa sb => Sys2Proof.Machine.execFsub c dst sa sb s
  | .fmul c dst sa sb => Sys2Proof.Machine.execFmul c dst sa sb s
  | .ffma c dst sa sb sc => Sys2Proof.Machine.execFfma c dst sa sb sc s
  | .fmin c dst sa sb => Sys2Proof.Machine.execFmin c dst sa sb s
  | .fmax c dst sa sb => Sys2Proof.Machine.execFmax c dst sa sb s
  | .fcmp c cond pt sa sb pf => Sys2Proof.Machine.execFcmp c cond pt sa sb pf s
  | .fcvt c src ty dst sa => Sys2Proof.Machine.execFcvt c src ty dst sa s
  | .pand c dst sa sb na nb => Sys2Proof.Machine.execPand c dst sa sb na nb s
  | .por c dst sa sb na nb => Sys2Proof.Machine.execPor c dst sa sb na nb s
  | .pxor c dst sa sb na nb => Sys2Proof.Machine.execPxor c dst sa sb na nb s
  | .pmov c op => Sys2Proof.Machine.execPmov c op s
  | .br c ofs => Sys2Proof.Machine.execBr c ofs s
  | .jmp c sa ofs => Sys2Proof.Machine.execJmp c sa ofs s
  | .jal c dst ofs => Sys2Proof.Machine.execJal c dst ofs s
  | .jr c dst sa => Sys2Proof.Machine.execJr c dst sa s
  | .loop c src stg smod body => Sys2Proof.Machine.execLoop c src stg smod body s
  | .nop c => Sys2Proof.Machine.execNop c s
  | .endStrand c => Sys2Proof.Machine.execEndStrand c s
  | .yield c n => Sys2Proof.Machine.execYield c n s
  | .ld c ty as dst sa ofs => Sys2Proof.Machine.execLd c ty as dst sa ofs s
  | .st c ty as dst sa ofs => Sys2Proof.Machine.execSt c ty as dst sa ofs s
  | .ldv c m ty as km dst sa ofs => Sys2Proof.Machine.execLdv c m ty as km dst sa ofs s
  | .stv c ty as km dst sa ofs => Sys2Proof.Machine.execStv c ty as km dst sa ofs s
  | .ldg c ty dst sa sb sc x => Sys2Proof.Machine.execLdg c ty dst sa sb sc x s
  | .stg c ty dst sa sb sc x => Sys2Proof.Machine.execStg c ty dst sa sb sc x s
  | .pref c dst sa sb ofs => Sys2Proof.Machine.execPref c dst sa sb ofs s
  | .wb c sa sb => Sys2Proof.Machine.execWb c sa sb s
  | .inv c sa sb => Sys2Proof.Machine.execInv c sa sb s
  | .icinv c scope sa sb => Sys2Proof.Machine.execIcinv c scope sa sb s
  | .vadd c ty mz sat km dst sa sb => Sys2Proof.Machine.execVadd c ty mz sat km dst sa sb s
  | .vsub c ty mz sat km dst sa sb => Sys2Proof.Machine.execVsub c ty mz sat km dst sa sb s
  | .vmul c ty mz sat km dst sa sb => Sys2Proof.Machine.execVmul c ty mz sat km dst sa sb s
  | .vmad c ty mz sat km dst sa sb sc => Sys2Proof.Machine.execVmad c ty mz sat km dst sa sb sc s
  | .vmin c ty mz km dst sa sb => Sys2Proof.Machine.execVmin c ty mz km dst sa sb s
  | .vmax c ty mz km dst sa sb => Sys2Proof.Machine.execVmax c ty mz km dst sa sb s
  | .vabs c ty mz sat km dst sa => Sys2Proof.Machine.execVabs c ty mz sat km dst sa s
  | .vneg c ty mz sat km dst sa => Sys2Proof.Machine.execVneg c ty mz sat km dst sa s
  | .vand c ty mz km dst sa sb => Sys2Proof.Machine.execVand c ty mz km dst sa sb s
  | .vor c ty mz km dst sa sb => Sys2Proof.Machine.execVor c ty mz km dst sa sb s
  | .vxor c ty mz km dst sa sb => Sys2Proof.Machine.execVxor c ty mz km dst sa sb s
  | .vshl c ty mz km dst sa sb => Sys2Proof.Machine.execVshl c ty mz km dst sa sb s
  | .vshr c ty mz km dst sa sb => Sys2Proof.Machine.execVshr c ty mz km dst sa sb s
  | .vsra c ty mz km dst sa sb => Sys2Proof.Machine.execVsra c ty mz km dst sa sb s
  | .vcmp c cond ty km dst sa sb xk => Sys2Proof.Machine.execVcmp c cond ty km dst sa sb xk s
  | .vsel c ty km dst sa sb => Sys2Proof.Machine.execVsel c ty km dst sa sb s
  | .vcvt c src ty mz hp km dst sa => Sys2Proof.Machine.execVcvt c src ty mz hp km dst sa s
  | .vpack c src mw km es dst sa sb sc => Sys2Proof.Machine.execVpack c src mw km es dst sa sb sc s
  | .vunpack c ty mw mz hp km dst sa sc => Sys2Proof.Machine.execVunpack c ty mw mz hp km dst sa sc s
  | .vredsum c ty sat km dst sa => Sys2Proof.Machine.execVredsum c ty sat km dst sa s
  | .vredmax c ty km dst sa sc => Sys2Proof.Machine.execVredmax c ty km dst sa sc s
  | .vredmin c ty km dst sa sc => Sys2Proof.Machine.execVredmin c ty km dst sa sc s
  | .vperm c t2 ty mz km dst sa sb sc => Sys2Proof.Machine.execVperm c t2 ty mz km dst sa sb sc s
  | .vbcast c op ty mz km dst => Sys2Proof.Machine.execVbcast c op ty mz km dst s
  | .vslide c up ty mz km dst sa sb sc => Sys2Proof.Machine.execVslide c up ty mz km dst sa sb sc s
  | .vext c ty dst sa sb => Sys2Proof.Machine.execVext c ty dst sa sb s
  | .vins c ty dst sa sb => Sys2Proof.Machine.execVins c ty dst sa sb s
  | .vdist c fn ty acc gs km ok dst sa sb => Sys2Proof.Machine.execVdist c fn ty acc gs km ok dst sa sb s
  | .vtab c ty mz km tb dst sa => Sys2Proof.Machine.execVtab c ty mz km tb dst sa s
  | .vtabService core => Sys2Proof.Machine.execVtabService core s
  | .vstrm c axpy ty mw das sas sa sb sc => Sys2Proof.Machine.execVstrm c axpy ty mw das sas sa sb sc s
  | .vstrmChunk k => Sys2Proof.Machine.execVstrmChunk k s
  | .wld c sa was full nw col0 kb0 => Sys2Proof.Machine.execWld c sa was full nw col0 kb0 s
  | .mma c dst sa aas kb0 row0 nrow => Sys2Proof.Machine.execMma c dst sa aas kb0 row0 nrow s
  | .mmaG c dst sa sb aas was kb0 row0 col0 nrow ncol nkb => Sys2Proof.Machine.execMmaG c dst sa sb aas was kb0 row0 col0 nrow ncol nkb s
  | .blockStep k => Sys2Proof.Machine.execBlockStep k s
  | .mmaGRendezvous k => Sys2Proof.Machine.execMmaGRendezvous k s
  | .accz c dst => Sys2Proof.Machine.execAccz c dst s
  | .accrd c ty mw sa sb das dcol drow => Sys2Proof.Machine.execAccrd c ty mw sa sb das dcol drow s
  | .accexpRd c dst sa => Sys2Proof.Machine.execAccexpRd c dst sa s
  | .accexpAl c dst sa => Sys2Proof.Machine.execAccexpAl c dst sa s
  | .walki c dst sa sb sc aas maxd row0 nr => Sys2Proof.Machine.execWalki c dst sa sb sc aas maxd row0 nr s
  | .walk c sa sb sc aas maxd row0 => Sys2Proof.Machine.execWalk c sa sb sc aas maxd row0 s
  | .walkRound k => Sys2Proof.Machine.execWalkRound k s
  | .walkStagingFetch k chunk => Sys2Proof.Machine.execWalkStagingFetch k chunk s
  | .amo c fn ty scope as ofs dst sa sb => Sys2Proof.Machine.execAmo c fn ty scope as ofs dst sa sb s
  | .reductionMerge a b => Sys2Proof.Machine.execReductionMerge a b s
  | .cas c ty scope as dst sa sb sc => Sys2Proof.Machine.execCas c ty scope as dst sa sb sc s
  | .fence c scope half => Sys2Proof.Machine.execFence c scope half s
  | .bind c sa sb sc => Sys2Proof.Machine.execBind c sa sb sc s
  | .unbind c sa sb sc => Sys2Proof.Machine.execUnbind c sa sb sc s
  | .acq c sa => Sys2Proof.Machine.execAcq c sa s
  | .acqV c sa => Sys2Proof.Machine.execAcqV c sa s
  | .rel c sa => Sys2Proof.Machine.execRel c sa s
  | .relV c sa => Sys2Proof.Machine.execRelV c sa s
  | .evwait c dst sa => Sys2Proof.Machine.execEvwait c dst sa s
  | .evwaitPk c dst sa => Sys2Proof.Machine.execEvwaitPk c dst sa s
  | .evsig c sa sb => Sys2Proof.Machine.execEvsig c sa sb s
  | .evsigClr c sa sb => Sys2Proof.Machine.execEvsigClr c sa sb s
  | .bar c scope sa sb => Sys2Proof.Machine.execBar c scope sa sb s
  | .send c dst sa sb tmo => Sys2Proof.Machine.execSend c dst sa sb tmo s
  | .sendTimeout k => Sys2Proof.Machine.execSendTimeout k s
  | .recv c dst sa sb tmo => Sys2Proof.Machine.execRecv c dst sa sb tmo s
  | .recvTimeout k => Sys2Proof.Machine.execRecvTimeout k s
  | .rdrem c dst sa sc ofs tmo => Sys2Proof.Machine.execRdrem c dst sa sc ofs tmo s
  | .rdremTimeout k => Sys2Proof.Machine.execRdremTimeout k s
  | .waitseq c eng sa => Sys2Proof.Machine.execWaitseq c eng sa s
  | .copy c dst sa as => Sys2Proof.Machine.execCopy c dst sa as s
  | .copyChunk cl idx => Sys2Proof.Machine.execCopyChunk cl idx s
  | .copyComplete cl idx => Sys2Proof.Machine.execCopyComplete cl idx s
  | .tkopen c fn dst sa => Sys2Proof.Machine.execTkopen c fn dst sa s
  | .tkpush c sa sb km sc => Sys2Proof.Machine.execTkpush c sa sb km sc s
  | .tkdrain c dst sa sb as => Sys2Proof.Machine.execTkdrain c dst sa sb as s
  | .tkdrainCl c dst sa sb as => Sys2Proof.Machine.execTkdrainCl c dst sa sb as s
  | .topkDrainComplete cl idx => Sys2Proof.Machine.execTopkDrainComplete cl idx s
  | .tabld c dst sa as tb => Sys2Proof.Machine.execTabld c dst sa as tb s
  | .tableLoadComplete core uncorrected => Sys2Proof.Machine.execTableLoadComplete core uncorrected s
  | .tspawn c sa => Sys2Proof.Machine.execTspawn c sa s
  | .tdone c => Sys2Proof.Machine.execTdone c s
  | .tdoneR c => Sys2Proof.Machine.execTdoneR c s
  | .taskDeal cl ctx => Sys2Proof.Machine.execTaskDeal cl ctx s
  | .taskReadyNotice cl tcb => Sys2Proof.Machine.execTaskReadyNotice cl tcb s
  | .copyTaskHandoff cl => Sys2Proof.Machine.execCopyTaskHandoff cl s
  | .emptyCardRetire cl => Sys2Proof.Machine.execEmptyCardRetire cl s
  | .tdep c sa imm => Sys2Proof.Machine.execTdep c sa imm s
  | .tcard c dst => Sys2Proof.Machine.execTcard c dst s
  | .jopen c sa => Sys2Proof.Machine.execJopen c sa s
  | .jenter c sa sb => Sys2Proof.Machine.execJenter c sa sb s
  | .jcont c s32 sa sb km => Sys2Proof.Machine.execJcont c s32 sa sb km s
  | .jarrive c dst => Sys2Proof.Machine.execJarrive c dst s
  | .joinDeadline rec => Sys2Proof.Machine.execJoinDeadline rec s
  | .childJoinArrival rec => Sys2Proof.Machine.execChildJoinArrival rec s
  | .stallCredit idx => Sys2Proof.Machine.execStallCredit idx s
  | .jwait c dst sa sb tmo => Sys2Proof.Machine.execJwait c dst sa sb tmo s
  | .jwaitTimeout k => Sys2Proof.Machine.execJwaitTimeout k s
  | .jclose c sa => Sys2Proof.Machine.execJclose c sa s
  | .jcloseF c sa => Sys2Proof.Machine.execJcloseF c sa s
  | .killDelivery idx => Sys2Proof.Machine.execKillDelivery idx s
  | .killTaken k => Sys2Proof.Machine.execKillTaken k s
  | .copyKill cl idx => Sys2Proof.Machine.execCopyKill cl idx s
  | .childJoinKill rec => Sys2Proof.Machine.execChildJoinKill rec s
  | .trace c code sa sb => Sys2Proof.Machine.execTrace c code sa sb s
  | .mfc c dst cr => Sys2Proof.Machine.execMfc c dst cr s
  | .mtc c sa cr => Sys2Proof.Machine.execMtc c sa cr s
  | .trap c code => Sys2Proof.Machine.execTrap c code s
  | .tret c => Sys2Proof.Machine.execTret c s
  | .tlbinvAll c sa sb => Sys2Proof.Machine.execTlbinvAll c sa sb s
  | .tlbinvPg c sa sb => Sys2Proof.Machine.execTlbinvPg c sa sb s
  | .bkpt c code => Sys2Proof.Machine.execBkpt c code s
  | .slotwMat c sa => Sys2Proof.Machine.execSlotwMat c sa s
  | .slotwCpy c sa => Sys2Proof.Machine.execSlotwCpy c sa s
  | .slotwTku c sa => Sys2Proof.Machine.execSlotwTku c sa s
  | .instructionFetch k => Sys2Proof.Machine.execInstructionFetch k s
  | .resultLands k => Sys2Proof.Machine.execResultLands k s
  | .interruptTaken k => Sys2Proof.Machine.execInterruptTaken k s
  | .vbankRetention core => Sys2Proof.Machine.execVbankRetention core s
  | .vbankWake core => Sys2Proof.Machine.execVbankWake core s
  | .stepGrant core => Sys2Proof.Machine.execStepGrant core s
  | .cacheEviction u line => Sys2Proof.Machine.execCacheEviction u line s
  | .lqtail ctx v => Sys2Proof.Machine.execLqtail ctx v s
  | .dbell ctx v => Sys2Proof.Machine.execDbell ctx v s
  | .cqhead ctx v => Sys2Proof.Machine.execCqhead ctx v s
  | .launchStart ctx => Sys2Proof.Machine.execLaunchStart ctx s
  | .launchComplete idx => Sys2Proof.Machine.execLaunchComplete idx s
  | .save ctx => Sys2Proof.Machine.execSave ctx s
  | .restore ctx => Sys2Proof.Machine.execRestore ctx s
  | .discard ctx => Sys2Proof.Machine.execDiscard ctx s
  | .ownerByteWrite cl off v => Sys2Proof.Machine.execOwnerByteWrite cl off v s
  | .registerWrite pa v => Sys2Proof.Machine.execRegisterWrite pa v s
  | .trcfg t v => Sys2Proof.Machine.execTrcfg t v s
  | .trrd t v => Sys2Proof.Machine.execTrrd t v s
  | .traceReservation idx => Sys2Proof.Machine.execTraceReservation idx s
  | .losslessRetry idx => Sys2Proof.Machine.execLosslessRetry idx s
  | .longwait k => Sys2Proof.Machine.execLongwait k s
  | .haltreq cl => Sys2Proof.Machine.execHaltreq cl s
  | .runreq cl => Sys2Proof.Machine.execRunreq cl s
  | .dmStep cl => Sys2Proof.Machine.execDmStep cl s
  | .crossTrigger => Sys2Proof.Machine.execCrossTrigger s
  | .dmpc cl v => Sys2Proof.Machine.execDmpc cl v s
  | .dmdataLoad cl => Sys2Proof.Machine.execDmdataLoad cl s
  | .dmdataStore cl v => Sys2Proof.Machine.execDmdataStore cl v s
  | .dmicl cl v => Sys2Proof.Machine.execDmicl cl v s
  | .rmBegin => Sys2Proof.Machine.execRmBegin s
  | .rmChunk clen => Sys2Proof.Machine.execRmChunk clen s
  | .rmCommit => Sys2Proof.Machine.execRmCommit s
  | .rmAbort => Sys2Proof.Machine.execRmAbort s
  | .powerUp x => Sys2Proof.Machine.execPowerUp x s
  | .linkTraining unit x => Sys2Proof.Machine.execLinkTraining unit x s
  | .dis unit v => Sys2Proof.Machine.execDis unit v s
  | .cascadeFlit port header body crcOk room => Sys2Proof.Machine.execCascadeFlit port header body crcOk room s
  | .flitRetry flow => Sys2Proof.Machine.execFlitRetry flow s
  | .deviceUnreachable dev => Sys2Proof.Machine.execDeviceUnreachable dev s
  | .cxlMemRequest write pa n data => Sys2Proof.Machine.execCxlMemRequest write pa n data s
  | .cxlSnoop cl line => Sys2Proof.Machine.execCxlSnoop cl line s
  | .roceRequest x => Sys2Proof.Machine.execRoceRequest x s
  | .roceAckTimeout qp => Sys2Proof.Machine.execRoceAckTimeout qp s
  | .cnp qp => Sys2Proof.Machine.execCnp qp s
  | .ethernetFrame port frame => Sys2Proof.Machine.execEthernetFrame port frame s
  | .sync source offset => Sys2Proof.Machine.execSync source offset s
  | .ppsEdge => Sys2Proof.Machine.execPpsEdge s
  | .announceTimeout => Sys2Proof.Machine.execAnnounceTimeout s
  | .patrolScrub line corrected => Sys2Proof.Machine.execPatrolScrub line corrected s
  | .correctedError x => Sys2Proof.Machine.execCorrectedError x s
  | .uncorrectedError x who => Sys2Proof.Machine.execUncorrectedError x who s
  | .fatalClusterError cl => Sys2Proof.Machine.execFatalClusterError cl s
  | .rascnt k v => Sys2Proof.Machine.execRascnt k v s
  | .spdmRequest x => Sys2Proof.Machine.execSpdmRequest x s
  | .laneLoss unit lanes => Sys2Proof.Machine.execLaneLoss unit lanes s
  | .icbusyClear cl => Sys2Proof.Machine.execIcbusyClear cl s
  | .rateRecovery qp => Sys2Proof.Machine.execRateRecovery qp s

end Sys2Proof.Machine
end

