-- ==== Sys2Proof/Machine/Agenda.lean ====
section
/-!
DEFINITION. Which agent moves next, the passage of time, and what a strand does when it moves (spec/00 R5, spec/04 R79, spec/05 R110, spec/09 R226,
spec/21 R341, R361; log 4, 5, 8, 10).
-/
namespace Sys2Proof.Machine

/-! ### Time (spec/00 R5, spec/21 R341; log 5) -/

/-- The part of a clock correction that the oscillator's units from `o` to `o + u` allow: 1 unit in 1,000. -/
def slewBy (o u : Nat) (slew : Int) : Int :=
  let k : Int := ((o + u) / 1000 - o / 1000 : Nat)
  max (-k) (min k slew)

/-- A die's time, a 63-bit count, after `u` units of its oscillator and the part `d` of a correction. -/
def tickDie (u : Nat) (d : Int) (t : Nat) : Nat := (t + u + d).toNat % 2 ^ 63

/-- Some cycles pass in which nothing else happens. -/
def advanceTime (s : State) (dt : Nat) : State :=
    let u := cycleUnits (s.cycle + dt) - cycleUnits s.cycle
    let d := slewBy (cycleUnits s.cycle) u s.ptp.slew
    { s with
      cycle := s.cycle + dt
      time := (upFrom 0 4).foldl (fun m i => mset 0 m i (tickDie u d (dieTime s i))) s.time
      ptp := { s.ptp with slew := s.ptp.slew - d } }

/-- Time of the die of a join's home after some cycles. -/
def homeAfter (s : State) (j : JoinInst) (dt : Nat) : Nat :=
  let u := cycleUnits (s.cycle + dt) - cycleUnits s.cycle
  tickDie u (slewBy (cycleUnits s.cycle) u s.ptp.slew) (homeTime s j.key)

/-- The effective deadline of an OPEN join that has one (spec/15 R299). -/
def deadlineOf (s : State) (j : JoinInst) : Option Nat :=
  let dl := swField j 128 63
  if j.state = 1 ∧ dl ≠ 0 then some (dl + if swField j 53 1 = 1 then recField s j.key 192 64 else 0) else none

/-- The least number of cycles in `lo + 1` to `hi` after which a deadline has passed; it has after `hi`. The fuel halves the range. -/
def leastCycles (s : State) (j : JoinInst) (dl : Nat) : Nat → Nat → Nat → Nat
  | 0, _, hi => hi
  | f + 1, lo, hi =>
    if hi ≤ lo + 1 then hi
    else
      let m := (lo + hi) / 2
      if dl ≤ homeAfter s j m then leastCycles s j dl f lo m else leastCycles s j dl f m hi

/-- Cycles within `dt` after which a join's deadline passes. -/
def joinDue (s : State) (dt : Nat) (j : JoinInst) : Option Nat :=
  match deadlineOf s j with
  | some dl => if dl ≤ homeAfter s j dt then some (leastCycles s j dl 64 0 dt) else none
  | none => none

/-- Cycles after which the count of a strand's wait reaches 2^26 (spec/21 R363). -/
def longDue (s : State) (k : Nat) : Option Nat :=
  match (getStrand s k).wait with
  | some w => if w.noted || blockedOp w == 0 || (getStrand s k).frozen.isSome then none else some (w.since + w.paused + 2 ^ 26 - s.cycle)
  | none => none

/-- The joins whose deadline has passed are released as the cycle ends: its requests have come first (spec/15 R299). -/
def releaseDue (s : State) : State :=
  (s.joins.map JoinInst.key).foldl (fun s key =>
    match instAt s key with
    | some j => if deadlinePassed s j then releaseByQmin s key 2 0 else s
    | none => s) s

/-- Cycles up to the next thing that time alone brings about, at most `dt`. -/
def nextHop (s : State) (dt : Nat) : Nat :=
  let due := s.joins.filterMap (joinDue s dt) ++ (listedStrands s).filterMap (longDue s)
  max 1 ((due.filter fun n => n != 0).foldl min dt)

/-- Cycles pass; what time alone brings about happens in its cycle. The fuel counts such things. -/
def passHops : Nat → Nat → State → State
  | 0, dt, s => advanceTime s dt
  | f + 1, dt, s =>
    if dt = 0 then s
    else
      let s := releaseDue s
      let n := min dt (nextHop s dt)
      let s := foldUnits noteLong (listedStrands s) (advanceTime s n)
      passHops f (dt - n) s

/-- Some cycles pass; a vector bank that has been idle for long enough by then is in retention (spec/01 R25). -/
def passTime (s : State) (dt : Nat) : State :=
  if dt = 0 then s
  else
    let s := passHops (s.joins.length + s.strands.length + 1) dt s
    pollAway (foldUnits retainBank (listedCores s) s)

/-! ### A strand moves -/

/-- The next instruction of a strand at its program counter: an interrupt is taken before it issues, unless a kill comes first (spec/04 R75,
spec/09 R226). -/
def issueNext (s : State) (k : Nat) : Host.Outcome State Fault Refusal :=
  match irqLine (getStrand s k) with
  | none =>
      match fetch s k with
      | .instr i t => exec i t
      | .stopped t => .next t
  | some line =>
      if (getStrand s k).vtabQ = [] then
        match fetch s k with
        | .instr i t => if (i.common.map Common.kpt).getD false && killDue (getStrand s k) then exec i t else .next (takeIrq s k line)
        | .stopped _ => .next (takeIrq s k line)
      else .next s

/-- A state without the records that a strand holds: as it were if nothing held it back. -/
def withoutOwn (s : State) (k : Nat) : State := { s with recs := s.recs.filter fun r => !(r.held && r.strand == some k) }

/-- A strand notes its stall (spec/21 R352). -/
def stallOf (s : State) (k : Nat) : State := noteStall s fun r => r.strand == some k

/-- Would a strand that a record holds begin its next step now? -/
def stepHeld (s : State) (k : Nat) (l : Long) : Bool :=
  mayRun (withoutOwn s k) k && ((axpyOf l.i).isSome || granted (withoutOwn s k) (coreOf k) == some k)

/-- The next part of a long instruction, by the unit that performs it. -/
def runLong (s : State) (k : Nat) (l : Long) : Host.Outcome State Fault Refusal :=
  let x := getStrand s k
  if mayRun s k && (irqLine x).isSome && insideIrqPoint x && !killFirst x then execInterruptTaken k s
  else if heldBack s k then .next (if stepHeld s k l then stallOf s k else s)
  else if (axpyOf l.i).isSome then execVstrmChunk k s
  else if (walkArgs l.i).isSome then .next (walkTurn k s)
  else if isGroup l && l.round == 0 then execMmaGRendezvous k s
  else execBlockStep k s

/-- A strand in a blocking wait: an interrupt or a kill ends it, else its instruction looks at its condition again. -/
def runWait (s : State) (k : Nat) (w : Wait) : Host.Outcome State Fault Refusal :=
  let x := getStrand s k
  if mayRun s k && (irqLine x).isSome && breakable w && !killFirst x && x.vtabQ.isEmpty then execInterruptTaken k s
  else exec w.i s

/-- The strand `cur` moves. -/
def moveStrand (s : State) (k : Nat) : Host.Outcome State Fault Refusal :=
  let x := getStrand s k
  if x.run ≠ .running then .next s
  else
    match x.long, x.wait with
    | some l, _ => runLong s k l
    | none, some w => runWait s k w
    | none, none =>
        if mayRun s k then issueNext s k
        else .next s

/-! ### Selection (spec/01 R13) -/

/-- Has a move made core `c` issue an instruction? -/
def issuedBy (s : State) (c : Nat) (r : Host.Outcome State Fault Refusal) : Bool :=
  match r with
  | .next t => (getCore t c).issueNo != (getCore s c).issueNo
  | .fault _ => false
  | .refused _ => false

/-- The strands of a core that come before strand `k` in ascending order after the one that issued last. -/
def strandsAhead (s : State) (k : Nat) : List Nat :=
  ((upFrom 1 4).map fun n => 4 * coreOf k + ((getCore s (coreOf k)).lastIssued + n) % 4).takeWhile fun j => j != k

/-- May the core take an instruction of strand `k` in this cycle: it has issued none in it, and no strand ahead is ready but those whose unit does not accept? -/
def selected (s : State) (k : Nat) (busy : List Nat) : Bool :=
  (getCore s (coreOf k)).issuedAt != s.cycle + 1 &&
    (strandsAhead s k).all fun j => busy.contains j || !issuedBy s (coreOf k) (moveStrand { s with cur := j } j)

/-- Would the strand `cur`, which a record holds, issue in this cycle (spec/21 R352)? -/
def issueHeld (s : State) (k : Nat) (busy : List Nat) : Bool :=
  heldBack s k && (getStrand s k).wait.isNone && (getStrand s k).long.isNone && issuedBy s (coreOf k) (moveStrand (withoutOwn s k) k)
    && selected s k busy

/-- A strand's records that have been produced are reserved before it goes on (spec/21 R349, R354); the fuel counts them. -/
def reserveOwn (k : Nat) : Nat → State → State
  | 0, s => s
  | f + 1, s =>
    match (upFrom 0 s.recs.length).find? fun i => s.recs[i]?.any fun r => r.strand == some k && !r.held && !recBlocked s i r with
    | some i =>
        match s.recs[i]? with
        | some r => reserveOwn k f (reserveRec s i r)
        | none => s
    | none => s

/-- A strand moves; what it would issue it issues where the core selects it. -/
def pickStrand (s : State) (k : Nat) (busy : List Nat) : Host.Outcome State Fault Refusal :=
  let s := reserveOwn k s.recs.length s
  let r := moveStrand s k
  if issueHeld s k busy then .next (stallOf s k)
  else if issuedBy s (coreOf k) r && !selected s k busy then .next s else r

/-- The loads of the next moves are performed at their issue. -/
def clearLate (r : Host.Outcome State Fault Refusal) : Host.Outcome State Fault Refusal :=
  match r with
  | .next t => .next { t with late := false }
  | .fault f => .fault f
  | .refused q => .refused q

/-- The state with which a move of a strand is compared: that after its fetch, where it fetches. -/
def stepBase (s : State) (k : Nat) : State :=
  if mayIssue s k then
    match fetch s k with
    | .instr _ t => t
    | .stopped _ => s
  else s

/-- A strand without its pending kills: one that a kill point merely discards completes nothing. -/
def sansKills (x : Strand) : Strand := { putStatus x 5 false with kills := [] }

/-- Has the step of a strand ended in its move from `s` to `t`: an instruction, a chunk or round, a trap or a wait is complete (spec/21 R361)? -/
def stepOver (s t : State) (k : Nat) : Bool :=
  let a := getStrand (stepBase s k) k
  let b := getStrand t k
  b.wait.isNone && !(a.long.isNone && b.long.isSome) &&
    (sansKills a != sansKills b || (getCore t (coreOf k)).issueNo != (getCore s (coreOf k)).issueNo || mayIssue s k && b.entered && b.vtabQ.isEmpty)

/-- A strand that the debug module steps halts again when its step has ended. -/
def watchStep (s : State) (k : Nat) (r : Host.Outcome State Fault Refusal) : Host.Outcome State Fault Refusal :=
  if (getCluster s (clusterOf k)).dm.stepping = some k then
    match r with
    | .next t => .next (if stepOver s t k then endStep t (clusterOf k) else t)
    | .fault f => .fault f
    | .refused q => .refused q
  else r

/-- Has a device step ended the step of a strand: its wait, its long instruction's part, or a trap? -/
def eventOver (a b : Strand) : Bool :=
  b.wait.isNone && !(a.long.isNone && b.long.isSome) &&
    (a.wait != b.wait || a.long != b.long || a.resume != b.resume || a.run != b.run || b.entered && a.pc != b.pc)

/-- The strand that a cluster steps halts again where a device step from `s` to `t` has ended its step. -/
def watchCluster (s t : State) (cl : Nat) : State :=
  match (getCluster t cl).dm.stepping with
  | some k => if (getCluster s cl).dm.stepping = some k ∧ eventOver (getStrand s k) (getStrand t k) then endStep t cl else t
  | none => t

def watchEvent (s : State) (r : Host.Outcome State Fault Refusal) : Host.Outcome State Fault Refusal :=
  match r with
  | .next t => .next (foldUnits (watchCluster s) (listedClusters t) t)
  | .fault f => .fault f
  | .refused q => .refused q

/-- A strand moves; in a device that has FAILED it does not (spec/22 R380). -/
def runStrand (s : State) (k : Nat) (busy : List Nat) : Host.Outcome State Fault Refusal :=
  if s.mgmt.state = 6 then .fault .deviceFailed
  else
    let s := { s with cur := k }
    watchStep s k (pickStrand s k busy)

/-- An agent moves. -/
def act (who : Agent) (s : State) : Host.Outcome State Fault Refusal :=
  match who with
  | .strand k => runStrand s k []
  | .pick k busy late => clearLate (runStrand { s with late := late } k busy)
  | .lands k i => watchEvent s (.next (landAt s k i))
  | .evictLast o => .next (evictLast s o)
  | .manage m => .next (manage m s)
  | .event i => watchEvent s (exec i s)

/-! ### The choice where the agenda is empty (log 10) -/

/-- What a strand does when its turn comes: its oldest result lands first. -/
def strandTurn (s : State) (k : Nat) : Agent :=
  if !(getStrand s k).inflight.isEmpty || s.reductions.any fun r => r.owners.any fun o => o.strand == k then .event (.resultLands k)
  else .strand k

/-- The device steps of a core. -/
def coreTurns (s : State) (c : Nat) : List Agent :=
  [.event (.vtabService c)] ++ (if (getCore s c).tabLoads.isEmpty then [] else [.event (.tableLoadComplete c false)])
    ++ (if (getCore s c).vmode = 1 then [.event (.vbankRetention c), .event (.vbankWake c)] else [])

/-- The device steps of a cluster. -/
def clusterTurns (s : State) (cl : Nat) : List Agent :=
  let y := getCluster s cl
  ((upFrom 0 y.copies.length).flatMap fun i => [.event (.copyChunk cl i), .event (.copyKill cl i), .event (.copyComplete cl i)])
    ++ ((upFrom 0 y.drains.length).map fun i => .event (.topkDrainComplete cl i))
    ++ (y.notices.map fun n => .event (.taskReadyNotice cl n.key))
    ++ (if y.tasks.isEmpty then [] else [.event (.copyTaskHandoff cl), .event (.emptyCardRetire cl)] ++ (upFrom 0 16).map fun x => .event (.taskDeal cl x))
    ++ (if y.dm.icbusy then [.event (.icbusyClear cl)] else [])

/-- The device steps of a context. -/
def ctxTurns (s : State) (x : Nat) : List Agent :=
  let c := getCtx s x
  (if c.lqhead = c.lqtail then [] else [.event (.launchStart x)])
    ++ (if c.stat = 1 then [.event (if c.cmd = 1 then .save x else if c.cmd = 2 then .restore x else .discard x)] else [])

/-- The steps of the device as a whole. -/
def deviceTurns (s : State) : List Agent :=
  (if s.recs.isEmpty then [] else (upFrom 0 s.recs.length).map fun i => .event (.traceReservation i))
    ++ ((upFrom 0 s.launches.length).map fun i => .event (.launchComplete i))
    ++ (if s.kills.isEmpty then [] else [.event (.killDelivery 0)])
    ++ ((s.kills.filterMap fun m => match m.who with
        | .join key _ => some key
        | _ => none).map fun key => .event (.childJoinKill key))
    ++ (s.childArr.map fun a => .event (.childJoinArrival a.key))
    ++ (if s.stalls.isEmpty then [] else [.event (.stallCredit 0)])
    ++ (s.joins.map fun j => .event (.joinDeadline j.key))
    ++ (if s.xtrig.isEmpty then [] else [.event .crossTrigger])

/-- Every agent that could move, in a fixed order. -/
def turns (s : State) : List Agent :=
  deviceTurns s ++ ((s.ctxs.map Prod.fst).flatMap (ctxTurns s)) ++ ((listedClusters s).flatMap (clusterTurns s))
    ++ ((listedCores s).flatMap (coreTurns s))
    ++ (((listedStrands s).filter fun k => (getStrand s k).run != .absent).map (strandTurn s))

/-- The next agent after the one that moved last, in turn. -/
def nextTurn (s : State) : Option Agent :=
  let l := turns s
  l[(s.lastRun + 1) % l.length]?

end Sys2Proof.Machine
end

