-- ==== Sys2Proof/Machine/Step.lean ====
section
/-!
DEFINITION. One step of the machine, and the placing of one instruction where the next step fetches it.
-/
namespace Sys2Proof.Machine

/-- One step: the head of the agenda moves after the time it names; with an empty agenda the agents move in turn, a cycle apart (log 4, 10). -/
def step (s : State) : Host.Outcome State Fault Refusal :=
  match s.agenda with
  | c :: r => act c.who (passTime { s with agenda := r } c.dt)
  | [] =>
      match nextTurn s with
      | some a => act a (passTime { s with lastRun := (s.lastRun + 1) % (turns s).length } 1)
      | none => .next (passTime s 1)

/-- Address at which `withFetchWord` places an instruction, virtual and physical. -/
def placePc : Nat := 0x10000

/-- Descriptor of the context that runs it: V = 1, tables at 0x1000. -/
def placeDesc : BitVec 512 := 0x1001

/-- Tables that map the first GiB to itself, readable, writable and executable, and the words of the instruction. -/
def placeMem (m : Memory) (v : Nat) : Memory :=
  writeLE (writeLE (writeLE (writeLE m 0x1000 8 0x2001) 0x2000 8 0x3001) 0x3000 8 0x1F) placePc 16 v

/-- Strand 0, stopped for nothing, at the instruction. -/
def placeStrand (x : Strand) : Strand :=
  { x with
    run := .running, pc := BitVec.ofNat 64 placePc, status := x.status &&& 0xFFFFFFFFFFFF0FFF#64 ||| 1#64, loops := [], rbuf := [], rbufOver := false, rbufOk := false, irq := 0, wait := none, long := none, kills := [], vtabQ := [], inflight := [], notBefore := 0 }

/-- A machine whose next step is strand 0's, which fetches and runs the instruction whose bits are `w` (log 6). -/
def State.withFetchWord (s : State) (nbits w : Nat) : State :=
  let s := { s with
    agenda := [⟨0, .strand 0⟩], late := false, mem := placeMem s.mem (w % 2 ^ nbits), poison := [], recs := s.recs.filter fun r => !(r.strand == some 0 && r.held)
    mgmt := { s.mgmt with state := if s.mgmt.state = 6 then 4 else s.mgmt.state } }
  let s := modCore s 0 fun y => { y with
    desc := placeDesc, launch := some 0, owner := some 0, lastIssued := 3, issuedAt := 0, icache := mdel y.icache (placePc / 32), tlb := [] }
  let s := modCluster s 0 fun c => { c with
    tlb := [], l2 := mdel c.l2 (placePc / 128), dm := { c.dm with halted := false, stepping := none } }
  setStrand s 0 (placeStrand (getStrand s 0))

end Sys2Proof.Machine
end

