-- ==== Sys2Proof/Safety.lean ====
section
/-!
DEFINITION. What a safe run is, and the terms in which statements are made: an instruction that passes every check before it issues, an answer of a
next state, and what an instruction changes.
-/
namespace Sys2Proof

open Sys2Proof.Machine

/-- The machine reaches a state in some number of steps, each answering a next state. -/
inductive Reaches : State → State → Prop where
  | refl (s : State) : Reaches s s
  | tail {a b c : State} : Reaches a b → step b = .next c → Reaches a c

/-- A step from this state answers a next state. -/
def Steps (s : State) : Prop := ∃ t, step s = .next t

/-- No state that can be reached stops. -/
def SafeFrom (s : State) : Prop := ∀ t, Reaches s t → Steps t

namespace Claims

/-- `exec` answers a next state, and that state has a property. -/
def Completes (i : Instr) (s : State) (P : State → Prop) : Prop := ∃ t, exec i s = .next t ∧ P t

/-- The strand `cur` asks to issue: no trace record holds it back and it waits for nothing. -/
structure Asks (s : State) : Prop where
  free : heldBack s s.cur = false
  noWait : (me s).wait = none

/-- The checks of R79 that follow those of the encoding pass: the level admits the form and the registers it names are available. -/
structure Allowed (i : Instr) (s : State) : Prop extends Asks s where
  level : systemOnly i = true → stPriv (me s) = true
  named : unavailable s s.cur i = none

/-- Every condition of R79 and R13 before the guard holds as well: no kill point finds a kill, every counter named in WAIT is zero, no table
request and no load is still to write a register the instruction names, the strand is ready in this cycle, and the bank it names is awake. -/
structure AtGuard (i : Instr) (c : Common) (s : State) : Prop extends Allowed i s where
  noKill : c.kpt = true → killDue (me s) = false
  counters : countersClear (me s) c = true
  operands : operandsBlock (me s) i = false
  due : (me s).notBefore ≤ s.cycle
  awake : bankAsleep s s.cur i = false

/-- The instruction issues: the guard holds too and the SET counter is below its limit (spec/04 R73, spec/01 R16). -/
structure Ready (i : Instr) (c : Common) (s : State) : Prop extends AtGuard i c s where
  guard : guardOf (me s) c = true
  room : counterFull (me s) c = false

/-- Where the instruction is ready, `exec` answers a next state that has a property. -/
def Gives (i : Instr) (c : Common) (s : State) (P : State → Prop) : Prop := Ready i c s → Completes i s P

/-- Between two states, nothing outside the strand `cur` has changed but its core's note of the issue: no other strand, no cache, pool or window of
a core, no unit, and no byte of memory. -/
structure OnlyMe (s t : State) : Prop where
  strands : ∀ k, k ≠ s.cur → getStrand t k = getStrand s k
  otherCores : ∀ q, q ≠ coreOf s.cur → getCore t q = getCore s q
  myCore : getCore t (coreOf s.cur) =
    { getCore s (coreOf s.cur) with
      issueNo := (getCore t (coreOf s.cur)).issueNo, lastIssued := (getCore t (coreOf s.cur)).lastIssued,
      issuedAt := (getCore t (coreOf s.cur)).issuedAt, vidle := (getCore t (coreOf s.cur)).vidle, vstate := (getCore t (coreOf s.cur)).vstate }
  others : { t with strands := s.strands, cores := s.cores } = s
  memory : ∀ a, byteAt t.mem a = byteAt s.mem a

/-- Between two strands, nothing has changed but the scalar, vector, predicate and mask registers, the counters, the program counter with
the loop stack and its repetition buffer, and the results in flight: every special register, accumulator tile and saved register is as it was. -/
def SameButRegisters (x y : Strand) : Prop :=
  { y with
    s := x.s, v := x.v, g := x.g, k := x.k, d := x.d, pc := x.pc, loops := x.loops, rbuf := x.rbuf, rbufOver := x.rbufOver,
    rbufOk := x.rbufOk, inflight := x.inflight, wrote := x.wrote, carved := x.carved, wait := x.wait } = x

/-- The counter that SET names is one higher and every other is unchanged (spec/04 R74). -/
def CounterUp (c : Common) (x y : Strand) : Prop :=
  ∀ j, getD y j = getD x j + if c.set ≠ 7 ∧ c.set.toNat = j then 1 else 0

/-- Control goes to the next instruction, or where the end test of the loop stack sends it (spec/05 R108). -/
def GoesOn (c : Common) (x y : Strand) : Prop :=
  (y.loops, y.pc) = endTest (x.pc + BitVec.ofNat 64 c.len.bytes) x.loops

/-- The instruction has completed with these values of every scalar, predicate, mask and vector register; beside them only the SET counter, the
program counter with the loop stack, and the results in flight have changed. -/
structure Result (c : Common) (s t : State) (fs : SReg → Word) (fg : GReg → Bool) (fk : KReg → Word) (fv : VReg → Vec) : Prop where
  only : OnlyMe s t
  rest : SameButRegisters (me s) (me t)
  scalar : ∀ r, getS (me t) r = fs r
  guards : ∀ r, getG (me t) r = fg r
  masks : ∀ r, getK (me t) r = fk r
  vectors : ∀ r, getV (me t) r = fv r
  counter : CounterUp c (me s) (me t)
  goes : GoesOn c (me s) (me t)

/-- One scalar register is written; `s0` discards the write (spec/01 R14). -/
def ResultS (c : Common) (s : State) (d : SReg) (v : Word) (t : State) : Prop :=
  Result c s t (fun r => if r = d ∧ r ≠ 0 then v else getS (me s) r) (getG (me s)) (getK (me s)) (getV (me s))

/-- No register is written. -/
def ResultNone (c : Common) (s t : State) : Prop := Result c s t (getS (me s)) (getG (me s)) (getK (me s)) (getV (me s))

/-- Predicates are written. -/
def ResultG (c : Common) (s : State) (fg : GReg → Bool) (t : State) : Prop :=
  Result c s t (getS (me s)) fg (getK (me s)) (getV (me s))

/-- One mask register is written; `k0` discards the write. -/
def ResultK (c : Common) (s : State) (d : KReg) (v : Word) (t : State) : Prop :=
  Result c s t (getS (me s)) (getG (me s)) (fun r => if r = d ∧ r ≠ 0 then v else getK (me s) r) (getV (me s))

/-- One vector register is written. -/
def ResultV (c : Common) (s : State) (d : VReg) (v : Vec) (t : State) : Prop :=
  Result c s t (getS (me s)) (getG (me s)) (getK (me s)) (fun r => if r = d then v else getV (me s) r)

/-- Trap entry of the strand `cur` (spec/09 R227): cause, value and return address are saved, the level and the interrupt enable are saved in
STATUS and set to system level and off, the loop stack is moved to its shadow, and control goes to TVEC. No register and no byte of memory
changes. -/
structure TrapEntered (s t : State) (cause tval epc : Word) : Prop where
  cause : (me t).cause = cause
  tval : (me t).tval = tval
  epc : (me t).epc = epc
  pc : (me t).pc = (me s).tvec &&& ~~~ 3#64
  level : stPriv (me t) = true
  enable : stIE (me t) = false
  savedLevel : stPPriv (me t) = stPriv (me s)
  savedEnable : stPIE (me t) = stIE (me s)
  status : ∀ j, j ≠ 0 → j ≠ 2 → j ≠ 3 → j ≠ 4 → (me t).status.getLsbD j = (me s).status.getLsbD j
  loops : (me t).loops = []
  shadow : (me t).shadow = (me s).loops
  scalar : ∀ r, getS (me t) r = getS (me s) r
  guards : ∀ r, getG (me t) r = getG (me s) r
  masks : ∀ r, getK (me t) r = getK (me s) r
  vectors : ∀ r, getV (me t) r = getV (me s) r
  counters : ∀ j, getD (me t) j = getD (me s) j
  strands : ∀ k, k ≠ s.cur → getStrand t k = getStrand s k
  memory : ∀ a, byteAt t.mem a = byteAt s.mem a

end Claims

end Sys2Proof
end

