-- ==== Sys2Proof/Certificates/Slice0/Obligations.lean ====
section
/-!
DEFINITION. The statements for the provers, one `def Obligations.<Name> : Prop` each, with the terms they are made in.
-/
open Sys2Proof Sys2Proof.Machine Sys2Proof.Claims

namespace Sys2Proof.Claims

/-- The conditions of R93, in numbers. -/
def conditionOf (q : Cond) (a b : Word) : Bool :=
  match q with
  | .eq => decide (a = b)
  | .ne => decide (a ≠ b)
  | .lt => decide (a.toInt < b.toInt)
  | .ge => decide (b.toInt ≤ a.toInt)
  | .le => decide (a.toInt ≤ b.toInt)
  | .gt => decide (b.toInt < a.toInt)
  | .ltz => decide (a.toNat < b.toNat)
  | .gez => decide (b.toNat ≤ a.toNat)
  | .lez => decide (a.toNat ≤ b.toNat)
  | .gtz => decide (b.toNat < a.toNat)
  | .any => decide (a &&& b ≠ 0)
  | .none => decide (a &&& b = 0)

/-- `n` is the number of leading zero bits of a word. -/
def LeadingZeros (a : Word) (n : Nat) : Prop :=
  n ≤ 64 ∧ (∀ j, 64 - n ≤ j → a.getLsbD j = false) ∧ (n < 64 → a.getLsbD (63 - n) = true)

/-- `n` is the number of trailing zero bits of a word. -/
def TrailingZeros (a : Word) (n : Nat) : Prop :=
  n ≤ 64 ∧ (∀ j, j < n → a.getLsbD j = false) ∧ (n < 64 → a.getLsbD n = true)

/-- A word holds the low `n` bytes of another in reverse order and zeros above. -/
def Reversed (n : Nat) (a v : Word) : Prop :=
  ∀ j, v.getLsbD j = (decide (j < 8 * n) && a.getLsbD (8 * (n - 1 - j / 8) + j % 8))

/-- A compare's two predicates are written, the first winning where they are the same; `g7` discards (spec/05 R94). -/
def ResultCompare (c : Common) (s : State) (pt pf : GReg) (cond : Bool) (t : State) : Prop :=
  ResultG c s (fun r => if r = pt ∧ r ≠ 7 then cond else if r = pf ∧ r ≠ 7 then !cond else getG (me s) r) t

/-- Control is transferred: to the target with bits 1:0 cleared, and the loops that the target leaves are popped if the transfer pops; a
scalar register may receive a link (spec/05 R104, R109). -/
structure Jumped (c : Common) (s : State) (target : Word) (pops : Bool) (d : SReg) (link : Word) (t : State) : Prop where
  only : OnlyMe s t
  rest : SameButRegisters (me s) (me t)
  pc : (me t).pc = target &&& ~~~ 3#64
  loops : (me t).loops =
    if pops then (me s).loops.dropWhile fun e =>
      !(decide (e.top.toNat ≤ (target &&& ~~~ 3#64).toNat) && decide ((target &&& ~~~ 3#64).toNat < e.stop.toNat))
    else (me s).loops
  scalar : ∀ r, getS (me t) r = if r = d ∧ r ≠ 0 then link else getS (me s) r
  guards : ∀ r, getG (me t) r = getG (me s) r
  masks : ∀ r, getK (me t) r = getK (me s) r
  vectors : ∀ r, getV (me t) r = getV (me s) r
  counter : CounterUp c (me s) (me t)

/-- An instruction has completed that writes no register and whose SET counter lands at issue; control goes on from an address. -/
structure Landed (s : State) (next : Word) (t : State) : Prop where
  only : OnlyMe s t
  rest : SameButRegisters (me s) (me t)
  scalar : ∀ r, getS (me t) r = getS (me s) r
  guards : ∀ r, getG (me t) r = getG (me s) r
  masks : ∀ r, getK (me t) r = getK (me s) r
  vectors : ∀ r, getV (me t) r = getV (me s) r
  counters : ∀ j, getD (me t) j = getD (me s) j
  goes : ((me t).loops, (me t).pc) = endTest next (me s).loops

/-- The address after an instruction of the strand `cur`. -/
def after (c : Common) (s : State) : Word := (me s).pc + BitVec.ofNat 64 c.len.bytes

/-- The FP32 operand in a scalar register (spec/05 R98). -/
def low32 (w : Word) : Nat := w.toNat % 2 ^ 32

/-- One of the three floating-point formats (spec/02 R35). -/
def IsFormat (f : Fmt) : Prop := f = fmtF16 ∨ f = fmtBF16 ∨ f = fmtF32

/-- An encoding of a format. -/
def Encoding (f : Fmt) (b : Nat) : Prop := b < 2 * 2 ^ (f.eb + f.fb)

/-- Is an encoding negative by its sign bit, and does it stand for a finite number? -/
abbrev negEnc (f : Fmt) (b : Nat) : Prop := 2 ^ (f.eb + f.fb) ≤ b
abbrev finEnc (f : Fmt) (b : Nat) : Prop := b % 2 ^ (f.eb + f.fb) < (2 ^ f.eb - 1) * 2 ^ f.fb

/-- The least positive number of a format is 2 to the minus this. -/
def unitExp (f : Fmt) : Nat := 2 ^ (f.eb - 1) + f.fb - 2

/-- A finite encoding as a multiple of the least positive number of its format. -/
def units (f : Fmt) (b : Nat) : Int :=
  let x := b % 2 ^ (f.eb + f.fb) / 2 ^ f.fb
  let m := b % 2 ^ f.fb
  let n : Int := if x = 0 then m else (2 ^ f.fb + m) * 2 ^ (x - 1)
  if 2 ^ (f.eb + f.fb) ≤ b then -n else n

/-- An integer is `n / 2^k` rounded to nearest, ties to even (spec/00 R6). -/
def NearestInt (n : Int) (k : Nat) (t : Int) : Prop :=
  2 * (n - t * 2 ^ k).natAbs ≤ 2 ^ k ∧ (2 * (n - t * 2 ^ k).natAbs = 2 ^ k → t % 2 = 0)

/-- An encoding is the number of `n / 2^k` units rounded to nearest, ties to the even encoding: no finite number of the format lies nearer, the sign of a non-zero number is
kept, and from half a step beyond the largest finite number on the result is an infinity (spec/02 R36). -/
def RoundedTo (f : Fmt) (n : Int) (k r : Nat) : Prop :=
  Encoding f r ∧ (n ≠ 0 → (negEnc f r ↔ n < 0)) ∧
  if (2 ^ (f.fb + 2) - 1) * 2 ^ (2 ^ f.eb - 3) * 2 ^ k ≤ 2 * n.natAbs then
    r % 2 ^ (f.eb + f.fb) = (2 ^ f.eb - 1) * 2 ^ f.fb
  else
    finEnc f r ∧ ∀ q, Encoding f q → finEnc f q →
      (n - units f r * 2 ^ k).natAbs ≤ (n - units f q * 2 ^ k).natAbs ∧
      ((n - units f r * 2 ^ k).natAbs = (n - units f q * 2 ^ k).natAbs → units f r ≠ units f q → r % 2 = 0)

/-- The encoding of a zero, -0 where a condition holds. -/
def zeroEnc (f : Fmt) (neg : Prop) [Decidable neg] : Nat := if neg then 2 ^ (f.eb + f.fb) else 0

end Sys2Proof.Claims

/-- R89, R15: the two-source integer forms write their result to DST, and nothing else but the SET counter and the program counter changes; every
one completes. The special cases of division are stated in Division. -/
def Obligations.ScalarArithmetic : Prop :=
  ∀ (c : Common) (s : State) (d a b : SReg),
    let p := getS (me s) a
    let q := getS (me s) b
    Gives (.add c d a b) c s (ResultS c s d (p + q)) ∧
    Gives (.sub c d a b) c s (ResultS c s d (p - q)) ∧
    Gives (.mul c d a b) c s (ResultS c s d (p * q)) ∧
    Gives (.mulh c d a b) c s (ResultS c s d (BitVec.ofInt 64 (p.toInt * q.toInt / 2 ^ 64))) ∧
    Gives (.mulhz c d a b) c s (ResultS c s d (BitVec.ofNat 64 (p.toNat * q.toNat / 2 ^ 64))) ∧
    (∀ k sh, Gives (.addx c k sh d a b) c s (ResultS c s d
      (p + (match k with
        | .whole => q
        | .sext32 => (q.setWidth 32).signExtend 64
        | .zext32 => (q.setWidth 32).setWidth 64) * BitVec.ofNat 64 (2 ^ sh.toNat)))) ∧
    Gives (.and c d a b) c s (ResultS c s d (p &&& q)) ∧
    Gives (.or c d a b) c s (ResultS c s d (p ||| q)) ∧
    Gives (.xor c d a b) c s (ResultS c s d (p ^^^ q)) ∧
    Gives (.shl c d a b) c s (ResultS c s d (if 64 ≤ q.toNat then 0 else p <<< q.toNat)) ∧
    Gives (.shr c d a b) c s (ResultS c s d (if 64 ≤ q.toNat then 0 else p >>> q.toNat)) ∧
    Gives (.sra c d a b) c s (ResultS c s d
      (if 64 ≤ q.toNat then (if p.msb then BitVec.allOnes 64 else 0) else p.sshiftRight q.toNat)) ∧
    Gives (.min c d a b) c s (ResultS c s d (if p.toInt ≤ q.toInt then p else q)) ∧
    Gives (.max c d a b) c s (ResultS c s d (if p.toInt ≤ q.toInt then q else p)) ∧
    Gives (.minz c d a b) c s (ResultS c s d (if p.toNat ≤ q.toNat then p else q)) ∧
    Gives (.maxz c d a b) c s (ResultS c s d (if p.toNat ≤ q.toNat then q else p)) ∧
    (q ≠ 0 → ¬ (p = BitVec.ofInt 64 (-2 ^ 63) ∧ q = BitVec.ofInt 64 (-1)) →
      Gives (.div c d a b) c s (ResultS c s d (BitVec.ofInt 64 (p.toInt.tdiv q.toInt))) ∧
      Gives (.rem c d a b) c s (ResultS c s d (p - q * BitVec.ofInt 64 (p.toInt.tdiv q.toInt)))) ∧
    (q ≠ 0 → Gives (.divz c d a b) c s (ResultS c s d (BitVec.ofNat 64 (p.toNat / q.toNat))) ∧
      Gives (.remz c d a b) c s (ResultS c s d (p - q * BitVec.ofNat 64 (p.toNat / q.toNat))))

/-- R89, R90: the division forms, the special cases among them. The T functions compute the same, but take the integer-divide trap with TVAL 0 for a zero divisor and 1 for
the signed overflow; the trap is precise. -/
def Obligations.Division : Prop :=
  (∀ (c : Common) (s : State) (d a b : SReg),
    let p := getS (me s) a
    let q := getS (me s) b
    let quot := if q = 0 then BitVec.allOnes 64 else BitVec.ofInt 64 (p.toInt.tdiv q.toInt)
    let quotZ := if q = 0 then BitVec.allOnes 64 else BitVec.ofNat 64 (p.toNat / q.toNat)
    let overflow := p = BitVec.ofInt 64 (-2 ^ 63) ∧ q = BitVec.ofInt 64 (-1)
    Gives (.div c d a b) c s (ResultS c s d quot) ∧
    Gives (.divz c d a b) c s (ResultS c s d quotZ) ∧
    Gives (.rem c d a b) c s (ResultS c s d (p - q * quot)) ∧
    Gives (.remz c d a b) c s (ResultS c s d (p - q * quotZ)) ∧
    (q ≠ 0 → ¬ overflow → Gives (.divT c .div d a b) c s (ResultS c s d quot) ∧ Gives (.divT c .rem d a b) c s (ResultS c s d (p - q * quot))) ∧
    (q ≠ 0 → Gives (.divT c .divz d a b) c s (ResultS c s d quotZ) ∧ Gives (.divT c .remz d a b) c s (ResultS c s d (p - q * quotZ))) ∧
    (overflow → quot = p ∧ p - q * quot = 0)) ∧
  (∀ (c : Common) (s : State) (k : DivKind) (d a b : SReg), Ready (.divT c k d a b) c s → (me s).vtabQ = [] →
    (getS (me s) b = 0 → Completes (.divT c k d a b) s fun t => TrapEntered s t 0xB 0 (me s).pc) ∧
    ((k = .div ∨ k = .rem) → getS (me s) a = BitVec.ofInt 64 (-2 ^ 63) → getS (me s) b = BitVec.ofInt 64 (-1) →
      Completes (.divT c k d a b) s fun t => TrapEntered s t 0xB 1 (me s).pc))

/-- R91, R92: the one-source forms, the four functions of MOV, and SEL. -/
def Obligations.OneSource : Prop :=
  ∀ (c : Common) (s : State) (d a b : SReg),
    let p := getS (me s) a
    (∃ n, LeadingZeros p n ∧ Gives (.clz c d a) c s (ResultS c s d (BitVec.ofNat 64 n))) ∧
    (∃ n, TrailingZeros p n ∧ Gives (.ctz c d a) c s (ResultS c s d (BitVec.ofNat 64 n))) ∧
    Gives (.popc c d a) c s (ResultS c s d (BitVec.ofNat 64 ((List.range 64).countP fun j => p.getLsbD j))) ∧
    (∀ wd : SwapWidth, ∃ v, Reversed (match wd with | .d => 8 | .w => 4 | .h => 2) p v ∧ Gives (.bswap c wd d a) c s (ResultS c s d v)) ∧
    Gives (.sext c .b d a) c s (ResultS c s d ((p.setWidth 8).signExtend 64)) ∧
    Gives (.sext c .h d a) c s (ResultS c s d ((p.setWidth 16).signExtend 64)) ∧
    Gives (.sext c .w d a) c s (ResultS c s d ((p.setWidth 32).signExtend 64)) ∧
    Gives (.zext c .b d a) c s (ResultS c s d (p &&& 0xFF#64)) ∧
    Gives (.zext c .h d a) c s (ResultS c s d (p &&& 0xFFFF#64)) ∧
    Gives (.zext c .w d a) c s (ResultS c s d (p &&& 0xFFFFFFFF#64)) ∧
    Gives (.mov c (.ss d a)) c s (ResultS c s d p) ∧
    (∀ e : KReg, Gives (.mov c (.ks e a)) c s (ResultK c s e p)) ∧
    (∀ k : KReg, Gives (.mov c (.sk d k)) c s (ResultS c s d (getK (me s) k))) ∧
    (∀ e k : KReg, Gives (.mov c (.kk e k)) c s (ResultK c s e (getK (me s) k))) ∧
    (∀ g ns, Gives (.sel c d a b g ns) c s (ResultS c s d (if (getG (me s) g ^^ ns) then p else getS (me s) b)))

/-- R93, R94, R102, R103: CMP and CMPI write their condition and its complement; the predicate instructions. -/
def Obligations.ComparesAndPredicates : Prop :=
  (∀ (c : Common) (s : State) (q : Cond) (pt pf : GReg) (a b : SReg) (i : BitVec 32),
    Gives (.cmp c q pt a b pf) c s (ResultCompare c s pt pf (conditionOf q (getS (me s) a) (getS (me s) b))) ∧
    Gives (.cmpi c q pt a pf i) c s (ResultCompare c s pt pf (conditionOf q (getS (me s) a) (i.signExtend 64)))) ∧
  (∀ (c : Common) (s : State) (d a b : GReg) (na nb : Bool) (r : SReg),
    let p := getG (me s) a ^^ na
    let q := getG (me s) b ^^ nb
    Gives (.pand c d a b na nb) c s (ResultG c s fun g => if g = d ∧ g ≠ 7 then p && q else getG (me s) g) ∧
    Gives (.por c d a b na nb) c s (ResultG c s fun g => if g = d ∧ g ≠ 7 then p || q else getG (me s) g) ∧
    Gives (.pxor c d a b na nb) c s (ResultG c s fun g => if g = d ∧ g ≠ 7 then p ^^ q else getG (me s) g) ∧
    Gives (.pmov c (.move d a na)) c s (ResultG c s fun g => if g = d ∧ g ≠ 7 then p else getG (me s) g) ∧
    (∃ v : Word, (∀ j, v.getLsbD j = (decide (j < 8) && getG (me s) (BitVec.ofNat 3 j))) ∧ v.getLsbD 7 = true ∧
      Gives (.pmov c (.sg r)) c s (ResultS c s r v)) ∧
    Gives (.pmov c (.gs r)) c s (ResultG c s fun g => if g = 7 then true else (getS (me s) r).getLsbD g.toNat))

/-- R95, R96, R97: the immediate forms. -/
def Obligations.Immediates : Prop :=
  ∀ (c : Common) (s : State) (d a : SReg) (i : BitVec 32) (n : BitVec 6) (w : Word) (k : KReg),
    let p := getS (me s) a
    let b := i.signExtend 64
    Gives (.addi c d a i) c s (ResultS c s d (p + b)) ∧
    Gives (.andi c d a i) c s (ResultS c s d (p &&& b)) ∧
    Gives (.ori c d a i) c s (ResultS c s d (p ||| b)) ∧
    Gives (.xori c d a i) c s (ResultS c s d (p ^^^ b)) ∧
    Gives (.shli c d a n) c s (ResultS c s d (p <<< n.toNat)) ∧
    Gives (.shri c d a n) c s (ResultS c s d (p >>> n.toNat)) ∧
    Gives (.srai c d a n) c s (ResultS c s d (p.sshiftRight n.toNat)) ∧
    Gives (.li c (.s d) w) c s (ResultS c s d w) ∧
    Gives (.li c (.k k) w) c s (ResultK c s k w)

/-- R98, R99, R100, R101: the scalar FP32 forms read bits 31:0 of their sources and write the result to DST with zeros above, whatever the NaN
mode; FCMP writes its predicates; FCVT extends as a load of its destination type does. What the operations are on encodings is stated in
Fp32Specials and RoundsToNearestEven. -/
def Obligations.ScalarFloat : Prop :=
  ∀ (c : Common) (s : State) (d a b e : SReg),
    let p := low32 (getS (me s) a)
    let q := low32 (getS (me s) b)
    let r := low32 (getS (me s) e)
    Gives (.fadd c d a b) c s (ResultS c s d (BitVec.ofNat 64 (addF fmtF32 p q))) ∧
    Gives (.fsub c d a b) c s (ResultS c s d (BitVec.ofNat 64 (subF fmtF32 p q))) ∧
    Gives (.fmul c d a b) c s (ResultS c s d (BitVec.ofNat 64 (mulF fmtF32 p q))) ∧
    Gives (.ffma c d a b e) c s (ResultS c s d (BitVec.ofNat 64 (fmaF fmtF32 p q r))) ∧
    Gives (.fmin c d a b) c s (ResultS c s d (BitVec.ofNat 64 (minF fmtF32 p q))) ∧
    Gives (.fmax c d a b) c s (ResultS c s d (BitVec.ofNat 64 (maxF fmtF32 p q))) ∧
    (∀ k pt pf, Gives (.fcmp c k pt a b pf) c s (ResultCompare c s pt pf
      (match k with
        | .eq => eqF fmtF32 p q
        | .lt => ltF fmtF32 p q
        | .le => ltF fmtF32 p q || eqF fmtF32 p q
        | .un => isNan fmtF32 p || isNan fmtF32 q))) ∧
    (∀ src ty : Ty, Gives (.fcvt c src ty d a) c s
      (ResultS c s d (extend ty (convert src ty ((getS (me s) a).toNat % 2 ^ src.width)))))

/-- R35, R98, R99, R100, in each of the three floating-point formats: a NaN operand in any place and every invalid case give the canonical NaN, in FFMA 0 times an
infinity whatever is added; a sum or product with an infinity that is not invalid is that infinity; every result is an encoding of the format; the lesser
and the greater of two numbers are one of them and ordered, -0 below +0; a NaN compares false, and the two zeros are equal. -/
def Obligations.Fp32Specials : Prop :=
  (∀ f : Fmt, IsFormat f → ∀ a b e : Nat, Encoding f a → Encoding f b → Encoding f e →
    let inf := (2 ^ f.eb - 1) * 2 ^ f.fb
    let sign := 2 ^ (f.eb + f.fb)
    let nan := inf + 2 ^ (f.fb - 1)
    let magA := a % sign
    let magB := b % sign
    (isNan f a = true ↔ inf < magA) ∧
    (isNan f a = true ∨ isNan f b = true →
      addF f a b = nan ∧ subF f a b = nan ∧ mulF f a b = nan ∧ minF f a b = nan ∧ maxF f a b = nan ∧ eqF f a b = false ∧ ltF f a b = false ∧
      fmaF f a b e = nan ∧ fmaF f a e b = nan ∧ fmaF f e a b = nan) ∧
    (magA = inf → magB = inf →
      addF f a b = (if a = b then a else nan) ∧ subF f a b = (if a = b then nan else a) ∧ mulF f a b = (if a = b then inf else inf + sign)) ∧
    (magA = inf → finEnc f b → addF f a b = a ∧ addF f b a = a ∧ subF f a b = a ∧ subF f b a = (if a = inf then inf + sign else inf) ∧
      (magB = 0 → mulF f a b = nan ∧ mulF f b a = nan ∧ fmaF f a b e = nan ∧ fmaF f b a e = nan) ∧
      (magB ≠ 0 → mulF f a b = (if negEnc f a ↔ negEnc f b then inf else inf + sign) ∧ mulF f b a = mulF f a b)) ∧
    (magA = inf → finEnc f b → finEnc f e → fmaF f b e a = a) ∧
    (∀ p : Nat, mulF f a b = p → p % sign = inf → magA = inf ∨ magB = inf → (finEnc f e → fmaF f a b e = p) ∧
      (e % sign = inf → fmaF f a b e = (if e = p then p else nan))) ∧
    Encoding f (addF f a b) ∧ Encoding f (subF f a b) ∧ Encoding f (mulF f a b) ∧ Encoding f (fmaF f a b e) ∧
    Encoding f (minF f a b) ∧ Encoding f (maxF f a b) ∧
    (isNan f a = false → isNan f b = false →
      (minF f a b = a ∨ minF f a b = b) ∧ (maxF f a b = a ∨ maxF f a b = b) ∧
      (ltF f a b = true → minF f a b = a ∧ minF f b a = a ∧ maxF f a b = b ∧ maxF f b a = b) ∧
      (finEnc f a → finEnc f b → (ltF f a b = true ↔ units f a < units f b) ∧ (eqF f a b = true ↔ units f a = units f b)) ∧
      (magA = inf → ltF f a b = (decide (negEnc f a) && decide (b ≠ a)) ∧ ltF f b a = (!decide (negEnc f a) && decide (b ≠ a)) ∧ eqF f a b = decide (a = b))) ∧
    (minF f 0 sign = sign ∧ minF f sign 0 = sign ∧ maxF f 0 sign = 0 ∧ maxF f sign 0 = 0 ∧ eqF f 0 sign = true)) ∧
  fmtF32.nan = 0x7FC00000

/-- R6, R36, R45, R99: rounding is to nearest with ties to even, once, of the exact result; an arithmetic right shift floors; saturation gives the representable value
nearest to the result. On finite operands a sum, difference, product and fused product and sum are the exact result so rounded, in each of the three formats, an exact zero with
its IEEE 754 sign; a conversion between formats and from an integer is its value so rounded, and one to an integer is the nearest
integer, saturated. -/
def Obligations.RoundsToNearestEven : Prop :=
  (∀ n k : Nat, NearestInt n k (rneShift n k)) ∧
  (∀ a b : Word, (sraW a b).toInt = a.toInt / 2 ^ b.toNat) ∧
  (∀ lo hi n : Int, lo ≤ hi → lo ≤ clampI lo hi n ∧ clampI lo hi n ≤ hi ∧ (lo ≤ n → n ≤ hi → clampI lo hi n = n) ∧
    ∀ m, lo ≤ m → m ≤ hi → (n - clampI lo hi n).natAbs ≤ (n - m).natAbs) ∧
  (∀ f : Fmt, IsFormat f →
    (∀ (neg : Bool) (m : Nat) (e : Int),
      let n : Int := m * 2 ^ (e + unitExp f).toNat
      RoundedTo f (if neg then -n else n) (-(e + unitExp f)).toNat (encodeF f (.fin neg m e)) ∧ (m = 0 → encodeF f (.fin neg m e) = zeroEnc f (neg = true))) ∧
    (∀ a, Encoding f a → finEnc f a → ∃ (m : Nat) (e : Int), decodeF f a = .fin (decide (negEnc f a)) m e ∧ 0 ≤ e + unitExp f ∧
      units f a = (if negEnc f a then -1 else 1) * (m * 2 ^ (e + unitExp f).toNat)) ∧
    (∀ a b e, Encoding f a → Encoding f b → Encoding f e → finEnc f a → finEnc f b → finEnc f e →
      let x := units f a
      let y := units f b
      let z := units f e
      let p := unitExp f
      RoundedTo f (x + y) 0 (addF f a b) ∧ (x + y = 0 → addF f a b = zeroEnc f (x = 0 ∧ negEnc f a ∧ negEnc f b)) ∧
      RoundedTo f (x - y) 0 (subF f a b) ∧ (x - y = 0 → subF f a b = zeroEnc f (x = 0 ∧ negEnc f a ∧ ¬ negEnc f b)) ∧
      RoundedTo f (x * y) p (mulF f a b) ∧ (x * y = 0 → mulF f a b = zeroEnc f (¬ (negEnc f a ↔ negEnc f b))) ∧
      RoundedTo f (x * y + z * 2 ^ p) p (fmaF f a b e) ∧
      (x * y + z * 2 ^ p = 0 → fmaF f a b e = zeroEnc f (z = 0 ∧ ¬ (negEnc f a ↔ negEnc f b) ∧ negEnc f e)))) ∧
  (∀ src ty : Ty, ∀ b, b < 2 ^ src.width →
    (src.isFloat = true → ty.isFloat = true →
      (finEnc (fmtOf src) b → RoundedTo (fmtOf ty) (units (fmtOf src) b * 2 ^ unitExp (fmtOf ty)) (unitExp (fmtOf src)) (convert src ty b) ∧
        (units (fmtOf src) b = 0 → convert src ty b = zeroEnc (fmtOf ty) (negEnc (fmtOf src) b))) ∧
      (isNan (fmtOf src) b = true → convert src ty b = (fmtOf ty).nan) ∧
      (b = (fmtOf src).inf → convert src ty b = (fmtOf ty).inf) ∧
      (b = (fmtOf src).inf + (fmtOf src).sign → convert src ty b = (fmtOf ty).inf + (fmtOf ty).sign)) ∧
    (src.isInt = true → ty.isFloat = true →
      let v := if src.isSigned then (BitVec.ofNat src.width b).toInt else (b : Int)
      RoundedTo (fmtOf ty) (v * 2 ^ unitExp (fmtOf ty)) 0 (convert src ty b) ∧ (v = 0 → convert src ty b = 0)) ∧
    (ty.isInt = true →
      let lo : Int := if ty.isSigned then -2 ^ (ty.width - 1) else 0
      let hi : Int := if ty.isSigned then 2 ^ (ty.width - 1) - 1 else 2 ^ ty.width - 1
      let got := if ty.isSigned then (BitVec.ofNat ty.width (convert src ty b)).toInt else (convert src ty b : Int)
      convert src ty b < 2 ^ ty.width ∧
      (src.isInt = true → got = clampI lo hi (if src.isSigned then (BitVec.ofNat src.width b).toInt else (b : Int))) ∧
      (src.isFloat = true →
        (finEnc (fmtOf src) b → ∃ t, NearestInt (units (fmtOf src) b) (unitExp (fmtOf src)) t ∧ got = clampI lo hi t) ∧
        (isNan (fmtOf src) b = true → got = 0) ∧ (b = (fmtOf src).inf → got = hi) ∧ (b = (fmtOf src).inf + (fmtOf src).sign → got = lo))))

/-- R104, R109: the transfers of control. -/
def Obligations.Branches : Prop :=
  ∀ (c : Common) (s : State) (d a : SReg) (o : BitVec 32),
    let disp := o.signExtend 64 * 4
    Gives (.br c o) c s (Jumped c s ((me s).pc + disp) true 0 0) ∧
    Gives (.jmp c a o) c s (Jumped c s (getS (me s) a + disp) true 0 0) ∧
    Gives (.jal c d o) c s (Jumped c s ((me s).pc + disp) false d (after c s)) ∧
    Gives (.jr c d a) c s (Jumped c s (getS (me s) a) (decide (d = 0)) d (after c s))

/-- R107, R108: LOOP with trip count 0 goes on at its end, with more pushes an entry, and on a full stack takes the loop-nesting trap; its SET counter
lands at issue. The end test goes entry by entry: with an empty stack or an address other than END control goes there; at END the last pass pops the entry and
tests the one beneath, and every other pass starts the next at TOP. -/
def Obligations.Loops : Prop :=
  (∀ (c : Common) (s : State) (r : LoopSrc) (stg smod : BitVec 3) (body : BitVec 25),
    let n := match r with | .s a => getS (me s) a | .mb m => mget 0 (me s).mb m.toNat
    let top := after c s
    let stop := top + 4 * body.setWidth 64
    Ready (.loop c r stg smod body) c s →
      (n = 0 → Completes (.loop c r stg smod body) s (Landed s stop)) ∧
      (n ≠ 0 → (me s).loops.length < 3 → Completes (.loop c r stg smod body) s fun t =>
        OnlyMe s t ∧ SameButRegisters (me s) (me t) ∧ (me t).pc = top ∧
        (me t).loops = { top := top, stop := stop, left := n, pass := 0, stg := stg, smod := smod } :: (me s).loops ∧
        (∀ j, getD (me t) j = getD (me s) j) ∧ (∀ r, getS (me t) r = getS (me s) r) ∧ (∀ r, getG (me t) r = getG (me s) r) ∧
        (∀ r, getK (me t) r = getK (me s) r) ∧ (∀ r, getV (me t) r = getV (me s) r)) ∧
      (n ≠ 0 → 3 ≤ (me s).loops.length → (me s).vtabQ = [] →
        Completes (.loop c r stg smod body) s fun t => TrapEntered s t 0xC n (me s).pc)) ∧
  ((∀ next, endTest next [] = ([], next)) ∧
  (∀ next e r, next ≠ e.stop → endTest next (e :: r) = (e :: r, next)) ∧
  (∀ e r, e.left = 1 → endTest e.stop (e :: r) = endTest e.stop r) ∧
  (∀ e r, e.left ≠ 1 → endTest e.stop (e :: r) = ({ e with left := e.left - 1, pass := e.pass + 1 } :: r, e.top)) ∧
  (∀ next l, (endTest next l).1.length ≤ l.length))

/-- R114, R116: NOP changes nothing but the program counter, its SET counter landing at issue; YIELD changes no register and makes the strand not
ready for the next n cycles, with n = 0 for one. -/
def Obligations.NopAndYield : Prop :=
  ∀ (c : Common) (s : State) (n : BitVec 17),
    Gives (.nop c) c s (Landed s (after c s)) ∧
    Gives (.yield c n) c s (fun t =>
      ResultNone c s (modMe t fun y => { y with notBefore := (me s).notBefore }) ∧
      (me t).notBefore = s.cycle + 1 + (if n = 0 then 1 else n.toNat))

namespace Sys2Proof.Claims

/-- The machine as it is when the head of its agenda moves: the agenda's rest remains and the head's time has passed. -/
def atHead (s : State) (c : Choice) (rest : List Choice) : State := passTime { s with agenda := rest } c.dt

/-- The L2 slice of a cluster has room for `n` more lines. -/
def Roomy (s : State) (cl n : Nat) : Prop := (getCluster s cl).l2.length + n ≤ 131072

/-- No byte has changed at its home but to a dirty byte that the L2 slice of a cluster held and may have given up. -/
def HomeKept (s t : State) (cl : Nat) : Prop :=
  ∀ a, byteAt t.mem a = byteAt s.mem a ∨
    ∃ l, l2Line s cl (a / 128) = some l ∧ l.dirty.getLsbD (a % 128) = true ∧ byteAt t.mem a = l.data.extractLsb' (8 * (a % 128)) 8

/-- A state in which the strand `k` moves, a load of its next instruction being performed later if `late` says so. -/
def movesAs (s : State) (k : Nat) (late : Bool) : State := { s with cur := k, late := late }

/-- The strand may fetch and issue its next instruction: it runs, neither waits nor is inside a long instruction, its cluster is not halted, no trace
record of its own waits, it takes no interrupt, and the debug module does not step it. -/
structure Fetches (s : State) (k : Nat) : Prop where
  works : s.mgmt.state ≠ 6
  runs : (getStrand s k).run = .running
  noLong : (getStrand s k).long = none
  noWait : (getStrand s k).wait = none
  free : mayRun s k = true
  noIrq : irqLine (getStrand s k) = none
  noStep : (getCluster s (clusterOf k)).dm.stepping ≠ some k
  noRecord : ∀ r ∈ s.recs, r.strand ≠ some k

end Sys2Proof.Claims

/-- What a step runs. With a strand at the head of the agenda (the model's own, log 4) that its core selects, `step` is `exec` of the instruction that the strand fetches, at the state that the fetch
leaves; the core selects it where it has issued nothing in the cycle and every strand that comes before it in ascending order after the one that issued last is said to be busy (R13), and what it
does not select does not issue. With a device step there, `step` is `exec` of that device step, after which a strand that the debug module steps halts where its step has ended (spec/21 R361). -/
def Obligations.StepRunsDecoded : Prop :=
  ∀ (s : State) (rest : List Choice) (dt : Nat),
    (∀ (k : Nat) (i : Instr) (t : State), s.agenda = ⟨dt, .strand k⟩ :: rest →
      let h := { atHead s ⟨dt, .strand k⟩ rest with cur := k }
      Fetches h k → fetch h k = .instr i t →
      (selected h k [] = true → step s = exec i t) ∧
      (issuedBy h (coreOf k) (exec i t) = true → selected h k [] = false → step s = .next h)) ∧
    (∀ (k : Nat) (busy : List Nat) (late : Bool) (i : Instr) (t : State), s.agenda = ⟨dt, .pick k busy late⟩ :: rest →
      let h := movesAs (atHead s ⟨dt, .pick k busy late⟩ rest) k late
      Fetches h k → fetch h k = .instr i t → selected h k busy = true →
      ∀ u, exec i t = .next u → step s = .next { u with late := false }) ∧
    (∀ (h : State) (k : Nat) (busy : List Nat),
      (∀ j, j ∈ strandsAhead h k ↔
        j / 4 = k / 4 ∧ (j + 3 - (getCore h (coreOf k)).lastIssued % 4) % 4 < (k + 3 - (getCore h (coreOf k)).lastIssued % 4) % 4) ∧
      ((getCore h (coreOf k)).issuedAt ≠ h.cycle + 1 → (∀ j ∈ strandsAhead h k, j ∈ busy) → selected h k busy = true) ∧
      ((getCore h (coreOf k)).issuedAt = h.cycle + 1 → selected h k busy = false)) ∧
    (∀ i : Instr, s.agenda = ⟨dt, .event i⟩ :: rest →
      let h := atHead s ⟨dt, .event i⟩ rest
      step s = watchEvent h (exec i h) ∧
      ((∀ t, exec i h = .next t → ∀ cl, (getCluster t cl).dm.stepping = none) → step s = exec i h))

/-- R68, R79, R80: where the words at the program counter are those that the spec's encoding gives a well-formed instruction, the fetch gives that
instruction, and it changes nothing of the strand but what it notes of the fetch, no other strand, and no byte of memory. The window is in
no instruction cache and its line in no L2 slice, so that it is read from memory; where the L2 slice is full it gives up a line for it (log 9), whose dirty bytes go home. -/
def Obligations.FetchGivesEncoded : Prop :=
  ∀ (s : State) (k key : Nat) (e : TlbEntry) (i : Instr),
    let x := getStrand s k
    let y := getCore s (coreOf k)
    i.wf = true → x.loops = [] → x.pc.toNat % 32 + 4 * (encode i).length ≤ 32 →
    translate s (coreOf k) (stCtx x) y.desc x.pc.toNat .fetch = some (key, e) → key % 32 = x.pc.toNat % 32 →
    isControl key = false → mhas y.icache (key / 32) = false → l2Line s (clusterOf k) (key / 128) = none →
    poisoned s (coreOf k) (key / 32 * 32) 32 = false →
    (∀ j, j < (encode i).length → readLE s.mem (key + 4 * j) 4 = ((encode i).getD j 0).toNat) →
    ∃ t, fetch s k = .instr i t ∧ HomeKept s t (clusterOf k) ∧ (∀ j, { getStrand t j with irq := (getStrand s j).irq } = if j = k then { x with entered := false } else getStrand s j) ∧
      (Roomy s (clusterOf k) 1 → getStrand t k = { x with entered := false } ∧ (∀ j, j ≠ k → getStrand t j = getStrand s j) ∧ t.mem = s.mem)

/-- R73: the guard is the named predicate, negated where NEG says so; `g7` is always true. An instruction whose guard is false is a NOP: no register, counter, control
register, unit or byte of memory changes and control goes on, whatever the instruction is. (That such an instruction waits for a bank it names and counts as a use of it is log 59.) Its WAIT field is still honoured, its KPT bit still makes it a kill point, and the
checks of R79 still trap; of several unavailable registers TVAL names the first in field order, which is the model's choice (log 12). -/
def Obligations.FalseGuard : Prop :=
  (∀ (x : Strand) (c : Common), guardOf x c = (getG x c.gp ^^ c.neg) ∧ (c.gp = 7 → guardOf x c = !c.neg)) ∧
  (∀ (i : Instr) (c : Common) (s : State), i.common = some c → guardOf (me s) c = false →
    (AtGuard i c s → Completes i s fun t => Landed s (after c s) t ∧ (me t).inflight = (me s).inflight) ∧
    (Allowed i s → (c.kpt = true → killDue (me s) = false) → (∃ j, j < 6 ∧ c.wait.getLsbD j = true ∧ getD (me s) j ≠ 0) → exec i s = .next s) ∧
    (Allowed i s → c.kpt = true → stKillp (me s) = true → stPriv (me s) = false → killReady s s.cur = true → exec i s = .next (takeKill s s.cur)) ∧
    (∀ (w : BitVec 32) (ws : List (BitVec 32)), Asks s → systemOnly i = true → stPriv (me s) = false → (me s).vtabQ = [] → encode i = w :: ws →
      Completes i s fun t => TrapEntered s t 4 (w.setWidth 64) (me s).pc) ∧
    (∀ (r : VReg) (rs : List VReg), Asks s → (systemOnly i = true → stPriv (me s) = true) → (me s).vtabQ = [] → (myCore s).vmode = 2 →
      ((vecRegs i).filter fun r => 16 ≤ r.toNat) = r :: rs → Completes i s fun t => TrapEntered s t 3 (BitVec.ofNat 64 (32 + r.toNat)) (me s).pc))

/-- R16, R74, R75: an instruction waits, with no effect, while a counter named in its WAIT field is not zero and no kill point finds a kill, and while
its SET counter holds 63. -/
def Obligations.WaitsForCounters : Prop :=
  ∀ (i : Instr) (c : Common) (s : State), i.common = some c →
    (Allowed i s → (c.kpt = true → killDue (me s) = false) →
      (∃ j, j < 6 ∧ c.wait.getLsbD j = true ∧ getD (me s) j ≠ 0) → exec i s = .next s) ∧
    (AtGuard i c s → guardOf (me s) c = true → c.set ≠ 7 → getD (me s) c.set.toNat = 63 → exec i s = .next s)

/-- R79, R81, R228, R25, R22: a system-only form at task level takes the privilege trap 0x04, with TVAL its first word and EPC its own address; an instruction that names v16 to v31 while
the bank is OFF, or a tile that the core does not give its strands, takes trap 0x03 with TVAL = class times 32 plus number; which of several registers it
names is the model's choice: the first in field order, vector registers before tiles (log 12). -/
def Obligations.PrivilegeAndAvailability : Prop :=
  (∀ (i : Instr) (c : Common) (s : State) (w : BitVec 32) (ws : List (BitVec 32)), i.common = some c → Asks s → systemOnly i = true →
    stPriv (me s) = false → (me s).vtabQ = [] → encode i = w :: ws →
    Completes i s fun t => TrapEntered s t 4 (w.setWidth 64) (me s).pc) ∧
  (∀ (i : Instr) (c : Common) (s : State), i.common = some c → Asks s → (systemOnly i = true → stPriv (me s) = true) → (me s).vtabQ = [] →
    (∀ (r : VReg) (rs : List VReg), (myCore s).vmode = 2 → ((vecRegs i).filter fun r => 16 ≤ r.toNat) = r :: rs →
      Completes i s fun t => TrapEntered s t 3 (BitVec.ofNat 64 (1 * 32 + r.toNat)) (me s).pc) ∧
    (∀ (a : AReg) (as : List AReg), vecRegs i = [] → ((tileRegs i).filter fun a => tileCount (myCore s) ≤ a.toNat) = a :: as →
      Completes i s fun t => TrapEntered s t 3 (BitVec.ofNat 64 (5 * 32 + a.toNat)) (me s).pc))

/-- R75, R304, R305: a kill point at task level with KILLP set does not issue: the strand takes the kill in its place, whatever its counters and
guard; with no pending kill that names its participation, the pending ones are discarded and KILLP is cleared. It takes it once its table requests and deferred loads have
written their registers, and one that retires its task once all that it sent has landed, merged atomics too (R275 speaks of stores; log 41). At system level the
instruction is judged as if no kill were pending. -/
def Obligations.KillPoints : Prop :=
  ∀ (i : Instr) (c : Common) (s : State), i.common = some c → Allowed i s → c.kpt = true → stKillp (me s) = true →
    (stPriv (me s) = false →
      (killReady s s.cur = true ↔ (me s).vtabQ = [] ∧ (∀ f ∈ (me s).inflight, f.load = none) ∧
        ((∀ p, matchingKill (me s) = some p → p.kpc ≠ none) ∨ (me s).inflight = [] ∧ hasReduction s s.cur = false)) ∧
      (killReady s s.cur = true → exec i s = .next (takeKill s s.cur)) ∧ (killReady s s.cur = false → exec i s = .next s) ∧
      (killReady s s.cur = true → matchingKill (me s) = none → Completes i s fun t =>
        (me t).kills = [] ∧ stKillp (me t) = false ∧ (me t).pc = (me s).pc ∧ (∀ r, getS (me t) r = getS (me s) r) ∧ t.mem = s.mem)) ∧
    (stPriv (me s) = true → countersClear (me s) c = true → operandsBlock (me s) i = false → (me s).notBefore ≤ s.cycle →
      bankAsleep s s.cur i = false → AtGuard i c s)

/-- R68 to R82: for every well-formed instruction, what the decoder reads from its encoding, at any window offset that leaves room for it and whatever
follows it in the window, is that instruction. -/
def Obligations.DecodeOfEncode : Prop :=
  ∀ (i : Instr) (off rest : Nat), i.wf = true → off + 4 * (encode i).length ≤ 32 →
    decodeAt off (encodeBits i + 2 ^ (32 * (encode i).length) * rest) = .instr i

/-- R82: no two encodings stand for one instruction: what the decoder accepts is well-formed and its encoding is the bits that were read. -/
def Obligations.EncodeOfDecode : Prop :=
  ∀ (n : Nat) (i : Instr), decodeAt 0 n = .instr i → i.wf = true ∧ encodeBits i = n % 2 ^ (32 * (encode i).length)

namespace Sys2Proof.Claims

/-- The byte at a global location as a core sees it: in its data cache, else in its cluster's L2 slice, else at its home. -/
def seen (s : State) (q a : Nat) : Byte := BitVec.ofNat 8 (cacheRead s q 0 a 1).1

/-- A byte that a program can store to: of the memory of a core's pool, above the register blocks, or at a global location. -/
inductive Spot where
  | pool (core off : Nat)
  | glob (key : Nat)

/-- What a core reads at a spot. -/
def readSpot (s : State) (q : Nat) : Spot → Byte
  | .pool c off => byteAt (getCore s c).pool off
  | .glob a => seen s q a

/-- Where among the `n` bytes of a location a spot lies. -/
def placeIn (l : Loc) (n : Nat) : Spot → Option Nat
  | .pool c off =>
      match l with
      | .pool c' off' | .carve c' off' => if c = c' ∧ off' ≤ off ∧ off < off' + n then some (off - off') else none
      | .glob .. | .ctl _ => none
  | .glob a =>
      match l with
      | .glob key _ => if key ≤ a ∧ a < key + n then some (a - key) else none
      | .pool .. | .carve .. | .ctl _ => none

/-- A location of memory, as against a register block or the control space, whose `n` bytes lie aligned. -/
def plainLoc (l : Loc) (n : Nat) : Prop :=
  match l with
  | .pool _ off | .carve _ off => 0x4000 ≤ off
  | .glob key _ => key % n = 0
  | .ctl _ => False

/-- The little-endian quantity of `n` bytes that a core reads at a location: in a pool as R20 says, in memory as the core sees it. -/
def valueAt (s : State) (q : Nat) (l : Loc) (n : Nat) : Nat :=
  match l with
  | .pool c off | .carve c off => poolRead s c off n
  | .glob key _ => leOf ((List.range n).map fun j => seen s q (key + j))
  | .ctl pa => ctlRead s pa n

/-- The same for a lane of a load that is performed later. -/
def laneValue (s : State) (q : Nat) (l : LaneLoc) (n : Nat) : Nat :=
  match l with
  | .glob key => leOf ((List.range n).map fun j => seen s q (key + j))
  | .pool c off => poolRead s c off n

/-- The elements of a list of lanes in global memory are aligned. -/
def AlignedLanes (ls : List LoadLane) (n : Nat) : Prop := ∀ l ∈ ls, ∀ key, l.loc = .glob key → key % n = 0

/-- A result of a strand at a place among those on their way has landed: it is gone, and its counter has fallen. -/
def HasLanded (s u : State) (k i : Nat) (f : Flight) : Prop :=
  (getStrand u k).inflight = (getStrand s k).inflight.eraseIdx i ∧
  ∀ j, getD (getStrand u k) j = if f.ctr ≠ 7 ∧ f.ctr.toNat = j then getD (getStrand s k) j - 1 else getD (getStrand s k) j

/-- The enabled lanes of a gather or scatter that make an access, each with the location that it finds once the lanes before it are done. -/
structure LaneAt (t : Ty) (x : Gather) (g : GatherArgs) (a : Actor) (r0 : GatherRun) (j ea : Nat) (q : GatherRun) (l : Loc) : Prop where
  enabled : g.mask.getLsbD j = true
  address : laneAddr x g j = .ok ea
  before : gatherRun t x g a (List.range j) r0 = .ok q
  place : locate q.s a x.as ea (t.width / 8) (t.width / 8) (if g.store then .write else .read) = .ok l

/-- An element in a scalar register as a load puts it (spec/06 R124). -/
def loaded (t : Ty) (b : Nat) : Word := if t.isSigned then (BitVec.ofNat t.width b).signExtend 64 else BitVec.ofNat 64 b

/-- The effective address of a base register and an offset (spec/06 R117). -/
def addressOf (s : State) (a : SReg) (o : BitVec 32) : Nat := (getS (me s) a + o.signExtend 64).toNat

/-- The spots of memory of every pool, and of global memory as every core sees it and at its home, hold what they held. -/
def SameMemory (s t : State) : Prop :=
  (∀ q sp, readSpot t q sp = readSpot s q sp) ∧ ∀ a, byteAt t.mem a = byteAt s.mem a

/-- Nothing of a strand has changed but its pending interrupt lines. -/
def SameButLines (x y : Strand) : Prop := { y with irq := x.irq } = x

/-- The strand's registers after a memory instruction: the given files, the SET counter up, control gone on, every other field of the strand as it
was; and no other strand has changed. An interrupt line becomes pending only where a full L2 slice gives up a line whose home does not answer (spec/22 R370, R379). -/
structure RegsAfter (c : Common) (s t : State) (fs : SReg → Word) (fk : KReg → Word) (fv : VReg → Vec) : Prop where
  scalar : ∀ r, getS (me t) r = fs r
  guards : ∀ r, getG (me t) r = getG (me s) r
  masks : ∀ r, getK (me t) r = fk r
  vectors : ∀ r, getV (me t) r = fv r
  counter : CounterUp c (me s) (me t)
  goes : GoesOn c (me s) (me t)
  rest : SameButRegisters (me s) { me t with irq := (me s).irq }
  strands : ∀ k, k ≠ s.cur → SameButLines (getStrand s k) (getStrand t k)
  lines : Roomy s (clusterOf s.cur) 64 → ∀ k, (getStrand t k).irq = (getStrand s k).irq

/-- A window descriptor admits `n` bytes at a pool offset to a source core for a kind of access (spec/06 R120, R121). -/
def Admits (w : BitVec 128) (src off n : Nat) (k : AccKind) : Prop :=
  w.getLsbD 63 = true ∧ w.getLsbD (64 + src) = true ∧ (w.extractLsb' 7 7).toNat ≠ 0 ∧
  (w.extractLsb' 0 6).toNat + (w.extractLsb' 7 7).toNat ≤ 64 ∧
  (w.extractLsb' 0 6).toNat * 0x4000 ≤ off ∧ off + n ≤ ((w.extractLsb' 0 6).toNat + (w.extractLsb' 7 7).toNat) * 0x4000 ∧
  (k ≠ .write → w.getLsbD 62 = true) ∧ (k = .write ∨ k = .atomic → w.getLsbD 61 = true)

end Sys2Proof.Claims

/-- R117, R118, R119, R121: where an access of `n` bytes goes. A misaligned address is refused first; in the own pool and in the cluster space an access that
extends beyond the range is refused; the core's own number in the cluster space is its own pool, and another core's pool is
reached exactly where one of its descriptors admits the access. A strand's access to a pool waits for its earlier loads of that pool that the step has deferred (log 7). -/
def Obligations.AccessChecks : Prop :=
  ∀ (s : State) (a : Actor) (ea n : Nat) (k : AccKind), 0 < n →
    (∀ as, ea % n ≠ 0 → locate s a as ea n n k = .fault 0xD ea) ∧
    (ea % n = 0 → 0x100000 < ea + n → locate s a .own ea n n k = .fault 0xF ea) ∧
    (ea % n = 0 → 0x4000000 < ea + n → locate s a .clus ea n n k = .fault 0xF ea) ∧
    (ea % n = 0 → ea + n ≤ 0x100000 → locate s a .own ea n n k = if poolHeld s a a.core then .wait none else poolLoc s a.core ea n a.no) ∧
    (ea % n = 0 → ea + n ≤ 0x4000000 → a.core % 64 = ea / 0x100000 →
      locate s a .clus ea n n k = if poolHeld s a a.core then .wait none else poolLoc s a.core (ea % 0x100000) n a.no) ∧
    (ea % n = 0 → ea + n ≤ 0x4000000 → a.core % 64 ≠ ea / 0x100000 →
      let target := a.core / 64 * 64 + ea / 0x100000
      (∀ x, (getCore s target).owner = some x → (getCtx s x).saved = false) →
      ((∃ j, j < 4 ∧ Admits (mget 0 (getCore s target).pwin j) (a.core % 64) (ea % 0x100000) n k) →
        locate s a .clus ea n n k = if poolHeld s a target then .wait none else poolLoc s target (ea % 0x100000) n none) ∧
      ((∀ j, j < 4 → ¬ Admits (mget 0 (getCore s target).pwin j) (a.core % 64) (ea % 0x100000) n k) →
        locate s a .clus ea n n k = .fault 7 ea)) ∧
    (∀ c, poolHeld s a c = true ↔ ∃ k, a.strand = some k ∧ ∃ f ∈ (getStrand s k).inflight, ∃ p, f.load = some p ∧ ∃ l ∈ p.lanes, ∃ off, l.loc = .pool c off)

/-- R124: LD reads the element at its effective address, extends it as its type says and writes DST; where the location is memory, no byte of any pool and
no byte of global memory changes, for any core. The value is that of the issue, or, where the step defers a load from global memory or from a pool above its registers and tiles,
that of its landing, at which DST is written: both are runs of the model (log 7). A load that meets an uncorrected error when it lands traps with cause 0x0E and the address it named (where it then stands, log 103).
A full L2 slice gives up a line for the one it reads (log 9), whose dirty bytes go home. -/
def Obligations.LoadResult : Prop :=
  (∀ (c : Common) (s : State) (t : Ty) (as : Space) (d a : SReg) (o : BitVec 32) (l : Loc),
    let i := Instr.ld c t as d a o
    let m := opened i c s
    t.isNum = true → locate m (strandActor m s.cur) as (addressOf s a o) (t.width / 8) (t.width / 8) .read = .ok l →
    (∀ key e, l = .glob key e → key % (t.width / 8) = 0) →
    (s.late = false ∨ laterLoc m l = none → Gives i c s fun u =>
      (∀ r, getS (me u) r = if r = d ∧ r ≠ 0 then loaded t (valueAt m (coreOf s.cur) l (t.width / 8)) else getS (me s) r) ∧
      ((∀ pa, l ≠ .ctl pa) → HomeKept s u (clusterOf s.cur) ∧ (Roomy s (clusterOf s.cur) 64 → SameMemory s u) ∧
        RegsAfter c s u (fun r => if r = d ∧ r ≠ 0 then loaded t (valueAt m (coreOf s.cur) l (t.width / 8)) else getS (me s) r)
          (getK (me s)) (getV (me s)))) ∧
    (∀ q, s.late = true → laterLoc m l = some q → Gives i c s fun u =>
      SameMemory s u ∧ RegsAfter c s u (getS (me s)) (getK (me s)) (getV (me s)) ∧
      ∃ f p r, (me u).inflight = (me s).inflight ++ f :: r ∧ f.ctr = c.set ∧ f.load = some p ∧ p.vec = false ∧ p.dst = d.toNat ∧ p.ty = t ∧
        p.lanes = [⟨0, addressOf s a o, q⟩]) ∧
    (∀ key e, laterLoc m (.glob key e) = some (.glob key))) ∧
  (∀ (s : State) (k i : Nat) (f : Flight) (p : PendLoad) (d : SReg) (l : LoadLane),
    (getStrand s k).inflight[i]? = some f → f.load = some p → p.vec = false → p.dst = d.toNat → p.ty.isNum = true → p.lanes = [l] →
    AlignedLanes p.lanes (p.ty.width / 8) →
    let u := landAt s k i
    ((∀ key, l.loc = .glob key → poisoned s (coreOf k) key (p.ty.width / 8) = false) →
      HasLanded s u k i f ∧
      ∀ q, getS (getStrand u k) q = if q = d ∧ q ≠ 0 then loaded p.ty (laneValue s (coreOf k) l.loc (p.ty.width / 8)) else getS (getStrand s k) q) ∧
    (∀ key, l.loc = .glob key → poisoned s (coreOf k) key (p.ty.width / 8) = true → (getStrand s k).run = .running → (getStrand s k).vtabQ = [] →
      (getStrand u k).cause = 0xE ∧ (getStrand u k).tval = BitVec.ofNat 64 l.va ∧ (getStrand u k).inflight = (getStrand s k).inflight.eraseIdx i ∧
      ∀ q, getS (getStrand u k) q = getS (getStrand s k) q))

/-- R124, R117, R126, R254: ST writes the low bytes of its data register at its effective address, as the storing core sees it, and no other
byte: other spots, and the stored ones as other cores see them and at their homes, are unchanged until the store lands. A store to another core's pool is performed at its issue (log 96). A full L2 slice gives up a line for
the one it stores to (log 9), whose dirty bytes go home. -/
def Obligations.StoreResult : Prop :=
  ∀ (c : Common) (s : State) (t : Ty) (as : Space) (d a : SReg) (o : BitVec 32) (l : Loc),
    let i := Instr.st c t as d a o
    let m := opened i c s
    t.isNum = true → locate m (strandActor m s.cur) as (addressOf s a o) (t.width / 8) (t.width / 8) .write = .ok l → plainLoc l (t.width / 8) →
    Gives i c s fun u =>
      (∀ sp j, placeIn l (t.width / 8) sp = some j → readSpot u (coreOf s.cur) sp = BitVec.ofNat 8 ((getS (me s) d).toNat / 256 ^ j)) ∧
      HomeKept s u (clusterOf s.cur) ∧
      (Roomy s (clusterOf s.cur) 64 → (∀ sp, placeIn l (t.width / 8) sp = none → readSpot u (coreOf s.cur) sp = readSpot s (coreOf s.cur) sp) ∧
        (∀ q x, q ≠ coreOf s.cur → seen u q x = seen s q x) ∧ (∀ x, byteAt u.mem x = byteAt s.mem x)) ∧
      RegsAfter c s u (getS (me s)) (getK (me s)) (getV (me s))

/-- R20, R15, R21: an eight-byte store to a register block of a live strand writes the register that lies there, a store to `s0` or `k0` is discarded, and at task
level the counters and the tile words are not writable. -/
def Obligations.RegisterBlockStores : Prop :=
  ∀ (s : State) (q j v : Nat) (sys : Bool), j < liveCount (getCore s q) → j < 4 → v < 2 ^ 64 →
    let k := 4 * q + j
    let old := getStrand s k
    (∀ r : SReg, ∀ n, getS (getStrand (poolWrite s q (0x1000 * j + 8 * r.toNat) 8 v sys) k) n =
      if n = r ∧ n ≠ 0 then BitVec.ofNat 64 v else getS old n) ∧
    (∀ r : KReg, ∀ n, getK (getStrand (poolWrite s q (0x1000 * j + 0x100 + 8 * r.toNat) 8 v sys) k) n =
      if n = r ∧ n ≠ 0 then BitVec.ofNat 64 v else getK old n) ∧
    (∀ n : GReg, getG (getStrand (poolWrite s q (0x1000 * j + 0x140) 8 v sys) k) n = (if n = 7 then true else v.testBit n.toNat)) ∧
    (∀ n, n < 6 → getD (getStrand (poolWrite s q (0x1000 * j + 0x148) 8 v sys) k) n = if sys then v / 2 ^ (6 * n) % 64 else getD old n) ∧
    (∀ a n : AReg, getTile (getStrand (poolWrite s q (0x1000 * j + 0x150 + 8 * a.toNat) 8 v sys) k) n.toNat =
      if sys ∧ n = a then BitVec.ofNat 18 v else getTile old n.toNat) ∧
    (∀ r : VReg, ∀ e, e < 8 → ∀ n, ∀ f, f < 8 →
      (getV (getStrand (poolWrite s q (0x1000 * j + 0x400 + 64 * r.toNat + 8 * e) 8 v sys) k) n).extractLsb' (64 * f) 64 =
        if n = r ∧ f = e then BitVec.ofNat 64 v else (getV old n).extractLsb' (64 * f) 64)

/-- R125: LDV reads every enabled lane at its place, a disabled lane keeps its value (LDV.M) or becomes zero (LDV), and no memory changes. The lanes' values are
those of the issue, or, where the step defers a load whose lanes all lie in global memory or in pools above their registers and tiles, those of its landing: both are runs of the
model (log 7). How a window admits its lanes is log 34. -/
def Obligations.VectorLoad : Prop :=
  (∀ (c : Common) (s : State) (keep : Bool) (t : Ty) (as : Space) (km : KReg) (d : VReg) (a : SReg) (o : BitVec 32) (ls : List (Nat × Loc)),
    let i := Instr.ldv c keep t as km d a o
    let m := opened i c s
    let lanes := (List.range t.lanes).filter fun j => (getK (me s) km).getLsbD j
    t.isNum = true → vecLocs m (strandActor m s.cur) as (addressOf s a o) (t.width / 8) .read lanes = .ok ls →
    (∀ e ∈ ls, (∀ pa, e.2 ≠ .ctl pa) ∧ ∀ key x, e.2 = .glob key x → key % (t.width / 8) = 0) →
    ls.map Prod.fst = lanes ∧
    (s.late = false ∨ ls = [] ∨ (∃ e ∈ ls, laterLoc m e.2 = none) → Gives i c s fun u =>
      HomeKept s u (clusterOf s.cur) ∧ (Roomy s (clusterOf s.cur) 64 → SameMemory s u) ∧
      RegsAfter c s u (getS (me s)) (getK (me s)) (fun r => if r = d then getV (me u) d else getV (me s) r) ∧
      (∀ e ∈ ls, (Roomy s (clusterOf s.cur) 64 ∨ ∀ key x, e.2 ≠ .glob key x) →
        (getV (me u) d).extractLsb' (t.width * e.1) t.width = BitVec.ofNat t.width (valueAt m (coreOf s.cur) e.2 (t.width / 8))) ∧
      ∀ j, j < t.lanes → (getK (me s) km).getLsbD j = false →
        (getV (me u) d).extractLsb' (t.width * j) t.width = if keep then (getV (me s) d).extractLsb' (t.width * j) t.width else 0) ∧
    (s.late = true → ls ≠ [] → (∀ e ∈ ls, laterLoc m e.2 ≠ none) → Gives i c s fun u =>
      SameMemory s u ∧ RegsAfter c s u (getS (me s)) (getK (me s)) (getV (me s)) ∧
      ∃ f p r, (me u).inflight = (me s).inflight ++ f :: r ∧ f.ctr = c.set ∧ f.load = some p ∧ p.vec = true ∧ p.dst = d.toNat ∧ p.ty = t ∧ p.merge = keep ∧
        p.mask = getK (me s) km ∧ p.lanes.map LoadLane.j = lanes ∧
        ∀ e ∈ ls, ∀ q, laterLoc m e.2 = some q → ⟨e.1, addressOf s a o + e.1 * (t.width / 8), q⟩ ∈ p.lanes)) ∧
  (∀ (s : State) (k i : Nat) (f : Flight) (p : PendLoad) (d : VReg),
    (getStrand s k).inflight[i]? = some f → f.load = some p → p.vec = true → p.dst = d.toNat → p.ty.isNum = true → Roomy s (clusterOf k) 64 →
    p.lanes.map LoadLane.j = (List.range p.ty.lanes).filter (fun j => p.mask.getLsbD j) → AlignedLanes p.lanes (p.ty.width / 8) →
    (∀ l ∈ p.lanes, ∀ key, l.loc = .glob key → poisoned s (coreOf k) key (p.ty.width / 8) = false) →
    let u := landAt s k i
    HasLanded s u k i f ∧ (∀ q, q ≠ d → getV (getStrand u k) q = getV (getStrand s k) q) ∧
    (∀ l ∈ p.lanes, (getV (getStrand u k) d).extractLsb' (p.ty.width * l.j) p.ty.width =
      BitVec.ofNat p.ty.width (laneValue s (coreOf k) l.loc (p.ty.width / 8))) ∧
    (∀ j, j < p.ty.lanes → p.mask.getLsbD j = false → (getV (getStrand u k) d).extractLsb' (p.ty.width * j) p.ty.width =
      if p.merge then (getV (getStrand s k) d).extractLsb' (p.ty.width * j) p.ty.width else 0))

/-- R125: STV writes its enabled lanes at their places and no other byte. How a window admits its lanes is log 34; a store to another core's pool is performed at its issue (log 96). A full L2 slice gives up lines for those it stores to (log 9). -/
def Obligations.VectorStore : Prop :=
  ∀ (c : Common) (s : State) (t : Ty) (as : Space) (km : KReg) (d : VReg) (a : SReg) (o : BitVec 32) (ls : List (Nat × Loc)),
    let i := Instr.stv c t as km d a o
    let m := opened i c s
    let lanes := (List.range t.lanes).filter fun j => (getK (me s) km).getLsbD j
    let put := fun (sp : Spot) (b : Byte) => ls.foldl (fun b e =>
        match placeIn e.2 (t.width / 8) sp with
        | some j => BitVec.ofNat 8 ((getV (me s) d).toNat / 2 ^ (t.width * e.1) / 256 ^ j)
        | none => b) b
    t.isNum = true → vecLocs m (strandActor m s.cur) as (addressOf s a o) (t.width / 8) .write lanes = .ok ls →
    (∀ e ∈ ls, plainLoc e.2 (t.width / 8)) →
    Gives i c s fun u =>
      ls.map Prod.fst = lanes ∧ HomeKept s u (clusterOf s.cur) ∧
      (∀ sp, (∃ e ∈ ls, (placeIn e.2 (t.width / 8) sp).isSome = true) → readSpot u (coreOf s.cur) sp = put sp 0) ∧
      (Roomy s (clusterOf s.cur) 64 → (∀ sp, readSpot u (coreOf s.cur) sp = put sp (readSpot s (coreOf s.cur) sp)) ∧
        (∀ q x, q ≠ coreOf s.cur → seen u q x = seen s q x) ∧ (∀ x, byteAt u.mem x = byteAt s.mem x)) ∧
      RegsAfter c s u (getS (me s)) (getK (me s)) (getV (me s))

/-- R127, R128, R129: the lanes of a gather or scatter go in ascending order, each at base plus its index shifted by SCL. An enabled lane inside its bound whose access does not
fail receives the element at its location, as the core sees it when the lanes before it are done, or stores its element there and nowhere else; its flags are clear. A lane that
is disabled keeps its value, a sentinel lane and a lane out of its bound receive the fill value, with the out-of-range flag of the latter set, and a lane whose access fails receives
it with its fault flag set. The flags are written to OK and FK; a gather writes no other register and no byte of memory, a scatter no byte but those of its stores. Where no lane
waits, or fails with one of the causes that trap the whole instruction (log 35), the instruction completes. Where a lane is refused, trap 0x07 follows with the first such address in
TVAL and the next instruction in EPC (R130), all the above having been done. A gather's values are those of its issue, or, where the step defers its lanes, those of its landing, when
they are written as those of an LDV.M: both are runs of the model (log 7). A store to another core's pool is performed at its issue (log 96). -/
def Obligations.GatherScatter : Prop :=
  ∀ (c : Common) (s : State) (t : Ty) (d : VReg) (sa : SReg) (sb : VReg) (sc : SReg) (x : Gather) (st : Bool),
    let i := if st then Instr.stg c t d sa sb sc x else Instr.ldg c t d sa sb sc x
    let m := opened i c s
    let act := strandActor m s.cur
    let w := match x.iw with | .w8 => 8 | .w16 => 16 | .w32 => 32 | .w64 => 64
    let n := 512 / max t.width w
    let size := t.width / 8
    let fill := if x.fill then (getS (me s) x.fr).toNat else 0
    let index := fun j => (getV (me s) sb).toNat / 2 ^ (w * j) % 2 ^ w
    let value : Nat → Int := fun j => if x.isg ∧ 2 ^ (w - 1) ≤ index j then (index j : Int) - 2 ^ w else index j
    let outside := fun j => !x.nbnd && (decide (value j < 0) || decide (((getS (me s) sc).toNat : Int) ≤ value j))
    let args := fun later => gatherArgs st later t d sa sb sc x (me s)
    let start : GatherRun := ⟨m, getV (me s) d, 0, 0, none, []⟩
    let run := fun later => gatherRun t x (args later) act (List.range n) start
    let lane := LaneAt t x (args false) act start
    let written := fun (u : State) (r : GatherRun) =>
      (x.fk ≠ 0 → getK (me u) x.fk = r.fk) ∧ (x.ok ≠ 0 → x.ok ≠ x.fk → getK (me u) x.ok = r.ok) ∧ (st = false → getV (me u) d = r.v) ∧ SameMemory r.s u
    let plain := fun later => ∀ j ea q l pa, j < n → LaneAt t x (args later) act start j ea q l → l ≠ .ctl pa
    let put := fun (at' : Nat → Option Loc) (sp : Spot) (b : Byte) => (List.range n).foldl (fun b j =>
        match (at' j).bind fun l => placeIn l size sp with
        | some y => BitVec.ofNat 8 ((getV (me s) d).toNat / 2 ^ (t.width * j) / 256 ^ y)
        | none => b) b
    t.isNum = true →
    (∀ j, j < n → index j ≠ 2 ^ w - 1 → outside j = false →
      laneAddr x (args false) j = .ok (getS (me s) sa + BitVec.ofInt 64 (value j * 2 ^ x.scl.toNat)).toNat) ∧
    ((∀ j ea q, j < n → (getK (me s) x.km).getLsbD j = true → laneAddr x (args false) j = .ok ea → gatherRun t x (args false) act (List.range j) start = .ok q →
      let a := locate q.s act x.as ea size size (if st then .write else .read)
      (∀ b, a ≠ .wait b) ∧ ∀ cause tv, a = .fault cause tv → cause ≠ 3 ∧ cause ≠ 0xE) → ∃ r, run false = .ok r) ∧
    (∀ r, run false = .ok r →
      (s.late = false ∨ st = true ∨ (∃ q, run true = .ok q ∧ (q.got = [] ∨ q.refused ≠ none)) →
        (∀ ea, r.refused = some ea → (me s).vtabQ = [] → Gives i c s fun u =>
          (me u).cause = 7 ∧ (me u).tval = BitVec.ofNat 64 ea ∧ (me u).epc = after c s ∧ (me u).pc = (me s).tvec &&& ~~~ 3#64 ∧ written u r) ∧
        (r.refused = none → Gives i c s fun u =>
          (∀ q, getS (me u) q = getS (me r.s) q) ∧ (∀ q, q ≠ x.ok → q ≠ x.fk → getK (me u) q = getK (me r.s) q) ∧
          (∀ q, q ≠ d ∨ st = true → getV (me u) q = getV (me r.s) q) ∧ (plain false → GoesOn c (me s) (me u) ∧ CounterUp c (me s) (me u)) ∧ written u r)) ∧
      (plain false → HomeKept s r.s (clusterOf s.cur)) ∧
      (st = false → (plain false → Roomy s (clusterOf s.cur) 64 → SameMemory s r.s) ∧ (∀ q, getS (me r.s) q = getS (me s) q) ∧ (∀ q, getK (me r.s) q = getK (me s) q) ∧
        ∀ q, getV (me r.s) q = getV (me s) q) ∧
      (∀ at' : Nat → Option Loc, st = true → (∀ j l, j < n → (at' j = some l ↔ ∃ ea q, lane j ea q l)) → (∀ j l, j < n → at' j = some l → plainLoc l size) →
        (∀ sp, (∃ j l, j < n ∧ at' j = some l ∧ (placeIn l size sp).isSome = true) → readSpot r.s (coreOf s.cur) sp = put at' sp 0) ∧
        (Roomy s (clusterOf s.cur) 64 → (∀ sp, readSpot r.s (coreOf s.cur) sp = put at' sp (readSpot s (coreOf s.cur) sp)) ∧
          (∀ q y, q ≠ coreOf s.cur → seen r.s q y = seen s q y) ∧ ∀ y, byteAt r.s.mem y = byteAt s.mem y) ∧
        (∀ q, getS (me r.s) q = getS (me s) q) ∧ (∀ q, getK (me r.s) q = getK (me s) q) ∧ ∀ q, getV (me r.s) q = getV (me s) q) ∧
      (∀ j, n ≤ j → r.ok.getLsbD j = false ∧ r.fk.getLsbD j = false) ∧
      (∀ j, j < n →
        let new := r.v.extractLsb' (t.width * j) t.width
        let old := (getV (me s) d).extractLsb' (t.width * j) t.width
        (∀ ea q l, lane j ea q l → r.ok.getLsbD j = false ∧ r.fk.getLsbD j = false ∧
          (st = false → (∀ key e, l = .glob key e → key % size = 0) → new = BitVec.ofNat t.width (valueAt q.s (coreOf s.cur) l size)) ∧
          (st = false → plain false → Roomy s (clusterOf s.cur) 64 → SameMemory s q.s)) ∧
        (∀ ea q cause tv, (getK (me s) x.km).getLsbD j = true → laneAddr x (args false) j = .ok ea → gatherRun t x (args false) act (List.range j) start = .ok q →
          locate q.s act x.as ea size size (if st then .write else .read) = .fault cause tv → r.ok.getLsbD j = false ∧ r.fk.getLsbD j = true) ∧
        ((getK (me s) x.km).getLsbD j = false → (st = false → new = old) ∧ r.ok.getLsbD j = false ∧ r.fk.getLsbD j = false) ∧
        ((getK (me s) x.km).getLsbD j = true → index j = 2 ^ w - 1 →
          r.ok.getLsbD j = false ∧ r.fk.getLsbD j = false ∧ (st = false → new = BitVec.ofNat t.width fill)) ∧
        ((getK (me s) x.km).getLsbD j = true → index j ≠ 2 ^ w - 1 → outside j = true →
          r.ok.getLsbD j = true ∧ r.fk.getLsbD j = false ∧ (st = false → new = BitVec.ofNat t.width fill)) ∧
        ((getK (me s) x.km).getLsbD j = true → index j ≠ 2 ^ w - 1 → outside j = false →
          r.ok.getLsbD j = false ∧ (st = false → r.fk.getLsbD j = true → new = BitVec.ofNat t.width fill)))) ∧
    (∀ r, st = false → s.late = true → run true = .ok r → r.got ≠ [] → r.refused = none → Gives i c s fun u =>
      written u r ∧ (plain true → SameMemory s r.s ∧ GoesOn c (me s) (me u) ∧ CounterUp c (me s) (me u)) ∧
      (∀ q, getS (me u) q = getS (me s) q) ∧ (∀ q, q ≠ x.ok → q ≠ x.fk → getK (me u) q = getK (me s) q) ∧ (∀ q, q ≠ d → getV (me u) q = getV (me s) q) ∧
      ∃ f p rest, (me u).inflight = (me s).inflight ++ f :: rest ∧ f.ctr = c.set ∧ f.load = some p ∧ p.vec = true ∧ p.dst = d.toNat ∧ p.ty = t ∧ p.merge = true ∧
        p.lanes = r.got ∧ (∀ j, j < n → (p.mask.getLsbD j = true ↔ ∃ l ∈ r.got, l.j = j)) ∧
        ∀ j ea q l y, j < n → LaneAt t x (args true) act start j ea q l → laterLoc q.s l = some y → ⟨j, ea, y⟩ ∈ r.got)

/-- R131, R132, R133: PREF takes the next copy-engine ticket into DST and hands the engine one command for its range; WB leaves no dirty copy of a line of
its range in the issuing core or its L2 slice and INV no copy at all, and neither changes a byte of memory outside the range; ICINV leaves
no window of the range in the instruction caches of its scope. PREF does not issue while its strand has a merged atomic on its way, or a store bound for the host port or the fabric interface that the port has not
accepted (log 41: R208 says when the command is handed over). What is said of bytes holds where the
L2 slice has room for the lines of the core; a full one gives up lines (log 9). -/
def Obligations.CacheInstructions : Prop :=
  ∀ (c : Common) (s : State) (d a b : SReg) (o : BitVec 32) (sc : Scope),
    let runs := fun i => rangeOf (opened i c s) a b
    let length := min (getS (me s) b).toNat 0x100000000
    let roomy := Roomy s (clusterOf s.cur) (getCore s (coreOf s.cur)).dcache.length
    (handReady s s.cur = true ↔ hasReduction s s.cur = false ∧ ∀ f ∈ (me s).inflight, ∀ line ∈ f.lines, line * 128 < 0x8000000000000) ∧
    (handReady s s.cur = false → Gives (.pref c d a b o) c s (fun u => u = s)) ∧
    (handReady s s.cur = true → Gives (.pref c d a b o) c s (fun u =>
      (me u).copyN.iss = (me s).copyN.iss + 1 ∧
      (∀ r, getS (me u) r = if r = d ∧ r ≠ 0 then BitVec.ofNat 64 ((me s).copyN.iss + 1) else getS (me s) r) ∧
      (∃ q, (getCluster u (clusterOf s.cur)).copies = (getCluster s (clusterOf s.cur)).copies ++ [q] ∧ q.kind = .pref ∧
        q.strand = some s.cur ∧ q.ticket = (me s).copyN.iss + 1 ∧ q.addr = BitVec.ofNat 64 (addressOf s a o) ∧ q.len = length) ∧
      (roomy → (∀ x, byteAt u.mem x = byteAt s.mem x) ∧ ∀ x, seen u (coreOf s.cur) x = seen s (coreOf s.cur) x))) ∧
    Gives (.wb c a b) c s (fun u =>
      (∀ line l, lineInRuns (runs (.wb c a b)) line = true → coreLine u (coreOf s.cur) line = some l ∨ l2Line u (clusterOf s.cur) line = some l → l.dirty = 0) ∧
      (roomy → (∀ x, lineInRuns (runs (.wb c a b)) (x / 128) = false → byteAt u.mem x = byteAt s.mem x) ∧
        ∀ x, seen u (coreOf s.cur) x = seen s (coreOf s.cur) x) ∧ (∀ r, getS (me u) r = getS (me s) r)) ∧
    Gives (.inv c a b) c s (fun u =>
      (∀ line, lineInRuns (runs (.inv c a b)) line = true → coreLine u (coreOf s.cur) line = none ∧ l2Line u (clusterOf s.cur) line = none) ∧
      (roomy → ∀ x, lineInRuns (runs (.inv c a b)) (x / 128) = false → byteAt u.mem x = byteAt s.mem x) ∧ (∀ r, getS (me u) r = getS (me s) r)) ∧
    Gives (.icinv c sc a b) c s (fun u =>
      (∀ q w, (sc ≠ .strand ∧ q = coreOf s.cur) ∨ (sc = .cluster ∧ clusterOfCore q = clusterOf s.cur) ∨
          (sc = .basin ∧ clusterOfCore q / 2 = clusterOf s.cur / 2) ∨ (sc = .device ∧ clusterOfCore q < 16) →
        inRuns (runs (.icinv c sc a b)) (w * 32) 32 = true → mhas (getCore u q).icache w = false) ∧
      (roomy → ∀ x, lineInRuns (runs (.icinv c sc a b)) (x / 128) = false → byteAt u.mem x = byteAt s.mem x) ∧ (∀ r, getS (me u) r = getS (me s) r))

namespace Sys2Proof.Claims

/-- Element `j` of a vector register of a strand, at the width of a type (spec/07 R138). -/
def elementOf (x : Strand) (t : Ty) (r : VReg) (j : Nat) : Nat := (getV x r).toNat / 2 ^ (t.width * j) % 2 ^ t.width

/-- Is a lane enabled by a mask? A mask bit covers a byte of lanes for type BIT (spec/07 R138). -/
def enabledBy (m : Word) (t : Ty) (j : Nat) : Bool := m.getLsbD (if t = .bit then j / 8 else j)

/-- A vector register whose enabled lanes hold the values of a function, and whose other lanes are zero or as they were. -/
def LanesAre (t : Ty) (m : Word) (zero : Bool) (old new : Vec) (f : Nat → Nat) : Prop :=
  ∀ j, j < t.lanes → new.extractLsb' (t.width * j) t.width =
    if enabledBy m t j then BitVec.ofNat t.width (f j) else if zero then 0 else old.extractLsb' (t.width * j) t.width

/-- An instruction completes, writing the enabled lanes of one vector register and nothing else. -/
def GivesLanes (i : Instr) (c : Common) (s : State) (t : Ty) (zero : Bool) (km : KReg) (d : VReg) (f : Nat → Nat) : Prop :=
  Gives i c s fun u => ∃ v, ResultV c s d v u ∧ LanesAre t (getK (me s) km) zero (getV (me s) d) v f

/-- An exact integer result put in a lane: modulo 2^width, or saturated (spec/07 R140). -/
def narrowed (t : Ty) (sat : Bool) (n : Int) : Nat :=
  let lo : Int := if t.isSigned then -2 ^ (t.width - 1) else 0
  let hi : Int := if t.isSigned then 2 ^ (t.width - 1) - 1 else 2 ^ t.width - 1
  ((if sat then min (max n lo) hi else n) % 2 ^ t.width).toNat

/-- The comparison of two elements (spec/07 R145): of integers, or of floating-point values with NaN unordered. -/
def elementTest (q : VCond) (t : Ty) (a b : Nat) : Bool :=
  match q with
  | .eq => if t.isFloat then eqF (fmtOf t) a b else decide (intOf t a = intOf t b)
  | .ne => if t.isFloat then !eqF (fmtOf t) a b else decide (intOf t a ≠ intOf t b)
  | .lt => if t.isFloat then ltF (fmtOf t) a b else decide (intOf t a < intOf t b)
  | .ge => if t.isFloat then ltF (fmtOf t) b a || eqF (fmtOf t) a b else decide (intOf t b ≤ intOf t a)
  | .le => if t.isFloat then ltF (fmtOf t) a b || eqF (fmtOf t) a b else decide (intOf t a ≤ intOf t b)
  | .gt => if t.isFloat then ltF (fmtOf t) b a else decide (intOf t b < intOf t a)
  | .un => t.isFloat && (isNan (fmtOf t) a || isNan (fmtOf t) b)

/-- The order in which VREDMAX and VREDMIN compare: integers by value, floating-point values with -0 below +0. -/
def rankOf (t : Ty) (b : Nat) : Int := if t.isFloat then orderKey (fmtOf t) b else intOf t b

/-- The enabled lanes of a type, ascending. -/
def lanesOn (m : Word) (t : Ty) : List Nat := (List.range t.lanes).filter fun j => enabledBy m t j

/-- The binade of a finite non-zero value, floor(log2 |v|), and whether a value is finite. -/
def binadeOf : Val → Option Int
  | .fin _ m x => if m = 0 then none else some (Nat.log2 m + x)
  | _ => none
def isFinite : Val → Bool
  | .fin .. => true
  | _ => false

/-- Block formation of a group of values at width `b` (spec/02 R40, R41): in propagate mode a NaN block where a value is not finite; else each such value is replaced by zero
and counted, the scale is one more than the greatest binade, above bias 127 and held within 0 to 254, and a mantissa is its value at that scale, rounded to nearest
even and held within `b` bits. -/
def BlockFormed (zc : Bool) (b : Nat) (vs : List Val) (r : Formed) : Prop :=
  (zc = false → (∃ v ∈ vs, isFinite v = false) → r.g.e = 255 ∧ r.g.m = vs.map (fun _ => 0) ∧ r.nan = true ∧ r.sat = false ∧ r.count = 0) ∧
  (zc = true ∨ (∀ v ∈ vs, isFinite v = true) →
    r.nan = false ∧ r.count = vs.countP (fun v => !isFinite v) ∧ r.g.m.length = vs.length ∧
    ((∀ v ∈ vs, binadeOf v = none) → r.g.e = 0 ∧ r.sat = false ∧ ∀ m ∈ r.g.m, m = 0) ∧
    (∀ e : Int, (∃ v ∈ vs, binadeOf v = some e) → (∀ v ∈ vs, ∀ x, binadeOf v = some x → x ≤ e) →
      r.sat = decide (254 < e + 128) ∧ (r.g.e : Int) = min (max (e + 128) 0) 254 ∧
      (∀ (j : Nat) (v : Val), vs[j]? = some v → isFinite v = false → r.g.m[j]? = some 0) ∧
      ∀ (j : Nat) (neg : Bool) (m : Nat) (x : Int), vs[j]? = some (Val.fin neg m x) →
        let y : Int := x + b - 1 + 127 - r.g.e
        ∃ t, NearestInt ((if neg then -1 else 1) * (m * 2 ^ y.toNat)) (-y).toNat t ∧ r.g.m[j]? = some (clampI (-2 ^ (b - 1)) (2 ^ (b - 1) - 1) t)))

/-- An entry's bound is at most an input: its x is no NaN and not above it (spec/07 R161). -/
def AtMost (e : TabEntry) (f : Fmt) (x : Nat) : Prop :=
  isNan fmtF32 e.x.toNat = false ∧
  (e.x = 0xFF800000#32 ∨ x = (2 ^ f.eb - 1) * 2 ^ f.fb ∨
    finEnc fmtF32 e.x.toNat ∧ finEnc f x ∧ units fmtF32 e.x.toNat * 2 ^ unitExp f ≤ units f x * 2 ^ unitExp fmtF32)

/-- The segment of a table for an input: the last entry that is at most it, or the first where there is none. -/
def Segment (tab : List TabEntry) (f : Fmt) (x i : Nat) : Prop :=
  (∃ e : TabEntry, tab[i]? = some e ∧ (AtMost e f x ∨ i = 0 ∧ ∀ e ∈ tab, ¬ AtMost e f x)) ∧ ∀ (j : Nat) (e : TabEntry), i < j → tab[j]? = some e → ¬ AtMost e f x

end Sys2Proof.Claims

/-- R140, R143: element-wise arithmetic: exact on integers and then reduced modulo 2^width or saturated, rounded once on floating-point types. -/
def Obligations.VectorArithmetic : Prop :=
  ∀ (c : Common) (s : State) (t : Ty) (mz sat : Bool) (km : KReg) (d a b e : VReg),
    let p := elementOf (me s) t a
    let q := elementOf (me s) t b
    let r := elementOf (me s) t e
    let f := fmtOf t
    GivesLanes (.vadd c t mz sat km d a b) c s t mz km d (fun j =>
      if t.isFloat then addF f (p j) (q j) else narrowed t sat (intOf t (p j) + intOf t (q j))) ∧
    GivesLanes (.vsub c t mz sat km d a b) c s t mz km d (fun j =>
      if t.isFloat then subF f (p j) (q j) else narrowed t sat (intOf t (p j) - intOf t (q j))) ∧
    GivesLanes (.vmul c t mz sat km d a b) c s t mz km d (fun j =>
      if t.isFloat then mulF f (p j) (q j) else narrowed t sat (intOf t (p j) * intOf t (q j))) ∧
    GivesLanes (.vmad c t mz sat km d a b e) c s t mz km d (fun j =>
      if t.isFloat then fmaF f (p j) (q j) (r j) else narrowed t sat (intOf t (p j) * intOf t (q j) + intOf t (r j))) ∧
    GivesLanes (.vmin c t mz km d a b) c s t mz km d (fun j =>
      if t.isFloat then minF f (p j) (q j) else narrowed t false (min (intOf t (p j)) (intOf t (q j)))) ∧
    GivesLanes (.vmax c t mz km d a b) c s t mz km d (fun j =>
      if t.isFloat then maxF f (p j) (q j) else narrowed t false (max (intOf t (p j)) (intOf t (q j)))) ∧
    GivesLanes (.vabs c t mz sat km d a) c s t mz km d (fun j =>
      if t.isFloat then (if isNan f (p j) then f.nan else p j % 2 ^ (t.width - 1)) else narrowed t sat ((intOf t (p j)).natAbs : Int)) ∧
    GivesLanes (.vneg c t mz sat km d a) c s t mz km d (fun j =>
      if t.isFloat then (if isNan f (p j) then f.nan else p j ^^^ 2 ^ (t.width - 1)) else narrowed t sat (-intOf t (p j)))

/-- R144, R146: bitwise logic and shifts by the whole of a lane; VSEL takes a where the mask is 1 and b where it is 0. -/
def Obligations.VectorLogic : Prop :=
  ∀ (c : Common) (s : State) (t : Ty) (mz : Bool) (km : KReg) (d a b : VReg),
    let p := elementOf (me s) t a
    let q := elementOf (me s) t b
    GivesLanes (.vand c t mz km d a b) c s t mz km d (fun j => p j &&& q j) ∧
    GivesLanes (.vor c t mz km d a b) c s t mz km d (fun j => p j ||| q j) ∧
    GivesLanes (.vxor c t mz km d a b) c s t mz km d (fun j => p j ^^^ q j) ∧
    GivesLanes (.vshl c t mz km d a b) c s t mz km d (fun j => if t.width ≤ q j then 0 else p j * 2 ^ q j) ∧
    GivesLanes (.vshr c t mz km d a b) c s t mz km d (fun j => if t.width ≤ q j then 0 else p j / 2 ^ q j) ∧
    GivesLanes (.vsra c t mz km d a b) c s t mz km d (fun j =>
      (BitVec.sshiftRight (BitVec.ofNat t.width (p j)) (min (q j) (t.width - 1))).toNat) ∧
    Gives (.vsel c t km d a b) c s fun u => ∃ v, ResultV c s d v u ∧
      ∀ j, j < t.lanes → v.extractLsb' (t.width * j) t.width =
        if enabledBy (getK (me s) km) t j then (getV (me s) a).extractLsb' (t.width * j) t.width else (getV (me s) b).extractLsb' (t.width * j) t.width

/-- R145: VCMP writes its condition over the enabled lanes to DST and its complement over them to XK, zero in every other bit; DST wins where they are the
same, and `k0` discards. -/
def Obligations.VectorCompare : Prop :=
  ∀ (c : Common) (s : State) (q : VCond) (t : Ty) (km d xk : KReg) (a b : VReg), t.isNum = true →
    Gives (.vcmp c q t km d a b xk) c s fun u => ∃ yes no : Word,
      (∀ j, yes.getLsbD j = (decide (j < t.lanes) && (getK (me s) km).getLsbD j && elementTest q t (elementOf (me s) t a j) (elementOf (me s) t b j))) ∧
      (∀ j, no.getLsbD j = (decide (j < t.lanes) && (getK (me s) km).getLsbD j && !elementTest q t (elementOf (me s) t a j) (elementOf (me s) t b j))) ∧
      Result c s u (getS (me s)) (getG (me s)) (fun r => if r = d ∧ r ≠ 0 then yes else if r = xk ∧ r ≠ 0 then no else getK (me s) r) (getV (me s))

/-- R40, R41, R147, R154, R155, R156: VCVT converts the lanes of its part of the wider register; VPACK forms blocks of its enabled elements, disabled ones as zero, by block
formation, writes their mantissas to DST and scales with status to ES, and counts what it replaced in NANCNT; VUNPACK writes the element values of a packed
register. -/
def Obligations.VectorConvert : Prop :=
  ∀ (c : Common) (s : State) (src t : Ty) (mz h : Bool) (hp : BitVec 3) (mw : BitVec 4) (km : KReg) (es sc : SReg) (d a b : VReg),
    let m := getK (me s) km
    let n := 512 / max src.width t.width
    let old := fun j => (getV (me s) d).extractLsb' (t.width * j) t.width
    let conv := fun j => BitVec.ofNat t.width (convert src t (elementOf (me s) src a j))
    (t.isNum = true → src.isNum = true → Gives (.vcvt c src t mz hp km d a) c s fun u => ∃ v, ResultV c s d v u ∧
      (t.width ≤ src.width → ∀ i, i < t.lanes → v.extractLsb' (t.width * i) t.width =
        if hp.toNat * n ≤ i ∧ i < hp.toNat * n + n then (if m.getLsbD (i - hp.toNat * n) then conv (i - hp.toNat * n) else if mz then 0 else old i)
        else old i) ∧
      (src.width < t.width → ∀ j, j < n → v.extractLsb' (t.width * j) t.width =
        if m.getLsbD j then conv (hp.toNat * n + j) else if mz then 0 else old j)) ∧
    (∀ fs, fs = formAll (stNanm (me s)) mw.toNat (packVals src m (getV (me s) a) (getV (me s) b) (getS (me s) sc).toNat) →
      Gives (.vpack c src mw km es d a b sc) c s fun u =>
        (∀ r, getS (me u) r = if r = es ∧ r ≠ 0 then BitVec.ofNat 64 (packStatus 0 fs) else getS (me s) r) ∧
        (∀ r, getV (me u) r = if r = d then BitVec.ofNat 512 (packFields (32 * mw.toNat) (fs.map fun g => packMants mw.toNat g.g.m)) else getV (me s) r) ∧
        (∀ n, n = fs.foldl (fun n g => n + g.count) 0 → (me u).nancnt = if n = 0 then (me s).nancnt else BitVec.ofNat 64 (min ((me s).nancnt.toNat + n) 0xFFFFFFFF)) ∧
        (∀ r, getK (me u) r = getK (me s) r) ∧ (∀ r, getG (me u) r = getG (me s) r) ∧ CounterUp c (me s) (me u) ∧ GoesOn c (me s) (me u) ∧
        u.mem = s.mem) ∧
    (∀ vs, vs = packVals src m (getV (me s) a) (getV (me s) b) (getS (me s) sc).toNat →
      vs.length = (if src.width = 8 then 64 else 32) ∧
      ∀ (j : Nat) (v : Val), vs[j]? = some v → v =
        if m.getLsbD j then
          if src = .mxi8 ∨ src = .mxf8 then mxVal src ((getS (me s) sc).toNat / 2 ^ (8 * (j / 32)) % 256) (elementOf (me s) src a j)
          else if src.width = 32 ∧ 16 ≤ j then valOf src (elementOf (me s) src b (j - 16)) else valOf src (elementOf (me s) src a j)
        else .fin false 0 0) ∧
    (∀ (zc : Bool) (w : Nat) (vs : List Val), 1 ≤ w →
      (formAll zc w vs).length = vs.length / 32 ∧
      ∀ (g : Nat) (r : Formed), (formAll zc w vs)[g]? = some r → BlockFormed zc w ((vs.drop (32 * g)).take 32) r) ∧
    (∀ (fs : List Formed), fs.length ≤ 4 → (∀ r ∈ fs, r.g.e < 256) → ∀ (g : Nat) (r : Formed), fs[g]? = some r →
      packStatus 0 fs / 2 ^ (8 * g) % 256 = r.g.e ∧ (packStatus 0 fs).testBit (32 + g) = r.sat ∧ (packStatus 0 fs).testBit (40 + g) = r.nan) ∧
    (∀ (w : Nat) (v : Vec) (scales j : Nat), 1 ≤ w → w ≤ 8 → j < 64 →
      let x := scales / 2 ^ (8 * (j / 32)) % 256
      let n := (BitVec.ofNat w (v.toNat / 2 ^ (32 * w * (j / 32) + w * (j % 32)))).toInt
      unpackVal w v scales j = if x = 255 then .nan else .fin (decide (n < 0)) n.natAbs (x - 126 - w)) ∧
    GivesLanes (.vunpack c t mw mz h km d a sc) c s t mz km d (fun j =>
      elemOf t (unpackVal mw.toNat (getV (me s) a) (getS (me s) sc).toNat (if t.width = 32 then (if h then 16 else 0) + j else j)))

/-- R148, R149: VREDSUM sums the enabled lanes exactly, then writes or rounds once; VREDMAX and VREDMIN write the best enabled value with the number of its first
lane, the canonical NaN with the first NaN's lane, and the identity with all ones where no lane is enabled. -/
def Obligations.VectorReduce : Prop :=
  ∀ (c : Common) (s : State) (t : Ty) (sat : Bool) (km : KReg) (d sc : SReg) (a : VReg),
    let on := lanesOn (getK (me s) km) t
    let p := elementOf (me s) t a
    let sum := on.foldl (fun n j => n + intOf t (p j)) (0 : Int)
    let f := fmtOf t
    Gives (.vredsum c t sat km d a) c s (ResultS c s d (
      if t = .bit then BitVec.ofNat 64 (on.countP fun j => p j == 1)
      else if t.isFloat then BitVec.ofNat 64 (encodeF f (sumV (on.map fun j => decodeF f (p j))))
      else if t.width = 64 then BitVec.ofNat 64 (narrowed t sat sum) else BitVec.ofInt 64 sum)) ∧
    (t.isFloat = true → (∀ j ∈ on, finEnc f (p j)) →
      RoundedTo f (on.foldl (fun n j => n + units f (p j)) 0) 0 (encodeF f (sumV (on.map fun j => decodeF f (p j))))) ∧
    ∀ (up : Bool), t.isNum = true →
      Gives (if up then .vredmax c t km d a sc else .vredmin c t km d a sc) c s fun u => ∃ (val : Nat) (idx : Word),
        Result c s u (fun r => if r = d ∧ r ≠ 0 then loaded t val else if r = sc ∧ r ≠ 0 then idx else getS (me s) r)
          (getG (me s)) (getK (me s)) (getV (me s)) ∧
        (on = [] → idx = BitVec.allOnes 64 ∧
          (t.isInt = true → intOf t val = if up then Ty.lo t else Ty.hi t) ∧ (t.isFloat = true → decodeF f val = .inf up)) ∧
        (t.isFloat = true → ∀ j ∈ on, isNan f (p j) = true → (∀ k ∈ on, k < j → isNan f (p k) = false) → val = f.nan ∧ idx = BitVec.ofNat 64 j) ∧
        (on ≠ [] → (t.isFloat = true → ∀ j ∈ on, isNan f (p j) = false) → ∃ j ∈ on, val = p j ∧ idx = BitVec.ofNat 64 j ∧
          ∀ k ∈ on, (if up then rankOf t (p k) ≤ rankOf t val else rankOf t val ≤ rankOf t (p k)) ∧ (k < j → rankOf t (p k) ≠ rankOf t val))

/-- R150, R151, R152, R153: the permutes, slides, extraction, insertion and broadcast. -/
def Obligations.VectorMove : Prop :=
  ∀ (c : Common) (s : State) (t : Ty) (t2 mz up : Bool) (km : KReg) (d a b e : VReg) (r k : SReg) (v : Word) (l : BitVec 6),
    let n := t.lanes
    let p := elementOf (me s) t a
    let q := elementOf (me s) t b
    let m := (getS (me s) r).toNat
    t.isNum = true →
    GivesLanes (.vperm c t2 t mz km d a b e) c s t mz km d (fun j =>
      if q j = 2 ^ t.width - 1 then 0 else if q j < n then p (q j)
      else if t2 ∧ q j < 2 * n then elementOf (me s) t e (q j - n) else 0) ∧
    GivesLanes (.vslide c up t mz km d a b r) c s t mz km d (fun j =>
      if up then (if n + j < m then 0 else if n + j - m < n then q (n + j - m) else if n + j - m < 2 * n then p (j - m) else 0)
      else (if j + m < n then p (j + m) else if j + m < 2 * n then q (j + m - n) else 0)) ∧
    GivesLanes (.vbcast c (.reg r) t mz km d) c s t mz km d (fun _ => m) ∧
    GivesLanes (.vbcast c (.imm v) t mz km d) c s t mz km d (fun _ => v.toNat) ∧
    GivesLanes (.vbcast c (.lane a l) t mz km d) c s t mz km d (fun _ => p l.toNat) ∧
    Gives (.vext c t k a r) c s (ResultS c s k (if m < n then loaded t (p m) else 0)) ∧
    Gives (.vins c t d k r) c s fun u => ∃ w, ResultV c s d w u ∧
      ∀ j, j < n → w.extractLsb' (t.width * j) t.width =
        if j = m then BitVec.ofNat t.width (getS (me s) k).toNat else (getV (me s) d).extractLsb' (t.width * j) t.width

/-- R157, R158: VDIST writes, for each group, the exact sum over its enabled elements, with the old lane where it accumulates, clamped to 32 bits and its overflow flag
set where that clamps; lanes past the groups are zero, or as they were where it accumulates. -/
def Obligations.Distance : Prop :=
  ∀ (c : Common) (s : State) (fn : DistFn) (t : Ty) (acc : Bool) (gs : BitVec 3) (km ok : KReg) (d a b : VReg),
    let size := if fn = .ham then 8 * 2 ^ gs.toNat else 2 ^ gs.toNat
    let p := elementOf (me s) t a
    let q := elementOf (me s) t b
    let old := fun g => (getV (me s) d).extractLsb' (32 * g) 32
    let term : Nat → Int := fun j => match fn with
      | .l2 => (intOf t (p j) - intOf t (q j)) ^ 2
      | .ip => intOf t (p j) * intOf t (q j)
      | .ham => if p j = q j then 0 else 1
    let total : Nat → Int := fun g => (List.range size).foldl
      (fun n j => if enabledBy (getK (me s) km) t (g * size + j) then n + term (g * size + j) else n) 0 + (if acc then (old g).toInt else 0)
    Gives (.vdist c fn t acc gs km ok d a b) c s fun u => ∃ (v : Vec) (o : Word),
      Result c s u (getS (me s)) (getG (me s)) (fun r => if r = ok ∧ r ≠ 0 then o else getK (me s) r) (fun r => if r = d then v else getV (me s) r) ∧
      (∀ g, g < 16 → v.extractLsb' (32 * g) 32 =
        if g < t.lanes / size then BitVec.ofInt 32 (min (max (total g) (-2 ^ 31)) (2 ^ 31 - 1)) else if acc then old g else 0) ∧
      (∀ g, o.getLsbD g = (decide (g < 16) && decide (g < t.lanes / size) && (decide (2 ^ 31 - 1 < total g) || decide (total g < -2 ^ 31))))

/-- R160, R162, R163: VTAB queues its request with its operands and its counter and goes on, its register as yet unwritten; a full queue of four holds it. The table unit
serves the head request of a strand whole: its lanes are written, its counter falls and it leaves the queue. A lane of R161 takes the last segment whose bound is at most its
input, or the first, and is a x + b of that segment, exact and rounded once; an empty table, a NaN and an invalid case give the canonical NaN. -/
def Obligations.TableUnit : Prop :=
  ∀ (c : Common) (s : State) (t : Ty) (mz : Bool) (km : KReg) (tb : BitVec 2) (d a : VReg),
    (4 ≤ (me s).vtabQ.length → Ready (.vtab c t mz km tb d a) c s → exec (.vtab c t mz km tb d a) s = .next s) ∧
    ((me s).vtabQ.length < 4 → Gives (.vtab c t mz km tb d a) c s fun u => ∃ n,
      (me u).vtabQ = (me s).vtabQ ++ [⟨t, mz, getK (me s) km, tb, d, getV (me s) a, c.set, n, decide (16 ≤ d.toNat) || decide (16 ≤ a.toNat)⟩] ∧
      SameButRegisters { me s with vtabQ := (me u).vtabQ } (me u) ∧ OnlyMe s u ∧ CounterUp c (me s) (me u) ∧ GoesOn c (me s) (me u) ∧
      (∀ r, getS (me u) r = getS (me s) r) ∧ (∀ r, getG (me u) r = getG (me s) r) ∧ (∀ r, getK (me u) r = getK (me s) r) ∧
      ∀ r, getV (me u) r = getV (me s) r) ∧
    (∀ (core k : Nat) (q : VtabReq) (r : List VtabReq), nextTable s core = some k → (getStrand s k).vtabQ = q :: r →
      Completes (.vtabService core) s fun u =>
        (getStrand u k).vtabQ = r ∧ u.mem = s.mem ∧ (∀ j, j ≠ k → getStrand u j = getStrand s j) ∧
        (∀ n, n ≠ q.dst → getV (getStrand u k) n = getV (getStrand s k) n) ∧
        LanesAre q.ty q.mask q.mz (getV (getStrand s k) q.dst) (getV (getStrand u k) q.dst)
          (fun j => tabLane q.ty (mget [] (getCore s core).tables q.tb.toNat) (q.src.toNat / 2 ^ (q.ty.width * j) % 2 ^ q.ty.width)) ∧
        (∀ j, getD (getStrand u k) j = if q.ctr ≠ 7 ∧ q.ctr.toNat = j then getD (getStrand s k) j - 1 else getD (getStrand s k) j)) ∧
    (∀ (tab : List TabEntry) (x : Nat), t.isFloat = true → Encoding (fmtOf t) x →
      let f := fmtOf t
      let inf := (2 ^ f.eb - 1) * 2 ^ f.fb
      let sign := 2 ^ (f.eb + f.fb)
      let y := tabLane t tab x
      (tab = [] ∨ isNan f x = true → y = f.nan) ∧
      (isNan f x = false → tab ≠ [] → ∃ i, Segment tab f x i) ∧
      (∀ (i : Nat) (e : TabEntry), isNan f x = false → Segment tab f x i → tab[i]? = some e →
        let a := e.a.toNat
        let b := e.b.toNat
        let opposite := decide (¬ (negEnc fmtF32 a ↔ negEnc f x))
        (isNan fmtF32 a = true ∨ isNan fmtF32 b = true → y = f.nan) ∧
        (a % 2 ^ 31 = 0 ∧ x % sign = inf ∨ a % 2 ^ 31 = 0x7F800000 ∧ x % sign = 0 → y = f.nan) ∧
        (a % 2 ^ 31 ≠ 0 → x % sign ≠ 0 → isNan fmtF32 a = false → isNan fmtF32 b = false → a % 2 ^ 31 = 0x7F800000 ∨ x % sign = inf →
          y = if b % 2 ^ 31 = 0x7F800000 ∧ decide (negEnc fmtF32 b) ≠ opposite then f.nan else if opposite then inf + sign else inf) ∧
        (finEnc fmtF32 a → finEnc f x → b % 2 ^ 31 = 0x7F800000 → y = if negEnc fmtF32 b then inf + sign else inf) ∧
        (finEnc fmtF32 a → finEnc f x → finEnc fmtF32 b →
          let n := units fmtF32 a * units f x + units fmtF32 b * 2 ^ unitExp f
          RoundedTo f n (unitExp fmtF32) y ∧ (n = 0 → y = zeroEnc f (units fmtF32 b = 0 ∧ opposite = true ∧ negEnc fmtF32 b)))))

namespace Sys2Proof.Claims

/-- Stores in the order in which they are made: location, number of bytes, value. -/
abbrev Stores := List (Loc × Nat × Nat)

/-- What a spot holds after stores. -/
def afterStores (ws : Stores) (sp : Spot) (b : Byte) : Byte :=
  ws.foldl (fun b w => match placeIn w.1 w.2.1 sp with
    | some j => BitVec.ofNat 8 (w.2.2 / 256 ^ j)
    | none => b) b

/-- The stores of a span of bytes. -/
def spanStores (s : State) (a : Actor) (as : Space) (ea : Nat) : Nat → Nat → Stores
  | 0, _ => []
  | n + 1, v =>
    match locate s a as ea 1 1 .write with
    | .ok l => (l, 1, v % 256) :: spanStores (storeLoc s a l 1 (v % 256)) a as (ea + 1) n (v / 256)
    | _ => []

/-- The stores of one group of a tensor: its field, then its scale byte. -/
def groupStores (s : State) (a : Actor) (r : BitVec 512) (g : Int) (x : Group) : Stores :=
  spanStores s a (tsrMas r) (fieldAddr r g) (tsrField r) (packMants (tsrMw r) x.m) ++
    match storeSpan s a (tsrMas r) (fieldAddr r g) (tsrField r) (packMants (tsrMw r) x.m) with
    | .ok s => spanStores s a (tsrMas r) (scaleAddr r g) 1 x.e
    | _ => []

/-- A value as an element of an ordinary type holds it: rounded once to the nearest encoding, ties to even, or to the nearest integer, held within the type; a NaN is the canonical NaN,
or zero (spec/02 R36, R45). -/
def Encodes (t : Ty) (v : Val) (y : Nat) : Prop :=
  let f := fmtOf t
  let inf := (2 ^ f.eb - 1) * 2 ^ f.fb
  let lo : Int := if t.isSigned then -2 ^ (t.width - 1) else 0
  let hi : Int := if t.isSigned then 2 ^ (t.width - 1) - 1 else 2 ^ t.width - 1
  let signed := fun neg (n : Nat) => if neg then -(n : Int) else n
  match v with
  | .nan => y = if t.isFloat then f.nan else 0
  | .inf neg => if t.isFloat then y = (if neg then inf + 2 ^ (f.eb + f.fb) else inf) else y < 2 ^ t.width ∧ intOf t y = if neg then lo else hi
  | .fin neg n e =>
      if t.isFloat then RoundedTo f (signed neg (n * 2 ^ (e + unitExp f).toNat)) (-(e + unitExp f)).toNat y ∧ (n = 0 → y = zeroEnc f (neg = true))
      else y < 2 ^ t.width ∧ ∃ z, NearestInt (signed neg (n * 2 ^ e.toNat)) (-e).toNat z ∧ intOf t y = max lo (min hi z)

/-- The value of a tensor's element as its reader finds it (spec/06 R135, spec/02 R37, R39): of an ordinary type, the element at its address; of type BIT, its bit; of a group, its mantissa at
the group's scale, by its place among the stored positions. A position that is not stored is zero, and every one of a NaN block is NaN (log 21). -/
def ElementRead (s : State) (a : Actor) (r : BitVec 512) (ix : List Nat) (v : Val) : Prop :=
  let t := tsrTy r
  if t.isNum then ∃ b u, loadElem s a (tsrMas r) (elemAddr r ix) (t.width / 8) = .ok (b, u) ∧ v = valOf t b
  else if t = .bit then
    let n := addrPlus (8 * tsrMptr r) (dotIdx r 4 ix)
    ∃ b u, loadElem s a (tsrMas r) (n / 8) 1 = .ok (b, u) ∧ v = .fin false (b / 2 ^ (n % 8) % 2) 0
  else
    let i := lget 0 ix (tsrBax r)
    let g := groupOf r ix (i / 32)
    let w := tsrMw r
    ∃ (e k : Nat) (s1 s2 : State), loadElem s a (tsrMas r) (scaleAddr r g) 1 = .ok (e, s1) ∧
      (if tsrSpn r = 0 then k = 2 ^ 32 - 1 ∧ s2 = s1 else loadElem s1 a (tsrMas r) (maskAddr r g) 4 = .ok (k, s2)) ∧
      (k.testBit (i % 32) = false → v = if e = 255 then .nan else .fin false 0 0) ∧
      (k.testBit (i % 32) = true → t = .gbf → ∃ f u,
        let lo := w * (List.range (i % 32)).countP fun j => k.testBit j
        let m := (BitVec.ofNat w (f / 2 ^ (lo % 8))).toInt
        loadSpan s2 a (tsrMas r) (fieldAddr r g + lo / 8) ((lo + w - 1) / 8 - lo / 8 + 1) = .ok (f, u) ∧
          v = if e = 255 then .nan else .fin (decide (m < 0)) m.natAbs ((e : Int) - 127 - ((w : Int) - 1)))

/-- The reads of a chunk, element by element, from one state to another: the source's value, and for AXPY the destination's (spec/07 R167). -/
def StreamReads (a : Actor) (axpy : Bool) (src dst : BitVec 512) : List (List Nat) → State → List (Val × Val) → State → Prop
  | ix :: is, s, (v, d) :: l, u => ∃ s1 s2, ElementRead s a src ix v ∧ readVal s a src ix = .ok (v, s1) ∧
      (if axpy then ElementRead s1 a dst ix d ∧ readVal s1 a dst ix = .ok (d, s2) else s2 = s1 ∧ d = .fin false 0 0) ∧ StreamReads a axpy src dst is s2 l u
  | [], s, [], u => u = s
  | _, _, _, _ => False

/-- The stores of a chunk of an ordinary type. -/
def streamStores (a : Actor) (r : BitVec 512) : List (List Nat) → List Nat → State → Stores
  | ix :: is, y :: ys, s =>
    let n := (tsrTy r).width / 8
    match locate s a (tsrMas r) (elemAddr r ix) n n .write with
    | .ok l => (l, n, y) :: streamStores a r is ys (storeLoc s a l n y)
    | _ => []
  | _, _, _ => []

/-- What a chunk that goes through has done: it has read its values, made its results of them, and made its stores, and every other byte is as it was. -/
def ChunkDone (s t : State) (k : Nat) (axpy zc : Bool) (f : Val) (src dst : BitVec 512) (ixs : List (List Nat)) : Prop :=
  let a := strandActor s k
  let result := fun (p : Val × Val) => if axpy then addV (mulV f p.1) p.2 else p.1
  let stored := fun (ws : Stores) (bad : Nat) => (∀ q ∈ ws, plainLoc q.1 q.2.1) → HomeKept s t (clusterOf k) ∧
    (getStrand t k).nancnt = (if bad = 0 then (getStrand s k).nancnt else BitVec.ofNat 64 (min ((getStrand s k).nancnt.toNat + bad) 0xFFFFFFFF)) ∧
    (Roomy s (clusterOf k) 512 → (∀ sp, readSpot t (coreOf k) sp = afterStores ws sp (readSpot s (coreOf k) sp)) ∧
      (∀ q x, q ≠ coreOf k → seen t q x = seen s q x) ∧ ∀ x, byteAt t.mem x = byteAt s.mem x)
  ∃ l w, StreamReads a axpy src dst ixs s l w ∧ l.length = ixs.length ∧
    ((tsrTy dst).isBlock = false → ∃ ys, ys.length = l.length ∧ (∀ (j : Nat) (p : Val × Val) (y : Nat), l[j]? = some p → ys[j]? = some y → Encodes (tsrTy dst) (result p) y) ∧
      stored (streamStores a dst ixs ys w) 0) ∧
    ((tsrTy dst).isBlock = true → ∃ r : Formed, BlockFormed zc (tsrMw dst) (l.map result ++ List.replicate (32 - l.length) (.fin false 0 0)) r ∧
      stored (groupStores (countNan w k r.count) a dst (groupOf dst (ixs.headD []) (lget 0 (ixs.headD []) 0 / 32)) r.g) r.count)

end Sys2Proof.Claims

/-- R166, R167, R168: VSTRM with admissible records begins at the progress that RESUME holds, or completes where that is the whole tensor; records that do not
agree trap with cause 0x09. A chunk reads its elements in order, converts them or adds the factor's products to the destination's, exactly and rounded once, or forms a group of them, and stores what it has
made and nothing else; it moves RESUME on, and the last one completes the instruction: RESUME is zero, its result is in flight and control goes on. One with an element that fails makes no
write and traps with RESUME as it was; a kill and an interrupt stop the instruction before it. A source of an MX type is log 22, the address of an
element that fails log 33, and sums of addresses beyond 64 bits log 83. What is said of bytes holds where the L2 slice has room for the lines (log 9). -/
def Obligations.Streaming : Prop :=
  (∀ (c : Common) (s : State) (axpy : Bool) (t : Ty) (mw : BitVec 4) (das sas : Space) (sa sb sc : SReg) (p q : BitVec 512 × State),
    let i := Instr.vstrm c axpy t mw das sas sa sb sc
    let m := opened i c s
    let act := strandActor m s.cur
    let n := if (me s).resume.toNat / 2 ^ 56 = 0x7D then (me s).resume.toNat % 2 ^ 48 else 0
    readTsrAny m act sas (getS (me s) sa).toNat streamSrcOk = .ok p → readTsr p.2 act das (getS (me s) sb).toNat (fun _ => true) = .ok q →
    (me p.2).vtabQ = (me s).vtabQ → { me q.2 with carved := (me m).carved, irq := (me m).irq } = me m →
    (streamOk t mw.toNat p.1 q.1 = true → n < tsrTotal q.1 → Gives i c s fun u =>
      (me u).pc = (me s).pc ∧ (me u).resume = BitVec.ofNat 64 (0x7D * 2 ^ 56 + n) ∧ CounterUp c (me s) (me u) ∧
      (∃ l, (me u).long = some l ∧ l.i = i ∧ l.tsrA = p.1 ∧ l.tsrB = q.1 ∧ l.x = getS (me s) sc) ∧
      (∀ r, getS (me u) r = getS (me s) r) ∧ ∀ r, getV (me u) r = getV (me s) r) ∧
    (streamOk t mw.toNat p.1 q.1 = true → tsrTotal q.1 ≤ n → Gives i c s fun u =>
      (me u).resume = 0 ∧ (me u).long = (me s).long ∧ CounterUp c (me s) (me u) ∧ GoesOn c (me s) (me u)) ∧
    (streamOk t mw.toNat p.1 q.1 = false → (me s).vtabQ = [] → Gives i c s fun u => TrapEntered s u 9 (getS (me s) sb) (me s).pc)) ∧
  (∀ (s t : State) (k : Nat) (l : Long) (axpy : Bool) (c : Common),
    let x := getStrand s k
    let z := tsrSizes l.tsrB
    let n := streamDone x
    let first := n - lget 0 (idxOf z n) 0 % 32
    let ix := chunkIdx (idxOf z first) (lget 0 z 0)
    let f := decodeF fmtF32 (l.x.toNat % 2 ^ 32)
    let chunk := streamChunk s k (strandActor s k) axpy l.nanm f l.tsrA l.tsrB ix
    x.long = some l → axpyOf l.i = some axpy → l.i.common = some c → mayRun s k = true →
    (killDue x = true → exec (.vstrmChunk k) s = .next (tryKill s k)) ∧
    (∀ line, killDue x = false → irqLine x = some line → exec (.vstrmChunk k) s = .next (if x.vtabQ = [] then takeIrq s k line else s)) ∧
    (killDue x = false → irqLine x = none →
      (chunk = .ok t →
        (first + ix.length < tsrTotal l.tsrB → Completes (.vstrmChunk k) s fun u =>
          getStrand u k = { getStrand t k with resume := BitVec.ofNat 64 (0x7D * 2 ^ 56 + (first + ix.length)) } ∧ { u with strands := t.strands } = t ∧
          ∀ j, j ≠ k → getStrand u j = getStrand t j) ∧
        (tsrTotal l.tsrB ≤ first + ix.length → Completes (.vstrmChunk k) s fun u =>
          (getStrand u k).long = none ∧ (getStrand u k).resume = 0 ∧ GoesOn c (getStrand t k) (getStrand u k) ∧ { u with strands := t.strands } = t ∧
          (∀ j, j ≠ k → getStrand u j = getStrand t j) ∧ (∀ r, getS (getStrand u k) r = getS (getStrand t k) r) ∧ ∀ r, getV (getStrand u k) r = getV (getStrand t k) r)) ∧
      (∀ cause tv, chunk = .fault cause tv → x.vtabQ = [] → x.wait = none → Completes (.vstrmChunk k) s fun u =>
        let y := getStrand u k
        y.cause = BitVec.ofNat 64 cause ∧ y.tval = BitVec.ofNat 64 tv ∧ y.epc = x.pc ∧ y.pc = x.tvec &&& ~~~ 3#64 ∧ y.long = none ∧ y.resume = x.resume ∧
        (∀ r, getS y r = getS x r) ∧ (∀ r, getV y r = getV x r) ∧ SameMemory s u))) ∧
  (∀ (s t : State) (k : Nat) (axpy zc : Bool) (f : Val) (src dst : BitVec 512) (ixs : List (List Nat)),
    (tsrTy src).isNum = true ∨ tsrTy src = .bit ∨ tsrTy src = .gbf → (tsrTy dst).isNum = true ∧ axpy = (axpy && (tsrTy dst).isFloat) ∨ tsrTy dst = .gbf ∧ axpy = false →
    1 ≤ tsrMw src ∨ tsrTy src ≠ .gbf → 1 ≤ tsrMw dst ∨ tsrTy dst ≠ .gbf → ixs ≠ [] → ixs.length ≤ 32 →
    streamChunk s k (strandActor s k) axpy zc f src dst ixs = .ok t → ChunkDone s t k axpy zc f src dst ixs) ∧
  (∀ (s u : State) (a : Actor) (as : Space) (ea n b : Nat), a.engine = false → n = 1 ∨ n = 2 ∨ n = 4 ∨ n = 8 → loadElem s a as ea n = .ok (b, u) →
    ∃ l, locate s a as ea n n .read = .ok l ∧ ((∀ key e, l = .glob key e → key % n = 0) → b = valueAt s a.core l n)) ∧
  (∀ (nf nv nd : Bool) (mf mv md : Nat) (ef ev ed : Int),
    let low := min (ef + ev) ed
    let signed := fun neg (n : Nat) => if neg then -(n : Int) else n
    let exact := signed nf mf * signed nv mv * 2 ^ (ef + ev - low).toNat + signed nd md * 2 ^ (ed - low).toNat
    ∃ neg n, addV (mulV (.fin nf mf ef) (.fin nv mv ev)) (.fin nd md ed) = .fin neg n low ∧ signed neg n = exact ∧
      (exact = 0 → neg = (decide (mf = 0 ∨ mv = 0) && decide (md = 0) && (nf != nv) && nd))) ∧
  (∀ (f v d : Val) (nf nv nd : Bool) (m : Nat) (e : Int),
    (f = .nan ∨ v = .nan ∨ d = .nan → addV (mulV f v) d = .nan) ∧ addV (mulV (.inf nf) (.fin nv 0 e)) d = .nan ∧ addV (mulV (.fin nf 0 e) (.inf nv)) d = .nan ∧
    (0 < m → ∀ p, p = mulV (.inf nf) (.fin nv m e) ∨ p = mulV (.fin nf m e) (.inf nv) ∨ p = mulV (.inf nf) (.inf nv) →
      addV p (.inf nd) = (if (nf != nv) = nd then .inf nd else .nan) ∧ ∀ a b c, addV p (.fin a b c) = .inf (nf != nv)) ∧
    (isFinite f = true → isFinite v = true → addV (mulV f v) (.inf nd) = .inf nd))

namespace Sys2Proof.Claims

/-- No scalar, vector, predicate or mask register of the strand is written, no other strand changes, and beside the SET counter, the program counter
with the loop stack and the results in flight the strand's fields are those of `x`. -/
structure Quiet (c : Common) (s u : State) (x : Strand) : Prop where
  scalar : ∀ r, getS (me u) r = getS (me s) r
  guards : ∀ r, getG (me u) r = getG (me s) r
  masks : ∀ r, getK (me u) r = getK (me s) r
  vectors : ∀ r, getV (me u) r = getV (me s) r
  counter : CounterUp c (me s) (me u)
  goes : GoesOn c (me s) (me u)
  rest : SameButRegisters x (me u)
  strands : ∀ k, k ≠ s.cur → getStrand u k = getStrand s k

/-- The registers, counters and program counter of a strand are as they were. -/
structure SameRegs (x y : Strand) : Prop where
  scalar : ∀ r, getS y r = getS x r
  guards : ∀ r, getG y r = getG x r
  masks : ∀ r, getK y r = getK x r
  vectors : ∀ r, getV y r = getV x r
  counters : ∀ j, getD y j = getD x j
  pc : y.pc = x.pc
  loops : y.loops = x.loops

/-- As `Quiet`, where lines may have come into the L2 slice: a slice without room for `n` of them may have given up a line whose home does not answer, which makes
an interrupt line pending (log 9). -/
structure QuietIn (n : Nat) (c : Common) (s u : State) (x : Strand) : Prop where
  scalar : ∀ r, getS (me u) r = getS (me s) r
  guards : ∀ r, getG (me u) r = getG (me s) r
  masks : ∀ r, getK (me u) r = getK (me s) r
  vectors : ∀ r, getV (me u) r = getV (me s) r
  counter : CounterUp c (me s) (me u)
  goes : GoesOn c (me s) (me u)
  rest : SameButRegisters x { me u with irq := x.irq }
  strands : ∀ k, k ≠ s.cur → SameButLines (getStrand s k) (getStrand u k)
  lines : Roomy s (clusterOf s.cur) n → ∀ k, (getStrand u k).irq = (getStrand s k).irq

/-- A long instruction has begun: it will go on from where it stands, its SET counter counts it, no register is written, and beside those and the results in flight
the strand's fields are those of `x`. -/
structure Begun (n : Nat) (c : Common) (s u : State) (x : Strand) : Prop where
  scalar : ∀ r, getS (me u) r = getS (me s) r
  guards : ∀ r, getG (me u) r = getG (me s) r
  masks : ∀ r, getK (me u) r = getK (me s) r
  vectors : ∀ r, getV (me u) r = getV (me s) r
  counter : CounterUp c (me s) (me u)
  pc : (me u).pc = (me s).pc
  loops : (me u).loops = (me s).loops
  rest : SameButRegisters x { me u with irq := x.irq }
  strands : ∀ k, k ≠ s.cur → SameButLines (getStrand s k) (getStrand u k)
  lines : Roomy s (clusterOf s.cur) n → ∀ k, (getStrand u k).irq = (getStrand s k).irq

/-- A long instruction of a strand has ended: control goes on, and no register is written; its SET counter falls when its result lands. -/
structure Ended (c : Common) (x y : Strand) : Prop where
  scalar : ∀ r, getS y r = getS x r
  guards : ∀ r, getG y r = getG x r
  masks : ∀ r, getK y r = getK x r
  vectors : ∀ r, getV y r = getV x r
  counters : ∀ j, getD y j = getD x j
  done : y.long = none
  goes : GoesOn c x y

/-- Between two states, one accumulator tile of the strand `cur` and nothing else outside the strand has changed but its core's note of the issue. -/
structure TileOnly (s u : State) (d : AReg) : Prop where
  pool : ∀ off, off < tileOffset (myCore s) (strandNo s.cur) d.toNat ∨ tileOffset (myCore s) (strandNo s.cur) d.toNat + 30720 ≤ off →
    byteAt (myCore u).pool off = byteAt (myCore s).pool off
  words : ∀ n, n ≠ d.toNat → getTile (me u) n = getTile (me s) n
  core : { myCore u with
    pool := (myCore s).pool, issueNo := (myCore s).issueNo, lastIssued := (myCore s).lastIssued, issuedAt := (myCore s).issuedAt,
    vidle := (myCore s).vidle, vstate := (myCore s).vstate } = myCore s
  cores : ∀ q, q ≠ coreOf s.cur → getCore u q = getCore s q
  others : { u with strands := s.strands, cores := s.cores } = s

/-- The stores of a readout, item by item. -/
def itemStores (s : State) (a : Actor) (r : BitVec 512) (dcol drow : Nat) : List ReadoutItem → Stores
  | [] => []
  | q :: l =>
    let ix := itemIdx dcol drow q
    let n := elemBytes (tsrTy r)
    (if tsrTy r = .gbf then groupStores s a r (groupOf r ix (lget 0 ix 0 / 32)) q.g
     else match locate s a (tsrMas r) (elemAddr r ix) n n .write with
      | .ok l => [(l, n, q.bits)]
      | _ => []) ++
    match writeItems s a r dcol drow [q] with
    | .ok s => itemStores s a r dcol drow l
    | _ => []

/-- An element of a tile. -/
def elementAt (rows : List (List Int)) (i j : Nat) : Option Int := rows[i]?.bind fun r => r[j]?

/-- What a finite element `v` of a tile of exponent `x` is at readout under the FP32 encoding `sb` of OSCALE, exactly: v * 2^(x-46) * S, with an exact zero positive;
a NaN element or a NaN scale gives a NaN, and an infinite scale an infinity, or a NaN for a zero element (spec/03 R61). -/
def readValue (x : Int) (sb : Nat) (v : Int) : Val :=
  if v = -(2 ^ 63) ∨ isNan fmtF32 sb = true then .nan
  else if finEnc fmtF32 sb then .fin (decide (v * units fmtF32 sb < 0)) (v * units fmtF32 sb).natAbs (x - 195)
  else if v = 0 then .nan else .inf (decide (v < 0) != decide (negEnc fmtF32 sb))

/-- An encoding is such a value rounded once (spec/02 R36): it overflows where a finite value gives an infinity. -/
def ReadsOut (f : Fmt) (x : Int) (sb : Nat) (v : Int) (r : Nat) (ovf : Bool) : Prop :=
  let inf := (2 ^ f.eb - 1) * 2 ^ f.fb
  match readValue x sb v with
  | .nan => r = f.nan ∧ ovf = false
  | .inf neg => r = (if neg then inf + 2 ^ (f.eb + f.fb) else inf) ∧ ovf = false
  | .fin neg n e => RoundedTo f ((if neg then -1 else 1) * (n * 2 ^ (e + unitExp f).toNat)) (-(e + unitExp f)).toNat r ∧ (n = 0 → r = 0) ∧
      ovf = decide (r % 2 ^ (f.eb + f.fb) = inf)

/-- The operand group that a matrix instruction forms from K-block `kb` at index `row` of dimension 1 of a tensor that is read from the state `s` on. A group beyond SIZE0 is zero. A
GBF group is as stored: its scale byte, its mask word (all ones where dense) and, at each stored position inside SIZE0, the mantissa whose number is the count of stored positions
below; a NaN block has every position marked, or in zero-and-count mode is a zero group. A group of FP16 or BF16 is formed at width `b` with its non-finite positions as zero, and those
are marked, or counted in zero-and-count mode (spec/03 R52, R53, R55, spec/02 R37-R41, R46). -/
def GroupRead (zc : Bool) (b : Nat) (s : State) (a : Actor) (r : BitVec 512) (kb row : Nat) (o : OpGroup) : Prop :=
  let lim := tsrSize r 0 - 32 * kb
  let g := groupOf r [32 * kb, row, 0, 0] kb
  let zeros := List.replicate 32 (0 : Int)
  if lim = 0 then o.e = 0 ∧ o.m = zeros ∧ o.marked = 0 ∧ o.count = 0 ∧ (tsrStored r = 32 → o.mask = BitVec.allOnes 32)
  else if tsrTy r = .gbf then
    ∃ (f e k : Nat) (s1 s2 s3 : State), loadSpan s a (tsrMas r) (fieldAddr r g) (tsrField r) = .ok (f, s1) ∧ loadElem s1 a (tsrMas r) (scaleAddr r g) 1 = .ok (e, s2) ∧
      (if tsrSpn r = 0 then k = 2 ^ 32 - 1 else loadElem s2 a (tsrMas r) (maskAddr r g) 4 = .ok (k, s3)) ∧ o.mask = BitVec.ofNat 32 k ∧
      (e = 255 → o.m = zeros ∧ (if zc then o.e = 0 ∧ o.marked = 0 ∧ o.count = min lim 32 else o.e = 255 ∧ o.marked = BitVec.allOnes 32 ∧ o.count = 0)) ∧
      (e ≠ 255 → o.e = e ∧ o.marked = 0 ∧ o.count = 0 ∧ o.m.length = 32 ∧ ∀ p, p < 32 → o.m[p]? = some (
        if k.testBit p = true ∧ p < lim then (BitVec.ofNat (tsrMw r) (f / 2 ^ (tsrMw r * (List.range p).countP fun j => k.testBit j))).toInt else 0))
  else
    let place := fun p => elemAddr r [32 * kb + p, row, 0, 0]
    ∃ (vs : List Val) (sat : Bool), vs.length = 32 ∧
      (∀ p, p < 32 → lim ≤ p → vs[p]? = some (.fin false 0 0)) ∧
      (∀ p, p < lim → p < 32 → ∃ n u, vs[p]? = some (valOf (tsrTy r) n) ∧
        loadElem (readElems a (tsrMas r) (tsrTy r) place lim (List.range p) (readsFrom s)).2.s a (tsrMas r) (place p) 2 = .ok (n, u)) ∧
      BlockFormed true b vs ⟨⟨o.e, o.m⟩, sat, false, vs.countP fun v => !isFinite v⟩ ∧ o.mask = BitVec.allOnes 32 ∧
      (∀ p v, vs[p]? = some v → o.marked.getLsbD p = (!zc && !isFinite v)) ∧ o.count = if zc then vs.countP fun v => !isFinite v else 0

/-- The weight group of a column, as it is latched or streams: a column at or beyond SIZE1 is a zero group, and one with a marked position is a NaN block (spec/03 R52, spec/08 R172). -/
def WeightRead (zc : Bool) (s : State) (a : Actor) (r : BitVec 512) (kb col : Nat) (w : WGroup) : Prop :=
  if tsrRows r ≤ col then w.ew = 0 ∧ w.m = List.replicate 32 0 ∧ (tsrStored r = 32 → w.mask = BitVec.allOnes 32)
  else ∃ o, GroupRead zc 8 s a r kb col o ∧ w.mask = o.mask ∧ (if o.marked = 0 then w.ew = o.e ∧ w.m = o.m else w.ew = 255)

/-- Row `i` and column `j` take part in a block step: they have operand groups. -/
def Pair (acts : List (Option OpGroup)) (ws : List (Option WGroup)) (i j : Nat) (a : OpGroup) (w : WGroup) : Prop :=
  acts[i]? = some (some a) ∧ ws[j]? = some (some w)

end Sys2Proof.Claims

/-- R56, R57, R59: the block step, element by element: the scale of the tile rises to the greatest product scale, every finite element is realigned to it by a shift that
floors, a pair with a NaN block or a marked position that its column stores makes its element NaN, a NaN element stays, every other element of P
gains its contribution and is clamped, and an element outside P is realigned only. -/
def Obligations.BlockStepRule : Prop :=
  ∀ (ba bw : Nat) (acts : List (Option OpGroup)) (ws : List (Option WGroup)) (t : Tile),
    let u := (blockStep ba bw acts ws t).1
    let hit := (blockStep ba bw acts ws t).2
    let isNan : Int → Prop := fun v => v = -(2 ^ 63)
    let bad : OpGroup → WGroup → Prop := fun a w => w.ew = 255 ∨ a.marked &&& w.mask ≠ 0
    let sig : OpGroup → WGroup → Int := fun a w => ((a.e : Int) - 127) + ((w.ew : Int) - 127)
    let old : Int → Int := fun v => if t.empty then v else v / 2 ^ (u.x - t.x).toNat
    let counts : Nat → Nat → OpGroup → WGroup → Prop := fun i j a w =>
      Pair acts ws i j a w ∧ ¬ bad a w ∧ ∃ v, elementAt t.rows i j = some v ∧ ¬ isNan v
    u.empty = false ∧ (u.sat = true ↔ t.sat = true ∨ hit ≠ []) ∧
    (∀ i j a w, counts i j a w → sig a w ≤ u.x) ∧ (u.x = t.x ∨ ∃ i j a w, counts i j a w ∧ u.x = sig a w) ∧
    (t.empty = false → t.x ≤ u.x) ∧ (t.empty = true → (∃ i j a w, counts i j a w) → ∃ i j a w, counts i j a w ∧ u.x = sig a w) ∧
    (∀ i j a w v, Pair acts ws i j a w → elementAt t.rows i j = some v → ∃ r, elementAt u.rows i j = some r ∧
      (bad a w → isNan r) ∧ (¬ bad a w → isNan v → isNan r) ∧
      (¬ bad a w → ¬ isNan v →
        let sum := old v + dot a.m w.m * 2 ^ (48 - ba - bw) / 2 ^ (u.x - sig a w).toNat
        r = max (-(2 ^ 63 - 1)) (min (2 ^ 63 - 1) sum) ∧ ((i, j) ∈ hit ↔ 2 ^ 63 - 1 < sum ∨ sum < -(2 ^ 63 - 1)))) ∧
    (∀ i j v, (∀ a w, ¬ Pair acts ws i j a w) → elementAt t.rows i j = some v →
      elementAt u.rows i j = some (if v = -(2 ^ 63) then v else old v))

/-- R180, R183, R181, R182, R61: ACCZ clears its tile, ACCEXP.RD reads the tile-state word, ACCEXP.AL raises the exponent and realigns; ACCRD stores the readout of
its rows and columns, element by element or group by group, and changes no other spot of memory; one that cannot store every element
stores none. An element of the readout is the exact A * 2^(X-46) * S rounded once, a group of GBF the block formation of 32 columns of such values, columns beyond the last as zero. A type that R61 does not name is log 31, and a
non-finite OSCALE log 86. What is said of bytes holds where the L2 slice has room for the lines stored to (log 9). -/
def Obligations.AccumulatorInstructions : Prop :=
  ∀ (c : Common) (s : State) (d : AReg) (r : SReg),
    Gives (.accz c d) c s (fun u =>
      loadTile u s.cur d = ⟨-32768, true, false, List.replicate 48 (List.replicate 80 0)⟩ ∧ TileOnly s u d ∧
      Quiet c s u { me s with tile := (me u).tile }) ∧
    Gives (.accexpRd c r d) c s (ResultS c s r ((getTile (me s) d.toNat).setWidth 64)) ∧
    (let t := loadTile s s.cur d
      let e := max (-32768) (min 32767 (getS (me s) r).toInt)
      Gives (.accexpAl c d r) c s fun u =>
        loadTile u s.cur d = (if t.empty = true ∨ e ≤ t.x then t
          else { t with x := e, rows := t.rows.map fun l => l.map fun v => if v = -(2 ^ 63) then v else v / 2 ^ (e - t.x).toNat }) ∧
        TileOnly s u d ∧ Quiet c s u { me s with tile := (me u).tile }) ∧
    (∀ (zc : Bool) (t : Ty) (mw sb : Nat) (tile : Tile) (rows cols : Nat), sb < 2 ^ 32 → tile.rows.length = 48 → (∀ r ∈ tile.rows, r.length = 80) →
      let items := readoutItems zc t mw (decodeF fmtF32 sb) tile rows cols
      let wide := min 80 cols
      let groups := min 3 ((cols + 31) / 32)
      (t.isFloat = true → items.length = min 48 rows * wide ∧ ∀ i j v, i < min 48 rows → j < wide → elementAt tile.rows i j = some v →
        ∃ q, items[i * wide + j]? = some q ∧ q.row = i ∧ q.col = j ∧ ReadsOut (fmtOf t) tile.x sb v q.bits q.ovf) ∧
      (t = .gbf → 1 ≤ mw → items.length = min 48 rows * groups ∧ ∀ i g, i < min 48 rows → g < groups →
        let vs := (List.range 32).map fun p => if 32 * g + p < wide then (elementAt tile.rows i (32 * g + p)).elim (Val.fin false 0 0) (readValue tile.x sb) else Val.fin false 0 0
        ∃ q n, items[i * groups + g]? = some q ∧ q.row = i ∧ q.col = 32 * g ∧
          BlockFormed (zc && !vs.any fun v => v == Val.nan) mw vs ⟨q.g, q.ovf, n, q.count⟩)) ∧
    ∀ (t : Ty) (mw : BitVec 4) (das : Space) (dcol drow : BitVec 16) (p : BitVec 512 × State) (items : List ReadoutItem),
      let i := Instr.accrd c t mw d r das dcol drow
      let m := opened i c s
      let a := strandActor m s.cur
      let sum := items.foldl (fun n q => n + q.count) 0
      readTsr m a das (getS (me s) r).toNat (accrdOk t mw.toNat dcol.toNat) = .ok p →
      items = readoutItems (stNanm (me s)) t mw.toNat (decodeF fmtF32 ((me s).oscale.toNat % 2 ^ 32)) (loadTile p.2 s.cur d)
        (tsrRows p.1 - drow.toNat) (tsrSize p.1 0 - dcol.toNat) →
      (∀ w, checkItems p.2 a p.1 dcol.toNat drow.toNat items = .ok () → writeItems p.2 a p.1 dcol.toNat drow.toNat items = .ok w →
        let stores := itemStores p.2 a p.1 dcol.toNat drow.toNat items
        (∀ q ∈ stores, plainLoc q.1 q.2.1) →
        Gives i c s fun u =>
          (Roomy s (clusterOf s.cur) (64 + stores.length) →
            (∀ sp, readSpot u (coreOf s.cur) sp = afterStores stores sp (readSpot s (coreOf s.cur) sp)) ∧ ∀ x, byteAt u.mem x = byteAt s.mem x) ∧
          HomeKept s u (clusterOf s.cur) ∧
          (me u).nancnt = (if sum = 0 then (me s).nancnt else BitVec.ofNat 64 (min ((me s).nancnt.toNat + sum) 0xFFFFFFFF)) ∧
          (items.any ReadoutItem.ovf = false → (me u).prova = (me s).prova ∧ (me u).provb = (me s).provb) ∧
          (items.any ReadoutItem.ovf = true → (me u).prova.getLsbD 63 = true ∧ (me u).prova.extractLsb' 60 3 = 4) ∧
          QuietIn (64 + stores.length) c s u { me s with nancnt := (me u).nancnt, prova := (me u).prova, provb := (me u).provb }) ∧
      (∀ cause tv, checkItems p.2 a p.1 dcol.toNat drow.toNat items = .fault cause tv → cause ≠ 5 → cause ≠ 6 → cause ≠ 0xE → (me s).vtabQ = [] →
        Gives i c s fun u => TrapEntered s u (BitVec.ofNat 64 cause) (BitVec.ofNat 64 tv) (me s).pc)

/-- R172, R173, R175, R176, R177, R178, R169, R170: at issue WLD makes the buffer that was not filled last the latest one, or waits while that is held or being filled; its step
latches the tile, or leaves the buffer without one and traps at the first failure. MMA and MMA.G begin with their records as read, MMA bound to the latest buffer or to the one it still
holds; the members of an MMA.G instance pass a boundary together, unless one of them stops there for a kill or an interrupt; and a granted step applies one K-block: the block step of
R57 on the operand groups of R52, R53 and R55. A step whose operands must wait is not ready, and the unit grants another strand's. Beside the rules this rests on log 3 (a long instruction stands in its strand
while its steps run), log 28 (which failure of a WLD comes first), log 29 (a strand's own hold), log 37 (the members of an instance), log 91 (an MMA.G of a core in no group keeps its strand's buffer), log 85 (an empty P, and events that tie) and log 9 (a full L2 slice). -/
def Obligations.MatrixMultiply : Prop :=
  (∀ (c : Common) (s : State) (sa : SReg) (was : Space) (full : Bool) (nw : BitVec 7) (col0 : BitVec 16) (kb0 : BitVec 11) (p : BitVec 512 × State),
    let i := Instr.wld c sa was full nw col0 kb0
    let m := opened i c s
    let target := !(myCore s).latest
    (targetHeld (myCore s) s.cur = true → Gives i c s fun u => u = s) ∧
    (targetHeld (myCore s) s.cur = false → readTsr m (strandActor m s.cur) was (getS (me s) sa).toNat (weightOk (myCore s).desc) = .ok p →
      Gives i c s fun u => Begun 64 c s u { me s with long := (me u).long } ∧ HomeKept s u (clusterOf s.cur) ∧
        (Roomy s (clusterOf s.cur) 64 → SameMemory s u) ∧ (myCore u).latest = target ∧
        (getBuf (myCore u) target).valid = false ∧ (getBuf (myCore u) target).filling = some s.cur ∧ (getBuf (myCore u) target).holders = [] ∧
        ∃ l, (me u).long = some l ∧ l.i = i ∧ l.tsrA = p.1 ∧ l.nanm = stNanm (me s) ∧ l.buf = (if target then 1 else 0))) ∧
  (∀ (s : State) (k : Nat) (l : Long) (c : Common) (sa : SReg) (was : Space) (full : Bool) (nw : BitVec 7) (col0 : BitVec 16) (kb0 : BitVec 11)
      (g : Gathered × Reads),
    let x := getStrand s k
    let m := modCore s (coreOf k) fun y => { y with matLast := strandNo k }
    let nb := if full then 64 / tsrStored l.tsrA else 1
    let b := decide (l.buf = 1)
    granted s (coreOf k) = some k → x.long = some l → l.i = .wld c sa was full nw col0 kb0 →
    latchAll l.nanm (strandActor m k) l.tsrA kb0.toNat col0.toNat (blockCols nb nw.toNat) ⟨m, none, false, none⟩ = g → g.2.hold = false →
    (g.2.bad = none → Completes (.blockStep k) s fun u =>
      getBuf (getCore u (coreOf k)) b =
        ⟨true, nb, nw.toNat, tsrStored l.tsrA, weightWidth l.tsrA, g.1.groups, (getBuf (getCore s (coreOf k)) b).holders, none⟩ ∧
      g.1.groups.length = nb * nw.toNat ∧ HomeKept s u (clusterOf k) ∧ (Roomy s (clusterOf k) (32 * (nb * nw.toNat)) → u.mem = s.mem) ∧
      Ended c x (getStrand u k) ∧ (getStrand u k).resume = x.resume ∧ ∀ n, n ≠ k → SameButLines (getStrand s n) (getStrand u n)) ∧
    (∀ tv cause, g.2.bad = some (tv, cause) → x.vtabQ = [] → (getBuf (getCore s (coreOf k)) b).filling = some k → Completes (.blockStep k) s fun u =>
      (getStrand u k).cause = BitVec.ofNat 64 cause ∧ (getStrand u k).tval = BitVec.ofNat 64 tv ∧ (getStrand u k).epc = x.pc ∧
      (getStrand u k).long = none ∧ (getBuf (getCore u (coreOf k)) b).valid = false ∧ (getCore u (coreOf k)).latest = (getCore s (coreOf k)).latest ∧
      (∀ r, getS (getStrand u k) r = getS x r) ∧ ∀ r, getV (getStrand u k) r = getV x r)) ∧
  (∀ (c : Common) (s : State) (d : AReg) (sa : SReg) (aas : Space) (kb0 : BitVec 11) (row0 : BitVec 16) (nrow : BitVec 10) (p : BitVec 512 × State),
    let i := Instr.mma c d sa aas kb0 row0 nrow
    let m := opened i c s
    let again := decide ((me s).resume.toNat / 2 ^ 56 = 0x81) && !(me s).resume.getLsbD 54
    let kept := if again then heldBuf (myCore s) s.cur else none
    let b := kept.getD (myCore s).latest
    let buf := getBuf (myCore s) b
    readTsr m (strandActor m s.cur) aas (getS (me s) sa).toNat operandOk = .ok p →
    (kept = none → buf.valid = false → buf.filling = none → (me s).vtabQ = [] → Gives i c s fun u => TrapEntered s u 9 0 (me s).pc) ∧
    ((kept ≠ none ∨ buf.valid = true ∨ buf.filling ≠ none) → Gives i c s fun u =>
      Begun 64 c s u { me s with long := (me u).long, resume := if again then (me s).resume else BitVec.ofNat 64 (0x81 * 2 ^ 56) } ∧
      HomeKept s u (clusterOf s.cur) ∧ (Roomy s (clusterOf s.cur) 64 → SameMemory s u) ∧ s.cur ∈ (getBuf (myCore u) b).holders ∧
      s.cur ∉ (getBuf (myCore u) !b).holders ∧
      ∃ l, (me u).long = some l ∧ l.i = i ∧ l.tsrA = p.1 ∧ l.nanm = stNanm (me s) ∧ l.buf = (if b then 1 else 0) ∧ l.round = 0)) ∧
  (∀ (c : Common) (s : State) (d : AReg) (sa sb : SReg) (aas was : Space) (kb0 : BitVec 11) (row0 col0 : BitVec 16) (nrow ncol : BitVec 10)
      (nkb : BitVec 6) (p q : BitVec 512 × State),
    let i := Instr.mmaG c d sa sb aas was kb0 row0 col0 nrow ncol nkb
    let m := opened i c s
    let g := (me s).geom
    let fits := geomValid g = true ∧ nrow.toNat ≤ 48 * geomRows g ∧ ncol.toNat ≤ 80 * geomCols g
    let again := decide ((me s).resume.toNat / 2 ^ 56 = 0x81) && (me s).resume.getLsbD 54
    (¬ fits → (me s).vtabQ = [] → Gives i c s fun u => TrapEntered s u 9 g (me s).pc) ∧
    (fits → g.getLsbD 20 = false → Gives i c s (Landed s (after c s))) ∧
    (fits → g.getLsbD 20 = true → readTsr m (strandActor m s.cur) aas (getS (me s) sa).toNat operandOk = .ok p →
      readTsr p.2 (strandActor m s.cur) was (getS (me s) sb).toNat (weightOk (myCore s).desc) = .ok q → Gives i c s fun u =>
        HomeKept s u (clusterOf s.cur) ∧ (Roomy s (clusterOf s.cur) 64 → SameMemory s u) ∧
        (again = true → Begun 64 c s u { me s with long := (me u).long }) ∧
        (again = false → Begun 64 c s u { me s with
          long := (me u).long, resume := BitVec.ofNat 64 (0x81 * 2 ^ 56 + 2 ^ 54), mmagN := (me s).mmagN + 1
          mmagOpen := ((me s).mmagN + 1, false) :: (me s).mmagOpen }) ∧
        ∃ l, (me u).long = some l ∧ l.i = i ∧ l.tsrA = p.1 ∧ l.tsrB = q.1 ∧ l.nanm = stNanm (me s) ∧ l.geom = g ∧ l.round = 0 ∧
          (again = false → l.x = BitVec.ofNat 64 ((me s).mmagN + 1)))) ∧
  (∀ (s : State) (k : Nat) (l : Long),
    let x := getStrand s k
    let b := mmaDone x
    let ms := groupMembers k l.geom
    let here := ms.filter fun n => (getStrand s n).long.any fun q => isGroup q && q.x == l.x
    let stops := fun n => ∃ q, (getStrand s n).long = some q ∧ mmaDone (getStrand s n) = b ∧ q.round = 0 ∧ (killDue (getStrand s n) = true ∨ irqLine (getStrand s n) ≠ none)
    x.long = some l → isGroup l = true → l.round = 0 → mayRun s k = true → killDue x = false → irqLine x = none →
    (ms.all (memberAt s k l b) = false → exec (.mmaGRendezvous k) s = .next s) ∧
    (∀ n, n ∈ here → stops n → ms.all (memberAt s k l b) = true → Completes (.mmaGRendezvous k) s fun u => ∃ n ∈ here, stops n ∧
      u = if killDue (getStrand s n) then (if killReady s n then takeKill s n else s)
        else if (getStrand s n).vtabQ = [] then takeIrq s n ((irqLine (getStrand s n)).getD 0) else s) ∧
    (ms.all (memberAt s k l b) = true → (∀ n ∈ here, ¬ stops n) → (b = 0 → mismatch s here = none) →
      ((∃ n ∈ here, (memberReads s b n).any Reads.hold = true) → (∀ n ∈ here, ((memberReads s b n).bind Reads.bank) = none) →
        exec (.mmaGRendezvous k) s = .next s) ∧
      ((∀ n ∈ here, (memberReads s b n).any Reads.hold = false) → (∀ n ∈ here, memberFault s b n = none) →
        Completes (.mmaGRendezvous k) s fun u =>
          { u with strands := s.strands } = s ∧
          (∀ n, n ∉ here → getStrand u n = getStrand s n) ∧
          ∀ n ∈ here,
            let y := getStrand s n
            getStrand u n = { y with
              mmagOpen := y.mmagOpen.map fun p => if p.1 = l.x.toNat then (p.1, true) else p
              long := y.long.map fun q => if mmaDone y = b then { q with round := 1 } else q }) ∧
      (∀ n tv cause, n ∈ here → (∀ n ∈ here, (memberReads s b n).any Reads.hold = false) → memberFault s b n = some (tv, cause) → (getStrand s n).vtabQ = [] →
        Completes (.mmaGRendezvous k) s fun u =>
          (getStrand u n).cause = BitVec.ofNat 64 cause ∧ (getStrand u n).tval = BitVec.ofNat 64 tv ∧ (getStrand u n).epc = (getStrand s n).pc ∧
          (getStrand u n).resume = (getStrand s n).resume ∧ (getStrand u n).long = none)) ∧
    (∀ m, ms.all (memberAt s k l b) = true → (∀ n ∈ here, ¬ stops n) → b = 0 → mismatch s here = some m → (∀ n ∈ here, (getStrand s n).vtabQ = []) → Completes (.mmaGRendezvous k) s fun u =>
      ∀ n ∈ here, (getStrand u n).cause = 9 ∧ (getStrand u n).tval = BitVec.ofNat 64 (2 ^ 63 + coreNo m) ∧ (getStrand u n).long = none)) ∧
  (∀ (s : State) (k : Nat) (l : Long) (c : Common) (j : BlockJob) (r : BlockRun),
    let x := getStrand s k
    let m := modCore s (coreOf k) fun y => { y with matLast := strandNo k }
    granted s (coreOf k) = some k → x.long = some l → walkArgs l.i = none → l.i.common = some c → killDue x = false → irqLine x = none →
    jobOf (getCore m (coreOf k)) l (mmaDone x) = some j → mmaDone x < j.nkb → runBlock m k l j (mmaDone x) = r →
    (∀ tv cause, r.x.hold = false → r.x.bad = some (tv, cause) → x.vtabQ = [] → Completes (.blockStep k) s fun u =>
      (getStrand u k).cause = BitVec.ofNat 64 cause ∧ (getStrand u k).tval = BitVec.ofNat 64 tv ∧ (getStrand u k).epc = x.pc ∧
      (getStrand u k).long = none ∧ (getStrand u k).resume = x.resume) ∧
    (r.x.hold = false → r.x.bad = none → -2 ^ 15 ≤ r.tile.x → r.tile.x < 2 ^ 15 → Completes (.blockStep k) s fun u =>
      loadTile u k j.dst = r.tile ∧ (∀ n, n ≠ k → SameButLines (getStrand s n) (getStrand u n)) ∧ (getCore u (coreOf k)).matLast = strandNo k ∧
      HomeKept s u (clusterOf k) ∧ (Roomy s (clusterOf k) 5000 → u.mem = s.mem ∧ ∀ n, n ≠ k → getStrand u n = getStrand s n) ∧
      (∀ q, getS (getStrand u k) q = getS x q) ∧ (∀ q, getG (getStrand u k) q = getG x q) ∧ (∀ q, getK (getStrand u k) q = getK x q) ∧
      (∀ q, getV (getStrand u k) q = getV x q) ∧ (∀ q, getD (getStrand u k) q = getD x q) ∧
      (∀ n, n ≠ j.dst.toNat → getTile (getStrand u k) n = getTile x n) ∧
      (mmaDone x + 1 < j.nkb → (getStrand u k).pc = x.pc ∧ mmaDone (getStrand u k) = (mmaDone x + 1) % 64 ∧
        (getStrand u k).long = some { l with round := 0 }) ∧
      (j.nkb ≤ mmaDone x + 1 → (getStrand u k).resume = 0 ∧ (getStrand u k).long = none ∧ GoesOn c x (getStrand u k)))) ∧
  (∀ (s : State) (k : Nat) (l : Long) (j : BlockJob), (getStrand s k).long = some l → killDue (getStrand s k) = false → irqLine (getStrand s k) = none →
    jobOf (getCore s (coreOf k)) l (mmaDone (getStrand s k)) = some j → mmaDone (getStrand s k) < j.nkb →
    (runBlock s k l j (mmaDone (getStrand s k))).x.hold = true → stepReady s k = false) ∧
  (∀ (s : State) (zc : Bool) (a : Actor) (r : BitVec 512) (kb0 col0 nb nw : Nat) (g : Gathered × Reads),
    latchAll zc a r kb0 col0 (blockCols nb nw) (readsFrom s) = g → operandOk r = true → g.2.bad = none → g.2.hold = false →
    g.1.groups.length = nb * nw ∧ ∀ t j, t < nb → j < nw → ∃ w, g.1.groups[t * nw + j]? = some w ∧
      WeightRead zc (latchAll zc a r kb0 col0 ((blockCols nb nw).take (t * nw + j)) (readsFrom s)).2.s a r (kb0 + t) (col0 + j) w) ∧
  (∀ (y : Core) (l : Long) (t : Nat),
    (∀ (c : Common) (d : AReg) (sa : SReg) (aas : Space) (kb0 : BitVec 11) (row0 : BitVec 16) (nrow : BitVec 10), l.i = .mma c d sa aas kb0 row0 nrow →
      ∃ j, jobOf y l t = some j ∧ j.dst = d ∧ j.akb = kb0.toNat + t ∧ j.arow = row0.toNat ∧ j.nkb = (getBuf y (l.buf == 1)).nb ∧
        (∀ i, i ∈ j.rows ↔ i < 48 ∧ i < nrow.toNat ∧ row0.toNat + i < tsrRows l.tsrA) ∧ ∀ q, q ∈ j.cols ↔ q < (getBuf y (l.buf == 1)).nw) ∧
    (∀ (c : Common) (d : AReg) (sa sb : SReg) (aas was : Space) (kb0 : BitVec 11) (row0 col0 : BitVec 16) (nrow ncol : BitVec 10) (nkb : BitVec 6),
      l.i = .mmaG c d sa sb aas was kb0 row0 col0 nrow ncol nkb →
      let ro := 48 * (l.geom.extractLsb' 17 3).toNat
      let co := 80 * (l.geom.extractLsb' 14 3).toNat
      ∃ j, jobOf y l t = some j ∧ j.dst = d ∧ j.akb = kb0.toNat + t ∧ j.arow = row0.toNat + ro ∧ groupCol0 l j.co = col0.toNat + co ∧ j.nkb = nkb.toNat ∧
        (∀ i, i ∈ j.rows ↔ i < 48 ∧ ro + i < nrow.toNat ∧ row0.toNat + ro + i < tsrRows l.tsrA) ∧
        ∀ q, q ∈ j.cols ↔ q < 80 ∧ co + q < ncol.toNat ∧ col0.toNat + co + q < tsrRows l.tsrB)) ∧
  (∀ (s : State) (k : Nat) (l : Long) (j : BlockJob) (t : Nat) (r : BlockRun), runBlock s k l j t = r → r.x.bad = none → r.x.hold = false →
    operandOk l.tsrA = true → (isGroup l = true → operandOk l.tsrB = true) →
    let a := strandActor s k
    let buf := getBuf (getCore s (coreOf k)) (l.buf == 1)
    let ba := if tsrTy l.tsrA = .gbf then tsrMw l.tsrA else 16
    let bw := if isGroup l then (if tsrTy l.tsrB = .gbf then tsrMw l.tsrB else 8) else buf.bw
    let rowsTo := fun n => readActs l.nanm ba a l.tsrA j.akb j.arow j.rows (List.range n) (readsFrom s)
    let colsTo := fun n => readCols l.nanm a l.tsrB j.akb (groupCol0 l j.co) j.cols (List.range n) (rowsTo 48).2
    (j.rows = [] ∨ j.cols = [] → r.tile = { loadTile s k j.dst with empty := false }) ∧
    (j.rows ≠ [] → j.cols ≠ [] → ∃ acts ws, r.tile = (blockStep ba bw acts ws (loadTile s k j.dst)).1 ∧ acts.length = 48 ∧ ws.length = 80 ∧
      (∀ i, i < 48 → (i ∉ j.rows → acts[i]? = some none) ∧
        (i ∈ j.rows → ∃ o, acts[i]? = some (some o) ∧ GroupRead l.nanm ba (rowsTo i).2.s a l.tsrA j.akb (j.arow + i) o)) ∧
      ∀ q, q < 80 → (q ∉ j.cols → ws[q]? = some none) ∧ (q ∈ j.cols → ∃ w, ws[q]? = some (some w) ∧
        if isGroup l then WeightRead l.nanm (colsTo q).2.s a l.tsrB j.akb (groupCol0 l j.co + q) w
        else w = (buf.groups[t * buf.nw + q]?).getD ⟨0, 0, []⟩))) ∧
  (∀ (s : State) (core n k : Nat),
    (granted s core = none → (∀ n, n < 4 → stepReady s (4 * core + n) = false) ∧
      ((∀ n, n < 4 → stepDue s (4 * core + n) = false) → exec (.stepGrant core) s = .next s)) ∧
    (granted s core = some k → core = coreOf k ∧ stepReady s k = true ∧
      ∃ l, (getStrand s k).long = some l ∧ exec (.stepGrant core) s = .next (walkTurn k s) ∧ (walkArgs l.i = none → exec (.blockStep k) s = exec (.stepGrant core) s)) ∧
    (slotOwner (getCore s core) s.cycle = some n → n < liveCount (getCore s core) → stepReady s (4 * core + n) = true →
      granted s core = some (4 * core + n)) ∧
    (slotOwner (getCore s core) s.cycle = none → n < 4 → stepReady s (4 * core + n) = true → ∃ q, granted s core = some (4 * core + q) ∧ q < 4 ∧
      (q + 3 - (getCore s core).matLast % 4) % 4 ≤ (n + 3 - (getCore s core).matLast % 4) % 4))

/-- R188, R190, R187, R191, R192: WALKI and WALK begin over their records, WALKI over fresh ones; a round processes the ACTIVE records only and counts itself in each; the array takes a chunk
from the staging area, into which the staging engine has fetched it, the first one of a visit too, and where it writes nothing else; a walk with no ACTIVE record completes, with the walk-fault trap where records are
FAULT and WTE is set. The order in which a visit's parts are taken, and the cases that R187 to R194 do not name, are log 32, what a visit counts log 87; that a walk does not issue
while its strand has a merged atomic on its way is log 41; what is said of bytes holds where the L2 slice has room (log 9). -/
def Obligations.Walks : Prop :=
  (∀ (c : Common) (s : State) (init : Bool) (d sa sb sc : SReg) (aas : Space) (maxd : BitVec 8) (row0 : BitVec 16) (nr : BitVec 6)
      (p : BitVec 512 × State),
    let i := if init then Instr.walki c d sa sb sc aas maxd row0 nr else Instr.walk c sa sb sc aas maxd row0
    let m := opened i c s
    let base := (getS (me s) sb).toNat
    let stage := (getS (me s) sc).toNat
    let op := if init then 0x85 else 0x86
    let again := decide ((me s).resume.toNat / 2 ^ 56 = op)
    let room := 64 + (myCore s).dcache.length
    (hasReduction s s.cur = true → Gives i c s fun u => u = s) ∧
    (hasReduction s s.cur = false → readTsr m (strandActor m s.cur) aas (getS (me s) sa).toNat operandOk = .ok p →
      (∀ t, walkBad (myCore s) base stage = some t → (me s).vtabQ = [] → Gives i c s fun u => TrapEntered s u 9 (BitVec.ofNat 64 t) (me s).pc) ∧
      (walkBad (myCore s) base stage = none → Gives i c s fun u =>
        Begun room c s u { me s with
          long := (me u).long
          resume := BitVec.ofNat 64 (op * 2 ^ 56 + (if again ∧ (me s).resume.getLsbD 55 = true then 2 ^ 55 else 0) + if init then 2 ^ 54 else 0) } ∧
        (Roomy s (clusterOf s.cur) room → (∀ x, seen u (coreOf s.cur) x = seen s (coreOf s.cur) x) ∧ ∀ x, byteAt u.mem x = byteAt s.mem x) ∧
        (∀ off, off < base ∨ base + 1536 ≤ off → byteAt (myCore u).pool off = byteAt (myCore s).pool off) ∧
        ∃ l, (me u).long = some l ∧ l.i = i ∧ l.tsrA = p.1 ∧ l.buf = base ∧ l.x = BitVec.ofNat 64 stage ∧ l.round = 0 ∧ l.wte = stWte (me s) ∧
          (init = true → again = false ∨ (me s).resume.getLsbD 54 = false → readRows u (coreOf s.cur) base = l.rows ∧ ∀ n, n < 48 → l.rows[n]? = some (
            if n < nr.toNat then (getS (me s) d).setWidth 256 else BitVec.ofNat 256 (15 * 2 ^ 72))) ∧
          (init = false ∨ again = true ∧ (me s).resume.getLsbD 54 = true → ∀ n, n < 48 → l.rows[n]? = some (
            let r := BitVec.ofNat 256 (readLE (myCore s).pool (base + 32 * n) 32)
            if (again = false ∨ (me s).resume.getLsbD 53 = true) ∧ r.extractLsb' 72 4 = 2 then
              r &&& ~~~ (15#256 <<< 72) &&& ~~~ (15#256 <<< 92) &&& ~~~ (127#256 <<< 185)
            else r))))) ∧
  (∀ (s : State) (k : Nat) (l : Long) (c : Common) (op row0 maxd : Nat),
    let x := getStrand s k
    let status := fun r : BitVec 256 => (r.extractLsb' 72 4).toNat
    let faulty := (List.range l.rows.length).filter fun n => (l.rows[n]?.map status) == some 2
    granted s (coreOf k) = some k → x.long = some l → walkArgs l.i = some (op, row0, maxd) → l.i.common = some c → l.prog = none →
    (killDue x = false ∧ irqLine x = none ∨ l.round = 0) →
    ((∃ (n : Nat) (r : BitVec 256), l.rows[n]? = some r ∧ status r = 0) → Completes (.walkRound k) s fun u => ∃ l' : Long,
      (getStrand u k).long = some l' ∧ l'.i = l.i ∧ l'.tsrA = l.tsrA ∧ l'.rows.length = l.rows.length ∧ SameRegs x (getStrand u k) ∧
      (∀ n, n ≠ k → SameButLines (getStrand s n) (getStrand u n)) ∧
      (∀ (n : Nat) (r : BitVec 256), l.rows[n]? = some r → status r ≠ 0 → l'.rows[n]? = some r) ∧
      (l'.prog ≠ none → l'.round = l.round) ∧
      (l'.prog = none → l' = l ∨ (l'.round = l.round + 1 ∧ ∀ (n : Nat) (r r' : BitVec 256), l.rows[n]? = some r → l'.rows[n]? = some r' → status r = 0 →
        r'.toNat / 2 ^ 192 = (r.toNat / 2 ^ 192 + 1) % 2 ^ 64 ∧
        (nodeEntryOk (r.toNat % 2 ^ 64) = false → status r' = 3 ∧ (r'.extractLsb' 128 57) = 0) ∧
        (nodeEntryOk (r.toNat % 2 ^ 64) = true → maxd ≤ (r.extractLsb' 64 8).toNat → status r' = 4))) ∧
      ((∀ (n : Nat) (r : BitVec 256), l.rows[n]? = some r → status r = 0 → nodeEntryOk (r.toNat % 2 ^ 64) = false ∨ maxd ≤ (r.extractLsb' 64 8).toNat) →
        l'.prog = none ∧ l'.round = l.round + 1)) ∧
    ((∀ (n : Nat) (r : BitVec 256), l.rows[n]? = some r → status r ≠ 0) → (faulty = [] ∨ l.wte = false) → Completes (.walkRound k) s fun u =>
      Ended c x (getStrand u k) ∧ (getStrand u k).resume = 0 ∧ u.mem = s.mem ∧ (∀ n, n ≠ k → getStrand u n = getStrand s n) ∧
      (getCore u (coreOf k)).latch0.valid = false ∧ (getCore u (coreOf k)).latch1.valid = false) ∧
    ((∀ (n : Nat) (r : BitVec 256), l.rows[n]? = some r → status r ≠ 0) → faulty ≠ [] → l.wte = true → x.vtabQ = [] → Completes (.walkRound k) s fun u =>
      (getStrand u k).long = none ∧ (getStrand u k).cause = 8 ∧
      (getStrand u k).tval = BitVec.ofNat 64 (faulty.length * 256 + faulty.headD 0) ∧ (getStrand u k).epc = x.pc ∧ u.mem = s.mem)) ∧
  (∀ (s : State) (k : Nat) (l : Long) (w : Nat × Nat × Nat) (p : WalkProg) (v : Visit) (n : Nat) (q : List Nat) (rest : List (Nat × List Nat)),
    granted s (coreOf k) = some k → (getStrand s k).long = some l → walkArgs l.i = some w → l.prog = some p → p.todo = (n, q) :: rest → p.visit = some v →
    v.taken < v.staged → v.taken + 1 < nodeChunks v.node →
    Completes (.stepGrant (coreOf k)) s fun u => u.mem = s.mem ∧ (∀ j, j ≠ k → getStrand u j = getStrand s j) ∧ ∃ z : Visit,
      getStrand u k = { getStrand s k with long := some { l with prog := some { p with visit := some z } } } ∧
      z = { walkBlocks l.nanm l.tsrA (stagedPlanes s (coreOf k) v.node l.x.toNat v.taken) (chunkBlocks v.node v.taken) v with
        staged := v.staged, taken := v.taken + 1 }) ∧
  (∀ (s t u1 : State) (k maxd row0 op n : Nat) (q : List Nat) (rest : List (Nat × List Nat)) (l l' : Long) (p : WalkProg) (v : Visit),
    (getStrand s k).long = some l → walkArgs l.i = some (op, row0, maxd) → l.prog = some p → p.todo = (n, q) :: rest → p.visit = none → mayRun s k = true →
    beginVisit s k l p row0 n q = .ok (t, l', v) → fetchChunk t (coreOf k) (stagingActor t k) v.node l.x.toNat 0 = .ok u1 →
    v.taken = 0 ∧ v.staged = 0 ∧ Completes (.walkStagingFetch k 0) s fun u =>
      (getStrand u k).long = some { l' with prog := some { p with visit := some { v with staged := 1 } } } ∧ ∀ j, j ≠ k → getStrand u j = getStrand u1 j) ∧
  (∀ (s s1 s2 : State) (k e f : Nat) (l : Long) (w : Nat × Nat × Nat) (p : WalkProg) (v : Visit),
    let core := coreOf k
    let a := engineActor core (stCtx (getStrand s k)) (getCore s core).desc
    let chunk := v.staged
    let half := l.x.toNat + 0x3000 * (chunk % 2)
    let planes := chunkPlanes v.node chunk
    (getStrand s k).long = some l → walkArgs l.i = some w → l.prog = some p → p.visit = some v → mayRun s k = true → nodeOk v.node = true → chunk ≤ v.taken + 1 → 64 * chunk < nodeK v.node →
    loadSpan s a .glob (nodeMptr v.node + planes.1.1) planes.1.2 = .ok (e, s1) →
    loadSpan s1 a .glob (nodeSptr v.node + planes.2.1) planes.2.2 = .ok (f, s2) →
    Completes (.walkStagingFetch k chunk) s fun u =>
      (getStrand u k).long = some { l with prog := some { p with visit := some { v with staged := chunk + 1 } } } ∧ SameRegs (getStrand s k) (getStrand u k) ∧
      (∀ n, n ≠ k → SameButLines (getStrand s n) (getStrand u n)) ∧ (Roomy s (clusterOf k) (planes.1.2 + planes.2.2) → u.mem = s.mem) ∧
      readLE (getCore u core).pool half planes.1.2 = e ∧ readLE (getCore u core).pool (half + 0x2800) planes.2.2 = f ∧
      ∀ off, (off < half ∨ half + 0x3000 ≤ off) → byteAt (getCore u core).pool off = byteAt (getCore s core).pool off) ∧
  (∀ (ys thr : List Nat), ys ≠ [] → thr.length = ys.length → ys.any (isNan fmtF32) = false →
    (∃ j y, decideChild 0 ys thr = some (j, y) ∧ ys[j]? = some y ∧
      ∀ i z, ys[i]? = some z → ltF fmtF32 y z = false ∧ (i < j → ltF fmtF32 z y = true)) ∧
    (∃ j y, decideChild 1 ys thr = some (j, y) ∧ ys[j]? = some y ∧
      ∀ i z, ys[i]? = some z → ltF fmtF32 z y = false ∧ (i < j → ltF fmtF32 y z = true)) ∧
    (thr.any (isNan fmtF32) = false → ∃ j y, decideChild 2 ys thr = some (j, y) ∧ ys[j]? = some y ∧
      (∀ i z t, i < j → ys[i]? = some z → thr[i]? = some t → ltF fmtF32 t z = false) ∧
      (j + 1 = ys.length ∨ ∀ t, thr[j]? = some t → ltF fmtF32 t y = true)) ∧
    (∃ n y, decideChild 3 ys thr = some (n, y) ∧ y ∈ ys ∧ (∀ z ∈ ys, y % 2 ^ 31 ≤ z % 2 ^ 31) ∧
      ∀ j, n.testBit j = (ys[j]?.any fun z => ltF fmtF32 z 0)))

namespace Sys2Proof.Claims

/-- A byte that a line holds as written and not yet passed on. -/
def dirtyByte (l : Option Line) (a : Nat) : Option Byte :=
  l.bind fun l => if l.dirty.getLsbD (a % 128) then some (l.data.extractLsb' (8 * (a % 128)) 8) else none

/-- The byte at a global location as it stands at the level at which a scope is served, once a core's and its cluster's newer copies have been
passed on to that level (spec/13 R256): in the core, in the L2 slice, at the home. -/
def byteFor (s : State) (q : Nat) (sc : Scope) (a : Nat) : Byte :=
  match sc with
  | .strand | .core => seen s q a
  | .cluster => (dirtyByte (coreLine s q (a / 128)) a).getD (match l2Line s (q / 64) (a / 128) with
    | some l => l.data.extractLsb' (8 * (a % 128)) 8
    | none => byteAt s.mem a)
  | _ => (dirtyByte (coreLine s q (a / 128)) a).getD ((dirtyByte (l2Line s (q / 64) (a / 128)) a).getD (byteAt s.mem a))

/-- The byte at a spot for a scope. -/
def spotFor (s : State) (q : Nat) (sc : Scope) : Spot → Byte
  | .pool c off => byteAt (getCore s c).pool off
  | .glob a => byteFor s q sc a

/-- The scope at which an atomic at a location is served: at the home in a reduction window (spec/20 R331). -/
def servedAt (sc : Scope) : Loc → Scope
  | .glob _ e => if e.leaf.getLsbD 7 then .device else sc
  | _ => sc

/-- The little-endian quantity of `n` bytes at a location for a scope. -/
def quantityFor (s : State) (q : Nat) (sc : Scope) (l : Loc) (n : Nat) : Nat :=
  leOf ((List.range n).map fun j => match l with
    | .pool c off | .carve c off => spotFor s q sc (.pool c (off + j))
    | .glob key _ => spotFor s q sc (.glob (key + j))
    | .ctl _ => 0)

/-- The areas of a join in its opener's addresses: participant table, staging, target and result. -/
def areasOf (j : JoinInst) : List (Nat × Nat) :=
  [(swField j 256 57, 16 * jN j), (swField j 384 57, 16 * jN j * jNE j), (swField j 320 57, 16 * jNE j), (swField j 448 57, 4 * jNE j)]

/-- An address lies in an area of a join. -/
def InAreas (j : JoinInst) (x : Nat) : Prop := ∃ a ∈ areasOf j, a.1 ≤ x ∧ x < a.1 + a.2

/-- The homes of a join's record and areas answer. -/
def JoinHomes (s : State) (j : JoinInst) : Prop := noHome s j.key = false ∧ ∀ x, InAreas j x → noHome s (areaLoc j x) = false

/-- The homes answer of everything that the machine holds for later: the lines in caches, the tracked joins, the task control blocks of the task units
and the merged reductions (spec/22 R370, R374). -/
structure AllHomes (s : State) : Prop where
  core : ∀ q line l, coreLine s q line = some l → noHome s (line * 128) = false
  slice : ∀ cl line l, l2Line s cl line = some l → noHome s (line * 128) = false
  joins : ∀ j ∈ s.joins, JoinHomes s j
  tasks : ∀ cl, ∀ t ∈ (getCluster s cl).tasks, noHome s t.key = false
  reductions : ∀ r ∈ s.reductions, noHome s r.pa = false

/-- No byte of global memory has changed as it stands at its home with the newer copies of a core and its cluster passed on. -/
def SameHomes (s u : State) (q : Nat) : Prop := ∀ a, byteFor u q .device a = byteFor s q .device a

/-- A strand goes on with a wait: no trace record holds it back, and no kill ends the wait. -/
structure Resumes (s : State) (w : Wait) : Prop where
  free : heldBack s s.cur = false
  waits : (me s).wait = some w
  noKill : breakable w = false ∨ killDue (me s) = false

/-- The strand has issued an instruction and waits: its SET counter counts it, and no register is written and it has not gone on. -/
structure Waiting (c : Common) (s u : State) (what : WaitFor) : Prop where
  wait : ∃ w, (me u).wait = some w ∧ w.what = what ∧ w.served = none
  scalar : ∀ r, getS (me u) r = getS (me s) r
  guards : ∀ r, getG (me u) r = getG (me s) r
  masks : ∀ r, getK (me u) r = getK (me s) r
  vectors : ∀ r, getV (me u) r = getV (me s) r
  counter : CounterUp c (me s) (me u)
  pc : (me u).pc = (me s).pc
  loops : (me u).loops = (me s).loops

/-- The strand waits for another device's answer to its request, and nothing else of any strand has changed. -/
def AskedAway (c : Common) (s : State) (dev : Nat) (u : State) : Prop := Waiting c s u (.away dev) ∧ ∀ j, j ≠ s.cur → getStrand u j = getStrand s j

/-- The request for another device has failed: no way leads there (spec/22 R374). -/
def NoWay (s u : State) (tval : Word) : Prop :=
  (me u).cause = 0xE ∧ (me u).tval = tval ∧ (me u).epc = (me s).pc ∧ (me u).pc = (me s).tvec &&& ~~~ 3#64 ∧ (∀ r, getS (me u) r = getS (me s) r) ∧ ∀ r, getV (me u) r = getV (me s) r

/-- The strand has ended its wait and goes on past the instruction it waited in. -/
structure Woken (c : Common) (s u : State) : Prop where
  wait : (me u).wait = none
  goes : GoesOn c (me s) (me u)
  masks : ∀ r, getK (me u) r = getK (me s) r
  counters : ∀ j, getD (me u) j = getD (me s) j

/-- Every other strand is as it was but for the answer to what it waits for. -/
def OthersServed (s u : State) : Prop := ∀ k, k ≠ s.cur → { getStrand u k with wait := (getStrand s k).wait } = getStrand s k

/-- No line of the runs has a copy in the core or its L2 slice. -/
def NoCopies (u : State) (q : Nat) (runs : List (Nat × Nat)) : Prop :=
  ∀ line, lineInRuns runs line = true → coreLine u q line = none ∧ l2Line u (q / 64) line = none

/-- No line of the runs has a copy in the core or its L2 slice with bytes not yet written home. -/
def NoDirty (u : State) (q : Nat) (runs : List (Nat × Nat)) : Prop :=
  ∀ line l, lineInRuns runs line = true → coreLine u q line = some l ∨ l2Line u (q / 64) line = some l → l.dirty = 0

end Sys2Proof.Claims

/-- R198, R199, R256: AMO and CAS read an element where their scope is served and write it there, indivisibly, with its old value to DST, and change no other byte; an AMO
that merges goes on its way, two that meet combine, and the combination does to the element what both would have done; FENCE waits for the strand's
earlier accesses, then its halves leave no unwritten byte or no copy below its scope; BIND and UNBIND keep the context's table, and on a handle of another device of the cascade
wait for that device's answer (log 18). When a merged atomic is performed is log 38, and that a BIND which needs no room does not fault on a full table log 39. -/
def Obligations.AtomicsAndFences : Prop :=
  (∀ (c : Common) (s : State) (fn : AmoFn) (t : Ty) (sc : Scope) (as : Space) (o : BitVec 8) (d sa sb : SReg) (l : Loc),
    let i := Instr.amo c fn t sc as o d sa sb
    let m := opened i c s
    let q := coreOf s.cur
    let n := t.width / 8
    let b := (getS (me s) sb).toNat % 2 ^ t.width
    let at_ := servedAt sc l
    let old := quantityFor s q at_ l n
    let written := RegsAfter c s
    t.isInt = true ∨ t = .f32 → 32 ≤ t.width →
    locate m (strandActor m s.cur) as (getS (me s) sa + o.signExtend 64).toNat n n .atomic = .ok l → plainLoc l n → AllHomes s →
    (merges fn t d l = none → Gives i c s fun u =>
      written u (fun r => if r = d ∧ r ≠ 0 then loaded t old else getS (me s) r) (getK (me s)) (getV (me s)) ∧
      ∀ sp, spotFor u q at_ sp = match placeIn l n sp with
        | some j => BitVec.ofNat 8 (amoValue fn t old b / 256 ^ j)
        | none => spotFor s q at_ sp) ∧
    (∀ key, merges fn t d l = some key → Gives i c s fun u =>
      written u (getS (me s)) (getK (me s)) (getV (me s)) ∧ SameHomes s u q ∧
      u.reductions = s.reductions ++ [⟨key, fn, t, b, [⟨s.cur, c.set, (getS (me s) sa + o.signExtend 64).toNat⟩]⟩])) ∧
  (∀ (c : Common) (s : State) (t : Ty) (sc : Scope) (as : Space) (d sa sb se : SReg) (l : Loc),
    let i := Instr.cas c t sc as d sa sb se
    let m := opened i c s
    let q := coreOf s.cur
    let n := t.width / 8
    let at_ := servedAt sc l
    let old := quantityFor s q at_ l n
    t.isInt = true → 32 ≤ t.width →
    locate m (strandActor m s.cur) as (getS (me s) sa).toNat n n .atomic = .ok l → plainLoc l n → AllHomes s →
    Gives i c s fun u =>
      RegsAfter c s u (fun r => if r = d ∧ r ≠ 0 then loaded t old else getS (me s) r) (getK (me s)) (getV (me s)) ∧
      ∀ sp, spotFor u q at_ sp = match placeIn l n sp with
        | some j => BitVec.ofNat 8 ((if old = (getS (me s) sb).toNat % 2 ^ t.width then (getS (me s) se).toNat else old) / 256 ^ j)
        | none => spotFor s q at_ sp) ∧
  (∀ (s : State) (a b : Nat) (x y : Reduction), s.reductions[a]? = some x → s.reductions[b]? = some y → a < b → x.pa = y.pa → x.fn = y.fn → x.ty = y.ty →
    exec (.reductionMerge a b) s = .next { s with
      reductions := (s.reductions.set a ⟨x.pa, x.fn, x.ty, amoValue x.fn x.ty x.val y.val, x.owners ++ y.owners⟩).eraseIdx b }) ∧
  (∀ (fn : AmoFn) (t : Ty) (old p q : Nat), t.isInt = true → fn ≠ .swap → old < 2 ^ t.width → p < 2 ^ t.width → q < 2 ^ t.width →
    amoValue fn t old (amoValue fn t p q) = amoValue fn t (amoValue fn t old p) q) ∧
  (∀ (t : Ty) (old b : Nat), t.isInt = true → old < 2 ^ t.width → b < 2 ^ t.width →
    amoValue .add t old b = (old + b) % 2 ^ t.width ∧ amoValue .and t old b = old &&& b ∧ amoValue .or t old b = old ||| b ∧
    amoValue .xor t old b = old ^^^ b ∧ amoValue .swap t old b = b ∧
    intOf t (amoValue .min t old b) = min (intOf t old) (intOf t b) ∧ intOf t (amoValue .max t old b) = max (intOf t old) (intOf t b)) ∧
  (∀ old b : Nat, Encoding fmtF32 old → Encoding fmtF32 b →
    amoValue .add .f32 old b = addF fmtF32 old b ∧ amoValue .min .f32 old b = minF fmtF32 old b ∧ amoValue .max .f32 old b = maxF fmtF32 old b ∧
    (isNan fmtF32 old = true ∨ isNan fmtF32 b = true → amoValue .add .f32 old b = 0x7FC00000 ∧ amoValue .min .f32 old b = 0x7FC00000 ∧ amoValue .max .f32 old b = 0x7FC00000) ∧
    (finEnc fmtF32 old → finEnc fmtF32 b → RoundedTo fmtF32 (units fmtF32 old + units fmtF32 b) 0 (amoValue .add .f32 old b) ∧
      units fmtF32 (amoValue .min .f32 old b) = min (units fmtF32 old) (units fmtF32 b) ∧
      units fmtF32 (amoValue .max .f32 old b) = max (units fmtF32 old) (units fmtF32 b))) ∧
  (∀ (c : Common) (s : State) (sc : Scope) (h : Half),
    let i := Instr.fence c sc h
    let q := coreOf s.cur
    (allLanded s s.cur = false → Ready i c s → exec i s = .next s) ∧
    (allLanded s s.cur = true → AllHomes s → Gives i c s fun u => Quiet c s u (me s) ∧ SameHomes s u q ∧
      (sc = .strand ∨ sc = .core → ∀ a, coreLine u q a = coreLine s q a ∧ l2Line u (q / 64) a = l2Line s (q / 64) a) ∧
      (sc ≠ .strand → sc ≠ .core →
        (h ≠ .acq → ∀ a l, coreLine u q a = some l → l.dirty = 0) ∧
        (h ≠ .rel → ∀ a, coreLine u q a = none) ∧
        (sc ≠ .cluster → (h ≠ .acq → ∀ a l, l2Line u (q / 64) a = some l → l.dirty = 0) ∧ (h ≠ .rel → ∀ a, l2Line u (q / 64) a = none))))) ∧
  (∀ (c : Common) (s : State) (a b e : SReg),
    let n : Binding := ⟨getS (me s) a, getS (me s) b, getS (me s) e⟩
    let x := stCtx (me s)
    let old := (getCtx s x).binds
    let tableIs := fun (u : State) l => getCtx u x = { getCtx s x with binds := l } ∧ (∀ y, y ≠ x → getCtx u y = getCtx s y) ∧ u.mem = s.mem ∧
      Quiet c s u (me s)
    (∀ dev, handleOk s x n.handle = false → handleAway s s.cur n.handle = some dev → deviceGone s dev = false →
      Gives (.bind c a b e) c s (AskedAway c s dev) ∧ Gives (.unbind c a b e) c s (AskedAway c s dev)) ∧
    (handleOk s x n.handle = false → handleAway s s.cur n.handle = none → (me s).vtabQ = [] →
      Gives (.bind c a b e) c s (fun u => TrapEntered s u 0x13 n.handle (me s).pc) ∧
      Gives (.unbind c a b e) c s (fun u => TrapEntered s u 0x13 n.handle (me s).pc)) ∧
    (handleOk s x n.handle = true →
      Gives (.unbind c a b e) c s (fun u => tableIs u (old.filter (· ≠ n))) ∧
      (n.len = 0 ∨ n ∈ old → Gives (.bind c a b e) c s (fun u => tableIs u old)) ∧
      (n.len ≠ 0 → n ∉ old → old.length < 1024 → Gives (.bind c a b e) c s (fun u => tableIs u (old ++ [n]))) ∧
      (n.len ≠ 0 → n ∉ old → 1024 ≤ old.length → (me s).vtabQ = [] →
        Gives (.bind c a b e) c s (fun u => TrapEntered s u 0x14 n.handle (me s).pc))))

/-- R202, R203: ACQ takes a free mutex or lock at once, waits in its queue for another, and goes on when it has been granted; REL frees it, or grants it to the first in
the queue; the V forms only acquire or release; EVWAIT takes a count of its line, EVWAIT.PK only its value, and waits while there is none; EVSIG sets the
value, adds a count or clears it, and serves the waiters in order. A handle that the context may not use takes trap 0x13; a request on one of another device of the cascade waits for that device's answer, and takes trap 0x0E where no way
leads there (log 18). The requests of one cycle reach a unit in ascending order (log 53). REL, REL.V and EVSIG do not issue while the strand has a merged atomic on its way (log 41);
ACQ of a lock does not while the strand has one, or a deferred load, on its way to the lock word (R254, R255). A strand's own address, in a queue or a lock word, has RDEV 0 (log 94). -/
def Obligations.LocksAndEvents : Prop :=
  (∀ (c : Common) (s : State) (d sa sb : SReg),
    let h := getS (me s) sa
    let k := s.cur
    let q := coreOf k
    let own := addrOfStrand s k
    let cl := hCluster h
    let n := hIdx h
    let runs := fun i => boundRuns (opened i c s) q (stCtx (me s)) (myCore s).desc h
    let x := fun (u : State) => { me s with floor := (me u).floor }
    k < 4096 → s.devNo < 64 → AllHomes s →
    (hasReduction s k = true → ∀ i ∈ [Instr.rel c sa, .relV c sa, .evsig c sa sb, .evsigClr c sa sb], Gives i c s fun u => u = s) ∧
    (handleOk s (stCtx (me s)) h = false → (me s).vtabQ = [] →
      (∀ i ∈ [Instr.evwait c d sa, .evwaitPk c d sa], Gives i c s fun u => TrapEntered s u 0x13 h (me s).pc) ∧
      (handleAway s k h = none →
        (∀ i ∈ [Instr.acq c sa, .acqV c sa], Gives i c s fun u => TrapEntered s u 0x13 h (me s).pc) ∧
        (hasReduction s k = false → ∀ i ∈ [Instr.rel c sa, .relV c sa, .evsig c sa sb, .evsigClr c sa sb], Gives i c s fun u => TrapEntered s u 0x13 h (me s).pc)) ∧
      (∀ dev, handleAway s k h = some dev → ∀ i ∈ [Instr.acqV c sa, .relV c sa] ++ (if hKind h = 1 then [Instr.acq c sa, .rel c sa] else []) ++
          (if hKind h = 2 then [.evsig c sa sb, .evsigClr c sa sb] else []), (i = .acq c sa ∨ i = .acqV c sa ∨ hasReduction s k = false) →
        (deviceGone s dev = false → Gives i c s (AskedAway c s dev)) ∧ (deviceGone s dev = true → Gives i c s (NoWay s · h)))) ∧
    (handleOk s (stCtx (me s)) h = true →
      Gives (.acqV c sa) c s (fun u => NoCopies u q (runs (.acqV c sa)) ∧ SameHomes s u q ∧ Quiet c s u (x u)) ∧
      (hasReduction s k = false → Gives (.relV c sa) c s (fun u => NoDirty u q (runs (.relV c sa)) ∧ SameHomes s u q ∧ Quiet c s u (me s))) ∧
      (hKind h = 1 →
        (mayAsk s (askMutex cl n) own.toNat = false → Gives (.acq c sa) c s fun u => u = s) ∧
        (mayAsk s (askMutex cl n) own.toNat = true → getMutex s cl n = ⟨none, []⟩ → Gives (.acq c sa) c s fun u =>
          getMutex u cl n = ⟨some own, []⟩ ∧ NoCopies u q (runs (.acq c sa)) ∧ SameHomes s u q ∧ Quiet c s u (x u)) ∧
        (∀ a r, mayAsk s (askMutex cl n) own.toNat = true → getMutex s cl n = ⟨some a, r⟩ → Gives (.acq c sa) c s fun u =>
          getMutex u cl n = ⟨some a, r ++ [own]⟩ ∧ Waiting c s u (.mutex cl n) ∧ u.mem = s.mem ∧ ∀ j, j ≠ k → getStrand u j = getStrand s j) ∧
        (getMutex s cl n = ⟨some own, []⟩ → hasReduction s k = false → Gives (.rel c sa) c s fun u =>
          getMutex u cl n = ⟨none, []⟩ ∧ NoDirty u q (runs (.rel c sa)) ∧ SameHomes s u q ∧ Quiet c s u (me s)) ∧
        (∀ a r, getMutex s cl n = ⟨some own, a :: r⟩ → otherDev s a 18 12 = false → a.toNat % 4096 ≠ k → hasReduction s k = false → Gives (.rel c sa) c s fun u =>
          getMutex u cl n = ⟨some a, r⟩ ∧ NoDirty u q (runs (.rel c sa)) ∧ SameHomes s u q ∧ OthersServed s u ∧
          (getStrand u (a.toNat % 4096)).wait = (getStrand s (a.toNat % 4096)).wait.map (fun w => { w with served := some 0 }) ∧
          GoesOn c (me s) (me u) ∧ CounterUp c (me s) (me u) ∧ ∀ r, getS (me u) r = getS (me s) r) ∧
        ((getMutex s cl n).holder ≠ some own → (me s).vtabQ = [] → hasReduction s k = false → Gives (.rel c sa) c s fun u => TrapEntered s u 0x13 h (me s).pc)) ∧
      (hKind h = 5 → ∀ key, key % 8 = 0 →
        (lockLoc (opened (.acq c sa) c s) h = .ok key → reductionAt s (strandActor s k) key 8 = true → Gives (.acq c sa) c s fun u => u = s) ∧
        (lockLoc (opened (.acq c sa) c s) h = .ok key → reductionAt s (strandActor s k) key 8 = false → mayAsk s (askLock key) own.toNat = true → lockQueue s key = [] →
          quantityFor s q .device (.glob key ⟨0, 0, 0, 0⟩) 8 = 0 → Gives (.acq c sa) c s fun u =>
            readLE u.mem key 8 = (0x8000000000000000#64 ||| own).toNat ∧ lockQueue u key = [] ∧ Quiet c s u (x u) ∧
            ∀ a, (a < key ∨ key + 8 ≤ a) → byteFor u q .device a = byteFor s q .device a) ∧
        (lockLoc (opened (.acq c sa) c s) h = .ok key → reductionAt s (strandActor s k) key 8 = false → mayAsk s (askLock key) own.toNat = true → quantityFor s q .device (.glob key ⟨0, 0, 0, 0⟩) 8 ≠ 0 → Gives (.acq c sa) c s fun u =>
          lockQueue u key = lockQueue s key ++ [own] ∧ Waiting c s u (.lock key) ∧ SameHomes s u q) ∧
        (lockLoc (opened (.rel c sa) c s) h = .ok key → lockQueue s key = [] →
          quantityFor s q .device (.glob key ⟨0, 0, 0, 0⟩) 8 = (0x8000000000000000#64 ||| own).toNat → hasReduction s k = false → Gives (.rel c sa) c s fun u =>
            readLE u.mem key 8 = 0 ∧ Quiet c s u (me s) ∧ ∀ a, (a < key ∨ key + 8 ≤ a) → byteFor u q .device a = byteFor s q .device a)) ∧
      (hKind h = 2 → cl = clusterOf k → mayAsk s (askEvent cl n) k = true →
        (∀ e, getEv s cl n = e → e.q = [] → 0 < e.cnt →
          Gives (.evwait c d sa) c s (fun u => getEv u cl n = ⟨e.cnt - 1, e.val, []⟩ ∧ NoCopies u q (runs (.evwait c d sa)) ∧ SameHomes s u q ∧
            RegsAfter c { s with strands := mput s.strands k (x u) } u (fun r => if r = d ∧ r ≠ 0 then e.val else getS (me s) r)
              (getK (me s)) (getV (me s))) ∧
          Gives (.evwaitPk c d sa) c s (fun u => getEv u cl n = ⟨e.cnt, e.val, []⟩ ∧ NoCopies u q (runs (.evwaitPk c d sa)) ∧ SameHomes s u q ∧
            RegsAfter c { s with strands := mput s.strands k (x u) } u (fun r => if r = d ∧ r ≠ 0 then e.val else getS (me s) r)
              (getK (me s)) (getV (me s)))) ∧
        (∀ e, getEv s cl n = e → e.cnt = 0 →
          Gives (.evwait c d sa) c s (fun u => getEv u cl n = { e with q := e.q ++ [(k, false)] } ∧ Waiting c s u (.event cl n false) ∧ u.mem = s.mem) ∧
          Gives (.evwaitPk c d sa) c s (fun u => getEv u cl n = { e with q := e.q ++ [(k, true)] } ∧ Waiting c s u (.event cl n true) ∧ u.mem = s.mem))) ∧
      (hKind h = 2 → ∀ clr : Bool,
        let i := if clr then Instr.evsigClr c sa sb else Instr.evsig c sa sb
        let e := getEv s cl n
        let r := if clr then ([], 0, e.q) else serveQueue (min (e.cnt + 1) 65535) e.q
        k ∉ r.1 → r.1.Nodup → hasReduction s k = false → Gives i c s fun u =>
          getEv u cl n = ⟨r.2.1, getS (me s) sb, r.2.2⟩ ∧ NoDirty u q (runs i) ∧ SameHomes s u q ∧ OthersServed s u ∧
          (∀ j, j ≠ k → (getStrand u j).wait =
            if j ∈ r.1 then (getStrand s j).wait.map fun w => { w with served := some (getS (me s) sb) } else (getStrand s j).wait) ∧
          GoesOn c (me s) (me u) ∧ CounterUp c (me s) (me u) ∧ SameButRegisters (me s) (me u) ∧ ∀ r, getS (me u) r = getS (me s) r))) ∧
  (∀ (n : Nat) (w : List (Nat × Bool)),
    let r := serveQueue n w
    r.1 ++ r.2.2.map Prod.fst = w.map Prod.fst ∧ (r.2.2 = [] ∨ r.2.1 = 0 ∧ ∃ j q, r.2.2 = (j, false) :: q) ∧
    r.2.1 + ((w.take r.1.length).countP fun p => !p.2) = n) ∧
  (∀ (c : Common) (s : State) (sa d : SReg) (w : Wait) (v : Word) (cl n : Nat) (pk : Bool), Resumes s w → w.served = some v → AllHomes s →
    (w.what = .mutex cl n → Completes (.acq c sa) s fun u => Woken c s u ∧ SameHomes s u (coreOf s.cur) ∧ ∀ r, getS (me u) r = getS (me s) r) ∧
    (w.what = .event cl n pk →
      Completes (if pk then .evwaitPk c d sa else .evwait c d sa) s fun u => Woken c s u ∧ SameHomes s u (coreOf s.cur) ∧
        ∀ r, getS (me u) r = if r = d ∧ r ≠ 0 then v else getS (me s) r))

/-- R204, R205, R206, R207, R209: the counter barrier counts arrivals and its last one releases all; a rank of a barrier record that is through its rounds departs; SEND leaves its message
in the destination's mailbox and RECV takes the oldest, each with its predicate; time-outs clear that predicate; RDREM reads a register of another strand;
WAITSEQ waits for a ticket. The messages of one cycle reach a mailbox in ascending order of their senders (log 53). SEND and RDREM to a strand of another device wait for that
device's answer, and take trap 0x0E where no way leads there (log 18). A sender's own address has RDEV 0 (log 94). -/
def Obligations.BarriersAndMessages : Prop :=
  (∀ (c : Common) (s : State) (sc : Scope) (sa sb : SReg),
    let i := Instr.bar c sc sa sb
    let h := getS (me s) sa
    let count := (getS (me s) sb).toNat
    let k := s.cur
    let q := coreOf k
    let cl := hCluster h
    let n := hIdx h
    let b := getBarc s cl n
    let counted := sc = .core ∨ sc = .cluster
    k < 4096 → AllHomes s →
    (sc = .strand → Gives i c s (Quiet c s · (me s))) ∧
    (sc ≠ .strand → handleOk s (stCtx (me s)) h = false → (me s).vtabQ = [] → Gives i c s fun u => TrapEntered s u 0x13 h (me s).pc) ∧
    (counted → handleOk s (stCtx (me s)) h = true → hKind h = 6 → cl = clusterOf k → k ∉ b.released → k ∉ b.q →
      ((count = 0 ∨ 256 < count ∨ (b.n ≠ 0 ∧ b.n ≠ count)) → (me s).vtabQ = [] → Gives i c s fun u => TrapEntered s u 0x13 h (me s).pc) ∧
      (1 ≤ count → count ≤ 256 → (b.n = 0 ∨ b.n = count) → allLanded s k = true →
        (b.arr + 1 ≠ count → Gives i c s fun u =>
          getBarc u cl n = ⟨count, b.arr + 1, b.q ++ [k], b.released⟩ ∧ Waiting c s u (.barc cl n) ∧ SameHomes s u q ∧ (∀ j, j ≠ k → getStrand u j = getStrand s j)) ∧
        (b.arr + 1 = count → b.q.Nodup → Gives i c s fun u =>
          getBarc u cl n = ⟨0, 0, [], b.released ++ b.q.filter fun j => !waitsAtBarc s cl n j⟩ ∧
          SameHomes s u q ∧ GoesOn c (me s) (me u) ∧ CounterUp c (me s) (me u) ∧ (∀ r, getS (me u) r = getS (me s) r) ∧
          ∀ j, j ≠ k →
            (j ∉ b.q ∨ waitsAtBarc s cl n j = false → getStrand u j = getStrand s j) ∧
            (∀ w, j ∈ b.q → (getStrand s j).wait = some w → w.what = .barc cl n → getStrand u j = { getStrand s j with wait := some { w with served := some 0 } })))) ∧
    (counted → handleOk s (stCtx (me s)) h = true → hKind h = 6 → cl = clusterOf k → k ∈ b.released → Gives i c s fun u =>
      getBarc u cl n = { b with released := b.released.filter (· ≠ k) } ∧ GoesOn c (me s) (me u) ∧ CounterUp c (me s) (me u) ∧ SameHomes s u q ∧ ∀ r, getS (me u) r = getS (me s) r) ∧
    (counted → handleOk s (stCtx (me s)) h = true → hKind h = 6 → cl = clusterOf k → k ∉ b.released → k ∈ b.q → Gives i c s fun u =>
      getBarc u cl n = b ∧ Waiting c s u (.barc cl n)) ∧
    (¬ counted → sc ≠ .strand → handleOk s (stCtx (me s)) h = true → hKind h = 7 → allLanded s k = true → ∀ (r size flags : Nat) (t : State),
      let a := arriveBar sc h (opened i c s)
      homeWords a (strandActor a k) (hAddr h) 8 = .ok r → recordOk r = some (size, flags) → me a = me (opened i c s) →
      (size ≤ count → (me s).vtabQ = [] → Gives i c s fun u => TrapEntered s u 0x13 h (me s).pc) ∧
      (count < size → enterBarrier a (strandActor a k) (addrOfStrand s k).toNat flags size count = some (.through t) → Gives i c s fun u =>
        GoesOn c (me s) (me u) ∧ CounterUp c (me s) (me u) ∧ (∀ r, getS (me u) r = getS (me s) r) ∧ ∀ j, j ≠ k → getStrand u j = getStrand t j) ∧
      (count < size → enterBarrier a (strandActor a k) (addrOfStrand s k).toNat flags size count = some (.waits t) → Gives i c s fun u =>
        Waiting c s u (.brec count) ∧ u.mem = t.mem))) ∧
  (∀ n : Nat, 1 ≤ n → n ≤ 2 ^ roundsOf n ∧ ∀ r, n ≤ 2 ^ r → roundsOf n ≤ r) ∧
  (∀ (c : Common) (s : State) (w : Wait) (sc : Scope) (sa sb : SReg) (cl n : Nat) (v : Word), Resumes s w → w.what = .barc cl n → w.served = some v → AllHomes s →
    Completes (.bar c sc sa sb) s fun u => Woken c s u ∧ SameHomes s u (coreOf s.cur) ∧ ∀ r, getS (me u) r = getS (me s) r) ∧
  (∀ (c : Common) (s : State) (d : GReg) (sa : SReg) (sb : VReg) (tmo : BitVec 32) (t : Nat),
    let i := Instr.send c d sa sb tmo
    let a := getS (me s) sa
    let msg : Msg := ⟨getV (me s) sb, addrOfStrand s s.cur, timeOf s s.cur⟩
    (targetOf s a = .bad → (me s).vtabQ = [] → Gives i c s fun u => TrapEntered s u 0x13 a (me s).pc) ∧
    (targetOf s a = .here t → coreCtx s (coreOf t) ≠ some (stCtx (me s)) ∨ existsIn s t = false → (me s).vtabQ = [] →
      Gives i c s fun u => TrapEntered s u 7 a (me s).pc) ∧
    (targetOf s a = .closed → (me s).vtabQ = [] → Gives i c s fun u => TrapEntered s u 7 a (me s).pc) ∧
    (∀ dev, targetOf s a = .away dev → (deviceGone s dev = false → Gives i c s fun u => AskedAway c s dev u ∧ u.mem = s.mem) ∧
      (deviceGone s dev = true → (me s).vtabQ = [] → Gives i c s (NoWay s · a))) ∧
    (targetOf s a = .here t → coreCtx s (coreOf t) = some (stCtx (me s)) → existsIn s t = true → mayAsk s (askMail t) (addrOfStrand s s.cur).toNat = true →
      sendersTo s t = [] → (∀ e ∈ s.awaySends, e.target ≠ t) → (me s).frozen = none →
      ((getStrand s t).mail.length < 4 → Gives i c s fun u =>
        (getStrand u t).mail = (getStrand s t).mail ++ [msg] ∧ u.mem = s.mem ∧ GoesOn c (me s) (me u) ∧ CounterUp c (me s) (me u) ∧
        (∀ r, getG (me u) r = if r = d ∧ r ≠ 7 then true else getG (me s) r) ∧ (∀ r, getS (me u) r = getS (me s) r) ∧
        (∀ r, getV (me u) r = getV (me s) r) ∧
        ∀ j, j ≠ s.cur → { getStrand u j with mail := (getStrand s j).mail, wait := (getStrand s j).wait } = getStrand s j ∧
          (j ≠ t → getStrand u j = getStrand s j)) ∧
      (4 ≤ (getStrand s t).mail.length → Gives i c s fun u =>
        Waiting c s u (.mailbox t (getV (me s) sb)) ∧ u.mem = s.mem ∧ ∀ j, j ≠ s.cur → getStrand u j = getStrand s j))) ∧
  (∀ (c : Common) (s : State) (d : VReg) (a : GReg) (b : SReg) (tmo : BitVec 32),
    let i := Instr.recv c d a b tmo
    ((me s).mail = [] → Gives i c s fun u => Waiting c s u .message ∧ u.mem = s.mem ∧ ∀ j, j ≠ s.cur → getStrand u j = getStrand s j) ∧
    (∀ (e : Msg) (r : List Msg), (me s).mail = e :: r → sendersTo s s.cur = [] → (∀ e ∈ s.awaySends, e.target ≠ s.cur) → Gives i c s fun u =>
      Result c { s with strands := mput s.strands s.cur { me s with mail := r, floor := max (me s).floor (e.time + 1) } } u
        (fun q => if q = b ∧ q ≠ 0 then e.sender else getS (me s) q) (fun q => if q = a ∧ q ≠ 7 then true else getG (me s) q)
        (getK (me s)) (fun q => if q = d then e.payload else getV (me s) q))) ∧
  (∀ (c : Common) (s : State) (k : Nat) (w : Wait) (p : GReg),
    let x := getStrand s k
    let ended := fun u : State => GoesOn c x (getStrand u k) ∧ (getStrand u k).wait = none ∧ (∀ r, getG (getStrand u k) r = if r = p ∧ r ≠ 7 then false else getG x r) ∧
      (∀ r, getS (getStrand u k) r = getS x r) ∧ (∀ j, j ≠ k → getStrand u j = getStrand s j) ∧ { u with strands := s.strands } = s
    x.wait = some w → timedOut s k w = true → (∀ dev, w.what ≠ .away dev) → w.served = none →
    (∀ sa sb tmo, w.i = .send c p sa sb tmo → (∃ e v, w.what = .mailbox e v) → Completes (.sendTimeout k) s ended) ∧
    (∀ d b tmo, w.i = .recv c d p b tmo → Completes (.recvTimeout k) s ended) ∧
    (∀ d sa ofs tmo, w.i = .rdrem c d sa p ofs tmo → w.what = .remote → Completes (.rdremTimeout k) s ended)) ∧
  (∀ (c : Common) (s : State) (d sa : SReg) (p : GReg) (ofs : BitVec 12) (tmo : BitVec 16) (t : Nat),
    let i := Instr.rdrem c d sa p ofs tmo
    let a := getS (me s) sa
    let m := opened i c s
    let dm := (getCluster s (clusterOf t)).dm
    let answered := fun v => Gives i c s fun u => RegsAfter c { s with strands := mput s.strands s.cur { me s with g := (me u).g } } u
      (fun r => if r = d ∧ r ≠ 0 then v else getS (me s) r) (getK (me s)) (getV (me s)) ∧
      (∀ r, getG (me u) r = if r = p ∧ r ≠ 7 then true else getG (me s) r) ∧ u.mem = s.mem
    (targetOf s a = .bad → (me s).vtabQ = [] → Gives i c s fun u => TrapEntered s u 0x13 a (me s).pc) ∧
    (targetOf s a = .closed → (me s).vtabQ = [] → Gives i c s fun u => TrapEntered s u 7 a (me s).pc) ∧
    (∀ dev, targetOf s a = .away dev → (deviceGone s dev = false → Gives i c s fun u => AskedAway c s dev u ∧ u.mem = s.mem) ∧
      (deviceGone s dev = true → (me s).vtabQ = [] → Gives i c s (NoWay s · a))) ∧
    (targetOf s a = .here t → (me s).frozen = none →
    (coreCtx s (coreOf t) ≠ some (stCtx (me s)) → (me s).vtabQ = [] → Gives i c s fun u => TrapEntered s u 7 a (me s).pc) ∧
    (coreCtx s (coreOf t) = some (stCtx (me s)) → existsIn s t = false → answered 0) ∧
    (coreCtx s (coreOf t) = some (stCtx (me s)) → existsIn s t = true → (dm.halted = false ∨ dm.stepping = some t) → (getStrand s t).run ≠ .saved →
      poolLoc m (coreOf t) (0x1000 * strandNo t + ofs.toNat) 8 none = .ok (.pool (coreOf t) (0x1000 * strandNo t + ofs.toNat)) →
      answered (BitVec.ofNat 64 (poolRead m (coreOf t) (0x1000 * strandNo t + ofs.toNat) 8))))) ∧
  (∀ (c : Common) (s : State) (e : Engine) (sa : SReg),
    let i := Instr.waitseq c e sa
    let t := (getS (me s) sa).toNat
    let n := match e with | .copy => (me s).copyN | .topk => (me s).topkN | .tab => (me s).tabN
    (n.iss < t → (me s).vtabQ = [] → Gives i c s fun u => TrapEntered s u 0x13 (getS (me s) sa) (me s).pc) ∧
    (t ≤ n.iss → t ≤ n.cmp → Gives i c s fun u =>
      QuietIn (myCore s).dcache.length c s u { me s with floor := if t = 0 then (me s).floor else max (me s).floor (n.time + 1) } ∧
      (Roomy s (clusterOf s.cur) (myCore s).dcache.length → u.mem = s.mem) ∧ ∀ a, coreLine u (coreOf s.cur) a = none) ∧
    (t ≤ n.iss → n.cmp < t → Gives i c s fun u => Waiting c s u .ticket ∧ u.mem = s.mem ∧ ∀ j, j ≠ s.cur → getStrand u j = getStrand s j))

namespace Sys2Proof.Claims

/-- What lies at a spot where every party meets it: in a pool, or at its home. -/
def homeSpot (s : State) : Spot → Byte
  | .pool c off => byteAt (getCore s c).pool off
  | .glob a => byteAt s.mem a

/-- The store of one element of a destination. -/
def elementStore (s : State) (a : Actor) (r : BitVec 512) (ix : List Nat) (v : Nat) : Stores :=
  if tsrTy r = .bit then
    let n := addrPlus (8 * tsrMptr r) (dotIdx r 4 ix)
    match locate s a (tsrMas r) (n / 8) 1 1 .write with
    | .ok l => [(l, 1, setBits (loadLoc s a l 1).1 (n % 8) 1 v)]
    | _ => []
  else
    match locate s a (tsrMas r) (elemAddr r ix) (elemBytes (tsrTy r)) (elemBytes (tsrTy r)) .write with
    | .ok l => [(l, elemBytes (tsrTy r), v)]
    | _ => []

/-- The stores of the elements of a chunk; an element that cannot be written is passed over. -/
def moveStores (a : Actor) (r : BitVec 512) : List (List Nat) → List (Except Nat Nat) → State → Stores
  | ix :: is, .ok v :: vs, s =>
    match putElem s a r ix v with
    | .ok t => elementStore s a r ix v ++ moveStores a r is vs t
    | .fault c t => moveStores a r is vs (noteError s c t a)
    | .wait _ => []
  | _ :: is, .error _ :: vs, s => moveStores a r is vs s
  | _, _, _ => []

/-- The stores of the groups of a chunk. -/
def groupMoves (q : CopyCmd) (a : Actor) (r : BitVec 512) : List (List Nat) → List (Except Nat (List Val)) → State → Stores
  | gx :: is, .ok vs :: l, s =>
    let g := groupOf r gx (lget 0 gx (tsrBax r))
    match checkGroup s a r g with
    | .ok _ =>
        let f := formGroup q.nanm (tsrMw r) (padGroup vs)
        groupStores s a r g f.g ++
          match writeGroup s a r g f.g with
          | .ok t => groupMoves q a r is l t
          | _ => []
    | .fault c t => groupMoves q a r is l (noteError s c t a)
    | .wait _ => []
  | _ :: is, .error _ :: l, s => groupMoves q a r is l s
  | _, _, _ => []

/-- The stores of a chunk of a command: a READ's bytes come from the remote end, where its queue pair exists and its port is up; a WRITE and a prefetch store nothing. -/
def chunkStores (s : State) (cl : Nat) (q : CopyCmd) : Stores :=
  let a := cmdActor cl q
  let n := min (chunkUnits q) (cmdUnits q - q.done)
  let ixs := (upFrom q.done n).map (idxOf (unitSizes (cmdShape q)))
  match q.kind with
  | .pref | .rwrite => []
  | .move =>
      if (tsrTy q.dst).isBlock then groupMoves q a q.dst ixs (readGroups a q.src q.dst ixs s).1 (readGroups a q.src q.dst ixs s).2
      else moveStores a q.dst ixs (readMoves a q.src q.dst ixs s).1 (readMoves a q.src q.dst ixs s).2
  | .fill => moveStores a q.dst ixs (ixs.map fun _ => .ok ((q.ccr.toNat / 2 ^ 192 % 2 ^ 64) % 2 ^ (tsrTy q.dst).width)) s
  | .rread =>
      if portState s (q.ccr.toNat / 2 ^ 328 % 4) ≠ 2 ∨ mhas s.qps (q.ccr.toNat / 2 ^ 336 % 2 ^ 24) = false ∨ Config.remoteRefuses s.tick = true then []
      else
        let r := remoteBytes { s with tick := s.tick + 1 } n
        moveStores a q.dst ixs r.1 r.2

/-- The stores of aligned words. -/
def wordStores (s : State) (a : Actor) (as : Space) (ea : Nat) : Nat → Nat → Stores
  | 0, _ => []
  | n + 1, v =>
    match locate s a as ea 8 8 .write with
    | .ok l => (l, 8, v % 2 ^ 64) :: wordStores (storeLoc s a l 8 (v % 2 ^ 64)) a as (ea + 8) n (v / 2 ^ 64)
    | _ => []

/-- The stores of a drain, entry by entry from place `i` on. -/
def entryStores (a : Actor) (q : Drain) : Nat → Nat → State → Stores
  | 0, _, _ => []
  | n + 1, i, s =>
    match locate s a q.as (q.addr.toNat + 8 * i) 8 8 .write with
    | .ok l => (l, 8, entryWord q.entries i) :: entryStores a q n (i + 1) (storeLoc s a l 8 (entryWord q.entries i))
    | .fault c t => entryStores a q n (i + 1) (noteError s c t a)
    | .wait _ => entryStores a q n (i + 1) s

/-- No line has left the L2 slice of a cluster: lines only come into it, and it is not full (log 9). -/
def NoEviction (u : State) (cl : Nat) : Prop := (getCluster u cl).l2.length < 131072

/-- An instruction that takes a ticket has completed: DST holds the ticket and no other register is written. An interrupt line becomes pending only where the L2 slice has no room for
`room` lines. -/
structure Ticketed (room : Nat) (c : Common) (s u : State) (d : SReg) (n : Nat) : Prop where
  scalar : ∀ r, getS (me u) r = if r = d ∧ r ≠ 0 then BitVec.ofNat 64 n else getS (me s) r
  guards : ∀ r, getG (me u) r = getG (me s) r
  masks : ∀ r, getK (me u) r = getK (me s) r
  vectors : ∀ r, getV (me u) r = getV (me s) r
  goes : GoesOn c (me s) (me u)
  strands : ∀ k, k ≠ s.cur → SameButLines (getStrand s k) (getStrand u k)
  lines : Roomy s (clusterOf s.cur) room → ∀ k, (getStrand u k).irq = (getStrand s k).irq

/-- The entries of a stream stand in order: no later one stands before an earlier one. -/
def InOrder (fn : TopkFn) (l : List (BitVec 32 × BitVec 32)) : Prop := l.Pairwise fun x y => entryBefore fn y x = false

end Sys2Proof.Claims

/-- R208, R210, R211: COPY takes a ticket and hands the engine the command that its record describes; the engine performs a command chunk by chunk, storing exactly the elements or
groups of the chunk that can be read and written; a finished command writes its status block and completes its ticket; tickets complete in
order of issue, a ticket at a time not below its COPYDONE record's. A copy without conversion is log 40, the wait of the instruction for merged atomics and for stores bound for a port
log 41, the counts of a status block log 42, the order of registrations in one cycle log 53; that an RDMA READ stores nothing on a port that is not literally UP is log 47, and what its
remote end sends or refuses log 24; what is said of bytes holds where the L2 slice gives up no line (log 9). -/
def Obligations.CopyEngine : Prop :=
  (∀ (c : Common) (s : State) (d sa : SReg) (as : Space) (p : CcrRead × State),
    let i := Instr.copy c d sa as
    let m := opened i c s
    let n := (me s).copyN.iss + 1
    let cl := clusterOf s.cur
    let room := 64 + (myCore s).dcache.length
    let r := takeTicket (handOff p.2 s.cur) d
    let waits := registerWaits r.2 cl (newCommand r.2 (kindOfOp (p.1.ccr.toNat / 2 ^ 60 % 16)) r.1 p.1.ccr p.1.src p.1.dst 0 0)
    (handReady s s.cur = false → Ready i c s → exec i s = .next s) ∧
    (handReady s s.cur = true → readCcr m (strandActor m s.cur) as (getS (me s) sa).toNat = .ok p → waits = true → Ready i c s → exec i s = .next s) ∧
    (p.1.ccr.getLsbD 185 = false → waits = false) ∧
    (handReady s s.cur = true → readCcr m (strandActor m s.cur) as (getS (me s) sa).toNat = .ok p → waits = false →
      (p.1.ccr.getLsbD 185 = true → AllHomes s) → Gives i c s fun u =>
      Ticketed room c s u d n ∧ (me u).copyN = { (me s).copyN with iss := n } ∧ (∀ j, getD (me u) j = getD (me s) j) ∧
      ∃ q, (getCluster u cl).copies = (getCluster s cl).copies ++ [q] ∧ q.kind = kindOfOp (p.1.ccr.toNat / 2 ^ 60 % 16) ∧ q.strand = some s.cur ∧
        q.ticket = n ∧ q.ccr = p.1.ccr ∧ q.src = p.1.src ∧ q.dst = p.1.dst ∧ q.ctx = stCtx (me s) ∧ q.nanm = stNanm (me s) ∧ q.done = 0 ∧
        (p.1.ccr.getLsbD 185 = false → q.registered = false ∧ u.joins = s.joins ∧ (Roomy s cl room → u.mem = s.mem))) ∧
    (∀ cause tv, handReady s s.cur = true → readCcr m (strandActor m s.cur) as (getS (me s) sa).toNat = .fault cause tv →
      cause ≠ 5 → cause ≠ 6 → cause ≠ 0xE → (me s).vtabQ = [] →
      Gives i c s fun u => TrapEntered s u (BitVec.ofNat 64 cause) (BitVec.ofNat 64 tv) (me s).pc)) ∧
  (∀ (s : State) (cl idx : Nat) (q : CopyCmd) (r : CopyCmd × State),
    (getCluster s cl).copies[idx]? = some q → cmdReady s cl idx q = true → copyTurn s cl = some q.ctx → (getCluster s cl).failed = false →
    (getCluster s cl).dm.halted = false → cmdPaused s q = false → cmdChunk s cl q = r → (∀ w ∈ chunkStores s cl q, plainLoc w.1 w.2.1) →
    Completes (.copyChunk cl idx) s fun u =>
      (getCluster u cl).copies = (getCluster s cl).copies.set idx r.1 ∧ (getCluster u cl).cpyLast = q.ctx ∧
      q.done ≤ r.1.done ∧ r.1.done ≤ cmdUnits q ∧ { r.1 with
        done := q.done, nflt := q.nflt, faddr := q.faddr, sat := q.sat, xerr := q.xerr, count := q.count, nan := q.nan } = q ∧
      (NoEviction u (clusterOfCore (cmdActor cl q).core) → ∀ sp, homeSpot u sp = afterStores (chunkStores s cl q) sp (homeSpot s sp)) ∧ ∀ k, SameRegs (getStrand s k) (getStrand u k)) ∧
  (∀ (s : State) (cl idx k : Nat) (q : CopyCmd),
    let m := modCluster s cl fun y => { y with copies := y.copies.eraseIdx idx }
    let f := closeCounts q
    let ptr := q.ccr.toNat / 2 ^ 256 % 2 ^ 57
    let as := ccrSpace q.ccr 320
    let now := max (dieTime s (dieOf cl)) q.floor
    let time := if (trcOf q.desc = 1 ∨ trcOf q.desc = 2) ∧ ringTakes s q.tenant 0x30 = true then max now (mget 0 s.srcStamp (srcCopy cl)) else now
    (getCluster s cl).copies[idx]? = some q → cmdOver q = true → (getCluster s cl).dm.halted = false → statusWait s cl q = none → q.task = none → q.strand = some k → q.registered = false →
    Completes (.copyComplete cl idx) s fun u =>
      (getCluster u cl).copies = (getCluster s cl).copies.eraseIdx idx ∧
      (getStrand u k).copyN = completeTicket (getStrand s k).copyN q.ticket time ∧
      (∀ j, SameRegs (getStrand s j) (getStrand u j)) ∧
      (q.kind = .pref ∨ ptr = 0 → ∀ sp, homeSpot u sp = homeSpot s sp) ∧
      (∀ w, q.kind ≠ .pref → ptr ≠ 0 → storeWords m (cmdActor cl f) as ptr 2 (statusBlock f) = .ok w →
        let stores := wordStores m (cmdActor cl f) as ptr 2 (statusBlock f)
        (∀ w ∈ stores, plainLoc w.1 w.2.1) → NoEviction u (clusterOfCore (cmdActor cl q).core) → ∀ sp, homeSpot u sp = afterStores stores sp (homeSpot s sp))) ∧
  (∀ (s : State) (cl idx : Nat) (q : CopyCmd), (getCluster s cl).copies[idx]? = some q → cmdOver q = false ∨ (getCluster s cl).dm.halted = true →
    exec (.copyComplete cl idx) s = .next s) ∧
  (∀ (e : EngCount) (t n : Nat),
    let r := completeTicket e t n
    e.cmp ≤ r.cmp ∧ (∀ x, e.cmp < x → x ≤ r.cmp → x ∈ e.early ++ [t]) ∧ r.cmp + 1 ∉ r.early ∧ (∀ x, r.cmp < x → (x ∈ r.early ↔ x ∈ e.early ++ [t])) ∧
    r.iss = e.iss)

/-- R212, R213, R159: TKOPEN opens the lowest free stream, or answers all ones; TKPUSH keeps the best k entries in order; TKDRAIN takes a ticket, and its completion stores k entries
and frees the stream where it closes it; TABLD takes a ticket for a table image whose header is well formed, and its completion replaces the
table whole. The wait of TKDRAIN and TABLD for merged atomics and for stores bound for a port is log 41, the faults of TKDRAIN and TABLD and entries that fail late log 45, that a push is applied at issue log 46, and the order of +0 and -0 log 82; what is said of bytes holds where the L2 slice gives up no line (log 9). -/
def Obligations.TopkAndTables : Prop :=
  (∀ (c : Common) (s : State) (fn : TopkFn) (d sa : SReg),
    let i := Instr.tkopen c fn d sa
    let k := (getS (me s) sa).toNat
    let streams := (getCluster s (clusterOf s.cur)).streams
    (k = 0 ∨ 256 < k → (me s).vtabQ = [] → Gives i c s fun u => TrapEntered s u 0x13 (getS (me s) sa) (me s).pc) ∧
    (1 ≤ k → k ≤ 256 → (∀ n, n < 16 → mhas streams n = true) → Gives i c s (ResultS c s d (BitVec.allOnes 64))) ∧
    (∀ n, 1 ≤ k → k ≤ 256 → n < 16 → mhas streams n = false → (∀ j, j < n → mhas streams j = true) → Gives i c s fun u =>
      Ticketed 0 c s u d n ∧ CounterUp c (me s) (me u) ∧ u.mem = s.mem ∧
      mget ⟨0, fn, 0, []⟩ (getCluster u (clusterOf s.cur)).streams n = ⟨s.cur, fn, k, []⟩)) ∧
  (∀ (c : Common) (s : State) (sa sb : VReg) (km : KReg) (sc : SReg),
    let i := Instr.tkpush c sa sb km sc
    let n := getS (me s) sc
    let lane32 := fun (v : VReg) j => (getV (me s) v).extractLsb' (32 * j) 32
    (heldStream s s.cur n = none → (me s).vtabQ = [] → Gives i c s fun u => TrapEntered s u 0x13 n (me s).pc) ∧
    (∀ st, heldStream s s.cur n = some st → Gives i c s fun u => Quiet c s u (me s) ∧ u.mem = s.mem ∧
      mget st (getCluster u (clusterOf s.cur)).streams n.toNat =
        ((List.range 16).filter fun j => (getK (me s) km).getLsbD j).foldl (fun st j => pushEntry st (lane32 sa j) (lane32 sb j)) st)) ∧
  (∀ (st : Stream) (key score : BitVec 32), InOrder st.fn st.entries →
    (∀ e ∈ st.entries, scoreNan st.fn e.2 = false) → st.entries.length ≤ st.k →
    let r := pushEntry st key score
    let drop := key = BitVec.allOnes 32 ∨ ((st.fn = .fd ∨ st.fn = .fa) ∧ isNan fmtF32 score.toNat = true)
    (drop → r = st) ∧ InOrder r.fn r.entries ∧ r.fn = st.fn ∧ r.k = st.k ∧ r.owner = st.owner ∧
    (¬ drop → r.entries.length = min st.k (st.entries.length + 1) ∧ (∀ e ∈ r.entries, e = (key, score) ∨ e ∈ st.entries) ∧
      ∀ e, (e = (key, score) ∨ e ∈ st.entries) → e ∉ r.entries → ∀ x ∈ r.entries, entryBefore st.fn e x = false)) ∧
  (∀ (c : Common) (s : State) (close : Bool) (d sa sb : SReg) (as : Space) (st : Stream),
    let i := if close then Instr.tkdrainCl c d sa sb as else Instr.tkdrain c d sa sb as
    let m := opened i c s
    let n := (me s).topkN.iss + 1
    let sn := getS (me s) sb
    let checked := checkWords m (engineActor (coreOf s.cur) (stCtx (me s)) (myCore s).desc) as (getS (me s) sa).toNat 8 .write st.k
    (heldStream s s.cur sn = none → (me s).vtabQ = [] → Gives i c s fun u => TrapEntered s u 0x13 sn (me s).pc) ∧
    (∀ st, heldStream s s.cur sn = some st → handReady s s.cur = false → Gives i c s fun u => u = s) ∧
    (heldStream s s.cur sn = some st → handReady s s.cur = true → checked = .ok () → Gives i c s fun u =>
      Ticketed (myCore s).dcache.length c s u d n ∧ CounterUp c (me s) (me u) ∧ (me u).topkN = { (me s).topkN with iss := n } ∧
      (Roomy s (clusterOf s.cur) (myCore s).dcache.length → u.mem = s.mem) ∧
      ∃ q, (getCluster u (clusterOf s.cur)).drains = (getCluster s (clusterOf s.cur)).drains ++ [q] ∧ q.strand = s.cur ∧ q.ticket = n ∧
        q.addr = getS (me s) sa ∧ q.as = as ∧ q.k = st.k ∧ q.entries = st.entries ∧ q.frees = if close then some sn.toNat else none) ∧
    (∀ cause tv, heldStream s s.cur sn = some st → handReady s s.cur = true → checked = .fault cause tv →
      cause ≠ 5 → cause ≠ 6 → cause ≠ 0xE → (me s).vtabQ = [] →
      Gives i c s fun u => TrapEntered s u (BitVec.ofNat 64 cause) (BitVec.ofNat 64 tv) (me s).pc)) ∧
  (∀ (s : State) (cl idx : Nat) (q : Drain),
    let a := engineActor (coreOf q.strand) q.ctx q.desc
    let stores := entryStores a q q.k 0 s
    (getCluster s cl).drains[idx]? = some q → topkTurn s cl = some q.ctx → (getCluster s cl).failed = false →
    engineWait s a q.as 8 ((List.range q.k).map fun i => q.addr.toNat + 8 * i) = none → (∀ w ∈ stores, plainLoc w.1 w.2.1) →
    Completes (.topkDrainComplete cl idx) s fun u =>
      (NoEviction u (clusterOfCore (coreOf q.strand)) → ∀ sp, homeSpot u sp = afterStores stores sp (homeSpot s sp)) ∧ (getCluster u cl).drains.map (fun p => { p with frees := none }) = ((getCluster s cl).drains.eraseIdx idx).map (fun p => { p with frees := none }) ∧
      (q.frees = none → (getCluster u cl).drains = (getCluster s cl).drains.eraseIdx idx) ∧
      (getStrand u q.strand).topkN = completeTicket (getStrand s q.strand).topkN q.ticket (max (dieTime s (dieOf cl)) q.floor) ∧
      (∀ n st, q.frees = some n → mget st (getCluster u cl).streams n ≠ st → (mget st (getCluster u cl).streams n).owner ≠ q.strand) ∧
      (q.frees = none → (getCluster u cl).streams = (getCluster s cl).streams) ∧ ∀ j, SameRegs (getStrand s j) (getStrand u j)) ∧
  (∀ (q : Drain) (i : Nat), entryWord q.entries i = match q.entries[i]? with
    | some (key, score) => key.toNat + 2 ^ 32 * score.toNat
    | none => 0xFFFFFFFF) ∧
  (∀ (c : Common) (s : State) (d sa : SReg) (as : Space) (tb : BitVec 2) (h : Nat) (w : State),
    let i := Instr.tabld c d sa as tb
    let m := opened i c s
    let ea := (getS (me s) sa).toNat
    let a := engineActor (coreOf s.cur) (stCtx (me s)) (myCore s).desc
    let n := (me s).tabN.iss + 1
    (ea % 16 ≠ 0 → (me s).vtabQ = [] → Gives i c s fun u => TrapEntered s u 9 (getS (me s) sa) (me s).pc) ∧
    (ea % 16 = 0 → handReady s s.cur = false → Gives i c s fun u => u = s) ∧
    (ea % 16 = 0 → handReady s s.cur = true → loadWords (handOff m s.cur) a as ea 2 = .ok (h, w) →
      ((h % 512 > 257 ∨ h / 512 % 2 ^ 119 ≠ 0) → (me s).vtabQ = [] → Gives i c s fun u => TrapEntered s u 9 (getS (me s) sa) (me s).pc) ∧
      (h % 512 ≤ 257 → h / 512 % 2 ^ 119 = 0 → (checkWords w a as (ea + 16) 4 .read (3 * (h % 512)) = .ok () ∨ ∃ tv, checkWords w a as (ea + 16) 4 .read (3 * (h % 512)) = .fault 0xE tv) → Gives i c s fun u =>
        Ticketed (64 + (myCore s).dcache.length) c s u d n ∧ CounterUp c (me s) (me u) ∧ (me u).tabN = { (me s).tabN with iss := n } ∧
        (Roomy s (clusterOf s.cur) (64 + (myCore s).dcache.length) → u.mem = s.mem) ∧ (myCore u).tables = (myCore s).tables ∧
        ∃ q, (myCore u).tabLoads = (myCore s).tabLoads ++ [q] ∧ q.strand = s.cur ∧ q.ticket = n ∧ q.tb = tb ∧ q.as = as ∧ q.addr = getS (me s) sa ∧
          q.c = h % 512))) ∧
  (∀ (s : State) (core : Nat) (uncorrected : Bool) (q : TabLoad) (r : Acc (List TabEntry × State)),
    (getCore s core).tabLoads.find? (loadMay s core) = some q →
    readTable s (engineActor core q.ctx (getCore s core).desc) q.as (q.addr.toNat + 16) q.c = r →
    (∀ b, r = .wait b → exec (.tableLoadComplete core uncorrected) s = .next (wakeBank s b)) ∧
    ((∀ b, r ≠ .wait b) → Completes (.tableLoadComplete core uncorrected) s fun u =>
      (∀ n, mget [] (getCore u core).tables n = if n = q.tb.toNat then
        (match r with
          | .ok (l, _) => if uncorrected then [] else l
          | _ => [])
        else mget [] (getCore s core).tables n) ∧
      (getCore u core).tabLoads = (getCore s core).tabLoads.filter (· ≠ q) ∧
      (getStrand u q.strand).tabN = completeTicket (getStrand s q.strand).tabN q.ticket (max (dieTime s (dieOf (clusterOfCore core))) q.floor) ∧
      (NoEviction u (clusterOfCore core) → u.mem = s.mem) ∧ ∀ j, SameRegs (getStrand s j) (getStrand u j)))

/-- R275, R276, R278, R279, R281, R214 to R217, R115: TSPAWN takes a checked TCB, READY at once where its count is 0; TDEP adds to the count; TDONE and TDONE.R retire the current task, and TDONE
waits for another while the unit holds any; the unit deals its head task to its head waiter, who starts at its entry; TCARD deals the next chunk of a batch
card; END stops its strand. The unit that takes a copy task leaves its slice no copy of what the task's handle binds (R260). TSPAWN, TDEP and TDONE do not issue until every earlier
access of the strand has landed, merged atomics too (R275 speaks of stores; log 41), and END does not until its results, table requests and merged atomics have (log 56). The pool that
a copy task's record names is log 44, a TCB that is misaligned log 50, and the order of requests of one cycle log 53. -/
def Obligations.Tasks : Prop :=
  (∀ (c : Common) (s : State) (sa : SReg) (key : Nat),
    let i := Instr.tspawn c sa
    let m := opened i c s
    let k := s.cur
    let cl := clusterOf k
    let tcb := (getS (me s) sa).toNat
    let p := pushTcb m k tcb
    let held := (getCluster s cl).tasks
    unitDefers s (srcTask cl) (stCtx (me s)) = false → AllHomes s →
    (4096 ≤ held.length → Ready i c s → Completes i s fun u => (∃ w, (me u).wait = some w ∧ w.what = .spawn) ∧
      (∀ j, getD (me u) j = getD (me s) j) ∧ (me u).pc = (me s).pc ∧ (∀ r, getS (me u) r = getS (me s) r) ∧ u.mem = s.mem ∧
      (getCluster u cl).tasks = held) ∧
    (held.length < 4096 → allLanded s k = false → Gives i c s fun u => u = s) ∧
    (held.length < 4096 → allLanded s k = true → checkTcb p (strandActor p k) tcb = .ok key → heldIn s cl key = none → Gives i c s fun u =>
      let t : TaskEnt := { spawnEntry p k tcb key with ready := if tcbPred p key = 0 then some s.cycle else none }
      (getCluster u cl).tasks = held ++ [t] ∧ tcbState u key = (if tcbPred p key = 0 then 2 else 1) ∧ tcbDealt u key = 0 ∧ tcbNhold u key = 0 ∧
      tcbPred u key = tcbPred p key ∧ Quiet c s u (me s)) ∧
    (∀ cause tv, held.length < 4096 → allLanded s k = true → checkTcb p (strandActor p k) tcb = .fault cause tv →
      cause ≠ 5 → cause ≠ 6 → cause ≠ 0xE → (me s).vtabQ = [] →
      Gives i c s fun u => TrapEntered s u (BitVec.ofNat 64 cause) (BitVec.ofNat 64 tv) (me s).pc)) ∧
  (∀ (c : Common) (s : State) (sa : SReg) (imm : BitVec 17) (key : Nat),
    let i := Instr.tdep c sa imm
    let m := opened i c s
    let tcb := (getS (me s) sa).toNat
    let w := pushRuns (releaseBy m s.cur (memHandle 4 tcb)) (coreOf s.cur) [(key, 64)]
    let n := max (-32768) (min 32767 (tcbPred w key + imm.toInt))
    (tcb % 64 ≠ 0 → (me s).vtabQ = [] → Gives i c s fun u => TrapEntered s u 9 (getS (me s) sa) (me s).pc) ∧
    (tcb % 64 = 0 → allLanded s s.cur = false → Gives i c s fun u => u = s) ∧
    (tcb % 64 = 0 → allLanded s s.cur = true → homeLoc m (strandActor m s.cur) tcb 64 .atomic = .ok key → AllHomes s →
    (0 ≤ n → Gives i c s fun u => tcbPred u key = n ∧ Quiet c s u (me s) ∧
      ∀ a, (a < key ∨ key + 64 ≤ a) → byteAt u.mem a = byteAt w.mem a) ∧
    (n < 0 → (me s).vtabQ = [] → Gives i c s fun u => tcbPred u key = n ∧ (me u).cause = 0xA ∧ (me u).tval = getS (me s) sa ∧ (me u).epc = after c s ∧
      ∀ a, (a < key ∨ key + 64 ≤ a) → byteAt u.mem a = byteAt w.mem a))) ∧
  (∀ (c : Common) (s w : State) (r : Option Nat) (stays : Bool),
    let i := if stays then Instr.tdone c else Instr.tdoneR c
    let cl := clusterOf s.cur
    let unit := askTask cl (stCtx (me s))
    let m := if stays then noteAsk (opened i c s) unit s.cur else opened i c s
    (unitDefers s (srcTask cl) (stCtx (me s)) = true ∨ allLanded s s.cur = false ∨ stays = true ∧ mayAsk s unit s.cur = false → Gives i c s fun u => u = s) ∧
    (unitDefers s (srcTask cl) (stCtx (me s)) = false → allLanded s s.cur = true → (stays = true → mayAsk s unit s.cur = true) → AllHomes s → endTask m s.cur true = (r, w) →
    ((me w).task = none ∧ (∀ q, getS (me w) q = getS (me s) q) ∧ (me w).pc = (me s).pc ∧
      ((me s).task = none → w = m ∧ r = none) ∧
      (∀ t e, (me s).task = some t → t.card = false → heldIn s cl t.key = some e → heldIn w cl t.key = none ∧ tcbState w t.key = 4)) ∧
    (r = none → stays = true → holdsTasks w cl (stCtx (me s)) = true → Gives i c s fun u => Waiting c s u .task ∧ u.mem = w.mem ∧ (me u).task = none) ∧
    (r = none → stays = false ∨ holdsTasks w cl (stCtx (me s)) = false → Gives i c s fun u =>
      GoesOn c (me s) (me u) ∧ CounterUp c (me s) (me u) ∧ (∀ q, getS (me u) q = getS (me s) q) ∧ (me u).task = none ∧ u.mem = w.mem ∧
      ∀ j, j ≠ s.cur → getStrand u j = getStrand w j) ∧
    (∀ t, r = some t → (me s).vtabQ = [] → Gives i c s fun u => (me u).cause = 0xA ∧ (me u).tval = BitVec.ofNat 64 t ∧
      (me u).epc = (if stays then (me s).pc else after c s) ∧ u.mem = w.mem))) ∧
  (∀ (c : Common) (s : State) (d : GReg),
    let i := Instr.tcard c d
    let cl := clusterOf s.cur
    unitDefers s (srcTask cl) (stCtx (me s)) = false →
    (((me s).task = none ∨ ∃ t, (me s).task = some t ∧ (t.card = false ∨ heldIn s cl t.key = none)) →
      Gives i c s (ResultG c s fun r => if r = d ∧ r ≠ 7 then false else getG (me s) r)) ∧
    (∀ t e, (me s).task = some t → t.card = true → heldIn s cl t.key = some e → mayAsk s (askCard t.key) s.cur = false → Gives i c s fun u => u = s) ∧
    (∀ t e, (me s).task = some t → t.card = true → heldIn s cl t.key = some e → mayAsk s (askCard t.key) s.cur = true → tcbDealt s t.key = tcbNrec s t.key →
      Gives i c s fun u => ResultG c s (fun r => if r = d ∧ r ≠ 7 then false else getG (me s) r) { u with lastAsk := s.lastAsk }) ∧
    (∀ t e, (me s).task = some t → t.card = true → heldIn s cl t.key = some e → tcbDealt s t.key ≠ tcbNrec s t.key → mayAsk s (askCard t.key) s.cur = true → AllHomes s →
      let left := tcbNrec s t.key - tcbDealt s t.key
      let share := 2 * tcbNhold s t.key
      let n := min (max (tcbField s t.key 288 16) ((left + share - 1) / share)) left
      tcbDealt s t.key + n < 2 ^ 32 →
      Gives i c s fun u =>
        tcbDealt u t.key = tcbDealt s t.key + n ∧ CounterUp c (me s) (me u) ∧ GoesOn c (me s) (me u) ∧
        (∀ r, getS (me u) r = if r = 5 then BitVec.ofNat 64 n
          else if r = 3 then BitVec.ofNat 64 (tcbField s t.key 64 57 + tcbDealt s t.key * tcbField s t.key 304 16) else getS (me s) r) ∧
        (∀ r, getG (me u) r = if r = d ∧ r ≠ 7 then true else getG (me s) r) ∧ (∀ r, getV (me u) r = getV (me s) r) ∧
        (∀ a, (a < t.key ∨ t.key + 64 ≤ a) → byteAt u.mem a = byteAt s.mem a) ∧ ∀ j, j ≠ s.cur → getStrand u j = getStrand s j)) ∧
  (∀ (s : State) (cl x k : Nat) (ks : List Nat) (t : TaskEnt) (w : Wait) (c : Common),
    let waiters := waitersFor s fun k w => w.what == .task && clusterOf k == cl && stCtx (getStrand s k) == x
    (unitDefers s (srcTask cl) x = true → exec (.taskDeal cl x) s = .next s) ∧
    (unitDefers s (srcTask cl) x = false → AllHomes s →
      headTask s cl x (fun t => t.kind == 0 || (t.kind == 2 && tcbNrec s t.key != 0)) = some t → waiters = k :: ks →
      (getStrand s k).wait = some w → w.i.common = some c → Completes (.taskDeal cl x) s fun u =>
        (getStrand u k).pc = BitVec.ofNat 64 (tcbField s t.key 0 57 / 4 * 4) ∧ (getStrand u k).wait = none ∧
        (getStrand u k).task = some ⟨t.tcb, t.key, t.kind == 2⟩ ∧
        (∀ r, getS (getStrand u k) r = if r = 4 then BitVec.ofNat 64 t.tcb else if r = 3 then BitVec.ofNat 64 (tcbField s t.key 64 57)
          else getS (getStrand s k) r) ∧
        (∀ r, getV (getStrand u k) r = getV (getStrand s k) r) ∧ (∀ j, j ≠ k → getStrand u j = getStrand s j))) ∧
  (∀ (s : State) (cl key : Nat) (n : ReadyNotice) (t : TaskEnt),
    (getCluster s cl).notices.find? (fun n => n.key == key) = some n → heldIn s cl key = some t → unitDefers s (srcTask cl) t.ctx = false → AllHomes s →
    Completes (.taskReadyNotice cl key) s fun u =>
      heldIn u cl key = some { t with ready := some s.cycle } ∧ tcbState u key = 2 ∧ (∀ m ∈ (getCluster u cl).notices, m.key ≠ key) ∧
      u.strands = s.strands) ∧
  (∀ (s : State) (cl : Nat) (t : TaskEnt),
    let a := engineActor (match t.spawner with | some k => coreOf k | none => 64 * cl) t.ctx t.desc
    readyCopyTask s cl = some t → AllHomes s → (∀ p w, readCcr (acquireUnit s cl a (memHandle 4 t.tcb)) a .glob (tcbField s t.key 64 57) = .ok (p, w) → p.ccr.getLsbD 185 = false →
      Completes (.copyTaskHandoff cl) s fun u =>
        tcbState u t.key = 3 ∧ (∀ j, SameRegs (getStrand s j) (getStrand u j)) ∧
        ∃ q, (getCluster u cl).copies = (getCluster s cl).copies ++ [q] ∧ q.task = some t.key ∧ q.ccr = p.ccr ∧ q.src = p.src ∧ q.dst = p.dst ∧ q.ctx = t.ctx)) ∧
  (∀ (s : State) (cl : Nat) (a : Actor) (h : Word) (line : Nat), lineInRuns (boundRuns s a.core a.ctx a.desc h) line = true → l2Line (acquireUnit s cl a h) cl line = none) ∧
  (∀ (s : State) (cl x : Nat) (t : TaskEnt), x < 16 → (∀ y, y < x → unitDefers s (srcTask cl) y = true ∨
      headTask s cl y (fun t => t.kind == 2 && tcbNrec s t.key == 0) = none) →
    unitDefers s (srcTask cl) x = false → headTask s cl x (fun t => t.kind == 2 && tcbNrec s t.key == 0) = some t →
    Completes (.emptyCardRetire cl) s fun u => heldIn u cl t.key = none ∧ ∀ j, SameRegs (getStrand s j) (getStrand u j)) ∧
  (∀ (c : Common) (s : State),
    ((me s).vtabQ ≠ [] ∨ (me s).inflight ≠ [] ∨ hasReduction s s.cur = true → Ready (.endStrand c) c s → exec (.endStrand c) s = .next s) ∧
    ((me s).vtabQ = [] → (me s).inflight = [] → hasReduction s s.cur = false → (me s).task = none → Gives (.endStrand c) c s fun u =>
      (me u).run = .stopped ∧ (me u).loops = [] ∧ (me u).shadow = [] ∧ (me u).kills = [] ∧ stKillp (me u) = false ∧
      (∀ e ∈ (getCluster u (clusterOf s.cur)).streams, e.2.owner ≠ s.cur) ∧ (∀ j, getD (me u) j = getD (me s) j) ∧
      (∀ r, getS (me u) r = getS (me s) r) ∧ u.mem = s.mem ∧ ∀ j, j ≠ s.cur → getStrand u j = getStrand s j))

namespace Sys2Proof.Claims

/-- The areas of a join are laid out as R290 and R294 ask: aligned, apart from each other and from the record, no two bytes at one place. -/
structure Laid (j : JoinInst) : Prop where
  count : jN j ≤ 64
  aligned : ∀ a ∈ areasOf j, a.1 % 16 = 0
  apart : (areasOf j).Pairwise fun a b => a.1 + a.2 ≤ b.1 ∨ b.1 + b.2 ≤ a.1
  places : ∀ x y, InAreas j x → InAreas j y → areaLoc j x = areaLoc j y → x = y
  record : ∀ x, InAreas j x → areaLoc j x < j.key ∨ j.key + 256 ≤ areaLoc j x

/-- A place in memory that is neither the record's nor an area's. -/
def Outside (j : JoinInst) (a : Nat) : Prop := (a < j.key ∨ j.key + 256 ≤ a) ∧ ∀ x, InAreas j x → a ≠ areaLoc j x

/-- TVAL of a join fault (spec/09 R218). -/
def joinTrap (s t : State) (va : Word) (reason : Nat) : Prop :=
  TrapEntered s t 0x12 (BitVec.ofNat 64 (reason * 2 ^ 60 + va.toNat % 2 ^ 57)) (me s).pc

/-- What an accepted arrival does to an instance and its record: the participant's staging, by its weight, is added to the target and cleared, a NaN element
staying one, its bit in ARRIVED is set, and the counts rise. -/
structure Arrived (w u : State) (j : JoinInst) (p : Nat) : Prop where
  target : ∀ e, e < jNE j →
    let b := readElem w j (stagingVa j p e)
    let c := readElem w j (targetVa j e)
    readElem u j (targetVa j e) = if b = -2 ^ 127 ∨ c = -2 ^ 127 then -2 ^ 127 else c + (j.weights.getD p 0 : Nat) * b
  staging : ∀ e, e < jNE j → readElem u j (stagingVa j p e) = 0
  bit : recField u j.key 768 64 = recField w j.key 768 64 ||| 2 ^ p
  count : recField u j.key 1224 7 = (recField w j.key 1224 7 + 1) % 2 ^ 7
  weight : recField u j.key 1280 32 = (recField w j.key 1280 32 + j.weights.getD p 0) % 2 ^ 32
  last : recField u j.key 1216 6 = p

/-- The numbers of an instance are those that contributions can reach: no sum leaves 128 bits. -/
def InRange (w : State) (j : JoinInst) (p : Nat) : Prop :=
  j.weights.getD p 0 ≤ 2 ^ 24 ∧ ∀ e, e < jNE j →
    (readElem w j (stagingVa j p e) = -2 ^ 127 ∨ (readElem w j (stagingVa j p e)).natAbs < 2 ^ 95) ∧
    (readElem w j (targetVa j e) = -2 ^ 127 ∨ (readElem w j (targetVa j e)).natAbs < 2 ^ 126)

/-- The strand has taken a kill with a handler (spec/15 R305): it is at the handler with the record and the participant id, its participation, progress and loops are gone,
and no kill is pending. -/
structure KillHandled (x y : Strand) (p : PendKill) (h : Word) : Prop where
  pc : y.pc = h &&& ~~~ 3#64
  scalar : ∀ r, getS y r = if r = 4 then BitVec.ofNat 64 p.pid else if r = 3 then p.record else getS x r
  vectors : ∀ r, getV y r = getV x r
  guards : ∀ r, getG y r = getG x r
  masks : ∀ r, getK y r = getK x r
  slot : y.jslot = 0
  resume : y.resume = 0
  loops : y.loops = [] ∧ y.shadow = []
  kills : y.kills = [] ∧ stKillp y = false
  wait : y.wait = none ∧ y.long = none

end Sys2Proof.Claims

/-- R218, R219, R292 to R303, R307: the join instructions and the steps of a join's home. JOPEN tracks a new OPEN instance; JENTER registers a participant in it; JCONT adds lanes to
staging; JARRIVE merges that into the target and counts, and a quorum, a deadline or JCLOSE.F releases the instance; JWAIT reads the status of a released one and waits for an
open one; JCLOSE ends a released one. The join faults carry their reasons in TVAL, beside the RAS event of a table entry that cannot be read (R332: `reportFind`). The order of
checks that R294 to R297 leave open is log 51, an untracked record whose STATE reads OPEN log 55, one that is then not well formed log 99, and the order of requests of one cycle log 53. JARRIVE does not issue while the
strand has a merged atomic on its way, nor JOPEN before every earlier access has landed (log 41). -/
def Obligations.Joins : Prop :=
  (∀ (c : Common) (s : State) (sa : SReg) (j : JoinInst) (pkey pnum : Nat) (w : State),
    let i := Instr.jopen c sa
    let m := opened i c s
    let va := (getS (me s) sa).toNat
    let p := pushRecord m s.cur va
    (allLanded s s.cur = false → Gives i c s fun u => u = s) ∧
    (allLanded s s.cur = true → checkOpen p s.cur va = .ok j → AllHomes s → JoinHomes s j →
    (joinState p j.key = 1 ∨ joinState p j.key = 2 → (me s).vtabQ = [] → Gives i c s (joinTrap s · (getS (me s) sa) 1)) ∧
    (joinState p j.key = 0 ∨ joinState p j.key = 3 → openAt p j.key < 1024 → enterParent p s.cur j = .ok (.ok (pkey, pnum, w)) → Gives i c s fun u =>
      instAt u j.key = some { j with num := w.joinNo, pkey := pkey, pnum := pnum } ∧ u.joinNo = w.joinNo + 1 ∧ Quiet c s u (me s) ∧
      (Laid j → recField u j.key 62 2 = 1 ∧ recField u j.key 1224 7 = 0 ∧ recField u j.key 768 64 = 0 ∧ recField u j.key 704 64 = 0 ∧
        (∀ e, e < jNE j → readElem u j (targetVa j e) = 0 ∧ ∀ q, q < jN j → readElem u j (stagingVa j q e) = 0) ∧
        ∀ a, Outside j a → byteAt u.mem a = byteAt w.mem a)) ∧
    (∀ v x, joinState p j.key = 0 ∨ joinState p j.key = 3 → openAt p j.key < 1024 → enterParent p s.cur j = .ok (.error (v, x)) → (me s).vtabQ = [] → Gives i c s fun u =>
      (me u).cause = 0x12 ∧ (me u).tval = BitVec.ofNat 64 v ∧ (me u).epc = (me s).pc ∧ (me u).pc = (me s).tvec &&& ~~~ 3#64 ∧ stPriv (me u) = true ∧
      (∀ r, getS (me u) r = getS (me s) r) ∧ (∀ n, getD (me u) n = getD (me s) n) ∧ u.mem = x.mem ∧ u.joins = x.joins) ∧
    (joinState p j.key = 0 ∨ joinState p j.key = 3 → openAt p j.key < 1024 → enterParent p s.cur j = .wait none → Gives i c s fun u => u = s) ∧
    (joinState p j.key = 0 ∨ joinState p j.key = 3 → 1024 ≤ openAt p j.key → Ready i c s → Completes i s fun u =>
      (∃ w, (me u).wait = some w ∧ w.what = .jopen) ∧ (∀ n, getD (me u) n = getD (me s) n) ∧ (me u).pc = (me s).pc ∧ u.joins = s.joins))) ∧
  (∀ (c : Common) (s : State) (sa sb : SReg) (key : Nat),
    let i := Instr.jenter c sa sb
    let va := getS (me s) sa
    let p := (getS (me s) sb).toNat
    let found := (findInst (opened i c s) (strandActor (opened i c s) s.cur) key va.toNat).map Prod.fst
    let w := reportFind s (strandActor s s.cur) key va.toNat
    ((me s).jslot.getLsbD 63 = true → (me s).vtabQ = [] → Gives i c s (joinTrap s · va 4)) ∧
    ((me s).jslot.getLsbD 63 = false → recordLoc s s.cur va.toNat = .ok key →
      (mayAsk s (askJoin key) p = false → Gives i c s fun u => u = s) ∧
      (mayAsk s (askJoin key) p = true →
        (found = none ∨ (∃ j, found = some j ∧ j.state ≠ 1) → (me s).vtabQ = [] → Gives i c s (joinTrap w · va 1)) ∧
        (∀ j, found = some j → j.state = 1 → jN j ≤ p ∨ (recField s key 704 64).testBit p = true → (me s).vtabQ = [] → Gives i c s (joinTrap w · va 2)) ∧
        ((instAt s key).isSome ∨ recField s key 62 2 ≠ 1 → w = s) ∧
        (∀ j, found = some j → j.state = 1 → p < jN j → (recField s key 704 64).testBit p = false → AllHomes s → JoinHomes s j → Laid j → Gives i c s fun u =>
          (me u).jslot = BitVec.ofNat 64 (2 ^ 63 + p * 2 ^ 57 + va.toNat % 2 ^ 57) ∧ Quiet c s u { me s with jslot := (me u).jslot } ∧
          instAt u key = some { j with regs := j.regs ++ [⟨p, .strand (addrOfStrand s s.cur) (stCtx (me s)), va⟩] } ∧
          (recField u key 704 64).testBit p = true ∧ ∀ a, Outside j a → byteAt u.mem a = byteAt s.mem a)))) ∧
  (∀ (c : Common) (s : State) (s32 : Bool) (sa : SReg) (sb : VReg) (km : KReg) (key p va : Nat),
    let i := Instr.jcont c s32 sa sb km
    let e := (getS (me s) sa).toNat
    let on := (List.range 16).filter fun l => (getK (me s) km).getLsbD l
    let value := fun l => contValue s32 ((getV (me s) sb).toNat / 2 ^ (32 * l) % 2 ^ 32)
    let ne := match instAt s key with
      | some j => jNE j
      | none => recField s key 35 11
    (slotOf (me s) = none → (me s).vtabQ = [] → Gives i c s (joinTrap s · 0 3)) ∧
    (slotOf (me s) = some (p, va) → recordLoc s s.cur va = .ok key →
      ((∃ l ∈ on, ne ≤ e + l) → (me s).vtabQ = [] → Gives i c s (joinTrap s · (BitVec.ofNat 64 va) 5)) ∧
      ((∀ l ∈ on, e + l < ne) → mayAsk s (askJoin key) p = false → Gives i c s fun u => u = s) ∧
      ((∀ l ∈ on, e + l < ne) → mayAsk s (askJoin key) p = true → registeredAt s key p (ownParty s) = none → Gives i c s fun u =>
        Quiet c s u (me s) ∧ u.mem = s.mem ∧ u.joins = s.joins) ∧
      (∀ j, registeredAt s key p (ownParty s) = some j → mayAsk s (askJoin key) p = true → ne = jNE j ∧
        ((∀ l ∈ on, e + l < jNE j) → j.state ≠ 1 → Gives i c s fun u => Quiet c s u (me s) ∧ u.mem = s.mem) ∧
        ((∀ l ∈ on, e + l < jNE j) → j.state = 1 → p < jN j → AllHomes s → Laid j → Gives i c s fun u => Quiet c s u (me s) ∧ u.joins = s.joins ∧
          (∀ l ∈ on, readElem u j (stagingVa j p (e + l)) = (addLane (readElem s j (stagingVa j p (e + l))) (jXS j) (value l)).1) ∧
          (∀ n, n < jNE j → (∀ l ∈ on, n ≠ e + l) → readElem u j (stagingVa j p n) = readElem s j (stagingVa j p n)) ∧
          ∀ a, Outside j a → byteAt u.mem a = byteAt s.mem a)))) ∧
  (∀ (b xs : Int) (v : Val), b ≠ -2 ^ 127 → b.natAbs < 2 ^ 95 →
    (v.isFin = false → (addLane b xs v).1 = -2 ^ 127) ∧ ((addLane b xs v).1 = -2 ^ 127 ∨ (addLane b xs v).1.natAbs < 2 ^ 95) ∧
    ∀ neg m e, v = .fin neg m e →
      let t := b + (if xs ≤ e then (if neg then -(m : Int) else m) * 2 ^ (e - xs).toNat else (if neg then -(m : Int) else m) / 2 ^ (xs - e).toNat)
      addLane b xs v = (max (-(2 ^ 95 - 1)) (min (2 ^ 95 - 1) t), decide (2 ^ 95 - 1 < t) || decide (t < -(2 ^ 95 - 1)))) ∧
  (∀ (c : Common) (s : State) (d : GReg) (key p va : Nat),
    let i := Instr.jarrive c d
    let m := opened i c s
    let w := releaseBy m s.cur (memHandle 3 va)
    let done := fun (u : State) ok => (me u).jslot = 0 ∧ (∀ r, getG (me u) r = if r = d ∧ r ≠ 7 then ok else getG (me s) r) ∧
      (∀ r, getS (me u) r = getS (me s) r) ∧ (∀ r, getV (me u) r = getV (me s) r) ∧ CounterUp c (me s) (me u) ∧ GoesOn c (me s) (me u)
    (slotOf (me s) = none → (me s).vtabQ = [] → Gives i c s (joinTrap s · 0 3)) ∧
    (slotOf (me s) = some (p, va) → recordLoc s s.cur va = .ok key → hasReduction s s.cur = true ∨ mayAsk s (askJoin key) p = false → Gives i c s fun u => u = s) ∧
    (slotOf (me s) = some (p, va) → recordLoc s s.cur va = .ok key → hasReduction s s.cur = false → mayAsk s (askJoin key) p = true → AllHomes s →
      (registeredAt s key p (ownParty s) = none → Gives i c s fun u => done u false ∧ u.mem = w.mem ∧ u.joins = s.joins) ∧
      (∀ j, registeredAt s key p (ownParty s) = some j → Laid j → p < jN j →
        ((j.state ≠ 1 ∨ (recField w key 768 64).testBit p = true) → Gives i c s fun u => done u false ∧ u.joins = s.joins ∧
          (recField u key 896 64).testBit p = true ∧ (∀ e, e < jNE j → readElem u j (stagingVa j p e) = 0) ∧
          ∀ a, Outside j a → byteAt u.mem a = byteAt w.mem a) ∧
        (j.state = 1 → (recField w key 768 64).testBit p = false → InRange w j p → Gives i c s fun u => done u true ∧
          (∀ a, Outside j a → byteAt u.mem a = byteAt w.mem a) ∧
          let met := if swField j 55 1 = 0 then swField j 64 17 ≤ (recField w key 1224 7 + 1) % 2 ^ 7
            else swField j 64 17 * recField w key 1312 32 ≤ 65536 * ((recField w key 1280 32 + j.weights.getD p 0) % 2 ^ 32)
          (¬ met → Arrived w u j p ∧ u.joins = s.joins ∧ recField u key 62 2 = recField w key 62 2) ∧
          (met → recField u key 62 2 = 2 ∧ recField u key 59 3 = 1 ∧ (instAt u key).map JoinInst.state = some 2 ∧
            (recField u key 768 64).testBit p = true))))) ∧
  (∀ (c : Common) (s : State) (d sa : SReg) (p : GReg) (tmo : BitVec 32) (key : Nat),
    let i := Instr.jwait c d sa p tmo
    let va := getS (me s) sa
    recordLoc s s.cur va.toNat = .ok key →
    (joinState s key = 0 → (me s).vtabQ = [] → Gives i c s (joinTrap s · va 1)) ∧
    (joinState s key = 1 → Gives i c s fun u => Waiting c s u (.join key) ∧ u.mem = s.mem) ∧
    (2 ≤ joinState s key → AllHomes s → Gives i c s fun u =>
      let st := recField s key 59 3 + 8 * recField s key 58 1 + 16 * (if recField s key 1224 7 = 0 then 1 else 0) + 256 * recField s key 1224 7
      (∀ r, getS (me u) r = if r = d ∧ r ≠ 0 then BitVec.ofNat 64 st else getS (me s) r) ∧
      (∀ r, getG (me u) r = if r = p ∧ r ≠ 7 then true else getG (me s) r) ∧ (∀ r, getV (me u) r = getV (me s) r) ∧
      CounterUp c (me s) (me u) ∧ GoesOn c (me s) (me u) ∧ (∀ j, j ≠ s.cur → getStrand u j = getStrand s j) ∧ SameHomes s u (coreOf s.cur))) ∧
  (∀ (c : Common) (s : State) (k : Nat) (w : Wait) (p : GReg) (d sa : SReg) (tmo : BitVec 32),
    (getStrand s k).wait = some w → w.i = .jwait c d sa p tmo → timedOut s k w = true → w.served = none → Completes (.jwaitTimeout k) s fun u =>
      GoesOn c (getStrand s k) (getStrand u k) ∧ (getStrand u k).wait = none ∧
      (∀ r, getG (getStrand u k) r = if r = p ∧ r ≠ 7 then false else getG (getStrand s k) r) ∧
      (∀ r, getS (getStrand u k) r = getS (getStrand s k) r) ∧ (∀ j, j ≠ k → getStrand u j = getStrand s j) ∧ { u with strands := s.strands } = s) ∧
  (∀ (c : Common) (s : State) (sa : SReg) (key : Nat),
    let va := getS (me s) sa
    let found := (findInst (opened (.jcloseF c sa) c s) (strandActor (opened (.jcloseF c sa) c s) s.cur) key va.toNat).map Prod.fst
    recordLoc s s.cur va.toNat = .ok key → AllHomes s →
    (joinState s key ≠ 2 → (me s).vtabQ = [] → Gives (.jclose c sa) c s (joinTrap s · va 1)) ∧
    (joinState s key = 2 → Gives (.jclose c sa) c s fun u => recField u key 62 2 = 3 ∧ instAt u key = none ∧ Quiet c s u (me s) ∧
      ∀ a, a ≠ key + 7 → byteAt u.mem a = byteAt s.mem a) ∧
    ((∀ j, found = some j → j.state ≠ 1) → (me s).vtabQ = [] → Gives (.jcloseF c sa) c s (joinTrap (reportFind s (strandActor s s.cur) key va.toNat) · va 1)) ∧
    (∀ j, found = some j → j.state = 1 → JoinHomes s j → Laid j → Gives (.jcloseF c sa) c s fun u =>
      recField u key 62 2 = 2 ∧ recField u key 59 3 = (if quorumMet s j (swField j 96 17) then 4 else 3) ∧
      (instAt u key).map JoinInst.state = some 2 ∧ GoesOn c (me s) (me u) ∧ ∀ r, getS (me u) r = getS (me s) r)) ∧
  (∀ (s : State) (key : Nat) (j : JoinInst), instAt s key = some j → AllHomes s → Laid j →
    (deadlinePassed s j = false → exec (.joinDeadline key) s = .next s) ∧
    (deadlinePassed s j = true → Completes (.joinDeadline key) s fun u =>
      recField u key 62 2 = 2 ∧ recField u key 59 3 = (if quorumMet s j (swField j 96 17) then 2 else 3) ∧
      (instAt u key).map JoinInst.state = some 2 ∧ (∀ k, SameRegs (getStrand s k) (getStrand u k)) ∧ (∀ n, n < joinClosed → mayAsk u (askJoin key) n = false) ∧
      (∀ a, Outside j a → byteAt u.mem a = byteAt s.mem a)) ∧
    (∀ a r, s.childArr.find? (fun a => a.key == key) = some a → j.regs.find? (fun r => r.pid == a.pid) = some r → j.num = a.num → a.pid < jN j →
      (recField s key 768 64).testBit a.pid = false → j.state = 1 → mayAsk s (askJoin key) a.pid = true → Completes (.childJoinArrival key) s fun u =>
        u.childArr = s.childArr.filter (· ≠ a) ++ u.childArr.drop (s.childArr.filter (· ≠ a)).length ∧
        (recField u key 768 64).testBit a.pid = true ∧ recField u key 1224 7 = (recField s key 1224 7 + 1) % 2 ^ 7 ∧
        (∀ k, SameRegs (getStrand s k) (getStrand u k)) ∧ ∀ x, Outside j x → byteAt u.mem x = byteAt s.mem x)) ∧
  (∀ (s : State) (idx : Nat) (m : StallMsg), s.stalls[idx]? = some m → AllHomes s →
    (mayAsk s (askJoin m.key) joinAny = false → exec (.stallCredit idx) s = .next s) ∧
    (mayAsk s (askJoin m.key) joinAny = true →
    (∀ j, instAt s m.key = some j → j.num = m.num → j.state = 1 → Completes (.stallCredit idx) s fun u =>
      recField u m.key 192 64 = (recField s m.key 192 64 + m.units) % 2 ^ 64 ∧ u.stalls = s.stalls.eraseIdx idx ∧ u.strands = s.strands ∧
      ∀ a, (a < m.key + 24 ∨ m.key + 32 ≤ a) → byteAt u.mem a = byteAt s.mem a) ∧
    ((∀ j, instAt s m.key = some j → j.num ≠ m.num ∨ j.state ≠ 1) → exec (.stallCredit idx) s = .next { s with stalls := s.stalls.eraseIdx idx })))

/-- R304, R305, R306: a kill becomes pending on its strand, is kept with a saved context, or is dropped; a strand at a kill point inside an instruction takes the kill that names its
participation, at its handler or by stopping, and discards the others; a kill stops a copy command at its boundary and releases a child join. A strand takes no kill before its table requests
and loads have written their registers, nor one that ends its task before what it stored has landed (log 41). When a kill that has been sent arrives is log 57. -/
def Obligations.Kills : Prop :=
  (∀ (s : State) (idx : Nat) (m : KillMsg) (a : Word) (x : Nat), s.kills[idx]? = some m → m.who = .strand a x →
    let k := a.toNat % 4096
    let p : PendKill := ⟨m.va, m.pid, m.kpc, m.time⟩
    let live := (getStrand s k).run = .running ∧ stCtx (getStrand s k) = x
    let kept := (getCtx s x).saved = true ∨ ((getStrand s k).run = .saved ∧ stCtx (getStrand s k) = x)
    (otherDev s a 18 12 = true → Completes (.killDelivery idx) s fun u => u.kills = s.kills.eraseIdx idx ∧ u.strands = s.strands ∧ u.mem = s.mem) ∧
    (otherDev s a 18 12 = false →
      (live → Completes (.killDelivery idx) s fun u =>
        u.kills = s.kills.eraseIdx idx ∧ stKillp (getStrand u k) = true ∧
        { getStrand u k with status := (getStrand s k).status, kills := (getStrand s k).kills } = getStrand s k ∧
        (getStrand u k).kills = (getStrand s k).kills ++ [p] ∧ (∀ n, n ≠ 5 → (getStrand u k).status.getLsbD n = (getStrand s k).status.getLsbD n) ∧
        (∀ j, j ≠ k → getStrand u j = getStrand s j) ∧ { u with strands := s.strands, kills := s.kills } = s) ∧
      (¬ live → kept → Completes (.killDelivery idx) s fun u =>
        u.kills = s.kills.eraseIdx idx ∧ getCtx u x = { getCtx s x with heldKills := (getCtx s x).heldKills ++ [(k, p)] } ∧ u.strands = s.strands ∧ u.mem = s.mem) ∧
      (¬ live → ¬ kept → exec (.killDelivery idx) s = .next { s with kills := s.kills.eraseIdx idx }))) ∧
  (∀ (s : State) (k : Nat),
    let x := getStrand s k
    mayRun s k = true → killDue x = true → insideKillPoint x = true →
    (killReady s k = false → exec (.killTaken k) s = .next s) ∧
    (killReady s k = true → (matchingKill x = none → Completes (.killTaken k) s fun u =>
      (getStrand u k).kills = [] ∧ stKillp (getStrand u k) = false ∧ (getStrand u k).pc = x.pc ∧ (getStrand u k).wait = x.wait ∧
      (getStrand u k).long = x.long ∧ (∀ j, j ≠ k → getStrand u j = getStrand s j) ∧ { u with strands := s.strands } = s) ∧
    (∀ p h, matchingKill x = some p → p.kpc = some h → Completes (.killTaken k) s fun u =>
      KillHandled x (getStrand u k) p h ∧ (∀ j, j ≠ k → getStrand u j = getStrand s j) ∧ u.mem = s.mem) ∧
    (∀ p, matchingKill x = some p → p.kpc = none → x.task = none → Completes (.killTaken k) s fun u =>
      (getStrand u k).run = .stopped ∧ (getStrand u k).kills = [] ∧ (∀ j, j ≠ k → getStrand u j = getStrand s j) ∧ u.mem = s.mem))) ∧
  (∀ (x : Strand) (p : PendKill), matchingKill x = some p ↔
    x.jslot.getLsbD 63 = true ∧ ∃ a b, x.kills = a ++ p :: b ∧
      (let names := fun q : PendKill => q.pid = (x.jslot.extractLsb' 57 6).toNat ∧ q.record.toNat % 2 ^ 57 = (x.jslot.extractLsb' 8 49).toNat * 256
       names p ∧ ∀ q ∈ a, ¬ names q)) ∧
  (∀ (s : State) (cl idx : Nat) (q : CopyCmd) (m : KillMsg), (getCluster s cl).copies[idx]? = some q → s.kills.find? (fun m => m.who == cmdParty cl q) = some m →
    Completes (.copyKill cl idx) s fun u =>
      (getCluster u cl).copies = (getCluster s cl).copies.set idx { q with killed := true, floor := max q.floor (m.time + 1) } ∧
      u.kills = s.kills.filter (· ≠ m) ∧ u.strands = s.strands ∧ u.mem = s.mem) ∧
  (∀ (s : State) (key n : Nat) (m : KillMsg), s.kills.find? (fun m => (childOf key m).isSome) = some m → m.who = .join key n → AllHomes s →
    (mayAsk s (askJoin key) joinAny = false → exec (.childJoinKill key) s = .next s) ∧
    (mayAsk s (askJoin key) joinAny = true →
    ((∀ j, instAt s key = some j → j.state ≠ 1 ∨ j.num ≠ n) → exec (.childJoinKill key) s = .next { s with kills := s.kills.erase m }) ∧
    (∀ j, instAt s key = some j → j.state = 1 → j.num = n → Laid j → Completes (.childJoinKill key) s fun u =>
      recField u key 62 2 = 2 ∧ recField u key 59 3 = (if quorumMet s j (swField j 96 17) then 4 else 3) ∧
      (instAt u key).map JoinInst.state = some 2 ∧ u.kills.take (s.kills.erase m).length = s.kills.erase m ∧ ∀ k, SameRegs (getStrand s k) (getStrand u k))))

namespace Sys2Proof.Claims

/-- STATE of the vector bank of the strand's core: a bank that was in retention is powered once the cycle has come in which it will have woken (spec/01 R24, R25). -/
def bankState (s : State) : Nat :=
  let y := myCore s
  if y.vstate = 1 ∧ y.vidle ≠ 0 ∧ y.vidle ≤ s.cycle then 0 else y.vstate.toNat

/-- The control registers 0x000 to 0x018 of the strand `cur`, in order (spec/01 R29, R24, R32, spec/21 R341). -/
def controlRegisters (s : State) : List Word :=
  let x := me s
  [x.status, x.cause, x.epc, x.tval, x.tvec, x.resume, x.geom, (myCore s).part] ++ (List.range 8).map (mget 0 x.mb ·) ++
    [x.oscale, x.nancnt, x.prova, x.provb, BitVec.ofNat 64 ((myCore s).vmode.toNat + 4 * bankState s)] ++
    [BitVec.ofNat 64 (dieTime s (dieOf (clusterOf s.cur)) % 2 ^ 63), x.spillp, x.tenant, x.jslot]

/-- The translations that every core and every cluster caches are those that it cached before, without those that have a property. -/
def TlbsLose (s u : State) (p : TlbEntry → Prop) : Prop :=
  (∀ q e, e ∈ (getCore u q).tlb ↔ e ∈ (getCore s q).tlb ∧ ¬ p e) ∧ ∀ cl e, e ∈ (getCluster u cl).tlb ↔ e ∈ (getCluster s cl).tlb ∧ ¬ p e

end Sys2Proof.Claims

/-- R24, R29 to R32, R63, R220, R222 to R224, R228, R359: MFC reads the control register of its number and MTC writes its writable bits; a number that is not listed and a
register without writable field take trap 0x01, and at task level a register that only system level writes takes trap 0x04. A write of VBANK waits while an instruction that names the bank has not completed, one of SPILLP for the accesses that the carve-out served, and one of NANCNT for the
instructions that can add to it. (The writable bits of CAUSE are log 49.) TRACE produces its record; TRAP and BKPT trap after
they complete, and BKPT halts the cluster where its debug module breaks on the context, those of one cycle in ascending order (log 53), at once in a step too (log 102); TRET restores the level, the interrupt enable, the program counter and the loop stack;
TLBINV removes the translations of a context; SLOTW writes the words of the slot tables, those of the engines by context 0 alone; bit 2 of each entry of the matrix unit's is reserved. -/
def Obligations.SystemInstructions : Prop :=
  (∀ (c : Common) (s : State) (d : SReg) (cr : BitVec 12),
    (∀ v, (controlRegisters s)[cr.toNat]? = some v → Gives (.mfc c d cr) c s (ResultS c s d v)) ∧
    ((controlRegisters s)[cr.toNat]? = none → (me s).vtabQ = [] → Gives (.mfc c d cr) c s fun u => TrapEntered s u 1 (cr.setWidth 64) (me s).pc)) ∧
  (∀ (c : Common) (s : State) (sa : SReg),
    let x := me s
    let v := getS x sa
    let n := v.toNat
    let i := fun j : Nat => Instr.mtc c sa (BitVec.ofNat 12 j)
    let puts := fun (j : Nat) (y : Strand) => Gives (i j) c s fun u => OnlyMe s u ∧ Quiet c s u y
    let put := fun (old m : Word) => (old &&& ~~~ m) ||| (v &&& m)
    (∀ j, j < 4096 → (0x18 < j ∨ j = 7 ∨ j = 0x15 ∨ j = 0x18) → x.vtabQ = [] →
      Gives (i j) c s fun u => TrapEntered s u 1 (BitVec.ofNat 64 j) x.pc) ∧
    (stPriv x = false → x.vtabQ = [] → ∀ j ∈ [0, 1, 2, 3, 4, 5, 0x14, 0x17], Gives (i j) c s fun u => TrapEntered s u 4 (BitVec.ofNat 64 j) x.pc) ∧
    (stPriv x = true →
      puts 0 { x with status := put x.status 0x1C } ∧ puts 1 { x with cause := put x.cause 0x80000000000000FF } ∧ puts 2 { x with epc := v } ∧
      puts 3 { x with tval := v } ∧ puts 4 { x with tvec := v &&& ~~~ 3#64 ||| (x.tvec &&& 3#64) } ∧ puts 5 { x with resume := v } ∧
      puts 0x17 { x with tenant := put x.tenant 0xF }) ∧
    puts 0x10 { x with oscale := put x.oscale 0xFFFFFFFF } ∧
    (x.inflight.any Flight.nan = false → puts 0x11 { x with nancnt := put x.nancnt 0xFFFFFFFF }) ∧
    (x.inflight.any Flight.nan = true → Gives (i 0x11) c s fun u => u = s) ∧
    puts 0x12 { x with prova := put x.prova 0xFFFFFFFFFFF00000 } ∧ puts 0x13 { x with provb := put x.provb 0x01FFFFFFFFFFFFFC } ∧
    (x.inflight.any Flight.carved = false → puts 0x16 { x with spillp := put x.spillp (if stPriv x then 0x01FFFFFFFFFFFF81 else 0x01FFFFFFFFFFFF80) }) ∧
    (x.inflight.any Flight.carved = true → Gives (i 0x16) c s fun u => u = s) ∧
    (∀ j, 8 ≤ j → j < 16 → Gives (i j) c s fun u => OnlyMe s u ∧ Quiet c s u { x with mb := (me u).mb } ∧
      ∀ q, mget 0 (me u).mb q = if q = j - 8 then v else mget 0 x.mb q) ∧
    (let rows := n / 2 ^ 10 % 2 ^ 4
     let cols := n / 2 ^ 6 % 2 ^ 4
     let r0 := n / 2 ^ 3 % 2 ^ 3
     let c0 := n % 2 ^ 3
     let m := coreNo s.cur / 8
     let q := coreNo s.cur % 8
     let inside := 1 ≤ rows ∧ 1 ≤ cols ∧ r0 + rows ≤ 8 ∧ c0 + cols ≤ 8 ∧ r0 ≤ m ∧ m < r0 + rows ∧ c0 ≤ q ∧ q < c0 + cols
     puts 6 { x with geom := BitVec.ofNat 64 (n % 2 ^ 14 + if inside then (q - c0) * 2 ^ 14 + (m - r0) * 2 ^ 17 + 2 ^ 20 else 0) }) ∧
    (stPriv x = true → bankInUse s (coreOf s.cur) = true → Ready (i 0x14) c s → exec (i 0x14) s = .next s) ∧
    (stPriv x = true → bankInUse s (coreOf s.cur) = false →
      (n % 4 = 3 ∨ n % 4 = (myCore s).vmode.toNat → puts 0x14 x) ∧
      (n % 4 < 3 → n % 4 ≠ (myCore s).vmode.toNat → Gives (i 0x14) c s fun u =>
        (myCore u).vmode = v.setWidth 2 ∧ (myCore u).vstate = (if n % 4 = 2 then 2 else 0) ∧ (myCore u).pool = (myCore s).pool ∧
        (∀ k r, getV (getStrand u k) r = if n % 4 = 2 ∧ coreOf k = coreOf s.cur ∧ 16 ≤ r.toNat then 0 else getV (getStrand s k) r) ∧
        (∀ k r, getS (getStrand u k) r = getS (getStrand s k) r) ∧ GoesOn c x (me u) ∧ CounterUp c x (me u) ∧ u.mem = s.mem ∧
        ∀ q, q ≠ coreOf s.cur → getCore u q = getCore s q))) ∧
  (∀ (c : Common) (s : State) (code : BitVec 8) (sa sb : SReg),
    let a := (getS (me s) sa).toNat
    let b := (getS (me s) sb).toNat
    let t := (me s).tenant.toNat % 16
    let mode := (myCore s).desc.toNat / 2 ^ 196 % 4
    let takes := (mode = 1 ∨ mode = 2) ∧ ringTakes s t 0x18 = true
    Gives (.trace c code sa sb) c s fun u =>
      Quiet c s u (me s) ∧ OnlyMe s { u with recs := s.recs, dieSeq := s.dieSeq, srcStamp := s.srcStamp } ∧
      (¬ takes → u.recs = s.recs) ∧
      (takes → ∃ r, u.recs = s.recs ++ [r] ∧ r.ring = t ∧ r.lossless = decide (mode = 2) ∧ r.strand = some s.cur ∧ r.held = false ∧
        r.words.drop 2 = [BitVec.ofNat 64 (a % 2 ^ 63), BitVec.ofNat 64 (b % 2 ^ 63), BitVec.ofNat 64 (a / 2 ^ 63 + 2 * (b / 2 ^ 63) + 2 ^ 8 * code.toNat)])) ∧
  (∀ (c : Common) (s : State) (code : BitVec 17),
    let cl := clusterOf s.cur
    let breaks := (getCluster s cl).dm.ctl.getLsbD (16 + stCtx (me s))
    let entered := fun cause (u : State) => TrapEntered (modMe s fun x => setUp x c) u cause (code.setWidth 64) (after c s)
    ((me s).vtabQ = [] → Gives (.trap c code) c s (entered 0x11)) ∧
    (breaks = false → (me s).vtabQ = [] → Gives (.bkpt c code) c s (entered 0x10)) ∧
    (breaks = true → mayAsk s (askBreak cl) (s.cur % 256) = false → Gives (.bkpt c code) c s fun u => u = s) ∧
    (breaks = true → mayAsk s (askBreak cl) (s.cur % 256) = true → (getCluster s cl).dm.halted = false → Gives (.bkpt c code) c s fun u =>
      (getCluster u cl).dm = { (getCluster s cl).dm with halted := true, haltedAt := s.cycle + 1, cause := 3, strand := s.cur % 256, stepping := none } ∧
      GoesOn c (me s) (me u) ∧ (∀ j, getD (me u) j = getD (me s) j) ∧ (∀ k, k ≠ s.cur → SameRegs (getStrand s k) (getStrand u k)) ∧
      (∀ r, getS (me u) r = getS (me s) r) ∧ (∀ r, getV (me u) r = getV (me s) r) ∧ u.mem = s.mem)) ∧
  (∀ (c : Common) (s : State), Gives (.tret c) c s fun u =>
    (me u).pc = (me s).epc &&& ~~~ 3#64 ∧ (me u).loops = (me s).shadow ∧ stPriv (me u) = stPPriv (me s) ∧ stIE (me u) = stPIE (me s) ∧
    (∀ j, j ≠ 0 → j ≠ 2 → (me u).status.getLsbD j = (me s).status.getLsbD j) ∧ CounterUp c (me s) (me u) ∧
    SameButRegisters { me s with status := (me u).status } (me u) ∧ (∀ r, getS (me u) r = getS (me s) r) ∧ (∀ r, getG (me u) r = getG (me s) r) ∧
    (∀ r, getK (me u) r = getK (me s) r) ∧ (∀ r, getV (me u) r = getV (me s) r) ∧ (∀ k, k ≠ s.cur → getStrand u k = getStrand s k) ∧ u.mem = s.mem) ∧
  (∀ (c : Common) (s : State) (sa sb : SReg),
    let x := if stCtx (me s) = 0 then (getS (me s) sb).toNat % 16 else stCtx (me s)
    let va := (getS (me s) sa).toNat
    Gives (.tlbinvAll c sa sb) c s (fun u => Quiet c s u (me s) ∧ u.mem = s.mem ∧ TlbsLose s u fun e => e.ctx = x) ∧
    Gives (.tlbinvPg c sa sb) c s (fun u => Quiet c s u (me s) ∧ u.mem = s.mem ∧
      TlbsLose s u fun e => e.ctx = x ∧ e.base ≤ va ∧ va < e.base + e.size)) ∧
  (∀ (c : Common) (s : State) (sa : SReg),
    let q := coreOf s.cur
    let cl := clusterOf s.cur
    let v := getS (me s) sa
    Gives (.slotwMat c sa) c s (fun u => Quiet c s u (me s) ∧ (myCore u).matSlot = v &&& 0xBBBBBBBBBBBBBBBB#64 ∧ (∀ p, p ≠ q → getCore u p = getCore s p) ∧
      { u with strands := s.strands, cores := s.cores } = s) ∧
    (stCtx (me s) = 0 →
      Gives (.slotwCpy c sa) c s (fun u => Quiet c s u (me s) ∧ getCluster u cl = { getCluster s cl with cpySlot := v } ∧
        (∀ p, p ≠ cl → getCluster u p = getCluster s p) ∧ { u with strands := s.strands, cores := s.cores, clusters := s.clusters } = s) ∧
      Gives (.slotwTku c sa) c s (fun u => Quiet c s u (me s) ∧ getCluster u cl = { getCluster s cl with tkuSlot := v } ∧
        (∀ p, p ≠ cl → getCluster u p = getCluster s p) ∧ { u with strands := s.strands, cores := s.cores, clusters := s.clusters } = s)) ∧
    (stCtx (me s) ≠ 0 → (me s).vtabQ = [] → ∀ i ∈ [Instr.slotwCpy c sa, .slotwTku c sa], ∀ w ws, encode i = w :: ws →
      Gives i c s fun u => TrapEntered s u 4 (w.setWidth 64) (me s).pc))

namespace Sys2Proof.Claims

/-- A lane of a load meets an uncorrected error, or a home that does not answer, when it is performed. -/
def LaneFails (s : State) (k : Nat) (p : PendLoad) (l : LoadLane) : Prop := ∃ key, l.loc = .glob key ∧ poisoned s (coreOf k) key (p.ty.width / 8) = true

/-- The oldest result of a strand has landed: its counter falls by one and control stays; the registers are given. -/
structure ResultIn (s u : State) (k : Nat) (f : Flight) (r : List Flight) (fs : SReg → Word) (fv : VReg → Vec) : Prop where
  rest : (getStrand u k).inflight = r
  counters : ∀ j, getD (getStrand u k) j = if f.ctr ≠ 7 ∧ f.ctr.toNat = j then getD (getStrand s k) j - 1 else getD (getStrand s k) j
  pc : (getStrand u k).pc = (getStrand s k).pc
  loops : (getStrand u k).loops = (getStrand s k).loops
  scalar : ∀ n, getS (getStrand u k) n = fs n
  vectors : ∀ n, getV (getStrand u k) n = fv n
  guards : ∀ n, getG (getStrand u k) n = getG (getStrand s k) n
  masks : ∀ n, getK (getStrand u k) n = getK (getStrand s k) n
  strands : ∀ j, j ≠ k → SameButLines (getStrand s j) (getStrand u j)

end Sys2Proof.Claims

/-- R68, R80, R74, R199, R226, R227, R25, R259, R333: the device steps of one strand and one core. A fetch that finds no mapped page takes trap 0x05; the oldest result lands (the order in which a
strand's results land is the model's choice, log 17): a load that was not performed at its issue is performed, with the values of that moment, and writes its destination (log 7), or takes trap
0x0E where a lane meets an uncorrected error (log 103); stores reach the L2 slice, and a home behind the host port or the fabric interface, and the counter falls by one; a merged
atomic is performed at its home with the counters of its issuers (log 38); a pending interrupt line is taken at an
interrupt point, the lowest first, unless a kill comes first; an AUTO bank that has been idle for 1,024 cycles is in retention, also where time has only passed, and the first use of it
waits 12 cycles; an eviction keeps every byte of memory as its core and home see it. (When a pending line is taken is log 8, which code a fetch reads log 52, and when a bank is awake log 79.) -/
def Obligations.StrandEvents : Prop :=
  (∀ (s : State) (k : Nat),
    let x := getStrand s k
    (mayIssue s k = false → exec (.instructionFetch k) s = .next s) ∧
    (mayIssue s k = true → ∀ i t, fetch s k = .instr i t → exec (.instructionFetch k) s = .next t ∧ HomeKept s t (clusterOf k) ∧
      (∀ j, j ≠ k → SameButLines (getStrand s j) (getStrand t j)) ∧
      (Roomy s (clusterOf k) 2 → t.mem = s.mem ∧ ∀ j, j ≠ k → getStrand t j = getStrand s j) ∧ (∀ r, getS (getStrand t k) r = getS x r) ∧ (∀ r, getV (getStrand t k) r = getV x r) ∧
      ∀ j, getD (getStrand t k) j = getD x j) ∧
    (mayIssue s k = true → x.loops = [] → x.entered = false → x.vtabQ = [] →
      translate s (coreOf k) (stCtx x) (getCore s (coreOf k)).desc x.pc.toNat .fetch = none → Completes (.instructionFetch k) s fun u =>
        let y := getStrand u k
        y.cause = 5 ∧ y.tval = x.pc ∧ y.epc = x.pc ∧ y.pc = x.tvec &&& ~~~ 3#64 ∧ stPriv y = true ∧ stIE y = false ∧
        (∀ r, getS y r = getS x r) ∧ u.mem = s.mem)) ∧
  (∀ (s : State) (k : Nat),
    let x := getStrand s k
    (∀ f r, x.inflight = f :: r →
      (f.load = none → Completes (.resultLands k) s fun u => ResultIn s u k f r (getS x) (getV x) ∧
        (∀ l ∈ f.lines, ∀ z, coreLine u (coreOf k) l = some z → z.dirty = 0) ∧
        (AllHomes s → SameHomes s u (coreOf k) ∧ ∀ j, j ≠ k → getStrand u j = getStrand s j) ∧
        (Roomy s (clusterOf k) f.lines.length → (∀ l ∈ f.lines, l * 128 < 0x8000000000000) → u.mem = s.mem)) ∧
      (∀ p l, f.load = some p → p.vec = false → p.dst < 32 → p.lanes = [l] → p.ty.isNum = true → AlignedLanes p.lanes (p.ty.width / 8) → ¬ LaneFails s k p l →
        Completes (.resultLands k) s fun u => ResultIn s u k f r
          (fun n => if n.toNat = p.dst ∧ n ≠ 0 then loaded p.ty (laneValue s (coreOf k) l.loc (p.ty.width / 8)) else getS x n) (getV x)) ∧
      (∀ p, f.load = some p → p.vec = true → p.dst < 32 → p.ty.isNum = true → AlignedLanes p.lanes (p.ty.width / 8) → (∀ l ∈ p.lanes, ¬ LaneFails s k p l) → AllHomes s →
        Completes (.resultLands k) s fun u => ∃ v, ResultIn s u k f r (getS x) (fun n => if n.toNat = p.dst then v else getV x n) ∧
          LanesAre p.ty p.mask (!p.merge) (getV x (BitVec.ofNat 5 p.dst)) v fun j =>
            match p.lanes.find? fun l => l.j == j with
            | some l => laneValue s (coreOf k) l.loc (p.ty.width / 8)
            | none => 0) ∧
      (∀ p a l b, f.load = some p → p.lanes = a ++ l :: b → (∀ e ∈ a, ¬ LaneFails s k p e) → LaneFails s k p l →
        (x.run = .running → x.vtabQ ≠ [] → exec (.resultLands k) s = .next s) ∧
        (x.run = .running → x.vtabQ = [] → Completes (.resultLands k) s fun u =>
          let y := getStrand u k
          y.cause = 0xE ∧ y.tval = BitVec.ofNat 64 l.va ∧ y.epc = x.pc ∧ y.pc = x.tvec &&& ~~~ 3#64 ∧ stPriv y = true ∧ y.inflight = r ∧
          (∀ n, getS y n = getS x n) ∧ (∀ n, getV y n = getV x n) ∧
          (x.wait = none → x.long = none → ∀ j, getD y j = if f.ctr ≠ 7 ∧ f.ctr.toNat = j then getD x j - 1 else getD x j)))) ∧
    (∀ q, x.inflight = [] → s.reductions.find? (fun q => q.owners.any fun o => o.strand == k) = some q → 32 ≤ q.ty.width → AllHomes s →
      let n := q.ty.width / 8
      let kept := fun (u : State) => u.reductions = s.reductions.erase q ∧
        ∀ j i, getD (getStrand u j) i = getD (getStrand s j) i - (q.owners.countP fun o => decide (o.strand = j ∧ o.ctr ≠ 7 ∧ o.ctr.toNat = i)) ∧
          (getStrand u j).pc = (getStrand s j).pc ∧ ∀ r, getS (getStrand u j) r = getS (getStrand s j) r
      ((∀ o ∈ q.owners, coreLine s (coreOf o.strand) (q.pa / 128) = none ∧ l2Line s (clusterOf o.strand) (q.pa / 128) = none) → Completes (.resultLands k) s fun u =>
        kept u ∧ readLE u.mem q.pa n = amoValue q.fn q.ty (readLE s.mem q.pa n) q.val % 256 ^ n ∧
        ∀ a, (a < q.pa ∨ q.pa + n ≤ a) → byteAt u.mem a = byteAt s.mem a) ∧
      ((∀ o ∈ q.owners, coreOf o.strand = coreOf k) → q.pa % n = 0 → Completes (.resultLands k) s fun u =>
        kept u ∧ readLE u.mem q.pa n = amoValue q.fn q.ty (leOf ((List.range n).map fun j => byteFor s (coreOf k) .device (q.pa + j))) q.val % 256 ^ n ∧
        (∀ a, (a < q.pa ∨ q.pa + n ≤ a) → byteFor u (coreOf k) .device a = byteFor s (coreOf k) .device a) ∧
        coreLine u (coreOf k) (q.pa / 128) = none ∧ l2Line u (clusterOf k) (q.pa / 128) = none)) ∧
    (x.inflight = [] → s.reductions.find? (fun q => q.owners.any fun o => o.strand == k) = none → exec (.resultLands k) s = .next s)) ∧
  (∀ (s : State) (k line : Nat),
    let x := getStrand s k
    (stIE x = false ∨ x.irq = 0 → exec (.interruptTaken k) s = .next s) ∧
    (killDue x = true → x.wait ≠ none ∨ x.long ≠ none ∨ (∃ i t c, fetch s k = .instr i t ∧ i.common = some c ∧ c.kpt = true) →
      exec (.interruptTaken k) s = .next s) ∧
    (stIE x = true → line < 3 → x.irq.getLsbD line = true → (∀ j, j < line → x.irq.getLsbD j = false) →
      mayRun s k = true → insideIrqPoint x = true →
      (killDue x = false ∨ x.wait = none ∧ x.long = none ∧ ∀ i t c, fetch s k = .instr i t → i.common = some c → c.kpt = false) → x.vtabQ = [] → Completes (.interruptTaken k) s fun u =>
        let y := getStrand u k
        y.cause = BitVec.ofNat 64 (2 ^ 63 + line) ∧ y.tval = 0 ∧ y.epc = x.pc ∧ y.pc = x.tvec &&& ~~~ 3#64 ∧ stPriv y = true ∧ stIE y = false ∧
        stPPriv y = stPriv x ∧ stPIE y = true ∧ y.loops = [] ∧ y.shadow = x.loops ∧ y.wait = none ∧ y.long = none ∧
        (∀ j, y.irq.getLsbD j = (decide (j ≠ line) && x.irq.getLsbD j)) ∧ (∀ r, getS y r = getS x r) ∧ (∀ r, getG y r = getG x r) ∧
        (∀ r, getK y r = getK x r) ∧ (∀ r, getV y r = getV x r) ∧ y.resume = x.resume ∧
        (x.wait = none → x.long = none → ∀ j, getD y j = getD x j) ∧ (∀ j, j ≠ k → getStrand u j = getStrand s j) ∧ u.mem = s.mem)) ∧
  (∀ (s : State) (q : Nat),
    let y := getCore s q
    let core := fun (u : State) z => getCore u q = z ∧ (∀ p, p ≠ q → getCore u p = getCore s p) ∧ { u with cores := s.cores } = s
    let woken := y.vstate = 1 ∧ y.vidle ≠ 0 ∧ y.vidle ≤ s.cycle
    let idle := y.vmode = 1 ∧ (y.vstate ≠ 1 ∨ woken) ∧ 1024 ≤ s.cycle - y.vidle
    (idle → Completes (.vbankRetention q) s fun u => core u { y with vstate := 1, vidle := 0 }) ∧
    (¬ idle → exec (.vbankRetention q) s = .next s) ∧
    (woken → Completes (.vbankWake q) s fun u => core u { y with vstate := 0 }) ∧
    (¬ woken → exec (.vbankWake q) s = .next s)) ∧
  (∀ (s : State) (dt : Nat), 0 < dt → ∃ w, passTime s dt = pollAway w ∧ ∀ q, (getCore w q).vmode = 1 → bankSleeps w q = true ∨ w.cycle - (getCore w q).vidle < 1024) ∧
  (∀ (i : Instr) (c : Common) (s : State), i.common = some c → Allowed i s → (c.kpt = true → killDue (me s) = false) → countersClear (me s) c = true →
    operandsBlock (me s) i = false → (me s).notBefore ≤ s.cycle → (∃ r ∈ vecRegs i, 16 ≤ r.toNat) → (myCore s).vstate = 1 →
    ((myCore s).vidle = 0 ∨ s.cycle < (myCore s).vidle) → Completes i s fun u =>
      u.strands = s.strands ∧ u.mem = s.mem ∧ (myCore u).vidle = (if (myCore s).vidle = 0 then s.cycle + 12 else (myCore s).vidle)) ∧
  (∀ (s : State) (q line : Nat), AllHomes s →
    Completes (.cacheEviction (.dcache q) line) s (fun u => coreLine u q line = none ∧ SameHomes s u q ∧ u.strands = s.strands ∧
      ∀ p, p ≠ q → ∀ l, coreLine u p l = coreLine s p l) ∧
    Completes (.cacheEviction (.l2 q) line) s (fun u => l2Line u q line = none ∧ (∀ p, p / 64 = q → SameHomes s u p) ∧ u.strands = s.strands ∧ u.cores = s.cores) ∧
    Completes (.cacheEviction (.icache q) line) s (fun u => mhas (getCore u q).icache line = false ∧ { u with cores := s.cores } = s ∧
      { getCore u q with icache := (getCore s q).icache } = getCore s q ∧ ∀ p, p ≠ q → getCore u p = getCore s p) ∧
    Completes (.cacheEviction (.tlbCore q) line) s (fun u => getCore u q = { getCore s q with tlb := (getCore s q).tlb.eraseIdx line } ∧
      (∀ p, p ≠ q → getCore u p = getCore s p) ∧ { u with cores := s.cores } = s) ∧
    Completes (.cacheEviction (.tlbCluster q) line) s (fun u =>
      getCluster u q = { getCluster s q with tlb := (getCluster s q).tlb.eraseIdx line } ∧
      (∀ p, p ≠ q → getCluster u p = getCluster s p) ∧ { u with clusters := s.clusters } = s))

namespace Sys2Proof.Claims

/-- Physical addresses of the device control block and of a cluster's control block (spec/20 R317). -/
def dcb (off : Nat) : Nat := 0xF01000000000 + off
def ccb (cl off : Nat) : Nat := 0xF00000000000 + 0x10000 * cl + off

/-- Between two states one context has become `y` and nothing else has changed. -/
def CtxIs (s u : State) (x : Nat) (y : Ctx) : Prop :=
  getCtx u x = y ∧ (∀ z, z ≠ x → getCtx u z = getCtx s z) ∧ { u with ctxs := s.ctxs } = s

/-- Between two states one ring has become `r` and nothing else has changed. -/
def RingIs (s u : State) (t : Nat) (r : Ring) : Prop :=
  getRing u t = r ∧ (∀ z, z ≠ t → getRing u z = getRing s z) ∧ { u with rings := s.rings } = s

/-- Between two states the debug module of a cluster has become `d` and nothing else has changed. -/
def DebugIs (s u : State) (cl : Nat) (d : Debug) : Prop :=
  getCluster u cl = { getCluster s cl with dm := d } ∧ (∀ z, z ≠ cl → getCluster u z = getCluster s z) ∧ { u with clusters := s.clusters } = s

/-- A link has become `l`; a change of its state produces a LINK record where tenant 0's ring takes one (spec/22 R367). -/
structure LinkIs (s u : State) (unit : Nat) (l : LinkUnit) : Prop where
  link : getLink u unit = l
  others : ∀ z, z ≠ unit → getLink u z = getLink s z
  rest : { u with links := s.links, recs := s.recs, dieSeq := s.dieSeq, srcStamp := s.srcStamp, mgmt := s.mgmt, unreach := s.unreach } = s
  quiet : (getLink s unit).state = l.state ∨ ringTakes s 0 0x50 = false → u.recs = s.recs
  record : (getLink s unit).state ≠ l.state → ringTakes s 0 0x50 = true → ∃ r, u.recs = s.recs ++ [r] ∧ r.ring = 0 ∧ r.lossless = false ∧
    r.words.drop 2 = [BitVec.ofNat 64 ((l.state + 16 * (getLink s unit).state + 2 ^ 8 * (l.width % 256) + 2 ^ 16 * (l.rate % 65536) + 2 ^ 32 * l.reason) % 2 ^ 63)]

/-- A strand whose wait a withdrawn grant has ended (spec/14 R284). -/
def turnedAway (x : Strand) : Strand := { x with wait := x.wait.map fun w => { w with what := .revoked } }

end Sys2Proof.Claims

/-- R317, R318, R322, R324, R335, R347, R367, R377, R381: the control space. A write of a register writes its writable bits where the register's rule admits it, and nothing else; a write of a
register with an action does what that action's own device step does; an address that is no control address has no register. An owner byte grants a core, whose pool, windows and tables are
then cleared, or an event resource, which is then reset and turns its waiters away; a doorbell makes line 0 pending on a strand of its context. (A write of DMDATA waits as its device step does, log 59; one of PIMG while a command is busy is ignored, log 68, and one of PCMD with CMD = 0, log 100.) -/
def Obligations.ControlRegisters : Prop :=
  (∀ (s : State) (v : Word) (pa : Nat), isControl (pa / 8 * 8) = false → exec (.registerWrite pa v) s = .next s) ∧
  (∀ (s : State) (v : Word) (x i : Nat), x < 16 → i < 8 → Completes (.registerWrite (dcb (64 * x + 8 * i)) v) s fun u =>
    CtxIs s u x { getCtx s x with desc := (getCtx u x).desc } ∧
    ∀ j, j < 512 → (getCtx u x).desc.getLsbD j = if j / 64 = i then
        v.getLsbD (j % 64) && decide (j = 0 ∨ (12 ≤ j ∧ j < 52) ∨ (66 ≤ j ∧ j < 121) ∨ (128 ≤ j ∧ j < 201) ∨ (204 ≤ j ∧ j < 224))
      else (getCtx s x).desc.getLsbD j) ∧
  (∀ (s : State) (v : Word) (x : Nat), x < 16 →
    let y := getCtx s x
    let at_ := fun off => Instr.registerWrite (dcb off) v
    let lq := fun off => Instr.registerWrite (dcb (0x800 + 64 * x + off)) v
    let n := v.toNat % 2 ^ 32
    let page := v &&& 0x000FFFFFFFFFF000#64
    (y.stat = 1 ∨ v.toNat % 4 = 0 → Completes (at_ (0x400 + 16 * x)) s fun u => CtxIs s u x y) ∧
    (y.stat ≠ 1 → v.toNat % 4 ≠ 0 → Completes (at_ (0x400 + 16 * x)) s fun u => CtxIs s u x { y with cmd := v.toNat % 4, stat := 1, reason := 0 }) ∧
    Completes (at_ (0x408 + 16 * x)) s (fun u => CtxIs s u x (if y.stat = 1 then y else { y with pimg := page })) ∧
    (y.lqhead ≠ y.lqtail → exec (lq 0) s = .next s ∧ exec (lq 8) s = .next s ∧ exec (lq 32) s = .next s) ∧
    (y.lqhead = y.lqtail → Completes (lq 0) s (fun u => CtxIs s u x { y with lqbase := page }) ∧
      Completes (lq 32) s (fun u => CtxIs s u x { y with cqbase := page }) ∧
      (v.toNat % 32 ≤ 16 → Completes (lq 8) s fun u => CtxIs s u x { y with lqcnt := v.toNat % 32 }) ∧
      (16 < v.toNat % 32 → exec (lq 8) s = .next s)) ∧
    exec (lq 16) s = exec (.lqtail x v) s ∧ exec (lq 40) s = exec (.cqhead x v) s ∧ exec (lq 56) s = exec (.dbell x v) s ∧
    (let used := (n + 2 ^ 32 - y.lqhead) % 2 ^ 32
     Completes (.lqtail x v) s fun u => CtxIs s u x (if 2 ^ y.lqcnt < used then { y with lqerr := true } else { y with lqtail := n })) ∧
    Completes (.cqhead x v) s (fun u => CtxIs s u x { y with cqhead := n }) ∧
    (let k := v.toNat % 4096
     let z := getStrand s k
     let names := v.toNat / 2 ^ 19 = 0 ∧ (v.getLsbD 18 = true → v.toNat / 4096 % 64 = s.devNo)
     (¬ names ∨ stCtx z ≠ x ∨ z.run = .stopped ∨ z.run = .absent → exec (.dbell x v) s = .next s) ∧
     (names → stCtx z = x → z.run = .running ∨ z.run = .saved → Completes (.dbell x v) s fun u =>
       getStrand u k = { z with irq := z.irq ||| 1#3 } ∧ (∀ j, j ≠ k → getStrand u j = getStrand s j) ∧ { u with strands := s.strands } = s))) ∧
  (∀ (s : State) (v : Word) (t : Nat), t < 16 →
    let r := getRing s t
    let reg := fun off => Instr.registerWrite (dcb (0xC00 + 64 * t + off)) v
    let on := fun (w : Word) => w.getLsbD 63 && decide (12 ≤ w.toNat % 32)
    let cfg := let w := v &&& 0x8017FFFFFFFFFF1F#64
      if on r.cfg then (w &&& ~~~ 31#64) ||| (r.cfg &&& 31#64) else w
    let r' := if on cfg && !on r.cfg then { r with cfg := cfg, wr := 0, rd := 0 } else { r with cfg := cfg }
    let held := fun (q : TraceRec) => q.ring == t && q.held
    (on r.cfg = true → exec (reg 0) s = .next s) ∧
    (on r.cfg = false → Completes (reg 0) s fun u => RingIs s u t { r with base := v &&& 0x000FFFFFFFFFF000#64 }) ∧
    (∀ j, j < 4 → Completes (reg (32 + 8 * j)) s fun u => RingIs s u t { r with filt := (getRing u t).filt } ∧
      ∀ b, b < 256 → (getRing u t).filt.getLsbD b = if b / 64 = j then v.getLsbD (b % 64) else r.filt.getLsbD b) ∧
    exec (reg 8) s = exec (.trcfg t v) s ∧ exec (reg 24) s = exec (.trrd t v) s ∧
    (on cfg = true → s.recs.any held = false → Completes (.trcfg t v) s fun u => RingIs s u t r') ∧
    (on cfg = false → Completes (.trcfg t v) s fun u =>
      getRing u t = { r' with drops := min (r'.drops + (s.recs.filter held).length) (2 ^ 32 - 1) } ∧ u.recs = s.recs.filter (!held ·) ∧
      u.strands = s.strands ∧ u.mem = s.mem ∧ ∀ z, z ≠ t → getRing u z = getRing s z) ∧
    (v.toNat < r.rd ∨ r.wr < v.toNat → exec (.trrd t v) s = .next s) ∧
    (r.rd ≤ v.toNat → v.toNat ≤ r.wr → s.recs.any held = false → Completes (.trrd t v) s fun u => RingIs s u t { r with rd := v.toNat })) ∧
  (∀ (s : State) (v : Word) (k n : Nat), k < 24 → n < 43 →
    let l := getLink s n
    let isLinkUnit := (8 ≤ n ∧ n < 28) ∨ (32 ≤ n ∧ n < 36) ∨ 40 ≤ n
    exec (.registerWrite (dcb 0x1000) v) s = .next { s with rasctl := v &&& 0x800000000007FFFF#64 } ∧
    exec (.registerWrite (dcb (0x1040 + 8 * k)) v) s = exec (.rascnt k v) s ∧
    exec (.registerWrite (dcb (0x1100 + 8 * n)) v) s = exec (.dis n (v.getLsbD 4)) s ∧
    exec (.registerWrite (dcb 0x1290) v) s = .next { s with ptp := { s.ptp with tod := v.toNat % 2 ^ 63 } } ∧
    (v ≠ 0 → exec (.rascnt k v) s = .next s) ∧
    Completes (.rascnt k 0) s (fun u => (∀ j, mget 0 u.rascnt j = if j = k then 0 else mget 0 s.rascnt j) ∧ { u with rascnt := s.rascnt } = s) ∧
    (∀ b, ¬ isLinkUnit → exec (.dis n b) s = .next s) ∧
    (isLinkUnit → Completes (.dis n true) s (fun u => LinkIs s u n { l with dis := true, state := 0, reason := if l.state = 0 then l.reason else 6, width := 0, rate := 0 } ∧ u.mgmt = s.mgmt) ∧
      Completes (.dis n false) s fun u => LinkIs s u n { l with dis := false, state := 1, width := 0, rate := 0 } ∧ u.mgmt = s.mgmt)) ∧
  (∀ (s : State) (v : Word) (cl off : Nat), cl < 16 → off % 8 = 0 →
    let w := fun o => Instr.registerWrite (ccb cl o) v
    let d := (getCluster s cl).dm
    (off < 0xA0 → exec (w off) s = (List.range 8).foldl (fun r j => match r with
      | .next t => exec (.ownerByteWrite cl (off + j) (v.extractLsb' (8 * j) 8)) t
      | r => r) (.next s)) ∧
    (0xA0 ≤ off → off < 0x400 → exec (w off) s = .next s) ∧
    (0x400 ≤ off → off < 0x1400 → Completes (w off) s fun u =>
      (∀ a, byteAt (getCluster u cl).pwinImg a = if off ≤ a ∧ a < off + 8 then
          (if off % 16 = 0 then v &&& 0xE000000000003FBF#64 else v).extractLsb' (8 * (a - off)) 8 else byteAt (getCluster s cl).pwinImg a) ∧
      { getCluster u cl with pwinImg := (getCluster s cl).pwinImg } = getCluster s cl ∧ (∀ z, z ≠ cl → getCluster u z = getCluster s z) ∧
      { u with clusters := s.clusters } = s) ∧
    Completes (w 0x2010) s (fun u => DebugIs s u cl { d with sel := v &&& 0xFF#64 }) ∧
    Completes (w 0x2020) s (fun u => DebugIs s u cl { d with addr := v &&& 0x3FFFFF8#64 }) ∧
    Completes (w 0x2030) s (fun u => DebugIs s u cl { d with lbp0 := v }) ∧ Completes (w 0x2038) s (fun u => DebugIs s u cl { d with lbp1 := v }) ∧
    Completes (w 0x2040) s (fun u => DebugIs s u cl { d with ica := v &&& 0x01FFFFFFFFFFFFFF#64 }) ∧
    exec (w 0x2018) s = exec (.dmpc cl v) s ∧ exec (w 0x2028) s = exec (.dmdataStore cl v) s ∧ exec (w 0x2048) s = exec (.dmicl cl v) s ∧
    (let c0 : State := modCluster s cl fun y => { y with dm := { y.dm with ctl := v &&& 0xFFFF0018#64 } }
     (v.toNat % 8 = 0 → exec (w 0x2000) s = .next c0) ∧ (v.toNat % 8 = 1 → exec (w 0x2000) s = exec (.haltreq cl) c0) ∧
     (v.toNat % 8 = 2 → exec (w 0x2000) s = exec (.runreq cl) c0) ∧ (v.toNat % 8 = 4 → exec (w 0x2000) s = exec (.dmStep cl) c0))) ∧
  (∀ (s : State) (cl off : Nat) (v : Byte),
    let i := Instr.ownerByteWrite cl off v
    let y := getCluster s cl
    let b := v &&& 0x8F#8
    let grant := fun (b : Byte) => if b.getLsbD 7 then some (b.toNat % 16) else none
    let bytes := fun (u : State) => (∀ o, byteAt (getCluster u cl).owners o = if o = off then b else byteAt y.owners o) ∧ u.mem = s.mem ∧
      ∀ z, z ≠ cl → getCluster u z = getCluster s z
    (16 ≤ cl ∨ 0xA0 ≤ off → exec i s = .next s) ∧
    (cl < 16 →
      (off < 0x40 → y.unav.getLsbD off = true → exec i s = .next s) ∧
      (off < 0x40 → y.unav.getLsbD off = false → Completes i s fun u =>
        let q := 64 * cl + off
        let z := getCore s q
        bytes u ∧ (∀ k, getStrand u k = if k / 4 = q ∧ z.launch = none ∧ z.owner ≠ grant b then clearFiles (getStrand s k) else getStrand s k) ∧
        (∀ p, p ≠ q → getCore u p = getCore s p) ∧
        getCore u q = if z.launch.isSome ∨ z.owner = grant b then z
          else { z with owner := grant b, pool := [], pwin := [], tables := [], tlb := z.tlb.filter fun e => some e.ctx != z.owner }) ∧
      (0x40 ≤ off → off < 0xA0 → grant b = grant (byteAt y.owners off) → Completes i s fun u => bytes u ∧ u.strands = s.strands ∧ u.cores = s.cores ∧
        { getCluster u cl with owners := y.owners } = y) ∧
      (grant b ≠ grant (byteAt y.owners off) →
        (∀ n, off = 0x40 + n → n < 0x40 → Completes i s fun u => bytes u ∧ getEv u cl n = EvLine.reset ∧
          ∀ k, getStrand u k = if k ∈ (getEv s cl n).q.map Prod.fst then turnedAway (getStrand s k) else getStrand s k) ∧
        (∀ n, off = 0x80 + n → n < 0x10 → Completes i s fun u => bytes u ∧ getBarc u cl n = BarCounter.reset ∧
          ∀ k, getStrand u k =
            if k ∈ (getBarc s cl n).q ∧ (∃ w, (getStrand s k).wait = some w ∧ w.what = .barc cl n) then turnedAway (getStrand s k) else getStrand s k) ∧
        (∀ n, off = 0x90 + n → n < 0x10 → Completes i s fun u => bytes u ∧ getMutex u cl n = Mutex.reset ∧
          ∀ k, getStrand u k = if ∃ a ∈ (getMutex s cl n).q, a.toNat % 4096 = k ∧ (a.getLsbD 18 = false ∨ a.toNat / 4096 % 64 = s.devNo) then
            turnedAway (getStrand s k) else getStrand s k)))) ∧
  (∀ (s : State) (x cl n : Nat), x < 16 → cl < 16 → 8 ≤ n → n < 28 →
    let y := getCtx s x
    let d := (getCluster s cl).dm
    let l := getLink s n
    ctlRead s (dcb 0x1280) 8 = (s.mgmt.state + 2 ^ 8 * s.mgmt.fail + 2 ^ 16 * (s.mgmt.nrep % 65536)) % 2 ^ 64 ∧
    ctlRead s (dcb (0x818 + 64 * x)) 8 = (y.lqhead + if y.lqerr then 2 ^ 63 else 0) % 2 ^ 64 ∧ ctlRead s (dcb (0x830 + 64 * x)) 8 = y.cqtail % 2 ^ 64 ∧
    ctlRead s (dcb (0x400 + 16 * x)) 8 = (y.cmd + 2 ^ 8 * y.stat + 2 ^ 12 * y.reason) % 2 ^ 64 ∧
    ctlRead s (dcb (0xC10 + 64 * x)) 8 = (getRing s x).wr % 2 ^ 64 ∧
    ctlRead s (dcb (0x1100 + 8 * n)) 8 = (l.state + (if l.dis then 16 else 0) + 2 ^ 8 * (l.width % 256) + 2 ^ 16 * (l.rate % 65536) + 2 ^ 32 * l.reason +
      2 ^ 40 * min l.retry (2 ^ 24 - 1)) % 2 ^ 64 ∧
    (d.halted = true → ctlRead s (ccb cl 0x2008) 8 = (1 + (if d.icbusy then 2 else 0) + 2 ^ 8 * d.cause + 2 ^ 16 * d.strand) % 2 ^ 64) ∧
    (d.halted = true → ctlRead s (ccb cl 0x2018) 8 = (getStrand s (256 * cl + d.sel.toNat % 256)).pc.toNat % 2 ^ 57) ∧
    (d.halted = false → ctlRead s (ccb cl 0x2018) 8 = 0) ∧
    ctlRead s (ccb cl 0xA0) 8 = (getCluster s cl).cpySlot.toNat ∧ ctlRead s (ccb cl 0xA8) 8 = (getCluster s cl).tkuSlot.toNat)

namespace Sys2Proof.Claims

/-- Core and pool offset that DMADDR names in a cluster (spec/21 R357). -/
def debugPlace (s : State) (cl : Nat) : Nat × Nat :=
  let a := (getCluster s cl).dm.addr.toNat % 2 ^ 26
  (64 * cl + a / 0x100000, a % 0x100000 / 8 * 8)

/-- A record has been written to its ring as it stands: its words lie at the write position, in order, and no other byte of memory has changed. -/
structure Written (s u : State) (t : Nat) (ws : List Word) : Prop where
  wr : getRing u t = { getRing s t with wr := (getRing s t).wr + ws.length }
  words : ∀ j, j < ws.length → readLE u.mem ((getRing s t).base.toNat + 8 * ((getRing s t).wr % ringCap (getRing s t) + j)) 8 = (ws.getD j 0).toNat
  memory : ∀ a, (a < (getRing s t).base.toNat + 8 * ((getRing s t).wr % ringCap (getRing s t)) ∨
    (getRing s t).base.toNat + 8 * ((getRing s t).wr % ringCap (getRing s t) + ws.length) ≤ a) → byteAt u.mem a = byteAt s.mem a
  rings : ∀ z, z ≠ t → getRing u z = getRing s z
  strands : ∀ k, SameRegs (getStrand s k) (getStrand u k)

/-- The ring is on, its home answers, it holds no drop count, and it has room for some words before its end, so that neither FILL nor GAP is needed (spec/21 R349, R350). -/
structure Fits (s : State) (t n : Nat) : Prop where
  on : ringOn (getRing s t) = true
  drops : (getRing s t).drops = 0
  run : (getRing s t).wr % ringCap (getRing s t) + n ≤ ringCap (getRing s t)
  free : (getRing s t).wr + n - (getRing s t).rd ≤ ringCap (getRing s t)
  home : ∀ j, j < ringCap (getRing s t) → noHome s ((getRing s t).base.toNat + 8 * j) = false

/-- A record is held by its producer, whose stall, if one runs, is now noted with it (spec/21 R352). -/
structure Held (s u : State) (idx : Nat) (r : TraceRec) : Prop where
  record : u.recs[idx]? = some { r with held := true, since := (s.recs.find? fun q => q.held && sameProducer q r && q.since.isSome).bind TraceRec.since }
  others : ∀ j q, j ≠ idx → s.recs[j]? = some q → u.recs[j]? = some (if q.held && sameProducer q r then { q with since := none } else q)
  length : u.recs.length = s.recs.length
  rest : { u with recs := s.recs } = s

/-- No strand's registers, counters or program counter have changed, and no byte of memory. -/
def Untouched (s u : State) : Prop := (∀ k, SameRegs (getStrand s k) (getStrand u k)) ∧ u.mem = s.mem

end Sys2Proof.Claims

/-- R349, R350, R352, R357 to R364: a record that fits is written to its ring where the ring stands; one that does not, or that follows a held one of its producer, is held by a lossless producer and else dropped and counted.
(Which retries stop, and what stall time a record carries, is log 71.) A halt request, also in a step (log 102), a cross-trigger, a resume and a step change the debug module and no register; DMPC redirects the selected strand of a halted cluster; DMDATA reads and writes the pool at
DMADDR, once what that waits for has come, and a bank that is OFF takes no store (log 59); DMICL drops the copies of a range of code at once (log 13); a wait of 2^26 cycles produces one LONGWAIT record. -/
def Obligations.DebugAndTrace : Prop :=
  (∀ (s : State) (idx : Nat) (r : TraceRec), s.recs[idx]? = some r → recBlocked s idx r = false →
    (r.held = false → Fits s r.ring r.words.length → Completes (.traceReservation idx) s fun u =>
      Written s u r.ring r.words ∧ u.recs = s.recs.eraseIdx idx) ∧
    (r.held = false → (getRing s r.ring).rd + ringCap (getRing s r.ring) < (getRing s r.ring).wr + r.words.length → Completes (.traceReservation idx) s fun u =>
      Untouched s u ∧ u.strands = s.strands ∧
      (r.lossless = true ∧ ringOn (getRing s r.ring) = true → Held s u idx r) ∧
      (r.lossless = false ∨ ringOn (getRing s r.ring) = false → u.recs = s.recs.eraseIdx idx ∧
        getRing u r.ring = { getRing s r.ring with drops := min ((getRing s r.ring).drops + 1) (2 ^ 32 - 1) })) ∧
    (r.held = true → exec (.traceReservation idx) s = .next s) ∧
    (r.held = true → r.since = none → Fits s r.ring r.words.length → Completes (.losslessRetry idx) s fun u =>
      Written s u r.ring r.words ∧ u.recs = s.recs.erase r) ∧
    (r.held = true → r.since = none → (getRing s r.ring).rd + ringCap (getRing s r.ring) < (getRing s r.ring).wr + r.words.length →
      exec (.losslessRetry idx) s = .next s) ∧
    (r.held = false → exec (.losslessRetry idx) s = .next s)) ∧
  (∀ (s : State) (idx : Nat) (r : TraceRec), s.recs[idx]? = some r → r.held = false → recBlocked s idx r = true →
    let behind := r.lossless = true ∧ ∃ q ∈ s.recs.take idx, q.held = true ∧ sameProducer q r = true
    (behind → Completes (.traceReservation idx) s (Held s · idx r)) ∧ (¬ behind → exec (.traceReservation idx) s = .next s)) ∧
  (∀ (s : State) (k : Nat) (w : Wait), (getStrand s k).wait = some w →
    let x := getStrand s k
    let count := (x.frozen.getD s.cycle) - w.since - w.paused
    let t := x.tenant.toNat % 16
    let mode := (getCore s (coreOf k)).desc.toNat / 2 ^ 196 % 4
    (w.noted = true ∨ count < 2 ^ 26 ∨ blockedOp w = 0 → exec (.longwait k) s = .next s) ∧
    (w.noted = false → 2 ^ 26 ≤ count → blockedOp w ≠ 0 → Completes (.longwait k) s fun u =>
      getStrand u k = { x with wait := some { w with noted := true } } ∧ (∀ j, j ≠ k → getStrand u j = getStrand s j) ∧ u.mem = s.mem ∧
      ((mode = 1 ∨ mode = 2) → ringTakes s t 0x38 = true → ∃ r, u.recs = s.recs ++ [r] ∧ r.ring = t ∧ r.strand = some k ∧
        r.words.drop 2 = [BitVec.ofNat 64 (x.pc.toNat % 2 ^ 63), BitVec.ofNat 64 (blockedOp w)]))) ∧
  (∀ (s : State) (cl : Nat), cl < 16 →
    let d := (getCluster s cl).dm
    let k := 256 * cl + d.sel.toNat % 256
    let dm := fun (u : State) (e : Debug) => (getCluster u cl).dm = e ∧ (∀ z, z ≠ cl → getCluster u z = getCluster s z) ∧ Untouched s u
    (d.halted = true → d.stepping = none → exec (.haltreq cl) s = .next s) ∧
    (d.halted = true → d.stepping ≠ none → Completes (.haltreq cl) s fun u => dm u { d with cause := 1, strand := 0, stepping := none } ∧
      u.xtrig = if d.ctl.getLsbD 4 then s.xtrig ++ [cl] else s.xtrig) ∧
    (d.halted = false → Completes (.haltreq cl) s fun u => dm u { d with halted := true, haltedAt := s.cycle + 1, cause := 1, strand := 0, stepping := none } ∧
      u.xtrig = if d.ctl.getLsbD 4 then s.xtrig ++ [cl] else s.xtrig) ∧
    (d.halted = false → exec (.runreq cl) s = .next s ∧ exec (.dmStep cl) s = .next s) ∧
    (d.halted = true → Completes (.runreq cl) s (fun u => dm u { d with halted := false, cause := 0, stepping := none }) ∧
      (d.stepping = none → Completes (.dmStep cl) s fun u => dm u { d with stepping := some k }) ∧ (d.stepping ≠ none → exec (.dmStep cl) s = .next s)) ∧
    Completes (.icbusyClear cl) s (fun u => DebugIs s u cl { d with icbusy := false }) ∧
    (s.xtrig = [] → exec .crossTrigger s = .next s) ∧
    (s.xtrig ≠ [] → Completes .crossTrigger s fun u => u.xtrig = [] ∧ Untouched s u ∧
      (getCluster u cl).dm =
        if d.ctl.getLsbD 3 ∧ d.halted = false then { d with halted := true, haltedAt := s.cycle + 1, cause := 2, strand := 0, stepping := none }
        else if d.ctl.getLsbD 3 ∧ d.stepping ≠ none then { d with cause := 2, strand := 0, stepping := none } else d)) ∧
  (∀ (s : State) (cl : Nat) (v : Word), cl < 16 →
    let d := (getCluster s cl).dm
    let k := 256 * cl + d.sel.toNat % 256
    let x := getStrand s k
    (d.halted = false → exec (.dmpc cl v) s = .next s) ∧
    (d.halted = true → Completes (.dmpc cl v) s fun u =>
      let y := getStrand u k
      y.pc = BitVec.ofNat 64 (v.toNat % 2 ^ 57) &&& ~~~ 3#64 ∧ y.resume = (if v.getLsbD 63 then 0 else x.resume) ∧ y.wait = none ∧ y.long = none ∧ y.loops = x.loops ∧
      (∀ r, getS y r = getS x r) ∧ (∀ r, getV y r = getV x r) ∧ (∀ r, getG y r = getG x r) ∧ (∀ r, getK y r = getK x r) ∧ y.status = x.status ∧
      (∀ j, j ≠ k → getStrand u j = getStrand s j) ∧ u.mem = s.mem)) ∧
  (∀ (s : State) (cl : Nat) (v : Word), cl < 16 →
    let q := (debugPlace s cl).1
    let off := (debugPlace s cl).2
    (dmWaits s cl = true → ∀ i ∈ [Instr.dmdataLoad cl, .dmdataStore cl v], Completes i s fun u => u.strands = s.strands ∧ u.mem = s.mem ∧
      { getCore u q with vidle := (getCore s q).vidle } = getCore s q ∧ (∀ p, p ≠ q → getCore u p = getCore s p) ∧
      (bankAt s q off = true → (getCore s q).vstate = 1 → (getCore s q).vidle = 0 → (getCore u q).vidle = s.cycle + 12)) ∧
    (dmWaits s cl = false →
      Completes (.dmdataLoad cl) s (fun u => u.strands = s.strands ∧ u.mem = s.mem ∧
        (∀ p, (getCore u p).pool = (getCore s p).pool) ∧ (∀ p, p ≠ q → getCore u p = getCore s p)) ∧
      (0x4000 ≤ off → Completes (.dmdataStore cl v) s fun u => u.strands = s.strands ∧ u.mem = s.mem ∧ (∀ p, p ≠ q → getCore u p = getCore s p) ∧
        ctlRead u (ccb cl 0x2028) 8 = v.toNat ∧ ∀ a, (a < off ∨ off + 8 ≤ a) → byteAt (getCore u q).pool a = byteAt (getCore s q).pool a) ∧
      (off < 0x4000 → off % 0x1000 < 0x400 → Completes (.dmdataStore cl v) s fun u => u = poolWrite s q off 8 v.toNat true) ∧
      (off < 0x4000 → 0x400 ≤ off % 0x1000 → ∀ r : VReg, off % 0x1000 / 64 = 16 + r.toNat → r.toNat < 16 → Completes (.dmdataStore cl v) s fun u =>
        u = poolWrite s q off 8 v.toNat true) ∧
      (off < 0x4000 → off % 0x1000 / 64 < 48 → 32 ≤ off % 0x1000 / 64 → (getCore s q).vmode = 2 → exec (.dmdataStore cl v) s = .next s) ∧
      (bankAt s q off = true → (getCore s q).vmode ≠ 2 → Completes (.dmdataStore cl v) s fun u => u.mem = s.mem ∧
        (∀ p, getCore u p = if p = q then { getCore s q with vidle := s.cycle, vstate := 0 } else getCore s p) ∧ ctlRead u (ccb cl 0x2028) 8 = v.toNat ∧
        ∀ k n, getV (getStrand u k) n = if k = 4 * q + off / 0x1000 ∧ n.toNat = off % 0x1000 / 64 - 16 then getV (getStrand u k) n else getV (getStrand s k) n))) ∧
  (∀ (y : Strand) (x va n : Nat), bufMeets y x va n = true ↔ stCtx y = x ∧ ∃ w ∈ y.rbuf, w.1 < va + n ∧ va < w.1 + 4 + 4 * (w.2.1 % 4)) ∧
  (∀ (s : State) (cl : Nat) (v : Word), cl < 16 →
    let d := (getCluster s cl).dm
    let x := v.toNat / 2 ^ 60
    let runs := runsOf s (64 * cl) x (getCtx s x).desc (d.ica.toNat % 2 ^ 57) (v.toNat % 2 ^ 32)
    (d.icbusy = true → exec (.dmicl cl v) s = .next s) ∧
    (d.icbusy = false → AllHomes s → Completes (.dmicl cl v) s fun u =>
      (getCluster u cl).dm = { d with icbusy := true } ∧ (∀ k, SameRegs (getStrand s k) (getStrand u k) ∧
        (getStrand u k).rbuf = if bufMeets (getStrand s k) x (d.ica.toNat % 2 ^ 57) (v.toNat % 2 ^ 32) then [] else (getStrand s k).rbuf) ∧
      (∀ q a, mhas (getCore u q).icache a = (mhas (getCore s q).icache a && !inRuns runs (a * 32) 32)) ∧
      (∀ q line, coreLine u q line = coreLine s q line) ∧ (∀ q line, lineInRuns runs line = true → l2Line u q line = none) ∧ ∀ q, SameHomes s u q))

namespace Sys2Proof.Claims

/-- A field of `n` bits of a record. -/
def fieldAt (r lo n : Nat) : Nat := r / 2 ^ lo % 2 ^ n

/-- The bits that a launch record reserves, with those of ENTRY that must be zero (spec/20 R325, R326). -/
def reservedInRecord (j : Nat) : Bool :=
  decide (j < 2 ∨ (57 ≤ j ∧ j < 64) ∨ (121 ≤ j ∧ j < 128) ∨ (272 ≤ j ∧ j < 288) ∨ j = 302 ∨ j = 303 ∨ (306 ≤ j ∧ j < 320) ∨ (352 ≤ j ∧ j < 384) ∨
    (441 ≤ j ∧ j < 448) ∨ 486 ≤ j)

/-- A record names a core by its cluster's bit of CLUS and its own of CORES (spec/20 R325). -/
def NamedCore (r q : Nat) : Prop := q < 1024 ∧ r.testBit (256 + q / 64) = true ∧ r.testBit (128 + q % 64) = true

/-- A PART word that R19 admits: one register-file granule, four regions that fill the pool, and no other bit but NSTR. -/
def PartAdmitted (p : Nat) : Prop :=
  fieldAt p 0 7 = 1 ∧ fieldAt p 0 7 + fieldAt p 8 7 + fieldAt p 16 7 + fieldAt p 24 7 = 64 ∧ p.testBit 7 = false ∧ p.testBit 15 = false ∧
    p.testBit 23 = false ∧ p.testBit 31 = false ∧ fieldAt p 34 30 = 0

/-- No cache holds a byte that has not been written home. -/
def AllClean (s : State) : Prop := ∀ q a, dirtyByte (coreLine s q (a / 128)) a = none ∧ dirtyByte (l2Line s q (a / 128)) a = none

/-- A strand as a launch starts it (spec/20 R327, spec/01 R17, R29, R31). -/
structure Started (y : Strand) (x : Nat) (d : BitVec 512) (r k : Nat) (mb : Nat → Word) : Prop where
  run : y.run = .running
  pc : y.pc = BitVec.ofNat 64 (fieldAt r 0 57)
  status : y.status.toNat = (if x = 0 then 1 else 0) + 4 + k % 4 * 2 ^ 8 + fieldAt r 304 2 * 2 ^ 10 + x * 2 ^ 12 + fieldAt d.toNat 192 2 * 2 ^ 16
  tvec : y.tvec.toNat = fieldAt d.toNat 66 55 * 4
  spillp : y.spillp = BitVec.ofNat 64 (fieldAt d.toNat 128 64) &&& 0x01FFFFFFFFFFFF81#64
  tenant : y.tenant.toNat = fieldAt d.toNat 204 4
  geom : y.geom.toNat % 2 ^ 14 = fieldAt r 288 14
  mailbox : ∀ j, j < 8 → mget 0 y.mb j = mb j
  fixed : y.oscale = 0x3F800000 ∧ y.cause = 0 ∧ y.epc = 0 ∧ y.tval = 0 ∧ y.resume = 0 ∧ y.nancnt = 0 ∧ y.prova = 0 ∧ y.provb = 0 ∧ y.jslot = 0
  registers : (∀ n, getS y n = 0) ∧ (∀ n, getV y n = 0) ∧ (∀ n, getG y n = decide (n = 7)) ∧ (∀ n, getK y n = if n = 0 then BitVec.allOnes 64 else 0) ∧
    (∀ n, getD y n = 0) ∧ ∀ n, getTile y n = 0x18000
  quiet : y.loops = [] ∧ y.wait = none ∧ y.long = none ∧ y.inflight = [] ∧ y.vtabQ = [] ∧ y.kills = [] ∧ y.mail = [] ∧ y.irq = 0

end Sys2Proof.Claims

/-- R324 to R328, R19, R17, R23, R54, R120, R170, R319: the launch controller takes the next slot of a context whose queue it serves. It refuses a record that fails a check, with the lowest reason and a
completion entry, and the RAS event of what its validation could not read (R332: `reportRefusal`); it starts a valid one when its cores stand free: strands, cores, mailbox and pool image as the record and the descriptor say; and it completes a launch whose strands have stopped and
whose engine commands have completed. That of several reasons the lowest is given is the model's choice (log 25), as are a slot that is read even
where it is poisoned and a ROOT that waits for room at its unit (log 62), the clearing of pending lines and mailboxes at the start (log 63), and a completion that waits for the commands of copy tasks and
for merged atomics as well (log 66). -/
def Obligations.Launches : Prop :=
  (∀ (s : State) (x r : Nat), x < 16 →
    let y := getCtx s x
    let i := Instr.launchStart x
    let slot := y.lqbase.toNat + 128 * (y.lqhead % 2 ^ y.lqcnt)
    let entry := y.cqbase.toNat + 16 * (y.cqtail % 2 ^ y.lqcnt)
    r = readLE s.mem slot 64 →
    (s.mgmt.state ≠ 4 ∨ y.saved = true ∨ (y.stat = 1 ∧ y.cmd = 1) ∨ y.lqhead = y.lqtail → exec i s = .next s) ∧
    (servesQueue s x = true → refuseReason s x r ≠ 0 → 2 ^ y.lqcnt ≤ (y.cqtail + 2 ^ 32 - y.cqhead) % 2 ^ 32 → exec i s = .next s) ∧
    (servesQueue s x = true → refuseReason s x r ≠ 0 → (y.cqtail + 2 ^ 32 - y.cqhead) % 2 ^ 32 < 2 ^ y.lqcnt → noHome s entry = false → Completes i s fun u =>
      let w := reportRefusal s x r (refuseReason s x r)
      (refuseReason s x r < 5 → w = s) ∧
      getCtx u x = { y with lqhead := (y.lqhead + 1) % 2 ^ 32, cqtail := (y.cqtail + 1) % 2 ^ 32 } ∧
      readLE u.mem entry 8 = fieldAt r 320 32 + 2 ^ 32 + refuseReason s x r * 2 ^ 40 ∧ readLE u.mem (entry + 8) 8 = dieTime s 0 % 2 ^ 63 ∧
      (∀ a, (a < entry ∨ entry + 16 ≤ a) → byteAt u.mem a = byteAt s.mem a) ∧ u.strands = w.strands ∧ u.cores = s.cores ∧ u.launches = s.launches ∧
      u.msix = w.msix ++ [x] ∧ ∀ z, z ≠ x → getCtx u z = getCtx s z) ∧
    (servesQueue s x = true → refuseReason s x r = 0 → canStart s r = false → exec i s = .next s)) ∧
  (∀ (s : State) (x r : Nat), r < 2 ^ 512 →
    let why := refuseReason s x r
    let valid := (getCtx s x).desc.getLsbD 0 = true
    let formed := ∀ j, j < 512 → reservedInRecord j = true → r.testBit j = false
    let parted := PartAdmitted (fieldAt r 192 64) ∧ fieldAt r 304 2 = fieldAt r 224 2
    let placed := fieldAt r 256 16 ≠ 0 ∧ fieldAt r 128 64 ≠ 0 ∧
      ∀ q, NamedCore r q → (getCore s q).owner = some x ∧ (getCluster s (q / 64)).unav.getLsbD (q % 64) = false
    (¬ valid → why = 1) ∧ (valid → ¬ formed → why = 2) ∧ (valid → formed → ¬ parted → why = 3) ∧ (valid → formed → parted → ¬ placed → why = 4) ∧
    (valid → formed → parted → placed → why = 0 ∨ why = 5 ∨ why = 6) ∧
    (valid → formed → parted → placed → fieldAt r 448 32 ≠ 0 →
      (fieldAt r 480 6 < 1 + fieldAt r 200 7 ∨ 0x100000 < fieldAt r 480 6 * 0x4000 + fieldAt r 448 32) → why = 5) ∧
    (valid → formed → parted → placed → fieldAt r 448 32 = 0 → fieldAt r 64 57 = 0 → why = 0) ∧
    (valid → formed → parted → placed → fieldAt r 448 32 = 0 → fieldAt r 64 57 % 64 ≠ 0 → why = 6)) ∧
  (∀ (s : State) (x r : Nat), x < 16 →
    let y := getCtx s x
    let d := y.desc
    let slot := y.lqbase.toNat + 128 * (y.lqhead % 2 ^ y.lqcnt)
    let plen := fieldAt r 448 32
    let porg := fieldAt r 480 6 * 0x4000
    let vm := fieldAt d.toNat 194 2
    r = readLE s.mem slot 64 → servesQueue s x = true → refuseReason s x r = 0 → canStart s r = true → Completes (.launchStart x) s fun u =>
      getCtx u x = { y with lqhead := (y.lqhead + 1) % 2 ^ 32 } ∧ u.launchNo = s.launchNo + 1 ∧
      u.launches = s.launches ++ [⟨s.launchNo, x, fieldAt r 320 32, fieldAt r 256 16, fieldAt r 128 64, BitVec.ofNat 64 (fieldAt r 192 64), d, 0, false⟩] ∧
      (∀ k, NamedCore r (k / 4) → k % 4 ≤ fieldAt r 304 2 → Started (getStrand u k) x d r k fun j => BitVec.ofNat 64 (readLE s.mem (slot + 64 + 8 * j) 8)) ∧
      (∀ k, NamedCore r (k / 4) → fieldAt r 304 2 < k % 4 → (getStrand u k).run = .absent) ∧
      (∀ k, ¬ NamedCore r (k / 4) → SameRegs (getStrand s k) (getStrand u k)) ∧
      (∀ q, NamedCore r q →
        let z := getCore u q
        z.part = BitVec.ofNat 64 (fieldAt r 192 64) ∧ z.launch = some s.launchNo ∧ z.desc = d ∧ z.vmode.toNat = (if vm = 3 then 0 else vm) ∧
        z.latch0.valid = false ∧ z.latch1.valid = false ∧ (∀ e, e < 16 → z.matSlot.getLsbD (4 * e + 3) = false) ∧
        (∀ e, e < 4 → mget 0 z.pwin e = BitVec.ofNat 128 (readLE (getCluster s (q / 64)).pwinImg (0x400 + 64 * (q % 64) + 16 * e) 16)) ∧
        ∀ a, (plen = 0 ∨ a < porg ∨ porg + plen ≤ a) → byteAt z.pool a =
          if 0x4000 ≤ a ∧ a < 0x4000 * (1 + fieldAt r 200 7) then 0 else byteAt (getCore s q).pool a) ∧
      (∀ q a key e, AllClean s → Memory.wf s.mem = true → (getCore s (64 * recFirst r)).tlb = [] → (getCluster s (recFirst r)).tlb = [] → NamedCore r q → a < plen →
        translate s (64 * recFirst r) x d (fieldAt r 384 57 + a) .read = some (key, e) → isControl key = false → byteAt (getCore u q).pool (porg + a) = byteAt s.mem key) ∧
      (fieldAt r 64 57 ≠ 0 → AllClean s → AllHomes s → s.poison = [] → ∃ t ∈ (getCluster u (recFirst r)).tasks, t.tcb = fieldAt r 64 57 ∧ t.ctx = x ∧ t.launch = s.launchNo)) ∧
  (∀ r, fieldAt r 256 16 ≠ 0 → r.testBit (256 + recFirst r) = true ∧ ∀ j, j < recFirst r → r.testBit (256 + j) = false) ∧
  (∀ (s : State) (idx : Nat) (l : Launch), s.launches[idx]? = some l →
    let y := getCtx s l.ctx
    let entry := y.cqbase.toNat + 16 * (y.cqtail % 2 ^ y.lqcnt)
    let ready := launchOver s l = true ∧ (y.cqtail + 2 ^ 32 - y.cqhead) % 2 ^ 32 < 2 ^ y.lqcnt ∧ launchDefers s l.ctx = false
    (¬ ready → exec (.launchComplete idx) s = .next s) ∧
    (ready → AllHomes s → noHome s entry = false → Completes (.launchComplete idx) s fun u =>
      readLE u.mem entry 8 = (l.lid + (if l.abort then 2 else 0) * 2 ^ 32 + min (orphansOf s l) 65535 * 2 ^ 48) % 2 ^ 64 ∧
      getCtx u l.ctx = { y with cqtail := (y.cqtail + 1) % 2 ^ 32 } ∧ u.launches = s.launches.filter (fun m => m.num != l.num) ∧ u.msix = s.msix ++ [l.ctx] ∧
      (∀ k, getStrand u k = if (getCore u (k / 4)).owner = (getCore s (k / 4)).owner then getStrand s k else clearFiles (getStrand s k)) ∧
      (∀ cl, (getCluster u cl).tasks = (getCluster s cl).tasks.filter fun t => t.launch != l.num) ∧
      ∀ q, q < 1024 → l.clus.testBit (q / 64) = true → l.cores.testBit (q % 64) = true → (getCore u q).launch = none ∧
        ∀ line z, coreLine u q line = some z → z.ctxs.getLsbD l.ctx = true → z.dirty = 0)) ∧
  (∀ (s : State) (l : Launch), launchOver s l = true → ∀ q, q < 1024 → l.clus.testBit (q / 64) = true → l.cores.testBit (q % 64) = true →
    ∀ j, j ≤ l.part.toNat / 2 ^ 32 % 4 → (getStrand s (4 * q + j)).run = .stopped)

namespace Sys2Proof.Claims

/-- A command of PCMD has ended for a context with a status and a reason, and nothing else of any context has changed (spec/20 R335). -/
def CommandEnds (s u : State) (x stat reason : Nat) (y : Ctx) : Prop :=
  getCtx u x = { y with stat := stat, reason := reason } ∧ ∀ z, z ≠ x → getCtx u z = getCtx s z

end Sys2Proof.Claims

/-- R335 to R340: SAVE stops the strands of a context at their next point and keeps their registers, waits until the context is at rest, runs the probe, and writes the image; RESTORE checks an image and
gives every strand its saved state back; DISCARD completes the interrupted launches as ABORTED and drops the strands. The sections of an image and the body of a STRAND section read back as they were
written, but for the bits that a register reserves, which are zero (R9); their places within a section are the model's choice, as are the save time, the
latest that the context carries, and what the launch controller keeps of a strand beside the image (log 14). No command goes on while the launch controller holds sixteen trace records of the context (R352). What a SAVE covers and when its strands stand still is log 68, the reasons for which an image cannot be had
logs 61 and 69, and the orphans of a discarded launch log 70. -/
def Obligations.Preemption : Prop :=
  (∀ (s : State) (x : Nat), x < 16 →
    let y := getCtx s x
    let busy := fun n => y.stat = 1 ∧ y.cmd = n ∧ launchDefers s x = false
    let recorded := fun k => ∃ r ∈ s.recs, r.strand = some k
    (¬ busy 1 → exec (.save x) s = .next s) ∧ (¬ busy 2 → exec (.restore x) s = .next s) ∧ (¬ busy 3 → exec (.discard x) s = .next s) ∧
    (busy 1 → Completes (.save x) s fun u => ∀ k,
      let z := getStrand s k
      let same := (getCore u (k / 4)).owner = (getCore s (k / 4)).owner
      (k ∉ ctxStrands s x → (same → SameRegs z (getStrand u k)) ∧ (getStrand u k).run = z.run) ∧
      (k ∈ ctxStrands s x → z.run = .running → insideIrqPoint z = true → z.vtabQ = [] → ¬ recorded k →
        let v := getStrand u k
        v.run = .saved ∧ v.wait = none ∧ v.long = none ∧ v.pc = z.pc ∧ v.resume = z.resume ∧ v.status = z.status ∧ v.loops = z.loops ∧ v.cause = z.cause ∧
        (same → (∀ r, getS v r = getS z r) ∧ (∀ r, getV v r = getV z r) ∧ (∀ r, getG v r = getG z r) ∧ ∀ r, getK v r = getK z r)) ∧
      (k ∈ ctxStrands s x → z.run = .running → insideIrqPoint z = false ∨ z.vtabQ ≠ [] ∨ recorded k → (getStrand u k).run = .running)) ∧
    (let cs := ctxCores s x
     let sum := ((cs.map fun c => ((getCore s c).outc : Int) - (getCore s c).inc).sum + if cdomOf y.desc = 0 then 0 else Config.awaySum s.tick) % 2 ^ 64
     let black := cs.any fun c => (getCore s c).recvFlag
     let w := dropCtxLines (probe s x cs).2 x (ctxClusters (probe s x cs).2 x) (coresIn (probe s x cs).2 (ctxClusters (probe s x cs).2 x))
     let base := y.pimg.toNat
     let len := (imageBytes w x).length
     busy 1 → (∀ k ∈ ctxStrands s x, (getStrand s k).run = .saved) →
     (atRest s x = false → exec (.save x) s = .next s) ∧
     (atRest s x = true → sum ≠ 0 ∨ black = true → Completes (.save x) s fun u =>
       getCtx u x = y ∧ u.strands = s.strands ∧ u.mem = s.mem ∧ ∀ c ∈ cs, (getCore u c).recvFlag = false) ∧
     (atRest s x = true → sum = 0 → black = false → rangeBacked base len = true → noHome s base = false → noHome s (base + len - 1) = false → AllHomes s →
       Completes (.save x) s fun u => CommandEnds s u x 2 0 { y with saved := true, kept := keptOf s x } ∧
       (∀ k, getStrand u k = if (getCore u (k / 4)).owner = (getCore s (k / 4)).owner then getStrand s k else clearFiles (getStrand s k)) ∧ (∀ j, j < len → byteAt u.mem (base + j) = (imageBytes w x).getD j 0)) ∧
     (atRest s x = true → sum = 0 → black = false → rangeBacked base len = false → AllHomes s → Completes (.save x) s fun u =>
       CommandEnds s u x 3 1 y ∧ u.strands = s.strands) ∧
     (atRest s x = true → sum = 0 → black = false → rangeBacked base len = true → noHome s base = true ∨ noHome s (base + len - 1) = true → Completes (.save x) s fun u =>
       CommandEnds s u x 3 2 y ∧ ∀ k, SameRegs (getStrand s k) (getStrand u k))) ∧
    (∀ e, busy 2 → readImage s x y.pimg.toNat = .error e → Completes (.restore x) s fun u =>
      CommandEnds s u x 3 e y ∧ u.strands = s.strands ∧ u.cores = s.cores ∧ u.clusters = s.clusters ∧ u.mem = s.mem) ∧
    (∀ time l, busy 2 → readImage s x y.pimg.toNat = .ok (time, l) →
      ((∃ q ∈ l, 4 ≤ q.ty ∧ ((getCore s (secCore q)).owner ≠ some x ∨ (getCore s (secCore q)).launch ≠ none)) → Completes (.restore x) s fun u =>
        CommandEnds s u x 3 3 y ∧ u.strands = s.strands ∧ u.cores = s.cores ∧ u.clusters = s.clusters ∧ u.mem = s.mem) ∧
      ((∀ q ∈ l, 4 ≤ q.ty → (getCore s (secCore q)).owner = some x ∧ (getCore s (secCore q)).launch = none) → Completes (.restore x) s fun u =>
        (getCtx u x).stat = 2 ∧ (getCtx u x).reason = 0 ∧ (getCtx u x).saved = false ∧ (getCtx u x).heldKills = [] ∧ (getCtx u x).kept = [] ∧
        (∀ q ∈ ofType l 5, ((ofType l 5).filter fun p => secStrand p == secStrand q).length = 1 → ∀ z, readBody (getStrandBody time) q = some z →
          let v := getStrand u (secStrand q)
          v.run = .running ∧ v.pc = z.pc ∧ v.wait = none ∧ v.long = none ∧ v.loops = z.loops ∧ v.shadow = z.shadow ∧ v.cause = z.cause ∧ v.epc = z.epc ∧
          v.tval = z.tval ∧ v.tvec = z.tvec ∧ v.resume = z.resume ∧ v.geom = geomOf (coreNo (secStrand q)) z.geom ∧ v.oscale = z.oscale ∧ v.nancnt = z.nancnt ∧ v.prova = z.prova ∧
          v.provb = z.provb ∧ v.spillp = z.spillp ∧ v.tenant = z.tenant ∧ v.jslot = z.jslot ∧ v.mail = z.mail ∧ v.copyN = z.copyN ∧ v.topkN = z.topkN ∧
          v.tabN = z.tabN ∧ v.rbufOk = z.rbufOk ∧ v.task = (y.kept.find? fun w => w.strand == secStrand q).bind Kept.task ∧ v.floor = time ∧ (∀ j, j ≠ 5 → v.status.getLsbD j = z.status.getLsbD j) ∧
          ∀ p, y.heldKills.find? (fun e => e.1 == secStrand q && e.2.record == p.record && e.2.pid == p.pid) = some (secStrand q, p) →
            (∀ e ∈ z.kills, ¬ (e.record = p.record ∧ e.pid = p.pid)) → p ∈ v.kills) ∧
        ∀ q ∈ ofType l 6, ((ofType l 6).filter fun p => secCore p == secCore q).length = 1 → ∀ n, n < 4 → n < liveCount (getCore u (secCore q)) →
          ∀ r : SReg, r ≠ 0 → getS (getStrand u (4 * secCore q + n)) r = BitVec.ofNat 64 (q.body.getD (0x200 * n + r.toNat) 0))) ∧
    (busy 3 → y.saved = false → Completes (.discard x) s fun u => CommandEnds s u x 2 0 y ∧ u.strands = s.strands ∧ u.mem = s.mem) ∧
    (busy 3 → y.saved = true → ∀ l, s.launches.find? (fun l => l.ctx == x) = some l →
      let entry := y.cqbase.toNat + 16 * (y.cqtail % 2 ^ y.lqcnt)
      let full := 2 ^ y.lqcnt ≤ (y.cqtail + 2 ^ 32 - y.cqhead) % 2 ^ 32
      (full → exec (.discard x) s = .next s) ∧
      (¬ full → noHome s entry = false → Completes (.discard x) s fun u => readLE u.mem entry 8 = (l.lid + 2 * 2 ^ 32 + min l.orph 65535 * 2 ^ 48) % 2 ^ 64 ∧
        u.launches = s.launches.filter (fun m => m.num != l.num) ∧ getCtx u x = { y with cqtail := (y.cqtail + 1) % 2 ^ 32 } ∧ u.strands = s.strands)) ∧
    (busy 3 → y.saved = true → (∀ l ∈ s.launches, l.ctx ≠ x) → Completes (.discard x) s fun u =>
      CommandEnds s u x 2 0 { y with saved := false, heldKills := [], kept := [] } ∧ u.mem = s.mem ∧
      ∀ k, getStrand u k = if (getStrand s k).run = .saved ∧ stCtx (getStrand s k) = x then Strand.reset else getStrand s k)) ∧
  (∀ (s : State) (x base : Nat),
    let h := readLE s.mem base 64
    let wrong := fieldAt h 0 32 ≠ 0x47435649 ∨ fieldAt h 32 16 ≠ 1 ∨ fieldAt h 48 4 ≠ x ∨ fieldAt h 56 6 ≠ s.devNo
    (rangeBacked base 64 = false → readImage s x base = .error 1) ∧
    (rangeBacked base 64 = true → noHome s base = true ∨ rangePoisoned s base 64 = true → readImage s x base = .error 2) ∧
    (rangeBacked base 64 = true → noHome s base = false → rangePoisoned s base 64 = false → wrong → readImage s x base = .error 3)) ∧
  (∀ (s : State) (x : Nat), x < 16 → s.devNo < 64 → (imageBytes s x).length < 2 ^ 64 →
    let h := leOf ((imageBytes s x).take 64)
    fieldAt h 0 32 = 0x47435649 ∧ fieldAt h 32 16 = 1 ∧ fieldAt h 48 4 = x ∧ fieldAt h 56 6 = s.devNo ∧ fieldAt h 64 64 = (imageBytes s x).length ∧
    fieldAt h 128 63 = saveTime s x % 2 ^ 63 ∧ dieTime s 0 ≤ saveTime s x) ∧
  (∀ l : List Section, (∀ q ∈ l, q.ty < 2 ^ 16 ∧ q.cl < 16 ∧ q.core < 64 ∧ q.strand < 4) →
    getSections ((l.flatMap sectionWords).length + 1) (l.flatMap sectionWords) = some l) ∧
  (∀ (s : State) (k time : Nat), ∃ y, getStrandBody time (strandWords s k) = some (y, []) ∧
    let x := getStrand s k
    let held := fun n (v : Word) => v &&& crBits n
    y.pc = x.pc &&& ~~~ 3#64 ∧ y.loops = x.loops ∧ y.shadow = x.shadow ∧ y.status = held 0 x.status ∧ y.cause = held 1 x.cause ∧ y.epc = x.epc ∧ y.tval = x.tval ∧
    y.tvec = held 4 x.tvec ∧ y.resume = x.resume ∧ y.geom = held 6 x.geom ∧ y.oscale = held 0x10 x.oscale ∧ y.nancnt = held 0x11 x.nancnt ∧ y.prova = held 0x12 x.prova ∧
    y.provb = held 0x13 x.provb ∧ y.spillp = held 0x16 x.spillp ∧ y.tenant = held 0x17 x.tenant ∧ y.jslot = held 0x18 x.jslot ∧ (∀ j, j < 8 → mget 0 y.mb j = mget 0 x.mb j) ∧ y.rbufOk = x.rbufOk ∧ y.floor = time ∧
    y.mail = (x.mail.map fun m => { m with time := time }) ∧ y.kills = (x.kills.map fun p => { p with time := time }) ∧ y.copyN.iss = x.copyN.iss ∧ y.copyN.cmp = x.copyN.cmp ∧ y.topkN.iss = x.topkN.iss ∧ y.topkN.cmp = x.topkN.cmp ∧
    y.tabN.iss = x.tabN.iss ∧ y.tabN.cmp = x.tabN.cmp) ∧
  (∀ j, j < 64 → ((crBits 0).getLsbD j = decide (j = 0 ∨ (2 ≤ j ∧ j ≤ 5) ∨ (8 ≤ j ∧ j < 18)) ∧ (crBits 1).getLsbD j = decide (j < 8 ∨ j = 63) ∧
    (crBits 4).getLsbD j = decide (2 ≤ j) ∧ (crBits 6).getLsbD j = decide (j < 21) ∧ (crBits 0x10).getLsbD j = decide (j < 32) ∧ (crBits 0x11).getLsbD j = decide (j < 32) ∧
    (crBits 0x12).getLsbD j = decide (20 ≤ j) ∧ (crBits 0x13).getLsbD j = decide (2 ≤ j ∧ j < 57) ∧
    (crBits 0x16).getLsbD j = decide (j = 0 ∨ (7 ≤ j ∧ j < 57)) ∧ (crBits 0x17).getLsbD j = decide (j < 4) ∧ (crBits 0x18).getLsbD j = decide (8 ≤ j))) ∧
  (∀ (l r : List Nat) (c : CoreImage), getCoreBody l = some (c, r) → c.vmode ≠ 3 ∧
    (∀ j, j < 64 → j = 7 ∨ j = 15 ∨ j = 23 ∨ j = 31 ∨ 34 ≤ j → c.part.getLsbD j = false) ∧
    (∀ e, e < 16 → c.matSlot.getLsbD (4 * e + 2) = false) ∧
    ∀ e, e < 4 → ∀ j, j = 6 ∨ (14 ≤ j ∧ j < 61) → (mget 0 c.pwin e).getLsbD j = false)

namespace Sys2Proof.Claims

/-- A cascade port's unit number, and the least and the full width of a link (spec/22 R367, R368, R371, R372, R375). -/
def cascadeUnit (n : Nat) : Prop := 16 ≤ n ∧ n < 28
def linkUnitNo (n : Nat) : Prop := (8 ≤ n ∧ n < 28) ∨ (32 ≤ n ∧ n < 36) ∨ (40 ≤ n ∧ n < 43)
def widthOfLink (n : Nat) : Nat := if n < 16 then 32 else if n < 40 then 8 else 16

/-- A link has trained: one that was DOWN has begun to train first. Its record, or those two, tell of it where tenant 0's ring takes them, and flits that waited in the fabric interface
may have left (spec/22 R366, R367, R373). -/
structure Trained (s u : State) (unit : Nat) (l : LinkUnit) : Prop where
  link : { getLink u unit with txSeq := l.txSeq, unacked := l.unacked } = l
  others : ∀ z, z ≠ unit → { getLink u z with txSeq := (getLink s z).txSeq, unacked := (getLink s z).unacked } = getLink s z
  still : s.fabricQ = [] → getLink u unit = l ∧ u.fabricQ = [] ∧ ∀ z, z ≠ unit → getLink u z = getLink s z
  rest : { u with links := s.links, recs := s.recs, dieSeq := s.dieSeq, srcStamp := s.srcStamp, mgmt := s.mgmt, unreach := s.unreach, fabricQ := s.fabricQ } = s
  quiet : ringTakes s 0 0x50 = false → u.recs = s.recs
  records : ringTakes s 0 0x50 = true → ∃ rs, u.recs = s.recs ++ rs ∧ (∀ r ∈ rs, r.ring = 0 ∧ r.lossless = false) ∧
    rs.map (fun r => r.words.drop 2) =
      (if (getLink s unit).state = 0 then [[BitVec.ofNat 64 ((1 + 2 ^ 32 * (getLink s unit).reason) % 2 ^ 63)]] else []) ++
        [[BitVec.ofNat 64 ((l.state + 16 + 2 ^ 8 * (l.width % 256) + 2 ^ 16 * (l.rate % 65536) + 2 ^ 32 * l.reason) % 2 ^ 63)]]

/-- An uncorrected error has been reported: its kind's count is one higher, holding at all ones, the host is told, and nothing but that, trace records and the pending
interrupt lines of strands has changed (spec/22 R368, R379, R381). -/
def Reported (s u : State) (kind : Nat) : Prop :=
  (∀ j, (mget 0 u.rascnt j).toNat = if j = kind then (mget 0 s.rascnt j).toNat % 2 ^ 32 + min ((mget 0 s.rascnt j).toNat / 2 ^ 32 + 1) (2 ^ 32 - 1) * 2 ^ 32
    else (mget 0 s.rascnt j).toNat) ∧
  (∀ k, { getStrand u k with irq := (getStrand s k).irq } = getStrand s k) ∧
  u.msix = s.msix ++ [16] ∧
  { u with rascnt := s.rascnt, recs := s.recs, dieSeq := s.dieSeq, srcStamp := s.srcStamp, msix := s.msix, strands := s.strands } = s

/-- A load on its way would trap if it were performed now (spec/22 R374, R379). -/
def LoadFails (s : State) (k : Nat) (f : Flight) : Prop := ∃ p, f.load = some p ∧ ∃ l ∈ p.lanes, LaneFails s k p l

end Sys2Proof.Claims

/-- R366 to R377: links train, lose lanes and go down as their rules say, and leave FAILED by a write of DIS alone; flits of the cascade are accepted in the order of their VC, acknowledged and performed
or passed on, and the sixteenth retry fails a port; writes of merged reductions go by VC 2, those of barriers and joins by VC 3; requests of one cycle
for a unit are taken in the order of their senders (log 53), and an RDREM's value that comes after its window is discarded; requests and loads bound for a device that becomes unreachable
fail; a queue pair serves once it has been created; the host, where a decoder range exposes it, and the network read and write memory at its
home; the clock changes its states. The reasons of a failed training, what training keeps, and when a flow waits are log 72; the sequence numbers, counted for each VC, log 80; where a strand stands that traps for what it sent, log 103; messages of the cascade log 18; the selection of the clock's master log 75; what management sets, and a pause, log 76. -/
def Obligations.LinksAndClock : Prop :=
  (∀ (s : State) (n : Nat) (x : TrainInput),
    let l := getLink s n
    let w := x.width.toNat
    let least := if 16 ≤ n ∧ n < 28 then 4 else 1
    let may := n = 40 ∨ s.mgmt.state = 3 ∨ s.mgmt.state = 4
    let up := x.partner = true ∧ ¬ (cascadeUnit n ∧ x.mismatch = true) ∧ x.timeout = false ∧ least ≤ w
    let fresh := fun (l : LinkUnit) => { l with retry := 0, tries := [] }
    let down := fun (u : State) state reason => Trained s u n (fresh { l with state := state, width := 0, rate := 0, reason := reason }) ∧ u.mgmt = s.mgmt ∧ u.unreach = s.unreach
    (¬ linkUnitNo n ∨ l.dis = true ∨ 2 ≤ l.state ∨ ¬ may → exec (.linkTraining n x) s = .next s) ∧
    (linkUnitNo n → l.dis = false → l.state < 2 → may →
      (up → Completes (.linkTraining n x) s fun u =>
        Trained s u n (fresh { l with state := (if x.full = true ∧ widthOfLink n ≤ w then 2 else 3), width := w, rate := x.rate.toNat }) ∧
        (cascadeUnit n → u.unreach = []) ∧ (¬ cascadeUnit n → u.unreach = s.unreach) ∧
        u.mgmt = (if s.mgmt.state = 3 ∧ ((List.range 8).all fun b => (getLink u (8 + b)).state == 2) = true ∧ (getLink u 40).state = 2 then { s.mgmt with state := 4 } else s.mgmt)) ∧
      (x.partner = false → Completes (.linkTraining n x) s (down · 0 1)) ∧
      (x.partner = true → cascadeUnit n → x.mismatch = true → Completes (.linkTraining n x) s (down · 4 5)) ∧
      (x.partner = true → ¬ (cascadeUnit n ∧ x.mismatch = true) → x.timeout = true → Completes (.linkTraining n x) s (down · 4 2)) ∧
      (x.partner = true → ¬ (cascadeUnit n ∧ x.mismatch = true) → x.timeout = false → w < least → Completes (.linkTraining n x) s (down · 4 4)))) ∧
  (∀ (s : State) (n : Nat) (lanes : BitVec 8),
    let l := getLink s n
    let least := if 16 ≤ n ∧ n < 28 then 4 else 1
    let goes := fun m => Completes (.laneLoss n lanes) s fun u => LinkIs s u n m ∧ u.mgmt = s.mgmt ∧ u.unreach = s.unreach
    (¬ linkUnitNo n ∨ l.state < 2 ∨ 3 < l.state ∨ l.width ≤ lanes.toNat → exec (.laneLoss n lanes) s = .next s) ∧
    (linkUnitNo n → l.state = 2 ∨ l.state = 3 → lanes.toNat < l.width →
      (lanes.toNat < least → goes { l with state := 4, width := 0, rate := 0, reason := 4 }) ∧
      (least ≤ lanes.toNat → goes { l with state := 3, width := lanes.toNat }))) ∧
  (∀ (s : State) (n : Nat), (getLink s n).state = 4 → ∀ i t, (∃ x, i = .linkTraining n x) ∨ (∃ b, i = .laneLoss n b) ∨ (∃ x, i = .flitRetry x) →
    exec i s = .next t → (getLink t n).state = 4) ∧
  (∀ (s : State) (p : Nat) (h : Word) (body : List Byte) (msgs : List CascadeMsg) (ok room : Bool),
    let l := getLink s (16 + p)
    let vc := h.toNat % 4
    let seq := fun (f : Flit) => f.header.toNat / 2 ^ 8 % 2 ^ 8
    let own := fun (f : Flit) => f.header.toNat % 4 == vc
    let ack := h.toNat / 2 ^ 16 % 2 ^ 8
    let dev := h.toNat / 2 ^ 24 % 2 ^ 6
    let i := Instr.cascadeFlit p h ⟨body, msgs⟩ ok room
    let kept := fun z => if z = p then (ackFlits vc ack l.unacked).getD l.unacked else (getLink s (16 + z)).unacked
    let moves := dev ≠ s.devNo ∧ ∃ q z, routeOf s dev = some q ∧ z < 12 ∧ z ≠ q ∧ ∃ f ∈ kept z, f.header.toNat / 2 ^ 24 % 2 ^ 6 = dev
    let next := p < 12 ∧ (l.state = 2 ∨ l.state = 3) ∧ ok = true ∧ room = true ∧ h.toNat / 2 ^ 8 % 2 ^ 8 = mget 0 l.rxSeq vc
    let mine := fun (u : State) => (∀ v, mget 0 (getLink u (16 + p)).rxSeq v = if v = vc then (mget 0 l.rxSeq vc + 1) % 256 else mget 0 l.rxSeq v) ∧
      (∀ a f b, l.unacked.filter own = a ++ f :: b → seq f = ack → (∀ g ∈ a, seq g ≠ ack) → mget 0 (getLink u (16 + p)).tries vc = 0 ∧
        (getLink u (16 + p)).unacked.filter own = b.filter (fun g => !(a ++ [f]).contains g) ∧
        (getLink u (16 + p)).unacked.filter (!own ·) = l.unacked.filter (!own ·)) ∧
      ((∀ g ∈ l.unacked, own g = true → seq g ≠ ack) → (getLink u (16 + p)).unacked = l.unacked ∧ (getLink u (16 + p)).tries = l.tries) ∧ { u with links := s.links } = s
    (¬ next → exec i s = .next s) ∧
    (next → s.fabricQ = [] →
      (moves → exec i s = .next s) ∧
      (dev = s.devNo → Completes i s fun u => ∃ w, mine w ∧ (∀ z, z ≠ 16 + p → getLink w z = getLink s z) ∧ u = msgs.foldl takeMsg w) ∧
      (dev ≠ s.devNo → routeOf s dev = none → Completes i s fun u => mine u ∧ ∀ z, z ≠ 16 + p → getLink u z = getLink s z) ∧
      (dev ≠ s.devNo → ¬ moves → ∀ q, routeOf s dev = some q → q ≠ p → Completes i s fun u => mine u ∧ (∀ z, z ≠ 16 + p → z ≠ 16 + q → getLink u z = getLink s z) ∧
        let m := getLink s (16 + q)
        ∃ f, getLink u (16 + q) = { m with txSeq := (getLink u (16 + q)).txSeq, unacked := m.unacked ++ [f] } ∧ f.payload = body ∧ seq f = mget 0 m.txSeq vc % 256 ∧
          (∀ v, mget 0 (getLink u (16 + q)).txSeq v = if v = vc then (mget 0 m.txSeq vc + 1) % 256 else mget 0 m.txSeq v) ∧
          f.header.toNat / 2 ^ 16 % 2 ^ 8 = (mget 0 m.rxSeq vc + 255) % 256 ∧ f.header.toNat % 2 ^ 8 = h.toNat % 2 ^ 8 ∧ f.header.toNat / 2 ^ 24 = h.toNat / 2 ^ 24))) ∧
  (∀ (w : State) (pa : Nat) (data : List Byte) (fn : AmoFn) (t : Ty) (v k time : Nat) (a : Word),
    let b := pa % 2 ^ 52
    (b + data.length ≤ 0x8000000000 → isNear pa = true → ∀ j, byteAt (takeMsg w (.write pa data)).mem j =
      if b ≤ j ∧ j < b + data.length then data.getD (j - b) 0 else byteAt w.mem j) ∧
    (b < 0x8000000000 → isNear pa = true → 8 ≤ t.width → readLE (takeMsg w (.atomic fn t pa v)).mem b (t.width / 8) =
      amoValue fn t (readLE w.mem b (t.width / 8)) v % 256 ^ (t.width / 8)) ∧
    (rangePoisoned w pa v = true → Reported w (takeMsg w (.read pa v)) (kindOfLoc pa)) ∧ (rangePoisoned w pa v = false → takeMsg w (.read pa v) = w) ∧
    (∀ sender cdom r unit, reqUnit r = some unit → mayAsk w unit sender.toNat = false →
      let u := takeMsg w (.request cdom sender time r)
      { u with awayReqs := w.awayReqs } = w ∧ (∃ b c, w.awayReqs = b ++ c ∧ u.awayReqs = b ++ ⟨cdom, sender, time, r, w.cycle⟩ :: c ∧
        (∀ e ∈ b, e.sender.toNat ≤ sender.toNat) ∧ ∀ e, c.head? = some e → sender.toNat < e.sender.toNat)) ∧
    (∀ y, (getStrand w k).wait = some y → lateRead w k y = true → takeMsg w (.answer k (some a) time) = w ∨ ∀ d, y.what ≠ .away d) ∧
    (∀ y d, (getStrand w k).wait = some y → y.what = .away d → y.served = none → lateRead w k y = false →
      (getStrand (takeMsg w (.answer k (some a) time)) k).wait = some { y with served := some a } ∧
      (∀ r, getS (getStrand (takeMsg w (.answer k (some a) time)) k) r = getS (getStrand w k) r) ∧
      ∀ j, j ≠ k → getStrand (takeMsg w (.answer k (some a) time)) j = getStrand w j)) ∧
  (∀ (s : State) (n vc : Nat),
    let l := getLink s n
    let carries := l.state = 2 ∨ l.state = 3
    let own := l.unacked.filter fun f => f.header.toNat % 4 == vc
    let count := min (l.retry + 1) (2 ^ 24 - 1)
    let i := Instr.flitRetry ⟨n, vc⟩
    let only := fun m => Completes i s fun u => getLink u n = m ∧ (∀ z, z ≠ n → getLink u z = getLink s z) ∧ { u with links := s.links } = s
    (¬ linkUnitNo n ∨ ¬ carries → exec i s = .next s) ∧
    (linkUnitNo n → carries → ¬ cascadeUnit n → only { l with retry := count }) ∧
    (cascadeUnit n → carries → own = [] → exec i s = .next s) ∧
    (cascadeUnit n → carries → own ≠ [] → 15 ≤ mget 0 l.tries vc → Completes i s fun u =>
      LinkIs s u n { l with state := 4, width := 0, rate := 0, reason := 3, retry := count, tries := (getLink u n).tries } ∧ u.mgmt = s.mgmt ∧ u.unreach = s.unreach) ∧
    (cascadeUnit n → carries → own ≠ [] → mget 0 l.tries vc < 15 → Completes i s fun u =>
      getLink u n = { l with retry := count, tries := (getLink u n).tries } ∧
      (∀ v, mget 0 (getLink u n).tries v = if v = vc then mget 0 l.tries vc + 1 else mget 0 l.tries v) ∧
      (∀ z, z ≠ n → getLink u z = getLink s z) ∧ { u with links := s.links } = s)) ∧
  (∀ (s : State) (dev : Nat),
    let on := fun key => 2 ^ 52 ≤ key ∧ key / 2 ^ 52 - 1 = dev
    let failed := fun (u : State) (k : Nat) (t : Word) =>
      let x := getStrand s k
      let y := getStrand u k
      y.cause = 0xE ∧ y.tval = t ∧ y.epc = x.pc ∧ y.pc = x.tvec &&& ~~~ 3#64 ∧ stPriv y = true ∧ y.wait = none ∧ (∀ r, getS y r = getS x r) ∧
        (∀ r, getV y r = getV x r) ∧ (∀ r, getG y r = getG x r) ∧ ∀ r, getK y r = getK x r
    (dev = s.devNo ∨ 64 ≤ dev → exec (.deviceUnreachable dev) s = .next s) ∧
    let lost : State := { s with unreach := dev :: s.unreach }
    (dev ≠ s.devNo → dev < 64 → (∀ r ∈ s.reductions, ¬ on r.pa) → (∀ k, ∀ f ∈ (getStrand s k).inflight, ¬ LoadFails lost k f) → Completes (.deviceUnreachable dev) s fun u =>
      dev ∈ u.unreach ∧ (∀ d, d ∈ s.unreach → d ∈ u.unreach) ∧ u.mem = s.mem ∧ u.reductions = s.reductions ∧
      u.childArr = s.childArr.filter (fun a => !onDevice dev a.key) ∧ u.stalls = s.stalls.filter (fun m => !onDevice dev m.key) ∧
      u.kills = s.kills.filter (fun m => !(match m.who with
        | .strand a _ => decide (a.toNat / 2 ^ 12 % 2 ^ 6 = dev)
        | .join key _ => onDevice dev key
        | .copy .. => false)) ∧
      ∀ k,
        let x := getStrand s k
        (∀ w key, x.wait = some w → w.served = none → w.what = .lock key → on key → failed u k (BitVec.ofNat 64 (w.arg.toNat % 2 ^ 57))) ∧
        (∀ w key, x.wait = some w → w.served = none → w.what = .join key → on key → failed u k w.arg) ∧
        (∀ w, x.wait = some w → w.served = none → w.what = .away dev → failed u k (if isUnitKind (hKind w.arg) then w.arg else BitVec.ofNat 64 (w.arg.toNat % 2 ^ 19))) ∧
        (x.wait = none → SameRegs x (getStrand u k))) ∧
    (dev ≠ s.devNo → dev < 64 → ∀ k,
      let x := getStrand s k
      let idle := x.run = .running ∧ x.wait = none ∧ x.long = none
      let counts := fun (u : State) (ctr : BitVec 3) => ∀ j, getD (getStrand u k) j = if ctr ≠ 7 ∧ ctr.toNat = j then getD x j - 1 else getD x j
      (∀ r o, s.reductions = [r] → on r.pa → r.owners = [o] → o.strand = k → idle → (∀ k, ∀ f ∈ (getStrand s k).inflight, ¬ LoadFails lost k f) →
        (x.vtabQ ≠ [] → Completes (.deviceUnreachable dev) s fun u => u.reductions = [r] ∧ SameRegs x (getStrand u k)) ∧
        (x.vtabQ = [] → Completes (.deviceUnreachable dev) s fun u => u.reductions = [] ∧ failed u k (BitVec.ofNat 64 o.va) ∧ counts u o.ctr)) ∧
      (∀ f p a l b, (∀ r ∈ s.reductions, ¬ on r.pa) → x.inflight = [f] → f.load = some p → p.lanes = a ++ l :: b → (∀ e ∈ a, ¬ LaneFails lost k p e) → LaneFails lost k p l →
        (∀ j, j ≠ k → ∀ f ∈ (getStrand s j).inflight, ¬ LoadFails lost j f) → idle →
        (x.vtabQ ≠ [] → Completes (.deviceUnreachable dev) s fun u => (getStrand u k).inflight = [f] ∧ SameRegs x (getStrand u k)) ∧
        (x.vtabQ = [] → Completes (.deviceUnreachable dev) s fun u => (getStrand u k).inflight = [] ∧ failed u k (BitVec.ofNat 64 l.va) ∧ counts u f.ctr)))) ∧
  (∀ (s : State) (key n v q : Nat), 2 ^ 52 ≤ key →
    let dev := key / 2 ^ 52 - 1
    dev < 64 → routeOf s dev = some q → flowWaits s dev q = false → s.fabricQ = [] → ∀ vc u, vc = 0 ∧ u = homeWrite s key n v ∨ vc = 2 ∧ u = reduceWrite s key n v ∨
      vc = 3 ∧ u = meetWrite s key n v → ∃ f : Flit, (getLink u (16 + q)).unacked = (getLink s (16 + q)).unacked ++ [f] ∧ f.header.toNat % 2 ^ 2 = vc ∧
        f.header.toNat / 2 ^ 24 % 2 ^ 6 = dev ∧ ∀ z, z ≠ 16 + q → getLink u z = getLink s z) ∧
  (∀ (s : State) (pa n : Nat) (data : List Byte),
    let open_ := (∃ r ∈ s.hdm, r.1 ≤ pa ∧ pa + n ≤ r.1 + r.2) ∧ pa + n ≤ 0x8000000000
    (¬ open_ → ∀ w, exec (.cxlMemRequest w pa n data) s = .next s) ∧
    (open_ → data.length = n → Completes (.cxlMemRequest true pa n data) s fun u =>
      (∀ a, byteAt u.mem a = if pa ≤ a ∧ a < pa + n then data.getD (a - pa) 0 else byteAt s.mem a) ∧
      (∀ v, v ∈ u.poison ↔ v ∈ s.poison ∧ ¬ (pa ≤ v ∧ v + 8 ≤ pa + n)) ∧ { u with mem := s.mem, poison := s.poison } = s) ∧
    (open_ → (∀ v ∈ s.poison, ¬ (v < pa + n ∧ pa < v + 8)) → exec (.cxlMemRequest false pa n data) s = .next s) ∧
    (open_ → 0 < n → (∃ v ∈ s.poison, v < pa + n ∧ pa < v + 8) → Completes (.cxlMemRequest false pa n data) s fun u => Reported s u 4)) ∧
  (∀ (s : State) (cl line : Nat), cl < 16 →
    (line * 128 < 0x8000000000000 ∨ 2 ^ 52 ≤ line * 128 → exec (.cxlSnoop cl line) s = .next s) ∧
    (0x8000000000000 ≤ line * 128 → line * 128 < 2 ^ 52 → AllHomes s → Completes (.cxlSnoop cl line) s fun u =>
      l2Line u cl line = none ∧ (∀ q, q / 64 = cl → SameHomes s u q) ∧ u.cores = s.cores ∧ u.strands = s.strands)) ∧
  (∀ (s : State) (x : RoceRequest),
    let admits := fun (r : Region) => r.rkey = x.rkey ∧ r.base ≤ x.addr.toNat ∧ x.addr.toNat + x.len ≤ r.base + r.len ∧ (x.write = true → r.write = true)
    let arrives := x.icrcOk = true ∧ ((getLink s (32 + x.port)).state = 2 ∨ (getLink s (32 + x.port)).state = 3) ∧ mhas s.qps x.qp = true
    let served := x.supported = true ∧ ∃ r ∈ s.regions, admits r
    let poisoned := ∃ v ∈ s.poison, v < x.addr.toNat + x.len ∧ x.addr.toNat < v + 8
    let marked := fun (u : State) => (x.ecn = false → u.qps = s.qps) ∧
      (x.ecn = true → getQp u x.qp = { getQp s x.qp with cnps := (getQp s x.qp).cnps + 1 }) ∧
      ∀ z, z ≠ x.qp → getQp u z = getQp s z
    (¬ arrives → exec (.roceRequest x) s = .next s) ∧
    (arrives → ¬ served ∨ x.write = false ∧ ¬ poisoned → Completes (.roceRequest x) s fun u => marked u ∧ { u with qps := s.qps } = s) ∧
    (arrives → served → x.write = false → 0 < x.len → poisoned → Completes (.roceRequest x) s fun u => marked u ∧ Reported s { u with qps := s.qps } (kindOfLoc x.addr.toNat)) ∧
    (arrives → served → x.write = true → x.data.length = x.len → Completes (.roceRequest x) s fun u => marked u ∧
      (∀ a, byteAt u.mem a = if x.addr.toNat ≤ a ∧ a < x.addr.toNat + x.len then x.data.getD (a - x.addr.toNat) 0 else byteAt s.mem a) ∧
      { u with mem := s.mem, poison := s.poison, qps := s.qps } = s)) ∧
  (∀ (s : State) (q port : Nat) (pr quanta : Nat),
    let x := getQp s q
    let qp := fun (u : State) y => getQp u q = y ∧ ∀ z, z ≠ q → getQp u z = getQp s z
    let made := mhas s.qps q = true
    let create := manage (.queuePair q) s
    (made ∨ 4096 ≤ s.qps.length → create = s) ∧
    (¬ made → s.qps.length < 4096 → getQp create q = .reset ∧ mhas create.qps q = true ∧ (∀ z, z ≠ q → getQp create z = getQp s z ∧ mhas create.qps z = mhas s.qps z) ∧
      { create with qps := s.qps } = s) ∧
    (made →
      (x.retries < 7 → Completes (.roceAckTimeout q) s fun u => qp u { x with retries := x.retries + 1 } ∧ { u with qps := s.qps } = s) ∧
      (7 ≤ x.retries → Completes (.roceAckTimeout q) s fun u => qp u { x with retries := 0 } ∧ u.strands = s.strands ∧ u.mem = s.mem ∧ ∀ cl,
        (getCluster u cl).copies = (getCluster s cl).copies.map fun c =>
          if (c.kind = .rwrite ∨ c.kind = .rread) ∧ c.ccr.toNat / 2 ^ 336 % 2 ^ 24 = q ∧ cmdOver c = false then { c with xerr := 1 } else c) ∧
      Completes (.cnp q) s (fun u => qp u { x with rate := x.rate / 2 } ∧ { u with qps := s.qps } = s) ∧
      Completes (.rateRecovery q) s (fun u => qp u { x with rate := min (x.rate + 2 ^ 28) (2 ^ 32) } ∧ { u with qps := s.qps } = s)) ∧
    (¬ made → exec (.cnp q) s = .next s ∧ exec (.rateRecovery q) s = .next s ∧ exec (.roceAckTimeout q) s = .next s) ∧
    exec (.ethernetFrame port ⟨true, []⟩) s = .next s ∧
    (∀ ps, Completes (.ethernetFrame port ⟨false, ps⟩) s fun u => { u with ethDrops := s.ethDrops } = s ∧
      ∀ j, mget 0 u.ethDrops j = mget 0 s.ethDrops j + if j = port % 4 then 1 else 0) ∧
    Completes (.ethernetFrame port ⟨true, [(pr, quanta)]⟩) s (fun u => { u with links := s.links } = s ∧ (∀ z, z ≠ 32 + port % 4 → getLink u z = getLink s z) ∧
      { getLink u (32 + port % 4) with pauseTo := (getLink s (32 + port % 4)).pauseTo } = getLink s (32 + port % 4) ∧
      ∀ j, mget 0 (getLink u (32 + port % 4)).pauseTo j =
        if j = pr % 8 then s.cycle + (36 * quanta + 24) / 25 else mget 0 (getLink s (32 + port % 4)).pauseTo j)) ∧
  (∀ (s : State) (port m : Nat) (o : Int),
    let now := dieTime s 0
    let frame := fun (u : State) => { u with ptp := s.ptp, time := s.time, recs := s.recs, dieSeq := s.dieSeq, srcStamp := s.srcStamp } = s
    let acquires := fun (u : State) => u.ptp.state = 1 ∧ u.ptp.good = 0 ∧ frame u ∧
      (o ≤ -4000 → (∀ d, d < 4 → dieTime u d = max ((now : Int) - o).toNat (dieTime s d) % 2 ^ 63) ∧ u.ptp.slew = 0) ∧ (-4000 < o → u.time = s.time ∧ u.ptp.slew = -o)
    let slews := fun (u : State) => u.time = s.time ∧ u.ptp.slew = -o ∧ frame u ∧
      u.ptp.state = if s.ptp.state = 1 ∧ o.natAbs < 400 ∧ 16 ≤ s.ptp.good + 1 then 2 else s.ptp.state
    let idle := s.ptp.state = 0 ∨ s.ptp.state = 3
    let runs := s.ptp.state = 1 ∨ s.ptp.state = 2
    (s.ptp.on = false ∨ s.ptp.pps = true ∨ port ≠ s.ptp.port → exec (.sync ⟨port, m⟩ o) s = .next s) ∧
    (∀ z, s.ptp.master = some z → z ≠ m → exec (.sync ⟨port, m⟩ o) s = .next s) ∧
    (s.ptp.on = true → s.ptp.pps = false → port = s.ptp.port → s.ptp.master = some m ∨ s.ptp.master = none →
      (idle → Completes (.sync ⟨port, m⟩ o) s fun u => acquires u ∧ u.ptp.master = some m ∧ u.ptp.tod = s.ptp.tod) ∧
      (runs → Completes (.sync ⟨port, m⟩ o) s fun u => slews u ∧ u.ptp.master = some m ∧ u.ptp.tod = s.ptp.tod ∧
        (s.ptp.state = 1 → u.ptp.state = 1 → u.ptp.good = if o.natAbs < 400 then s.ptp.good + 1 else 0))) ∧
    (s.ptp.pps = false → exec .ppsEdge s = .next s) ∧
    (s.ptp.pps = true → s.ptp.on = false → Completes .ppsEdge s fun u => u = { s with ptp := { s.ptp with tod := (s.ptp.tod + 4000000000) % 2 ^ 63 } }) ∧
    (o = (now : Int) - s.ptp.tod → s.ptp.pps = true → s.ptp.on = true →
      (idle → Completes .ppsEdge s fun u => acquires u ∧ u.ptp.tod = (s.ptp.tod + 4000000000) % 2 ^ 63) ∧
      (runs → Completes .ppsEdge s fun u => slews u ∧ u.ptp.tod = (s.ptp.tod + 4000000000) % 2 ^ 63)) ∧
    (runs → Completes .announceTimeout s fun u => u.ptp.state = 3 ∧ u.ptp.master = none ∧ u.ptp.slew = s.ptp.slew ∧ u.time = s.time ∧ frame u ∧
      (ringTakes s 0 0x51 = true → ∃ r, u.recs = s.recs ++ [r] ∧ r.ring = 0 ∧ ∃ f, f < 2 ^ 32 ∧
        (-2 ^ 31 ≤ -s.ptp.slew → -s.ptp.slew < 2 ^ 31 → f = ((-s.ptp.slew) % 2 ^ 32).toNat) ∧ r.words.drop 2 = [BitVec.ofNat 64 (3 + 16 * s.ptp.state + f * 2 ^ 16)])) ∧
    (s.ptp.state ≠ 1 → s.ptp.state ≠ 2 → exec .announceTimeout s = .next s) ∧
    (∀ (rest : List Choice) (c : ManageCmd), s.agenda = ⟨0, .manage c⟩ :: rest → step s = .next (manage c (atHead s ⟨0, .manage c⟩ rest))) ∧
    manage .clockOn s = { s with ptp := { s.ptp with on := true } } ∧
    ((manage .clockOff s).ptp.state = 0 ∧ (manage .clockOff s).ptp.on = false ∧ (manage .clockOff s).ptp.master = none ∧ frame (manage .clockOff s)) ∧
    manage (.clockSource true) s = { s with ptp := { s.ptp with pps := true } } ∧ (manage (.clockPort port) s).ptp.port = port % 4)

namespace Sys2Proof.Claims

/-- A corrected error of a kind has been counted and reported, and nothing else has changed (spec/22 R368, R379, R381). -/
def Corrected (s u : State) (kind : Nat) : Prop :=
  { u with rascnt := s.rascnt, recs := s.recs, dieSeq := s.dieSeq, srcStamp := s.srcStamp, msix := s.msix } = s ∧ u.msix = s.msix ++ [16] ∧
  ∀ j, (mget 0 u.rascnt j).toNat = if j = kind then
    (mget 0 s.rascnt j).toNat / 2 ^ 32 * 2 ^ 32 + min ((mget 0 s.rascnt j).toNat % 2 ^ 32 + 1) (2 ^ 32 - 1) else (mget 0 s.rascnt j).toNat

end Sys2Proof.Claims

/-- R371, R378 to R381, R191, R211, R212, R366, R368: a corrected error counts and is recorded, with no other effect; an uncorrected one counts, makes line 2 pending on the strand of context 0 that
RASCTL names, and traps the strand that consumes it with the address of its own access, skips the engine's element, fails the walk's row or poisons the line; the host is told of each by MSI-X vector 16
(log 77). A fatal error stops every strand of its cluster, kills its commands and marks its cores unavailable, and one outside every cluster fails the device, in which no strand moves (log 27). That its
launches stay listed, to end ABORTED, and that its drains and table loads go at once, is log 67. Which command an engine's error meets is log 77. -/
def Obligations.Errors : Prop :=
  (∀ (s : State) (x : ErrSite),
    Completes (.correctedError x) s fun u => Corrected s u x.kind.toNat ∧
      (ringTakes s 0 0x48 = true → ∃ r, u.recs = s.recs ++ [r] ∧ r.ring = 0 ∧
        r.words.drop 2 = [BitVec.ofNat 64 (x.kind.toNat + x.src.toNat * 2 ^ 8 + x.space.toNat * 2 ^ 32), BitVec.ofNat 64 (x.addr % 2 ^ 63)])) ∧
  (∀ (s : State) (line : Nat) (fix : Bool),
    let near := line * 128 < 0x8000000000
    let bad := ∃ v ∈ s.poison, v < line * 128 + 128 ∧ line * 128 < v + 8
    (¬ near → exec (.patrolScrub line fix) s = .next s) ∧
    (near → ¬ bad → exec (.patrolScrub line false) s = .next s) ∧
    (near → bad → Completes (.patrolScrub line false) s fun u => Reported s u 4) ∧
    (near → ¬ bad → Completes (.patrolScrub line true) s (Corrected s · 4))) ∧
  (∀ (s : State) (x : ErrSite) (k : Nat) (tval : Word),
    let y := getStrand s k
    let i := Instr.uncorrectedError x (.strand k tval)
    (mayRun s k = false → Completes i s (Reported s · x.kind.toNat)) ∧
    (mayRun s k = true → y.vtabQ ≠ [] → exec i s = .next s) ∧
    (mayRun s k = true → y.vtabQ = [] → Completes i s fun u =>
      let z := getStrand u k
      z.cause = 0xE ∧ z.tval = tval ∧ z.epc = y.pc ∧ z.pc = y.tvec &&& ~~~ 3#64 ∧ stPriv z = true ∧ stIE z = false ∧ z.shadow = y.loops ∧ z.wait = none ∧ z.long = none ∧
      (∀ r, getS z r = getS y r) ∧ (∀ r, getV z r = getV y r) ∧ (∀ r, getG z r = getG y r) ∧ (∀ r, getK z r = getK y r) ∧
      (y.wait = none → y.long = none → ∀ j, getD z j = getD y j) ∧
      (∀ j, j ≠ k → SameRegs (getStrand s j) (getStrand u j)) ∧ u.mem = s.mem ∧ u.msix = s.msix ++ [16])) ∧
  (∀ (s : State) (x : ErrSite),
    let i := Instr.uncorrectedError x .writeback
    let line := x.addr / 128
    Completes i s fun u => Reported { s with poison := u.poison } u x.kind.toNat ∧
      (x.space = 0 → ∀ v, v ∈ u.poison ↔ v ∈ s.poison ∨ (v / 128 = line ∧ v % 8 = 0)) ∧ (x.space ≠ 0 → u.poison = s.poison) ∧
      (s.rasctl.getLsbD 63 = true → s.rasctl.toNat / 4096 % 64 = s.devNo → stCtx (getStrand s (s.rasctl.toNat % 4096)) = 0 →
        (getStrand u (s.rasctl.toNat % 4096)).irq.getLsbD 2 = true)) ∧
  (∀ (s : State) (x : ErrSite) (faddr : Nat),
    let cl := x.src.toNat / 1024
    let i := Instr.uncorrectedError x (.engine faddr)
    (∀ j, j < (getCluster s cl).copies.length → ∀ p, (getCluster s cl).copies[j]? = some p → cmdReady s cl j p = false) → Completes i s (Reported s · x.kind.toNat)) ∧
  (∀ (s : State) (x : ErrSite) (idx faddr : Nat) (q : CopyCmd),
    let cl := x.src.toNat / 1024
    (getCluster s cl).copies[idx]? = some q → cmdReady s cl idx q = true →
    (∀ j, j < idx → ∀ p, (getCluster s cl).copies[j]? = some p → cmdReady s cl j p = false) → q.kind ≠ .pref → (tsrTy (cmdShape q)).isBlock = false →
    Completes (.uncorrectedError x (.engine faddr)) s fun u => u.mem = s.mem ∧ (∀ k, SameRegs (getStrand s k) (getStrand u k)) ∧
      (getCluster u cl).copies = (getCluster s cl).copies.set idx
        { q with done := q.done + 1, count := q.count + 1, nflt := min (q.nflt + 1) 0xFFFFFFFF, faddr := if q.faddr = 2 ^ 64 then faddr else q.faddr }) ∧
  (∀ (s : State) (x : ErrSite) (k row faddr : Nat) (l : Long), (getStrand s k).long = some l → (walkArgs l.i).isSome = true → row < l.rows.length →
    rowStat (l.rows.getD row 0) = 0 → Completes (.uncorrectedError x (.walk k row faddr)) s fun u =>
      (∃ m, (getStrand u k).long = some m ∧ m.rows.length = l.rows.length ∧ rowStat (m.rows.getD row 0) = 2 ∧ (m.rows.getD row 0).toNat / 2 ^ 128 % 2 ^ 57 = faddr % 2 ^ 57 ∧
        ∀ j, j ≠ row → m.rows[j]? = l.rows[j]?) ∧ (∀ j, SameRegs (getStrand s j) (getStrand u j)) ∧ u.mem = s.mem) ∧
  (∀ (s : State) (cl : Nat),
    (16 ≤ cl → Completes (.fatalClusterError cl) s fun u => u.mgmt = { s.mgmt with state := 6, fail := 4 } ∧ (∀ k, SameRegs (getStrand s k) (getStrand u k)) ∧ u.mem = s.mem) ∧
    (cl < 16 → Completes (.fatalClusterError cl) s fun u =>
      (∀ k, clusterOf k = cl → (getStrand s k).run = .running → (getStrand u k).run = .stopped) ∧
      ((∀ q ∈ (getCluster s cl).drains, clusterOf q.strand = cl) → ∀ k, clusterOf k ≠ cl → SameRegs (getStrand s k) (getStrand u k) ∧ (getStrand u k).run = (getStrand s k).run) ∧
      (getCluster u cl).unav = BitVec.allOnes 64 ∧ (getCluster u cl).failed = true ∧ (getCluster u cl).drains = [] ∧
      (∀ c ∈ (getCluster u cl).copies, c.killed = true) ∧ (∀ q, q / 64 = cl → (getCore u q).tabLoads = []) ∧
      u.launches = s.launches.map fun l => if l.clus.testBit cl then { l with abort := true } else l)) ∧
  (∀ (s : State) (rest : List Choice) (dt k : Nat), s.agenda = ⟨dt, .strand k⟩ :: rest → s.mgmt.state = 6 → step s = .fault .deviceFailed)

/-- R365, R366, R382 to R386: a power-up starts nothing from a rejected image, and from an accepted one boots, measures, repairs while spares remain, and trains, but for a link that is disabled, FAILED or up already where the controller restarts from BOOT; the security-version floor never falls. The
recovery mailbox takes an image in chunks in RECOVERY alone and replaces the flash by an accepted one; a device kernel image, which a management command brings, is accepted under the keys that the firmware names, which are a free
constant, as is where it has its own key (log 81); a key is hashed with its point prefix (log 95); the controller answers attestation requests over its measurements. The codes of the mailbox and the spares are log 73, what a power cycle keeps is log 74, and the bytes of the SPDM messages are the model's choice (log 15). -/
def Obligations.BringUp : Prop :=
  (∀ (s : State) (x : PowerUpInput),
    let m := s.mgmt.flash
    let p := payloadOf m
    let ok := rejectReason s.mgmt.slots s.mgmt.floor m = 0
    let was := fun n => if s.mgmt.state = 1 then getLink s n else LinkUnit.reset
    let trains := fun n => (was n).state = 1 ∨ ((was n).state = 0 ∧ (was n).dis = false)
    let stack := fun b => if trains (8 + b) then (if x.stacksUp.getLsbD b then 2 else 4) else (was (8 + b)).state
    let whole := ∀ b, b < 8 → stack b ≠ 4
    let ready := (∀ b, b < 8 → stack b = 2) ∧ (if x.hostUp = true ∧ trains 40 then 2 else (was 40).state) = 2
    let table := wordList (fwSection p 3)
    let bad := x.badUnit = true ∨ (selfTest s x table).2 = true
    let ports := [41, 42] ++ (List.range 12).map (16 + ·) ++ (List.range 4).map (32 + ·)
    Completes (.powerUp x) s fun u =>
      u.mgmt.flash = m ∧ u.mgmt.slots = s.mgmt.slots ∧ s.mgmt.floor ≤ u.mgmt.floor ∧
      (¬ ok → u.mgmt.state = 5 ∧ u.mgmt.fail = 1 ∧ u.mgmt.floor = s.mgmt.floor) ∧
      (s.mgmt.state ≠ 1 → u.strands = [] ∧ u.mem = [] ∧ u.cores = [] ∧ u.launches = [] ∧ u.rasctl = 0) ∧
      (ok →
        u.mgmt.meas = [extendMeas 0 Config.romDigest, extendMeas 0 (BitVec.ofNat 256 (beOf ((m.drop 32).take 32))), extendMeas 0 (sha256 (fwSection p 3)),
          extendMeas 0 (sha256 (fwSection p 2))] ∧
        (∃ added, u.mgmt.repairs = table ++ added ∧ u.mgmt.nrep = added.length ∧ added.length ≤ x.faults.length ∧
          ∀ e ∈ added, ∃ f ∈ x.faults, e.toNat / 2 ^ 8 = (f &&& repairMask).toNat / 2 ^ 8) ∧ u.mgmt.routes = wordList (fwSection p 4) ∧
        (∀ c ∈ x.badCores, (getCluster u (c / 64)).unav.getLsbD (c % 64) = true) ∧
        (bad → u.mgmt.state = 6 ∧ u.mgmt.fail = 2) ∧
        (¬ bad → ¬ whole → u.mgmt.state = 6 ∧ u.mgmt.fail = 3) ∧
        (¬ bad → whole → ready → u.mgmt.state = 4 ∧ u.mgmt.fail = 0) ∧
        (¬ bad → whole → ¬ ready → u.mgmt.state = 3 ∧ u.mgmt.fail = 0) ∧
        (¬ bad → ∀ b, b < 8 → (getLink u (8 + b)).state = stack b) ∧
        (¬ bad → u.ptp.on = true ∧ ∀ n ∈ ports, (getLink u n).state = if trains n then (match x.ports.find? fun q => q.1 == n with
          | some q => (trainResult n q.2).1
          | none => 1) else (was n).state) ∧
        (¬ bad → ∀ j, j < 512 → (j = 0 ∨ (12 ≤ j ∧ j < 52) ∨ (66 ≤ j ∧ j < 121) ∨ (128 ≤ j ∧ j < 201) ∨ (204 ≤ j ∧ j < 224)) →
          (getCtx u 0).desc.getLsbD j = x.ctx0.getLsbD j))) ∧
  (∀ (r : State × Bool) (f : Word),
    let w := f &&& repairMask
    let unit := w.toNat / 2 ^ 60
    let q := 64 * (w.toNat / 2 ^ 56 % 16) + w.toNat / 2 ^ 50 % 64
    let spare := fun n => n < min (spareCount unit) 256 ∧ ∀ e ∈ r.1.mgmt.repairs, ¬ (e.toNat / 2 ^ 50 = w.toNat / 2 ^ 50 ∧ e.toNat % 2 ^ 8 = n)
    (∀ n, spare n → (∀ k, k < n → ¬ spare k) → let u := repairFault r f
      u.2 = r.2 ∧ u.1.mgmt.nrep = r.1.mgmt.nrep + 1 ∧ u.1.msix = r.1.msix ++ [16] ∧
      ∃ e, u.1.mgmt.repairs = r.1.mgmt.repairs ++ [e] ∧ e.toNat / 2 ^ 8 = w.toNat / 2 ^ 8 ∧ e.toNat % 2 ^ 8 = n) ∧
    ((∀ n, ¬ spare n) → unit = 1 ∨ unit = 2 ∨ unit = 3 ∨ unit = 5 → (repairFault r f).2 = r.2 ∧ (repairFault r f).1.mgmt = r.1.mgmt ∧
      (getCluster (repairFault r f).1 (q / 64)).unav.getLsbD (q % 64) = true) ∧
    ((∀ n, ¬ spare n) → unit ≠ 1 → unit ≠ 2 → unit ≠ 3 → unit ≠ 5 → repairFault r f = (r.1, true)) ∧
    (unit = 1 ∨ unit = 2 → spareCount unit = 2)) ∧
  (∀ (s : State) (m : List Byte),
    manage (.kernelImage m) s = if imageReason 1 (Config.kernelKeys s.mgmt.flash) s.mgmt.floor m = 0 then { s with mgmt := { s.mgmt with kernel := payloadOf m } }
      else { s with mgmt := { s.mgmt with state := 5, fail := 1 } }) ∧
  (∀ (slots : List (BitVec 256)) (floor : Nat) (m : List Byte),
    let p := payloadOf m
    let namedAs := fun kind => ∃ h, keySlot slots m = some h ∧ keyHash (keyBytes kind p) = h
    let named := namedAs 0
    let signed := signatureOk (keyBytes 0 p) m
    let svn := fieldOf m 16 8
    let plain := fieldOf m 4 2 = 1 ∧ fieldOf m 6 2 = 0 ∧ fieldOf m 0 4 = 0x49534756
    (rejectReason slots floor m = 0 ↔ named ∧ signed = true ∧ floor ≤ svn ∧ plain ∧ payloadOk p = true) ∧
    (imageReason 1 slots floor m = 0 ↔ namedAs 1 ∧ signatureOk (keyBytes 1 p) m = true ∧ floor ≤ svn ∧ fieldOf m 4 2 = 1 ∧ fieldOf m 6 2 = 1 ∧ fieldOf m 0 4 = 0x49534756) ∧
    (keyBytes 0 p = (p.drop 64).take 64 ∧ keyBytes 1 p = Config.kernelKey p) ∧ (∀ k, keyHash k = sha256 (4#8 :: k)) ∧
    (keySlot slots m = none → rejectReason slots floor m = 1) ∧ (keySlot slots m ≠ none → ¬ named → rejectReason slots floor m = 2) ∧
    (named → signed = false → rejectReason slots floor m = 3) ∧ (named → signed = true → svn < floor → rejectReason slots floor m = 4) ∧
    (named → signed = true → floor ≤ svn → ¬ plain → rejectReason slots floor m = 5) ∧
    (named → signed = true → floor ≤ svn → plain → payloadOk p = false → rejectReason slots floor m = 6)) ∧
  (∀ (s : State) (n : Nat) (i : Instr), i ∈ [Instr.rmBegin, .rmChunk n, .rmCommit, .rmAbort] → s.mgmt.state ≠ 5 → exec i s = .next s) ∧
  (∀ (s : State) (n : Nat), s.mgmt.state = 5 →
    let g := s.mgmt
    let sets := fun (u : State) (h : Mgmt) => u = { s with mgmt := h }
    let discard := { g with rmstat := 5, rmreason := 0, rmcount := 0, staging := [] }
    (128 ≤ g.rmlen → g.rmlen ≤ 0x4000000 → Completes .rmBegin s (sets · { g with rmstat := 1, rmreason := 0, rmcount := 0, staging := [] })) ∧
    (g.rmlen < 128 ∨ 0x4000000 < g.rmlen → Completes .rmBegin s (sets · discard)) ∧
    (n = 0 ∨ 0x10000 < n → exec (.rmChunk n) s = .next s) ∧
    (0 < n → n ≤ 0x10000 → g.rmstat = 1 → g.rmcount = g.staging.length → g.rmcount + n ≤ g.rmlen → Completes (.rmChunk n) s fun u =>
      u.mgmt.rmstat = 1 ∧ u.mgmt.rmcount = g.rmcount + n ∧ u.mgmt.staging = g.staging ++ readBytes g.rmwin 0 n ∧ u.mgmt.flash = g.flash ∧ { u with mgmt := g } = s) ∧
    (0 < n → n ≤ 0x10000 → g.rmstat ≠ 1 ∨ g.rmlen < g.rmcount + n → Completes (.rmChunk n) s (sets · discard)) ∧
    (g.rmstat ≠ 1 ∨ g.rmcount ≠ g.rmlen → Completes .rmCommit s (sets · discard)) ∧
    (g.rmstat = 1 → g.rmcount = g.rmlen → rejectReason g.slots g.floor g.staging = 0 → Completes .rmCommit s fun u =>
      u.mgmt.flash = g.staging ∧ u.mgmt.state = 1 ∧ u.mgmt.rmstat = 3 ∧ u.mgmt.floor = g.floor ∧ u.msix = s.msix ++ [16] ∧ { u with mgmt := g, msix := s.msix } = s) ∧
    (g.rmstat = 1 → g.rmcount = g.rmlen → rejectReason g.slots g.floor g.staging ≠ 0 → Completes .rmCommit s fun u =>
      u.mgmt.flash = g.flash ∧ u.mgmt.state = 5 ∧ u.mgmt.rmstat = 4 ∧ u.mgmt.rmreason = rejectReason g.slots g.floor g.staging ∧ u.msix = s.msix) ∧
    Completes .rmAbort s (sets · { g with rmstat := 0, rmreason := 0, rmcount := 0, staging := [] })) ∧
  (∀ (s : State) (x : SpdmRequest), Completes (.spdmRequest x) s fun u => { u with mgmt := { u.mgmt with doe := s.mgmt.doe } } = s ∧
    (∀ nonce, x = .getMeasurements nonce → ∃ a, u.mgmt.doe = a ++ measRecord s.mgmt.meas ++ nonce ++ Config.identitySign (nonce ++ measRecord s.mgmt.meas)) ∧
    (∀ code, x = .other code → u.mgmt.doe = [0x12#8, 0x7F#8, 0x07#8, code])) ∧
  (∀ (m : List (BitVec 256)) (i : Nat), i < 4 → ((measRecord m).drop (39 * i)).take 39 =
    [BitVec.ofNat 8 (i + 1), 1#8, 35#8, 0#8, 0#8, 32#8, 0#8] ++ (List.range 32).map fun j => (m.getD i 0).extractLsb' (8 * (31 - j)) 8)

namespace Sys2Proof.Claims

/-- The common fields of an instruction with no guard, counter, wait or kill point. -/
def plainFields (l : Len) : Common := ⟨l, false, 7, 0, false, 7⟩

end Sys2Proof.Claims

/-- R323, R365, R381, R347, R367, R377, R324, R335, R357: what the machine holds at power-on where the spec gives it; memory has the canonical form of
log 1, and that every strand is absent and no launch listed before the first launch is log 2. -/
def Obligations.ResetState : Prop :=
  let s := State.reset
  Memory.wf s.mem = true ∧ s.mgmt.state = 0 ∧ s.mgmt.fail = 0 ∧ ctlRead s (dcb 0x1280) 8 = 0 ∧ s.rasctl = 0 ∧ (∀ k, mget 0 s.rascnt k = 0) ∧
  (∀ cl, (getCluster s cl).cpySlot = 0xFEDCBA9876543210 ∧ (getCluster s cl).tkuSlot = 0xFEDCBA9876543210 ∧ (getCluster s cl).unav = 0 ∧
    (getCluster s cl).dm.ctl = 0 ∧ (getCluster s cl).dm.halted = false ∧ (getCluster s cl).dm.sel = 0 ∧ (getCluster s cl).dm.addr = 0) ∧
  (∀ x, (getCtx s x).desc = 0 ∧ (getCtx s x).lqbase = 0 ∧ (getCtx s x).lqtail = 0 ∧ (getCtx s x).lqhead = 0 ∧ (getCtx s x).lqcnt = 0 ∧
    (getCtx s x).cqbase = 0 ∧ (getCtx s x).cqhead = 0 ∧ (getCtx s x).cqtail = 0 ∧ (getCtx s x).stat = 0) ∧
  (∀ t, (getRing s t).cfg = 0 ∧ (getRing s t).wr = 0 ∧ (getRing s t).rd = 0 ∧ (getRing s t).base = 0) ∧
  (∀ n, (getLink s n).state = 0 ∧ (getLink s n).dis = false ∧ (getLink s n).reason = 0) ∧ s.ptp.state = 0 ∧ (∀ d, dieTime s d = 0) ∧
  (∀ k, (getStrand s k).run = .absent) ∧ s.launches = []

/-- The worked encodings of the spec, written out as it gives them, decode to the instructions it gives them for: one or more of each family. -/
def Obligations.DecodeWords : Prop :=
  decodeTableWord 64 0x00001CC507701C29 = some (.addx (plainFields .l64) .sext32 3 5 6 7) ∧
  decodeTableWord 64 0xFFFF006500A02481 = some (.addi ⟨.l64, true, 2, 0, true, 1⟩ 5 3 0xFFFFFFFE) ∧
  decodeTableWord 64 0x0001106102701C75 = some (.cmp (plainFields .l64) .lt 1 3 4 2) ∧
  decodeTableWord 128 0x0123456789ABCDEF0000000400701CA3 = some (.li (plainFields .l128) (.s 4) 0x0123456789ABCDEF) ∧
  decodeTableWord 64 0xFFFD000000702501 = some (.br ⟨.l64, false, 7, 0, true, 1⟩ 0xFFFFFFFA) ∧
  decodeTableWord 64 0x0008006502701D41 = some (.ld (plainFields .l64) .s32 .glob 5 3 16) ∧
  decodeTableWord 64 0x000398A40A701D8D = some (.vmad (plainFields .l64) .f32 false false 0 4 5 6 7) ∧
  decodeTableWord 128 0x00000030000000000000008100701E07 = some (.mma (plainFields .l128) 1 4 .glob 0 0 48) ∧
  decodeTableWord 128 0x000000000000000800062C8000701E1B = some (.walk (plainFields .l128) 4 11 12 .glob 8 0) ∧
  decodeTableWord 64 0x0800148003701E41 = some (.amo (plainFields .l64) .add .s64 .device .glob 0 0 4 5) ∧
  decodeTableWord 96 0x00000000000000008A00701E7A = some (.copy (plainFields .l96) 10 4 .glob) ∧
  decodeTableWord 64 0x07D00D0900701EAD = some (.jwait (plainFields .l64) 9 8 3 4000) ∧
  decodeTableWord 64 0x0000000000701EC5 = some (.tret (plainFields .l64)) ∧
  decodeTableWord 64 0x00000000007001FF = none

/-- R2, R317 and the canonical form of log 1: whatever moves, global memory keeps its canonical form, so that equal memories are equal data; in every state, reachable or not. -/
def Obligations.StepKeepsMemory : Prop := ∀ s t : State, Memory.wf s.mem = true → step s = .next t → Memory.wf t.mem = true
end

