-- ==== Sys2Proof/Laws/Dispatch.lean ====
section
/-!
SUPPORT. Every instruction goes through `issue`, one lemma per constructor, and a device step has no common fields.
-/
namespace Sys2Proof.Machine

theorem exec_add (c) (dst) (sa) (sb) (s : State) : exec (.add c dst sa sb) s = execAdd c dst sa sb s := rfl
theorem exec_add_issue (c) (dst) (sa) (sb) (s : State) : ∃ body, exec (.add c dst sa sb) s = issue (.add c dst sa sb) c s body := by
  rw [exec_add]; unfold execAdd; unfold alu; exact ⟨_, rfl⟩
theorem exec_sub (c) (dst) (sa) (sb) (s : State) : exec (.sub c dst sa sb) s = execSub c dst sa sb s := rfl
theorem exec_sub_issue (c) (dst) (sa) (sb) (s : State) : ∃ body, exec (.sub c dst sa sb) s = issue (.sub c dst sa sb) c s body := by
  rw [exec_sub]; unfold execSub; unfold alu; exact ⟨_, rfl⟩
theorem exec_mul (c) (dst) (sa) (sb) (s : State) : exec (.mul c dst sa sb) s = execMul c dst sa sb s := rfl
theorem exec_mul_issue (c) (dst) (sa) (sb) (s : State) : ∃ body, exec (.mul c dst sa sb) s = issue (.mul c dst sa sb) c s body := by
  rw [exec_mul]; unfold execMul; unfold alu; exact ⟨_, rfl⟩
theorem exec_mulh (c) (dst) (sa) (sb) (s : State) : exec (.mulh c dst sa sb) s = execMulh c dst sa sb s := rfl
theorem exec_mulh_issue (c) (dst) (sa) (sb) (s : State) : ∃ body, exec (.mulh c dst sa sb) s = issue (.mulh c dst sa sb) c s body := by
  rw [exec_mulh]; unfold execMulh; unfold alu; exact ⟨_, rfl⟩
theorem exec_mulhz (c) (dst) (sa) (sb) (s : State) : exec (.mulhz c dst sa sb) s = execMulhz c dst sa sb s := rfl
theorem exec_mulhz_issue (c) (dst) (sa) (sb) (s : State) : ∃ body, exec (.mulhz c dst sa sb) s = issue (.mulhz c dst sa sb) c s body := by
  rw [exec_mulhz]; unfold execMulhz; unfold alu; exact ⟨_, rfl⟩
theorem exec_div (c) (dst) (sa) (sb) (s : State) : exec (.div c dst sa sb) s = execDiv c dst sa sb s := rfl
theorem exec_div_issue (c) (dst) (sa) (sb) (s : State) : ∃ body, exec (.div c dst sa sb) s = issue (.div c dst sa sb) c s body := by
  rw [exec_div]; unfold execDiv; unfold alu; exact ⟨_, rfl⟩
theorem exec_divz (c) (dst) (sa) (sb) (s : State) : exec (.divz c dst sa sb) s = execDivz c dst sa sb s := rfl
theorem exec_divz_issue (c) (dst) (sa) (sb) (s : State) : ∃ body, exec (.divz c dst sa sb) s = issue (.divz c dst sa sb) c s body := by
  rw [exec_divz]; unfold execDivz; unfold alu; exact ⟨_, rfl⟩
theorem exec_rem (c) (dst) (sa) (sb) (s : State) : exec (.rem c dst sa sb) s = execRem c dst sa sb s := rfl
theorem exec_rem_issue (c) (dst) (sa) (sb) (s : State) : ∃ body, exec (.rem c dst sa sb) s = issue (.rem c dst sa sb) c s body := by
  rw [exec_rem]; unfold execRem; unfold alu; exact ⟨_, rfl⟩
theorem exec_remz (c) (dst) (sa) (sb) (s : State) : exec (.remz c dst sa sb) s = execRemz c dst sa sb s := rfl
theorem exec_remz_issue (c) (dst) (sa) (sb) (s : State) : ∃ body, exec (.remz c dst sa sb) s = issue (.remz c dst sa sb) c s body := by
  rw [exec_remz]; unfold execRemz; unfold alu; exact ⟨_, rfl⟩
theorem exec_divT (c) (op) (dst) (sa) (sb) (s : State) : exec (.divT c op dst sa sb) s = execDivT c op dst sa sb s := rfl
theorem exec_divT_issue (c) (op) (dst) (sa) (sb) (s : State) : ∃ body, exec (.divT c op dst sa sb) s = issue (.divT c op dst sa sb) c s body := by
  rw [exec_divT]; unfold execDivT; exact ⟨_, rfl⟩
theorem exec_addx (c) (idx) (sh) (dst) (sa) (sb) (s : State) : exec (.addx c idx sh dst sa sb) s = execAddx c idx sh dst sa sb s := rfl
theorem exec_addx_issue (c) (idx) (sh) (dst) (sa) (sb) (s : State) : ∃ body, exec (.addx c idx sh dst sa sb) s = issue (.addx c idx sh dst sa sb) c s body := by
  rw [exec_addx]; unfold execAddx; unfold alu; exact ⟨_, rfl⟩
theorem exec_and (c) (dst) (sa) (sb) (s : State) : exec (.and c dst sa sb) s = execAnd c dst sa sb s := rfl
theorem exec_and_issue (c) (dst) (sa) (sb) (s : State) : ∃ body, exec (.and c dst sa sb) s = issue (.and c dst sa sb) c s body := by
  rw [exec_and]; unfold execAnd; unfold alu; exact ⟨_, rfl⟩
theorem exec_or (c) (dst) (sa) (sb) (s : State) : exec (.or c dst sa sb) s = execOr c dst sa sb s := rfl
theorem exec_or_issue (c) (dst) (sa) (sb) (s : State) : ∃ body, exec (.or c dst sa sb) s = issue (.or c dst sa sb) c s body := by
  rw [exec_or]; unfold execOr; unfold alu; exact ⟨_, rfl⟩
theorem exec_xor (c) (dst) (sa) (sb) (s : State) : exec (.xor c dst sa sb) s = execXor c dst sa sb s := rfl
theorem exec_xor_issue (c) (dst) (sa) (sb) (s : State) : ∃ body, exec (.xor c dst sa sb) s = issue (.xor c dst sa sb) c s body := by
  rw [exec_xor]; unfold execXor; unfold alu; exact ⟨_, rfl⟩
theorem exec_shl (c) (dst) (sa) (sb) (s : State) : exec (.shl c dst sa sb) s = execShl c dst sa sb s := rfl
theorem exec_shl_issue (c) (dst) (sa) (sb) (s : State) : ∃ body, exec (.shl c dst sa sb) s = issue (.shl c dst sa sb) c s body := by
  rw [exec_shl]; unfold execShl; unfold alu; exact ⟨_, rfl⟩
theorem exec_shr (c) (dst) (sa) (sb) (s : State) : exec (.shr c dst sa sb) s = execShr c dst sa sb s := rfl
theorem exec_shr_issue (c) (dst) (sa) (sb) (s : State) : ∃ body, exec (.shr c dst sa sb) s = issue (.shr c dst sa sb) c s body := by
  rw [exec_shr]; unfold execShr; unfold alu; exact ⟨_, rfl⟩
theorem exec_sra (c) (dst) (sa) (sb) (s : State) : exec (.sra c dst sa sb) s = execSra c dst sa sb s := rfl
theorem exec_sra_issue (c) (dst) (sa) (sb) (s : State) : ∃ body, exec (.sra c dst sa sb) s = issue (.sra c dst sa sb) c s body := by
  rw [exec_sra]; unfold execSra; unfold alu; exact ⟨_, rfl⟩
theorem exec_min (c) (dst) (sa) (sb) (s : State) : exec (.min c dst sa sb) s = execMin c dst sa sb s := rfl
theorem exec_min_issue (c) (dst) (sa) (sb) (s : State) : ∃ body, exec (.min c dst sa sb) s = issue (.min c dst sa sb) c s body := by
  rw [exec_min]; unfold execMin; unfold alu; exact ⟨_, rfl⟩
theorem exec_max (c) (dst) (sa) (sb) (s : State) : exec (.max c dst sa sb) s = execMax c dst sa sb s := rfl
theorem exec_max_issue (c) (dst) (sa) (sb) (s : State) : ∃ body, exec (.max c dst sa sb) s = issue (.max c dst sa sb) c s body := by
  rw [exec_max]; unfold execMax; unfold alu; exact ⟨_, rfl⟩
theorem exec_minz (c) (dst) (sa) (sb) (s : State) : exec (.minz c dst sa sb) s = execMinz c dst sa sb s := rfl
theorem exec_minz_issue (c) (dst) (sa) (sb) (s : State) : ∃ body, exec (.minz c dst sa sb) s = issue (.minz c dst sa sb) c s body := by
  rw [exec_minz]; unfold execMinz; unfold alu; exact ⟨_, rfl⟩
theorem exec_maxz (c) (dst) (sa) (sb) (s : State) : exec (.maxz c dst sa sb) s = execMaxz c dst sa sb s := rfl
theorem exec_maxz_issue (c) (dst) (sa) (sb) (s : State) : ∃ body, exec (.maxz c dst sa sb) s = issue (.maxz c dst sa sb) c s body := by
  rw [exec_maxz]; unfold execMaxz; unfold alu; exact ⟨_, rfl⟩
theorem exec_clz (c) (dst) (sa) (s : State) : exec (.clz c dst sa) s = execClz c dst sa s := rfl
theorem exec_clz_issue (c) (dst) (sa) (s : State) : ∃ body, exec (.clz c dst sa) s = issue (.clz c dst sa) c s body := by
  rw [exec_clz]; unfold execClz; unfold alu1; exact ⟨_, rfl⟩
theorem exec_ctz (c) (dst) (sa) (s : State) : exec (.ctz c dst sa) s = execCtz c dst sa s := rfl
theorem exec_ctz_issue (c) (dst) (sa) (s : State) : ∃ body, exec (.ctz c dst sa) s = issue (.ctz c dst sa) c s body := by
  rw [exec_ctz]; unfold execCtz; unfold alu1; exact ⟨_, rfl⟩
theorem exec_popc (c) (dst) (sa) (s : State) : exec (.popc c dst sa) s = execPopc c dst sa s := rfl
theorem exec_popc_issue (c) (dst) (sa) (s : State) : ∃ body, exec (.popc c dst sa) s = issue (.popc c dst sa) c s body := by
  rw [exec_popc]; unfold execPopc; unfold alu1; exact ⟨_, rfl⟩
theorem exec_bswap (c) (wd) (dst) (sa) (s : State) : exec (.bswap c wd dst sa) s = execBswap c wd dst sa s := rfl
theorem exec_bswap_issue (c) (wd) (dst) (sa) (s : State) : ∃ body, exec (.bswap c wd dst sa) s = issue (.bswap c wd dst sa) c s body := by
  rw [exec_bswap]; unfold execBswap; unfold alu1; exact ⟨_, rfl⟩
theorem exec_sext (c) (wd) (dst) (sa) (s : State) : exec (.sext c wd dst sa) s = execSext c wd dst sa s := rfl
theorem exec_sext_issue (c) (wd) (dst) (sa) (s : State) : ∃ body, exec (.sext c wd dst sa) s = issue (.sext c wd dst sa) c s body := by
  rw [exec_sext]; unfold execSext; unfold alu1; exact ⟨_, rfl⟩
theorem exec_zext (c) (wd) (dst) (sa) (s : State) : exec (.zext c wd dst sa) s = execZext c wd dst sa s := rfl
theorem exec_zext_issue (c) (wd) (dst) (sa) (s : State) : ∃ body, exec (.zext c wd dst sa) s = issue (.zext c wd dst sa) c s body := by
  rw [exec_zext]; unfold execZext; unfold alu1; exact ⟨_, rfl⟩
theorem exec_mov (c) (op) (s : State) : exec (.mov c op) s = execMov c op s := rfl
theorem exec_mov_issue (c) (op) (s : State) : ∃ body, exec (.mov c op) s = issue (.mov c op) c s body := by
  rw [exec_mov]; unfold execMov; exact ⟨_, rfl⟩
theorem exec_sel (c) (dst) (sa) (sb) (gs) (ns) (s : State) : exec (.sel c dst sa sb gs ns) s = execSel c dst sa sb gs ns s := rfl
theorem exec_sel_issue (c) (dst) (sa) (sb) (gs) (ns) (s : State) : ∃ body, exec (.sel c dst sa sb gs ns) s = issue (.sel c dst sa sb gs ns) c s body := by
  rw [exec_sel]; unfold execSel; exact ⟨_, rfl⟩
theorem exec_cmp (c) (cond) (pt) (sa) (sb) (pf) (s : State) : exec (.cmp c cond pt sa sb pf) s = execCmp c cond pt sa sb pf s := rfl
theorem exec_cmp_issue (c) (cond) (pt) (sa) (sb) (pf) (s : State) : ∃ body, exec (.cmp c cond pt sa sb pf) s = issue (.cmp c cond pt sa sb pf) c s body := by
  rw [exec_cmp]; unfold execCmp; exact ⟨_, rfl⟩
theorem exec_addi (c) (dst) (sa) (imm) (s : State) : exec (.addi c dst sa imm) s = execAddi c dst sa imm s := rfl
theorem exec_addi_issue (c) (dst) (sa) (imm) (s : State) : ∃ body, exec (.addi c dst sa imm) s = issue (.addi c dst sa imm) c s body := by
  rw [exec_addi]; unfold execAddi; unfold alu1; exact ⟨_, rfl⟩
theorem exec_andi (c) (dst) (sa) (imm) (s : State) : exec (.andi c dst sa imm) s = execAndi c dst sa imm s := rfl
theorem exec_andi_issue (c) (dst) (sa) (imm) (s : State) : ∃ body, exec (.andi c dst sa imm) s = issue (.andi c dst sa imm) c s body := by
  rw [exec_andi]; unfold execAndi; unfold alu1; exact ⟨_, rfl⟩
theorem exec_ori (c) (dst) (sa) (imm) (s : State) : exec (.ori c dst sa imm) s = execOri c dst sa imm s := rfl
theorem exec_ori_issue (c) (dst) (sa) (imm) (s : State) : ∃ body, exec (.ori c dst sa imm) s = issue (.ori c dst sa imm) c s body := by
  rw [exec_ori]; unfold execOri; unfold alu1; exact ⟨_, rfl⟩
theorem exec_xori (c) (dst) (sa) (imm) (s : State) : exec (.xori c dst sa imm) s = execXori c dst sa imm s := rfl
theorem exec_xori_issue (c) (dst) (sa) (imm) (s : State) : ∃ body, exec (.xori c dst sa imm) s = issue (.xori c dst sa imm) c s body := by
  rw [exec_xori]; unfold execXori; unfold alu1; exact ⟨_, rfl⟩
theorem exec_cmpi (c) (cond) (pt) (sa) (pf) (imm) (s : State) : exec (.cmpi c cond pt sa pf imm) s = execCmpi c cond pt sa pf imm s := rfl
theorem exec_cmpi_issue (c) (cond) (pt) (sa) (pf) (imm) (s : State) : ∃ body, exec (.cmpi c cond pt sa pf imm) s = issue (.cmpi c cond pt sa pf imm) c s body := by
  rw [exec_cmpi]; unfold execCmpi; exact ⟨_, rfl⟩
theorem exec_shli (c) (dst) (sa) (amt) (s : State) : exec (.shli c dst sa amt) s = execShli c dst sa amt s := rfl
theorem exec_shli_issue (c) (dst) (sa) (amt) (s : State) : ∃ body, exec (.shli c dst sa amt) s = issue (.shli c dst sa amt) c s body := by
  rw [exec_shli]; unfold execShli; unfold alu1; exact ⟨_, rfl⟩
theorem exec_shri (c) (dst) (sa) (amt) (s : State) : exec (.shri c dst sa amt) s = execShri c dst sa amt s := rfl
theorem exec_shri_issue (c) (dst) (sa) (amt) (s : State) : ∃ body, exec (.shri c dst sa amt) s = issue (.shri c dst sa amt) c s body := by
  rw [exec_shri]; unfold execShri; unfold alu1; exact ⟨_, rfl⟩
theorem exec_srai (c) (dst) (sa) (amt) (s : State) : exec (.srai c dst sa amt) s = execSrai c dst sa amt s := rfl
theorem exec_srai_issue (c) (dst) (sa) (amt) (s : State) : ∃ body, exec (.srai c dst sa amt) s = issue (.srai c dst sa amt) c s body := by
  rw [exec_srai]; unfold execSrai; unfold alu1; exact ⟨_, rfl⟩
theorem exec_li (c) (dst) (imm) (s : State) : exec (.li c dst imm) s = execLi c dst imm s := rfl
theorem exec_li_issue (c) (dst) (imm) (s : State) : ∃ body, exec (.li c dst imm) s = issue (.li c dst imm) c s body := by
  rw [exec_li]; unfold execLi; exact ⟨_, rfl⟩
theorem exec_fadd (c) (dst) (sa) (sb) (s : State) : exec (.fadd c dst sa sb) s = execFadd c dst sa sb s := rfl
theorem exec_fadd_issue (c) (dst) (sa) (sb) (s : State) : ∃ body, exec (.fadd c dst sa sb) s = issue (.fadd c dst sa sb) c s body := by
  rw [exec_fadd]; unfold execFadd; unfold falu; unfold alu; exact ⟨_, rfl⟩
theorem exec_fsub (c) (dst) (sa) (sb) (s : State) : exec (.fsub c dst sa sb) s = execFsub c dst sa sb s := rfl
theorem exec_fsub_issue (c) (dst) (sa) (sb) (s : State) : ∃ body, exec (.fsub c dst sa sb) s = issue (.fsub c dst sa sb) c s body := by
  rw [exec_fsub]; unfold execFsub; unfold falu; unfold alu; exact ⟨_, rfl⟩
theorem exec_fmul (c) (dst) (sa) (sb) (s : State) : exec (.fmul c dst sa sb) s = execFmul c dst sa sb s := rfl
theorem exec_fmul_issue (c) (dst) (sa) (sb) (s : State) : ∃ body, exec (.fmul c dst sa sb) s = issue (.fmul c dst sa sb) c s body := by
  rw [exec_fmul]; unfold execFmul; unfold falu; unfold alu; exact ⟨_, rfl⟩
theorem exec_ffma (c) (dst) (sa) (sb) (sc) (s : State) : exec (.ffma c dst sa sb sc) s = execFfma c dst sa sb sc s := rfl
theorem exec_ffma_issue (c) (dst) (sa) (sb) (sc) (s : State) : ∃ body, exec (.ffma c dst sa sb sc) s = issue (.ffma c dst sa sb sc) c s body := by
  rw [exec_ffma]; unfold execFfma; exact ⟨_, rfl⟩
theorem exec_fmin (c) (dst) (sa) (sb) (s : State) : exec (.fmin c dst sa sb) s = execFmin c dst sa sb s := rfl
theorem exec_fmin_issue (c) (dst) (sa) (sb) (s : State) : ∃ body, exec (.fmin c dst sa sb) s = issue (.fmin c dst sa sb) c s body := by
  rw [exec_fmin]; unfold execFmin; unfold falu; unfold alu; exact ⟨_, rfl⟩
theorem exec_fmax (c) (dst) (sa) (sb) (s : State) : exec (.fmax c dst sa sb) s = execFmax c dst sa sb s := rfl
theorem exec_fmax_issue (c) (dst) (sa) (sb) (s : State) : ∃ body, exec (.fmax c dst sa sb) s = issue (.fmax c dst sa sb) c s body := by
  rw [exec_fmax]; unfold execFmax; unfold falu; unfold alu; exact ⟨_, rfl⟩
theorem exec_fcmp (c) (cond) (pt) (sa) (sb) (pf) (s : State) : exec (.fcmp c cond pt sa sb pf) s = execFcmp c cond pt sa sb pf s := rfl
theorem exec_fcmp_issue (c) (cond) (pt) (sa) (sb) (pf) (s : State) : ∃ body, exec (.fcmp c cond pt sa sb pf) s = issue (.fcmp c cond pt sa sb pf) c s body := by
  rw [exec_fcmp]; unfold execFcmp; exact ⟨_, rfl⟩
theorem exec_fcvt (c) (src) (ty) (dst) (sa) (s : State) : exec (.fcvt c src ty dst sa) s = execFcvt c src ty dst sa s := rfl
theorem exec_fcvt_issue (c) (src) (ty) (dst) (sa) (s : State) : ∃ body, exec (.fcvt c src ty dst sa) s = issue (.fcvt c src ty dst sa) c s body := by
  rw [exec_fcvt]; unfold execFcvt; unfold alu1; exact ⟨_, rfl⟩
theorem exec_pand (c) (dst) (sa) (sb) (na) (nb) (s : State) : exec (.pand c dst sa sb na nb) s = execPand c dst sa sb na nb s := rfl
theorem exec_pand_issue (c) (dst) (sa) (sb) (na) (nb) (s : State) : ∃ body, exec (.pand c dst sa sb na nb) s = issue (.pand c dst sa sb na nb) c s body := by
  rw [exec_pand]; unfold execPand; unfold predOp; exact ⟨_, rfl⟩
theorem exec_por (c) (dst) (sa) (sb) (na) (nb) (s : State) : exec (.por c dst sa sb na nb) s = execPor c dst sa sb na nb s := rfl
theorem exec_por_issue (c) (dst) (sa) (sb) (na) (nb) (s : State) : ∃ body, exec (.por c dst sa sb na nb) s = issue (.por c dst sa sb na nb) c s body := by
  rw [exec_por]; unfold execPor; unfold predOp; exact ⟨_, rfl⟩
theorem exec_pxor (c) (dst) (sa) (sb) (na) (nb) (s : State) : exec (.pxor c dst sa sb na nb) s = execPxor c dst sa sb na nb s := rfl
theorem exec_pxor_issue (c) (dst) (sa) (sb) (na) (nb) (s : State) : ∃ body, exec (.pxor c dst sa sb na nb) s = issue (.pxor c dst sa sb na nb) c s body := by
  rw [exec_pxor]; unfold execPxor; unfold predOp; exact ⟨_, rfl⟩
theorem exec_pmov (c) (op) (s : State) : exec (.pmov c op) s = execPmov c op s := rfl
theorem exec_pmov_issue (c) (op) (s : State) : ∃ body, exec (.pmov c op) s = issue (.pmov c op) c s body := by
  rw [exec_pmov]; unfold execPmov; exact ⟨_, rfl⟩
theorem exec_br (c) (ofs) (s : State) : exec (.br c ofs) s = execBr c ofs s := rfl
theorem exec_br_issue (c) (ofs) (s : State) : ∃ body, exec (.br c ofs) s = issue (.br c ofs) c s body := by
  rw [exec_br]; unfold execBr; exact ⟨_, rfl⟩
theorem exec_jmp (c) (sa) (ofs) (s : State) : exec (.jmp c sa ofs) s = execJmp c sa ofs s := rfl
theorem exec_jmp_issue (c) (sa) (ofs) (s : State) : ∃ body, exec (.jmp c sa ofs) s = issue (.jmp c sa ofs) c s body := by
  rw [exec_jmp]; unfold execJmp; exact ⟨_, rfl⟩
theorem exec_jal (c) (dst) (ofs) (s : State) : exec (.jal c dst ofs) s = execJal c dst ofs s := rfl
theorem exec_jal_issue (c) (dst) (ofs) (s : State) : ∃ body, exec (.jal c dst ofs) s = issue (.jal c dst ofs) c s body := by
  rw [exec_jal]; unfold execJal; exact ⟨_, rfl⟩
theorem exec_jr (c) (dst) (sa) (s : State) : exec (.jr c dst sa) s = execJr c dst sa s := rfl
theorem exec_jr_issue (c) (dst) (sa) (s : State) : ∃ body, exec (.jr c dst sa) s = issue (.jr c dst sa) c s body := by
  rw [exec_jr]; unfold execJr; exact ⟨_, rfl⟩
theorem exec_loop (c) (src) (stg) (smod) (bdy) (s : State) : exec (.loop c src stg smod bdy) s = execLoop c src stg smod bdy s := rfl
theorem exec_loop_issue (c) (src) (stg) (smod) (bdy) (s : State) : ∃ body, exec (.loop c src stg smod bdy) s = issue (.loop c src stg smod bdy) c s body := by
  rw [exec_loop]; unfold execLoop; exact ⟨_, rfl⟩
theorem exec_nop (c) (s : State) : exec (.nop c) s = execNop c s := rfl
theorem exec_nop_issue (c) (s : State) : ∃ body, exec (.nop c) s = issue (.nop c) c s body := by
  rw [exec_nop]; unfold execNop; exact ⟨_, rfl⟩
theorem exec_endStrand (c) (s : State) : exec (.endStrand c) s = execEndStrand c s := rfl
theorem exec_endStrand_issue (c) (s : State) : ∃ body, exec (.endStrand c) s = issue (.endStrand c) c s body := by
  rw [exec_endStrand]; unfold execEndStrand; exact ⟨_, rfl⟩
theorem exec_yield (c) (n) (s : State) : exec (.yield c n) s = execYield c n s := rfl
theorem exec_yield_issue (c) (n) (s : State) : ∃ body, exec (.yield c n) s = issue (.yield c n) c s body := by
  rw [exec_yield]; unfold execYield; exact ⟨_, rfl⟩
theorem exec_ld (c) (ty) (as) (dst) (sa) (ofs) (s : State) : exec (.ld c ty as dst sa ofs) s = execLd c ty as dst sa ofs s := rfl
theorem exec_ld_issue (c) (ty) (as) (dst) (sa) (ofs) (s : State) : ∃ body, exec (.ld c ty as dst sa ofs) s = issue (.ld c ty as dst sa ofs) c s body := by
  rw [exec_ld]; unfold execLd; exact ⟨_, rfl⟩
theorem exec_st (c) (ty) (as) (dst) (sa) (ofs) (s : State) : exec (.st c ty as dst sa ofs) s = execSt c ty as dst sa ofs s := rfl
theorem exec_st_issue (c) (ty) (as) (dst) (sa) (ofs) (s : State) : ∃ body, exec (.st c ty as dst sa ofs) s = issue (.st c ty as dst sa ofs) c s body := by
  rw [exec_st]; unfold execSt; exact ⟨_, rfl⟩
theorem exec_ldv (c) (m) (ty) (as) (km) (dst) (sa) (ofs) (s : State) : exec (.ldv c m ty as km dst sa ofs) s = execLdv c m ty as km dst sa ofs s := rfl
theorem exec_ldv_issue (c) (m) (ty) (as) (km) (dst) (sa) (ofs) (s : State) : ∃ body, exec (.ldv c m ty as km dst sa ofs) s = issue (.ldv c m ty as km dst sa ofs) c s body := by
  rw [exec_ldv]; unfold execLdv; exact ⟨_, rfl⟩
theorem exec_stv (c) (ty) (as) (km) (dst) (sa) (ofs) (s : State) : exec (.stv c ty as km dst sa ofs) s = execStv c ty as km dst sa ofs s := rfl
theorem exec_stv_issue (c) (ty) (as) (km) (dst) (sa) (ofs) (s : State) : ∃ body, exec (.stv c ty as km dst sa ofs) s = issue (.stv c ty as km dst sa ofs) c s body := by
  rw [exec_stv]; unfold execStv; exact ⟨_, rfl⟩
theorem exec_ldg (c) (ty) (dst) (sa) (sb) (sc) (x) (s : State) : exec (.ldg c ty dst sa sb sc x) s = execLdg c ty dst sa sb sc x s := rfl
theorem exec_ldg_issue (c) (ty) (dst) (sa) (sb) (sc) (x) (s : State) : ∃ body, exec (.ldg c ty dst sa sb sc x) s = issue (.ldg c ty dst sa sb sc x) c s body := by
  rw [exec_ldg]; unfold execLdg; exact ⟨_, rfl⟩
theorem exec_stg (c) (ty) (dst) (sa) (sb) (sc) (x) (s : State) : exec (.stg c ty dst sa sb sc x) s = execStg c ty dst sa sb sc x s := rfl
theorem exec_stg_issue (c) (ty) (dst) (sa) (sb) (sc) (x) (s : State) : ∃ body, exec (.stg c ty dst sa sb sc x) s = issue (.stg c ty dst sa sb sc x) c s body := by
  rw [exec_stg]; unfold execStg; exact ⟨_, rfl⟩
theorem exec_pref (c) (dst) (sa) (sb) (ofs) (s : State) : exec (.pref c dst sa sb ofs) s = execPref c dst sa sb ofs s := rfl
theorem exec_pref_issue (c) (dst) (sa) (sb) (ofs) (s : State) : ∃ body, exec (.pref c dst sa sb ofs) s = issue (.pref c dst sa sb ofs) c s body := by
  rw [exec_pref]; unfold execPref; exact ⟨_, rfl⟩
theorem exec_wb (c) (sa) (sb) (s : State) : exec (.wb c sa sb) s = execWb c sa sb s := rfl
theorem exec_wb_issue (c) (sa) (sb) (s : State) : ∃ body, exec (.wb c sa sb) s = issue (.wb c sa sb) c s body := by
  rw [exec_wb]; unfold execWb; exact ⟨_, rfl⟩
theorem exec_inv (c) (sa) (sb) (s : State) : exec (.inv c sa sb) s = execInv c sa sb s := rfl
theorem exec_inv_issue (c) (sa) (sb) (s : State) : ∃ body, exec (.inv c sa sb) s = issue (.inv c sa sb) c s body := by
  rw [exec_inv]; unfold execInv; exact ⟨_, rfl⟩
theorem exec_icinv (c) (scope) (sa) (sb) (s : State) : exec (.icinv c scope sa sb) s = execIcinv c scope sa sb s := rfl
theorem exec_icinv_issue (c) (scope) (sa) (sb) (s : State) : ∃ body, exec (.icinv c scope sa sb) s = issue (.icinv c scope sa sb) c s body := by
  rw [exec_icinv]; unfold execIcinv; exact ⟨_, rfl⟩
theorem exec_vadd (c) (ty) (mz) (sat) (km) (dst) (sa) (sb) (s : State) : exec (.vadd c ty mz sat km dst sa sb) s = execVadd c ty mz sat km dst sa sb s := rfl
theorem exec_vadd_issue (c) (ty) (mz) (sat) (km) (dst) (sa) (sb) (s : State) : ∃ body, exec (.vadd c ty mz sat km dst sa sb) s = issue (.vadd c ty mz sat km dst sa sb) c s body := by
  rw [exec_vadd]; unfold execVadd; unfold vop2; unfold vop; exact ⟨_, rfl⟩
theorem exec_vsub (c) (ty) (mz) (sat) (km) (dst) (sa) (sb) (s : State) : exec (.vsub c ty mz sat km dst sa sb) s = execVsub c ty mz sat km dst sa sb s := rfl
theorem exec_vsub_issue (c) (ty) (mz) (sat) (km) (dst) (sa) (sb) (s : State) : ∃ body, exec (.vsub c ty mz sat km dst sa sb) s = issue (.vsub c ty mz sat km dst sa sb) c s body := by
  rw [exec_vsub]; unfold execVsub; unfold vop2; unfold vop; exact ⟨_, rfl⟩
theorem exec_vmul (c) (ty) (mz) (sat) (km) (dst) (sa) (sb) (s : State) : exec (.vmul c ty mz sat km dst sa sb) s = execVmul c ty mz sat km dst sa sb s := rfl
theorem exec_vmul_issue (c) (ty) (mz) (sat) (km) (dst) (sa) (sb) (s : State) : ∃ body, exec (.vmul c ty mz sat km dst sa sb) s = issue (.vmul c ty mz sat km dst sa sb) c s body := by
  rw [exec_vmul]; unfold execVmul; unfold vop2; unfold vop; exact ⟨_, rfl⟩
theorem exec_vmad (c) (ty) (mz) (sat) (km) (dst) (sa) (sb) (sc) (s : State) : exec (.vmad c ty mz sat km dst sa sb sc) s = execVmad c ty mz sat km dst sa sb sc s := rfl
theorem exec_vmad_issue (c) (ty) (mz) (sat) (km) (dst) (sa) (sb) (sc) (s : State) : ∃ body, exec (.vmad c ty mz sat km dst sa sb sc) s = issue (.vmad c ty mz sat km dst sa sb sc) c s body := by
  rw [exec_vmad]; unfold execVmad; unfold vop; exact ⟨_, rfl⟩
theorem exec_vmin (c) (ty) (mz) (km) (dst) (sa) (sb) (s : State) : exec (.vmin c ty mz km dst sa sb) s = execVmin c ty mz km dst sa sb s := rfl
theorem exec_vmin_issue (c) (ty) (mz) (km) (dst) (sa) (sb) (s : State) : ∃ body, exec (.vmin c ty mz km dst sa sb) s = issue (.vmin c ty mz km dst sa sb) c s body := by
  rw [exec_vmin]; unfold execVmin; unfold vop2; unfold vop; exact ⟨_, rfl⟩
theorem exec_vmax (c) (ty) (mz) (km) (dst) (sa) (sb) (s : State) : exec (.vmax c ty mz km dst sa sb) s = execVmax c ty mz km dst sa sb s := rfl
theorem exec_vmax_issue (c) (ty) (mz) (km) (dst) (sa) (sb) (s : State) : ∃ body, exec (.vmax c ty mz km dst sa sb) s = issue (.vmax c ty mz km dst sa sb) c s body := by
  rw [exec_vmax]; unfold execVmax; unfold vop2; unfold vop; exact ⟨_, rfl⟩
theorem exec_vabs (c) (ty) (mz) (sat) (km) (dst) (sa) (s : State) : exec (.vabs c ty mz sat km dst sa) s = execVabs c ty mz sat km dst sa s := rfl
theorem exec_vabs_issue (c) (ty) (mz) (sat) (km) (dst) (sa) (s : State) : ∃ body, exec (.vabs c ty mz sat km dst sa) s = issue (.vabs c ty mz sat km dst sa) c s body := by
  rw [exec_vabs]; unfold execVabs; unfold vop1; unfold vop; exact ⟨_, rfl⟩
theorem exec_vneg (c) (ty) (mz) (sat) (km) (dst) (sa) (s : State) : exec (.vneg c ty mz sat km dst sa) s = execVneg c ty mz sat km dst sa s := rfl
theorem exec_vneg_issue (c) (ty) (mz) (sat) (km) (dst) (sa) (s : State) : ∃ body, exec (.vneg c ty mz sat km dst sa) s = issue (.vneg c ty mz sat km dst sa) c s body := by
  rw [exec_vneg]; unfold execVneg; unfold vop1; unfold vop; exact ⟨_, rfl⟩
theorem exec_vand (c) (ty) (mz) (km) (dst) (sa) (sb) (s : State) : exec (.vand c ty mz km dst sa sb) s = execVand c ty mz km dst sa sb s := rfl
theorem exec_vand_issue (c) (ty) (mz) (km) (dst) (sa) (sb) (s : State) : ∃ body, exec (.vand c ty mz km dst sa sb) s = issue (.vand c ty mz km dst sa sb) c s body := by
  rw [exec_vand]; unfold execVand; unfold vop2; unfold vop; exact ⟨_, rfl⟩
theorem exec_vor (c) (ty) (mz) (km) (dst) (sa) (sb) (s : State) : exec (.vor c ty mz km dst sa sb) s = execVor c ty mz km dst sa sb s := rfl
theorem exec_vor_issue (c) (ty) (mz) (km) (dst) (sa) (sb) (s : State) : ∃ body, exec (.vor c ty mz km dst sa sb) s = issue (.vor c ty mz km dst sa sb) c s body := by
  rw [exec_vor]; unfold execVor; unfold vop2; unfold vop; exact ⟨_, rfl⟩
theorem exec_vxor (c) (ty) (mz) (km) (dst) (sa) (sb) (s : State) : exec (.vxor c ty mz km dst sa sb) s = execVxor c ty mz km dst sa sb s := rfl
theorem exec_vxor_issue (c) (ty) (mz) (km) (dst) (sa) (sb) (s : State) : ∃ body, exec (.vxor c ty mz km dst sa sb) s = issue (.vxor c ty mz km dst sa sb) c s body := by
  rw [exec_vxor]; unfold execVxor; unfold vop2; unfold vop; exact ⟨_, rfl⟩
theorem exec_vshl (c) (ty) (mz) (km) (dst) (sa) (sb) (s : State) : exec (.vshl c ty mz km dst sa sb) s = execVshl c ty mz km dst sa sb s := rfl
theorem exec_vshl_issue (c) (ty) (mz) (km) (dst) (sa) (sb) (s : State) : ∃ body, exec (.vshl c ty mz km dst sa sb) s = issue (.vshl c ty mz km dst sa sb) c s body := by
  rw [exec_vshl]; unfold execVshl; unfold vop2; unfold vop; exact ⟨_, rfl⟩
theorem exec_vshr (c) (ty) (mz) (km) (dst) (sa) (sb) (s : State) : exec (.vshr c ty mz km dst sa sb) s = execVshr c ty mz km dst sa sb s := rfl
theorem exec_vshr_issue (c) (ty) (mz) (km) (dst) (sa) (sb) (s : State) : ∃ body, exec (.vshr c ty mz km dst sa sb) s = issue (.vshr c ty mz km dst sa sb) c s body := by
  rw [exec_vshr]; unfold execVshr; unfold vop2; unfold vop; exact ⟨_, rfl⟩
theorem exec_vsra (c) (ty) (mz) (km) (dst) (sa) (sb) (s : State) : exec (.vsra c ty mz km dst sa sb) s = execVsra c ty mz km dst sa sb s := rfl
theorem exec_vsra_issue (c) (ty) (mz) (km) (dst) (sa) (sb) (s : State) : ∃ body, exec (.vsra c ty mz km dst sa sb) s = issue (.vsra c ty mz km dst sa sb) c s body := by
  rw [exec_vsra]; unfold execVsra; unfold vop2; unfold vop; exact ⟨_, rfl⟩
theorem exec_vcmp (c) (cond) (ty) (km) (dst) (sa) (sb) (xk) (s : State) : exec (.vcmp c cond ty km dst sa sb xk) s = execVcmp c cond ty km dst sa sb xk s := rfl
theorem exec_vcmp_issue (c) (cond) (ty) (km) (dst) (sa) (sb) (xk) (s : State) : ∃ body, exec (.vcmp c cond ty km dst sa sb xk) s = issue (.vcmp c cond ty km dst sa sb xk) c s body := by
  rw [exec_vcmp]; unfold execVcmp; exact ⟨_, rfl⟩
theorem exec_vsel (c) (ty) (km) (dst) (sa) (sb) (s : State) : exec (.vsel c ty km dst sa sb) s = execVsel c ty km dst sa sb s := rfl
theorem exec_vsel_issue (c) (ty) (km) (dst) (sa) (sb) (s : State) : ∃ body, exec (.vsel c ty km dst sa sb) s = issue (.vsel c ty km dst sa sb) c s body := by
  rw [exec_vsel]; unfold execVsel; exact ⟨_, rfl⟩
theorem exec_vcvt (c) (src) (ty) (mz) (hp) (km) (dst) (sa) (s : State) : exec (.vcvt c src ty mz hp km dst sa) s = execVcvt c src ty mz hp km dst sa s := rfl
theorem exec_vcvt_issue (c) (src) (ty) (mz) (hp) (km) (dst) (sa) (s : State) : ∃ body, exec (.vcvt c src ty mz hp km dst sa) s = issue (.vcvt c src ty mz hp km dst sa) c s body := by
  rw [exec_vcvt]; unfold execVcvt; exact ⟨_, rfl⟩
theorem exec_vpack (c) (src) (mw) (km) (es) (dst) (sa) (sb) (sc) (s : State) : exec (.vpack c src mw km es dst sa sb sc) s = execVpack c src mw km es dst sa sb sc s := rfl
theorem exec_vpack_issue (c) (src) (mw) (km) (es) (dst) (sa) (sb) (sc) (s : State) : ∃ body, exec (.vpack c src mw km es dst sa sb sc) s = issue (.vpack c src mw km es dst sa sb sc) c s body := by
  rw [exec_vpack]; unfold execVpack; exact ⟨_, rfl⟩
theorem exec_vunpack (c) (ty) (mw) (mz) (hp) (km) (dst) (sa) (sc) (s : State) : exec (.vunpack c ty mw mz hp km dst sa sc) s = execVunpack c ty mw mz hp km dst sa sc s := rfl
theorem exec_vunpack_issue (c) (ty) (mw) (mz) (hp) (km) (dst) (sa) (sc) (s : State) : ∃ body, exec (.vunpack c ty mw mz hp km dst sa sc) s = issue (.vunpack c ty mw mz hp km dst sa sc) c s body := by
  rw [exec_vunpack]; unfold execVunpack; unfold vop; exact ⟨_, rfl⟩
theorem exec_vredsum (c) (ty) (sat) (km) (dst) (sa) (s : State) : exec (.vredsum c ty sat km dst sa) s = execVredsum c ty sat km dst sa s := rfl
theorem exec_vredsum_issue (c) (ty) (sat) (km) (dst) (sa) (s : State) : ∃ body, exec (.vredsum c ty sat km dst sa) s = issue (.vredsum c ty sat km dst sa) c s body := by
  rw [exec_vredsum]; unfold execVredsum; exact ⟨_, rfl⟩
theorem exec_vredmax (c) (ty) (km) (dst) (sa) (sc) (s : State) : exec (.vredmax c ty km dst sa sc) s = execVredmax c ty km dst sa sc s := rfl
theorem exec_vredmax_issue (c) (ty) (km) (dst) (sa) (sc) (s : State) : ∃ body, exec (.vredmax c ty km dst sa sc) s = issue (.vredmax c ty km dst sa sc) c s body := by
  rw [exec_vredmax]; unfold execVredmax; exact ⟨_, rfl⟩
theorem exec_vredmin (c) (ty) (km) (dst) (sa) (sc) (s : State) : exec (.vredmin c ty km dst sa sc) s = execVredmin c ty km dst sa sc s := rfl
theorem exec_vredmin_issue (c) (ty) (km) (dst) (sa) (sc) (s : State) : ∃ body, exec (.vredmin c ty km dst sa sc) s = issue (.vredmin c ty km dst sa sc) c s body := by
  rw [exec_vredmin]; unfold execVredmin; exact ⟨_, rfl⟩
theorem exec_vperm (c) (t2) (ty) (mz) (km) (dst) (sa) (sb) (sc) (s : State) : exec (.vperm c t2 ty mz km dst sa sb sc) s = execVperm c t2 ty mz km dst sa sb sc s := rfl
theorem exec_vperm_issue (c) (t2) (ty) (mz) (km) (dst) (sa) (sb) (sc) (s : State) : ∃ body, exec (.vperm c t2 ty mz km dst sa sb sc) s = issue (.vperm c t2 ty mz km dst sa sb sc) c s body := by
  rw [exec_vperm]; unfold execVperm; unfold vop; exact ⟨_, rfl⟩
theorem exec_vbcast (c) (op) (ty) (mz) (km) (dst) (s : State) : exec (.vbcast c op ty mz km dst) s = execVbcast c op ty mz km dst s := rfl
theorem exec_vbcast_issue (c) (op) (ty) (mz) (km) (dst) (s : State) : ∃ body, exec (.vbcast c op ty mz km dst) s = issue (.vbcast c op ty mz km dst) c s body := by
  rw [exec_vbcast]; unfold execVbcast; unfold vop; exact ⟨_, rfl⟩
theorem exec_vslide (c) (up) (ty) (mz) (km) (dst) (sa) (sb) (sc) (s : State) : exec (.vslide c up ty mz km dst sa sb sc) s = execVslide c up ty mz km dst sa sb sc s := rfl
theorem exec_vslide_issue (c) (up) (ty) (mz) (km) (dst) (sa) (sb) (sc) (s : State) : ∃ body, exec (.vslide c up ty mz km dst sa sb sc) s = issue (.vslide c up ty mz km dst sa sb sc) c s body := by
  rw [exec_vslide]; unfold execVslide; unfold vop; exact ⟨_, rfl⟩
theorem exec_vext (c) (ty) (dst) (sa) (sb) (s : State) : exec (.vext c ty dst sa sb) s = execVext c ty dst sa sb s := rfl
theorem exec_vext_issue (c) (ty) (dst) (sa) (sb) (s : State) : ∃ body, exec (.vext c ty dst sa sb) s = issue (.vext c ty dst sa sb) c s body := by
  rw [exec_vext]; unfold execVext; exact ⟨_, rfl⟩
theorem exec_vins (c) (ty) (dst) (sa) (sb) (s : State) : exec (.vins c ty dst sa sb) s = execVins c ty dst sa sb s := rfl
theorem exec_vins_issue (c) (ty) (dst) (sa) (sb) (s : State) : ∃ body, exec (.vins c ty dst sa sb) s = issue (.vins c ty dst sa sb) c s body := by
  rw [exec_vins]; unfold execVins; exact ⟨_, rfl⟩
theorem exec_vdist (c) (fn) (ty) (acc) (gs) (km) (ok) (dst) (sa) (sb) (s : State) : exec (.vdist c fn ty acc gs km ok dst sa sb) s = execVdist c fn ty acc gs km ok dst sa sb s := rfl
theorem exec_vdist_issue (c) (fn) (ty) (acc) (gs) (km) (ok) (dst) (sa) (sb) (s : State) : ∃ body, exec (.vdist c fn ty acc gs km ok dst sa sb) s = issue (.vdist c fn ty acc gs km ok dst sa sb) c s body := by
  rw [exec_vdist]; unfold execVdist; exact ⟨_, rfl⟩
theorem exec_vtab (c) (ty) (mz) (km) (tb) (dst) (sa) (s : State) : exec (.vtab c ty mz km tb dst sa) s = execVtab c ty mz km tb dst sa s := rfl
theorem exec_vtab_issue (c) (ty) (mz) (km) (tb) (dst) (sa) (s : State) : ∃ body, exec (.vtab c ty mz km tb dst sa) s = issue (.vtab c ty mz km tb dst sa) c s body := by
  rw [exec_vtab]; unfold execVtab; exact ⟨_, rfl⟩
theorem exec_vtabService (core) (s : State) : exec (.vtabService core) s = execVtabService core s := rfl
theorem exec_vstrm (c) (axpy) (ty) (mw) (das) (sas) (sa) (sb) (sc) (s : State) : exec (.vstrm c axpy ty mw das sas sa sb sc) s = execVstrm c axpy ty mw das sas sa sb sc s := rfl
theorem exec_vstrm_issue (c) (axpy) (ty) (mw) (das) (sas) (sa) (sb) (sc) (s : State) : ∃ body, exec (.vstrm c axpy ty mw das sas sa sb sc) s = issue (.vstrm c axpy ty mw das sas sa sb sc) c s body := by
  rw [exec_vstrm]; unfold execVstrm; exact ⟨_, rfl⟩
theorem exec_vstrmChunk (k) (s : State) : exec (.vstrmChunk k) s = execVstrmChunk k s := rfl
theorem exec_wld (c) (sa) (was) (full) (nw) (col0) (kb0) (s : State) : exec (.wld c sa was full nw col0 kb0) s = execWld c sa was full nw col0 kb0 s := rfl
theorem exec_wld_issue (c) (sa) (was) (full) (nw) (col0) (kb0) (s : State) : ∃ body, exec (.wld c sa was full nw col0 kb0) s = issue (.wld c sa was full nw col0 kb0) c s body := by
  rw [exec_wld]; unfold execWld; exact ⟨_, rfl⟩
theorem exec_mma (c) (dst) (sa) (aas) (kb0) (row0) (nrow) (s : State) : exec (.mma c dst sa aas kb0 row0 nrow) s = execMma c dst sa aas kb0 row0 nrow s := rfl
theorem exec_mma_issue (c) (dst) (sa) (aas) (kb0) (row0) (nrow) (s : State) : ∃ body, exec (.mma c dst sa aas kb0 row0 nrow) s = issue (.mma c dst sa aas kb0 row0 nrow) c s body := by
  rw [exec_mma]; unfold execMma; exact ⟨_, rfl⟩
theorem exec_mmaG (c) (dst) (sa) (sb) (aas) (was) (kb0) (row0) (col0) (nrow) (ncol) (nkb) (s : State) : exec (.mmaG c dst sa sb aas was kb0 row0 col0 nrow ncol nkb) s = execMmaG c dst sa sb aas was kb0 row0 col0 nrow ncol nkb s := rfl
theorem exec_mmaG_issue (c) (dst) (sa) (sb) (aas) (was) (kb0) (row0) (col0) (nrow) (ncol) (nkb) (s : State) : ∃ body, exec (.mmaG c dst sa sb aas was kb0 row0 col0 nrow ncol nkb) s = issue (.mmaG c dst sa sb aas was kb0 row0 col0 nrow ncol nkb) c s body := by
  rw [exec_mmaG]; unfold execMmaG; exact ⟨_, rfl⟩
theorem exec_blockStep (k) (s : State) : exec (.blockStep k) s = execBlockStep k s := rfl
theorem exec_mmaGRendezvous (k) (s : State) : exec (.mmaGRendezvous k) s = execMmaGRendezvous k s := rfl
theorem exec_accz (c) (dst) (s : State) : exec (.accz c dst) s = execAccz c dst s := rfl
theorem exec_accz_issue (c) (dst) (s : State) : ∃ body, exec (.accz c dst) s = issue (.accz c dst) c s body := by
  rw [exec_accz]; unfold execAccz; exact ⟨_, rfl⟩
theorem exec_accrd (c) (ty) (mw) (sa) (sb) (das) (dcol) (drow) (s : State) : exec (.accrd c ty mw sa sb das dcol drow) s = execAccrd c ty mw sa sb das dcol drow s := rfl
theorem exec_accrd_issue (c) (ty) (mw) (sa) (sb) (das) (dcol) (drow) (s : State) : ∃ body, exec (.accrd c ty mw sa sb das dcol drow) s = issue (.accrd c ty mw sa sb das dcol drow) c s body := by
  rw [exec_accrd]; unfold execAccrd; exact ⟨_, rfl⟩
theorem exec_accexpRd (c) (dst) (sa) (s : State) : exec (.accexpRd c dst sa) s = execAccexpRd c dst sa s := rfl
theorem exec_accexpRd_issue (c) (dst) (sa) (s : State) : ∃ body, exec (.accexpRd c dst sa) s = issue (.accexpRd c dst sa) c s body := by
  rw [exec_accexpRd]; unfold execAccexpRd; exact ⟨_, rfl⟩
theorem exec_accexpAl (c) (dst) (sa) (s : State) : exec (.accexpAl c dst sa) s = execAccexpAl c dst sa s := rfl
theorem exec_accexpAl_issue (c) (dst) (sa) (s : State) : ∃ body, exec (.accexpAl c dst sa) s = issue (.accexpAl c dst sa) c s body := by
  rw [exec_accexpAl]; unfold execAccexpAl; exact ⟨_, rfl⟩
theorem exec_walki (c) (dst) (sa) (sb) (sc) (aas) (maxd) (row0) (nr) (s : State) : exec (.walki c dst sa sb sc aas maxd row0 nr) s = execWalki c dst sa sb sc aas maxd row0 nr s := rfl
theorem exec_walki_issue (c) (dst) (sa) (sb) (sc) (aas) (maxd) (row0) (nr) (s : State) : ∃ body, exec (.walki c dst sa sb sc aas maxd row0 nr) s = issue (.walki c dst sa sb sc aas maxd row0 nr) c s body := by
  rw [exec_walki]; unfold execWalki; exact ⟨_, rfl⟩
theorem exec_walk (c) (sa) (sb) (sc) (aas) (maxd) (row0) (s : State) : exec (.walk c sa sb sc aas maxd row0) s = execWalk c sa sb sc aas maxd row0 s := rfl
theorem exec_walk_issue (c) (sa) (sb) (sc) (aas) (maxd) (row0) (s : State) : ∃ body, exec (.walk c sa sb sc aas maxd row0) s = issue (.walk c sa sb sc aas maxd row0) c s body := by
  rw [exec_walk]; unfold execWalk; exact ⟨_, rfl⟩
theorem exec_walkRound (k) (s : State) : exec (.walkRound k) s = execWalkRound k s := rfl
theorem exec_walkStagingFetch (k) (chunk) (s : State) : exec (.walkStagingFetch k chunk) s = execWalkStagingFetch k chunk s := rfl
theorem exec_amo (c) (fn) (ty) (scope) (as) (ofs) (dst) (sa) (sb) (s : State) : exec (.amo c fn ty scope as ofs dst sa sb) s = execAmo c fn ty scope as ofs dst sa sb s := rfl
theorem exec_amo_issue (c) (fn) (ty) (scope) (as) (ofs) (dst) (sa) (sb) (s : State) : ∃ body, exec (.amo c fn ty scope as ofs dst sa sb) s = issue (.amo c fn ty scope as ofs dst sa sb) c s body := by
  rw [exec_amo]; unfold execAmo; exact ⟨_, rfl⟩
theorem exec_reductionMerge (a) (b) (s : State) : exec (.reductionMerge a b) s = execReductionMerge a b s := rfl
theorem exec_cas (c) (ty) (scope) (as) (dst) (sa) (sb) (sc) (s : State) : exec (.cas c ty scope as dst sa sb sc) s = execCas c ty scope as dst sa sb sc s := rfl
theorem exec_cas_issue (c) (ty) (scope) (as) (dst) (sa) (sb) (sc) (s : State) : ∃ body, exec (.cas c ty scope as dst sa sb sc) s = issue (.cas c ty scope as dst sa sb sc) c s body := by
  rw [exec_cas]; unfold execCas; exact ⟨_, rfl⟩
theorem exec_fence (c) (scope) (half) (s : State) : exec (.fence c scope half) s = execFence c scope half s := rfl
theorem exec_fence_issue (c) (scope) (half) (s : State) : ∃ body, exec (.fence c scope half) s = issue (.fence c scope half) c s body := by
  rw [exec_fence]; unfold execFence; exact ⟨_, rfl⟩
theorem exec_bind (c) (sa) (sb) (sc) (s : State) : exec (.bind c sa sb sc) s = execBind c sa sb sc s := rfl
theorem exec_bind_issue (c) (sa) (sb) (sc) (s : State) : ∃ body, exec (.bind c sa sb sc) s = issue (.bind c sa sb sc) c s body := by
  rw [exec_bind]; unfold execBind; exact ⟨_, rfl⟩
theorem exec_unbind (c) (sa) (sb) (sc) (s : State) : exec (.unbind c sa sb sc) s = execUnbind c sa sb sc s := rfl
theorem exec_unbind_issue (c) (sa) (sb) (sc) (s : State) : ∃ body, exec (.unbind c sa sb sc) s = issue (.unbind c sa sb sc) c s body := by
  rw [exec_unbind]; unfold execUnbind; exact ⟨_, rfl⟩
theorem exec_acq (c) (sa) (s : State) : exec (.acq c sa) s = execAcq c sa s := rfl
theorem exec_acq_issue (c) (sa) (s : State) : ∃ body, exec (.acq c sa) s = issue (.acq c sa) c s body := by
  rw [exec_acq]; unfold execAcq; exact ⟨_, rfl⟩
theorem exec_acqV (c) (sa) (s : State) : exec (.acqV c sa) s = execAcqV c sa s := rfl
theorem exec_acqV_issue (c) (sa) (s : State) : ∃ body, exec (.acqV c sa) s = issue (.acqV c sa) c s body := by
  rw [exec_acqV]; unfold execAcqV; exact ⟨_, rfl⟩
theorem exec_rel (c) (sa) (s : State) : exec (.rel c sa) s = execRel c sa s := rfl
theorem exec_rel_issue (c) (sa) (s : State) : ∃ body, exec (.rel c sa) s = issue (.rel c sa) c s body := by
  rw [exec_rel]; unfold execRel; exact ⟨_, rfl⟩
theorem exec_relV (c) (sa) (s : State) : exec (.relV c sa) s = execRelV c sa s := rfl
theorem exec_relV_issue (c) (sa) (s : State) : ∃ body, exec (.relV c sa) s = issue (.relV c sa) c s body := by
  rw [exec_relV]; unfold execRelV; exact ⟨_, rfl⟩
theorem exec_evwait (c) (dst) (sa) (s : State) : exec (.evwait c dst sa) s = execEvwait c dst sa s := rfl
theorem exec_evwait_issue (c) (dst) (sa) (s : State) : ∃ body, exec (.evwait c dst sa) s = issue (.evwait c dst sa) c s body := by
  rw [exec_evwait]; unfold execEvwait; exact ⟨_, rfl⟩
theorem exec_evwaitPk (c) (dst) (sa) (s : State) : exec (.evwaitPk c dst sa) s = execEvwaitPk c dst sa s := rfl
theorem exec_evwaitPk_issue (c) (dst) (sa) (s : State) : ∃ body, exec (.evwaitPk c dst sa) s = issue (.evwaitPk c dst sa) c s body := by
  rw [exec_evwaitPk]; unfold execEvwaitPk; exact ⟨_, rfl⟩
theorem exec_evsig (c) (sa) (sb) (s : State) : exec (.evsig c sa sb) s = execEvsig c sa sb s := rfl
theorem exec_evsig_issue (c) (sa) (sb) (s : State) : ∃ body, exec (.evsig c sa sb) s = issue (.evsig c sa sb) c s body := by
  rw [exec_evsig]; unfold execEvsig; exact ⟨_, rfl⟩
theorem exec_evsigClr (c) (sa) (sb) (s : State) : exec (.evsigClr c sa sb) s = execEvsigClr c sa sb s := rfl
theorem exec_evsigClr_issue (c) (sa) (sb) (s : State) : ∃ body, exec (.evsigClr c sa sb) s = issue (.evsigClr c sa sb) c s body := by
  rw [exec_evsigClr]; unfold execEvsigClr; exact ⟨_, rfl⟩
theorem exec_bar (c) (scope) (sa) (sb) (s : State) : exec (.bar c scope sa sb) s = execBar c scope sa sb s := rfl
theorem exec_bar_issue (c) (scope) (sa) (sb) (s : State) : ∃ body, exec (.bar c scope sa sb) s = issue (.bar c scope sa sb) c s body := by
  rw [exec_bar]; unfold execBar; exact ⟨_, rfl⟩
theorem exec_send (c) (dst) (sa) (sb) (tmo) (s : State) : exec (.send c dst sa sb tmo) s = execSend c dst sa sb tmo s := rfl
theorem exec_send_issue (c) (dst) (sa) (sb) (tmo) (s : State) : ∃ body, exec (.send c dst sa sb tmo) s = issue (.send c dst sa sb tmo) c s body := by
  rw [exec_send]; unfold execSend; exact ⟨_, rfl⟩
theorem exec_sendTimeout (k) (s : State) : exec (.sendTimeout k) s = execSendTimeout k s := rfl
theorem exec_recv (c) (dst) (sa) (sb) (tmo) (s : State) : exec (.recv c dst sa sb tmo) s = execRecv c dst sa sb tmo s := rfl
theorem exec_recv_issue (c) (dst) (sa) (sb) (tmo) (s : State) : ∃ body, exec (.recv c dst sa sb tmo) s = issue (.recv c dst sa sb tmo) c s body := by
  rw [exec_recv]; unfold execRecv; exact ⟨_, rfl⟩
theorem exec_recvTimeout (k) (s : State) : exec (.recvTimeout k) s = execRecvTimeout k s := rfl
theorem exec_rdrem (c) (dst) (sa) (sc) (ofs) (tmo) (s : State) : exec (.rdrem c dst sa sc ofs tmo) s = execRdrem c dst sa sc ofs tmo s := rfl
theorem exec_rdrem_issue (c) (dst) (sa) (sc) (ofs) (tmo) (s : State) : ∃ body, exec (.rdrem c dst sa sc ofs tmo) s = issue (.rdrem c dst sa sc ofs tmo) c s body := by
  rw [exec_rdrem]; unfold execRdrem; exact ⟨_, rfl⟩
theorem exec_rdremTimeout (k) (s : State) : exec (.rdremTimeout k) s = execRdremTimeout k s := rfl
theorem exec_waitseq (c) (eng) (sa) (s : State) : exec (.waitseq c eng sa) s = execWaitseq c eng sa s := rfl
theorem exec_waitseq_issue (c) (eng) (sa) (s : State) : ∃ body, exec (.waitseq c eng sa) s = issue (.waitseq c eng sa) c s body := by
  rw [exec_waitseq]; unfold execWaitseq; exact ⟨_, rfl⟩
theorem exec_copy (c) (dst) (sa) (as) (s : State) : exec (.copy c dst sa as) s = execCopy c dst sa as s := rfl
theorem exec_copy_issue (c) (dst) (sa) (as) (s : State) : ∃ body, exec (.copy c dst sa as) s = issue (.copy c dst sa as) c s body := by
  rw [exec_copy]; unfold execCopy; exact ⟨_, rfl⟩
theorem exec_copyChunk (cl) (idx) (s : State) : exec (.copyChunk cl idx) s = execCopyChunk cl idx s := rfl
theorem exec_copyComplete (cl) (idx) (s : State) : exec (.copyComplete cl idx) s = execCopyComplete cl idx s := rfl
theorem exec_tkopen (c) (fn) (dst) (sa) (s : State) : exec (.tkopen c fn dst sa) s = execTkopen c fn dst sa s := rfl
theorem exec_tkopen_issue (c) (fn) (dst) (sa) (s : State) : ∃ body, exec (.tkopen c fn dst sa) s = issue (.tkopen c fn dst sa) c s body := by
  rw [exec_tkopen]; unfold execTkopen; exact ⟨_, rfl⟩
theorem exec_tkpush (c) (sa) (sb) (km) (sc) (s : State) : exec (.tkpush c sa sb km sc) s = execTkpush c sa sb km sc s := rfl
theorem exec_tkpush_issue (c) (sa) (sb) (km) (sc) (s : State) : ∃ body, exec (.tkpush c sa sb km sc) s = issue (.tkpush c sa sb km sc) c s body := by
  rw [exec_tkpush]; unfold execTkpush; exact ⟨_, rfl⟩
theorem exec_tkdrain (c) (dst) (sa) (sb) (as) (s : State) : exec (.tkdrain c dst sa sb as) s = execTkdrain c dst sa sb as s := rfl
theorem exec_tkdrain_issue (c) (dst) (sa) (sb) (as) (s : State) : ∃ body, exec (.tkdrain c dst sa sb as) s = issue (.tkdrain c dst sa sb as) c s body := by
  rw [exec_tkdrain]; unfold execTkdrain; exact ⟨_, rfl⟩
theorem exec_tkdrainCl (c) (dst) (sa) (sb) (as) (s : State) : exec (.tkdrainCl c dst sa sb as) s = execTkdrainCl c dst sa sb as s := rfl
theorem exec_tkdrainCl_issue (c) (dst) (sa) (sb) (as) (s : State) : ∃ body, exec (.tkdrainCl c dst sa sb as) s = issue (.tkdrainCl c dst sa sb as) c s body := by
  rw [exec_tkdrainCl]; unfold execTkdrainCl; exact ⟨_, rfl⟩
theorem exec_topkDrainComplete (cl) (idx) (s : State) : exec (.topkDrainComplete cl idx) s = execTopkDrainComplete cl idx s := rfl
theorem exec_tabld (c) (dst) (sa) (as) (tb) (s : State) : exec (.tabld c dst sa as tb) s = execTabld c dst sa as tb s := rfl
theorem exec_tabld_issue (c) (dst) (sa) (as) (tb) (s : State) : ∃ body, exec (.tabld c dst sa as tb) s = issue (.tabld c dst sa as tb) c s body := by
  rw [exec_tabld]; unfold execTabld; exact ⟨_, rfl⟩
theorem exec_tableLoadComplete (core) (uncorrected) (s : State) : exec (.tableLoadComplete core uncorrected) s = execTableLoadComplete core uncorrected s := rfl
theorem exec_tspawn (c) (sa) (s : State) : exec (.tspawn c sa) s = execTspawn c sa s := rfl
theorem exec_tspawn_issue (c) (sa) (s : State) : ∃ body, exec (.tspawn c sa) s = issue (.tspawn c sa) c s body := by
  rw [exec_tspawn]; unfold execTspawn; exact ⟨_, rfl⟩
theorem exec_tdone (c) (s : State) : exec (.tdone c) s = execTdone c s := rfl
theorem exec_tdone_issue (c) (s : State) : ∃ body, exec (.tdone c) s = issue (.tdone c) c s body := by
  rw [exec_tdone]; unfold execTdone; exact ⟨_, rfl⟩
theorem exec_tdoneR (c) (s : State) : exec (.tdoneR c) s = execTdoneR c s := rfl
theorem exec_tdoneR_issue (c) (s : State) : ∃ body, exec (.tdoneR c) s = issue (.tdoneR c) c s body := by
  rw [exec_tdoneR]; unfold execTdoneR; exact ⟨_, rfl⟩
theorem exec_taskDeal (cl) (ctx) (s : State) : exec (.taskDeal cl ctx) s = execTaskDeal cl ctx s := rfl
theorem exec_taskReadyNotice (cl) (tcb) (s : State) : exec (.taskReadyNotice cl tcb) s = execTaskReadyNotice cl tcb s := rfl
theorem exec_copyTaskHandoff (cl) (s : State) : exec (.copyTaskHandoff cl) s = execCopyTaskHandoff cl s := rfl
theorem exec_emptyCardRetire (cl) (s : State) : exec (.emptyCardRetire cl) s = execEmptyCardRetire cl s := rfl
theorem exec_tdep (c) (sa) (imm) (s : State) : exec (.tdep c sa imm) s = execTdep c sa imm s := rfl
theorem exec_tdep_issue (c) (sa) (imm) (s : State) : ∃ body, exec (.tdep c sa imm) s = issue (.tdep c sa imm) c s body := by
  rw [exec_tdep]; unfold execTdep; exact ⟨_, rfl⟩
theorem exec_tcard (c) (dst) (s : State) : exec (.tcard c dst) s = execTcard c dst s := rfl
theorem exec_tcard_issue (c) (dst) (s : State) : ∃ body, exec (.tcard c dst) s = issue (.tcard c dst) c s body := by
  rw [exec_tcard]; unfold execTcard; exact ⟨_, rfl⟩
theorem exec_jopen (c) (sa) (s : State) : exec (.jopen c sa) s = execJopen c sa s := rfl
theorem exec_jopen_issue (c) (sa) (s : State) : ∃ body, exec (.jopen c sa) s = issue (.jopen c sa) c s body := by
  rw [exec_jopen]; unfold execJopen; exact ⟨_, rfl⟩
theorem exec_jenter (c) (sa) (sb) (s : State) : exec (.jenter c sa sb) s = execJenter c sa sb s := rfl
theorem exec_jenter_issue (c) (sa) (sb) (s : State) : ∃ body, exec (.jenter c sa sb) s = issue (.jenter c sa sb) c s body := by
  rw [exec_jenter]; unfold execJenter; exact ⟨_, rfl⟩
theorem exec_jcont (c) (s32) (sa) (sb) (km) (s : State) : exec (.jcont c s32 sa sb km) s = execJcont c s32 sa sb km s := rfl
theorem exec_jcont_issue (c) (s32) (sa) (sb) (km) (s : State) : ∃ body, exec (.jcont c s32 sa sb km) s = issue (.jcont c s32 sa sb km) c s body := by
  rw [exec_jcont]; unfold execJcont; exact ⟨_, rfl⟩
theorem exec_jarrive (c) (dst) (s : State) : exec (.jarrive c dst) s = execJarrive c dst s := rfl
theorem exec_jarrive_issue (c) (dst) (s : State) : ∃ body, exec (.jarrive c dst) s = issue (.jarrive c dst) c s body := by
  rw [exec_jarrive]; unfold execJarrive; exact ⟨_, rfl⟩
theorem exec_joinDeadline (rec) (s : State) : exec (.joinDeadline rec) s = execJoinDeadline rec s := rfl
theorem exec_childJoinArrival (rec) (s : State) : exec (.childJoinArrival rec) s = execChildJoinArrival rec s := rfl
theorem exec_stallCredit (idx) (s : State) : exec (.stallCredit idx) s = execStallCredit idx s := rfl
theorem exec_jwait (c) (dst) (sa) (sb) (tmo) (s : State) : exec (.jwait c dst sa sb tmo) s = execJwait c dst sa sb tmo s := rfl
theorem exec_jwait_issue (c) (dst) (sa) (sb) (tmo) (s : State) : ∃ body, exec (.jwait c dst sa sb tmo) s = issue (.jwait c dst sa sb tmo) c s body := by
  rw [exec_jwait]; unfold execJwait; exact ⟨_, rfl⟩
theorem exec_jwaitTimeout (k) (s : State) : exec (.jwaitTimeout k) s = execJwaitTimeout k s := rfl
theorem exec_jclose (c) (sa) (s : State) : exec (.jclose c sa) s = execJclose c sa s := rfl
theorem exec_jclose_issue (c) (sa) (s : State) : ∃ body, exec (.jclose c sa) s = issue (.jclose c sa) c s body := by
  rw [exec_jclose]; unfold execJclose; exact ⟨_, rfl⟩
theorem exec_jcloseF (c) (sa) (s : State) : exec (.jcloseF c sa) s = execJcloseF c sa s := rfl
theorem exec_jcloseF_issue (c) (sa) (s : State) : ∃ body, exec (.jcloseF c sa) s = issue (.jcloseF c sa) c s body := by
  rw [exec_jcloseF]; unfold execJcloseF; exact ⟨_, rfl⟩
theorem exec_killDelivery (idx) (s : State) : exec (.killDelivery idx) s = execKillDelivery idx s := rfl
theorem exec_killTaken (k) (s : State) : exec (.killTaken k) s = execKillTaken k s := rfl
theorem exec_copyKill (cl) (idx) (s : State) : exec (.copyKill cl idx) s = execCopyKill cl idx s := rfl
theorem exec_childJoinKill (rec) (s : State) : exec (.childJoinKill rec) s = execChildJoinKill rec s := rfl
theorem exec_trace (c) (code) (sa) (sb) (s : State) : exec (.trace c code sa sb) s = execTrace c code sa sb s := rfl
theorem exec_trace_issue (c) (code) (sa) (sb) (s : State) : ∃ body, exec (.trace c code sa sb) s = issue (.trace c code sa sb) c s body := by
  rw [exec_trace]; unfold execTrace; exact ⟨_, rfl⟩
theorem exec_mfc (c) (dst) (cr) (s : State) : exec (.mfc c dst cr) s = execMfc c dst cr s := rfl
theorem exec_mfc_issue (c) (dst) (cr) (s : State) : ∃ body, exec (.mfc c dst cr) s = issue (.mfc c dst cr) c s body := by
  rw [exec_mfc]; unfold execMfc; exact ⟨_, rfl⟩
theorem exec_mtc (c) (sa) (cr) (s : State) : exec (.mtc c sa cr) s = execMtc c sa cr s := rfl
theorem exec_mtc_issue (c) (sa) (cr) (s : State) : ∃ body, exec (.mtc c sa cr) s = issue (.mtc c sa cr) c s body := by
  rw [exec_mtc]; unfold execMtc; exact ⟨_, rfl⟩
theorem exec_trap (c) (code) (s : State) : exec (.trap c code) s = execTrap c code s := rfl
theorem exec_trap_issue (c) (code) (s : State) : ∃ body, exec (.trap c code) s = issue (.trap c code) c s body := by
  rw [exec_trap]; unfold execTrap; exact ⟨_, rfl⟩
theorem exec_tret (c) (s : State) : exec (.tret c) s = execTret c s := rfl
theorem exec_tret_issue (c) (s : State) : ∃ body, exec (.tret c) s = issue (.tret c) c s body := by
  rw [exec_tret]; unfold execTret; exact ⟨_, rfl⟩
theorem exec_tlbinvAll (c) (sa) (sb) (s : State) : exec (.tlbinvAll c sa sb) s = execTlbinvAll c sa sb s := rfl
theorem exec_tlbinvAll_issue (c) (sa) (sb) (s : State) : ∃ body, exec (.tlbinvAll c sa sb) s = issue (.tlbinvAll c sa sb) c s body := by
  rw [exec_tlbinvAll]; unfold execTlbinvAll; exact ⟨_, rfl⟩
theorem exec_tlbinvPg (c) (sa) (sb) (s : State) : exec (.tlbinvPg c sa sb) s = execTlbinvPg c sa sb s := rfl
theorem exec_tlbinvPg_issue (c) (sa) (sb) (s : State) : ∃ body, exec (.tlbinvPg c sa sb) s = issue (.tlbinvPg c sa sb) c s body := by
  rw [exec_tlbinvPg]; unfold execTlbinvPg; exact ⟨_, rfl⟩
theorem exec_bkpt (c) (code) (s : State) : exec (.bkpt c code) s = execBkpt c code s := rfl
theorem exec_bkpt_issue (c) (code) (s : State) : ∃ body, exec (.bkpt c code) s = issue (.bkpt c code) c s body := by
  rw [exec_bkpt]; unfold execBkpt; exact ⟨_, rfl⟩
theorem exec_slotwMat (c) (sa) (s : State) : exec (.slotwMat c sa) s = execSlotwMat c sa s := rfl
theorem exec_slotwMat_issue (c) (sa) (s : State) : ∃ body, exec (.slotwMat c sa) s = issue (.slotwMat c sa) c s body := by
  rw [exec_slotwMat]; unfold execSlotwMat; exact ⟨_, rfl⟩
theorem exec_slotwCpy (c) (sa) (s : State) : exec (.slotwCpy c sa) s = execSlotwCpy c sa s := rfl
theorem exec_slotwCpy_issue (c) (sa) (s : State) : ∃ body, exec (.slotwCpy c sa) s = issue (.slotwCpy c sa) c s body := by
  rw [exec_slotwCpy]; unfold execSlotwCpy; exact ⟨_, rfl⟩
theorem exec_slotwTku (c) (sa) (s : State) : exec (.slotwTku c sa) s = execSlotwTku c sa s := rfl
theorem exec_slotwTku_issue (c) (sa) (s : State) : ∃ body, exec (.slotwTku c sa) s = issue (.slotwTku c sa) c s body := by
  rw [exec_slotwTku]; unfold execSlotwTku; exact ⟨_, rfl⟩
theorem exec_instructionFetch (k) (s : State) : exec (.instructionFetch k) s = execInstructionFetch k s := rfl
theorem exec_resultLands (k) (s : State) : exec (.resultLands k) s = execResultLands k s := rfl
theorem exec_interruptTaken (k) (s : State) : exec (.interruptTaken k) s = execInterruptTaken k s := rfl
theorem exec_vbankRetention (core) (s : State) : exec (.vbankRetention core) s = execVbankRetention core s := rfl
theorem exec_vbankWake (core) (s : State) : exec (.vbankWake core) s = execVbankWake core s := rfl
theorem exec_stepGrant (core) (s : State) : exec (.stepGrant core) s = execStepGrant core s := rfl
theorem exec_cacheEviction (u) (line) (s : State) : exec (.cacheEviction u line) s = execCacheEviction u line s := rfl
theorem exec_lqtail (ctx) (v) (s : State) : exec (.lqtail ctx v) s = execLqtail ctx v s := rfl
theorem exec_dbell (ctx) (v) (s : State) : exec (.dbell ctx v) s = execDbell ctx v s := rfl
theorem exec_cqhead (ctx) (v) (s : State) : exec (.cqhead ctx v) s = execCqhead ctx v s := rfl
theorem exec_launchStart (ctx) (s : State) : exec (.launchStart ctx) s = execLaunchStart ctx s := rfl
theorem exec_launchComplete (idx) (s : State) : exec (.launchComplete idx) s = execLaunchComplete idx s := rfl
theorem exec_save (ctx) (s : State) : exec (.save ctx) s = execSave ctx s := rfl
theorem exec_restore (ctx) (s : State) : exec (.restore ctx) s = execRestore ctx s := rfl
theorem exec_discard (ctx) (s : State) : exec (.discard ctx) s = execDiscard ctx s := rfl
theorem exec_ownerByteWrite (cl) (off) (v) (s : State) : exec (.ownerByteWrite cl off v) s = execOwnerByteWrite cl off v s := rfl
theorem exec_registerWrite (pa) (v) (s : State) : exec (.registerWrite pa v) s = execRegisterWrite pa v s := rfl
theorem exec_trcfg (t) (v) (s : State) : exec (.trcfg t v) s = execTrcfg t v s := rfl
theorem exec_trrd (t) (v) (s : State) : exec (.trrd t v) s = execTrrd t v s := rfl
theorem exec_traceReservation (idx) (s : State) : exec (.traceReservation idx) s = execTraceReservation idx s := rfl
theorem exec_losslessRetry (idx) (s : State) : exec (.losslessRetry idx) s = execLosslessRetry idx s := rfl
theorem exec_longwait (k) (s : State) : exec (.longwait k) s = execLongwait k s := rfl
theorem exec_haltreq (cl) (s : State) : exec (.haltreq cl) s = execHaltreq cl s := rfl
theorem exec_runreq (cl) (s : State) : exec (.runreq cl) s = execRunreq cl s := rfl
theorem exec_dmStep (cl) (s : State) : exec (.dmStep cl) s = execDmStep cl s := rfl
theorem exec_crossTrigger  (s : State) : exec (.crossTrigger ) s = execCrossTrigger  s := rfl
theorem exec_dmpc (cl) (v) (s : State) : exec (.dmpc cl v) s = execDmpc cl v s := rfl
theorem exec_dmdataLoad (cl) (s : State) : exec (.dmdataLoad cl) s = execDmdataLoad cl s := rfl
theorem exec_dmdataStore (cl) (v) (s : State) : exec (.dmdataStore cl v) s = execDmdataStore cl v s := rfl
theorem exec_dmicl (cl) (v) (s : State) : exec (.dmicl cl v) s = execDmicl cl v s := rfl
theorem exec_rmBegin  (s : State) : exec (.rmBegin ) s = execRmBegin  s := rfl
theorem exec_rmChunk (clen) (s : State) : exec (.rmChunk clen) s = execRmChunk clen s := rfl
theorem exec_rmCommit  (s : State) : exec (.rmCommit ) s = execRmCommit  s := rfl
theorem exec_rmAbort  (s : State) : exec (.rmAbort ) s = execRmAbort  s := rfl
theorem exec_powerUp (x) (s : State) : exec (.powerUp x) s = execPowerUp x s := rfl
theorem exec_linkTraining (unit) (x) (s : State) : exec (.linkTraining unit x) s = execLinkTraining unit x s := rfl
theorem exec_dis (unit) (v) (s : State) : exec (.dis unit v) s = execDis unit v s := rfl
theorem exec_cascadeFlit (port) (header) (body) (crcOk) (room) (s : State) : exec (.cascadeFlit port header body crcOk room) s = execCascadeFlit port header body crcOk room s := rfl
theorem exec_flitRetry (flow) (s : State) : exec (.flitRetry flow) s = execFlitRetry flow s := rfl
theorem exec_deviceUnreachable (dev) (s : State) : exec (.deviceUnreachable dev) s = execDeviceUnreachable dev s := rfl
theorem exec_cxlMemRequest (write) (pa) (n) (data) (s : State) : exec (.cxlMemRequest write pa n data) s = execCxlMemRequest write pa n data s := rfl
theorem exec_cxlSnoop (cl) (line) (s : State) : exec (.cxlSnoop cl line) s = execCxlSnoop cl line s := rfl
theorem exec_roceRequest (x) (s : State) : exec (.roceRequest x) s = execRoceRequest x s := rfl
theorem exec_roceAckTimeout (qp) (s : State) : exec (.roceAckTimeout qp) s = execRoceAckTimeout qp s := rfl
theorem exec_cnp (qp) (s : State) : exec (.cnp qp) s = execCnp qp s := rfl
theorem exec_ethernetFrame (port) (frame) (s : State) : exec (.ethernetFrame port frame) s = execEthernetFrame port frame s := rfl
theorem exec_sync (source) (offset) (s : State) : exec (.sync source offset) s = execSync source offset s := rfl
theorem exec_ppsEdge  (s : State) : exec (.ppsEdge ) s = execPpsEdge  s := rfl
theorem exec_announceTimeout  (s : State) : exec (.announceTimeout ) s = execAnnounceTimeout  s := rfl
theorem exec_patrolScrub (line) (corrected) (s : State) : exec (.patrolScrub line corrected) s = execPatrolScrub line corrected s := rfl
theorem exec_correctedError (x) (s : State) : exec (.correctedError x) s = execCorrectedError x s := rfl
theorem exec_uncorrectedError (x) (who) (s : State) : exec (.uncorrectedError x who) s = execUncorrectedError x who s := rfl
theorem exec_fatalClusterError (cl) (s : State) : exec (.fatalClusterError cl) s = execFatalClusterError cl s := rfl
theorem exec_rascnt (k) (v) (s : State) : exec (.rascnt k v) s = execRascnt k v s := rfl
theorem exec_spdmRequest (x) (s : State) : exec (.spdmRequest x) s = execSpdmRequest x s := rfl
theorem exec_laneLoss (unit) (lanes) (s : State) : exec (.laneLoss unit lanes) s = execLaneLoss unit lanes s := rfl
theorem exec_icbusyClear (cl) (s : State) : exec (.icbusyClear cl) s = execIcbusyClear cl s := rfl
theorem exec_rateRecovery (qp) (s : State) : exec (.rateRecovery qp) s = execRateRecovery qp s := rfl

theorem issue_common {i : Instr} {c1 c : Common} {s : State} (h : some c1 = some c) (g : ∃ body, exec i s = issue i c1 s body) :
    ∃ body, exec i s = issue i c s body := by
  injection h with h; subst h; exact g

theorem no_common {c : Common} {P : Prop} (h : none = some c) : P := by cases h

/-- An instruction, as against a device step, is issued with its common fields. -/
theorem exec_issue (i : Instr) (c : Common) (s : State) (h : i.common = some c) : ∃ body, exec i s = issue i c s body :=
  match i, h with
  | .add c1 dst sa sb, h => issue_common h (exec_add_issue c1 dst sa sb s)
  | .sub c1 dst sa sb, h => issue_common h (exec_sub_issue c1 dst sa sb s)
  | .mul c1 dst sa sb, h => issue_common h (exec_mul_issue c1 dst sa sb s)
  | .mulh c1 dst sa sb, h => issue_common h (exec_mulh_issue c1 dst sa sb s)
  | .mulhz c1 dst sa sb, h => issue_common h (exec_mulhz_issue c1 dst sa sb s)
  | .div c1 dst sa sb, h => issue_common h (exec_div_issue c1 dst sa sb s)
  | .divz c1 dst sa sb, h => issue_common h (exec_divz_issue c1 dst sa sb s)
  | .rem c1 dst sa sb, h => issue_common h (exec_rem_issue c1 dst sa sb s)
  | .remz c1 dst sa sb, h => issue_common h (exec_remz_issue c1 dst sa sb s)
  | .divT c1 op dst sa sb, h => issue_common h (exec_divT_issue c1 op dst sa sb s)
  | .addx c1 idx sh dst sa sb, h => issue_common h (exec_addx_issue c1 idx sh dst sa sb s)
  | .and c1 dst sa sb, h => issue_common h (exec_and_issue c1 dst sa sb s)
  | .or c1 dst sa sb, h => issue_common h (exec_or_issue c1 dst sa sb s)
  | .xor c1 dst sa sb, h => issue_common h (exec_xor_issue c1 dst sa sb s)
  | .shl c1 dst sa sb, h => issue_common h (exec_shl_issue c1 dst sa sb s)
  | .shr c1 dst sa sb, h => issue_common h (exec_shr_issue c1 dst sa sb s)
  | .sra c1 dst sa sb, h => issue_common h (exec_sra_issue c1 dst sa sb s)
  | .min c1 dst sa sb, h => issue_common h (exec_min_issue c1 dst sa sb s)
  | .max c1 dst sa sb, h => issue_common h (exec_max_issue c1 dst sa sb s)
  | .minz c1 dst sa sb, h => issue_common h (exec_minz_issue c1 dst sa sb s)
  | .maxz c1 dst sa sb, h => issue_common h (exec_maxz_issue c1 dst sa sb s)
  | .clz c1 dst sa, h => issue_common h (exec_clz_issue c1 dst sa s)
  | .ctz c1 dst sa, h => issue_common h (exec_ctz_issue c1 dst sa s)
  | .popc c1 dst sa, h => issue_common h (exec_popc_issue c1 dst sa s)
  | .bswap c1 wd dst sa, h => issue_common h (exec_bswap_issue c1 wd dst sa s)
  | .sext c1 wd dst sa, h => issue_common h (exec_sext_issue c1 wd dst sa s)
  | .zext c1 wd dst sa, h => issue_common h (exec_zext_issue c1 wd dst sa s)
  | .mov c1 (.ss d a), h => issue_common h (exec_mov_issue c1 (.ss d a) s)
  | .mov c1 (.ks d a), h => issue_common h (exec_mov_issue c1 (.ks d a) s)
  | .mov c1 (.sk d a), h => issue_common h (exec_mov_issue c1 (.sk d a) s)
  | .mov c1 (.kk d a), h => issue_common h (exec_mov_issue c1 (.kk d a) s)
  | .sel c1 dst sa sb gs ns, h => issue_common h (exec_sel_issue c1 dst sa sb gs ns s)
  | .cmp c1 cond pt sa sb pf, h => issue_common h (exec_cmp_issue c1 cond pt sa sb pf s)
  | .addi c1 dst sa imm, h => issue_common h (exec_addi_issue c1 dst sa imm s)
  | .andi c1 dst sa imm, h => issue_common h (exec_andi_issue c1 dst sa imm s)
  | .ori c1 dst sa imm, h => issue_common h (exec_ori_issue c1 dst sa imm s)
  | .xori c1 dst sa imm, h => issue_common h (exec_xori_issue c1 dst sa imm s)
  | .cmpi c1 cond pt sa pf imm, h => issue_common h (exec_cmpi_issue c1 cond pt sa pf imm s)
  | .shli c1 dst sa amt, h => issue_common h (exec_shli_issue c1 dst sa amt s)
  | .shri c1 dst sa amt, h => issue_common h (exec_shri_issue c1 dst sa amt s)
  | .srai c1 dst sa amt, h => issue_common h (exec_srai_issue c1 dst sa amt s)
  | .li c1 (.s r) imm, h => issue_common h (exec_li_issue c1 (.s r) imm s)
  | .li c1 (.k r) imm, h => issue_common h (exec_li_issue c1 (.k r) imm s)
  | .fadd c1 dst sa sb, h => issue_common h (exec_fadd_issue c1 dst sa sb s)
  | .fsub c1 dst sa sb, h => issue_common h (exec_fsub_issue c1 dst sa sb s)
  | .fmul c1 dst sa sb, h => issue_common h (exec_fmul_issue c1 dst sa sb s)
  | .ffma c1 dst sa sb sc, h => issue_common h (exec_ffma_issue c1 dst sa sb sc s)
  | .fmin c1 dst sa sb, h => issue_common h (exec_fmin_issue c1 dst sa sb s)
  | .fmax c1 dst sa sb, h => issue_common h (exec_fmax_issue c1 dst sa sb s)
  | .fcmp c1 cond pt sa sb pf, h => issue_common h (exec_fcmp_issue c1 cond pt sa sb pf s)
  | .fcvt c1 src ty dst sa, h => issue_common h (exec_fcvt_issue c1 src ty dst sa s)
  | .pand c1 dst sa sb na nb, h => issue_common h (exec_pand_issue c1 dst sa sb na nb s)
  | .por c1 dst sa sb na nb, h => issue_common h (exec_por_issue c1 dst sa sb na nb s)
  | .pxor c1 dst sa sb na nb, h => issue_common h (exec_pxor_issue c1 dst sa sb na nb s)
  | .pmov c1 (.move d a n), h => issue_common h (exec_pmov_issue c1 (.move d a n) s)
  | .pmov c1 (.sg d), h => issue_common h (exec_pmov_issue c1 (.sg d) s)
  | .pmov c1 (.gs d), h => issue_common h (exec_pmov_issue c1 (.gs d) s)
  | .br c1 ofs, h => issue_common h (exec_br_issue c1 ofs s)
  | .jmp c1 sa ofs, h => issue_common h (exec_jmp_issue c1 sa ofs s)
  | .jal c1 dst ofs, h => issue_common h (exec_jal_issue c1 dst ofs s)
  | .jr c1 dst sa, h => issue_common h (exec_jr_issue c1 dst sa s)
  | .loop c1 (.s x) stg smod bdy, h => issue_common h (exec_loop_issue c1 (.s x) stg smod bdy s)
  | .loop c1 (.mb x) stg smod bdy, h => issue_common h (exec_loop_issue c1 (.mb x) stg smod bdy s)
  | .nop c1, h => issue_common h (exec_nop_issue c1 s)
  | .endStrand c1, h => issue_common h (exec_endStrand_issue c1 s)
  | .yield c1 n, h => issue_common h (exec_yield_issue c1 n s)
  | .ld c1 ty as dst sa ofs, h => issue_common h (exec_ld_issue c1 ty as dst sa ofs s)
  | .st c1 ty as dst sa ofs, h => issue_common h (exec_st_issue c1 ty as dst sa ofs s)
  | .ldv c1 m ty as km dst sa ofs, h => issue_common h (exec_ldv_issue c1 m ty as km dst sa ofs s)
  | .stv c1 ty as km dst sa ofs, h => issue_common h (exec_stv_issue c1 ty as km dst sa ofs s)
  | .ldg c1 ty dst sa sb sc x, h => issue_common h (exec_ldg_issue c1 ty dst sa sb sc x s)
  | .stg c1 ty dst sa sb sc x, h => issue_common h (exec_stg_issue c1 ty dst sa sb sc x s)
  | .pref c1 dst sa sb ofs, h => issue_common h (exec_pref_issue c1 dst sa sb ofs s)
  | .wb c1 sa sb, h => issue_common h (exec_wb_issue c1 sa sb s)
  | .inv c1 sa sb, h => issue_common h (exec_inv_issue c1 sa sb s)
  | .icinv c1 scope sa sb, h => issue_common h (exec_icinv_issue c1 scope sa sb s)
  | .vadd c1 ty mz sat km dst sa sb, h => issue_common h (exec_vadd_issue c1 ty mz sat km dst sa sb s)
  | .vsub c1 ty mz sat km dst sa sb, h => issue_common h (exec_vsub_issue c1 ty mz sat km dst sa sb s)
  | .vmul c1 ty mz sat km dst sa sb, h => issue_common h (exec_vmul_issue c1 ty mz sat km dst sa sb s)
  | .vmad c1 ty mz sat km dst sa sb sc, h => issue_common h (exec_vmad_issue c1 ty mz sat km dst sa sb sc s)
  | .vmin c1 ty mz km dst sa sb, h => issue_common h (exec_vmin_issue c1 ty mz km dst sa sb s)
  | .vmax c1 ty mz km dst sa sb, h => issue_common h (exec_vmax_issue c1 ty mz km dst sa sb s)
  | .vabs c1 ty mz sat km dst sa, h => issue_common h (exec_vabs_issue c1 ty mz sat km dst sa s)
  | .vneg c1 ty mz sat km dst sa, h => issue_common h (exec_vneg_issue c1 ty mz sat km dst sa s)
  | .vand c1 ty mz km dst sa sb, h => issue_common h (exec_vand_issue c1 ty mz km dst sa sb s)
  | .vor c1 ty mz km dst sa sb, h => issue_common h (exec_vor_issue c1 ty mz km dst sa sb s)
  | .vxor c1 ty mz km dst sa sb, h => issue_common h (exec_vxor_issue c1 ty mz km dst sa sb s)
  | .vshl c1 ty mz km dst sa sb, h => issue_common h (exec_vshl_issue c1 ty mz km dst sa sb s)
  | .vshr c1 ty mz km dst sa sb, h => issue_common h (exec_vshr_issue c1 ty mz km dst sa sb s)
  | .vsra c1 ty mz km dst sa sb, h => issue_common h (exec_vsra_issue c1 ty mz km dst sa sb s)
  | .vcmp c1 cond ty km dst sa sb xk, h => issue_common h (exec_vcmp_issue c1 cond ty km dst sa sb xk s)
  | .vsel c1 ty km dst sa sb, h => issue_common h (exec_vsel_issue c1 ty km dst sa sb s)
  | .vcvt c1 src ty mz hp km dst sa, h => issue_common h (exec_vcvt_issue c1 src ty mz hp km dst sa s)
  | .vpack c1 src mw km es dst sa sb sc, h => issue_common h (exec_vpack_issue c1 src mw km es dst sa sb sc s)
  | .vunpack c1 ty mw mz hp km dst sa sc, h => issue_common h (exec_vunpack_issue c1 ty mw mz hp km dst sa sc s)
  | .vredsum c1 ty sat km dst sa, h => issue_common h (exec_vredsum_issue c1 ty sat km dst sa s)
  | .vredmax c1 ty km dst sa sc, h => issue_common h (exec_vredmax_issue c1 ty km dst sa sc s)
  | .vredmin c1 ty km dst sa sc, h => issue_common h (exec_vredmin_issue c1 ty km dst sa sc s)
  | .vperm c1 t2 ty mz km dst sa sb sc, h => issue_common h (exec_vperm_issue c1 t2 ty mz km dst sa sb sc s)
  | .vbcast c1 (.reg r) ty mz km dst, h => issue_common h (exec_vbcast_issue c1 (.reg r) ty mz km dst s)
  | .vbcast c1 (.imm r) ty mz km dst, h => issue_common h (exec_vbcast_issue c1 (.imm r) ty mz km dst s)
  | .vbcast c1 (.lane r l) ty mz km dst, h => issue_common h (exec_vbcast_issue c1 (.lane r l) ty mz km dst s)
  | .vslide c1 up ty mz km dst sa sb sc, h => issue_common h (exec_vslide_issue c1 up ty mz km dst sa sb sc s)
  | .vext c1 ty dst sa sb, h => issue_common h (exec_vext_issue c1 ty dst sa sb s)
  | .vins c1 ty dst sa sb, h => issue_common h (exec_vins_issue c1 ty dst sa sb s)
  | .vdist c1 fn ty acc gs km ok dst sa sb, h => issue_common h (exec_vdist_issue c1 fn ty acc gs km ok dst sa sb s)
  | .vtab c1 ty mz km tb dst sa, h => issue_common h (exec_vtab_issue c1 ty mz km tb dst sa s)
  | .vtabService .., h => no_common h
  | .vstrm c1 axpy ty mw das sas sa sb sc, h => issue_common h (exec_vstrm_issue c1 axpy ty mw das sas sa sb sc s)
  | .vstrmChunk .., h => no_common h
  | .wld c1 sa was full nw col0 kb0, h => issue_common h (exec_wld_issue c1 sa was full nw col0 kb0 s)
  | .mma c1 dst sa aas kb0 row0 nrow, h => issue_common h (exec_mma_issue c1 dst sa aas kb0 row0 nrow s)
  | .mmaG c1 dst sa sb aas was kb0 row0 col0 nrow ncol nkb, h => issue_common h (exec_mmaG_issue c1 dst sa sb aas was kb0 row0 col0 nrow ncol nkb s)
  | .blockStep .., h => no_common h
  | .mmaGRendezvous .., h => no_common h
  | .accz c1 dst, h => issue_common h (exec_accz_issue c1 dst s)
  | .accrd c1 ty mw sa sb das dcol drow, h => issue_common h (exec_accrd_issue c1 ty mw sa sb das dcol drow s)
  | .accexpRd c1 dst sa, h => issue_common h (exec_accexpRd_issue c1 dst sa s)
  | .accexpAl c1 dst sa, h => issue_common h (exec_accexpAl_issue c1 dst sa s)
  | .walki c1 dst sa sb sc aas maxd row0 nr, h => issue_common h (exec_walki_issue c1 dst sa sb sc aas maxd row0 nr s)
  | .walk c1 sa sb sc aas maxd row0, h => issue_common h (exec_walk_issue c1 sa sb sc aas maxd row0 s)
  | .walkRound .., h => no_common h
  | .walkStagingFetch .., h => no_common h
  | .amo c1 fn ty scope as ofs dst sa sb, h => issue_common h (exec_amo_issue c1 fn ty scope as ofs dst sa sb s)
  | .reductionMerge .., h => no_common h
  | .cas c1 ty scope as dst sa sb sc, h => issue_common h (exec_cas_issue c1 ty scope as dst sa sb sc s)
  | .fence c1 scope half, h => issue_common h (exec_fence_issue c1 scope half s)
  | .bind c1 sa sb sc, h => issue_common h (exec_bind_issue c1 sa sb sc s)
  | .unbind c1 sa sb sc, h => issue_common h (exec_unbind_issue c1 sa sb sc s)
  | .acq c1 sa, h => issue_common h (exec_acq_issue c1 sa s)
  | .acqV c1 sa, h => issue_common h (exec_acqV_issue c1 sa s)
  | .rel c1 sa, h => issue_common h (exec_rel_issue c1 sa s)
  | .relV c1 sa, h => issue_common h (exec_relV_issue c1 sa s)
  | .evwait c1 dst sa, h => issue_common h (exec_evwait_issue c1 dst sa s)
  | .evwaitPk c1 dst sa, h => issue_common h (exec_evwaitPk_issue c1 dst sa s)
  | .evsig c1 sa sb, h => issue_common h (exec_evsig_issue c1 sa sb s)
  | .evsigClr c1 sa sb, h => issue_common h (exec_evsigClr_issue c1 sa sb s)
  | .bar c1 scope sa sb, h => issue_common h (exec_bar_issue c1 scope sa sb s)
  | .send c1 dst sa sb tmo, h => issue_common h (exec_send_issue c1 dst sa sb tmo s)
  | .sendTimeout .., h => no_common h
  | .recv c1 dst sa sb tmo, h => issue_common h (exec_recv_issue c1 dst sa sb tmo s)
  | .recvTimeout .., h => no_common h
  | .rdrem c1 dst sa sc ofs tmo, h => issue_common h (exec_rdrem_issue c1 dst sa sc ofs tmo s)
  | .rdremTimeout .., h => no_common h
  | .waitseq c1 eng sa, h => issue_common h (exec_waitseq_issue c1 eng sa s)
  | .copy c1 dst sa as, h => issue_common h (exec_copy_issue c1 dst sa as s)
  | .copyChunk .., h => no_common h
  | .copyComplete .., h => no_common h
  | .tkopen c1 fn dst sa, h => issue_common h (exec_tkopen_issue c1 fn dst sa s)
  | .tkpush c1 sa sb km sc, h => issue_common h (exec_tkpush_issue c1 sa sb km sc s)
  | .tkdrain c1 dst sa sb as, h => issue_common h (exec_tkdrain_issue c1 dst sa sb as s)
  | .tkdrainCl c1 dst sa sb as, h => issue_common h (exec_tkdrainCl_issue c1 dst sa sb as s)
  | .topkDrainComplete .., h => no_common h
  | .tabld c1 dst sa as tb, h => issue_common h (exec_tabld_issue c1 dst sa as tb s)
  | .tableLoadComplete .., h => no_common h
  | .tspawn c1 sa, h => issue_common h (exec_tspawn_issue c1 sa s)
  | .tdone c1, h => issue_common h (exec_tdone_issue c1 s)
  | .tdoneR c1, h => issue_common h (exec_tdoneR_issue c1 s)
  | .taskDeal .., h => no_common h
  | .taskReadyNotice .., h => no_common h
  | .copyTaskHandoff .., h => no_common h
  | .emptyCardRetire .., h => no_common h
  | .tdep c1 sa imm, h => issue_common h (exec_tdep_issue c1 sa imm s)
  | .tcard c1 dst, h => issue_common h (exec_tcard_issue c1 dst s)
  | .jopen c1 sa, h => issue_common h (exec_jopen_issue c1 sa s)
  | .jenter c1 sa sb, h => issue_common h (exec_jenter_issue c1 sa sb s)
  | .jcont c1 s32 sa sb km, h => issue_common h (exec_jcont_issue c1 s32 sa sb km s)
  | .jarrive c1 dst, h => issue_common h (exec_jarrive_issue c1 dst s)
  | .joinDeadline .., h => no_common h
  | .childJoinArrival .., h => no_common h
  | .stallCredit .., h => no_common h
  | .jwait c1 dst sa sb tmo, h => issue_common h (exec_jwait_issue c1 dst sa sb tmo s)
  | .jwaitTimeout .., h => no_common h
  | .jclose c1 sa, h => issue_common h (exec_jclose_issue c1 sa s)
  | .jcloseF c1 sa, h => issue_common h (exec_jcloseF_issue c1 sa s)
  | .killDelivery .., h => no_common h
  | .killTaken .., h => no_common h
  | .copyKill .., h => no_common h
  | .childJoinKill .., h => no_common h
  | .trace c1 code sa sb, h => issue_common h (exec_trace_issue c1 code sa sb s)
  | .mfc c1 dst cr, h => issue_common h (exec_mfc_issue c1 dst cr s)
  | .mtc c1 sa cr, h => issue_common h (exec_mtc_issue c1 sa cr s)
  | .trap c1 code, h => issue_common h (exec_trap_issue c1 code s)
  | .tret c1, h => issue_common h (exec_tret_issue c1 s)
  | .tlbinvAll c1 sa sb, h => issue_common h (exec_tlbinvAll_issue c1 sa sb s)
  | .tlbinvPg c1 sa sb, h => issue_common h (exec_tlbinvPg_issue c1 sa sb s)
  | .bkpt c1 code, h => issue_common h (exec_bkpt_issue c1 code s)
  | .slotwMat c1 sa, h => issue_common h (exec_slotwMat_issue c1 sa s)
  | .slotwCpy c1 sa, h => issue_common h (exec_slotwCpy_issue c1 sa s)
  | .slotwTku c1 sa, h => issue_common h (exec_slotwTku_issue c1 sa s)
  | .instructionFetch .., h => no_common h
  | .resultLands .., h => no_common h
  | .interruptTaken .., h => no_common h
  | .vbankRetention .., h => no_common h
  | .vbankWake .., h => no_common h
  | .stepGrant .., h => no_common h
  | .cacheEviction .., h => no_common h
  | .lqtail .., h => no_common h
  | .dbell .., h => no_common h
  | .cqhead .., h => no_common h
  | .launchStart .., h => no_common h
  | .launchComplete .., h => no_common h
  | .save .., h => no_common h
  | .restore .., h => no_common h
  | .discard .., h => no_common h
  | .ownerByteWrite .., h => no_common h
  | .registerWrite .., h => no_common h
  | .trcfg .., h => no_common h
  | .trrd .., h => no_common h
  | .traceReservation .., h => no_common h
  | .losslessRetry .., h => no_common h
  | .longwait .., h => no_common h
  | .haltreq .., h => no_common h
  | .runreq .., h => no_common h
  | .dmStep .., h => no_common h
  | .crossTrigger .., h => no_common h
  | .dmpc .., h => no_common h
  | .dmdataLoad .., h => no_common h
  | .dmdataStore .., h => no_common h
  | .dmicl .., h => no_common h
  | .rmBegin .., h => no_common h
  | .rmChunk .., h => no_common h
  | .rmCommit .., h => no_common h
  | .rmAbort .., h => no_common h
  | .powerUp .., h => no_common h
  | .linkTraining .., h => no_common h
  | .dis .., h => no_common h
  | .cascadeFlit .., h => no_common h
  | .flitRetry .., h => no_common h
  | .deviceUnreachable .., h => no_common h
  | .cxlMemRequest .., h => no_common h
  | .cxlSnoop .., h => no_common h
  | .roceRequest .., h => no_common h
  | .roceAckTimeout .., h => no_common h
  | .cnp .., h => no_common h
  | .ethernetFrame .., h => no_common h
  | .sync .., h => no_common h
  | .ppsEdge .., h => no_common h
  | .announceTimeout .., h => no_common h
  | .patrolScrub .., h => no_common h
  | .correctedError .., h => no_common h
  | .uncorrectedError .., h => no_common h
  | .fatalClusterError .., h => no_common h
  | .rascnt .., h => no_common h
  | .spdmRequest .., h => no_common h
  | .laneLoss .., h => no_common h
  | .icbusyClear .., h => no_common h
  | .rateRecovery .., h => no_common h

end Sys2Proof.Machine
end

