-- ==== Sys2Proof/Laws/Maps.lean ====
section
/-!
SUPPORT. Finite maps and byte memories: a read after a write, and the canonical form, which every write keeps.
-/
namespace Sys2Proof.Machine

variable {α : Type}

/-! ### Reads after writes -/

theorem mget_mdel (d : α) (m : Map α) (a b : Nat) : mget d (mdel m a) b = if a = b then d else mget d m b := by
  induction m with
  | nil => simp [mdel, mget]
  | cons e r ih =>
    obtain ⟨k, v⟩ := e
    simp only [mdel]
    split
    · simp only [ih, mget]; split <;> simp_all
    · simp only [mget, ih]; split <;> split <;> simp_all

theorem mget_mins (d : α) (m : Map α) (a : Nat) (v : α) (b : Nat) (h : mhas m a = false) :
    mget d (mins a v m) b = if a = b then v else mget d m b := by
  induction m with
  | nil => simp [mins, mget]
  | cons e r ih =>
    obtain ⟨k, w⟩ := e
    simp only [mhas, Bool.or_eq_false_iff, beq_eq_false_iff_ne] at h
    simp only [mins]
    split
    · simp [mget]
    · simp only [mget, ih h.2]; split <;> split <;> simp_all

theorem mhas_mdel (m : Map α) (a b : Nat) : mhas (mdel m a) b = (decide (a ≠ b) && mhas m b) := by
  induction m with
  | nil => simp [mdel, mhas]
  | cons e r ih =>
    obtain ⟨k, v⟩ := e
    simp only [mdel]
    split
    · subst_vars; simp only [ih, mhas]; by_cases h : k = b <;> simp [h]
    · simp only [mhas, ih]; by_cases h : a = b <;> simp_all

@[simp] theorem mget_mput (d : α) (m : Map α) (a : Nat) (v : α) (b : Nat) :
    mget d (mput m a v) b = if a = b then v else mget d m b := by
  unfold mput
  rw [mget_mins _ _ _ _ _ (by simp [mhas_mdel]), mget_mdel]
  split <;> simp

@[simp] theorem mget_mset [DecidableEq α] (d : α) (m : Map α) (a : Nat) (v : α) (b : Nat) :
    mget d (mset d m a v) b = if a = b then v else mget d m b := by
  unfold mset
  split
  · subst_vars; rw [mget_mdel]
  · simp

theorem mhas_mins (m : Map α) (a : Nat) (v : α) (b : Nat) : mhas (mins a v m) b = (a == b || mhas m b) := by
  induction m with
  | nil => simp [mins, mhas]
  | cons e r ih =>
    obtain ⟨k, w⟩ := e
    simp only [mins]
    split
    · simp [mhas]
    · simp only [mhas, ih]
      cases (k == b) <;> cases (a == b) <;> simp

@[simp] theorem mhas_mput (m : Map α) (a : Nat) (v : α) (b : Nat) : mhas (mput m a v) b = (a == b || mhas m b) := by
  unfold mput
  rw [mhas_mins, mhas_mdel]
  by_cases h : a = b <;> simp [h]

theorem byteAt_setByte (m : Memory) (a : Nat) (v : Byte) (b : Nat) :
    byteAt (setByte m a v) b = if a = b then v else byteAt m b := by simp [byteAt, setByte]

/-- A little-endian write changes the bytes it covers alone. -/
theorem byteAt_writeLE (m : Memory) (a n v b : Nat) :
    byteAt (writeLE m a n v) b =
      if a ≤ b ∧ b < a + n then BitVec.ofNat 8 (v / 256 ^ (b - a)) else byteAt m b := by
  induction n generalizing m a v with
  | zero => simp [writeLE] <;> omega
  | succ n ih =>
    rw [writeLE, ih, byteAt_setByte]
    by_cases h : a = b
    · subst h; simp <;> omega
    · by_cases h1 : a + 1 ≤ b ∧ b < a + 1 + n
      · obtain ⟨k, hk⟩ : ∃ k, b - a = k + 1 := ⟨b - a - 1, by omega⟩
        have : b - (a + 1) = k := by omega
        simp only [h1, this, hk, if_true, and_self]
        rw [if_pos (by omega), Nat.div_div_eq_div_mul, Nat.pow_succ, Nat.mul_comm 256]
      · rw [if_neg h1, if_neg h, if_neg (by omega)]

theorem readLE_lt (m : Memory) (a n : Nat) : readLE m a n < 256 ^ n := by
  induction n generalizing a with
  | zero => simp [readLE]
  | succ n ih =>
    have := ih (a + 1)
    have h2 := (byteAt m a).isLt
    rw [readLE, Nat.pow_succ]
    omega

/-- What a little-endian write stored is read back. -/
theorem readLE_writeLE (m : Memory) (a n v : Nat) : readLE (writeLE m a n v) a n = v % 256 ^ n := by
  suffices ∀ (k : Nat) (m' : Memory) (b w : Nat), (∀ i, i < k → byteAt m' (b + i) = BitVec.ofNat 8 (w / 256 ^ i)) →
      readLE m' b k = w % 256 ^ k by
    apply this
    intro i hi
    rw [byteAt_writeLE, if_pos (by omega)]
    congr 3; omega
  intro k
  induction k with
  | zero => intros; simp [readLE, Nat.mod_one]
  | succ k ih =>
    intro m' b w h
    have h0 := h 0 (by omega)
    rw [readLE, ih m' (b + 1) (w / 256)]
    · simp only [Nat.add_zero, Nat.pow_zero, Nat.div_one] at h0
      rw [h0, BitVec.toNat_ofNat, show 256 ^ (k + 1) = 256 * 256 ^ k by rw [Nat.pow_succ, Nat.mul_comm], Nat.mod_mul]
    · intro i hi
      have := h (i + 1) (by omega)
      rw [show b + 1 + i = b + (i + 1) by omega, this, Nat.pow_succ, Nat.mul_comm, Nat.div_div_eq_div_mul]

/-- A read sees no write that lies elsewhere. -/
theorem readLE_congr (m m' : Memory) (a n : Nat) (h : ∀ i, i < n → byteAt m (a + i) = byteAt m' (a + i)) :
    readLE m a n = readLE m' a n := by
  induction n generalizing a with
  | zero => rfl
  | succ n ih =>
    rw [readLE, readLE, ih (a + 1) fun i hi => by have := h (i + 1) (by omega); rwa [show a + 1 + i = a + (i + 1) by omega]]
    have := h 0 (by omega)
    simp only [Nat.add_zero] at this
    rw [this]

theorem byteAt_writeMasked (m : Memory) (a n v k b : Nat) :
    byteAt (writeMasked m a n v k) b =
      if a ≤ b ∧ b < a + n ∧ k / 2 ^ (b - a) % 2 = 1 then BitVec.ofNat 8 (v / 256 ^ (b - a)) else byteAt m b := by
  induction n generalizing m a v k with
  | zero => simp [writeMasked]; omega
  | succ n ih =>
    rw [writeMasked, ih]
    by_cases h : a = b
    · subst h
      by_cases hk : k % 2 = 1 <;> simp [hk, byteAt_setByte] <;> omega
    · have hset : byteAt (if k % 2 = 1 then setByte m a (BitVec.ofNat 8 v) else m) b = byteAt m b := by
        split <;> simp [byteAt_setByte, h]
      rw [hset]
      by_cases h1 : a + 1 ≤ b ∧ b < a + 1 + n
      · obtain ⟨j, hj⟩ : ∃ j, b - a = j + 1 := ⟨b - a - 1, by omega⟩
        have e : b - (a + 1) = j := by omega
        simp only [e, hj, Nat.div_div_eq_div_mul, Nat.pow_succ, Nat.mul_comm 256, Nat.mul_comm 2]
        by_cases h2 : k / (2 ^ j * 2) % 2 = 1
        · rw [if_pos ⟨h1.1, h1.2, h2⟩, if_pos ⟨by omega, by omega, h2⟩]
        · rw [if_neg (fun h => h2 h.2.2), if_neg (fun h => h2 h.2.2)]
      · rw [if_neg (by omega), if_neg (by omega)]

/-! ### The canonical form -/

/-- Strictly rising keys, every one at or above a bound. -/
def risingFrom : Nat → Map α → Prop
  | _, [] => True
  | lo, (a, _) :: r => lo ≤ a ∧ risingFrom (a + 1) r

theorem mrising_iff (m : Map α) : mrising m = true ↔ risingFrom 0 m := by
  suffices h : ∀ (m : Map α) (a : Nat) (v : α) (lo : Nat), lo ≤ a → (mrising ((a, v) :: m) = true ↔ risingFrom lo ((a, v) :: m)) by
    cases m with
    | nil => simp [mrising, risingFrom]
    | cons e r => exact h r e.1 e.2 0 (Nat.zero_le _)
  intro m
  induction m with
  | nil => intro a v lo h; simp [mrising, risingFrom, h]
  | cons e r ih =>
    intro a v lo h
    obtain ⟨b, w⟩ := e
    simp only [mrising, Bool.and_eq_true, decide_eq_true_eq, risingFrom, h, true_and]
    constructor
    · rintro ⟨h1, h2⟩; exact ⟨h1, ((ih b w (a + 1) h1).mp h2).2⟩
    · rintro ⟨h1, h2⟩; exact ⟨h1, (ih b w (a + 1) h1).mpr ⟨h1, h2⟩⟩

theorem risingFrom_mono {lo lo' : Nat} {m : Map α} (h : lo' ≤ lo) (hm : risingFrom lo m) : risingFrom lo' m := by
  cases m with
  | nil => trivial
  | cons e r => exact ⟨Nat.le_trans h hm.1, hm.2⟩

theorem risingFrom_mdel {lo : Nat} {m : Map α} (k : Nat) (h : risingFrom lo m) : risingFrom lo (mdel m k) := by
  induction m generalizing lo with
  | nil => trivial
  | cons e r ih =>
    obtain ⟨a, v⟩ := e
    simp only [mdel]
    split
    · exact risingFrom_mono (by have := h.1; omega) (ih h.2)
    · exact ⟨h.1, ih h.2⟩

theorem risingFrom_mins {lo : Nat} {m : Map α} (k : Nat) (v : α) (hk : lo ≤ k) (hn : mhas m k = false) (h : risingFrom lo m) :
    risingFrom lo (mins k v m) := by
  induction m generalizing lo with
  | nil => exact ⟨hk, trivial⟩
  | cons e r ih =>
    obtain ⟨a, w⟩ := e
    simp only [mhas, Bool.or_eq_false_iff, beq_eq_false_iff_ne] at hn
    simp only [mins]
    split
    · exact ⟨hk, by omega, h.2⟩
    · exact ⟨h.1, ih (by omega) hn.2 h.2⟩

theorem risingFrom_filter {lo : Nat} {m : Map α} (p : Nat × α → Bool) (h : risingFrom lo m) : risingFrom lo (m.filter p) := by
  induction m generalizing lo with
  | nil => trivial
  | cons e r ih =>
    rw [List.filter_cons]
    split
    · exact ⟨h.1, ih h.2⟩
    · exact risingFrom_mono (by have := h.1; omega) (ih h.2)

theorem risingFrom_append {lo hi : Nat} {m n : Map α} (h : risingFrom lo m) (hm : ∀ e ∈ m, e.1 < hi) (hn : risingFrom hi n) (hl : lo ≤ hi) :
    risingFrom lo (m ++ n) := by
  induction m generalizing lo with
  | nil => exact risingFrom_mono hl hn
  | cons e r ih =>
    refine ⟨h.1, ih h.2 (fun x hx => hm x (List.mem_cons_of_mem _ hx)) ?_⟩
    have := hm e (List.mem_cons_self ..)
    omega

theorem risingFrom_bound {lo : Nat} {m : Map α} (h : risingFrom lo m) : ∀ e ∈ m, lo ≤ e.1 := by
  induction m generalizing lo with
  | nil => simp
  | cons e r ih =>
    intro x hx
    rcases List.mem_cons.mp hx with rfl | hx
    · exact h.1
    · have := ih h.2 x hx
      have := h.1
      omega

theorem risingFrom_lift {lo lo' : Nat} {m : Map α} (h : risingFrom lo m) (hb : ∀ e ∈ m, lo' ≤ e.1) : risingFrom lo' m := by
  cases m with
  | nil => trivial
  | cons e r => exact ⟨hb e (List.mem_cons_self ..), h.2⟩

theorem mem_mins {m : Map α} {k : Nat} {v : α} {e : Nat × α} (h : e ∈ mins k v m) : e = (k, v) ∨ e ∈ m := by
  induction m with
  | nil => left; simp [mins] at h; exact h
  | cons x r ih =>
    simp only [mins] at h
    split at h
    · simpa using h
    · rcases List.mem_cons.mp h with h | h
      · right; simp [h]
      · rcases ih h with h | h
        · exact .inl h
        · right; simp [h]

theorem mem_mdel {m : Map α} {k : Nat} {e : Nat × α} (h : e ∈ mdel m k) : e ∈ m := by
  induction m with
  | nil => simpa [mdel] using h
  | cons x r ih =>
    simp only [mdel] at h
    split at h
    · exact List.mem_cons_of_mem _ (ih h)
    · rcases List.mem_cons.mp h with h | h
      · simp [h]
      · exact List.mem_cons_of_mem _ (ih h)

theorem wf_iff (m : Memory) : Memory.wf m = true ↔ risingFrom 0 m ∧ ∀ e ∈ m, e.2 ≠ 0 := by
  unfold Memory.wf
  rw [Bool.and_eq_true, mrising_iff, List.all_eq_true]
  simp

@[simp] theorem wf_nil : Memory.wf [] = true := rfl

@[simp] theorem wf_setByte {m : Memory} (a : Nat) (v : Byte) (h : Memory.wf m = true) : Memory.wf (setByte m a v) = true := by
  rw [wf_iff] at h ⊢
  unfold setByte mset
  split
  · exact ⟨risingFrom_mdel a h.1, fun e he => h.2 e (mem_mdel he)⟩
  · refine ⟨risingFrom_mins a v (Nat.zero_le _) (by simp [mhas_mdel]) (risingFrom_mdel a h.1), fun e he => ?_⟩
    rcases mem_mins he with rfl | he
    · assumption
    · exact h.2 e (mem_mdel he)

@[simp] theorem wf_writeLE {m : Memory} (a n v : Nat) (h : Memory.wf m = true) : Memory.wf (writeLE m a n v) = true := by
  induction n generalizing m a v with
  | zero => exact h
  | succ n ih => exact ih _ _ (wf_setByte _ _ h)

@[simp] theorem wf_writeMasked {m : Memory} (a n v k : Nat) (h : Memory.wf m = true) : Memory.wf (writeMasked m a n v k) = true := by
  induction n generalizing m a v k with
  | zero => exact h
  | succ n ih =>
    refine ih _ _ _ ?_
    split
    · exact wf_setByte _ _ h
    · exact h

theorem cellsOf_spec (a : Nat) (bs : List Byte) :
    risingFrom a (cellsOf a bs) ∧ (∀ e ∈ cellsOf a bs, e.2 ≠ 0 ∧ e.1 < a + bs.length) := by
  induction bs generalizing a with
  | nil => exact ⟨trivial, by simp [cellsOf]⟩
  | cons b bs ih =>
    have h := ih (a + 1)
    simp only [cellsOf]
    split
    · refine ⟨risingFrom_mono (by omega) h.1, fun e he => ?_⟩
      have := h.2 e he
      simp only [List.length_cons]
      exact ⟨this.1, by omega⟩
    · refine ⟨⟨Nat.le_refl _, h.1⟩, fun e he => ?_⟩
      simp only [List.length_cons]
      rcases List.mem_cons.mp he with rfl | he
      · exact ⟨by assumption, by simp⟩
      · have := h.2 e he
        exact ⟨this.1, by omega⟩

@[simp] theorem wf_writeBytes {m : Memory} (a : Nat) (bs : List Byte) (h : Memory.wf m = true) : Memory.wf (writeBytes m a bs) = true := by
  rw [wf_iff] at h ⊢
  have hc := cellsOf_spec a bs
  unfold writeBytes
  constructor
  · rw [List.append_assoc]
    refine risingFrom_append (hi := a) (risingFrom_filter _ h.1) (by simp) ?_ (Nat.zero_le _)
    refine risingFrom_append (hi := a + bs.length) hc.1 (fun e he => (hc.2 e he).2) ?_ (by omega)
    exact risingFrom_lift (risingFrom_filter _ h.1) (by simp)
  · intro e he
    simp only [List.mem_append, List.mem_filter] at he
    rcases he with (he | he) | he
    · exact h.2 e he.1
    · exact (hc.2 e he).1
    · exact h.2 e he.1

@[simp] theorem wf_clearRange {m : Memory} (a n : Nat) (h : Memory.wf m = true) : Memory.wf (clearRange m a n) = true := by
  rw [wf_iff] at h ⊢
  exact ⟨risingFrom_filter _ h.1, fun e he => h.2 e (List.mem_filter.mp he).1⟩

end Sys2Proof.Machine
end

