-- ==== Sys2Proof/Laws/State.lean ====
section
/-!
SUPPORT. One lemma for every field under every named update of the state, of a strand and of its registers, and the reads of units and registers
after a write. Later proofs cite these and unfold no record update.
-/
namespace Sys2Proof.Machine

/-! ### The fields of the state under the updates of its units -/

@[simp] theorem setStrand_cycle (s : State) (k : Nat) (x : Strand) : (setStrand s k x).cycle = s.cycle := rfl
@[simp] theorem setStrand_time (s : State) (k : Nat) (x : Strand) : (setStrand s k x).time = s.time := rfl
@[simp] theorem setStrand_agenda (s : State) (k : Nat) (x : Strand) : (setStrand s k x).agenda = s.agenda := rfl
@[simp] theorem setStrand_cur (s : State) (k : Nat) (x : Strand) : (setStrand s k x).cur = s.cur := rfl
@[simp] theorem setStrand_late (s : State) (k : Nat) (x : Strand) : (setStrand s k x).late = s.late := rfl
@[simp] theorem setStrand_lastRun (s : State) (k : Nat) (x : Strand) : (setStrand s k x).lastRun = s.lastRun := rfl
@[simp] theorem setStrand_tick (s : State) (k : Nat) (x : Strand) : (setStrand s k x).tick = s.tick := rfl
@[simp] theorem setStrand_devNo (s : State) (k : Nat) (x : Strand) : (setStrand s k x).devNo = s.devNo := rfl
@[simp] theorem setStrand_cores (s : State) (k : Nat) (x : Strand) : (setStrand s k x).cores = s.cores := rfl
@[simp] theorem setStrand_clusters (s : State) (k : Nat) (x : Strand) : (setStrand s k x).clusters = s.clusters := rfl
@[simp] theorem setStrand_ctxs (s : State) (k : Nat) (x : Strand) : (setStrand s k x).ctxs = s.ctxs := rfl
@[simp] theorem setStrand_mem (s : State) (k : Nat) (x : Strand) : (setStrand s k x).mem = s.mem := rfl
@[simp] theorem setStrand_poison (s : State) (k : Nat) (x : Strand) : (setStrand s k x).poison = s.poison := rfl
@[simp] theorem setStrand_joins (s : State) (k : Nat) (x : Strand) : (setStrand s k x).joins = s.joins := rfl
@[simp] theorem setStrand_joinNo (s : State) (k : Nat) (x : Strand) : (setStrand s k x).joinNo = s.joinNo := rfl
@[simp] theorem setStrand_kills (s : State) (k : Nat) (x : Strand) : (setStrand s k x).kills = s.kills := rfl
@[simp] theorem setStrand_childArr (s : State) (k : Nat) (x : Strand) : (setStrand s k x).childArr = s.childArr := rfl
@[simp] theorem setStrand_stalls (s : State) (k : Nat) (x : Strand) : (setStrand s k x).stalls = s.stalls := rfl
@[simp] theorem setStrand_lockQ (s : State) (k : Nat) (x : Strand) : (setStrand s k x).lockQ = s.lockQ := rfl
@[simp] theorem setStrand_reductions (s : State) (k : Nat) (x : Strand) : (setStrand s k x).reductions = s.reductions := rfl
@[simp] theorem setStrand_lastT (s : State) (k : Nat) (x : Strand) : (setStrand s k x).lastT = s.lastT := rfl
@[simp] theorem setStrand_lastGone (s : State) (k : Nat) (x : Strand) : (setStrand s k x).lastGone = s.lastGone := rfl
@[simp] theorem setStrand_lastFloor (s : State) (k : Nat) (x : Strand) : (setStrand s k x).lastFloor = s.lastFloor := rfl
@[simp] theorem setStrand_lastAsk (s : State) (k : Nat) (x : Strand) : (setStrand s k x).lastAsk = s.lastAsk := rfl
@[simp] theorem setStrand_launches (s : State) (k : Nat) (x : Strand) : (setStrand s k x).launches = s.launches := rfl
@[simp] theorem setStrand_launchNo (s : State) (k : Nat) (x : Strand) : (setStrand s k x).launchNo = s.launchNo := rfl
@[simp] theorem setStrand_recs (s : State) (k : Nat) (x : Strand) : (setStrand s k x).recs = s.recs := rfl
@[simp] theorem setStrand_dieSeq (s : State) (k : Nat) (x : Strand) : (setStrand s k x).dieSeq = s.dieSeq := rfl
@[simp] theorem setStrand_srcStamp (s : State) (k : Nat) (x : Strand) : (setStrand s k x).srcStamp = s.srcStamp := rfl
@[simp] theorem setStrand_rings (s : State) (k : Nat) (x : Strand) : (setStrand s k x).rings = s.rings := rfl
@[simp] theorem setStrand_ptp (s : State) (k : Nat) (x : Strand) : (setStrand s k x).ptp = s.ptp := rfl
@[simp] theorem setStrand_links (s : State) (k : Nat) (x : Strand) : (setStrand s k x).links = s.links := rfl
@[simp] theorem setStrand_unreach (s : State) (k : Nat) (x : Strand) : (setStrand s k x).unreach = s.unreach := rfl
@[simp] theorem setStrand_fabricQ (s : State) (k : Nat) (x : Strand) : (setStrand s k x).fabricQ = s.fabricQ := rfl
@[simp] theorem setStrand_awaySends (s : State) (k : Nat) (x : Strand) : (setStrand s k x).awaySends = s.awaySends := rfl
@[simp] theorem setStrand_awayReqs (s : State) (k : Nat) (x : Strand) : (setStrand s k x).awayReqs = s.awayReqs := rfl
@[simp] theorem setStrand_ethDrops (s : State) (k : Nat) (x : Strand) : (setStrand s k x).ethDrops = s.ethDrops := rfl
@[simp] theorem setStrand_qps (s : State) (k : Nat) (x : Strand) : (setStrand s k x).qps = s.qps := rfl
@[simp] theorem setStrand_regions (s : State) (k : Nat) (x : Strand) : (setStrand s k x).regions = s.regions := rfl
@[simp] theorem setStrand_hdm (s : State) (k : Nat) (x : Strand) : (setStrand s k x).hdm = s.hdm := rfl
@[simp] theorem setStrand_rasctl (s : State) (k : Nat) (x : Strand) : (setStrand s k x).rasctl = s.rasctl := rfl
@[simp] theorem setStrand_rascnt (s : State) (k : Nat) (x : Strand) : (setStrand s k x).rascnt = s.rascnt := rfl
@[simp] theorem setStrand_xtrig (s : State) (k : Nat) (x : Strand) : (setStrand s k x).xtrig = s.xtrig := rfl
@[simp] theorem setStrand_msix (s : State) (k : Nat) (x : Strand) : (setStrand s k x).msix = s.msix := rfl
@[simp] theorem setStrand_mgmt (s : State) (k : Nat) (x : Strand) : (setStrand s k x).mgmt = s.mgmt := rfl
@[simp] theorem modStrand_cycle (s : State) (k : Nat) (f : Strand → Strand) : (modStrand s k f).cycle = s.cycle := rfl
@[simp] theorem modStrand_time (s : State) (k : Nat) (f : Strand → Strand) : (modStrand s k f).time = s.time := rfl
@[simp] theorem modStrand_agenda (s : State) (k : Nat) (f : Strand → Strand) : (modStrand s k f).agenda = s.agenda := rfl
@[simp] theorem modStrand_cur (s : State) (k : Nat) (f : Strand → Strand) : (modStrand s k f).cur = s.cur := rfl
@[simp] theorem modStrand_late (s : State) (k : Nat) (f : Strand → Strand) : (modStrand s k f).late = s.late := rfl
@[simp] theorem modStrand_lastRun (s : State) (k : Nat) (f : Strand → Strand) : (modStrand s k f).lastRun = s.lastRun := rfl
@[simp] theorem modStrand_tick (s : State) (k : Nat) (f : Strand → Strand) : (modStrand s k f).tick = s.tick := rfl
@[simp] theorem modStrand_devNo (s : State) (k : Nat) (f : Strand → Strand) : (modStrand s k f).devNo = s.devNo := rfl
@[simp] theorem modStrand_cores (s : State) (k : Nat) (f : Strand → Strand) : (modStrand s k f).cores = s.cores := rfl
@[simp] theorem modStrand_clusters (s : State) (k : Nat) (f : Strand → Strand) : (modStrand s k f).clusters = s.clusters := rfl
@[simp] theorem modStrand_ctxs (s : State) (k : Nat) (f : Strand → Strand) : (modStrand s k f).ctxs = s.ctxs := rfl
@[simp] theorem modStrand_mem (s : State) (k : Nat) (f : Strand → Strand) : (modStrand s k f).mem = s.mem := rfl
@[simp] theorem modStrand_poison (s : State) (k : Nat) (f : Strand → Strand) : (modStrand s k f).poison = s.poison := rfl
@[simp] theorem modStrand_joins (s : State) (k : Nat) (f : Strand → Strand) : (modStrand s k f).joins = s.joins := rfl
@[simp] theorem modStrand_joinNo (s : State) (k : Nat) (f : Strand → Strand) : (modStrand s k f).joinNo = s.joinNo := rfl
@[simp] theorem modStrand_kills (s : State) (k : Nat) (f : Strand → Strand) : (modStrand s k f).kills = s.kills := rfl
@[simp] theorem modStrand_childArr (s : State) (k : Nat) (f : Strand → Strand) : (modStrand s k f).childArr = s.childArr := rfl
@[simp] theorem modStrand_stalls (s : State) (k : Nat) (f : Strand → Strand) : (modStrand s k f).stalls = s.stalls := rfl
@[simp] theorem modStrand_lockQ (s : State) (k : Nat) (f : Strand → Strand) : (modStrand s k f).lockQ = s.lockQ := rfl
@[simp] theorem modStrand_reductions (s : State) (k : Nat) (f : Strand → Strand) : (modStrand s k f).reductions = s.reductions := rfl
@[simp] theorem modStrand_lastT (s : State) (k : Nat) (f : Strand → Strand) : (modStrand s k f).lastT = s.lastT := rfl
@[simp] theorem modStrand_lastGone (s : State) (k : Nat) (f : Strand → Strand) : (modStrand s k f).lastGone = s.lastGone := rfl
@[simp] theorem modStrand_lastFloor (s : State) (k : Nat) (f : Strand → Strand) : (modStrand s k f).lastFloor = s.lastFloor := rfl
@[simp] theorem modStrand_lastAsk (s : State) (k : Nat) (f : Strand → Strand) : (modStrand s k f).lastAsk = s.lastAsk := rfl
@[simp] theorem modStrand_launches (s : State) (k : Nat) (f : Strand → Strand) : (modStrand s k f).launches = s.launches := rfl
@[simp] theorem modStrand_launchNo (s : State) (k : Nat) (f : Strand → Strand) : (modStrand s k f).launchNo = s.launchNo := rfl
@[simp] theorem modStrand_recs (s : State) (k : Nat) (f : Strand → Strand) : (modStrand s k f).recs = s.recs := rfl
@[simp] theorem modStrand_dieSeq (s : State) (k : Nat) (f : Strand → Strand) : (modStrand s k f).dieSeq = s.dieSeq := rfl
@[simp] theorem modStrand_srcStamp (s : State) (k : Nat) (f : Strand → Strand) : (modStrand s k f).srcStamp = s.srcStamp := rfl
@[simp] theorem modStrand_rings (s : State) (k : Nat) (f : Strand → Strand) : (modStrand s k f).rings = s.rings := rfl
@[simp] theorem modStrand_ptp (s : State) (k : Nat) (f : Strand → Strand) : (modStrand s k f).ptp = s.ptp := rfl
@[simp] theorem modStrand_links (s : State) (k : Nat) (f : Strand → Strand) : (modStrand s k f).links = s.links := rfl
@[simp] theorem modStrand_unreach (s : State) (k : Nat) (f : Strand → Strand) : (modStrand s k f).unreach = s.unreach := rfl
@[simp] theorem modStrand_fabricQ (s : State) (k : Nat) (f : Strand → Strand) : (modStrand s k f).fabricQ = s.fabricQ := rfl
@[simp] theorem modStrand_awaySends (s : State) (k : Nat) (f : Strand → Strand) : (modStrand s k f).awaySends = s.awaySends := rfl
@[simp] theorem modStrand_awayReqs (s : State) (k : Nat) (f : Strand → Strand) : (modStrand s k f).awayReqs = s.awayReqs := rfl
@[simp] theorem modStrand_ethDrops (s : State) (k : Nat) (f : Strand → Strand) : (modStrand s k f).ethDrops = s.ethDrops := rfl
@[simp] theorem modStrand_qps (s : State) (k : Nat) (f : Strand → Strand) : (modStrand s k f).qps = s.qps := rfl
@[simp] theorem modStrand_regions (s : State) (k : Nat) (f : Strand → Strand) : (modStrand s k f).regions = s.regions := rfl
@[simp] theorem modStrand_hdm (s : State) (k : Nat) (f : Strand → Strand) : (modStrand s k f).hdm = s.hdm := rfl
@[simp] theorem modStrand_rasctl (s : State) (k : Nat) (f : Strand → Strand) : (modStrand s k f).rasctl = s.rasctl := rfl
@[simp] theorem modStrand_rascnt (s : State) (k : Nat) (f : Strand → Strand) : (modStrand s k f).rascnt = s.rascnt := rfl
@[simp] theorem modStrand_xtrig (s : State) (k : Nat) (f : Strand → Strand) : (modStrand s k f).xtrig = s.xtrig := rfl
@[simp] theorem modStrand_msix (s : State) (k : Nat) (f : Strand → Strand) : (modStrand s k f).msix = s.msix := rfl
@[simp] theorem modStrand_mgmt (s : State) (k : Nat) (f : Strand → Strand) : (modStrand s k f).mgmt = s.mgmt := rfl
@[simp] theorem modMe_cycle (s : State) (f : Strand → Strand) : (modMe s f).cycle = s.cycle := rfl
@[simp] theorem modMe_time (s : State) (f : Strand → Strand) : (modMe s f).time = s.time := rfl
@[simp] theorem modMe_agenda (s : State) (f : Strand → Strand) : (modMe s f).agenda = s.agenda := rfl
@[simp] theorem modMe_cur (s : State) (f : Strand → Strand) : (modMe s f).cur = s.cur := rfl
@[simp] theorem modMe_late (s : State) (f : Strand → Strand) : (modMe s f).late = s.late := rfl
@[simp] theorem modMe_lastRun (s : State) (f : Strand → Strand) : (modMe s f).lastRun = s.lastRun := rfl
@[simp] theorem modMe_tick (s : State) (f : Strand → Strand) : (modMe s f).tick = s.tick := rfl
@[simp] theorem modMe_devNo (s : State) (f : Strand → Strand) : (modMe s f).devNo = s.devNo := rfl
@[simp] theorem modMe_cores (s : State) (f : Strand → Strand) : (modMe s f).cores = s.cores := rfl
@[simp] theorem modMe_clusters (s : State) (f : Strand → Strand) : (modMe s f).clusters = s.clusters := rfl
@[simp] theorem modMe_ctxs (s : State) (f : Strand → Strand) : (modMe s f).ctxs = s.ctxs := rfl
@[simp] theorem modMe_mem (s : State) (f : Strand → Strand) : (modMe s f).mem = s.mem := rfl
@[simp] theorem modMe_poison (s : State) (f : Strand → Strand) : (modMe s f).poison = s.poison := rfl
@[simp] theorem modMe_joins (s : State) (f : Strand → Strand) : (modMe s f).joins = s.joins := rfl
@[simp] theorem modMe_joinNo (s : State) (f : Strand → Strand) : (modMe s f).joinNo = s.joinNo := rfl
@[simp] theorem modMe_kills (s : State) (f : Strand → Strand) : (modMe s f).kills = s.kills := rfl
@[simp] theorem modMe_childArr (s : State) (f : Strand → Strand) : (modMe s f).childArr = s.childArr := rfl
@[simp] theorem modMe_stalls (s : State) (f : Strand → Strand) : (modMe s f).stalls = s.stalls := rfl
@[simp] theorem modMe_lockQ (s : State) (f : Strand → Strand) : (modMe s f).lockQ = s.lockQ := rfl
@[simp] theorem modMe_reductions (s : State) (f : Strand → Strand) : (modMe s f).reductions = s.reductions := rfl
@[simp] theorem modMe_lastT (s : State) (f : Strand → Strand) : (modMe s f).lastT = s.lastT := rfl
@[simp] theorem modMe_lastGone (s : State) (f : Strand → Strand) : (modMe s f).lastGone = s.lastGone := rfl
@[simp] theorem modMe_lastFloor (s : State) (f : Strand → Strand) : (modMe s f).lastFloor = s.lastFloor := rfl
@[simp] theorem modMe_lastAsk (s : State) (f : Strand → Strand) : (modMe s f).lastAsk = s.lastAsk := rfl
@[simp] theorem modMe_launches (s : State) (f : Strand → Strand) : (modMe s f).launches = s.launches := rfl
@[simp] theorem modMe_launchNo (s : State) (f : Strand → Strand) : (modMe s f).launchNo = s.launchNo := rfl
@[simp] theorem modMe_recs (s : State) (f : Strand → Strand) : (modMe s f).recs = s.recs := rfl
@[simp] theorem modMe_dieSeq (s : State) (f : Strand → Strand) : (modMe s f).dieSeq = s.dieSeq := rfl
@[simp] theorem modMe_srcStamp (s : State) (f : Strand → Strand) : (modMe s f).srcStamp = s.srcStamp := rfl
@[simp] theorem modMe_rings (s : State) (f : Strand → Strand) : (modMe s f).rings = s.rings := rfl
@[simp] theorem modMe_ptp (s : State) (f : Strand → Strand) : (modMe s f).ptp = s.ptp := rfl
@[simp] theorem modMe_links (s : State) (f : Strand → Strand) : (modMe s f).links = s.links := rfl
@[simp] theorem modMe_unreach (s : State) (f : Strand → Strand) : (modMe s f).unreach = s.unreach := rfl
@[simp] theorem modMe_fabricQ (s : State) (f : Strand → Strand) : (modMe s f).fabricQ = s.fabricQ := rfl
@[simp] theorem modMe_awaySends (s : State) (f : Strand → Strand) : (modMe s f).awaySends = s.awaySends := rfl
@[simp] theorem modMe_awayReqs (s : State) (f : Strand → Strand) : (modMe s f).awayReqs = s.awayReqs := rfl
@[simp] theorem modMe_ethDrops (s : State) (f : Strand → Strand) : (modMe s f).ethDrops = s.ethDrops := rfl
@[simp] theorem modMe_qps (s : State) (f : Strand → Strand) : (modMe s f).qps = s.qps := rfl
@[simp] theorem modMe_regions (s : State) (f : Strand → Strand) : (modMe s f).regions = s.regions := rfl
@[simp] theorem modMe_hdm (s : State) (f : Strand → Strand) : (modMe s f).hdm = s.hdm := rfl
@[simp] theorem modMe_rasctl (s : State) (f : Strand → Strand) : (modMe s f).rasctl = s.rasctl := rfl
@[simp] theorem modMe_rascnt (s : State) (f : Strand → Strand) : (modMe s f).rascnt = s.rascnt := rfl
@[simp] theorem modMe_xtrig (s : State) (f : Strand → Strand) : (modMe s f).xtrig = s.xtrig := rfl
@[simp] theorem modMe_msix (s : State) (f : Strand → Strand) : (modMe s f).msix = s.msix := rfl
@[simp] theorem modMe_mgmt (s : State) (f : Strand → Strand) : (modMe s f).mgmt = s.mgmt := rfl
@[simp] theorem setCore_cycle (s : State) (c : Nat) (x : Core) : (setCore s c x).cycle = s.cycle := rfl
@[simp] theorem setCore_time (s : State) (c : Nat) (x : Core) : (setCore s c x).time = s.time := rfl
@[simp] theorem setCore_agenda (s : State) (c : Nat) (x : Core) : (setCore s c x).agenda = s.agenda := rfl
@[simp] theorem setCore_cur (s : State) (c : Nat) (x : Core) : (setCore s c x).cur = s.cur := rfl
@[simp] theorem setCore_late (s : State) (c : Nat) (x : Core) : (setCore s c x).late = s.late := rfl
@[simp] theorem setCore_lastRun (s : State) (c : Nat) (x : Core) : (setCore s c x).lastRun = s.lastRun := rfl
@[simp] theorem setCore_tick (s : State) (c : Nat) (x : Core) : (setCore s c x).tick = s.tick := rfl
@[simp] theorem setCore_devNo (s : State) (c : Nat) (x : Core) : (setCore s c x).devNo = s.devNo := rfl
@[simp] theorem setCore_strands (s : State) (c : Nat) (x : Core) : (setCore s c x).strands = s.strands := rfl
@[simp] theorem setCore_clusters (s : State) (c : Nat) (x : Core) : (setCore s c x).clusters = s.clusters := rfl
@[simp] theorem setCore_ctxs (s : State) (c : Nat) (x : Core) : (setCore s c x).ctxs = s.ctxs := rfl
@[simp] theorem setCore_mem (s : State) (c : Nat) (x : Core) : (setCore s c x).mem = s.mem := rfl
@[simp] theorem setCore_poison (s : State) (c : Nat) (x : Core) : (setCore s c x).poison = s.poison := rfl
@[simp] theorem setCore_joins (s : State) (c : Nat) (x : Core) : (setCore s c x).joins = s.joins := rfl
@[simp] theorem setCore_joinNo (s : State) (c : Nat) (x : Core) : (setCore s c x).joinNo = s.joinNo := rfl
@[simp] theorem setCore_kills (s : State) (c : Nat) (x : Core) : (setCore s c x).kills = s.kills := rfl
@[simp] theorem setCore_childArr (s : State) (c : Nat) (x : Core) : (setCore s c x).childArr = s.childArr := rfl
@[simp] theorem setCore_stalls (s : State) (c : Nat) (x : Core) : (setCore s c x).stalls = s.stalls := rfl
@[simp] theorem setCore_lockQ (s : State) (c : Nat) (x : Core) : (setCore s c x).lockQ = s.lockQ := rfl
@[simp] theorem setCore_reductions (s : State) (c : Nat) (x : Core) : (setCore s c x).reductions = s.reductions := rfl
@[simp] theorem setCore_lastT (s : State) (c : Nat) (x : Core) : (setCore s c x).lastT = s.lastT := rfl
@[simp] theorem setCore_lastGone (s : State) (c : Nat) (x : Core) : (setCore s c x).lastGone = s.lastGone := rfl
@[simp] theorem setCore_lastFloor (s : State) (c : Nat) (x : Core) : (setCore s c x).lastFloor = s.lastFloor := rfl
@[simp] theorem setCore_lastAsk (s : State) (c : Nat) (x : Core) : (setCore s c x).lastAsk = s.lastAsk := rfl
@[simp] theorem setCore_launches (s : State) (c : Nat) (x : Core) : (setCore s c x).launches = s.launches := rfl
@[simp] theorem setCore_launchNo (s : State) (c : Nat) (x : Core) : (setCore s c x).launchNo = s.launchNo := rfl
@[simp] theorem setCore_recs (s : State) (c : Nat) (x : Core) : (setCore s c x).recs = s.recs := rfl
@[simp] theorem setCore_dieSeq (s : State) (c : Nat) (x : Core) : (setCore s c x).dieSeq = s.dieSeq := rfl
@[simp] theorem setCore_srcStamp (s : State) (c : Nat) (x : Core) : (setCore s c x).srcStamp = s.srcStamp := rfl
@[simp] theorem setCore_rings (s : State) (c : Nat) (x : Core) : (setCore s c x).rings = s.rings := rfl
@[simp] theorem setCore_ptp (s : State) (c : Nat) (x : Core) : (setCore s c x).ptp = s.ptp := rfl
@[simp] theorem setCore_links (s : State) (c : Nat) (x : Core) : (setCore s c x).links = s.links := rfl
@[simp] theorem setCore_unreach (s : State) (c : Nat) (x : Core) : (setCore s c x).unreach = s.unreach := rfl
@[simp] theorem setCore_fabricQ (s : State) (c : Nat) (x : Core) : (setCore s c x).fabricQ = s.fabricQ := rfl
@[simp] theorem setCore_awaySends (s : State) (c : Nat) (x : Core) : (setCore s c x).awaySends = s.awaySends := rfl
@[simp] theorem setCore_awayReqs (s : State) (c : Nat) (x : Core) : (setCore s c x).awayReqs = s.awayReqs := rfl
@[simp] theorem setCore_ethDrops (s : State) (c : Nat) (x : Core) : (setCore s c x).ethDrops = s.ethDrops := rfl
@[simp] theorem setCore_qps (s : State) (c : Nat) (x : Core) : (setCore s c x).qps = s.qps := rfl
@[simp] theorem setCore_regions (s : State) (c : Nat) (x : Core) : (setCore s c x).regions = s.regions := rfl
@[simp] theorem setCore_hdm (s : State) (c : Nat) (x : Core) : (setCore s c x).hdm = s.hdm := rfl
@[simp] theorem setCore_rasctl (s : State) (c : Nat) (x : Core) : (setCore s c x).rasctl = s.rasctl := rfl
@[simp] theorem setCore_rascnt (s : State) (c : Nat) (x : Core) : (setCore s c x).rascnt = s.rascnt := rfl
@[simp] theorem setCore_xtrig (s : State) (c : Nat) (x : Core) : (setCore s c x).xtrig = s.xtrig := rfl
@[simp] theorem setCore_msix (s : State) (c : Nat) (x : Core) : (setCore s c x).msix = s.msix := rfl
@[simp] theorem setCore_mgmt (s : State) (c : Nat) (x : Core) : (setCore s c x).mgmt = s.mgmt := rfl
@[simp] theorem modCore_cycle (s : State) (c : Nat) (f : Core → Core) : (modCore s c f).cycle = s.cycle := rfl
@[simp] theorem modCore_time (s : State) (c : Nat) (f : Core → Core) : (modCore s c f).time = s.time := rfl
@[simp] theorem modCore_agenda (s : State) (c : Nat) (f : Core → Core) : (modCore s c f).agenda = s.agenda := rfl
@[simp] theorem modCore_cur (s : State) (c : Nat) (f : Core → Core) : (modCore s c f).cur = s.cur := rfl
@[simp] theorem modCore_late (s : State) (c : Nat) (f : Core → Core) : (modCore s c f).late = s.late := rfl
@[simp] theorem modCore_lastRun (s : State) (c : Nat) (f : Core → Core) : (modCore s c f).lastRun = s.lastRun := rfl
@[simp] theorem modCore_tick (s : State) (c : Nat) (f : Core → Core) : (modCore s c f).tick = s.tick := rfl
@[simp] theorem modCore_devNo (s : State) (c : Nat) (f : Core → Core) : (modCore s c f).devNo = s.devNo := rfl
@[simp] theorem modCore_strands (s : State) (c : Nat) (f : Core → Core) : (modCore s c f).strands = s.strands := rfl
@[simp] theorem modCore_clusters (s : State) (c : Nat) (f : Core → Core) : (modCore s c f).clusters = s.clusters := rfl
@[simp] theorem modCore_ctxs (s : State) (c : Nat) (f : Core → Core) : (modCore s c f).ctxs = s.ctxs := rfl
@[simp] theorem modCore_mem (s : State) (c : Nat) (f : Core → Core) : (modCore s c f).mem = s.mem := rfl
@[simp] theorem modCore_poison (s : State) (c : Nat) (f : Core → Core) : (modCore s c f).poison = s.poison := rfl
@[simp] theorem modCore_joins (s : State) (c : Nat) (f : Core → Core) : (modCore s c f).joins = s.joins := rfl
@[simp] theorem modCore_joinNo (s : State) (c : Nat) (f : Core → Core) : (modCore s c f).joinNo = s.joinNo := rfl
@[simp] theorem modCore_kills (s : State) (c : Nat) (f : Core → Core) : (modCore s c f).kills = s.kills := rfl
@[simp] theorem modCore_childArr (s : State) (c : Nat) (f : Core → Core) : (modCore s c f).childArr = s.childArr := rfl
@[simp] theorem modCore_stalls (s : State) (c : Nat) (f : Core → Core) : (modCore s c f).stalls = s.stalls := rfl
@[simp] theorem modCore_lockQ (s : State) (c : Nat) (f : Core → Core) : (modCore s c f).lockQ = s.lockQ := rfl
@[simp] theorem modCore_reductions (s : State) (c : Nat) (f : Core → Core) : (modCore s c f).reductions = s.reductions := rfl
@[simp] theorem modCore_lastT (s : State) (c : Nat) (f : Core → Core) : (modCore s c f).lastT = s.lastT := rfl
@[simp] theorem modCore_lastGone (s : State) (c : Nat) (f : Core → Core) : (modCore s c f).lastGone = s.lastGone := rfl
@[simp] theorem modCore_lastFloor (s : State) (c : Nat) (f : Core → Core) : (modCore s c f).lastFloor = s.lastFloor := rfl
@[simp] theorem modCore_lastAsk (s : State) (c : Nat) (f : Core → Core) : (modCore s c f).lastAsk = s.lastAsk := rfl
@[simp] theorem modCore_launches (s : State) (c : Nat) (f : Core → Core) : (modCore s c f).launches = s.launches := rfl
@[simp] theorem modCore_launchNo (s : State) (c : Nat) (f : Core → Core) : (modCore s c f).launchNo = s.launchNo := rfl
@[simp] theorem modCore_recs (s : State) (c : Nat) (f : Core → Core) : (modCore s c f).recs = s.recs := rfl
@[simp] theorem modCore_dieSeq (s : State) (c : Nat) (f : Core → Core) : (modCore s c f).dieSeq = s.dieSeq := rfl
@[simp] theorem modCore_srcStamp (s : State) (c : Nat) (f : Core → Core) : (modCore s c f).srcStamp = s.srcStamp := rfl
@[simp] theorem modCore_rings (s : State) (c : Nat) (f : Core → Core) : (modCore s c f).rings = s.rings := rfl
@[simp] theorem modCore_ptp (s : State) (c : Nat) (f : Core → Core) : (modCore s c f).ptp = s.ptp := rfl
@[simp] theorem modCore_links (s : State) (c : Nat) (f : Core → Core) : (modCore s c f).links = s.links := rfl
@[simp] theorem modCore_unreach (s : State) (c : Nat) (f : Core → Core) : (modCore s c f).unreach = s.unreach := rfl
@[simp] theorem modCore_fabricQ (s : State) (c : Nat) (f : Core → Core) : (modCore s c f).fabricQ = s.fabricQ := rfl
@[simp] theorem modCore_awaySends (s : State) (c : Nat) (f : Core → Core) : (modCore s c f).awaySends = s.awaySends := rfl
@[simp] theorem modCore_awayReqs (s : State) (c : Nat) (f : Core → Core) : (modCore s c f).awayReqs = s.awayReqs := rfl
@[simp] theorem modCore_ethDrops (s : State) (c : Nat) (f : Core → Core) : (modCore s c f).ethDrops = s.ethDrops := rfl
@[simp] theorem modCore_qps (s : State) (c : Nat) (f : Core → Core) : (modCore s c f).qps = s.qps := rfl
@[simp] theorem modCore_regions (s : State) (c : Nat) (f : Core → Core) : (modCore s c f).regions = s.regions := rfl
@[simp] theorem modCore_hdm (s : State) (c : Nat) (f : Core → Core) : (modCore s c f).hdm = s.hdm := rfl
@[simp] theorem modCore_rasctl (s : State) (c : Nat) (f : Core → Core) : (modCore s c f).rasctl = s.rasctl := rfl
@[simp] theorem modCore_rascnt (s : State) (c : Nat) (f : Core → Core) : (modCore s c f).rascnt = s.rascnt := rfl
@[simp] theorem modCore_xtrig (s : State) (c : Nat) (f : Core → Core) : (modCore s c f).xtrig = s.xtrig := rfl
@[simp] theorem modCore_msix (s : State) (c : Nat) (f : Core → Core) : (modCore s c f).msix = s.msix := rfl
@[simp] theorem modCore_mgmt (s : State) (c : Nat) (f : Core → Core) : (modCore s c f).mgmt = s.mgmt := rfl
@[simp] theorem setCluster_cycle (s : State) (c : Nat) (x : Cluster) : (setCluster s c x).cycle = s.cycle := rfl
@[simp] theorem setCluster_time (s : State) (c : Nat) (x : Cluster) : (setCluster s c x).time = s.time := rfl
@[simp] theorem setCluster_agenda (s : State) (c : Nat) (x : Cluster) : (setCluster s c x).agenda = s.agenda := rfl
@[simp] theorem setCluster_cur (s : State) (c : Nat) (x : Cluster) : (setCluster s c x).cur = s.cur := rfl
@[simp] theorem setCluster_late (s : State) (c : Nat) (x : Cluster) : (setCluster s c x).late = s.late := rfl
@[simp] theorem setCluster_lastRun (s : State) (c : Nat) (x : Cluster) : (setCluster s c x).lastRun = s.lastRun := rfl
@[simp] theorem setCluster_tick (s : State) (c : Nat) (x : Cluster) : (setCluster s c x).tick = s.tick := rfl
@[simp] theorem setCluster_devNo (s : State) (c : Nat) (x : Cluster) : (setCluster s c x).devNo = s.devNo := rfl
@[simp] theorem setCluster_strands (s : State) (c : Nat) (x : Cluster) : (setCluster s c x).strands = s.strands := rfl
@[simp] theorem setCluster_cores (s : State) (c : Nat) (x : Cluster) : (setCluster s c x).cores = s.cores := rfl
@[simp] theorem setCluster_ctxs (s : State) (c : Nat) (x : Cluster) : (setCluster s c x).ctxs = s.ctxs := rfl
@[simp] theorem setCluster_mem (s : State) (c : Nat) (x : Cluster) : (setCluster s c x).mem = s.mem := rfl
@[simp] theorem setCluster_poison (s : State) (c : Nat) (x : Cluster) : (setCluster s c x).poison = s.poison := rfl
@[simp] theorem setCluster_joins (s : State) (c : Nat) (x : Cluster) : (setCluster s c x).joins = s.joins := rfl
@[simp] theorem setCluster_joinNo (s : State) (c : Nat) (x : Cluster) : (setCluster s c x).joinNo = s.joinNo := rfl
@[simp] theorem setCluster_kills (s : State) (c : Nat) (x : Cluster) : (setCluster s c x).kills = s.kills := rfl
@[simp] theorem setCluster_childArr (s : State) (c : Nat) (x : Cluster) : (setCluster s c x).childArr = s.childArr := rfl
@[simp] theorem setCluster_stalls (s : State) (c : Nat) (x : Cluster) : (setCluster s c x).stalls = s.stalls := rfl
@[simp] theorem setCluster_lockQ (s : State) (c : Nat) (x : Cluster) : (setCluster s c x).lockQ = s.lockQ := rfl
@[simp] theorem setCluster_reductions (s : State) (c : Nat) (x : Cluster) : (setCluster s c x).reductions = s.reductions := rfl
@[simp] theorem setCluster_lastT (s : State) (c : Nat) (x : Cluster) : (setCluster s c x).lastT = s.lastT := rfl
@[simp] theorem setCluster_lastGone (s : State) (c : Nat) (x : Cluster) : (setCluster s c x).lastGone = s.lastGone := rfl
@[simp] theorem setCluster_lastFloor (s : State) (c : Nat) (x : Cluster) : (setCluster s c x).lastFloor = s.lastFloor := rfl
@[simp] theorem setCluster_lastAsk (s : State) (c : Nat) (x : Cluster) : (setCluster s c x).lastAsk = s.lastAsk := rfl
@[simp] theorem setCluster_launches (s : State) (c : Nat) (x : Cluster) : (setCluster s c x).launches = s.launches := rfl
@[simp] theorem setCluster_launchNo (s : State) (c : Nat) (x : Cluster) : (setCluster s c x).launchNo = s.launchNo := rfl
@[simp] theorem setCluster_recs (s : State) (c : Nat) (x : Cluster) : (setCluster s c x).recs = s.recs := rfl
@[simp] theorem setCluster_dieSeq (s : State) (c : Nat) (x : Cluster) : (setCluster s c x).dieSeq = s.dieSeq := rfl
@[simp] theorem setCluster_srcStamp (s : State) (c : Nat) (x : Cluster) : (setCluster s c x).srcStamp = s.srcStamp := rfl
@[simp] theorem setCluster_rings (s : State) (c : Nat) (x : Cluster) : (setCluster s c x).rings = s.rings := rfl
@[simp] theorem setCluster_ptp (s : State) (c : Nat) (x : Cluster) : (setCluster s c x).ptp = s.ptp := rfl
@[simp] theorem setCluster_links (s : State) (c : Nat) (x : Cluster) : (setCluster s c x).links = s.links := rfl
@[simp] theorem setCluster_unreach (s : State) (c : Nat) (x : Cluster) : (setCluster s c x).unreach = s.unreach := rfl
@[simp] theorem setCluster_fabricQ (s : State) (c : Nat) (x : Cluster) : (setCluster s c x).fabricQ = s.fabricQ := rfl
@[simp] theorem setCluster_awaySends (s : State) (c : Nat) (x : Cluster) : (setCluster s c x).awaySends = s.awaySends := rfl
@[simp] theorem setCluster_awayReqs (s : State) (c : Nat) (x : Cluster) : (setCluster s c x).awayReqs = s.awayReqs := rfl
@[simp] theorem setCluster_ethDrops (s : State) (c : Nat) (x : Cluster) : (setCluster s c x).ethDrops = s.ethDrops := rfl
@[simp] theorem setCluster_qps (s : State) (c : Nat) (x : Cluster) : (setCluster s c x).qps = s.qps := rfl
@[simp] theorem setCluster_regions (s : State) (c : Nat) (x : Cluster) : (setCluster s c x).regions = s.regions := rfl
@[simp] theorem setCluster_hdm (s : State) (c : Nat) (x : Cluster) : (setCluster s c x).hdm = s.hdm := rfl
@[simp] theorem setCluster_rasctl (s : State) (c : Nat) (x : Cluster) : (setCluster s c x).rasctl = s.rasctl := rfl
@[simp] theorem setCluster_rascnt (s : State) (c : Nat) (x : Cluster) : (setCluster s c x).rascnt = s.rascnt := rfl
@[simp] theorem setCluster_xtrig (s : State) (c : Nat) (x : Cluster) : (setCluster s c x).xtrig = s.xtrig := rfl
@[simp] theorem setCluster_msix (s : State) (c : Nat) (x : Cluster) : (setCluster s c x).msix = s.msix := rfl
@[simp] theorem setCluster_mgmt (s : State) (c : Nat) (x : Cluster) : (setCluster s c x).mgmt = s.mgmt := rfl
@[simp] theorem modCluster_cycle (s : State) (c : Nat) (f : Cluster → Cluster) : (modCluster s c f).cycle = s.cycle := rfl
@[simp] theorem modCluster_time (s : State) (c : Nat) (f : Cluster → Cluster) : (modCluster s c f).time = s.time := rfl
@[simp] theorem modCluster_agenda (s : State) (c : Nat) (f : Cluster → Cluster) : (modCluster s c f).agenda = s.agenda := rfl
@[simp] theorem modCluster_cur (s : State) (c : Nat) (f : Cluster → Cluster) : (modCluster s c f).cur = s.cur := rfl
@[simp] theorem modCluster_late (s : State) (c : Nat) (f : Cluster → Cluster) : (modCluster s c f).late = s.late := rfl
@[simp] theorem modCluster_lastRun (s : State) (c : Nat) (f : Cluster → Cluster) : (modCluster s c f).lastRun = s.lastRun := rfl
@[simp] theorem modCluster_tick (s : State) (c : Nat) (f : Cluster → Cluster) : (modCluster s c f).tick = s.tick := rfl
@[simp] theorem modCluster_devNo (s : State) (c : Nat) (f : Cluster → Cluster) : (modCluster s c f).devNo = s.devNo := rfl
@[simp] theorem modCluster_strands (s : State) (c : Nat) (f : Cluster → Cluster) : (modCluster s c f).strands = s.strands := rfl
@[simp] theorem modCluster_cores (s : State) (c : Nat) (f : Cluster → Cluster) : (modCluster s c f).cores = s.cores := rfl
@[simp] theorem modCluster_ctxs (s : State) (c : Nat) (f : Cluster → Cluster) : (modCluster s c f).ctxs = s.ctxs := rfl
@[simp] theorem modCluster_mem (s : State) (c : Nat) (f : Cluster → Cluster) : (modCluster s c f).mem = s.mem := rfl
@[simp] theorem modCluster_poison (s : State) (c : Nat) (f : Cluster → Cluster) : (modCluster s c f).poison = s.poison := rfl
@[simp] theorem modCluster_joins (s : State) (c : Nat) (f : Cluster → Cluster) : (modCluster s c f).joins = s.joins := rfl
@[simp] theorem modCluster_joinNo (s : State) (c : Nat) (f : Cluster → Cluster) : (modCluster s c f).joinNo = s.joinNo := rfl
@[simp] theorem modCluster_kills (s : State) (c : Nat) (f : Cluster → Cluster) : (modCluster s c f).kills = s.kills := rfl
@[simp] theorem modCluster_childArr (s : State) (c : Nat) (f : Cluster → Cluster) : (modCluster s c f).childArr = s.childArr := rfl
@[simp] theorem modCluster_stalls (s : State) (c : Nat) (f : Cluster → Cluster) : (modCluster s c f).stalls = s.stalls := rfl
@[simp] theorem modCluster_lockQ (s : State) (c : Nat) (f : Cluster → Cluster) : (modCluster s c f).lockQ = s.lockQ := rfl
@[simp] theorem modCluster_reductions (s : State) (c : Nat) (f : Cluster → Cluster) : (modCluster s c f).reductions = s.reductions := rfl
@[simp] theorem modCluster_lastT (s : State) (c : Nat) (f : Cluster → Cluster) : (modCluster s c f).lastT = s.lastT := rfl
@[simp] theorem modCluster_lastGone (s : State) (c : Nat) (f : Cluster → Cluster) : (modCluster s c f).lastGone = s.lastGone := rfl
@[simp] theorem modCluster_lastFloor (s : State) (c : Nat) (f : Cluster → Cluster) : (modCluster s c f).lastFloor = s.lastFloor := rfl
@[simp] theorem modCluster_lastAsk (s : State) (c : Nat) (f : Cluster → Cluster) : (modCluster s c f).lastAsk = s.lastAsk := rfl
@[simp] theorem modCluster_launches (s : State) (c : Nat) (f : Cluster → Cluster) : (modCluster s c f).launches = s.launches := rfl
@[simp] theorem modCluster_launchNo (s : State) (c : Nat) (f : Cluster → Cluster) : (modCluster s c f).launchNo = s.launchNo := rfl
@[simp] theorem modCluster_recs (s : State) (c : Nat) (f : Cluster → Cluster) : (modCluster s c f).recs = s.recs := rfl
@[simp] theorem modCluster_dieSeq (s : State) (c : Nat) (f : Cluster → Cluster) : (modCluster s c f).dieSeq = s.dieSeq := rfl
@[simp] theorem modCluster_srcStamp (s : State) (c : Nat) (f : Cluster → Cluster) : (modCluster s c f).srcStamp = s.srcStamp := rfl
@[simp] theorem modCluster_rings (s : State) (c : Nat) (f : Cluster → Cluster) : (modCluster s c f).rings = s.rings := rfl
@[simp] theorem modCluster_ptp (s : State) (c : Nat) (f : Cluster → Cluster) : (modCluster s c f).ptp = s.ptp := rfl
@[simp] theorem modCluster_links (s : State) (c : Nat) (f : Cluster → Cluster) : (modCluster s c f).links = s.links := rfl
@[simp] theorem modCluster_unreach (s : State) (c : Nat) (f : Cluster → Cluster) : (modCluster s c f).unreach = s.unreach := rfl
@[simp] theorem modCluster_fabricQ (s : State) (c : Nat) (f : Cluster → Cluster) : (modCluster s c f).fabricQ = s.fabricQ := rfl
@[simp] theorem modCluster_awaySends (s : State) (c : Nat) (f : Cluster → Cluster) : (modCluster s c f).awaySends = s.awaySends := rfl
@[simp] theorem modCluster_awayReqs (s : State) (c : Nat) (f : Cluster → Cluster) : (modCluster s c f).awayReqs = s.awayReqs := rfl
@[simp] theorem modCluster_ethDrops (s : State) (c : Nat) (f : Cluster → Cluster) : (modCluster s c f).ethDrops = s.ethDrops := rfl
@[simp] theorem modCluster_qps (s : State) (c : Nat) (f : Cluster → Cluster) : (modCluster s c f).qps = s.qps := rfl
@[simp] theorem modCluster_regions (s : State) (c : Nat) (f : Cluster → Cluster) : (modCluster s c f).regions = s.regions := rfl
@[simp] theorem modCluster_hdm (s : State) (c : Nat) (f : Cluster → Cluster) : (modCluster s c f).hdm = s.hdm := rfl
@[simp] theorem modCluster_rasctl (s : State) (c : Nat) (f : Cluster → Cluster) : (modCluster s c f).rasctl = s.rasctl := rfl
@[simp] theorem modCluster_rascnt (s : State) (c : Nat) (f : Cluster → Cluster) : (modCluster s c f).rascnt = s.rascnt := rfl
@[simp] theorem modCluster_xtrig (s : State) (c : Nat) (f : Cluster → Cluster) : (modCluster s c f).xtrig = s.xtrig := rfl
@[simp] theorem modCluster_msix (s : State) (c : Nat) (f : Cluster → Cluster) : (modCluster s c f).msix = s.msix := rfl
@[simp] theorem modCluster_mgmt (s : State) (c : Nat) (f : Cluster → Cluster) : (modCluster s c f).mgmt = s.mgmt := rfl
@[simp] theorem modCtx_cycle (s : State) (x : Nat) (f : Ctx → Ctx) : (modCtx s x f).cycle = s.cycle := rfl
@[simp] theorem modCtx_time (s : State) (x : Nat) (f : Ctx → Ctx) : (modCtx s x f).time = s.time := rfl
@[simp] theorem modCtx_agenda (s : State) (x : Nat) (f : Ctx → Ctx) : (modCtx s x f).agenda = s.agenda := rfl
@[simp] theorem modCtx_cur (s : State) (x : Nat) (f : Ctx → Ctx) : (modCtx s x f).cur = s.cur := rfl
@[simp] theorem modCtx_late (s : State) (x : Nat) (f : Ctx → Ctx) : (modCtx s x f).late = s.late := rfl
@[simp] theorem modCtx_lastRun (s : State) (x : Nat) (f : Ctx → Ctx) : (modCtx s x f).lastRun = s.lastRun := rfl
@[simp] theorem modCtx_tick (s : State) (x : Nat) (f : Ctx → Ctx) : (modCtx s x f).tick = s.tick := rfl
@[simp] theorem modCtx_devNo (s : State) (x : Nat) (f : Ctx → Ctx) : (modCtx s x f).devNo = s.devNo := rfl
@[simp] theorem modCtx_strands (s : State) (x : Nat) (f : Ctx → Ctx) : (modCtx s x f).strands = s.strands := rfl
@[simp] theorem modCtx_cores (s : State) (x : Nat) (f : Ctx → Ctx) : (modCtx s x f).cores = s.cores := rfl
@[simp] theorem modCtx_clusters (s : State) (x : Nat) (f : Ctx → Ctx) : (modCtx s x f).clusters = s.clusters := rfl
@[simp] theorem modCtx_mem (s : State) (x : Nat) (f : Ctx → Ctx) : (modCtx s x f).mem = s.mem := rfl
@[simp] theorem modCtx_poison (s : State) (x : Nat) (f : Ctx → Ctx) : (modCtx s x f).poison = s.poison := rfl
@[simp] theorem modCtx_joins (s : State) (x : Nat) (f : Ctx → Ctx) : (modCtx s x f).joins = s.joins := rfl
@[simp] theorem modCtx_joinNo (s : State) (x : Nat) (f : Ctx → Ctx) : (modCtx s x f).joinNo = s.joinNo := rfl
@[simp] theorem modCtx_kills (s : State) (x : Nat) (f : Ctx → Ctx) : (modCtx s x f).kills = s.kills := rfl
@[simp] theorem modCtx_childArr (s : State) (x : Nat) (f : Ctx → Ctx) : (modCtx s x f).childArr = s.childArr := rfl
@[simp] theorem modCtx_stalls (s : State) (x : Nat) (f : Ctx → Ctx) : (modCtx s x f).stalls = s.stalls := rfl
@[simp] theorem modCtx_lockQ (s : State) (x : Nat) (f : Ctx → Ctx) : (modCtx s x f).lockQ = s.lockQ := rfl
@[simp] theorem modCtx_reductions (s : State) (x : Nat) (f : Ctx → Ctx) : (modCtx s x f).reductions = s.reductions := rfl
@[simp] theorem modCtx_lastT (s : State) (x : Nat) (f : Ctx → Ctx) : (modCtx s x f).lastT = s.lastT := rfl
@[simp] theorem modCtx_lastGone (s : State) (x : Nat) (f : Ctx → Ctx) : (modCtx s x f).lastGone = s.lastGone := rfl
@[simp] theorem modCtx_lastFloor (s : State) (x : Nat) (f : Ctx → Ctx) : (modCtx s x f).lastFloor = s.lastFloor := rfl
@[simp] theorem modCtx_lastAsk (s : State) (x : Nat) (f : Ctx → Ctx) : (modCtx s x f).lastAsk = s.lastAsk := rfl
@[simp] theorem modCtx_launches (s : State) (x : Nat) (f : Ctx → Ctx) : (modCtx s x f).launches = s.launches := rfl
@[simp] theorem modCtx_launchNo (s : State) (x : Nat) (f : Ctx → Ctx) : (modCtx s x f).launchNo = s.launchNo := rfl
@[simp] theorem modCtx_recs (s : State) (x : Nat) (f : Ctx → Ctx) : (modCtx s x f).recs = s.recs := rfl
@[simp] theorem modCtx_dieSeq (s : State) (x : Nat) (f : Ctx → Ctx) : (modCtx s x f).dieSeq = s.dieSeq := rfl
@[simp] theorem modCtx_srcStamp (s : State) (x : Nat) (f : Ctx → Ctx) : (modCtx s x f).srcStamp = s.srcStamp := rfl
@[simp] theorem modCtx_rings (s : State) (x : Nat) (f : Ctx → Ctx) : (modCtx s x f).rings = s.rings := rfl
@[simp] theorem modCtx_ptp (s : State) (x : Nat) (f : Ctx → Ctx) : (modCtx s x f).ptp = s.ptp := rfl
@[simp] theorem modCtx_links (s : State) (x : Nat) (f : Ctx → Ctx) : (modCtx s x f).links = s.links := rfl
@[simp] theorem modCtx_unreach (s : State) (x : Nat) (f : Ctx → Ctx) : (modCtx s x f).unreach = s.unreach := rfl
@[simp] theorem modCtx_fabricQ (s : State) (x : Nat) (f : Ctx → Ctx) : (modCtx s x f).fabricQ = s.fabricQ := rfl
@[simp] theorem modCtx_awaySends (s : State) (x : Nat) (f : Ctx → Ctx) : (modCtx s x f).awaySends = s.awaySends := rfl
@[simp] theorem modCtx_awayReqs (s : State) (x : Nat) (f : Ctx → Ctx) : (modCtx s x f).awayReqs = s.awayReqs := rfl
@[simp] theorem modCtx_ethDrops (s : State) (x : Nat) (f : Ctx → Ctx) : (modCtx s x f).ethDrops = s.ethDrops := rfl
@[simp] theorem modCtx_qps (s : State) (x : Nat) (f : Ctx → Ctx) : (modCtx s x f).qps = s.qps := rfl
@[simp] theorem modCtx_regions (s : State) (x : Nat) (f : Ctx → Ctx) : (modCtx s x f).regions = s.regions := rfl
@[simp] theorem modCtx_hdm (s : State) (x : Nat) (f : Ctx → Ctx) : (modCtx s x f).hdm = s.hdm := rfl
@[simp] theorem modCtx_rasctl (s : State) (x : Nat) (f : Ctx → Ctx) : (modCtx s x f).rasctl = s.rasctl := rfl
@[simp] theorem modCtx_rascnt (s : State) (x : Nat) (f : Ctx → Ctx) : (modCtx s x f).rascnt = s.rascnt := rfl
@[simp] theorem modCtx_xtrig (s : State) (x : Nat) (f : Ctx → Ctx) : (modCtx s x f).xtrig = s.xtrig := rfl
@[simp] theorem modCtx_msix (s : State) (x : Nat) (f : Ctx → Ctx) : (modCtx s x f).msix = s.msix := rfl
@[simp] theorem modCtx_mgmt (s : State) (x : Nat) (f : Ctx → Ctx) : (modCtx s x f).mgmt = s.mgmt := rfl

/-! ### Units read after a write of a unit -/

theorem getStrand_setStrand (s : State) (j k : Nat) (x : Strand) :
    getStrand (setStrand s j x) k = if j = k then x else getStrand s k := by
  simp [getStrand, setStrand, mget_mput]
@[simp] theorem getStrand_setStrand_self (s : State) (k : Nat) (x : Strand) : getStrand (setStrand s k x) k = x := by
  simp [getStrand_setStrand]
theorem getStrand_modStrand (s : State) (j k : Nat) (f : Strand → Strand) :
    getStrand (modStrand s j f) k = if j = k then f (getStrand s j) else getStrand s k := by
  simp [modStrand, getStrand_setStrand]
@[simp] theorem getStrand_modStrand_self (s : State) (k : Nat) (f : Strand → Strand) :
    getStrand (modStrand s k f) k = f (getStrand s k) := by simp [getStrand_modStrand]
theorem getCore_setCore (s : State) (j k : Nat) (x : Core) :
    getCore (setCore s j x) k = if j = k then x else getCore s k := by
  simp [getCore, setCore, mget_mput]
@[simp] theorem getCore_setCore_self (s : State) (k : Nat) (x : Core) : getCore (setCore s k x) k = x := by
  simp [getCore_setCore]
theorem getCore_modCore (s : State) (j k : Nat) (f : Core → Core) :
    getCore (modCore s j f) k = if j = k then f (getCore s j) else getCore s k := by
  simp [modCore, getCore_setCore]
@[simp] theorem getCore_modCore_self (s : State) (k : Nat) (f : Core → Core) :
    getCore (modCore s k f) k = f (getCore s k) := by simp [getCore_modCore]
theorem getCluster_setCluster (s : State) (j k : Nat) (x : Cluster) :
    getCluster (setCluster s j x) k = if j = k then x else getCluster s k := by
  simp [getCluster, setCluster, mget_mput]
@[simp] theorem getCluster_setCluster_self (s : State) (k : Nat) (x : Cluster) : getCluster (setCluster s k x) k = x := by
  simp [getCluster_setCluster]
theorem getCluster_modCluster (s : State) (j k : Nat) (f : Cluster → Cluster) :
    getCluster (modCluster s j f) k = if j = k then f (getCluster s j) else getCluster s k := by
  simp [modCluster, getCluster_setCluster]
@[simp] theorem getCluster_modCluster_self (s : State) (k : Nat) (f : Cluster → Cluster) :
    getCluster (modCluster s k f) k = f (getCluster s k) := by simp [getCluster_modCluster]
theorem getCtx_modCtx (s : State) (j k : Nat) (f : Ctx → Ctx) :
    getCtx (modCtx s j f) k = if j = k then f (getCtx s j) else getCtx s k := by
  simp [getCtx, modCtx, mget_mput]
@[simp] theorem getCtx_modCtx_self (s : State) (k : Nat) (f : Ctx → Ctx) :
    getCtx (modCtx s k f) k = f (getCtx s k) := by simp [getCtx_modCtx]

@[simp] theorem getCore_setStrand (s : State) (k : Nat) (x : Strand) (j : Nat) : getCore (setStrand s k x) j = getCore s j := rfl
@[simp] theorem getCluster_setStrand (s : State) (k : Nat) (x : Strand) (j : Nat) : getCluster (setStrand s k x) j = getCluster s j := rfl
@[simp] theorem getCtx_setStrand (s : State) (k : Nat) (x : Strand) (j : Nat) : getCtx (setStrand s k x) j = getCtx s j := rfl
@[simp] theorem getCore_modStrand (s : State) (k : Nat) (f : Strand → Strand) (j : Nat) : getCore (modStrand s k f) j = getCore s j := rfl
@[simp] theorem getCluster_modStrand (s : State) (k : Nat) (f : Strand → Strand) (j : Nat) : getCluster (modStrand s k f) j = getCluster s j := rfl
@[simp] theorem getCtx_modStrand (s : State) (k : Nat) (f : Strand → Strand) (j : Nat) : getCtx (modStrand s k f) j = getCtx s j := rfl
@[simp] theorem getCore_modMe (s : State) (f : Strand → Strand) (j : Nat) : getCore (modMe s f) j = getCore s j := rfl
@[simp] theorem getCluster_modMe (s : State) (f : Strand → Strand) (j : Nat) : getCluster (modMe s f) j = getCluster s j := rfl
@[simp] theorem getCtx_modMe (s : State) (f : Strand → Strand) (j : Nat) : getCtx (modMe s f) j = getCtx s j := rfl
@[simp] theorem getStrand_setCore (s : State) (c : Nat) (x : Core) (j : Nat) : getStrand (setCore s c x) j = getStrand s j := rfl
@[simp] theorem getCluster_setCore (s : State) (c : Nat) (x : Core) (j : Nat) : getCluster (setCore s c x) j = getCluster s j := rfl
@[simp] theorem getCtx_setCore (s : State) (c : Nat) (x : Core) (j : Nat) : getCtx (setCore s c x) j = getCtx s j := rfl
@[simp] theorem getStrand_modCore (s : State) (c : Nat) (f : Core → Core) (j : Nat) : getStrand (modCore s c f) j = getStrand s j := rfl
@[simp] theorem getCluster_modCore (s : State) (c : Nat) (f : Core → Core) (j : Nat) : getCluster (modCore s c f) j = getCluster s j := rfl
@[simp] theorem getCtx_modCore (s : State) (c : Nat) (f : Core → Core) (j : Nat) : getCtx (modCore s c f) j = getCtx s j := rfl
@[simp] theorem getStrand_setCluster (s : State) (c : Nat) (x : Cluster) (j : Nat) : getStrand (setCluster s c x) j = getStrand s j := rfl
@[simp] theorem getCore_setCluster (s : State) (c : Nat) (x : Cluster) (j : Nat) : getCore (setCluster s c x) j = getCore s j := rfl
@[simp] theorem getCtx_setCluster (s : State) (c : Nat) (x : Cluster) (j : Nat) : getCtx (setCluster s c x) j = getCtx s j := rfl
@[simp] theorem getStrand_modCluster (s : State) (c : Nat) (f : Cluster → Cluster) (j : Nat) : getStrand (modCluster s c f) j = getStrand s j := rfl
@[simp] theorem getCore_modCluster (s : State) (c : Nat) (f : Cluster → Cluster) (j : Nat) : getCore (modCluster s c f) j = getCore s j := rfl
@[simp] theorem getCtx_modCluster (s : State) (c : Nat) (f : Cluster → Cluster) (j : Nat) : getCtx (modCluster s c f) j = getCtx s j := rfl
@[simp] theorem getStrand_modCtx (s : State) (x : Nat) (f : Ctx → Ctx) (j : Nat) : getStrand (modCtx s x f) j = getStrand s j := rfl
@[simp] theorem getCore_modCtx (s : State) (x : Nat) (f : Ctx → Ctx) (j : Nat) : getCore (modCtx s x f) j = getCore s j := rfl
@[simp] theorem getCluster_modCtx (s : State) (x : Nat) (f : Ctx → Ctx) (j : Nat) : getCluster (modCtx s x f) j = getCluster s j := rfl

@[simp] theorem me_modMe (s : State) (f : Strand → Strand) : me (modMe s f) = f (me s) := by simp [me, modMe]
@[simp] theorem me_modCore (s : State) (c : Nat) (f : Core → Core) : me (modCore s c f) = me s := rfl
@[simp] theorem me_modCluster (s : State) (c : Nat) (f : Cluster → Cluster) : me (modCluster s c f) = me s := rfl
@[simp] theorem me_modCtx (s : State) (c : Nat) (f : Ctx → Ctx) : me (modCtx s c f) = me s := rfl

/-! ### The fields of a strand under the writes of its registers -/

@[simp] theorem setS_run (x : Strand) (r : SReg) (v : Word) : (setS x r v).run = x.run := by unfold setS; split <;> rfl
@[simp] theorem setS_pc (x : Strand) (r : SReg) (v : Word) : (setS x r v).pc = x.pc := by unfold setS; split <;> rfl
@[simp] theorem setS_v (x : Strand) (r : SReg) (v : Word) : (setS x r v).v = x.v := by unfold setS; split <;> rfl
@[simp] theorem setS_g (x : Strand) (r : SReg) (v : Word) : (setS x r v).g = x.g := by unfold setS; split <;> rfl
@[simp] theorem setS_k (x : Strand) (r : SReg) (v : Word) : (setS x r v).k = x.k := by unfold setS; split <;> rfl
@[simp] theorem setS_d (x : Strand) (r : SReg) (v : Word) : (setS x r v).d = x.d := by unfold setS; split <;> rfl
@[simp] theorem setS_tile (x : Strand) (r : SReg) (v : Word) : (setS x r v).tile = x.tile := by unfold setS; split <;> rfl
@[simp] theorem setS_status (x : Strand) (r : SReg) (v : Word) : (setS x r v).status = x.status := by unfold setS; split <;> rfl
@[simp] theorem setS_cause (x : Strand) (r : SReg) (v : Word) : (setS x r v).cause = x.cause := by unfold setS; split <;> rfl
@[simp] theorem setS_epc (x : Strand) (r : SReg) (v : Word) : (setS x r v).epc = x.epc := by unfold setS; split <;> rfl
@[simp] theorem setS_tval (x : Strand) (r : SReg) (v : Word) : (setS x r v).tval = x.tval := by unfold setS; split <;> rfl
@[simp] theorem setS_tvec (x : Strand) (r : SReg) (v : Word) : (setS x r v).tvec = x.tvec := by unfold setS; split <;> rfl
@[simp] theorem setS_resume (x : Strand) (r : SReg) (v : Word) : (setS x r v).resume = x.resume := by unfold setS; split <;> rfl
@[simp] theorem setS_geom (x : Strand) (r : SReg) (v : Word) : (setS x r v).geom = x.geom := by unfold setS; split <;> rfl
@[simp] theorem setS_mb (x : Strand) (r : SReg) (v : Word) : (setS x r v).mb = x.mb := by unfold setS; split <;> rfl
@[simp] theorem setS_oscale (x : Strand) (r : SReg) (v : Word) : (setS x r v).oscale = x.oscale := by unfold setS; split <;> rfl
@[simp] theorem setS_nancnt (x : Strand) (r : SReg) (v : Word) : (setS x r v).nancnt = x.nancnt := by unfold setS; split <;> rfl
@[simp] theorem setS_prova (x : Strand) (r : SReg) (v : Word) : (setS x r v).prova = x.prova := by unfold setS; split <;> rfl
@[simp] theorem setS_provb (x : Strand) (r : SReg) (v : Word) : (setS x r v).provb = x.provb := by unfold setS; split <;> rfl
@[simp] theorem setS_spillp (x : Strand) (r : SReg) (v : Word) : (setS x r v).spillp = x.spillp := by unfold setS; split <;> rfl
@[simp] theorem setS_tenant (x : Strand) (r : SReg) (v : Word) : (setS x r v).tenant = x.tenant := by unfold setS; split <;> rfl
@[simp] theorem setS_jslot (x : Strand) (r : SReg) (v : Word) : (setS x r v).jslot = x.jslot := by unfold setS; split <;> rfl
@[simp] theorem setS_copyN (x : Strand) (r : SReg) (v : Word) : (setS x r v).copyN = x.copyN := by unfold setS; split <;> rfl
@[simp] theorem setS_topkN (x : Strand) (r : SReg) (v : Word) : (setS x r v).topkN = x.topkN := by unfold setS; split <;> rfl
@[simp] theorem setS_tabN (x : Strand) (r : SReg) (v : Word) : (setS x r v).tabN = x.tabN := by unfold setS; split <;> rfl
@[simp] theorem setS_loops (x : Strand) (r : SReg) (v : Word) : (setS x r v).loops = x.loops := by unfold setS; split <;> rfl
@[simp] theorem setS_shadow (x : Strand) (r : SReg) (v : Word) : (setS x r v).shadow = x.shadow := by unfold setS; split <;> rfl
@[simp] theorem setS_rbuf (x : Strand) (r : SReg) (v : Word) : (setS x r v).rbuf = x.rbuf := by unfold setS; split <;> rfl
@[simp] theorem setS_rbufOver (x : Strand) (r : SReg) (v : Word) : (setS x r v).rbufOver = x.rbufOver := by unfold setS; split <;> rfl
@[simp] theorem setS_rbufOk (x : Strand) (r : SReg) (v : Word) : (setS x r v).rbufOk = x.rbufOk := by unfold setS; split <;> rfl
@[simp] theorem setS_entered (x : Strand) (r : SReg) (v : Word) : (setS x r v).entered = x.entered := by unfold setS; split <;> rfl
@[simp] theorem setS_mail (x : Strand) (r : SReg) (v : Word) : (setS x r v).mail = x.mail := by unfold setS; split <;> rfl
@[simp] theorem setS_kills (x : Strand) (r : SReg) (v : Word) : (setS x r v).kills = x.kills := by unfold setS; split <;> rfl
@[simp] theorem setS_irq (x : Strand) (r : SReg) (v : Word) : (setS x r v).irq = x.irq := by unfold setS; split <;> rfl
@[simp] theorem setS_wait (x : Strand) (r : SReg) (v : Word) : (setS x r v).wait = x.wait := by unfold setS; split <;> rfl
@[simp] theorem setS_long (x : Strand) (r : SReg) (v : Word) : (setS x r v).long = x.long := by unfold setS; split <;> rfl
@[simp] theorem setS_inflight (x : Strand) (r : SReg) (v : Word) : (setS x r v).inflight = x.inflight := by unfold setS; split <;> rfl
@[simp] theorem setS_vtabQ (x : Strand) (r : SReg) (v : Word) : (setS x r v).vtabQ = x.vtabQ := by unfold setS; split <;> rfl
@[simp] theorem setS_notBefore (x : Strand) (r : SReg) (v : Word) : (setS x r v).notBefore = x.notBefore := by unfold setS; split <;> rfl
@[simp] theorem setS_frozen (x : Strand) (r : SReg) (v : Word) : (setS x r v).frozen = x.frozen := by unfold setS; split <;> rfl
@[simp] theorem setS_task (x : Strand) (r : SReg) (v : Word) : (setS x r v).task = x.task := by unfold setS; split <;> rfl
@[simp] theorem setS_floor (x : Strand) (r : SReg) (v : Word) : (setS x r v).floor = x.floor := by unfold setS; split <;> rfl
@[simp] theorem setS_mmagN (x : Strand) (r : SReg) (v : Word) : (setS x r v).mmagN = x.mmagN := by unfold setS; split <;> rfl
@[simp] theorem setS_mmagOpen (x : Strand) (r : SReg) (v : Word) : (setS x r v).mmagOpen = x.mmagOpen := by unfold setS; split <;> rfl
@[simp] theorem setS_wrote (x : Strand) (r : SReg) (v : Word) : (setS x r v).wrote = x.wrote := by unfold setS; split <;> rfl
@[simp] theorem setS_carved (x : Strand) (r : SReg) (v : Word) : (setS x r v).carved = x.carved := by unfold setS; split <;> rfl
@[simp] theorem setV_run (x : Strand) (r : VReg) (v : Vec) : (setV x r v).run = x.run := rfl
@[simp] theorem setV_pc (x : Strand) (r : VReg) (v : Vec) : (setV x r v).pc = x.pc := rfl
@[simp] theorem setV_s (x : Strand) (r : VReg) (v : Vec) : (setV x r v).s = x.s := rfl
@[simp] theorem setV_g (x : Strand) (r : VReg) (v : Vec) : (setV x r v).g = x.g := rfl
@[simp] theorem setV_k (x : Strand) (r : VReg) (v : Vec) : (setV x r v).k = x.k := rfl
@[simp] theorem setV_d (x : Strand) (r : VReg) (v : Vec) : (setV x r v).d = x.d := rfl
@[simp] theorem setV_tile (x : Strand) (r : VReg) (v : Vec) : (setV x r v).tile = x.tile := rfl
@[simp] theorem setV_status (x : Strand) (r : VReg) (v : Vec) : (setV x r v).status = x.status := rfl
@[simp] theorem setV_cause (x : Strand) (r : VReg) (v : Vec) : (setV x r v).cause = x.cause := rfl
@[simp] theorem setV_epc (x : Strand) (r : VReg) (v : Vec) : (setV x r v).epc = x.epc := rfl
@[simp] theorem setV_tval (x : Strand) (r : VReg) (v : Vec) : (setV x r v).tval = x.tval := rfl
@[simp] theorem setV_tvec (x : Strand) (r : VReg) (v : Vec) : (setV x r v).tvec = x.tvec := rfl
@[simp] theorem setV_resume (x : Strand) (r : VReg) (v : Vec) : (setV x r v).resume = x.resume := rfl
@[simp] theorem setV_geom (x : Strand) (r : VReg) (v : Vec) : (setV x r v).geom = x.geom := rfl
@[simp] theorem setV_mb (x : Strand) (r : VReg) (v : Vec) : (setV x r v).mb = x.mb := rfl
@[simp] theorem setV_oscale (x : Strand) (r : VReg) (v : Vec) : (setV x r v).oscale = x.oscale := rfl
@[simp] theorem setV_nancnt (x : Strand) (r : VReg) (v : Vec) : (setV x r v).nancnt = x.nancnt := rfl
@[simp] theorem setV_prova (x : Strand) (r : VReg) (v : Vec) : (setV x r v).prova = x.prova := rfl
@[simp] theorem setV_provb (x : Strand) (r : VReg) (v : Vec) : (setV x r v).provb = x.provb := rfl
@[simp] theorem setV_spillp (x : Strand) (r : VReg) (v : Vec) : (setV x r v).spillp = x.spillp := rfl
@[simp] theorem setV_tenant (x : Strand) (r : VReg) (v : Vec) : (setV x r v).tenant = x.tenant := rfl
@[simp] theorem setV_jslot (x : Strand) (r : VReg) (v : Vec) : (setV x r v).jslot = x.jslot := rfl
@[simp] theorem setV_copyN (x : Strand) (r : VReg) (v : Vec) : (setV x r v).copyN = x.copyN := rfl
@[simp] theorem setV_topkN (x : Strand) (r : VReg) (v : Vec) : (setV x r v).topkN = x.topkN := rfl
@[simp] theorem setV_tabN (x : Strand) (r : VReg) (v : Vec) : (setV x r v).tabN = x.tabN := rfl
@[simp] theorem setV_loops (x : Strand) (r : VReg) (v : Vec) : (setV x r v).loops = x.loops := rfl
@[simp] theorem setV_shadow (x : Strand) (r : VReg) (v : Vec) : (setV x r v).shadow = x.shadow := rfl
@[simp] theorem setV_rbuf (x : Strand) (r : VReg) (v : Vec) : (setV x r v).rbuf = x.rbuf := rfl
@[simp] theorem setV_rbufOver (x : Strand) (r : VReg) (v : Vec) : (setV x r v).rbufOver = x.rbufOver := rfl
@[simp] theorem setV_rbufOk (x : Strand) (r : VReg) (v : Vec) : (setV x r v).rbufOk = x.rbufOk := rfl
@[simp] theorem setV_entered (x : Strand) (r : VReg) (v : Vec) : (setV x r v).entered = x.entered := rfl
@[simp] theorem setV_mail (x : Strand) (r : VReg) (v : Vec) : (setV x r v).mail = x.mail := rfl
@[simp] theorem setV_kills (x : Strand) (r : VReg) (v : Vec) : (setV x r v).kills = x.kills := rfl
@[simp] theorem setV_irq (x : Strand) (r : VReg) (v : Vec) : (setV x r v).irq = x.irq := rfl
@[simp] theorem setV_wait (x : Strand) (r : VReg) (v : Vec) : (setV x r v).wait = x.wait := rfl
@[simp] theorem setV_long (x : Strand) (r : VReg) (v : Vec) : (setV x r v).long = x.long := rfl
@[simp] theorem setV_inflight (x : Strand) (r : VReg) (v : Vec) : (setV x r v).inflight = x.inflight := rfl
@[simp] theorem setV_vtabQ (x : Strand) (r : VReg) (v : Vec) : (setV x r v).vtabQ = x.vtabQ := rfl
@[simp] theorem setV_notBefore (x : Strand) (r : VReg) (v : Vec) : (setV x r v).notBefore = x.notBefore := rfl
@[simp] theorem setV_frozen (x : Strand) (r : VReg) (v : Vec) : (setV x r v).frozen = x.frozen := rfl
@[simp] theorem setV_task (x : Strand) (r : VReg) (v : Vec) : (setV x r v).task = x.task := rfl
@[simp] theorem setV_floor (x : Strand) (r : VReg) (v : Vec) : (setV x r v).floor = x.floor := rfl
@[simp] theorem setV_mmagN (x : Strand) (r : VReg) (v : Vec) : (setV x r v).mmagN = x.mmagN := rfl
@[simp] theorem setV_mmagOpen (x : Strand) (r : VReg) (v : Vec) : (setV x r v).mmagOpen = x.mmagOpen := rfl
@[simp] theorem setV_wrote (x : Strand) (r : VReg) (v : Vec) : (setV x r v).wrote = x.wrote := rfl
@[simp] theorem setV_carved (x : Strand) (r : VReg) (v : Vec) : (setV x r v).carved = x.carved := rfl
@[simp] theorem setK_run (x : Strand) (r : KReg) (v : Word) : (setK x r v).run = x.run := by unfold setK; split <;> rfl
@[simp] theorem setK_pc (x : Strand) (r : KReg) (v : Word) : (setK x r v).pc = x.pc := by unfold setK; split <;> rfl
@[simp] theorem setK_s (x : Strand) (r : KReg) (v : Word) : (setK x r v).s = x.s := by unfold setK; split <;> rfl
@[simp] theorem setK_v (x : Strand) (r : KReg) (v : Word) : (setK x r v).v = x.v := by unfold setK; split <;> rfl
@[simp] theorem setK_g (x : Strand) (r : KReg) (v : Word) : (setK x r v).g = x.g := by unfold setK; split <;> rfl
@[simp] theorem setK_d (x : Strand) (r : KReg) (v : Word) : (setK x r v).d = x.d := by unfold setK; split <;> rfl
@[simp] theorem setK_tile (x : Strand) (r : KReg) (v : Word) : (setK x r v).tile = x.tile := by unfold setK; split <;> rfl
@[simp] theorem setK_status (x : Strand) (r : KReg) (v : Word) : (setK x r v).status = x.status := by unfold setK; split <;> rfl
@[simp] theorem setK_cause (x : Strand) (r : KReg) (v : Word) : (setK x r v).cause = x.cause := by unfold setK; split <;> rfl
@[simp] theorem setK_epc (x : Strand) (r : KReg) (v : Word) : (setK x r v).epc = x.epc := by unfold setK; split <;> rfl
@[simp] theorem setK_tval (x : Strand) (r : KReg) (v : Word) : (setK x r v).tval = x.tval := by unfold setK; split <;> rfl
@[simp] theorem setK_tvec (x : Strand) (r : KReg) (v : Word) : (setK x r v).tvec = x.tvec := by unfold setK; split <;> rfl
@[simp] theorem setK_resume (x : Strand) (r : KReg) (v : Word) : (setK x r v).resume = x.resume := by unfold setK; split <;> rfl
@[simp] theorem setK_geom (x : Strand) (r : KReg) (v : Word) : (setK x r v).geom = x.geom := by unfold setK; split <;> rfl
@[simp] theorem setK_mb (x : Strand) (r : KReg) (v : Word) : (setK x r v).mb = x.mb := by unfold setK; split <;> rfl
@[simp] theorem setK_oscale (x : Strand) (r : KReg) (v : Word) : (setK x r v).oscale = x.oscale := by unfold setK; split <;> rfl
@[simp] theorem setK_nancnt (x : Strand) (r : KReg) (v : Word) : (setK x r v).nancnt = x.nancnt := by unfold setK; split <;> rfl
@[simp] theorem setK_prova (x : Strand) (r : KReg) (v : Word) : (setK x r v).prova = x.prova := by unfold setK; split <;> rfl
@[simp] theorem setK_provb (x : Strand) (r : KReg) (v : Word) : (setK x r v).provb = x.provb := by unfold setK; split <;> rfl
@[simp] theorem setK_spillp (x : Strand) (r : KReg) (v : Word) : (setK x r v).spillp = x.spillp := by unfold setK; split <;> rfl
@[simp] theorem setK_tenant (x : Strand) (r : KReg) (v : Word) : (setK x r v).tenant = x.tenant := by unfold setK; split <;> rfl
@[simp] theorem setK_jslot (x : Strand) (r : KReg) (v : Word) : (setK x r v).jslot = x.jslot := by unfold setK; split <;> rfl
@[simp] theorem setK_copyN (x : Strand) (r : KReg) (v : Word) : (setK x r v).copyN = x.copyN := by unfold setK; split <;> rfl
@[simp] theorem setK_topkN (x : Strand) (r : KReg) (v : Word) : (setK x r v).topkN = x.topkN := by unfold setK; split <;> rfl
@[simp] theorem setK_tabN (x : Strand) (r : KReg) (v : Word) : (setK x r v).tabN = x.tabN := by unfold setK; split <;> rfl
@[simp] theorem setK_loops (x : Strand) (r : KReg) (v : Word) : (setK x r v).loops = x.loops := by unfold setK; split <;> rfl
@[simp] theorem setK_shadow (x : Strand) (r : KReg) (v : Word) : (setK x r v).shadow = x.shadow := by unfold setK; split <;> rfl
@[simp] theorem setK_rbuf (x : Strand) (r : KReg) (v : Word) : (setK x r v).rbuf = x.rbuf := by unfold setK; split <;> rfl
@[simp] theorem setK_rbufOver (x : Strand) (r : KReg) (v : Word) : (setK x r v).rbufOver = x.rbufOver := by unfold setK; split <;> rfl
@[simp] theorem setK_rbufOk (x : Strand) (r : KReg) (v : Word) : (setK x r v).rbufOk = x.rbufOk := by unfold setK; split <;> rfl
@[simp] theorem setK_entered (x : Strand) (r : KReg) (v : Word) : (setK x r v).entered = x.entered := by unfold setK; split <;> rfl
@[simp] theorem setK_mail (x : Strand) (r : KReg) (v : Word) : (setK x r v).mail = x.mail := by unfold setK; split <;> rfl
@[simp] theorem setK_kills (x : Strand) (r : KReg) (v : Word) : (setK x r v).kills = x.kills := by unfold setK; split <;> rfl
@[simp] theorem setK_irq (x : Strand) (r : KReg) (v : Word) : (setK x r v).irq = x.irq := by unfold setK; split <;> rfl
@[simp] theorem setK_wait (x : Strand) (r : KReg) (v : Word) : (setK x r v).wait = x.wait := by unfold setK; split <;> rfl
@[simp] theorem setK_long (x : Strand) (r : KReg) (v : Word) : (setK x r v).long = x.long := by unfold setK; split <;> rfl
@[simp] theorem setK_inflight (x : Strand) (r : KReg) (v : Word) : (setK x r v).inflight = x.inflight := by unfold setK; split <;> rfl
@[simp] theorem setK_vtabQ (x : Strand) (r : KReg) (v : Word) : (setK x r v).vtabQ = x.vtabQ := by unfold setK; split <;> rfl
@[simp] theorem setK_notBefore (x : Strand) (r : KReg) (v : Word) : (setK x r v).notBefore = x.notBefore := by unfold setK; split <;> rfl
@[simp] theorem setK_frozen (x : Strand) (r : KReg) (v : Word) : (setK x r v).frozen = x.frozen := by unfold setK; split <;> rfl
@[simp] theorem setK_task (x : Strand) (r : KReg) (v : Word) : (setK x r v).task = x.task := by unfold setK; split <;> rfl
@[simp] theorem setK_floor (x : Strand) (r : KReg) (v : Word) : (setK x r v).floor = x.floor := by unfold setK; split <;> rfl
@[simp] theorem setK_mmagN (x : Strand) (r : KReg) (v : Word) : (setK x r v).mmagN = x.mmagN := by unfold setK; split <;> rfl
@[simp] theorem setK_mmagOpen (x : Strand) (r : KReg) (v : Word) : (setK x r v).mmagOpen = x.mmagOpen := by unfold setK; split <;> rfl
@[simp] theorem setK_wrote (x : Strand) (r : KReg) (v : Word) : (setK x r v).wrote = x.wrote := by unfold setK; split <;> rfl
@[simp] theorem setK_carved (x : Strand) (r : KReg) (v : Word) : (setK x r v).carved = x.carved := by unfold setK; split <;> rfl
@[simp] theorem setG_run (x : Strand) (r : GReg) (b : Bool) : (setG x r b).run = x.run := by unfold setG; split <;> rfl
@[simp] theorem setG_pc (x : Strand) (r : GReg) (b : Bool) : (setG x r b).pc = x.pc := by unfold setG; split <;> rfl
@[simp] theorem setG_s (x : Strand) (r : GReg) (b : Bool) : (setG x r b).s = x.s := by unfold setG; split <;> rfl
@[simp] theorem setG_v (x : Strand) (r : GReg) (b : Bool) : (setG x r b).v = x.v := by unfold setG; split <;> rfl
@[simp] theorem setG_k (x : Strand) (r : GReg) (b : Bool) : (setG x r b).k = x.k := by unfold setG; split <;> rfl
@[simp] theorem setG_d (x : Strand) (r : GReg) (b : Bool) : (setG x r b).d = x.d := by unfold setG; split <;> rfl
@[simp] theorem setG_tile (x : Strand) (r : GReg) (b : Bool) : (setG x r b).tile = x.tile := by unfold setG; split <;> rfl
@[simp] theorem setG_status (x : Strand) (r : GReg) (b : Bool) : (setG x r b).status = x.status := by unfold setG; split <;> rfl
@[simp] theorem setG_cause (x : Strand) (r : GReg) (b : Bool) : (setG x r b).cause = x.cause := by unfold setG; split <;> rfl
@[simp] theorem setG_epc (x : Strand) (r : GReg) (b : Bool) : (setG x r b).epc = x.epc := by unfold setG; split <;> rfl
@[simp] theorem setG_tval (x : Strand) (r : GReg) (b : Bool) : (setG x r b).tval = x.tval := by unfold setG; split <;> rfl
@[simp] theorem setG_tvec (x : Strand) (r : GReg) (b : Bool) : (setG x r b).tvec = x.tvec := by unfold setG; split <;> rfl
@[simp] theorem setG_resume (x : Strand) (r : GReg) (b : Bool) : (setG x r b).resume = x.resume := by unfold setG; split <;> rfl
@[simp] theorem setG_geom (x : Strand) (r : GReg) (b : Bool) : (setG x r b).geom = x.geom := by unfold setG; split <;> rfl
@[simp] theorem setG_mb (x : Strand) (r : GReg) (b : Bool) : (setG x r b).mb = x.mb := by unfold setG; split <;> rfl
@[simp] theorem setG_oscale (x : Strand) (r : GReg) (b : Bool) : (setG x r b).oscale = x.oscale := by unfold setG; split <;> rfl
@[simp] theorem setG_nancnt (x : Strand) (r : GReg) (b : Bool) : (setG x r b).nancnt = x.nancnt := by unfold setG; split <;> rfl
@[simp] theorem setG_prova (x : Strand) (r : GReg) (b : Bool) : (setG x r b).prova = x.prova := by unfold setG; split <;> rfl
@[simp] theorem setG_provb (x : Strand) (r : GReg) (b : Bool) : (setG x r b).provb = x.provb := by unfold setG; split <;> rfl
@[simp] theorem setG_spillp (x : Strand) (r : GReg) (b : Bool) : (setG x r b).spillp = x.spillp := by unfold setG; split <;> rfl
@[simp] theorem setG_tenant (x : Strand) (r : GReg) (b : Bool) : (setG x r b).tenant = x.tenant := by unfold setG; split <;> rfl
@[simp] theorem setG_jslot (x : Strand) (r : GReg) (b : Bool) : (setG x r b).jslot = x.jslot := by unfold setG; split <;> rfl
@[simp] theorem setG_copyN (x : Strand) (r : GReg) (b : Bool) : (setG x r b).copyN = x.copyN := by unfold setG; split <;> rfl
@[simp] theorem setG_topkN (x : Strand) (r : GReg) (b : Bool) : (setG x r b).topkN = x.topkN := by unfold setG; split <;> rfl
@[simp] theorem setG_tabN (x : Strand) (r : GReg) (b : Bool) : (setG x r b).tabN = x.tabN := by unfold setG; split <;> rfl
@[simp] theorem setG_loops (x : Strand) (r : GReg) (b : Bool) : (setG x r b).loops = x.loops := by unfold setG; split <;> rfl
@[simp] theorem setG_shadow (x : Strand) (r : GReg) (b : Bool) : (setG x r b).shadow = x.shadow := by unfold setG; split <;> rfl
@[simp] theorem setG_rbuf (x : Strand) (r : GReg) (b : Bool) : (setG x r b).rbuf = x.rbuf := by unfold setG; split <;> rfl
@[simp] theorem setG_rbufOver (x : Strand) (r : GReg) (b : Bool) : (setG x r b).rbufOver = x.rbufOver := by unfold setG; split <;> rfl
@[simp] theorem setG_rbufOk (x : Strand) (r : GReg) (b : Bool) : (setG x r b).rbufOk = x.rbufOk := by unfold setG; split <;> rfl
@[simp] theorem setG_entered (x : Strand) (r : GReg) (b : Bool) : (setG x r b).entered = x.entered := by unfold setG; split <;> rfl
@[simp] theorem setG_mail (x : Strand) (r : GReg) (b : Bool) : (setG x r b).mail = x.mail := by unfold setG; split <;> rfl
@[simp] theorem setG_kills (x : Strand) (r : GReg) (b : Bool) : (setG x r b).kills = x.kills := by unfold setG; split <;> rfl
@[simp] theorem setG_irq (x : Strand) (r : GReg) (b : Bool) : (setG x r b).irq = x.irq := by unfold setG; split <;> rfl
@[simp] theorem setG_wait (x : Strand) (r : GReg) (b : Bool) : (setG x r b).wait = x.wait := by unfold setG; split <;> rfl
@[simp] theorem setG_long (x : Strand) (r : GReg) (b : Bool) : (setG x r b).long = x.long := by unfold setG; split <;> rfl
@[simp] theorem setG_inflight (x : Strand) (r : GReg) (b : Bool) : (setG x r b).inflight = x.inflight := by unfold setG; split <;> rfl
@[simp] theorem setG_vtabQ (x : Strand) (r : GReg) (b : Bool) : (setG x r b).vtabQ = x.vtabQ := by unfold setG; split <;> rfl
@[simp] theorem setG_notBefore (x : Strand) (r : GReg) (b : Bool) : (setG x r b).notBefore = x.notBefore := by unfold setG; split <;> rfl
@[simp] theorem setG_frozen (x : Strand) (r : GReg) (b : Bool) : (setG x r b).frozen = x.frozen := by unfold setG; split <;> rfl
@[simp] theorem setG_task (x : Strand) (r : GReg) (b : Bool) : (setG x r b).task = x.task := by unfold setG; split <;> rfl
@[simp] theorem setG_floor (x : Strand) (r : GReg) (b : Bool) : (setG x r b).floor = x.floor := by unfold setG; split <;> rfl
@[simp] theorem setG_mmagN (x : Strand) (r : GReg) (b : Bool) : (setG x r b).mmagN = x.mmagN := by unfold setG; split <;> rfl
@[simp] theorem setG_mmagOpen (x : Strand) (r : GReg) (b : Bool) : (setG x r b).mmagOpen = x.mmagOpen := by unfold setG; split <;> rfl
@[simp] theorem setG_wrote (x : Strand) (r : GReg) (b : Bool) : (setG x r b).wrote = x.wrote := by unfold setG; split <;> rfl
@[simp] theorem setG_carved (x : Strand) (r : GReg) (b : Bool) : (setG x r b).carved = x.carved := by unfold setG; split <;> rfl
@[simp] theorem setD_run (x : Strand) (i n : Nat) : (setD x i n).run = x.run := rfl
@[simp] theorem setD_pc (x : Strand) (i n : Nat) : (setD x i n).pc = x.pc := rfl
@[simp] theorem setD_s (x : Strand) (i n : Nat) : (setD x i n).s = x.s := rfl
@[simp] theorem setD_v (x : Strand) (i n : Nat) : (setD x i n).v = x.v := rfl
@[simp] theorem setD_g (x : Strand) (i n : Nat) : (setD x i n).g = x.g := rfl
@[simp] theorem setD_k (x : Strand) (i n : Nat) : (setD x i n).k = x.k := rfl
@[simp] theorem setD_tile (x : Strand) (i n : Nat) : (setD x i n).tile = x.tile := rfl
@[simp] theorem setD_status (x : Strand) (i n : Nat) : (setD x i n).status = x.status := rfl
@[simp] theorem setD_cause (x : Strand) (i n : Nat) : (setD x i n).cause = x.cause := rfl
@[simp] theorem setD_epc (x : Strand) (i n : Nat) : (setD x i n).epc = x.epc := rfl
@[simp] theorem setD_tval (x : Strand) (i n : Nat) : (setD x i n).tval = x.tval := rfl
@[simp] theorem setD_tvec (x : Strand) (i n : Nat) : (setD x i n).tvec = x.tvec := rfl
@[simp] theorem setD_resume (x : Strand) (i n : Nat) : (setD x i n).resume = x.resume := rfl
@[simp] theorem setD_geom (x : Strand) (i n : Nat) : (setD x i n).geom = x.geom := rfl
@[simp] theorem setD_mb (x : Strand) (i n : Nat) : (setD x i n).mb = x.mb := rfl
@[simp] theorem setD_oscale (x : Strand) (i n : Nat) : (setD x i n).oscale = x.oscale := rfl
@[simp] theorem setD_nancnt (x : Strand) (i n : Nat) : (setD x i n).nancnt = x.nancnt := rfl
@[simp] theorem setD_prova (x : Strand) (i n : Nat) : (setD x i n).prova = x.prova := rfl
@[simp] theorem setD_provb (x : Strand) (i n : Nat) : (setD x i n).provb = x.provb := rfl
@[simp] theorem setD_spillp (x : Strand) (i n : Nat) : (setD x i n).spillp = x.spillp := rfl
@[simp] theorem setD_tenant (x : Strand) (i n : Nat) : (setD x i n).tenant = x.tenant := rfl
@[simp] theorem setD_jslot (x : Strand) (i n : Nat) : (setD x i n).jslot = x.jslot := rfl
@[simp] theorem setD_copyN (x : Strand) (i n : Nat) : (setD x i n).copyN = x.copyN := rfl
@[simp] theorem setD_topkN (x : Strand) (i n : Nat) : (setD x i n).topkN = x.topkN := rfl
@[simp] theorem setD_tabN (x : Strand) (i n : Nat) : (setD x i n).tabN = x.tabN := rfl
@[simp] theorem setD_loops (x : Strand) (i n : Nat) : (setD x i n).loops = x.loops := rfl
@[simp] theorem setD_shadow (x : Strand) (i n : Nat) : (setD x i n).shadow = x.shadow := rfl
@[simp] theorem setD_rbuf (x : Strand) (i n : Nat) : (setD x i n).rbuf = x.rbuf := rfl
@[simp] theorem setD_rbufOver (x : Strand) (i n : Nat) : (setD x i n).rbufOver = x.rbufOver := rfl
@[simp] theorem setD_rbufOk (x : Strand) (i n : Nat) : (setD x i n).rbufOk = x.rbufOk := rfl
@[simp] theorem setD_entered (x : Strand) (i n : Nat) : (setD x i n).entered = x.entered := rfl
@[simp] theorem setD_mail (x : Strand) (i n : Nat) : (setD x i n).mail = x.mail := rfl
@[simp] theorem setD_kills (x : Strand) (i n : Nat) : (setD x i n).kills = x.kills := rfl
@[simp] theorem setD_irq (x : Strand) (i n : Nat) : (setD x i n).irq = x.irq := rfl
@[simp] theorem setD_wait (x : Strand) (i n : Nat) : (setD x i n).wait = x.wait := rfl
@[simp] theorem setD_long (x : Strand) (i n : Nat) : (setD x i n).long = x.long := rfl
@[simp] theorem setD_inflight (x : Strand) (i n : Nat) : (setD x i n).inflight = x.inflight := rfl
@[simp] theorem setD_vtabQ (x : Strand) (i n : Nat) : (setD x i n).vtabQ = x.vtabQ := rfl
@[simp] theorem setD_notBefore (x : Strand) (i n : Nat) : (setD x i n).notBefore = x.notBefore := rfl
@[simp] theorem setD_frozen (x : Strand) (i n : Nat) : (setD x i n).frozen = x.frozen := rfl
@[simp] theorem setD_task (x : Strand) (i n : Nat) : (setD x i n).task = x.task := rfl
@[simp] theorem setD_floor (x : Strand) (i n : Nat) : (setD x i n).floor = x.floor := rfl
@[simp] theorem setD_mmagN (x : Strand) (i n : Nat) : (setD x i n).mmagN = x.mmagN := rfl
@[simp] theorem setD_mmagOpen (x : Strand) (i n : Nat) : (setD x i n).mmagOpen = x.mmagOpen := rfl
@[simp] theorem setD_wrote (x : Strand) (i n : Nat) : (setD x i n).wrote = x.wrote := rfl
@[simp] theorem setD_carved (x : Strand) (i n : Nat) : (setD x i n).carved = x.carved := rfl
@[simp] theorem setTile_run (x : Strand) (a : Nat) (w : BitVec 18) : (setTile x a w).run = x.run := rfl
@[simp] theorem setTile_pc (x : Strand) (a : Nat) (w : BitVec 18) : (setTile x a w).pc = x.pc := rfl
@[simp] theorem setTile_s (x : Strand) (a : Nat) (w : BitVec 18) : (setTile x a w).s = x.s := rfl
@[simp] theorem setTile_v (x : Strand) (a : Nat) (w : BitVec 18) : (setTile x a w).v = x.v := rfl
@[simp] theorem setTile_g (x : Strand) (a : Nat) (w : BitVec 18) : (setTile x a w).g = x.g := rfl
@[simp] theorem setTile_k (x : Strand) (a : Nat) (w : BitVec 18) : (setTile x a w).k = x.k := rfl
@[simp] theorem setTile_d (x : Strand) (a : Nat) (w : BitVec 18) : (setTile x a w).d = x.d := rfl
@[simp] theorem setTile_status (x : Strand) (a : Nat) (w : BitVec 18) : (setTile x a w).status = x.status := rfl
@[simp] theorem setTile_cause (x : Strand) (a : Nat) (w : BitVec 18) : (setTile x a w).cause = x.cause := rfl
@[simp] theorem setTile_epc (x : Strand) (a : Nat) (w : BitVec 18) : (setTile x a w).epc = x.epc := rfl
@[simp] theorem setTile_tval (x : Strand) (a : Nat) (w : BitVec 18) : (setTile x a w).tval = x.tval := rfl
@[simp] theorem setTile_tvec (x : Strand) (a : Nat) (w : BitVec 18) : (setTile x a w).tvec = x.tvec := rfl
@[simp] theorem setTile_resume (x : Strand) (a : Nat) (w : BitVec 18) : (setTile x a w).resume = x.resume := rfl
@[simp] theorem setTile_geom (x : Strand) (a : Nat) (w : BitVec 18) : (setTile x a w).geom = x.geom := rfl
@[simp] theorem setTile_mb (x : Strand) (a : Nat) (w : BitVec 18) : (setTile x a w).mb = x.mb := rfl
@[simp] theorem setTile_oscale (x : Strand) (a : Nat) (w : BitVec 18) : (setTile x a w).oscale = x.oscale := rfl
@[simp] theorem setTile_nancnt (x : Strand) (a : Nat) (w : BitVec 18) : (setTile x a w).nancnt = x.nancnt := rfl
@[simp] theorem setTile_prova (x : Strand) (a : Nat) (w : BitVec 18) : (setTile x a w).prova = x.prova := rfl
@[simp] theorem setTile_provb (x : Strand) (a : Nat) (w : BitVec 18) : (setTile x a w).provb = x.provb := rfl
@[simp] theorem setTile_spillp (x : Strand) (a : Nat) (w : BitVec 18) : (setTile x a w).spillp = x.spillp := rfl
@[simp] theorem setTile_tenant (x : Strand) (a : Nat) (w : BitVec 18) : (setTile x a w).tenant = x.tenant := rfl
@[simp] theorem setTile_jslot (x : Strand) (a : Nat) (w : BitVec 18) : (setTile x a w).jslot = x.jslot := rfl
@[simp] theorem setTile_copyN (x : Strand) (a : Nat) (w : BitVec 18) : (setTile x a w).copyN = x.copyN := rfl
@[simp] theorem setTile_topkN (x : Strand) (a : Nat) (w : BitVec 18) : (setTile x a w).topkN = x.topkN := rfl
@[simp] theorem setTile_tabN (x : Strand) (a : Nat) (w : BitVec 18) : (setTile x a w).tabN = x.tabN := rfl
@[simp] theorem setTile_loops (x : Strand) (a : Nat) (w : BitVec 18) : (setTile x a w).loops = x.loops := rfl
@[simp] theorem setTile_shadow (x : Strand) (a : Nat) (w : BitVec 18) : (setTile x a w).shadow = x.shadow := rfl
@[simp] theorem setTile_rbuf (x : Strand) (a : Nat) (w : BitVec 18) : (setTile x a w).rbuf = x.rbuf := rfl
@[simp] theorem setTile_rbufOver (x : Strand) (a : Nat) (w : BitVec 18) : (setTile x a w).rbufOver = x.rbufOver := rfl
@[simp] theorem setTile_rbufOk (x : Strand) (a : Nat) (w : BitVec 18) : (setTile x a w).rbufOk = x.rbufOk := rfl
@[simp] theorem setTile_entered (x : Strand) (a : Nat) (w : BitVec 18) : (setTile x a w).entered = x.entered := rfl
@[simp] theorem setTile_mail (x : Strand) (a : Nat) (w : BitVec 18) : (setTile x a w).mail = x.mail := rfl
@[simp] theorem setTile_kills (x : Strand) (a : Nat) (w : BitVec 18) : (setTile x a w).kills = x.kills := rfl
@[simp] theorem setTile_irq (x : Strand) (a : Nat) (w : BitVec 18) : (setTile x a w).irq = x.irq := rfl
@[simp] theorem setTile_wait (x : Strand) (a : Nat) (w : BitVec 18) : (setTile x a w).wait = x.wait := rfl
@[simp] theorem setTile_long (x : Strand) (a : Nat) (w : BitVec 18) : (setTile x a w).long = x.long := rfl
@[simp] theorem setTile_inflight (x : Strand) (a : Nat) (w : BitVec 18) : (setTile x a w).inflight = x.inflight := rfl
@[simp] theorem setTile_vtabQ (x : Strand) (a : Nat) (w : BitVec 18) : (setTile x a w).vtabQ = x.vtabQ := rfl
@[simp] theorem setTile_notBefore (x : Strand) (a : Nat) (w : BitVec 18) : (setTile x a w).notBefore = x.notBefore := rfl
@[simp] theorem setTile_frozen (x : Strand) (a : Nat) (w : BitVec 18) : (setTile x a w).frozen = x.frozen := rfl
@[simp] theorem setTile_task (x : Strand) (a : Nat) (w : BitVec 18) : (setTile x a w).task = x.task := rfl
@[simp] theorem setTile_floor (x : Strand) (a : Nat) (w : BitVec 18) : (setTile x a w).floor = x.floor := rfl
@[simp] theorem setTile_mmagN (x : Strand) (a : Nat) (w : BitVec 18) : (setTile x a w).mmagN = x.mmagN := rfl
@[simp] theorem setTile_mmagOpen (x : Strand) (a : Nat) (w : BitVec 18) : (setTile x a w).mmagOpen = x.mmagOpen := rfl
@[simp] theorem setTile_wrote (x : Strand) (a : Nat) (w : BitVec 18) : (setTile x a w).wrote = x.wrote := rfl
@[simp] theorem setTile_carved (x : Strand) (a : Nat) (w : BitVec 18) : (setTile x a w).carved = x.carved := rfl
@[simp] theorem putStatus_run (x : Strand) (i : Nat) (b : Bool) : (putStatus x i b).run = x.run := rfl
@[simp] theorem putStatus_pc (x : Strand) (i : Nat) (b : Bool) : (putStatus x i b).pc = x.pc := rfl
@[simp] theorem putStatus_s (x : Strand) (i : Nat) (b : Bool) : (putStatus x i b).s = x.s := rfl
@[simp] theorem putStatus_v (x : Strand) (i : Nat) (b : Bool) : (putStatus x i b).v = x.v := rfl
@[simp] theorem putStatus_g (x : Strand) (i : Nat) (b : Bool) : (putStatus x i b).g = x.g := rfl
@[simp] theorem putStatus_k (x : Strand) (i : Nat) (b : Bool) : (putStatus x i b).k = x.k := rfl
@[simp] theorem putStatus_d (x : Strand) (i : Nat) (b : Bool) : (putStatus x i b).d = x.d := rfl
@[simp] theorem putStatus_tile (x : Strand) (i : Nat) (b : Bool) : (putStatus x i b).tile = x.tile := rfl
@[simp] theorem putStatus_cause (x : Strand) (i : Nat) (b : Bool) : (putStatus x i b).cause = x.cause := rfl
@[simp] theorem putStatus_epc (x : Strand) (i : Nat) (b : Bool) : (putStatus x i b).epc = x.epc := rfl
@[simp] theorem putStatus_tval (x : Strand) (i : Nat) (b : Bool) : (putStatus x i b).tval = x.tval := rfl
@[simp] theorem putStatus_tvec (x : Strand) (i : Nat) (b : Bool) : (putStatus x i b).tvec = x.tvec := rfl
@[simp] theorem putStatus_resume (x : Strand) (i : Nat) (b : Bool) : (putStatus x i b).resume = x.resume := rfl
@[simp] theorem putStatus_geom (x : Strand) (i : Nat) (b : Bool) : (putStatus x i b).geom = x.geom := rfl
@[simp] theorem putStatus_mb (x : Strand) (i : Nat) (b : Bool) : (putStatus x i b).mb = x.mb := rfl
@[simp] theorem putStatus_oscale (x : Strand) (i : Nat) (b : Bool) : (putStatus x i b).oscale = x.oscale := rfl
@[simp] theorem putStatus_nancnt (x : Strand) (i : Nat) (b : Bool) : (putStatus x i b).nancnt = x.nancnt := rfl
@[simp] theorem putStatus_prova (x : Strand) (i : Nat) (b : Bool) : (putStatus x i b).prova = x.prova := rfl
@[simp] theorem putStatus_provb (x : Strand) (i : Nat) (b : Bool) : (putStatus x i b).provb = x.provb := rfl
@[simp] theorem putStatus_spillp (x : Strand) (i : Nat) (b : Bool) : (putStatus x i b).spillp = x.spillp := rfl
@[simp] theorem putStatus_tenant (x : Strand) (i : Nat) (b : Bool) : (putStatus x i b).tenant = x.tenant := rfl
@[simp] theorem putStatus_jslot (x : Strand) (i : Nat) (b : Bool) : (putStatus x i b).jslot = x.jslot := rfl
@[simp] theorem putStatus_copyN (x : Strand) (i : Nat) (b : Bool) : (putStatus x i b).copyN = x.copyN := rfl
@[simp] theorem putStatus_topkN (x : Strand) (i : Nat) (b : Bool) : (putStatus x i b).topkN = x.topkN := rfl
@[simp] theorem putStatus_tabN (x : Strand) (i : Nat) (b : Bool) : (putStatus x i b).tabN = x.tabN := rfl
@[simp] theorem putStatus_loops (x : Strand) (i : Nat) (b : Bool) : (putStatus x i b).loops = x.loops := rfl
@[simp] theorem putStatus_shadow (x : Strand) (i : Nat) (b : Bool) : (putStatus x i b).shadow = x.shadow := rfl
@[simp] theorem putStatus_rbuf (x : Strand) (i : Nat) (b : Bool) : (putStatus x i b).rbuf = x.rbuf := rfl
@[simp] theorem putStatus_rbufOver (x : Strand) (i : Nat) (b : Bool) : (putStatus x i b).rbufOver = x.rbufOver := rfl
@[simp] theorem putStatus_rbufOk (x : Strand) (i : Nat) (b : Bool) : (putStatus x i b).rbufOk = x.rbufOk := rfl
@[simp] theorem putStatus_entered (x : Strand) (i : Nat) (b : Bool) : (putStatus x i b).entered = x.entered := rfl
@[simp] theorem putStatus_mail (x : Strand) (i : Nat) (b : Bool) : (putStatus x i b).mail = x.mail := rfl
@[simp] theorem putStatus_kills (x : Strand) (i : Nat) (b : Bool) : (putStatus x i b).kills = x.kills := rfl
@[simp] theorem putStatus_irq (x : Strand) (i : Nat) (b : Bool) : (putStatus x i b).irq = x.irq := rfl
@[simp] theorem putStatus_wait (x : Strand) (i : Nat) (b : Bool) : (putStatus x i b).wait = x.wait := rfl
@[simp] theorem putStatus_long (x : Strand) (i : Nat) (b : Bool) : (putStatus x i b).long = x.long := rfl
@[simp] theorem putStatus_inflight (x : Strand) (i : Nat) (b : Bool) : (putStatus x i b).inflight = x.inflight := rfl
@[simp] theorem putStatus_vtabQ (x : Strand) (i : Nat) (b : Bool) : (putStatus x i b).vtabQ = x.vtabQ := rfl
@[simp] theorem putStatus_notBefore (x : Strand) (i : Nat) (b : Bool) : (putStatus x i b).notBefore = x.notBefore := rfl
@[simp] theorem putStatus_frozen (x : Strand) (i : Nat) (b : Bool) : (putStatus x i b).frozen = x.frozen := rfl
@[simp] theorem putStatus_task (x : Strand) (i : Nat) (b : Bool) : (putStatus x i b).task = x.task := rfl
@[simp] theorem putStatus_floor (x : Strand) (i : Nat) (b : Bool) : (putStatus x i b).floor = x.floor := rfl
@[simp] theorem putStatus_mmagN (x : Strand) (i : Nat) (b : Bool) : (putStatus x i b).mmagN = x.mmagN := rfl
@[simp] theorem putStatus_mmagOpen (x : Strand) (i : Nat) (b : Bool) : (putStatus x i b).mmagOpen = x.mmagOpen := rfl
@[simp] theorem putStatus_wrote (x : Strand) (i : Nat) (b : Bool) : (putStatus x i b).wrote = x.wrote := rfl
@[simp] theorem putStatus_carved (x : Strand) (i : Nat) (b : Bool) : (putStatus x i b).carved = x.carved := rfl
@[simp] theorem setUp_run (x : Strand) (c : Common) : (setUp x c).run = x.run := by unfold setUp; split <;> simp
@[simp] theorem setUp_pc (x : Strand) (c : Common) : (setUp x c).pc = x.pc := by unfold setUp; split <;> simp
@[simp] theorem setUp_s (x : Strand) (c : Common) : (setUp x c).s = x.s := by unfold setUp; split <;> simp
@[simp] theorem setUp_v (x : Strand) (c : Common) : (setUp x c).v = x.v := by unfold setUp; split <;> simp
@[simp] theorem setUp_g (x : Strand) (c : Common) : (setUp x c).g = x.g := by unfold setUp; split <;> simp
@[simp] theorem setUp_k (x : Strand) (c : Common) : (setUp x c).k = x.k := by unfold setUp; split <;> simp
@[simp] theorem setUp_tile (x : Strand) (c : Common) : (setUp x c).tile = x.tile := by unfold setUp; split <;> simp
@[simp] theorem setUp_status (x : Strand) (c : Common) : (setUp x c).status = x.status := by unfold setUp; split <;> simp
@[simp] theorem setUp_cause (x : Strand) (c : Common) : (setUp x c).cause = x.cause := by unfold setUp; split <;> simp
@[simp] theorem setUp_epc (x : Strand) (c : Common) : (setUp x c).epc = x.epc := by unfold setUp; split <;> simp
@[simp] theorem setUp_tval (x : Strand) (c : Common) : (setUp x c).tval = x.tval := by unfold setUp; split <;> simp
@[simp] theorem setUp_tvec (x : Strand) (c : Common) : (setUp x c).tvec = x.tvec := by unfold setUp; split <;> simp
@[simp] theorem setUp_resume (x : Strand) (c : Common) : (setUp x c).resume = x.resume := by unfold setUp; split <;> simp
@[simp] theorem setUp_geom (x : Strand) (c : Common) : (setUp x c).geom = x.geom := by unfold setUp; split <;> simp
@[simp] theorem setUp_mb (x : Strand) (c : Common) : (setUp x c).mb = x.mb := by unfold setUp; split <;> simp
@[simp] theorem setUp_oscale (x : Strand) (c : Common) : (setUp x c).oscale = x.oscale := by unfold setUp; split <;> simp
@[simp] theorem setUp_nancnt (x : Strand) (c : Common) : (setUp x c).nancnt = x.nancnt := by unfold setUp; split <;> simp
@[simp] theorem setUp_prova (x : Strand) (c : Common) : (setUp x c).prova = x.prova := by unfold setUp; split <;> simp
@[simp] theorem setUp_provb (x : Strand) (c : Common) : (setUp x c).provb = x.provb := by unfold setUp; split <;> simp
@[simp] theorem setUp_spillp (x : Strand) (c : Common) : (setUp x c).spillp = x.spillp := by unfold setUp; split <;> simp
@[simp] theorem setUp_tenant (x : Strand) (c : Common) : (setUp x c).tenant = x.tenant := by unfold setUp; split <;> simp
@[simp] theorem setUp_jslot (x : Strand) (c : Common) : (setUp x c).jslot = x.jslot := by unfold setUp; split <;> simp
@[simp] theorem setUp_copyN (x : Strand) (c : Common) : (setUp x c).copyN = x.copyN := by unfold setUp; split <;> simp
@[simp] theorem setUp_topkN (x : Strand) (c : Common) : (setUp x c).topkN = x.topkN := by unfold setUp; split <;> simp
@[simp] theorem setUp_tabN (x : Strand) (c : Common) : (setUp x c).tabN = x.tabN := by unfold setUp; split <;> simp
@[simp] theorem setUp_loops (x : Strand) (c : Common) : (setUp x c).loops = x.loops := by unfold setUp; split <;> simp
@[simp] theorem setUp_shadow (x : Strand) (c : Common) : (setUp x c).shadow = x.shadow := by unfold setUp; split <;> simp
@[simp] theorem setUp_rbuf (x : Strand) (c : Common) : (setUp x c).rbuf = x.rbuf := by unfold setUp; split <;> simp
@[simp] theorem setUp_rbufOver (x : Strand) (c : Common) : (setUp x c).rbufOver = x.rbufOver := by unfold setUp; split <;> simp
@[simp] theorem setUp_rbufOk (x : Strand) (c : Common) : (setUp x c).rbufOk = x.rbufOk := by unfold setUp; split <;> simp
@[simp] theorem setUp_entered (x : Strand) (c : Common) : (setUp x c).entered = x.entered := by unfold setUp; split <;> simp
@[simp] theorem setUp_mail (x : Strand) (c : Common) : (setUp x c).mail = x.mail := by unfold setUp; split <;> simp
@[simp] theorem setUp_kills (x : Strand) (c : Common) : (setUp x c).kills = x.kills := by unfold setUp; split <;> simp
@[simp] theorem setUp_irq (x : Strand) (c : Common) : (setUp x c).irq = x.irq := by unfold setUp; split <;> simp
@[simp] theorem setUp_wait (x : Strand) (c : Common) : (setUp x c).wait = x.wait := by unfold setUp; split <;> simp
@[simp] theorem setUp_long (x : Strand) (c : Common) : (setUp x c).long = x.long := by unfold setUp; split <;> simp
@[simp] theorem setUp_inflight (x : Strand) (c : Common) : (setUp x c).inflight = x.inflight := by unfold setUp; split <;> simp
@[simp] theorem setUp_vtabQ (x : Strand) (c : Common) : (setUp x c).vtabQ = x.vtabQ := by unfold setUp; split <;> simp
@[simp] theorem setUp_notBefore (x : Strand) (c : Common) : (setUp x c).notBefore = x.notBefore := by unfold setUp; split <;> simp
@[simp] theorem setUp_frozen (x : Strand) (c : Common) : (setUp x c).frozen = x.frozen := by unfold setUp; split <;> simp
@[simp] theorem setUp_task (x : Strand) (c : Common) : (setUp x c).task = x.task := by unfold setUp; split <;> simp
@[simp] theorem setUp_floor (x : Strand) (c : Common) : (setUp x c).floor = x.floor := by unfold setUp; split <;> simp
@[simp] theorem setUp_mmagN (x : Strand) (c : Common) : (setUp x c).mmagN = x.mmagN := by unfold setUp; split <;> simp
@[simp] theorem setUp_mmagOpen (x : Strand) (c : Common) : (setUp x c).mmagOpen = x.mmagOpen := by unfold setUp; split <;> simp
@[simp] theorem setUp_wrote (x : Strand) (c : Common) : (setUp x c).wrote = x.wrote := by unfold setUp; split <;> simp
@[simp] theorem setUp_carved (x : Strand) (c : Common) : (setUp x c).carved = x.carved := by unfold setUp; split <;> simp
@[simp] theorem setDown_run (x : Strand) (c : Common) : (setDown x c).run = x.run := by unfold setDown; split <;> simp
@[simp] theorem setDown_pc (x : Strand) (c : Common) : (setDown x c).pc = x.pc := by unfold setDown; split <;> simp
@[simp] theorem setDown_s (x : Strand) (c : Common) : (setDown x c).s = x.s := by unfold setDown; split <;> simp
@[simp] theorem setDown_v (x : Strand) (c : Common) : (setDown x c).v = x.v := by unfold setDown; split <;> simp
@[simp] theorem setDown_g (x : Strand) (c : Common) : (setDown x c).g = x.g := by unfold setDown; split <;> simp
@[simp] theorem setDown_k (x : Strand) (c : Common) : (setDown x c).k = x.k := by unfold setDown; split <;> simp
@[simp] theorem setDown_tile (x : Strand) (c : Common) : (setDown x c).tile = x.tile := by unfold setDown; split <;> simp
@[simp] theorem setDown_status (x : Strand) (c : Common) : (setDown x c).status = x.status := by unfold setDown; split <;> simp
@[simp] theorem setDown_cause (x : Strand) (c : Common) : (setDown x c).cause = x.cause := by unfold setDown; split <;> simp
@[simp] theorem setDown_epc (x : Strand) (c : Common) : (setDown x c).epc = x.epc := by unfold setDown; split <;> simp
@[simp] theorem setDown_tval (x : Strand) (c : Common) : (setDown x c).tval = x.tval := by unfold setDown; split <;> simp
@[simp] theorem setDown_tvec (x : Strand) (c : Common) : (setDown x c).tvec = x.tvec := by unfold setDown; split <;> simp
@[simp] theorem setDown_resume (x : Strand) (c : Common) : (setDown x c).resume = x.resume := by unfold setDown; split <;> simp
@[simp] theorem setDown_geom (x : Strand) (c : Common) : (setDown x c).geom = x.geom := by unfold setDown; split <;> simp
@[simp] theorem setDown_mb (x : Strand) (c : Common) : (setDown x c).mb = x.mb := by unfold setDown; split <;> simp
@[simp] theorem setDown_oscale (x : Strand) (c : Common) : (setDown x c).oscale = x.oscale := by unfold setDown; split <;> simp
@[simp] theorem setDown_nancnt (x : Strand) (c : Common) : (setDown x c).nancnt = x.nancnt := by unfold setDown; split <;> simp
@[simp] theorem setDown_prova (x : Strand) (c : Common) : (setDown x c).prova = x.prova := by unfold setDown; split <;> simp
@[simp] theorem setDown_provb (x : Strand) (c : Common) : (setDown x c).provb = x.provb := by unfold setDown; split <;> simp
@[simp] theorem setDown_spillp (x : Strand) (c : Common) : (setDown x c).spillp = x.spillp := by unfold setDown; split <;> simp
@[simp] theorem setDown_tenant (x : Strand) (c : Common) : (setDown x c).tenant = x.tenant := by unfold setDown; split <;> simp
@[simp] theorem setDown_jslot (x : Strand) (c : Common) : (setDown x c).jslot = x.jslot := by unfold setDown; split <;> simp
@[simp] theorem setDown_copyN (x : Strand) (c : Common) : (setDown x c).copyN = x.copyN := by unfold setDown; split <;> simp
@[simp] theorem setDown_topkN (x : Strand) (c : Common) : (setDown x c).topkN = x.topkN := by unfold setDown; split <;> simp
@[simp] theorem setDown_tabN (x : Strand) (c : Common) : (setDown x c).tabN = x.tabN := by unfold setDown; split <;> simp
@[simp] theorem setDown_loops (x : Strand) (c : Common) : (setDown x c).loops = x.loops := by unfold setDown; split <;> simp
@[simp] theorem setDown_shadow (x : Strand) (c : Common) : (setDown x c).shadow = x.shadow := by unfold setDown; split <;> simp
@[simp] theorem setDown_rbuf (x : Strand) (c : Common) : (setDown x c).rbuf = x.rbuf := by unfold setDown; split <;> simp
@[simp] theorem setDown_rbufOver (x : Strand) (c : Common) : (setDown x c).rbufOver = x.rbufOver := by unfold setDown; split <;> simp
@[simp] theorem setDown_rbufOk (x : Strand) (c : Common) : (setDown x c).rbufOk = x.rbufOk := by unfold setDown; split <;> simp
@[simp] theorem setDown_entered (x : Strand) (c : Common) : (setDown x c).entered = x.entered := by unfold setDown; split <;> simp
@[simp] theorem setDown_mail (x : Strand) (c : Common) : (setDown x c).mail = x.mail := by unfold setDown; split <;> simp
@[simp] theorem setDown_kills (x : Strand) (c : Common) : (setDown x c).kills = x.kills := by unfold setDown; split <;> simp
@[simp] theorem setDown_irq (x : Strand) (c : Common) : (setDown x c).irq = x.irq := by unfold setDown; split <;> simp
@[simp] theorem setDown_wait (x : Strand) (c : Common) : (setDown x c).wait = x.wait := by unfold setDown; split <;> simp
@[simp] theorem setDown_long (x : Strand) (c : Common) : (setDown x c).long = x.long := by unfold setDown; split <;> simp
@[simp] theorem setDown_inflight (x : Strand) (c : Common) : (setDown x c).inflight = x.inflight := by unfold setDown; split <;> simp
@[simp] theorem setDown_vtabQ (x : Strand) (c : Common) : (setDown x c).vtabQ = x.vtabQ := by unfold setDown; split <;> simp
@[simp] theorem setDown_notBefore (x : Strand) (c : Common) : (setDown x c).notBefore = x.notBefore := by unfold setDown; split <;> simp
@[simp] theorem setDown_frozen (x : Strand) (c : Common) : (setDown x c).frozen = x.frozen := by unfold setDown; split <;> simp
@[simp] theorem setDown_task (x : Strand) (c : Common) : (setDown x c).task = x.task := by unfold setDown; split <;> simp
@[simp] theorem setDown_floor (x : Strand) (c : Common) : (setDown x c).floor = x.floor := by unfold setDown; split <;> simp
@[simp] theorem setDown_mmagN (x : Strand) (c : Common) : (setDown x c).mmagN = x.mmagN := by unfold setDown; split <;> simp
@[simp] theorem setDown_mmagOpen (x : Strand) (c : Common) : (setDown x c).mmagOpen = x.mmagOpen := by unfold setDown; split <;> simp
@[simp] theorem setDown_wrote (x : Strand) (c : Common) : (setDown x c).wrote = x.wrote := by unfold setDown; split <;> simp
@[simp] theorem setDown_carved (x : Strand) (c : Common) : (setDown x c).carved = x.carved := by unfold setDown; split <;> simp
@[simp] theorem putPreds_run (x : Strand) (pt pf : GReg) (b : Bool) : (putPreds x pt pf b).run = x.run := by simp [putPreds]
@[simp] theorem putPreds_pc (x : Strand) (pt pf : GReg) (b : Bool) : (putPreds x pt pf b).pc = x.pc := by simp [putPreds]
@[simp] theorem putPreds_s (x : Strand) (pt pf : GReg) (b : Bool) : (putPreds x pt pf b).s = x.s := by simp [putPreds]
@[simp] theorem putPreds_v (x : Strand) (pt pf : GReg) (b : Bool) : (putPreds x pt pf b).v = x.v := by simp [putPreds]
@[simp] theorem putPreds_k (x : Strand) (pt pf : GReg) (b : Bool) : (putPreds x pt pf b).k = x.k := by simp [putPreds]
@[simp] theorem putPreds_d (x : Strand) (pt pf : GReg) (b : Bool) : (putPreds x pt pf b).d = x.d := by simp [putPreds]
@[simp] theorem putPreds_tile (x : Strand) (pt pf : GReg) (b : Bool) : (putPreds x pt pf b).tile = x.tile := by simp [putPreds]
@[simp] theorem putPreds_status (x : Strand) (pt pf : GReg) (b : Bool) : (putPreds x pt pf b).status = x.status := by simp [putPreds]
@[simp] theorem putPreds_cause (x : Strand) (pt pf : GReg) (b : Bool) : (putPreds x pt pf b).cause = x.cause := by simp [putPreds]
@[simp] theorem putPreds_epc (x : Strand) (pt pf : GReg) (b : Bool) : (putPreds x pt pf b).epc = x.epc := by simp [putPreds]
@[simp] theorem putPreds_tval (x : Strand) (pt pf : GReg) (b : Bool) : (putPreds x pt pf b).tval = x.tval := by simp [putPreds]
@[simp] theorem putPreds_tvec (x : Strand) (pt pf : GReg) (b : Bool) : (putPreds x pt pf b).tvec = x.tvec := by simp [putPreds]
@[simp] theorem putPreds_resume (x : Strand) (pt pf : GReg) (b : Bool) : (putPreds x pt pf b).resume = x.resume := by simp [putPreds]
@[simp] theorem putPreds_geom (x : Strand) (pt pf : GReg) (b : Bool) : (putPreds x pt pf b).geom = x.geom := by simp [putPreds]
@[simp] theorem putPreds_mb (x : Strand) (pt pf : GReg) (b : Bool) : (putPreds x pt pf b).mb = x.mb := by simp [putPreds]
@[simp] theorem putPreds_oscale (x : Strand) (pt pf : GReg) (b : Bool) : (putPreds x pt pf b).oscale = x.oscale := by simp [putPreds]
@[simp] theorem putPreds_nancnt (x : Strand) (pt pf : GReg) (b : Bool) : (putPreds x pt pf b).nancnt = x.nancnt := by simp [putPreds]
@[simp] theorem putPreds_prova (x : Strand) (pt pf : GReg) (b : Bool) : (putPreds x pt pf b).prova = x.prova := by simp [putPreds]
@[simp] theorem putPreds_provb (x : Strand) (pt pf : GReg) (b : Bool) : (putPreds x pt pf b).provb = x.provb := by simp [putPreds]
@[simp] theorem putPreds_spillp (x : Strand) (pt pf : GReg) (b : Bool) : (putPreds x pt pf b).spillp = x.spillp := by simp [putPreds]
@[simp] theorem putPreds_tenant (x : Strand) (pt pf : GReg) (b : Bool) : (putPreds x pt pf b).tenant = x.tenant := by simp [putPreds]
@[simp] theorem putPreds_jslot (x : Strand) (pt pf : GReg) (b : Bool) : (putPreds x pt pf b).jslot = x.jslot := by simp [putPreds]
@[simp] theorem putPreds_copyN (x : Strand) (pt pf : GReg) (b : Bool) : (putPreds x pt pf b).copyN = x.copyN := by simp [putPreds]
@[simp] theorem putPreds_topkN (x : Strand) (pt pf : GReg) (b : Bool) : (putPreds x pt pf b).topkN = x.topkN := by simp [putPreds]
@[simp] theorem putPreds_tabN (x : Strand) (pt pf : GReg) (b : Bool) : (putPreds x pt pf b).tabN = x.tabN := by simp [putPreds]
@[simp] theorem putPreds_loops (x : Strand) (pt pf : GReg) (b : Bool) : (putPreds x pt pf b).loops = x.loops := by simp [putPreds]
@[simp] theorem putPreds_shadow (x : Strand) (pt pf : GReg) (b : Bool) : (putPreds x pt pf b).shadow = x.shadow := by simp [putPreds]
@[simp] theorem putPreds_rbuf (x : Strand) (pt pf : GReg) (b : Bool) : (putPreds x pt pf b).rbuf = x.rbuf := by simp [putPreds]
@[simp] theorem putPreds_rbufOver (x : Strand) (pt pf : GReg) (b : Bool) : (putPreds x pt pf b).rbufOver = x.rbufOver := by simp [putPreds]
@[simp] theorem putPreds_rbufOk (x : Strand) (pt pf : GReg) (b : Bool) : (putPreds x pt pf b).rbufOk = x.rbufOk := by simp [putPreds]
@[simp] theorem putPreds_entered (x : Strand) (pt pf : GReg) (b : Bool) : (putPreds x pt pf b).entered = x.entered := by simp [putPreds]
@[simp] theorem putPreds_mail (x : Strand) (pt pf : GReg) (b : Bool) : (putPreds x pt pf b).mail = x.mail := by simp [putPreds]
@[simp] theorem putPreds_kills (x : Strand) (pt pf : GReg) (b : Bool) : (putPreds x pt pf b).kills = x.kills := by simp [putPreds]
@[simp] theorem putPreds_irq (x : Strand) (pt pf : GReg) (b : Bool) : (putPreds x pt pf b).irq = x.irq := by simp [putPreds]
@[simp] theorem putPreds_wait (x : Strand) (pt pf : GReg) (b : Bool) : (putPreds x pt pf b).wait = x.wait := by simp [putPreds]
@[simp] theorem putPreds_long (x : Strand) (pt pf : GReg) (b : Bool) : (putPreds x pt pf b).long = x.long := by simp [putPreds]
@[simp] theorem putPreds_inflight (x : Strand) (pt pf : GReg) (b : Bool) : (putPreds x pt pf b).inflight = x.inflight := by simp [putPreds]
@[simp] theorem putPreds_vtabQ (x : Strand) (pt pf : GReg) (b : Bool) : (putPreds x pt pf b).vtabQ = x.vtabQ := by simp [putPreds]
@[simp] theorem putPreds_notBefore (x : Strand) (pt pf : GReg) (b : Bool) : (putPreds x pt pf b).notBefore = x.notBefore := by simp [putPreds]
@[simp] theorem putPreds_frozen (x : Strand) (pt pf : GReg) (b : Bool) : (putPreds x pt pf b).frozen = x.frozen := by simp [putPreds]
@[simp] theorem putPreds_task (x : Strand) (pt pf : GReg) (b : Bool) : (putPreds x pt pf b).task = x.task := by simp [putPreds]
@[simp] theorem putPreds_floor (x : Strand) (pt pf : GReg) (b : Bool) : (putPreds x pt pf b).floor = x.floor := by simp [putPreds]
@[simp] theorem putPreds_mmagN (x : Strand) (pt pf : GReg) (b : Bool) : (putPreds x pt pf b).mmagN = x.mmagN := by simp [putPreds]
@[simp] theorem putPreds_mmagOpen (x : Strand) (pt pf : GReg) (b : Bool) : (putPreds x pt pf b).mmagOpen = x.mmagOpen := by simp [putPreds]
@[simp] theorem putPreds_wrote (x : Strand) (pt pf : GReg) (b : Bool) : (putPreds x pt pf b).wrote = x.wrote := by simp [putPreds]
@[simp] theorem putPreds_carved (x : Strand) (pt pf : GReg) (b : Bool) : (putPreds x pt pf b).carved = x.carved := by simp [putPreds]
@[simp] theorem putLoops_run (x : Strand) (l : List LoopEntry) : (putLoops x l).run = x.run := by unfold putLoops; split <;> rfl
@[simp] theorem putLoops_pc (x : Strand) (l : List LoopEntry) : (putLoops x l).pc = x.pc := by unfold putLoops; split <;> rfl
@[simp] theorem putLoops_s (x : Strand) (l : List LoopEntry) : (putLoops x l).s = x.s := by unfold putLoops; split <;> rfl
@[simp] theorem putLoops_v (x : Strand) (l : List LoopEntry) : (putLoops x l).v = x.v := by unfold putLoops; split <;> rfl
@[simp] theorem putLoops_g (x : Strand) (l : List LoopEntry) : (putLoops x l).g = x.g := by unfold putLoops; split <;> rfl
@[simp] theorem putLoops_k (x : Strand) (l : List LoopEntry) : (putLoops x l).k = x.k := by unfold putLoops; split <;> rfl
@[simp] theorem putLoops_d (x : Strand) (l : List LoopEntry) : (putLoops x l).d = x.d := by unfold putLoops; split <;> rfl
@[simp] theorem putLoops_tile (x : Strand) (l : List LoopEntry) : (putLoops x l).tile = x.tile := by unfold putLoops; split <;> rfl
@[simp] theorem putLoops_status (x : Strand) (l : List LoopEntry) : (putLoops x l).status = x.status := by unfold putLoops; split <;> rfl
@[simp] theorem putLoops_cause (x : Strand) (l : List LoopEntry) : (putLoops x l).cause = x.cause := by unfold putLoops; split <;> rfl
@[simp] theorem putLoops_epc (x : Strand) (l : List LoopEntry) : (putLoops x l).epc = x.epc := by unfold putLoops; split <;> rfl
@[simp] theorem putLoops_tval (x : Strand) (l : List LoopEntry) : (putLoops x l).tval = x.tval := by unfold putLoops; split <;> rfl
@[simp] theorem putLoops_tvec (x : Strand) (l : List LoopEntry) : (putLoops x l).tvec = x.tvec := by unfold putLoops; split <;> rfl
@[simp] theorem putLoops_resume (x : Strand) (l : List LoopEntry) : (putLoops x l).resume = x.resume := by unfold putLoops; split <;> rfl
@[simp] theorem putLoops_geom (x : Strand) (l : List LoopEntry) : (putLoops x l).geom = x.geom := by unfold putLoops; split <;> rfl
@[simp] theorem putLoops_mb (x : Strand) (l : List LoopEntry) : (putLoops x l).mb = x.mb := by unfold putLoops; split <;> rfl
@[simp] theorem putLoops_oscale (x : Strand) (l : List LoopEntry) : (putLoops x l).oscale = x.oscale := by unfold putLoops; split <;> rfl
@[simp] theorem putLoops_nancnt (x : Strand) (l : List LoopEntry) : (putLoops x l).nancnt = x.nancnt := by unfold putLoops; split <;> rfl
@[simp] theorem putLoops_prova (x : Strand) (l : List LoopEntry) : (putLoops x l).prova = x.prova := by unfold putLoops; split <;> rfl
@[simp] theorem putLoops_provb (x : Strand) (l : List LoopEntry) : (putLoops x l).provb = x.provb := by unfold putLoops; split <;> rfl
@[simp] theorem putLoops_spillp (x : Strand) (l : List LoopEntry) : (putLoops x l).spillp = x.spillp := by unfold putLoops; split <;> rfl
@[simp] theorem putLoops_tenant (x : Strand) (l : List LoopEntry) : (putLoops x l).tenant = x.tenant := by unfold putLoops; split <;> rfl
@[simp] theorem putLoops_jslot (x : Strand) (l : List LoopEntry) : (putLoops x l).jslot = x.jslot := by unfold putLoops; split <;> rfl
@[simp] theorem putLoops_copyN (x : Strand) (l : List LoopEntry) : (putLoops x l).copyN = x.copyN := by unfold putLoops; split <;> rfl
@[simp] theorem putLoops_topkN (x : Strand) (l : List LoopEntry) : (putLoops x l).topkN = x.topkN := by unfold putLoops; split <;> rfl
@[simp] theorem putLoops_tabN (x : Strand) (l : List LoopEntry) : (putLoops x l).tabN = x.tabN := by unfold putLoops; split <;> rfl
@[simp] theorem putLoops_shadow (x : Strand) (l : List LoopEntry) : (putLoops x l).shadow = x.shadow := by unfold putLoops; split <;> rfl
@[simp] theorem putLoops_entered (x : Strand) (l : List LoopEntry) : (putLoops x l).entered = x.entered := by unfold putLoops; split <;> rfl
@[simp] theorem putLoops_mail (x : Strand) (l : List LoopEntry) : (putLoops x l).mail = x.mail := by unfold putLoops; split <;> rfl
@[simp] theorem putLoops_kills (x : Strand) (l : List LoopEntry) : (putLoops x l).kills = x.kills := by unfold putLoops; split <;> rfl
@[simp] theorem putLoops_irq (x : Strand) (l : List LoopEntry) : (putLoops x l).irq = x.irq := by unfold putLoops; split <;> rfl
@[simp] theorem putLoops_wait (x : Strand) (l : List LoopEntry) : (putLoops x l).wait = x.wait := by unfold putLoops; split <;> rfl
@[simp] theorem putLoops_long (x : Strand) (l : List LoopEntry) : (putLoops x l).long = x.long := by unfold putLoops; split <;> rfl
@[simp] theorem putLoops_inflight (x : Strand) (l : List LoopEntry) : (putLoops x l).inflight = x.inflight := by unfold putLoops; split <;> rfl
@[simp] theorem putLoops_vtabQ (x : Strand) (l : List LoopEntry) : (putLoops x l).vtabQ = x.vtabQ := by unfold putLoops; split <;> rfl
@[simp] theorem putLoops_notBefore (x : Strand) (l : List LoopEntry) : (putLoops x l).notBefore = x.notBefore := by unfold putLoops; split <;> rfl
@[simp] theorem putLoops_frozen (x : Strand) (l : List LoopEntry) : (putLoops x l).frozen = x.frozen := by unfold putLoops; split <;> rfl
@[simp] theorem putLoops_task (x : Strand) (l : List LoopEntry) : (putLoops x l).task = x.task := by unfold putLoops; split <;> rfl
@[simp] theorem putLoops_floor (x : Strand) (l : List LoopEntry) : (putLoops x l).floor = x.floor := by unfold putLoops; split <;> rfl
@[simp] theorem putLoops_mmagN (x : Strand) (l : List LoopEntry) : (putLoops x l).mmagN = x.mmagN := by unfold putLoops; split <;> rfl
@[simp] theorem putLoops_mmagOpen (x : Strand) (l : List LoopEntry) : (putLoops x l).mmagOpen = x.mmagOpen := by unfold putLoops; split <;> rfl
@[simp] theorem putLoops_wrote (x : Strand) (l : List LoopEntry) : (putLoops x l).wrote = x.wrote := by unfold putLoops; split <;> rfl
@[simp] theorem putLoops_carved (x : Strand) (l : List LoopEntry) : (putLoops x l).carved = x.carved := by unfold putLoops; split <;> rfl
@[simp] theorem inFlight_run (x : Strand) (i : Instr) (ctr : BitVec 3) : (inFlight x i ctr).run = x.run := rfl
@[simp] theorem inFlight_pc (x : Strand) (i : Instr) (ctr : BitVec 3) : (inFlight x i ctr).pc = x.pc := rfl
@[simp] theorem inFlight_s (x : Strand) (i : Instr) (ctr : BitVec 3) : (inFlight x i ctr).s = x.s := rfl
@[simp] theorem inFlight_v (x : Strand) (i : Instr) (ctr : BitVec 3) : (inFlight x i ctr).v = x.v := rfl
@[simp] theorem inFlight_g (x : Strand) (i : Instr) (ctr : BitVec 3) : (inFlight x i ctr).g = x.g := rfl
@[simp] theorem inFlight_k (x : Strand) (i : Instr) (ctr : BitVec 3) : (inFlight x i ctr).k = x.k := rfl
@[simp] theorem inFlight_d (x : Strand) (i : Instr) (ctr : BitVec 3) : (inFlight x i ctr).d = x.d := rfl
@[simp] theorem inFlight_tile (x : Strand) (i : Instr) (ctr : BitVec 3) : (inFlight x i ctr).tile = x.tile := rfl
@[simp] theorem inFlight_status (x : Strand) (i : Instr) (ctr : BitVec 3) : (inFlight x i ctr).status = x.status := rfl
@[simp] theorem inFlight_cause (x : Strand) (i : Instr) (ctr : BitVec 3) : (inFlight x i ctr).cause = x.cause := rfl
@[simp] theorem inFlight_epc (x : Strand) (i : Instr) (ctr : BitVec 3) : (inFlight x i ctr).epc = x.epc := rfl
@[simp] theorem inFlight_tval (x : Strand) (i : Instr) (ctr : BitVec 3) : (inFlight x i ctr).tval = x.tval := rfl
@[simp] theorem inFlight_tvec (x : Strand) (i : Instr) (ctr : BitVec 3) : (inFlight x i ctr).tvec = x.tvec := rfl
@[simp] theorem inFlight_resume (x : Strand) (i : Instr) (ctr : BitVec 3) : (inFlight x i ctr).resume = x.resume := rfl
@[simp] theorem inFlight_geom (x : Strand) (i : Instr) (ctr : BitVec 3) : (inFlight x i ctr).geom = x.geom := rfl
@[simp] theorem inFlight_mb (x : Strand) (i : Instr) (ctr : BitVec 3) : (inFlight x i ctr).mb = x.mb := rfl
@[simp] theorem inFlight_oscale (x : Strand) (i : Instr) (ctr : BitVec 3) : (inFlight x i ctr).oscale = x.oscale := rfl
@[simp] theorem inFlight_nancnt (x : Strand) (i : Instr) (ctr : BitVec 3) : (inFlight x i ctr).nancnt = x.nancnt := rfl
@[simp] theorem inFlight_prova (x : Strand) (i : Instr) (ctr : BitVec 3) : (inFlight x i ctr).prova = x.prova := rfl
@[simp] theorem inFlight_provb (x : Strand) (i : Instr) (ctr : BitVec 3) : (inFlight x i ctr).provb = x.provb := rfl
@[simp] theorem inFlight_spillp (x : Strand) (i : Instr) (ctr : BitVec 3) : (inFlight x i ctr).spillp = x.spillp := rfl
@[simp] theorem inFlight_tenant (x : Strand) (i : Instr) (ctr : BitVec 3) : (inFlight x i ctr).tenant = x.tenant := rfl
@[simp] theorem inFlight_jslot (x : Strand) (i : Instr) (ctr : BitVec 3) : (inFlight x i ctr).jslot = x.jslot := rfl
@[simp] theorem inFlight_copyN (x : Strand) (i : Instr) (ctr : BitVec 3) : (inFlight x i ctr).copyN = x.copyN := rfl
@[simp] theorem inFlight_topkN (x : Strand) (i : Instr) (ctr : BitVec 3) : (inFlight x i ctr).topkN = x.topkN := rfl
@[simp] theorem inFlight_tabN (x : Strand) (i : Instr) (ctr : BitVec 3) : (inFlight x i ctr).tabN = x.tabN := rfl
@[simp] theorem inFlight_loops (x : Strand) (i : Instr) (ctr : BitVec 3) : (inFlight x i ctr).loops = x.loops := rfl
@[simp] theorem inFlight_shadow (x : Strand) (i : Instr) (ctr : BitVec 3) : (inFlight x i ctr).shadow = x.shadow := rfl
@[simp] theorem inFlight_rbuf (x : Strand) (i : Instr) (ctr : BitVec 3) : (inFlight x i ctr).rbuf = x.rbuf := rfl
@[simp] theorem inFlight_rbufOver (x : Strand) (i : Instr) (ctr : BitVec 3) : (inFlight x i ctr).rbufOver = x.rbufOver := rfl
@[simp] theorem inFlight_rbufOk (x : Strand) (i : Instr) (ctr : BitVec 3) : (inFlight x i ctr).rbufOk = x.rbufOk := rfl
@[simp] theorem inFlight_entered (x : Strand) (i : Instr) (ctr : BitVec 3) : (inFlight x i ctr).entered = x.entered := rfl
@[simp] theorem inFlight_mail (x : Strand) (i : Instr) (ctr : BitVec 3) : (inFlight x i ctr).mail = x.mail := rfl
@[simp] theorem inFlight_kills (x : Strand) (i : Instr) (ctr : BitVec 3) : (inFlight x i ctr).kills = x.kills := rfl
@[simp] theorem inFlight_irq (x : Strand) (i : Instr) (ctr : BitVec 3) : (inFlight x i ctr).irq = x.irq := rfl
@[simp] theorem inFlight_long (x : Strand) (i : Instr) (ctr : BitVec 3) : (inFlight x i ctr).long = x.long := rfl
@[simp] theorem inFlight_vtabQ (x : Strand) (i : Instr) (ctr : BitVec 3) : (inFlight x i ctr).vtabQ = x.vtabQ := rfl
@[simp] theorem inFlight_notBefore (x : Strand) (i : Instr) (ctr : BitVec 3) : (inFlight x i ctr).notBefore = x.notBefore := rfl
@[simp] theorem inFlight_frozen (x : Strand) (i : Instr) (ctr : BitVec 3) : (inFlight x i ctr).frozen = x.frozen := rfl
@[simp] theorem inFlight_task (x : Strand) (i : Instr) (ctr : BitVec 3) : (inFlight x i ctr).task = x.task := rfl
@[simp] theorem inFlight_floor (x : Strand) (i : Instr) (ctr : BitVec 3) : (inFlight x i ctr).floor = x.floor := rfl
@[simp] theorem inFlight_mmagN (x : Strand) (i : Instr) (ctr : BitVec 3) : (inFlight x i ctr).mmagN = x.mmagN := rfl
@[simp] theorem inFlight_mmagOpen (x : Strand) (i : Instr) (ctr : BitVec 3) : (inFlight x i ctr).mmagOpen = x.mmagOpen := rfl
@[simp] theorem advance_run (x : Strand) (n : Word) : (advance x n).run = x.run := by simp [advance]
@[simp] theorem advance_s (x : Strand) (n : Word) : (advance x n).s = x.s := by simp [advance]
@[simp] theorem advance_v (x : Strand) (n : Word) : (advance x n).v = x.v := by simp [advance]
@[simp] theorem advance_g (x : Strand) (n : Word) : (advance x n).g = x.g := by simp [advance]
@[simp] theorem advance_k (x : Strand) (n : Word) : (advance x n).k = x.k := by simp [advance]
@[simp] theorem advance_d (x : Strand) (n : Word) : (advance x n).d = x.d := by simp [advance]
@[simp] theorem advance_tile (x : Strand) (n : Word) : (advance x n).tile = x.tile := by simp [advance]
@[simp] theorem advance_status (x : Strand) (n : Word) : (advance x n).status = x.status := by simp [advance]
@[simp] theorem advance_cause (x : Strand) (n : Word) : (advance x n).cause = x.cause := by simp [advance]
@[simp] theorem advance_epc (x : Strand) (n : Word) : (advance x n).epc = x.epc := by simp [advance]
@[simp] theorem advance_tval (x : Strand) (n : Word) : (advance x n).tval = x.tval := by simp [advance]
@[simp] theorem advance_tvec (x : Strand) (n : Word) : (advance x n).tvec = x.tvec := by simp [advance]
@[simp] theorem advance_resume (x : Strand) (n : Word) : (advance x n).resume = x.resume := by simp [advance]
@[simp] theorem advance_geom (x : Strand) (n : Word) : (advance x n).geom = x.geom := by simp [advance]
@[simp] theorem advance_mb (x : Strand) (n : Word) : (advance x n).mb = x.mb := by simp [advance]
@[simp] theorem advance_oscale (x : Strand) (n : Word) : (advance x n).oscale = x.oscale := by simp [advance]
@[simp] theorem advance_nancnt (x : Strand) (n : Word) : (advance x n).nancnt = x.nancnt := by simp [advance]
@[simp] theorem advance_prova (x : Strand) (n : Word) : (advance x n).prova = x.prova := by simp [advance]
@[simp] theorem advance_provb (x : Strand) (n : Word) : (advance x n).provb = x.provb := by simp [advance]
@[simp] theorem advance_spillp (x : Strand) (n : Word) : (advance x n).spillp = x.spillp := by simp [advance]
@[simp] theorem advance_tenant (x : Strand) (n : Word) : (advance x n).tenant = x.tenant := by simp [advance]
@[simp] theorem advance_jslot (x : Strand) (n : Word) : (advance x n).jslot = x.jslot := by simp [advance]
@[simp] theorem advance_copyN (x : Strand) (n : Word) : (advance x n).copyN = x.copyN := by simp [advance]
@[simp] theorem advance_topkN (x : Strand) (n : Word) : (advance x n).topkN = x.topkN := by simp [advance]
@[simp] theorem advance_tabN (x : Strand) (n : Word) : (advance x n).tabN = x.tabN := by simp [advance]
@[simp] theorem advance_shadow (x : Strand) (n : Word) : (advance x n).shadow = x.shadow := by simp [advance]
@[simp] theorem advance_entered (x : Strand) (n : Word) : (advance x n).entered = x.entered := by simp [advance]
@[simp] theorem advance_mail (x : Strand) (n : Word) : (advance x n).mail = x.mail := by simp [advance]
@[simp] theorem advance_kills (x : Strand) (n : Word) : (advance x n).kills = x.kills := by simp [advance]
@[simp] theorem advance_irq (x : Strand) (n : Word) : (advance x n).irq = x.irq := by simp [advance]
@[simp] theorem advance_wait (x : Strand) (n : Word) : (advance x n).wait = x.wait := by simp [advance]
@[simp] theorem advance_long (x : Strand) (n : Word) : (advance x n).long = x.long := by simp [advance]
@[simp] theorem advance_inflight (x : Strand) (n : Word) : (advance x n).inflight = x.inflight := by simp [advance]
@[simp] theorem advance_vtabQ (x : Strand) (n : Word) : (advance x n).vtabQ = x.vtabQ := by simp [advance]
@[simp] theorem advance_notBefore (x : Strand) (n : Word) : (advance x n).notBefore = x.notBefore := by simp [advance]
@[simp] theorem advance_frozen (x : Strand) (n : Word) : (advance x n).frozen = x.frozen := by simp [advance]
@[simp] theorem advance_task (x : Strand) (n : Word) : (advance x n).task = x.task := by simp [advance]
@[simp] theorem advance_floor (x : Strand) (n : Word) : (advance x n).floor = x.floor := by simp [advance]
@[simp] theorem advance_mmagN (x : Strand) (n : Word) : (advance x n).mmagN = x.mmagN := by simp [advance]
@[simp] theorem advance_mmagOpen (x : Strand) (n : Word) : (advance x n).mmagOpen = x.mmagOpen := by simp [advance]
@[simp] theorem advance_wrote (x : Strand) (n : Word) : (advance x n).wrote = x.wrote := by simp [advance]
@[simp] theorem advance_carved (x : Strand) (n : Word) : (advance x n).carved = x.carved := by simp [advance]

/-! ### Registers read after a write of a register -/

theorem getS_setS (x : Strand) (d : SReg) (v : Word) (r : SReg) :
    getS (setS x d v) r = if r = d ∧ r ≠ 0 then v else getS x r := by
  unfold getS setS
  by_cases h0 : r = 0
  · simp [h0]
  · by_cases hd : d = 0
    · subst hd; simp
    · simp only [h0, hd, if_false, mget_mset, ne_eq, not_false_eq_true, and_true]
      by_cases h : r = d
      · simp [h]
      · have : d.toNat ≠ r.toNat := fun e => h (BitVec.eq_of_toNat_eq e.symm)
        simp [h, this]

theorem getV_setV (x : Strand) (d : VReg) (v : Vec) (r : VReg) :
    getV (setV x d v) r = if r = d then v else getV x r := by
  unfold getV setV
  by_cases h : r = d
  · simp [h]
  · have : d.toNat ≠ r.toNat := fun e => h (BitVec.eq_of_toNat_eq e.symm)
    simp [h, this]

theorem getK_setK (x : Strand) (d : KReg) (v : Word) (r : KReg) :
    getK (setK x d v) r = if r = d ∧ r ≠ 0 then v else getK x r := by
  unfold getK setK
  by_cases h0 : r = 0
  · simp [h0]
  · by_cases hd : d = 0
    · subst hd; simp
    · simp only [h0, hd, if_false, mget_mset, ne_eq, not_false_eq_true, and_true]
      by_cases h : r = d
      · simp [h]
      · have : d.toNat ≠ r.toNat := fun e => h (BitVec.eq_of_toNat_eq e.symm)
        simp [h, this]

theorem getG_setG (x : Strand) (d : GReg) (b : Bool) (r : GReg) :
    getG (setG x d b) r = if r = d ∧ r ≠ 7 then b else getG x r := by
  unfold getG setG
  by_cases h7 : r = 7
  · simp [h7]
  · by_cases hd : d = 7
    · subst hd; simp
    · simp only [h7, hd, if_false, ne_eq, not_false_eq_true, and_true]
      generalize x.g = g
      revert g d r b
      decide +revert

theorem getD_setD (x : Strand) (i n j : Nat) : getD (setD x i n) j = if i = j then n % 64 else getD x j := by
  unfold getD setD
  simp only [mget_mset]
  split <;> simp

theorem getTile_setTile (x : Strand) (a : Nat) (w : BitVec 18) (b : Nat) :
    getTile (setTile x a w) b = if a = b then w else getTile x b := by simp [getTile, setTile]


/-! ### Registers read after a write of something else -/

@[simp] theorem getS_setV (x : Strand) (r1 : VReg) (v : Vec) (r : SReg) : getS (setV x r1 v) r = getS x r := by simp [getS]
@[simp] theorem getS_setK (x : Strand) (r1 : KReg) (v : Word) (r : SReg) : getS (setK x r1 v) r = getS x r := by simp [getS]
@[simp] theorem getS_setG (x : Strand) (r1 : GReg) (b : Bool) (r : SReg) : getS (setG x r1 b) r = getS x r := by simp [getS]
@[simp] theorem getS_setD (x : Strand) (i n : Nat) (r : SReg) : getS (setD x i n) r = getS x r := by simp [getS]
@[simp] theorem getS_setTile (x : Strand) (a : Nat) (w : BitVec 18) (r : SReg) : getS (setTile x a w) r = getS x r := by simp [getS]
@[simp] theorem getS_putStatus (x : Strand) (i : Nat) (b : Bool) (r : SReg) : getS (putStatus x i b) r = getS x r := by simp [getS]
@[simp] theorem getS_setUp (x : Strand) (c : Common) (r : SReg) : getS (setUp x c) r = getS x r := by simp [getS]
@[simp] theorem getS_setDown (x : Strand) (c : Common) (r : SReg) : getS (setDown x c) r = getS x r := by simp [getS]
@[simp] theorem getS_putPreds (x : Strand) (pt pf : GReg) (b : Bool) (r : SReg) : getS (putPreds x pt pf b) r = getS x r := by simp [getS]
@[simp] theorem getS_putLoops (x : Strand) (l : List LoopEntry) (r : SReg) : getS (putLoops x l) r = getS x r := by simp [getS]
@[simp] theorem getS_inFlight (x : Strand) (i : Instr) (ctr : BitVec 3) (r : SReg) : getS (inFlight x i ctr) r = getS x r := by simp [getS]
@[simp] theorem getS_advance (x : Strand) (n : Word) (r : SReg) : getS (advance x n) r = getS x r := by simp [getS]
@[simp] theorem getV_setS (x : Strand) (r1 : SReg) (v : Word) (r : VReg) : getV (setS x r1 v) r = getV x r := by simp [getV]
@[simp] theorem getV_setK (x : Strand) (r1 : KReg) (v : Word) (r : VReg) : getV (setK x r1 v) r = getV x r := by simp [getV]
@[simp] theorem getV_setG (x : Strand) (r1 : GReg) (b : Bool) (r : VReg) : getV (setG x r1 b) r = getV x r := by simp [getV]
@[simp] theorem getV_setD (x : Strand) (i n : Nat) (r : VReg) : getV (setD x i n) r = getV x r := by simp [getV]
@[simp] theorem getV_setTile (x : Strand) (a : Nat) (w : BitVec 18) (r : VReg) : getV (setTile x a w) r = getV x r := by simp [getV]
@[simp] theorem getV_putStatus (x : Strand) (i : Nat) (b : Bool) (r : VReg) : getV (putStatus x i b) r = getV x r := by simp [getV]
@[simp] theorem getV_setUp (x : Strand) (c : Common) (r : VReg) : getV (setUp x c) r = getV x r := by simp [getV]
@[simp] theorem getV_setDown (x : Strand) (c : Common) (r : VReg) : getV (setDown x c) r = getV x r := by simp [getV]
@[simp] theorem getV_putPreds (x : Strand) (pt pf : GReg) (b : Bool) (r : VReg) : getV (putPreds x pt pf b) r = getV x r := by simp [getV]
@[simp] theorem getV_putLoops (x : Strand) (l : List LoopEntry) (r : VReg) : getV (putLoops x l) r = getV x r := by simp [getV]
@[simp] theorem getV_inFlight (x : Strand) (i : Instr) (ctr : BitVec 3) (r : VReg) : getV (inFlight x i ctr) r = getV x r := by simp [getV]
@[simp] theorem getV_advance (x : Strand) (n : Word) (r : VReg) : getV (advance x n) r = getV x r := by simp [getV]
@[simp] theorem getK_setS (x : Strand) (r1 : SReg) (v : Word) (r : KReg) : getK (setS x r1 v) r = getK x r := by simp [getK]
@[simp] theorem getK_setV (x : Strand) (r1 : VReg) (v : Vec) (r : KReg) : getK (setV x r1 v) r = getK x r := by simp [getK]
@[simp] theorem getK_setG (x : Strand) (r1 : GReg) (b : Bool) (r : KReg) : getK (setG x r1 b) r = getK x r := by simp [getK]
@[simp] theorem getK_setD (x : Strand) (i n : Nat) (r : KReg) : getK (setD x i n) r = getK x r := by simp [getK]
@[simp] theorem getK_setTile (x : Strand) (a : Nat) (w : BitVec 18) (r : KReg) : getK (setTile x a w) r = getK x r := by simp [getK]
@[simp] theorem getK_putStatus (x : Strand) (i : Nat) (b : Bool) (r : KReg) : getK (putStatus x i b) r = getK x r := by simp [getK]
@[simp] theorem getK_setUp (x : Strand) (c : Common) (r : KReg) : getK (setUp x c) r = getK x r := by simp [getK]
@[simp] theorem getK_setDown (x : Strand) (c : Common) (r : KReg) : getK (setDown x c) r = getK x r := by simp [getK]
@[simp] theorem getK_putPreds (x : Strand) (pt pf : GReg) (b : Bool) (r : KReg) : getK (putPreds x pt pf b) r = getK x r := by simp [getK]
@[simp] theorem getK_putLoops (x : Strand) (l : List LoopEntry) (r : KReg) : getK (putLoops x l) r = getK x r := by simp [getK]
@[simp] theorem getK_inFlight (x : Strand) (i : Instr) (ctr : BitVec 3) (r : KReg) : getK (inFlight x i ctr) r = getK x r := by simp [getK]
@[simp] theorem getK_advance (x : Strand) (n : Word) (r : KReg) : getK (advance x n) r = getK x r := by simp [getK]
@[simp] theorem getG_setS (x : Strand) (r1 : SReg) (v : Word) (r : GReg) : getG (setS x r1 v) r = getG x r := by simp [getG]
@[simp] theorem getG_setV (x : Strand) (r1 : VReg) (v : Vec) (r : GReg) : getG (setV x r1 v) r = getG x r := by simp [getG]
@[simp] theorem getG_setK (x : Strand) (r1 : KReg) (v : Word) (r : GReg) : getG (setK x r1 v) r = getG x r := by simp [getG]
@[simp] theorem getG_setD (x : Strand) (i n : Nat) (r : GReg) : getG (setD x i n) r = getG x r := by simp [getG]
@[simp] theorem getG_setTile (x : Strand) (a : Nat) (w : BitVec 18) (r : GReg) : getG (setTile x a w) r = getG x r := by simp [getG]
@[simp] theorem getG_putStatus (x : Strand) (i : Nat) (b : Bool) (r : GReg) : getG (putStatus x i b) r = getG x r := by simp [getG]
@[simp] theorem getG_setUp (x : Strand) (c : Common) (r : GReg) : getG (setUp x c) r = getG x r := by simp [getG]
@[simp] theorem getG_setDown (x : Strand) (c : Common) (r : GReg) : getG (setDown x c) r = getG x r := by simp [getG]
@[simp] theorem getG_putLoops (x : Strand) (l : List LoopEntry) (r : GReg) : getG (putLoops x l) r = getG x r := by simp [getG]
@[simp] theorem getG_inFlight (x : Strand) (i : Instr) (ctr : BitVec 3) (r : GReg) : getG (inFlight x i ctr) r = getG x r := by simp [getG]
@[simp] theorem getG_advance (x : Strand) (n : Word) (r : GReg) : getG (advance x n) r = getG x r := by simp [getG]
@[simp] theorem getD_setS (x : Strand) (r1 : SReg) (v : Word) (r : Nat) : getD (setS x r1 v) r = getD x r := by simp [getD]
@[simp] theorem getD_setV (x : Strand) (r1 : VReg) (v : Vec) (r : Nat) : getD (setV x r1 v) r = getD x r := by simp [getD]
@[simp] theorem getD_setK (x : Strand) (r1 : KReg) (v : Word) (r : Nat) : getD (setK x r1 v) r = getD x r := by simp [getD]
@[simp] theorem getD_setG (x : Strand) (r1 : GReg) (b : Bool) (r : Nat) : getD (setG x r1 b) r = getD x r := by simp [getD]
@[simp] theorem getD_setTile (x : Strand) (a : Nat) (w : BitVec 18) (r : Nat) : getD (setTile x a w) r = getD x r := by simp [getD]
@[simp] theorem getD_putStatus (x : Strand) (i : Nat) (b : Bool) (r : Nat) : getD (putStatus x i b) r = getD x r := by simp [getD]
@[simp] theorem getD_putPreds (x : Strand) (pt pf : GReg) (b : Bool) (r : Nat) : getD (putPreds x pt pf b) r = getD x r := by simp [getD]
@[simp] theorem getD_putLoops (x : Strand) (l : List LoopEntry) (r : Nat) : getD (putLoops x l) r = getD x r := by simp [getD]
@[simp] theorem getD_inFlight (x : Strand) (i : Instr) (ctr : BitVec 3) (r : Nat) : getD (inFlight x i ctr) r = getD x r := by simp [getD]
@[simp] theorem getD_advance (x : Strand) (n : Word) (r : Nat) : getD (advance x n) r = getD x r := by simp [getD]
@[simp] theorem getTile_setS (x : Strand) (r1 : SReg) (v : Word) (r : Nat) : getTile (setS x r1 v) r = getTile x r := by simp [getTile]
@[simp] theorem getTile_setV (x : Strand) (r1 : VReg) (v : Vec) (r : Nat) : getTile (setV x r1 v) r = getTile x r := by simp [getTile]
@[simp] theorem getTile_setK (x : Strand) (r1 : KReg) (v : Word) (r : Nat) : getTile (setK x r1 v) r = getTile x r := by simp [getTile]
@[simp] theorem getTile_setG (x : Strand) (r1 : GReg) (b : Bool) (r : Nat) : getTile (setG x r1 b) r = getTile x r := by simp [getTile]
@[simp] theorem getTile_setD (x : Strand) (i n : Nat) (r : Nat) : getTile (setD x i n) r = getTile x r := by simp [getTile]
@[simp] theorem getTile_putStatus (x : Strand) (i : Nat) (b : Bool) (r : Nat) : getTile (putStatus x i b) r = getTile x r := by simp [getTile]
@[simp] theorem getTile_setUp (x : Strand) (c : Common) (r : Nat) : getTile (setUp x c) r = getTile x r := by simp [getTile]
@[simp] theorem getTile_setDown (x : Strand) (c : Common) (r : Nat) : getTile (setDown x c) r = getTile x r := by simp [getTile]
@[simp] theorem getTile_putPreds (x : Strand) (pt pf : GReg) (b : Bool) (r : Nat) : getTile (putPreds x pt pf b) r = getTile x r := by simp [getTile]
@[simp] theorem getTile_putLoops (x : Strand) (l : List LoopEntry) (r : Nat) : getTile (putLoops x l) r = getTile x r := by simp [getTile]
@[simp] theorem getTile_inFlight (x : Strand) (i : Instr) (ctr : BitVec 3) (r : Nat) : getTile (inFlight x i ctr) r = getTile x r := by simp [getTile]
@[simp] theorem getTile_advance (x : Strand) (n : Word) (r : Nat) : getTile (advance x n) r = getTile x r := by simp [getTile]

end Sys2Proof.Machine
end

