-- ==== Sys2Proof/Laws/Homes.lean ====
section
/-!
SUPPORT. What the operations shared by the homes do, said once: a write at a home of this device, the counts of the drain probe, the fall of a SET counter, the LAST of an object,
and the retention of a vector bank.
-/
namespace Sys2Proof.Machine

/-! ### A write at a home (spec/20 R317, spec/22 R373) -/

/-- Near-tier memory takes a write at once, by whatever VC other devices are reached. -/
theorem homeWriteOn_near (s : State) (vc key n v : Nat) (h : key < 0x8000000000) :
    homeWriteOn s vc key n v = unpoison { s with mem := writeLE s.mem key n v } key n := by
  have ha : askHomeOn s vc key [1, key, n, v] = s := if_neg (by omega)
  have hn : noHome s key = false := (if_neg (by omega)).trans (if_pos h)
  simp only [homeWriteOn, ha, hn, Bool.false_eq_true, if_false]
theorem homeWrite_near (s : State) (key n v : Nat) (h : key < 0x8000000000) :
    homeWrite s key n v = unpoison { s with mem := writeLE s.mem key n v } key n := homeWriteOn_near s 0 key n v h
theorem meetWrite_near (s : State) (key n v : Nat) (h : key < 0x8000000000) :
    meetWrite s key n v = unpoison { s with mem := writeLE s.mem key n v } key n := homeWriteOn_near s 3 key n v h
theorem reduceWrite_near (s : State) (key n v : Nat) (h : key < 0x8000000000) :
    reduceWrite s key n v = unpoison { s with mem := writeLE s.mem key n v } key n := homeWriteOn_near s 2 key n v h

/-- Every byte after such a write. -/
theorem byteAt_homeWriteOn_near (s : State) (vc key n v : Nat) (h : key < 0x8000000000) (b : Nat) :
    byteAt (homeWriteOn s vc key n v).mem b = if key ≤ b ∧ b < key + n then BitVec.ofNat 8 (v / 256 ^ (b - key)) else byteAt s.mem b := by
  rw [homeWriteOn_near s vc key n v h]
  exact byteAt_writeLE s.mem key n v b

/-! ### The counts of the drain probe (spec/20 R337) -/

theorem getCore_countOut (s : State) (c q : Nat) :
    getCore (countOut s c) q = if c = q then { getCore s c with outc := ((getCore s c).outc + 1) % 2 ^ 64 } else getCore s q := by
  rw [countOut, getCore_modCore]
theorem getCore_countIn (s : State) (c q : Nat) :
    getCore (countIn s c) q = if c = q then { getCore s c with inc := ((getCore s c).inc + 1) % 2 ^ 64, recvFlag := true } else getCore s q := by
  rw [countIn, getCore_modCore]

/-- What is taken back after it has been counted leaves the count as it was. -/
theorem outc_uncountOut_countOut (s : State) (c : Nat) (h : (getCore s c).outc < 2 ^ 64) :
    (getCore (uncountOut (countOut s c) c) c).outc = (getCore s c).outc := by
  simp only [uncountOut, countOut, getCore_modCore_self]
  omega

/-! ### The fall of a SET counter (spec/04 R74) -/

theorem getStrand_lowerCtr (s : State) (k : Nat) (ctr : BitVec 3) (j : Nat) :
    getStrand (lowerCtr s k ctr) j = if k = j then (if ctr = 7 then getStrand s k else setD (getStrand s k) ctr.toNat (getD (getStrand s k) ctr.toNat - 1)) else getStrand s j := by
  rw [lowerCtr, getStrand_modStrand]

/-! ### The LAST of an object (spec/21 R355) -/

/-- LAST is the largest time that a release of the object has carried. -/
theorem lastOf_noteLast (s : State) (o t p : Nat) :
    lastOf (noteLast s (some o) t) p = if o = p then some (max t ((lastOf s o).getD 0)) else lastOf s p := by
  by_cases h : o = p
  · subst h; simp [lastOf, noteLast]
  · simp [lastOf, noteLast, h, Ne.symm h]

/-- After an eviction an acquire finds no less than it would have found before. -/
theorem le_lastOf_evictLast (s : State) (o t : Nat) (h : lastOf s o = some t) : ∃ u, lastOf (evictLast s o) o = some u ∧ t ≤ u := by
  by_cases c : (mhas s.lastT o && !isUnitKind (o / 2 ^ 64)) = true
  · have hm : mhas s.lastT o = true := by simp only [Bool.and_eq_true] at c; exact c.1
    have ht : mget 0 s.lastT o = t := by simpa [lastOf, hm] using h
    refine ⟨max (mget 0 s.lastT o) (mget 0 s.lastFloor (lastPort o)), ?_, by omega⟩
    rw [show evictLast s o = _ from if_pos c]
    simp [lastOf, mhas_mdel, mmod]
  · exact ⟨t, by rw [evictLast, if_neg c]; exact h, Nat.le_refl t⟩

/-! ### Retention (spec/01 R25) -/

/-- A bank changes its state only where it has been idle for 1,024 cycles, and nothing else changes. -/
theorem retainBank_cases (s : State) (c : Nat) :
    retainBank s c = s ∨
      ((getCore s c).vmode = 1 ∧ bankSleeps s c = false ∧ 1024 ≤ s.cycle - (getCore s c).vidle ∧
        retainBank s c = setCore s c { getCore s c with vstate := 1, vidle := 0 }) := by
  simp only [retainBank]
  split
  · next h => exact .inr ⟨h.1, by simpa using h.2.1, h.2.2, rfl⟩
  · exact .inl rfl

end Sys2Proof.Machine
end

