-- ==== Sys2Proof/Laws/Issue.lean ====
section
/-!
SUPPORT. What issuing an instruction can do, said once: the gate lets a ready instruction through, and what `settle` makes of each answer of a body.
-/
namespace Sys2Proof.Machine

open Sys2Proof.Claims

theorem gate_ready {i : Instr} {c : Common} {s : State} (h : Ready i c s) : gate i c s = none := by
  have hl : (systemOnly i && !stPriv (me s)) = false := by
    cases hi : systemOnly i
    · rfl
    · simp [h.level hi]
  have hk : (c.kpt && killDue (me s)) = false := by
    cases hc : c.kpt
    · rfl
    · simp [h.noKill hc]
  have hd : ¬ s.cycle < (me s).notBefore := Nat.not_lt.mpr h.due
  simp [gate, h.free, h.noWait, hl, h.named, hk, h.counters, h.operands, hd, h.awake, h.guard, h.room]

/-- A ready instruction issues. -/
theorem issue_ready {i : Instr} {c : Common} {s : State} (h : Ready i c s) (body : State → Res) :
    issue i c s body = .next (settle i c s (body (opened i c s))) := by simp [issue, gate_ready h]

theorem opened_eq {i : Instr} {c : Common} {s : State} (h : (me s).wait = none) :
    opened i c s = modMe (noteIssue i s) fun x => setUp x c := by simp [opened, waitIssued, h]

/-! ### The note of an issue changes the core of the strand `cur` alone -/

@[simp] theorem noteIssue_cur (i : Instr) (s : State) : (noteIssue i s).cur = s.cur := by unfold noteIssue; split <;> rfl
@[simp] theorem noteIssue_mem (i : Instr) (s : State) : (noteIssue i s).mem = s.mem := by unfold noteIssue; split <;> rfl
@[simp] theorem noteIssue_cycle (i : Instr) (s : State) : (noteIssue i s).cycle = s.cycle := by unfold noteIssue; split <;> rfl
@[simp] theorem noteIssue_strands (i : Instr) (s : State) : (noteIssue i s).strands = s.strands := by unfold noteIssue; split <;> rfl
@[simp] theorem noteIssue_clusters (i : Instr) (s : State) : (noteIssue i s).clusters = s.clusters := by unfold noteIssue; split <;> rfl
@[simp] theorem noteIssue_ctxs (i : Instr) (s : State) : (noteIssue i s).ctxs = s.ctxs := by unfold noteIssue; split <;> rfl
@[simp] theorem getStrand_noteIssue (i : Instr) (s : State) (k : Nat) : getStrand (noteIssue i s) k = getStrand s k := by
  simp only [getStrand, noteIssue_strands]
@[simp] theorem me_noteIssue (i : Instr) (s : State) : me (noteIssue i s) = me s := by simp [me]

theorem noteIssue_others (i : Instr) (s : State) : { noteIssue i s with strands := s.strands, cores := s.cores } = s := by
  unfold noteIssue; split <;> rfl

theorem modMe_others {s t : State} (f : Strand → Strand) (h : { t with strands := s.strands, cores := s.cores } = s) :
    { modMe t f with strands := s.strands, cores := s.cores } = s := h

theorem getCore_noteIssue {i : Instr} {s : State} {q : Nat} (h : q ≠ coreOf s.cur) : getCore (noteIssue i s) q = getCore s q := by
  unfold noteIssue; split <;> simp [touchBank, getCore_modCore, Ne.symm h]

theorem noteIssue_core (i : Instr) (s : State) :
    getCore (noteIssue i s) (coreOf s.cur) =
      { getCore s (coreOf s.cur) with
        issueNo := (getCore s (coreOf s.cur)).issueNo + 1, lastIssued := strandNo s.cur, issuedAt := s.cycle + 1
        vidle := if namesBank i then s.cycle else (getCore s (coreOf s.cur)).vidle
        vstate := if namesBank i then if (getCore s (coreOf s.cur)).vmode = 2 then 2 else 0 else (getCore s (coreOf s.cur)).vstate } := by
  unfold noteIssue; split <;> simp_all [touchBank]

@[simp] theorem opened_cur (i : Instr) (c : Common) (s : State) : (opened i c s).cur = s.cur := by
  unfold opened; split <;> simp
@[simp] theorem opened_mem (i : Instr) (c : Common) (s : State) : (opened i c s).mem = s.mem := by
  unfold opened; split <;> simp
@[simp] theorem opened_cycle (i : Instr) (c : Common) (s : State) : (opened i c s).cycle = s.cycle := by
  unfold opened; split <;> simp
theorem me_opened {i : Instr} {c : Common} {s : State} (h : (me s).wait = none) : me (opened i c s) = setUp (me s) c := by
  rw [opened_eq h]; simp

theorem getD_setUp (x : Strand) (c : Common) (j : Nat) (h : counterFull x c = false) :
    getD (setUp x c) j = getD x j + if c.set ≠ 7 ∧ c.set.toNat = j then 1 else 0 := by
  unfold setUp
  by_cases h7 : c.set = 7
  · simp [h7]
  · rw [if_neg h7, getD_setD]
    by_cases hj : c.set.toNat = j
    · subst hj
      have hn : getD x c.set.toNat ≠ 63 := fun e => by
        simp only [counterFull, e, Bool.and_eq_false_iff, bne_eq_false_iff_eq, beq_self_eq_true, Bool.true_eq_false, or_false] at h
        exact h7 h
      have hl : getD x c.set.toNat < 64 := (mget 0 x.d c.set.toNat).isLt
      rw [if_pos rfl, if_pos ⟨h7, rfl⟩]; omega
    · simp [hj]

/-- A strand with only its registers changed. -/
def RegsOnly (f : Strand → Strand) : Prop := ∀ x, { f x with s := x.s, v := x.v, g := x.g, k := x.k } = x

theorem advance_eq (x : Strand) (n : Word) :
    advance x n = { x with
      loops := (endTest n x.loops).1, pc := (endTest n x.loops).2, rbuf := (advance x n).rbuf, rbufOver := (advance x n).rbufOver
      rbufOk := (advance x n).rbufOk } := by
  simp only [advance, putLoops]; split <;> rfl

theorem setUp_eq (x : Strand) (c : Common) : setUp x c = { x with d := (setUp x c).d } := by
  unfold setUp; split <;> rfl

/-- A ready instruction whose body changes registers alone completes, with the registers the body gives. -/
theorem issue_onMe {i : Instr} {c : Common} {s : State} (h : Ready i c s) (f : State → Strand → Strand)
    (hf : RegsOnly (f (opened i c s))) :
    ∃ t, issue i c s (fun s => onMe s (f s)) = .next t ∧
      Result c s t (getS (f (opened i c s) (setUp (me s) c))) (getG (f (opened i c s) (setUp (me s) c)))
        (getK (f (opened i c s) (setUp (me s) c))) (getV (f (opened i c s) (setUp (me s) c))) := by
  refine ⟨_, issue_ready h _, ?_⟩
  have hm := me_opened (i := i) (c := c) h.noWait
  generalize hg : f (opened i c s) = g at hf
  simp only [onMe, settle]
  obtain ⟨y, hy⟩ : ∃ y, y = g (setUp (me s) c) := ⟨_, rfl⟩
  rw [← hy]
  have hy2 := hf (setUp (me s) c)
  rw [← hy] at hy2
  have hme : me (modMe (modMe (opened i c s) g) fun x => advance (inFlight x i c.set) ((me s).pc + lenWord c)) =
      advance (inFlight y i c.set) ((me s).pc + lenWord c) := by simp [hm, hy]
  have hyd : y.d = (setUp (me s) c).d := by rw [← hy2]
  have hyl : y.loops = (me s).loops := by rw [← setUp_loops (me s) c, ← hy2]
  constructor
  · constructor
    · intro k hk
      rw [opened_eq h.noWait]
      simp [modMe, getStrand_modStrand, Ne.symm hk]
    · intro q hq
      rw [opened_eq h.noWait]
      simp [getCore_noteIssue hq]
    · rw [opened_eq h.noWait]; simp [noteIssue_core]
    · rw [opened_eq h.noWait]; exact modMe_others _ (modMe_others _ (modMe_others _ (noteIssue_others i s)))
    · simp
  · rw [hme, advance_eq]
    simp only [setUp_s, setUp_v, setUp_g, setUp_k] at hy2
    have h2 := congrArg (fun z : Strand => { z with
      d := (me s).d, pc := (me s).pc, loops := (me s).loops, rbuf := (me s).rbuf, rbufOver := (me s).rbufOver, rbufOk := (me s).rbufOk
      inflight := (me s).inflight, wrote := (me s).wrote, carved := (me s).carved, wait := (me s).wait }) hy2
    refine Eq.trans h2 ?_
    rw [setUp_eq]
  · intro r; rw [hme]; simp
  · intro r; rw [hme]; simp
  · intro r; rw [hme]; simp
  · intro r; rw [hme]; simp
  · intro j; rw [hme, ← getD_setUp _ _ _ h.room]; simp [getD, hyd]
  · unfold GoesOn; rw [hme, advance_eq]; simp [hyl, lenWord]

theorem result_congr {c : Common} {s t : State} {fs fs' : SReg → Word} {fg fg' : GReg → Bool} {fk fk' : KReg → Word} {fv fv' : VReg → Vec}
    (h : Result c s t fs fg fk fv) (hs : ∀ r, fs r = fs' r) (hg : ∀ r, fg r = fg' r) (hk : ∀ r, fk r = fk' r) (hv : ∀ r, fv r = fv' r) :
    Result c s t fs' fg' fk' fv' := by
  rw [funext hs, funext hg, funext hk, funext hv] at h; exact h

/-- A ready instruction whose body writes one scalar register from the strand's registers. -/
theorem issue_setS {i : Instr} {c : Common} {s : State} (h : Ready i c s) (d : SReg) (f : Strand → Word) (hf : f (setUp (me s) c) = f (me s)) :
    ∃ t, issue i c s (fun s => onMe s fun x => setS x d (f x)) = .next t ∧ ResultS c s d (f (me s)) t := by
  obtain ⟨t, h1, h2⟩ := issue_onMe h (fun _ x => setS x d (f x)) (by intro x; simp only [setS]; split <;> rfl)
  exact ⟨t, h1, result_congr h2 (by simp [getS_setS, hf]) (by simp) (by simp) (by simp)⟩

theorem issue_setK {i : Instr} {c : Common} {s : State} (h : Ready i c s) (d : KReg) (f : Strand → Word) (hf : f (setUp (me s) c) = f (me s)) :
    ∃ t, issue i c s (fun s => onMe s fun x => setK x d (f x)) = .next t ∧ ResultK c s d (f (me s)) t := by
  obtain ⟨t, h1, h2⟩ := issue_onMe h (fun _ x => setK x d (f x)) (by intro x; simp only [setK]; split <;> rfl)
  exact ⟨t, h1, result_congr h2 (by simp) (by simp) (by simp [getK_setK, hf]) (by simp)⟩

theorem issue_setV {i : Instr} {c : Common} {s : State} (h : Ready i c s) (d : VReg) (f : Strand → Vec) (hf : f (setUp (me s) c) = f (me s)) :
    ∃ t, issue i c s (fun s => onMe s fun x => setV x d (f x)) = .next t ∧ ResultV c s d (f (me s)) t := by
  obtain ⟨t, h1, h2⟩ := issue_onMe h (fun _ x => setV x d (f x)) (fun _ => rfl)
  exact ⟨t, h1, result_congr h2 (by simp) (by simp) (by simp) (by simp [getV_setV, hf])⟩

/-- A ready instruction whose body writes predicates from the strand's registers. -/
theorem issue_putG {i : Instr} {c : Common} {s : State} (h : Ready i c s) (f : Strand → Strand) (hf : ∀ x, f x = { x with g := (f x).g })
    (fg : GReg → Bool) (hg : ∀ r, getG (f (setUp (me s) c)) r = fg r) :
    ∃ t, issue i c s (fun s => onMe s f) = .next t ∧ ResultG c s fg t := by
  obtain ⟨t, h1, h2⟩ := issue_onMe h (fun _ => f) (by intro x; rw [hf])
  refine ⟨t, h1, result_congr h2 ?_ hg ?_ ?_⟩ <;> intro r <;> rw [hf] <;> simp [getS, getK, getV]

end Sys2Proof.Machine
end

