-- ==== Sys2Proof/Laws/Trap.lean ====
section
/-!
SUPPORT. Trace emission changes the records that wait and the sequence numbers alone; trap entry and the return from a trap, said once.
-/
namespace Sys2Proof.Machine

open Sys2Proof.Claims

/-! ### Trace emission -/

@[simp] theorem nextSeq_cycle (s : State) (d : Nat) : (nextSeq s d).2.cycle = s.cycle := rfl
@[simp] theorem nextSeq_time (s : State) (d : Nat) : (nextSeq s d).2.time = s.time := rfl
@[simp] theorem nextSeq_agenda (s : State) (d : Nat) : (nextSeq s d).2.agenda = s.agenda := rfl
@[simp] theorem nextSeq_cur (s : State) (d : Nat) : (nextSeq s d).2.cur = s.cur := rfl
@[simp] theorem nextSeq_late (s : State) (d : Nat) : (nextSeq s d).2.late = s.late := rfl
@[simp] theorem nextSeq_lastRun (s : State) (d : Nat) : (nextSeq s d).2.lastRun = s.lastRun := rfl
@[simp] theorem nextSeq_tick (s : State) (d : Nat) : (nextSeq s d).2.tick = s.tick := rfl
@[simp] theorem nextSeq_devNo (s : State) (d : Nat) : (nextSeq s d).2.devNo = s.devNo := rfl
@[simp] theorem nextSeq_strands (s : State) (d : Nat) : (nextSeq s d).2.strands = s.strands := rfl
@[simp] theorem nextSeq_cores (s : State) (d : Nat) : (nextSeq s d).2.cores = s.cores := rfl
@[simp] theorem nextSeq_clusters (s : State) (d : Nat) : (nextSeq s d).2.clusters = s.clusters := rfl
@[simp] theorem nextSeq_ctxs (s : State) (d : Nat) : (nextSeq s d).2.ctxs = s.ctxs := rfl
@[simp] theorem nextSeq_mem (s : State) (d : Nat) : (nextSeq s d).2.mem = s.mem := rfl
@[simp] theorem nextSeq_poison (s : State) (d : Nat) : (nextSeq s d).2.poison = s.poison := rfl
@[simp] theorem nextSeq_joins (s : State) (d : Nat) : (nextSeq s d).2.joins = s.joins := rfl
@[simp] theorem nextSeq_joinNo (s : State) (d : Nat) : (nextSeq s d).2.joinNo = s.joinNo := rfl
@[simp] theorem nextSeq_kills (s : State) (d : Nat) : (nextSeq s d).2.kills = s.kills := rfl
@[simp] theorem nextSeq_childArr (s : State) (d : Nat) : (nextSeq s d).2.childArr = s.childArr := rfl
@[simp] theorem nextSeq_stalls (s : State) (d : Nat) : (nextSeq s d).2.stalls = s.stalls := rfl
@[simp] theorem nextSeq_lockQ (s : State) (d : Nat) : (nextSeq s d).2.lockQ = s.lockQ := rfl
@[simp] theorem nextSeq_reductions (s : State) (d : Nat) : (nextSeq s d).2.reductions = s.reductions := rfl
@[simp] theorem nextSeq_lastT (s : State) (d : Nat) : (nextSeq s d).2.lastT = s.lastT := rfl
@[simp] theorem nextSeq_lastGone (s : State) (d : Nat) : (nextSeq s d).2.lastGone = s.lastGone := rfl
@[simp] theorem nextSeq_lastFloor (s : State) (d : Nat) : (nextSeq s d).2.lastFloor = s.lastFloor := rfl
@[simp] theorem nextSeq_lastAsk (s : State) (d : Nat) : (nextSeq s d).2.lastAsk = s.lastAsk := rfl
@[simp] theorem nextSeq_launches (s : State) (d : Nat) : (nextSeq s d).2.launches = s.launches := rfl
@[simp] theorem nextSeq_launchNo (s : State) (d : Nat) : (nextSeq s d).2.launchNo = s.launchNo := rfl
@[simp] theorem nextSeq_recs (s : State) (d : Nat) : (nextSeq s d).2.recs = s.recs := rfl
@[simp] theorem nextSeq_srcStamp (s : State) (d : Nat) : (nextSeq s d).2.srcStamp = s.srcStamp := rfl
@[simp] theorem nextSeq_rings (s : State) (d : Nat) : (nextSeq s d).2.rings = s.rings := rfl
@[simp] theorem nextSeq_ptp (s : State) (d : Nat) : (nextSeq s d).2.ptp = s.ptp := rfl
@[simp] theorem nextSeq_links (s : State) (d : Nat) : (nextSeq s d).2.links = s.links := rfl
@[simp] theorem nextSeq_unreach (s : State) (d : Nat) : (nextSeq s d).2.unreach = s.unreach := rfl
@[simp] theorem nextSeq_fabricQ (s : State) (d : Nat) : (nextSeq s d).2.fabricQ = s.fabricQ := rfl
@[simp] theorem nextSeq_awaySends (s : State) (d : Nat) : (nextSeq s d).2.awaySends = s.awaySends := rfl
@[simp] theorem nextSeq_awayReqs (s : State) (d : Nat) : (nextSeq s d).2.awayReqs = s.awayReqs := rfl
@[simp] theorem nextSeq_ethDrops (s : State) (d : Nat) : (nextSeq s d).2.ethDrops = s.ethDrops := rfl
@[simp] theorem nextSeq_qps (s : State) (d : Nat) : (nextSeq s d).2.qps = s.qps := rfl
@[simp] theorem nextSeq_regions (s : State) (d : Nat) : (nextSeq s d).2.regions = s.regions := rfl
@[simp] theorem nextSeq_hdm (s : State) (d : Nat) : (nextSeq s d).2.hdm = s.hdm := rfl
@[simp] theorem nextSeq_rasctl (s : State) (d : Nat) : (nextSeq s d).2.rasctl = s.rasctl := rfl
@[simp] theorem nextSeq_rascnt (s : State) (d : Nat) : (nextSeq s d).2.rascnt = s.rascnt := rfl
@[simp] theorem nextSeq_xtrig (s : State) (d : Nat) : (nextSeq s d).2.xtrig = s.xtrig := rfl
@[simp] theorem nextSeq_msix (s : State) (d : Nat) : (nextSeq s d).2.msix = s.msix := rfl
@[simp] theorem nextSeq_mgmt (s : State) (d : Nat) : (nextSeq s d).2.mgmt = s.mgmt := rfl
@[simp] theorem emitTo_cycle (s : State) (e : Emission) (t q : Nat) (l : Bool) : (emitTo s e t q l).cycle = s.cycle := by unfold emitTo; split <;> rfl
@[simp] theorem emitTo_time (s : State) (e : Emission) (t q : Nat) (l : Bool) : (emitTo s e t q l).time = s.time := by unfold emitTo; split <;> rfl
@[simp] theorem emitTo_agenda (s : State) (e : Emission) (t q : Nat) (l : Bool) : (emitTo s e t q l).agenda = s.agenda := by unfold emitTo; split <;> rfl
@[simp] theorem emitTo_cur (s : State) (e : Emission) (t q : Nat) (l : Bool) : (emitTo s e t q l).cur = s.cur := by unfold emitTo; split <;> rfl
@[simp] theorem emitTo_late (s : State) (e : Emission) (t q : Nat) (l : Bool) : (emitTo s e t q l).late = s.late := by unfold emitTo; split <;> rfl
@[simp] theorem emitTo_lastRun (s : State) (e : Emission) (t q : Nat) (l : Bool) : (emitTo s e t q l).lastRun = s.lastRun := by unfold emitTo; split <;> rfl
@[simp] theorem emitTo_tick (s : State) (e : Emission) (t q : Nat) (l : Bool) : (emitTo s e t q l).tick = s.tick := by unfold emitTo; split <;> rfl
@[simp] theorem emitTo_devNo (s : State) (e : Emission) (t q : Nat) (l : Bool) : (emitTo s e t q l).devNo = s.devNo := by unfold emitTo; split <;> rfl
@[simp] theorem emitTo_strands (s : State) (e : Emission) (t q : Nat) (l : Bool) : (emitTo s e t q l).strands = s.strands := by unfold emitTo; split <;> rfl
@[simp] theorem emitTo_cores (s : State) (e : Emission) (t q : Nat) (l : Bool) : (emitTo s e t q l).cores = s.cores := by unfold emitTo; split <;> rfl
@[simp] theorem emitTo_clusters (s : State) (e : Emission) (t q : Nat) (l : Bool) : (emitTo s e t q l).clusters = s.clusters := by unfold emitTo; split <;> rfl
@[simp] theorem emitTo_ctxs (s : State) (e : Emission) (t q : Nat) (l : Bool) : (emitTo s e t q l).ctxs = s.ctxs := by unfold emitTo; split <;> rfl
@[simp] theorem emitTo_mem (s : State) (e : Emission) (t q : Nat) (l : Bool) : (emitTo s e t q l).mem = s.mem := by unfold emitTo; split <;> rfl
@[simp] theorem emitTo_poison (s : State) (e : Emission) (t q : Nat) (l : Bool) : (emitTo s e t q l).poison = s.poison := by unfold emitTo; split <;> rfl
@[simp] theorem emitTo_joins (s : State) (e : Emission) (t q : Nat) (l : Bool) : (emitTo s e t q l).joins = s.joins := by unfold emitTo; split <;> rfl
@[simp] theorem emitTo_joinNo (s : State) (e : Emission) (t q : Nat) (l : Bool) : (emitTo s e t q l).joinNo = s.joinNo := by unfold emitTo; split <;> rfl
@[simp] theorem emitTo_kills (s : State) (e : Emission) (t q : Nat) (l : Bool) : (emitTo s e t q l).kills = s.kills := by unfold emitTo; split <;> rfl
@[simp] theorem emitTo_childArr (s : State) (e : Emission) (t q : Nat) (l : Bool) : (emitTo s e t q l).childArr = s.childArr := by unfold emitTo; split <;> rfl
@[simp] theorem emitTo_stalls (s : State) (e : Emission) (t q : Nat) (l : Bool) : (emitTo s e t q l).stalls = s.stalls := by unfold emitTo; split <;> rfl
@[simp] theorem emitTo_lockQ (s : State) (e : Emission) (t q : Nat) (l : Bool) : (emitTo s e t q l).lockQ = s.lockQ := by unfold emitTo; split <;> rfl
@[simp] theorem emitTo_reductions (s : State) (e : Emission) (t q : Nat) (l : Bool) : (emitTo s e t q l).reductions = s.reductions := by unfold emitTo; split <;> rfl
@[simp] theorem emitTo_lastT (s : State) (e : Emission) (t q : Nat) (l : Bool) : (emitTo s e t q l).lastT = s.lastT := by unfold emitTo; split <;> rfl
@[simp] theorem emitTo_lastGone (s : State) (e : Emission) (t q : Nat) (l : Bool) : (emitTo s e t q l).lastGone = s.lastGone := by unfold emitTo; split <;> rfl
@[simp] theorem emitTo_lastFloor (s : State) (e : Emission) (t q : Nat) (l : Bool) : (emitTo s e t q l).lastFloor = s.lastFloor := by unfold emitTo; split <;> rfl
@[simp] theorem emitTo_lastAsk (s : State) (e : Emission) (t q : Nat) (l : Bool) : (emitTo s e t q l).lastAsk = s.lastAsk := by unfold emitTo; split <;> rfl
@[simp] theorem emitTo_launches (s : State) (e : Emission) (t q : Nat) (l : Bool) : (emitTo s e t q l).launches = s.launches := by unfold emitTo; split <;> rfl
@[simp] theorem emitTo_launchNo (s : State) (e : Emission) (t q : Nat) (l : Bool) : (emitTo s e t q l).launchNo = s.launchNo := by unfold emitTo; split <;> rfl
@[simp] theorem emitTo_dieSeq (s : State) (e : Emission) (t q : Nat) (l : Bool) : (emitTo s e t q l).dieSeq = s.dieSeq := by unfold emitTo; split <;> rfl
@[simp] theorem emitTo_rings (s : State) (e : Emission) (t q : Nat) (l : Bool) : (emitTo s e t q l).rings = s.rings := by unfold emitTo; split <;> rfl
@[simp] theorem emitTo_ptp (s : State) (e : Emission) (t q : Nat) (l : Bool) : (emitTo s e t q l).ptp = s.ptp := by unfold emitTo; split <;> rfl
@[simp] theorem emitTo_links (s : State) (e : Emission) (t q : Nat) (l : Bool) : (emitTo s e t q l).links = s.links := by unfold emitTo; split <;> rfl
@[simp] theorem emitTo_unreach (s : State) (e : Emission) (t q : Nat) (l : Bool) : (emitTo s e t q l).unreach = s.unreach := by unfold emitTo; split <;> rfl
@[simp] theorem emitTo_fabricQ (s : State) (e : Emission) (t q : Nat) (l : Bool) : (emitTo s e t q l).fabricQ = s.fabricQ := by unfold emitTo; split <;> rfl
@[simp] theorem emitTo_awaySends (s : State) (e : Emission) (t q : Nat) (l : Bool) : (emitTo s e t q l).awaySends = s.awaySends := by unfold emitTo; split <;> rfl
@[simp] theorem emitTo_awayReqs (s : State) (e : Emission) (t q : Nat) (l : Bool) : (emitTo s e t q l).awayReqs = s.awayReqs := by unfold emitTo; split <;> rfl
@[simp] theorem emitTo_ethDrops (s : State) (e : Emission) (t q : Nat) (l : Bool) : (emitTo s e t q l).ethDrops = s.ethDrops := by unfold emitTo; split <;> rfl
@[simp] theorem emitTo_qps (s : State) (e : Emission) (t q : Nat) (l : Bool) : (emitTo s e t q l).qps = s.qps := by unfold emitTo; split <;> rfl
@[simp] theorem emitTo_regions (s : State) (e : Emission) (t q : Nat) (l : Bool) : (emitTo s e t q l).regions = s.regions := by unfold emitTo; split <;> rfl
@[simp] theorem emitTo_hdm (s : State) (e : Emission) (t q : Nat) (l : Bool) : (emitTo s e t q l).hdm = s.hdm := by unfold emitTo; split <;> rfl
@[simp] theorem emitTo_rasctl (s : State) (e : Emission) (t q : Nat) (l : Bool) : (emitTo s e t q l).rasctl = s.rasctl := by unfold emitTo; split <;> rfl
@[simp] theorem emitTo_rascnt (s : State) (e : Emission) (t q : Nat) (l : Bool) : (emitTo s e t q l).rascnt = s.rascnt := by unfold emitTo; split <;> rfl
@[simp] theorem emitTo_xtrig (s : State) (e : Emission) (t q : Nat) (l : Bool) : (emitTo s e t q l).xtrig = s.xtrig := by unfold emitTo; split <;> rfl
@[simp] theorem emitTo_msix (s : State) (e : Emission) (t q : Nat) (l : Bool) : (emitTo s e t q l).msix = s.msix := by unfold emitTo; split <;> rfl
@[simp] theorem emitTo_mgmt (s : State) (e : Emission) (t q : Nat) (l : Bool) : (emitTo s e t q l).mgmt = s.mgmt := by unfold emitTo; split <;> rfl
@[simp] theorem emitSys_cycle (s : State) (e : Emission) : (emitSys s e).cycle = s.cycle := by unfold emitSys; split <;> simp
@[simp] theorem emitSys_time (s : State) (e : Emission) : (emitSys s e).time = s.time := by unfold emitSys; split <;> simp
@[simp] theorem emitSys_agenda (s : State) (e : Emission) : (emitSys s e).agenda = s.agenda := by unfold emitSys; split <;> simp
@[simp] theorem emitSys_cur (s : State) (e : Emission) : (emitSys s e).cur = s.cur := by unfold emitSys; split <;> simp
@[simp] theorem emitSys_late (s : State) (e : Emission) : (emitSys s e).late = s.late := by unfold emitSys; split <;> simp
@[simp] theorem emitSys_lastRun (s : State) (e : Emission) : (emitSys s e).lastRun = s.lastRun := by unfold emitSys; split <;> simp
@[simp] theorem emitSys_tick (s : State) (e : Emission) : (emitSys s e).tick = s.tick := by unfold emitSys; split <;> simp
@[simp] theorem emitSys_devNo (s : State) (e : Emission) : (emitSys s e).devNo = s.devNo := by unfold emitSys; split <;> simp
@[simp] theorem emitSys_strands (s : State) (e : Emission) : (emitSys s e).strands = s.strands := by unfold emitSys; split <;> simp
@[simp] theorem emitSys_cores (s : State) (e : Emission) : (emitSys s e).cores = s.cores := by unfold emitSys; split <;> simp
@[simp] theorem emitSys_clusters (s : State) (e : Emission) : (emitSys s e).clusters = s.clusters := by unfold emitSys; split <;> simp
@[simp] theorem emitSys_ctxs (s : State) (e : Emission) : (emitSys s e).ctxs = s.ctxs := by unfold emitSys; split <;> simp
@[simp] theorem emitSys_mem (s : State) (e : Emission) : (emitSys s e).mem = s.mem := by unfold emitSys; split <;> simp
@[simp] theorem emitSys_poison (s : State) (e : Emission) : (emitSys s e).poison = s.poison := by unfold emitSys; split <;> simp
@[simp] theorem emitSys_joins (s : State) (e : Emission) : (emitSys s e).joins = s.joins := by unfold emitSys; split <;> simp
@[simp] theorem emitSys_joinNo (s : State) (e : Emission) : (emitSys s e).joinNo = s.joinNo := by unfold emitSys; split <;> simp
@[simp] theorem emitSys_kills (s : State) (e : Emission) : (emitSys s e).kills = s.kills := by unfold emitSys; split <;> simp
@[simp] theorem emitSys_childArr (s : State) (e : Emission) : (emitSys s e).childArr = s.childArr := by unfold emitSys; split <;> simp
@[simp] theorem emitSys_stalls (s : State) (e : Emission) : (emitSys s e).stalls = s.stalls := by unfold emitSys; split <;> simp
@[simp] theorem emitSys_lockQ (s : State) (e : Emission) : (emitSys s e).lockQ = s.lockQ := by unfold emitSys; split <;> simp
@[simp] theorem emitSys_reductions (s : State) (e : Emission) : (emitSys s e).reductions = s.reductions := by unfold emitSys; split <;> simp
@[simp] theorem emitSys_lastT (s : State) (e : Emission) : (emitSys s e).lastT = s.lastT := by unfold emitSys; split <;> simp
@[simp] theorem emitSys_lastGone (s : State) (e : Emission) : (emitSys s e).lastGone = s.lastGone := by unfold emitSys; split <;> simp
@[simp] theorem emitSys_lastFloor (s : State) (e : Emission) : (emitSys s e).lastFloor = s.lastFloor := by unfold emitSys; split <;> simp
@[simp] theorem emitSys_lastAsk (s : State) (e : Emission) : (emitSys s e).lastAsk = s.lastAsk := by unfold emitSys; split <;> simp
@[simp] theorem emitSys_launches (s : State) (e : Emission) : (emitSys s e).launches = s.launches := by unfold emitSys; split <;> simp
@[simp] theorem emitSys_launchNo (s : State) (e : Emission) : (emitSys s e).launchNo = s.launchNo := by unfold emitSys; split <;> simp
@[simp] theorem emitSys_rings (s : State) (e : Emission) : (emitSys s e).rings = s.rings := by unfold emitSys; split <;> simp
@[simp] theorem emitSys_ptp (s : State) (e : Emission) : (emitSys s e).ptp = s.ptp := by unfold emitSys; split <;> simp
@[simp] theorem emitSys_links (s : State) (e : Emission) : (emitSys s e).links = s.links := by unfold emitSys; split <;> simp
@[simp] theorem emitSys_unreach (s : State) (e : Emission) : (emitSys s e).unreach = s.unreach := by unfold emitSys; split <;> simp
@[simp] theorem emitSys_fabricQ (s : State) (e : Emission) : (emitSys s e).fabricQ = s.fabricQ := by unfold emitSys; split <;> simp
@[simp] theorem emitSys_awaySends (s : State) (e : Emission) : (emitSys s e).awaySends = s.awaySends := by unfold emitSys; split <;> simp
@[simp] theorem emitSys_awayReqs (s : State) (e : Emission) : (emitSys s e).awayReqs = s.awayReqs := by unfold emitSys; split <;> simp
@[simp] theorem emitSys_ethDrops (s : State) (e : Emission) : (emitSys s e).ethDrops = s.ethDrops := by unfold emitSys; split <;> simp
@[simp] theorem emitSys_qps (s : State) (e : Emission) : (emitSys s e).qps = s.qps := by unfold emitSys; split <;> simp
@[simp] theorem emitSys_regions (s : State) (e : Emission) : (emitSys s e).regions = s.regions := by unfold emitSys; split <;> simp
@[simp] theorem emitSys_hdm (s : State) (e : Emission) : (emitSys s e).hdm = s.hdm := by unfold emitSys; split <;> simp
@[simp] theorem emitSys_rasctl (s : State) (e : Emission) : (emitSys s e).rasctl = s.rasctl := by unfold emitSys; split <;> simp
@[simp] theorem emitSys_rascnt (s : State) (e : Emission) : (emitSys s e).rascnt = s.rascnt := by unfold emitSys; split <;> simp
@[simp] theorem emitSys_xtrig (s : State) (e : Emission) : (emitSys s e).xtrig = s.xtrig := by unfold emitSys; split <;> simp
@[simp] theorem emitSys_msix (s : State) (e : Emission) : (emitSys s e).msix = s.msix := by unfold emitSys; split <;> simp
@[simp] theorem emitSys_mgmt (s : State) (e : Emission) : (emitSys s e).mgmt = s.mgmt := by unfold emitSys; split <;> simp
@[simp] theorem emitOwn_cycle (s : State) (e : Emission) (t c : Nat) : (emitOwn s e t c).cycle = s.cycle := by unfold emitOwn; split <;> simp
@[simp] theorem emitOwn_time (s : State) (e : Emission) (t c : Nat) : (emitOwn s e t c).time = s.time := by unfold emitOwn; split <;> simp
@[simp] theorem emitOwn_agenda (s : State) (e : Emission) (t c : Nat) : (emitOwn s e t c).agenda = s.agenda := by unfold emitOwn; split <;> simp
@[simp] theorem emitOwn_cur (s : State) (e : Emission) (t c : Nat) : (emitOwn s e t c).cur = s.cur := by unfold emitOwn; split <;> simp
@[simp] theorem emitOwn_late (s : State) (e : Emission) (t c : Nat) : (emitOwn s e t c).late = s.late := by unfold emitOwn; split <;> simp
@[simp] theorem emitOwn_lastRun (s : State) (e : Emission) (t c : Nat) : (emitOwn s e t c).lastRun = s.lastRun := by unfold emitOwn; split <;> simp
@[simp] theorem emitOwn_tick (s : State) (e : Emission) (t c : Nat) : (emitOwn s e t c).tick = s.tick := by unfold emitOwn; split <;> simp
@[simp] theorem emitOwn_devNo (s : State) (e : Emission) (t c : Nat) : (emitOwn s e t c).devNo = s.devNo := by unfold emitOwn; split <;> simp
@[simp] theorem emitOwn_strands (s : State) (e : Emission) (t c : Nat) : (emitOwn s e t c).strands = s.strands := by unfold emitOwn; split <;> simp
@[simp] theorem emitOwn_cores (s : State) (e : Emission) (t c : Nat) : (emitOwn s e t c).cores = s.cores := by unfold emitOwn; split <;> simp
@[simp] theorem emitOwn_clusters (s : State) (e : Emission) (t c : Nat) : (emitOwn s e t c).clusters = s.clusters := by unfold emitOwn; split <;> simp
@[simp] theorem emitOwn_ctxs (s : State) (e : Emission) (t c : Nat) : (emitOwn s e t c).ctxs = s.ctxs := by unfold emitOwn; split <;> simp
@[simp] theorem emitOwn_mem (s : State) (e : Emission) (t c : Nat) : (emitOwn s e t c).mem = s.mem := by unfold emitOwn; split <;> simp
@[simp] theorem emitOwn_poison (s : State) (e : Emission) (t c : Nat) : (emitOwn s e t c).poison = s.poison := by unfold emitOwn; split <;> simp
@[simp] theorem emitOwn_joins (s : State) (e : Emission) (t c : Nat) : (emitOwn s e t c).joins = s.joins := by unfold emitOwn; split <;> simp
@[simp] theorem emitOwn_joinNo (s : State) (e : Emission) (t c : Nat) : (emitOwn s e t c).joinNo = s.joinNo := by unfold emitOwn; split <;> simp
@[simp] theorem emitOwn_kills (s : State) (e : Emission) (t c : Nat) : (emitOwn s e t c).kills = s.kills := by unfold emitOwn; split <;> simp
@[simp] theorem emitOwn_childArr (s : State) (e : Emission) (t c : Nat) : (emitOwn s e t c).childArr = s.childArr := by unfold emitOwn; split <;> simp
@[simp] theorem emitOwn_stalls (s : State) (e : Emission) (t c : Nat) : (emitOwn s e t c).stalls = s.stalls := by unfold emitOwn; split <;> simp
@[simp] theorem emitOwn_lockQ (s : State) (e : Emission) (t c : Nat) : (emitOwn s e t c).lockQ = s.lockQ := by unfold emitOwn; split <;> simp
@[simp] theorem emitOwn_reductions (s : State) (e : Emission) (t c : Nat) : (emitOwn s e t c).reductions = s.reductions := by unfold emitOwn; split <;> simp
@[simp] theorem emitOwn_lastT (s : State) (e : Emission) (t c : Nat) : (emitOwn s e t c).lastT = s.lastT := by unfold emitOwn; split <;> simp
@[simp] theorem emitOwn_lastGone (s : State) (e : Emission) (t c : Nat) : (emitOwn s e t c).lastGone = s.lastGone := by unfold emitOwn; split <;> simp
@[simp] theorem emitOwn_lastFloor (s : State) (e : Emission) (t c : Nat) : (emitOwn s e t c).lastFloor = s.lastFloor := by unfold emitOwn; split <;> simp
@[simp] theorem emitOwn_lastAsk (s : State) (e : Emission) (t c : Nat) : (emitOwn s e t c).lastAsk = s.lastAsk := by unfold emitOwn; split <;> simp
@[simp] theorem emitOwn_launches (s : State) (e : Emission) (t c : Nat) : (emitOwn s e t c).launches = s.launches := by unfold emitOwn; split <;> simp
@[simp] theorem emitOwn_launchNo (s : State) (e : Emission) (t c : Nat) : (emitOwn s e t c).launchNo = s.launchNo := by unfold emitOwn; split <;> simp
@[simp] theorem emitOwn_rings (s : State) (e : Emission) (t c : Nat) : (emitOwn s e t c).rings = s.rings := by unfold emitOwn; split <;> simp
@[simp] theorem emitOwn_ptp (s : State) (e : Emission) (t c : Nat) : (emitOwn s e t c).ptp = s.ptp := by unfold emitOwn; split <;> simp
@[simp] theorem emitOwn_links (s : State) (e : Emission) (t c : Nat) : (emitOwn s e t c).links = s.links := by unfold emitOwn; split <;> simp
@[simp] theorem emitOwn_unreach (s : State) (e : Emission) (t c : Nat) : (emitOwn s e t c).unreach = s.unreach := by unfold emitOwn; split <;> simp
@[simp] theorem emitOwn_fabricQ (s : State) (e : Emission) (t c : Nat) : (emitOwn s e t c).fabricQ = s.fabricQ := by unfold emitOwn; split <;> simp
@[simp] theorem emitOwn_awaySends (s : State) (e : Emission) (t c : Nat) : (emitOwn s e t c).awaySends = s.awaySends := by unfold emitOwn; split <;> simp
@[simp] theorem emitOwn_awayReqs (s : State) (e : Emission) (t c : Nat) : (emitOwn s e t c).awayReqs = s.awayReqs := by unfold emitOwn; split <;> simp
@[simp] theorem emitOwn_ethDrops (s : State) (e : Emission) (t c : Nat) : (emitOwn s e t c).ethDrops = s.ethDrops := by unfold emitOwn; split <;> simp
@[simp] theorem emitOwn_qps (s : State) (e : Emission) (t c : Nat) : (emitOwn s e t c).qps = s.qps := by unfold emitOwn; split <;> simp
@[simp] theorem emitOwn_regions (s : State) (e : Emission) (t c : Nat) : (emitOwn s e t c).regions = s.regions := by unfold emitOwn; split <;> simp
@[simp] theorem emitOwn_hdm (s : State) (e : Emission) (t c : Nat) : (emitOwn s e t c).hdm = s.hdm := by unfold emitOwn; split <;> simp
@[simp] theorem emitOwn_rasctl (s : State) (e : Emission) (t c : Nat) : (emitOwn s e t c).rasctl = s.rasctl := by unfold emitOwn; split <;> simp
@[simp] theorem emitOwn_rascnt (s : State) (e : Emission) (t c : Nat) : (emitOwn s e t c).rascnt = s.rascnt := by unfold emitOwn; split <;> simp
@[simp] theorem emitOwn_xtrig (s : State) (e : Emission) (t c : Nat) : (emitOwn s e t c).xtrig = s.xtrig := by unfold emitOwn; split <;> simp
@[simp] theorem emitOwn_msix (s : State) (e : Emission) (t c : Nat) : (emitOwn s e t c).msix = s.msix := by unfold emitOwn; split <;> simp
@[simp] theorem emitOwn_mgmt (s : State) (e : Emission) (t c : Nat) : (emitOwn s e t c).mgmt = s.mgmt := by unfold emitOwn; split <;> simp
@[simp] theorem emitBoth_cycle (s : State) (e : Emission) (t c : Nat) : (emitBoth s e t c).cycle = s.cycle := by
  simp only [emitBoth]; split
  · split <;> split <;> simp
  · rfl
@[simp] theorem emitBoth_time (s : State) (e : Emission) (t c : Nat) : (emitBoth s e t c).time = s.time := by
  simp only [emitBoth]; split
  · split <;> split <;> simp
  · rfl
@[simp] theorem emitBoth_agenda (s : State) (e : Emission) (t c : Nat) : (emitBoth s e t c).agenda = s.agenda := by
  simp only [emitBoth]; split
  · split <;> split <;> simp
  · rfl
@[simp] theorem emitBoth_cur (s : State) (e : Emission) (t c : Nat) : (emitBoth s e t c).cur = s.cur := by
  simp only [emitBoth]; split
  · split <;> split <;> simp
  · rfl
@[simp] theorem emitBoth_late (s : State) (e : Emission) (t c : Nat) : (emitBoth s e t c).late = s.late := by
  simp only [emitBoth]; split
  · split <;> split <;> simp
  · rfl
@[simp] theorem emitBoth_lastRun (s : State) (e : Emission) (t c : Nat) : (emitBoth s e t c).lastRun = s.lastRun := by
  simp only [emitBoth]; split
  · split <;> split <;> simp
  · rfl
@[simp] theorem emitBoth_tick (s : State) (e : Emission) (t c : Nat) : (emitBoth s e t c).tick = s.tick := by
  simp only [emitBoth]; split
  · split <;> split <;> simp
  · rfl
@[simp] theorem emitBoth_devNo (s : State) (e : Emission) (t c : Nat) : (emitBoth s e t c).devNo = s.devNo := by
  simp only [emitBoth]; split
  · split <;> split <;> simp
  · rfl
@[simp] theorem emitBoth_strands (s : State) (e : Emission) (t c : Nat) : (emitBoth s e t c).strands = s.strands := by
  simp only [emitBoth]; split
  · split <;> split <;> simp
  · rfl
@[simp] theorem emitBoth_cores (s : State) (e : Emission) (t c : Nat) : (emitBoth s e t c).cores = s.cores := by
  simp only [emitBoth]; split
  · split <;> split <;> simp
  · rfl
@[simp] theorem emitBoth_clusters (s : State) (e : Emission) (t c : Nat) : (emitBoth s e t c).clusters = s.clusters := by
  simp only [emitBoth]; split
  · split <;> split <;> simp
  · rfl
@[simp] theorem emitBoth_ctxs (s : State) (e : Emission) (t c : Nat) : (emitBoth s e t c).ctxs = s.ctxs := by
  simp only [emitBoth]; split
  · split <;> split <;> simp
  · rfl
@[simp] theorem emitBoth_mem (s : State) (e : Emission) (t c : Nat) : (emitBoth s e t c).mem = s.mem := by
  simp only [emitBoth]; split
  · split <;> split <;> simp
  · rfl
@[simp] theorem emitBoth_poison (s : State) (e : Emission) (t c : Nat) : (emitBoth s e t c).poison = s.poison := by
  simp only [emitBoth]; split
  · split <;> split <;> simp
  · rfl
@[simp] theorem emitBoth_joins (s : State) (e : Emission) (t c : Nat) : (emitBoth s e t c).joins = s.joins := by
  simp only [emitBoth]; split
  · split <;> split <;> simp
  · rfl
@[simp] theorem emitBoth_joinNo (s : State) (e : Emission) (t c : Nat) : (emitBoth s e t c).joinNo = s.joinNo := by
  simp only [emitBoth]; split
  · split <;> split <;> simp
  · rfl
@[simp] theorem emitBoth_kills (s : State) (e : Emission) (t c : Nat) : (emitBoth s e t c).kills = s.kills := by
  simp only [emitBoth]; split
  · split <;> split <;> simp
  · rfl
@[simp] theorem emitBoth_childArr (s : State) (e : Emission) (t c : Nat) : (emitBoth s e t c).childArr = s.childArr := by
  simp only [emitBoth]; split
  · split <;> split <;> simp
  · rfl
@[simp] theorem emitBoth_stalls (s : State) (e : Emission) (t c : Nat) : (emitBoth s e t c).stalls = s.stalls := by
  simp only [emitBoth]; split
  · split <;> split <;> simp
  · rfl
@[simp] theorem emitBoth_lockQ (s : State) (e : Emission) (t c : Nat) : (emitBoth s e t c).lockQ = s.lockQ := by
  simp only [emitBoth]; split
  · split <;> split <;> simp
  · rfl
@[simp] theorem emitBoth_reductions (s : State) (e : Emission) (t c : Nat) : (emitBoth s e t c).reductions = s.reductions := by
  simp only [emitBoth]; split
  · split <;> split <;> simp
  · rfl
@[simp] theorem emitBoth_lastT (s : State) (e : Emission) (t c : Nat) : (emitBoth s e t c).lastT = s.lastT := by
  simp only [emitBoth]; split
  · split <;> split <;> simp
  · rfl
@[simp] theorem emitBoth_lastGone (s : State) (e : Emission) (t c : Nat) : (emitBoth s e t c).lastGone = s.lastGone := by
  simp only [emitBoth]; split
  · split <;> split <;> simp
  · rfl
@[simp] theorem emitBoth_lastFloor (s : State) (e : Emission) (t c : Nat) : (emitBoth s e t c).lastFloor = s.lastFloor := by
  simp only [emitBoth]; split
  · split <;> split <;> simp
  · rfl
@[simp] theorem emitBoth_lastAsk (s : State) (e : Emission) (t c : Nat) : (emitBoth s e t c).lastAsk = s.lastAsk := by
  simp only [emitBoth]; split
  · split <;> split <;> simp
  · rfl
@[simp] theorem emitBoth_launches (s : State) (e : Emission) (t c : Nat) : (emitBoth s e t c).launches = s.launches := by
  simp only [emitBoth]; split
  · split <;> split <;> simp
  · rfl
@[simp] theorem emitBoth_launchNo (s : State) (e : Emission) (t c : Nat) : (emitBoth s e t c).launchNo = s.launchNo := by
  simp only [emitBoth]; split
  · split <;> split <;> simp
  · rfl
@[simp] theorem emitBoth_rings (s : State) (e : Emission) (t c : Nat) : (emitBoth s e t c).rings = s.rings := by
  simp only [emitBoth]; split
  · split <;> split <;> simp
  · rfl
@[simp] theorem emitBoth_ptp (s : State) (e : Emission) (t c : Nat) : (emitBoth s e t c).ptp = s.ptp := by
  simp only [emitBoth]; split
  · split <;> split <;> simp
  · rfl
@[simp] theorem emitBoth_links (s : State) (e : Emission) (t c : Nat) : (emitBoth s e t c).links = s.links := by
  simp only [emitBoth]; split
  · split <;> split <;> simp
  · rfl
@[simp] theorem emitBoth_unreach (s : State) (e : Emission) (t c : Nat) : (emitBoth s e t c).unreach = s.unreach := by
  simp only [emitBoth]; split
  · split <;> split <;> simp
  · rfl
@[simp] theorem emitBoth_fabricQ (s : State) (e : Emission) (t c : Nat) : (emitBoth s e t c).fabricQ = s.fabricQ := by
  simp only [emitBoth]; split
  · split <;> split <;> simp
  · rfl
@[simp] theorem emitBoth_awaySends (s : State) (e : Emission) (t c : Nat) : (emitBoth s e t c).awaySends = s.awaySends := by
  simp only [emitBoth]; split
  · split <;> split <;> simp
  · rfl
@[simp] theorem emitBoth_awayReqs (s : State) (e : Emission) (t c : Nat) : (emitBoth s e t c).awayReqs = s.awayReqs := by
  simp only [emitBoth]; split
  · split <;> split <;> simp
  · rfl
@[simp] theorem emitBoth_ethDrops (s : State) (e : Emission) (t c : Nat) : (emitBoth s e t c).ethDrops = s.ethDrops := by
  simp only [emitBoth]; split
  · split <;> split <;> simp
  · rfl
@[simp] theorem emitBoth_qps (s : State) (e : Emission) (t c : Nat) : (emitBoth s e t c).qps = s.qps := by
  simp only [emitBoth]; split
  · split <;> split <;> simp
  · rfl
@[simp] theorem emitBoth_regions (s : State) (e : Emission) (t c : Nat) : (emitBoth s e t c).regions = s.regions := by
  simp only [emitBoth]; split
  · split <;> split <;> simp
  · rfl
@[simp] theorem emitBoth_hdm (s : State) (e : Emission) (t c : Nat) : (emitBoth s e t c).hdm = s.hdm := by
  simp only [emitBoth]; split
  · split <;> split <;> simp
  · rfl
@[simp] theorem emitBoth_rasctl (s : State) (e : Emission) (t c : Nat) : (emitBoth s e t c).rasctl = s.rasctl := by
  simp only [emitBoth]; split
  · split <;> split <;> simp
  · rfl
@[simp] theorem emitBoth_rascnt (s : State) (e : Emission) (t c : Nat) : (emitBoth s e t c).rascnt = s.rascnt := by
  simp only [emitBoth]; split
  · split <;> split <;> simp
  · rfl
@[simp] theorem emitBoth_xtrig (s : State) (e : Emission) (t c : Nat) : (emitBoth s e t c).xtrig = s.xtrig := by
  simp only [emitBoth]; split
  · split <;> split <;> simp
  · rfl
@[simp] theorem emitBoth_msix (s : State) (e : Emission) (t c : Nat) : (emitBoth s e t c).msix = s.msix := by
  simp only [emitBoth]; split
  · split <;> split <;> simp
  · rfl
@[simp] theorem emitBoth_mgmt (s : State) (e : Emission) (t c : Nat) : (emitBoth s e t c).mgmt = s.mgmt := by
  simp only [emitBoth]; split
  · split <;> split <;> simp
  · rfl
@[simp] theorem emitStrand_cycle (s : State) (k c : Nat) (p : List Nat) : (emitStrand s k c p).cycle = s.cycle := by simp [emitStrand]
@[simp] theorem emitStrand_time (s : State) (k c : Nat) (p : List Nat) : (emitStrand s k c p).time = s.time := by simp [emitStrand]
@[simp] theorem emitStrand_agenda (s : State) (k c : Nat) (p : List Nat) : (emitStrand s k c p).agenda = s.agenda := by simp [emitStrand]
@[simp] theorem emitStrand_cur (s : State) (k c : Nat) (p : List Nat) : (emitStrand s k c p).cur = s.cur := by simp [emitStrand]
@[simp] theorem emitStrand_late (s : State) (k c : Nat) (p : List Nat) : (emitStrand s k c p).late = s.late := by simp [emitStrand]
@[simp] theorem emitStrand_lastRun (s : State) (k c : Nat) (p : List Nat) : (emitStrand s k c p).lastRun = s.lastRun := by simp [emitStrand]
@[simp] theorem emitStrand_tick (s : State) (k c : Nat) (p : List Nat) : (emitStrand s k c p).tick = s.tick := by simp [emitStrand]
@[simp] theorem emitStrand_devNo (s : State) (k c : Nat) (p : List Nat) : (emitStrand s k c p).devNo = s.devNo := by simp [emitStrand]
@[simp] theorem emitStrand_strands (s : State) (k c : Nat) (p : List Nat) : (emitStrand s k c p).strands = s.strands := by simp [emitStrand]
@[simp] theorem emitStrand_cores (s : State) (k c : Nat) (p : List Nat) : (emitStrand s k c p).cores = s.cores := by simp [emitStrand]
@[simp] theorem emitStrand_clusters (s : State) (k c : Nat) (p : List Nat) : (emitStrand s k c p).clusters = s.clusters := by simp [emitStrand]
@[simp] theorem emitStrand_ctxs (s : State) (k c : Nat) (p : List Nat) : (emitStrand s k c p).ctxs = s.ctxs := by simp [emitStrand]
@[simp] theorem emitStrand_mem (s : State) (k c : Nat) (p : List Nat) : (emitStrand s k c p).mem = s.mem := by simp [emitStrand]
@[simp] theorem emitStrand_poison (s : State) (k c : Nat) (p : List Nat) : (emitStrand s k c p).poison = s.poison := by simp [emitStrand]
@[simp] theorem emitStrand_joins (s : State) (k c : Nat) (p : List Nat) : (emitStrand s k c p).joins = s.joins := by simp [emitStrand]
@[simp] theorem emitStrand_joinNo (s : State) (k c : Nat) (p : List Nat) : (emitStrand s k c p).joinNo = s.joinNo := by simp [emitStrand]
@[simp] theorem emitStrand_kills (s : State) (k c : Nat) (p : List Nat) : (emitStrand s k c p).kills = s.kills := by simp [emitStrand]
@[simp] theorem emitStrand_childArr (s : State) (k c : Nat) (p : List Nat) : (emitStrand s k c p).childArr = s.childArr := by simp [emitStrand]
@[simp] theorem emitStrand_stalls (s : State) (k c : Nat) (p : List Nat) : (emitStrand s k c p).stalls = s.stalls := by simp [emitStrand]
@[simp] theorem emitStrand_lockQ (s : State) (k c : Nat) (p : List Nat) : (emitStrand s k c p).lockQ = s.lockQ := by simp [emitStrand]
@[simp] theorem emitStrand_reductions (s : State) (k c : Nat) (p : List Nat) : (emitStrand s k c p).reductions = s.reductions := by simp [emitStrand]
@[simp] theorem emitStrand_lastT (s : State) (k c : Nat) (p : List Nat) : (emitStrand s k c p).lastT = s.lastT := by simp [emitStrand]
@[simp] theorem emitStrand_lastGone (s : State) (k c : Nat) (p : List Nat) : (emitStrand s k c p).lastGone = s.lastGone := by simp [emitStrand]
@[simp] theorem emitStrand_lastFloor (s : State) (k c : Nat) (p : List Nat) : (emitStrand s k c p).lastFloor = s.lastFloor := by simp [emitStrand]
@[simp] theorem emitStrand_lastAsk (s : State) (k c : Nat) (p : List Nat) : (emitStrand s k c p).lastAsk = s.lastAsk := by simp [emitStrand]
@[simp] theorem emitStrand_launches (s : State) (k c : Nat) (p : List Nat) : (emitStrand s k c p).launches = s.launches := by simp [emitStrand]
@[simp] theorem emitStrand_launchNo (s : State) (k c : Nat) (p : List Nat) : (emitStrand s k c p).launchNo = s.launchNo := by simp [emitStrand]
@[simp] theorem emitStrand_rings (s : State) (k c : Nat) (p : List Nat) : (emitStrand s k c p).rings = s.rings := by simp [emitStrand]
@[simp] theorem emitStrand_ptp (s : State) (k c : Nat) (p : List Nat) : (emitStrand s k c p).ptp = s.ptp := by simp [emitStrand]
@[simp] theorem emitStrand_links (s : State) (k c : Nat) (p : List Nat) : (emitStrand s k c p).links = s.links := by simp [emitStrand]
@[simp] theorem emitStrand_unreach (s : State) (k c : Nat) (p : List Nat) : (emitStrand s k c p).unreach = s.unreach := by simp [emitStrand]
@[simp] theorem emitStrand_fabricQ (s : State) (k c : Nat) (p : List Nat) : (emitStrand s k c p).fabricQ = s.fabricQ := by simp [emitStrand]
@[simp] theorem emitStrand_awaySends (s : State) (k c : Nat) (p : List Nat) : (emitStrand s k c p).awaySends = s.awaySends := by simp [emitStrand]
@[simp] theorem emitStrand_awayReqs (s : State) (k c : Nat) (p : List Nat) : (emitStrand s k c p).awayReqs = s.awayReqs := by simp [emitStrand]
@[simp] theorem emitStrand_ethDrops (s : State) (k c : Nat) (p : List Nat) : (emitStrand s k c p).ethDrops = s.ethDrops := by simp [emitStrand]
@[simp] theorem emitStrand_qps (s : State) (k c : Nat) (p : List Nat) : (emitStrand s k c p).qps = s.qps := by simp [emitStrand]
@[simp] theorem emitStrand_regions (s : State) (k c : Nat) (p : List Nat) : (emitStrand s k c p).regions = s.regions := by simp [emitStrand]
@[simp] theorem emitStrand_hdm (s : State) (k c : Nat) (p : List Nat) : (emitStrand s k c p).hdm = s.hdm := by simp [emitStrand]
@[simp] theorem emitStrand_rasctl (s : State) (k c : Nat) (p : List Nat) : (emitStrand s k c p).rasctl = s.rasctl := by simp [emitStrand]
@[simp] theorem emitStrand_rascnt (s : State) (k c : Nat) (p : List Nat) : (emitStrand s k c p).rascnt = s.rascnt := by simp [emitStrand]
@[simp] theorem emitStrand_xtrig (s : State) (k c : Nat) (p : List Nat) : (emitStrand s k c p).xtrig = s.xtrig := by simp [emitStrand]
@[simp] theorem emitStrand_msix (s : State) (k c : Nat) (p : List Nat) : (emitStrand s k c p).msix = s.msix := by simp [emitStrand]
@[simp] theorem emitStrand_mgmt (s : State) (k c : Nat) (p : List Nat) : (emitStrand s k c p).mgmt = s.mgmt := by simp [emitStrand]
@[simp] theorem getStrand_emitStrand (s : State) (k c : Nat) (p : List Nat) (j : Nat) : getStrand (emitStrand s k c p) j = getStrand s j := by simp [getStrand]
@[simp] theorem getCore_emitStrand (s : State) (k c : Nat) (p : List Nat) (j : Nat) : getCore (emitStrand s k c p) j = getCore s j := by simp [getCore]
@[simp] theorem getCluster_emitStrand (s : State) (k c : Nat) (p : List Nat) (j : Nat) : getCluster (emitStrand s k c p) j = getCluster s j := by simp [getCluster]
@[simp] theorem getCtx_emitStrand (s : State) (k c : Nat) (p : List Nat) (j : Nat) : getCtx (emitStrand s k c p) j = getCtx s j := by simp [getCtx]
@[simp] theorem me_emitStrand (s : State) (k c : Nat) (p : List Nat) : me (emitStrand s k c p) = me s := by simp [me]

/-! ### One bit of a status word -/

theorem setBits_bit (n i : Nat) (b : Bool) (hn : n < 2 ^ 64) (hi : i < 64) (j : Nat) :
    (BitVec.ofNat 64 (setBits n i 1 (bnat b))).getLsbD j = if j = i then b else (BitVec.ofNat 64 n).getLsbD j := by
  have hsplit : setBits n i 1 (bnat b) = n / 2 ^ (i + 1) * 2 ^ (i + 1) + bnat b * 2 ^ i + n % 2 ^ i := by
    have h1 : n = n / 2 ^ i * 2 ^ i + n % 2 ^ i := (Nat.div_add_mod' n (2 ^ i)).symm
    have h2 : n / 2 ^ i = n / 2 ^ (i + 1) * 2 + n / 2 ^ i % 2 := by
      rw [Nat.pow_succ, ← Nat.div_div_eq_div_mul]; omega
    have hb : bnat b < 2 := by cases b <;> simp [bnat]
    have h3 : n / 2 ^ (i + 1) * 2 ^ (i + 1) = n / 2 ^ (i + 1) * 2 * 2 ^ i := by rw [Nat.pow_succ, Nat.mul_comm (2 ^ i) 2, ← Nat.mul_assoc]
    simp only [setBits, bits, Nat.pow_one, Nat.mod_eq_of_lt hb]
    have h4 : n / 2 ^ i * 2 ^ i = n / 2 ^ (i + 1) * 2 * 2 ^ i + n / 2 ^ i % 2 * 2 ^ i := by
      rw [← Nat.add_mul, ← h2]
    omega
  have hb : bnat b < 2 := by cases b <;> simp [bnat]
  have hlow : n % 2 ^ i < 2 ^ i := Nat.mod_lt _ (Nat.two_pow_pos i)
  have hval : bnat b * 2 ^ i + n % 2 ^ i < 2 ^ (i + 1) := by
    rw [Nat.pow_succ]
    rcases (by omega : bnat b = 0 ∨ bnat b = 1) with h | h <;> rw [h] <;> omega
  have hlt : setBits n i 1 (bnat b) < 2 ^ 64 := by
    rw [hsplit]
    have : n / 2 ^ (i + 1) < 2 ^ (63 - i) := by
      rw [Nat.div_lt_iff_lt_mul (Nat.two_pow_pos _), ← Nat.pow_add, show 63 - i + (i + 1) = 64 by omega]; exact hn
    have h5 : (n / 2 ^ (i + 1) + 1) * 2 ^ (i + 1) ≤ 2 ^ (63 - i) * 2 ^ (i + 1) := Nat.mul_le_mul_right _ this
    rw [← Nat.pow_add, show 63 - i + (i + 1) = 64 by omega, Nat.add_mul] at h5
    omega
  by_cases hj : j < 64
  · rw [BitVec.getLsbD_ofNat, BitVec.getLsbD_ofNat, hsplit, Nat.add_assoc]
    simp only [hj, decide_true, Bool.true_and]
    rw [Nat.mul_comm, Nat.testBit_two_pow_mul_add _ hval]
    by_cases h : j = i
    · subst h
      rw [if_pos (by omega), if_pos rfl]
      rw [Nat.mul_comm, Nat.testBit_two_pow_mul_add _ hlow, if_neg (by omega)]
      cases b <;> simp [bnat]
    · rw [if_neg h]
      by_cases h2 : j < i
      · rw [if_pos (by omega), Nat.mul_comm, Nat.testBit_two_pow_mul_add _ hlow, if_pos h2, Nat.testBit_mod_two_pow]
        simp [h2]
      · rw [if_neg (by omega), Nat.testBit_div_two_pow]
        congr 1; omega
  · rw [BitVec.getLsbD_of_ge _ _ (by omega), BitVec.getLsbD_of_ge _ _ (by omega), if_neg (by omega)]

theorem setBits_word_lt (w : Word) (i : Nat) (b : Bool) (hi : i < 64) : setBits w.toNat i 1 (bnat b) < 2 ^ 64 := by
  have hb : bnat b < 2 := by cases b <;> simp [bnat]
  have hn := w.isLt
  simp only [setBits, bits, Nat.pow_one, Nat.mod_eq_of_lt hb]
  generalize w.toNat = n at *
  have h1 : n = n / 2 ^ i * 2 ^ i + n % 2 ^ i := (Nat.div_add_mod' n (2 ^ i)).symm
  have h4 : n / 2 ^ i * 2 ^ i = n / 2 ^ i / 2 * 2 * 2 ^ i + n / 2 ^ i % 2 * 2 ^ i := by
    rw [← Nat.add_mul]; congr 1; omega
  have hlow : n % 2 ^ i < 2 ^ i := Nat.mod_lt _ (Nat.two_pow_pos i)
  have : n / 2 ^ i / 2 < 2 ^ (63 - i) := by
    rw [Nat.div_div_eq_div_mul, ← Nat.pow_succ, Nat.div_lt_iff_lt_mul (Nat.two_pow_pos _), ← Nat.pow_add, show 63 - i + (i + 1) = 64 by omega]; exact hn
  have h5 : (n / 2 ^ i / 2 + 1) * (2 * 2 ^ i) ≤ 2 ^ (63 - i) * (2 * 2 ^ i) := Nat.mul_le_mul_right _ this
  have h6 : 2 ^ (63 - i) * (2 * 2 ^ i) = 2 ^ 64 := by rw [← Nat.pow_succ', ← Nat.pow_add, show 63 - i + (i + 1) = 64 by omega]
  rw [h6, Nat.add_mul, ← Nat.mul_assoc] at h5
  rcases (by omega : bnat b = 0 ∨ bnat b = 1) with h | h <;> rw [h] <;> omega

/-- One bit of a word replaced, in terms of its bits. -/
theorem word_setBits (w : Word) (i : Nat) (b : Bool) (hi : i < 64) (j : Nat) :
    (BitVec.ofNat 64 (setBits w.toNat i 1 (bnat b))).getLsbD j = if j = i then b else w.getLsbD j := by
  rw [setBits_bit _ _ _ w.isLt hi]; simp

theorem setBits_ofNat (n i : Nat) (b : Bool) (h : n < 2 ^ 64) : setBits n i 1 (bnat b) = setBits (BitVec.ofNat 64 n).toNat i 1 (bnat b) := by
  rw [BitVec.toNat_ofNat, Nat.mod_eq_of_lt h]

/-! ### Trap entry -/

/-- What trap entry does to a strand of the machine. -/
theorem enterTrap_strand (s : State) (k : Nat) (cause tv epc : Word) :
    ∃ st : Word, (∀ j, st.getLsbD j = if j = 0 then true else if j = 2 then false else if j = 3 then stPriv (getStrand s k)
        else if j = 4 then stIE (getStrand s k) else (getStrand s k).status.getLsbD j) ∧
      getStrand (enterTrap s k cause tv epc) k =
        { getStrand s k with
          cause := cause, epc := epc, tval := tv, status := st, shadow := (getStrand s k).loops, loops := [], rbuf := [], rbufOver := false, rbufOk := false
          entered := true, pc := (getStrand s k).tvec &&& ~~~ 3#64, wait := none, long := none } := by
  refine ⟨_, ?_, by simp only [enterTrap, getStrand_emitStrand, getStrand_modStrand_self]; rfl⟩
  intro j
  generalize hw : (getStrand s k).status = w
  have h4 := setBits_word_lt w 4 (stIE (getStrand s k)) (by omega)
  have h3 := setBits_word_lt (BitVec.ofNat 64 (setBits w.toNat 4 1 (bnat (stIE (getStrand s k))))) 3 (stPriv (getStrand s k)) (by omega)
  rw [← setBits_ofNat _ _ _ h4] at h3
  have h2 := setBits_word_lt (BitVec.ofNat 64 (setBits (setBits w.toNat 4 1 (bnat (stIE (getStrand s k)))) 3 1 (bnat (stPriv (getStrand s k))))) 2 false (by omega)
  rw [← setBits_ofNat _ _ _ h3] at h2
  have e1 := setBits_bit _ 0 true h2 (by omega) j
  have e2 := setBits_bit _ 2 false h3 (by omega) j
  have e3 := setBits_bit _ 3 (stPriv (getStrand s k)) h4 (by omega) j
  have e4 := setBits_bit _ 4 (stIE (getStrand s k)) w.isLt (by omega) j
  simp only [bnat, if_true, Bool.false_eq_true, if_false] at *
  rw [e1, e2, e3, e4]
  by_cases h0 : j = 0
  · simp [h0]
  · by_cases h2 : j = 2
    · simp [h2]
    · by_cases h3 : j = 3 <;> by_cases h4 : j = 4 <;> simp [h0, h2, h3, h4]

@[simp] theorem enterTrap_mem (s : State) (k : Nat) (cause tv epc : Word) : (enterTrap s k cause tv epc).mem = s.mem := by simp [enterTrap]
@[simp] theorem enterTrap_cur (s : State) (k : Nat) (cause tv epc : Word) : (enterTrap s k cause tv epc).cur = s.cur := by simp [enterTrap]

theorem enterTrap_other (s : State) (k j : Nat) (cause tv epc : Word) (h : j ≠ k) :
    getStrand (enterTrap s k cause tv epc) j = getStrand s j := by simp [enterTrap, getStrand_modStrand, Ne.symm h]

/-- Trap entry of the strand `cur` is what R227 says. -/
theorem enterTrap_entered (s : State) (cause tv epc : Word) : TrapEntered s (enterTrap s s.cur cause tv epc) cause tv epc := by
  obtain ⟨st, hst, h⟩ := enterTrap_strand s s.cur cause tv epc
  have hm : me (enterTrap s s.cur cause tv epc) = getStrand (enterTrap s s.cur cause tv epc) s.cur := by simp [me]
  rw [← hm] at h
  exact {
    cause := by rw [h], tval := by rw [h], epc := by rw [h], pc := by rw [h]; rfl
    level := by rw [h]; exact hst 0
    enable := by rw [h]; exact hst 2
    savedLevel := by rw [h]; exact hst 3
    savedEnable := by rw [h]; exact hst 4
    status := by intro j h0 h2 h3 h4; rw [h]; simp [hst, h0, h2, h3, h4, me]
    loops := by rw [h], shadow := by rw [h]; rfl
    scalar := by intro r; rw [h]; rfl
    guards := by intro r; rw [h]; rfl
    masks := by intro r; rw [h]; rfl
    vectors := by intro r; rw [h]; rfl
    counters := by intro r; rw [h]; rfl
    strands := fun k hk => enterTrap_other _ _ _ _ _ _ hk
    memory := by intro a; rw [enterTrap_mem] }

/-- A ready instruction whose body traps, with a cause that reports no memory error, enters the trap precisely. -/
theorem issue_trap {i : Instr} {c : Common} {s : State} (h : Ready i c s) (hq : (me s).vtabQ = []) {body : State → Res} {cause tv : Nat}
    (hb : body (opened i c s) = .trap cause tv) (h5 : cause ≠ 5) (h6 : cause ≠ 6) (he : cause ≠ 0xE) :
    ∃ t, issue i c s body = .next t ∧ TrapEntered s t (BitVec.ofNat 64 cause) (BitVec.ofNat 64 tv) (me s).pc := by
  refine ⟨_, issue_ready h _, ?_⟩
  have hw : waitIssued (me s) = false := by simp [waitIssued, h.noWait]
  rw [hb]
  have hmod : (modMe s fun x => if waitIssued x then setDown x c else x) = modMe s fun x => x := by
    simp only [modMe, modStrand]
    rw [if_neg (by rw [show getStrand s s.cur = me s from rfl, hw]; simp)]
  simp only [settle, trapOr, hmod]
  have hq' : (getStrand s s.cur).vtabQ = [] := hq
  have := enterTrap_entered (modMe s fun x => x) (BitVec.ofNat 64 cause) (BitVec.ofNat 64 tv) (me s).pc
  simp only [hq', if_true, he, if_false, h5, h6, or_self]
  have hid : me (modMe s fun x => x) = me s := by simp
  have hg : ∀ k, getStrand (modMe s fun x => x) k = getStrand s k := by
    intro k; simp only [modMe, getStrand_modStrand]; split
    · subst_vars; rfl
    · rfl
  exact {
    cause := this.cause, tval := this.tval, epc := this.epc, pc := hid ▸ this.pc, level := this.level, enable := this.enable
    savedLevel := hid ▸ this.savedLevel, savedEnable := hid ▸ this.savedEnable, status := hid ▸ this.status, loops := this.loops
    shadow := hid ▸ this.shadow, scalar := hid ▸ this.scalar, guards := hid ▸ this.guards, masks := hid ▸ this.masks
    vectors := hid ▸ this.vectors, counters := hid ▸ this.counters, strands := fun k hk => (this.strands k hk).trans (hg k), memory := this.memory }

end Sys2Proof.Machine
end

