-- ==== Sys2Proof/Tests/Slice0.lean ====
section
/-!
SUPPORT. Checks of the model on small cases: ill-formed terms, words written out from the spec, one concrete input that meets the hypotheses of each
clause of each statement, and single steps whose results are the spec's.
-/
open Sys2Proof Sys2Proof.Machine Sys2Proof.Claims

namespace Sys2Proof.Tests

set_option Elab.async false

/-! ### Terms that stand for no encoding -/

def c64 : Common := plainFields .l64
def c96 : Common := plainFields .l96
def c128 : Common := plainFields .l128
def gather0 : Gather := ⟨1, 2, 3, .w32, false, 2, .glob, false, false, 0⟩

theorem test_wf_accepts : [Instr.add c64 1 2 3, .addi c96 1 2 0x10000, .li c128 (.s 4) 7, .nop c64, .nop c96, .nop c128, .ldg c96 .f32 2 3 4 9 gather0,
    .vcvt c64 .f32 .bf16 false 1 0 1 2, .vdist c64 .ham .bit false 6 0 0 5 1 2, .mma c128 1 4 .glob 0 0 48, .rdrem c96 1 2 3 8 1].all Instr.wf = true := by decide

theorem test_wf_set_reserved : (Instr.nop { c64 with set := 6 }).wf = false := by decide
theorem test_wf_length : [Instr.add c96 1 2 3, .li c64 (.s 4) 7, .copy c64 1 2 .glob, .mma c96 1 4 .glob 0 0 48, .addi c128 1 2 0,
    .vbcast c96 (.reg 1) .f32 false 0 1].any Instr.wf = false := by decide
theorem test_wf_short_fields : [Instr.addi c64 1 2 0x10000, .ld c64 .s8 .own 1 2 0x1000, .recv c64 1 2 3 0x20000, .jwait c64 1 2 3 0x20000,
    .vbcast c64 (.imm 0x1000) .f32 false 0 1, .vbcast c96 (.imm 0x80000000) .f32 false 0 1, .loop c64 (.s 1) 0 0 1024].any Instr.wf = false := by decide
theorem test_wf_loop : [Instr.loop c64 (.s 1) 0 5 4, .loop c64 (.s 1) 0 0 0].any Instr.wf = false := by decide
theorem test_wf_types : [Instr.fcvt c64 .gbf .f32 1 2, .fcvt c64 .f32 .bit 1 2, .ld c64 .bit .glob 1 2 0, .stv c64 .gbf .glob 0 1 2 0, .vand c64 .f32 false 0 1 2 3,
    .vshl c64 .bf16 false 0 1 2 3, .vsel c64 .gbf 0 1 2 3, .vredmax c64 .bit 0 1 2 3, .vext c64 .mxi8 1 2 3, .vtab c64 .s32 false 0 0 1 2,
    .amo c64 .and .f32 .device .glob 0 1 2 3, .amo c64 .add .s16 .device .glob 0 1 2 3, .cas c64 .f32 .device .glob 1 2 3 4].any Instr.wf = false := by decide
theorem test_wf_saturation : [Instr.vadd c64 .f32 false true 0 1 2 3, .vredsum c64 .bf16 true 0 1 2].any Instr.wf = false := by decide
theorem test_wf_gather : [Instr.ldg c96 .f32 2 3 4 9 { gather0 with scl := 7 }, .ldg c96 .f32 2 3 4 9 { gather0 with nbnd := true },
    .stg c96 .f32 2 3 4 9 { gather0 with fill := true }, .stg c96 .f32 2 3 4 9 { gather0 with fr := 1 }].any Instr.wf = false := by decide
theorem test_wf_scope : (Instr.icinv c64 .cascade 1 2).wf = false := by decide
theorem test_wf_compare : (Instr.vcmp c64 .un .s16 0 1 2 3 4).wf = false := by decide
theorem test_wf_part : (Instr.vcvt c64 .f32 .bf16 false 2 0 1 2).wf = false := by decide
theorem test_wf_pack : [Instr.vpack c64 .s64 4 0 7 6 3 0 0, .vpack c64 .f16 1 0 7 6 3 0 0, .vpack c64 .f16 9 0 7 6 3 0 0, .vpack c64 .f16 4 0 7 6 3 1 0,
    .vpack c64 .f16 4 0 7 6 3 0 1, .vunpack c64 .s64 4 false false 0 6 3 0, .vunpack c64 .f16 1 false false 0 6 3 0,
    .vunpack c64 .f16 4 false true 0 6 3 0].any Instr.wf = false := by decide
theorem test_wf_move : [Instr.vperm c64 false .f32 false 0 1 2 3 4, .vbcast c64 (.lane 1 16) .f32 false 0 1].any Instr.wf = false := by decide
theorem test_wf_distance : [Instr.vdist c64 .l2 .s32 false 2 0 0 5 1 2, .vdist c64 .l2 .s8 false 1 0 0 5 1 2, .vdist c64 .l2 .s16 false 6 0 0 5 1 2,
    .vdist c64 .ham .s8 false 2 0 0 5 1 2].any Instr.wf = false := by decide
theorem test_wf_stream : [Instr.vstrm c96 true .s32 0 .glob .glob 1 2 3, .vstrm c96 false .gbf 0 .glob .glob 1 2 0, .vstrm c96 false .f32 4 .glob .glob 1 2 0,
    .vstrm c96 false .f32 0 .glob .glob 1 2 3].any Instr.wf = false := by decide
theorem test_wf_matrix : [Instr.wld c128 6 .glob true 0 0 0, .wld c128 6 .glob true 81 0 0, .mma c128 1 4 .glob 0 0 0, .mma c128 1 4 .glob 0 0 49,
    .mmaG c128 0 4 5 .glob .glob 0 0 0 385 1 1, .mmaG c128 0 4 5 .glob .glob 0 0 0 1 641 1, .mmaG c128 0 4 5 .glob .glob 0 0 0 1 1 33,
    .accrd c96 .f32 4 0 1 .glob 0 0, .walki c128 1 2 3 4 .glob 0 0 1, .walki c128 1 2 3 4 .glob 1 0 49, .walk c128 2 3 4 .glob 0 0].any Instr.wf = false := by decide
theorem test_wf_rdrem : [Instr.rdrem c96 1 2 3 4 1, .rdrem c96 1 2 3 8 0].any Instr.wf = false := by decide
theorem test_wf_event : [Instr.blockStep 0, .crossTrigger, .rmBegin].any Instr.wf = false := by decide

/-! ### Words written out from the spec's worked encodings -/

/-- The decoder's answer, with the encoder's on it. -/
def reads (nbits w : Nat) (i : Instr) : Bool := decodeTableWord nbits w == some i && encodeBits i == w && i.wf

theorem test_decode_scalar :
    reads 64 0x00001CC507701C29 (.addx c64 .sext32 3 5 6 7) && reads 64 0x0000012402701C65 (.sext c64 .w 4 9) &&
    reads 64 0x00051CC500701C71 (.sel c64 5 6 7 2 true) && reads 64 0x0001106102701C75 (.cmp c64 .lt 1 3 4 2) &&
    reads 64 0x0032086103701C91 (.cmpi c64 .ge 1 3 2 100) && reads 64 0x0001808400701C99 (.shri c64 4 4 3) &&
    reads 128 0x0123456789ABCDEF0000000400701CA3 (.li c128 (.s 4) 0x0123456789ABCDEF) && reads 64 0x000000839A701CDD (.fcvt c64 .bf16 .f32 3 4) &&
    reads 64 0x0001082300701CE1 (.pand c64 3 1 2 false true) && reads 64 0xFFFF006500A02481 (.addi ⟨.l64, true, 2, 0, true, 1⟩ 5 3 0xFFFFFFFE) = true := by decide +kernel

theorem test_decode_control :
    reads 64 0xFFFD000000702501 (.br ⟨.l64, false, 7, 0, true, 1⟩ 0xFFFFFFFA) && reads 64 0x2402010000701D11 (.loop c64 (.s 8) 1 1 4) &&
    reads 64 0x0000000000701D15 (.nop c64) && reads 64 0x0000000000F01D15 (.nop ⟨.l64, true, 7, 0, false, 7⟩) &&
    reads 64 0x0000000000701D19 (.endStrand c64) = true := by decide +kernel

theorem test_decode_memory :
    reads 64 0x0008006502701D41 (.ld c64 .s32 .glob 5 3 16) && reads 96 0x29C40000000490620A701D52 (.ldg c96 .f32 2 3 4 9 gather0) = true := by
  decide +kernel

theorem test_decode_vector :
    reads 64 0x000398A40A701D8D (.vmad c64 .f32 false false 0 4 5 6 7) && reads 64 0x01000C4121701DB9 (.vcmp c64 .lt .s16 0 1 2 3 2) &&
    reads 96 0x00003F800000000219701DDE (.vbcast c96 (.imm 0x3F80) .bf16 false 0 2) && reads 64 0x407000668B701DC5 (.vpack c64 .f16 4 0 7 6 3 0 0) &&
    reads 64 0x0200082500701DED (.vdist c64 .l2 .s8 false 2 0 0 5 1 2) && reads 64 0x000080C70A701DF1 (.vtab c64 .f32 false 0 1 7 6) &&
    reads 96 0x000000000000148009701DF6 (.vstrm c96 false .bf16 0 .glob .glob 4 5 0) = true := by decide +kernel

theorem test_decode_matrix :
    reads 128 0x0000000680000000000000C000701E03 (.wld c128 6 .glob true 80 0 0) && reads 128 0x00000030000000000000008100701E07 (.mma c128 1 4 .glob 0 0 48) &&
    reads 128 0x020A0180000000000000148001701E07 (.mmaG c128 0 4 5 .glob .glob 0 0 0 384 640 32) && reads 64 0x0000000300701E09 (.accz c64 3) &&
    reads 96 0x00000000400020400B701E0E (.accrd c96 .gbf 4 2 8 .glob 0 0) && reads 64 0x0000002900701E11 (.accexpRd c64 9 1) &&
    reads 64 0x0000012101701E11 (.accexpAl c64 1 9) && reads 128 0x000000000300000800062C8A00701E17 (.walki c128 10 4 11 12 .glob 8 0 3) &&
    reads 128 0x000000000000000800062C8000701E1B (.walk c128 4 11 12 .glob 8 0) = true := by decide +kernel

theorem test_decode_sync :
    reads 64 0x0800148003701E41 (.amo c64 .add .s64 .device .glob 0 0 4 5) && reads 64 0x0000008900701E5D (.evwait c64 9 4) &&
    reads 96 0x000003E800000CC100701E6A (.send c96 1 6 3 1000) && reads 64 0x0000014000701E75 (.waitseq c64 .copy 10) &&
    reads 96 0x000000000000008A00701E7A (.copy c96 10 4 .glob) && reads 64 0x0000000200F01EA9 (.jarrive ⟨.l64, true, 7, 0, false, 7⟩ 2) &&
    reads 64 0x07D00D0900701EAD (.jwait c64 9 8 3 4000) = true := by decide +kernel

theorem test_decode_system :
    reads 64 0x000A800500701EB9 (.mfc c64 5 0x15) && reads 64 0x0003800000701EC1 (.trap c64 7) && reads 64 0x0000000000701EC5 (.tret c64) = true := by
  decide +kernel

/-- No code 127, SET 6, a LEN of 0, and a reserved bit of NOP are refused (spec/04 R79, R71, R68). -/
theorem test_decode_refuses :
    [0x00000000007001FF, 0x0000000000601D15, 0x0000000000701D18, 0x0000000100701D15].all (fun w => (decodeTableWord 64 w).isNone) = true := by decide +kernel

/-! ### Small states -/

/-- Strand 0 of core 0 at system level in context 0, its first GiB mapped to itself; a NOP at its program counter. -/
def s0 : State := State.reset.withFetchWord 64 0x701D15
/-- `s0` with the strand changed. -/
def onMe (f : Strand → Strand) : State := setStrand s0 0 (f (getStrand s0 0))
/-- `s0` with some scalar registers. -/
def withS (l : Map Word) : State := onMe fun x => { x with s := l }
/-- The state after an instruction. -/
def out (i : Instr) (s : State) : Option State :=
  match exec i s with
  | .next t => some t
  | _ => none
/-- A scalar register after an instruction. -/
def outS (i : Instr) (s : State) (r : SReg) : Option Word := (out i s).map fun t => getS (me t) r
/-- Cause, TVAL and EPC after a trap. -/
def trapped (i : Instr) (s : State) : Option (Word × Word × Word) := (out i s).map fun t => ((me t).cause, (me t).tval, (me t).epc)

/-- The conditions of `Asks`, `Allowed`, `AtGuard` and `Ready`, computed. -/
def asksB (s : State) : Bool := !heldBack s s.cur && (me s).wait.isNone
def allowedB (i : Instr) (s : State) : Bool := asksB s && (!systemOnly i || stPriv (me s)) && (unavailable s s.cur i).isNone
def atGuardB (i : Instr) (c : Common) (s : State) : Bool :=
  allowedB i s && (!c.kpt || !killDue (me s)) && countersClear (me s) c && !operandsBlock (me s) i && decide ((me s).notBefore ≤ s.cycle) &&
    !bankAsleep s s.cur i
def readyB (i : Instr) (c : Common) (s : State) : Bool := atGuardB i c s && guardOf (me s) c && !counterFull (me s) c

theorem asks_of {s : State} (h : asksB s = true) : Asks s := by
  simp only [asksB, Bool.and_eq_true, Bool.not_eq_true', Option.isNone_iff_eq_none] at h
  exact ⟨h.1, h.2⟩

theorem allowed_of {i : Instr} {s : State} (h : allowedB i s = true) : Allowed i s := by
  simp only [allowedB, Bool.and_eq_true, Bool.or_eq_true, Bool.not_eq_true', Option.isNone_iff_eq_none] at h
  obtain ⟨⟨h1, h2⟩, h3⟩ := h
  exact { toAsks := asks_of h1, level := fun h => by simpa [h] using h2, named := h3 }

theorem atGuard_of {i : Instr} {c : Common} {s : State} (h : atGuardB i c s = true) : AtGuard i c s := by
  simp only [atGuardB, Bool.and_eq_true, Bool.or_eq_true, Bool.not_eq_true', decide_eq_true_eq] at h
  obtain ⟨⟨⟨⟨⟨h1, h2⟩, h3⟩, h4⟩, h5⟩, h6⟩ := h
  exact { toAllowed := allowed_of h1, noKill := fun h => by simpa [h] using h2, counters := h3, operands := h4, due := h5, awake := h6 }

theorem ready_of {i : Instr} {c : Common} {s : State} (h : readyB i c s = true) : Ready i c s := by
  simp only [readyB, Bool.and_eq_true, Bool.not_eq_true'] at h
  exact { toAtGuard := atGuard_of h.1.1, guard := h.1.2, room := h.2 }

theorem ready_all {l : List Instr} {c : Common} {s : State} (h : (l.all fun i => readyB i c s) = true) : ∀ i ∈ l, Ready i c s :=
  fun i hi => ready_of (List.all_eq_true.1 h i hi)

/-! ### Scalar instructions (spec/05) -/

/-- s1 = 7, s2 = -3, s3 = -2^63, s4 = -1, s5 = 0x8000000080000001, s6 = 64, s7 to s9 the FP32 values 1, 2 and a NaN, s10 = -7, s11 = 2, s12 = 2.5. -/
def sx : State := withS [(1, 7), (2, 0xFFFFFFFFFFFFFFFD), (3, 0x8000000000000000), (4, 0xFFFFFFFFFFFFFFFF), (5, 0x8000000080000001), (6, 64),
  (7, 0x3F800000), (8, 0x40000000), (9, 0x7FC00001), (10, 0xFFFFFFFFFFFFFFF9), (11, 2), (12, 0x40200000)]

theorem witness_ScalarArithmetic : ∀ i ∈ [Instr.add c64 0 1 2, .sub c64 1 1 2, .mul c64 31 1 2, .mulh c64 1 1 2, .mulhz c64 1 1 2, .addx c64 .whole 0 1 1 2,
    .addx c64 .sext32 3 1 1 5, .addx c64 .zext32 3 1 1 5, .and c64 1 1 2, .or c64 1 1 2, .xor c64 1 1 2, .shl c64 1 1 6, .shr c64 1 1 6, .sra c64 1 3 6,
    .min c64 1 1 2, .max c64 1 1 2, .minz c64 1 1 2, .maxz c64 1 1 2, .div c64 1 10 11, .rem c64 1 10 11, .divz c64 1 10 11, .remz c64 1 10 11], Ready i c64 sx := ready_all (by decide +kernel)
theorem witness_ScalarArithmetic_division : getS (me sx) 11 ≠ 0 ∧ ¬ (getS (me sx) 10 = BitVec.ofInt 64 (-2 ^ 63) ∧ getS (me sx) 11 = BitVec.ofInt 64 (-1)) := by decide +kernel
theorem witness_RoundsToNearestEven_formats : (-128 : Int) ≤ 127 ∧ (-128 : Int) ≤ 5 ∧ (5 : Int) ≤ 127 ∧ IsFormat fmtF16 ∧ IsFormat fmtBF16 ∧ IsFormat fmtF32 ∧
    ∀ f ∈ [fmtF16, fmtBF16, fmtF32], Encoding f 0 ∧ finEnc f 0 ∧ Encoding f f.sign ∧ finEnc f f.sign ∧ Encoding f (f.inf - 1) ∧ finEnc f (f.inf - 1) ∧
      units f 0 + units f f.sign = 0 ∧ units f 1 - units f 1 = 0 ∧ units f f.sign * units f 1 = 0 ∧ units f 1 * units f 1 + units f 0 * 2 ^ unitExp f ≠ 0 ∧
      units f 0 * units f 1 + units f f.sign * 2 ^ unitExp f = 0 :=
  ⟨by decide, by decide, by decide, .inl rfl, .inr (.inl rfl), .inr (.inr rfl), by unfold Encoding; decide +kernel⟩
theorem witness_RoundsToNearestEven_conversions : (Ty.f32.isFloat = true ∧ Ty.bf16.isFloat = true ∧ Ty.s64.isInt = true ∧ Ty.z8.isInt = true ∧ 0xFFFFFFFF < 2 ^ Ty.f32.width) ∧
    finEnc (fmtOf .f32) 0x80000000 ∧ units (fmtOf .f32) 0x80000000 = 0 ∧ isNan (fmtOf .f32) 0x7FC00001 = true ∧ (fmtOf .f32).inf = 0x7F800000 ∧
    (fmtOf .f32).inf + (fmtOf .f32).sign < 2 ^ 32 ∧ (fmtOf .f32).inf - 1 < 2 ^ 32 := by decide +kernel

theorem test_arithmetic :
    [outS (.add c64 13 4 1) sx 13, outS (.sub c64 13 1 2) sx 13, outS (.mul c64 13 1 2) sx 13, outS (.mulh c64 13 1 2) sx 13, outS (.mulhz c64 13 1 2) sx 13,
      outS (.addx c64 .sext32 3 13 1 5) sx 13, outS (.addx c64 .zext32 3 13 1 5) sx 13, outS (.and c64 13 1 2) sx 13, outS (.or c64 13 1 11) sx 13,
      outS (.xor c64 13 1 11) sx 13] =
    [some 6, some 10, some 0xFFFFFFFFFFFFFFEB, some 0xFFFFFFFFFFFFFFFF, some 6, some (BitVec.ofInt 64 (-17179869169)), some 17179869199, some 5, some 7,
      some 5] := by decide +kernel
theorem test_shifts_and_extremes :
    [outS (.shl c64 13 4 6) sx 13, outS (.shr c64 13 4 6) sx 13, outS (.sra c64 13 3 6) sx 13, outS (.sra c64 13 10 11) sx 13, outS (.min c64 13 1 2) sx 13,
      outS (.max c64 13 1 2) sx 13, outS (.minz c64 13 1 2) sx 13, outS (.maxz c64 13 1 2) sx 13, outS (.add c64 0 1 2) sx 0] =
    [some 0, some 0, some 0xFFFFFFFFFFFFFFFF, some 0xFFFFFFFFFFFFFFFE, some 0xFFFFFFFFFFFFFFFD, some 7, some 7, some 0xFFFFFFFFFFFFFFFD, some 0] := by
  decide +kernel

theorem witness_Division : (∀ i ∈ [Instr.div c64 1 1 0, .divz c64 1 1 0, .rem c64 1 3 4, .remz c64 1 1 2, .divT c64 .div 1 10 11, .divT c64 .rem 1 10 11,
      .divT c64 .divz 1 3 4, .divT c64 .remz 1 3 4, .divT c64 .divz 1 1 0, .divT c64 .div 1 3 4], Ready i c64 sx) ∧ (me sx).vtabQ = [] ∧
    getS (me sx) 11 ≠ 0 ∧ ¬ (getS (me sx) 10 = BitVec.ofInt 64 (-2 ^ 63) ∧ getS (me sx) 11 = BitVec.ofInt 64 (-1)) ∧
    getS (me sx) 0 = 0 ∧ getS (me sx) 3 = BitVec.ofInt 64 (-2 ^ 63) ∧ getS (me sx) 4 = BitVec.ofInt 64 (-1) :=
  ⟨ready_all (by decide +kernel), by decide +kernel⟩
theorem test_division :
    [outS (.div c64 13 10 11) sx 13, outS (.rem c64 13 10 11) sx 13, outS (.divz c64 13 4 11) sx 13, outS (.remz c64 13 4 11) sx 13, outS (.div c64 13 1 0) sx 13,
      outS (.rem c64 13 1 0) sx 13, outS (.div c64 13 3 4) sx 13, outS (.rem c64 13 3 4) sx 13] =
    [some 0xFFFFFFFFFFFFFFFD, some 0xFFFFFFFFFFFFFFFF, some 0x7FFFFFFFFFFFFFFF, some 1, some 0xFFFFFFFFFFFFFFFF, some 7, some 0x8000000000000000, some 0] := by
  decide +kernel
theorem test_division_trap : trapped (.divT c64 .remz 13 1 0) sx = some (0xB, 0, 0x10000) ∧ trapped (.divT c64 .rem 13 3 4) sx = some (0xB, 1, 0x10000) := by
  decide +kernel

theorem witness_OneSource : ∀ i ∈ [Instr.clz c64 1 0, .ctz c64 1 0, .popc c64 1 5, .bswap c64 .d 1 5, .bswap c64 .w 1 5, .bswap c64 .h 1 5, .sext c64 .b 1 5,
    .sext c64 .h 1 5, .sext c64 .w 1 5, .zext c64 .b 1 5, .zext c64 .h 1 5, .zext c64 .w 1 5, .mov c64 (.ss 0 5), .mov c64 (.ks 0 5), .mov c64 (.sk 1 0),
    .mov c64 (.kk 1 0), .sel c64 1 2 3 7 true], Ready i c64 sx := ready_all (by decide +kernel)
theorem test_one_source :
    [outS (.clz c64 13 0) sx 13, outS (.clz c64 13 1) sx 13, outS (.ctz c64 13 0) sx 13, outS (.ctz c64 13 3) sx 13, outS (.popc c64 13 5) sx 13,
      outS (.bswap c64 .w 13 5) sx 13, outS (.bswap c64 .d 13 5) sx 13, outS (.sext c64 .w 13 5) sx 13, outS (.zext c64 .w 13 5) sx 13,
      outS (.mov c64 (.sk 13 0)) sx 13, outS (.mov c64 (.ss 13 2)) sx 13, outS (.sel c64 13 1 2 7 false) sx 13, outS (.sel c64 13 1 2 7 true) sx 13] =
    [some 64, some 61, some 64, some 63, some 3, some 0x01000080, some 0x0100008000000080, some 0xFFFFFFFF80000001, some 0x80000001,
      some 0xFFFFFFFFFFFFFFFF, some 0xFFFFFFFFFFFFFFFD, some 7, some 0xFFFFFFFFFFFFFFFD] := by decide +kernel

/-- Two predicates after an instruction. -/
def outG (i : Instr) (s : State) (a b : GReg) : Option (Bool × Bool) := (out i s).map fun t => (getG (me t) a, getG (me t) b)

theorem witness_ComparesAndPredicates : ∀ i ∈ [Instr.cmp c64 .lt 1 2 1 2, .cmp c64 .any 7 2 1 7, .cmpi c64 .gtz 1 1 1 0xFFFFFFFF, .pand c64 7 1 2 true true,
    .por c64 3 7 2 true false, .pxor c64 3 7 2 true false, .pmov c64 (.move 3 7 true), .pmov c64 (.sg 1), .pmov c64 (.gs 2)], Ready i c64 sx :=
  ready_all (by decide +kernel)
theorem test_compare : outG (.cmp c64 .lt 1 2 1 2) sx 1 2 = some (true, false) ∧ outG (.cmp c64 .ltz 1 2 1 2) sx 1 2 = some (false, true) ∧
    outG (.cmp c64 .none 1 1 1 2) sx 1 2 = some (false, true) ∧ outG (.cmp c64 .eq 3 1 1 3) sx 3 7 = some (true, true) ∧
    outG (.cmpi c64 .gt 1 1 2 0xFFFFFFFF) sx 1 2 = some (true, false) ∧ outG (.cmpi c64 .gtz 1 1 2 0xFFFFFFFF) sx 1 2 = some (false, true) := by decide +kernel
theorem test_predicates : outG (.pand c64 1 7 2 false true) sx 1 2 = some (true, false) ∧ outG (.por c64 1 7 2 true false) sx 1 2 = some (false, false) ∧
    outG (.pxor c64 1 7 2 false true) sx 1 2 = some (false, false) ∧ outG (.pmov c64 (.gs 1)) sx 2 3 = some (true, false) ∧
    outS (.pmov c64 (.sg 13)) sx 13 = some 0x80 ∧ outG (.pmov c64 (.move 7 7 true)) sx 7 0 = some (true, false) := by decide +kernel

theorem witness_Immediates : ∀ i ∈ [Instr.addi c64 1 1 0xFFFFFFFF, .andi c64 1 1 0, .ori c64 1 1 1, .xori c64 1 1 1, .shli c64 1 1 63, .shri c64 1 1 0,
    .srai c64 1 3 63, .li c64 (.s 0) 5, .li c64 (.k 7) 5], Ready i c64 sx := ready_all (by decide +kernel)
theorem test_immediates :
    [outS (.addi c64 13 1 0xFFFFFFFE) sx 13, outS (.andi c64 13 5 0xFFFFFFFE) sx 13, outS (.ori c64 13 1 0xFFFFFFF0) sx 13, outS (.xori c64 13 1 1) sx 13,
      outS (.shli c64 13 1 63) sx 13, outS (.shri c64 13 3 63) sx 13, outS (.srai c64 13 3 63) sx 13, outS (.li c64 (.s 13) 9) sx 13] =
    [some 5, some 0x8000000080000000, some 0xFFFFFFFFFFFFFFF7, some 6, some 0x8000000000000000, some 1, some 0xFFFFFFFFFFFFFFFF, some 9] := by decide +kernel

theorem witness_ScalarFloat : ∀ i ∈ [Instr.fadd c64 1 7 8, .fsub c64 1 7 8, .fmul c64 1 7 8, .ffma c64 1 7 8 9, .fmin c64 1 7 9, .fmax c64 1 7 9,
    .fcmp c64 .un 1 7 9 2, .fcvt c64 .f32 .s64 1 7], Ready i c64 sx := ready_all (by decide +kernel)
theorem witness_Fp32Specials : IsFormat fmtF16 ∧ IsFormat fmtBF16 ∧ IsFormat fmtF32 ∧ ∀ f ∈ [fmtF16, fmtBF16, fmtF32],
    (∀ x ∈ [0, 1, f.sign, f.inf - 1], Encoding f x ∧ finEnc f x ∧ isNan f x = false) ∧ (∀ x ∈ [f.inf, f.inf + f.sign], Encoding f x ∧ x % 2 ^ (f.eb + f.fb) = f.inf ∧ isNan f x = false) ∧
    (∀ x ∈ [f.inf + 1, 2 * f.sign - 1], Encoding f x ∧ isNan f x = true) ∧ mulF f f.inf f.sign = f.nan ∧ mulF f f.inf (f.sign + 1) = f.inf + f.sign ∧ ltF f f.sign 1 = true :=
  ⟨.inl rfl, .inr (.inl rfl), .inr (.inr rfl), by unfold Encoding; decide +kernel⟩
theorem test_arithmetic_rounds : addF fmtF16 0x3C00 0x0001 = 0x3C00 ∧ addF fmtF16 0x7BFF 0x7BFF = 0x7C00 ∧ mulF fmtBF16 0x3F81 0x3F81 = 0x3F82 ∧
    fmaF fmtF32 0x3F800001 0x3F800001 0xBF800002 = 0x28800000 := by decide +kernel
theorem test_scalar_float :
    [outS (.fadd c64 13 7 8) sx 13, outS (.fadd c64 13 7 9) sx 13, outS (.fsub c64 13 7 8) sx 13, outS (.fmul c64 13 8 8) sx 13, outS (.ffma c64 13 7 8 8) sx 13,
      outS (.fmin c64 13 7 8) sx 13, outS (.fmax c64 13 7 8) sx 13, outS (.fcvt c64 .f32 .s32 13 12) sx 13, outS (.fcvt c64 .f32 .bf16 13 8) sx 13] =
    [some 0x40400000, some 0x7FC00000, some 0xBF800000, some 0x40800000, some 0x40800000, some 0x3F800000, some 0x40000000, some 2, some 0x4000] := by
  decide +kernel
theorem test_scalar_float_compare : outG (.fcmp c64 .lt 1 7 8 2) sx 1 2 = some (true, false) ∧ outG (.fcmp c64 .un 1 7 9 2) sx 1 2 = some (true, false) ∧
    outG (.fcmp c64 .le 1 9 9 2) sx 1 2 = some (false, true) := by decide +kernel

theorem witness_Branches : ∀ i ∈ [Instr.br c64 0xFFFFFFFA, .jmp c64 1 0, .jal c64 31 4, .jr c64 0 1, .jr c64 31 1], Ready i c64 sx := ready_all (by decide +kernel)
theorem test_branches : ((out (.br c64 0xFFFFFFFA) sx).map fun t => (me t).pc) = some 0xFFE8 ∧ ((out (.jmp c64 6 3) sx).map fun t => (me t).pc) = some 76 ∧
    ((out (.jal c64 31 4) sx).map fun t => ((me t).pc, getS (me t) 31)) = some (0x10010, 0x10008) ∧
    ((out (.jr c64 31 1) sx).map fun t => ((me t).pc, getS (me t) 31)) = some (4, 0x10008) := by decide +kernel

/-- `sx` with three loops open, the innermost in its last pass at the address after the instruction. -/
def sLoops : State := modMe sx fun x => { x with loops := [⟨0x10000, 0x10008, 1, 4, 0, 0⟩, ⟨0x10000, 0x10008, 2, 0, 0, 0⟩, ⟨0x10000, 0x10010, 3, 0, 0, 0⟩] }
theorem witness_Loops : (∀ i ∈ [Instr.loop c64 (.s 0) 0 0 4, .loop c64 (.s 1) 1 1 4, .loop c64 (.mb 2) 1 1 0x1FFFFFF], Ready i c64 sx) ∧
    Ready (.loop c64 (.s 1) 0 0 4) c64 sLoops ∧ getS (me sx) 0 = 0 ∧ getS (me sx) 1 ≠ 0 ∧ (me sx).loops.length < 3 ∧ 3 ≤ (me sLoops).loops.length ∧
    (me sLoops).vtabQ = [] ∧ ((4 : Word) ≠ (⟨0, 8, 1, 0, 0, 0⟩ : LoopEntry).stop ∧ (⟨0, 8, 1, 0, 0, 0⟩ : LoopEntry).left = 1 ∧ (⟨0, 8, 2, 0, 0, 0⟩ : LoopEntry).left ≠ 1) :=
  ⟨ready_all (by decide +kernel), ready_of (by decide +kernel), by decide +kernel⟩
theorem test_loop : ((out (.loop c64 (.s 0) 0 0 4) sx).map fun t => ((me t).pc, (me t).loops)) = some (0x10018, []) ∧
    ((out (.loop c64 (.s 1) 1 1 4) sx).map fun t => ((me t).pc, (me t).loops)) = some (0x10008, [⟨0x10008, 0x10018, 7, 0, 1, 1⟩]) ∧
    trapped (.loop c64 (.s 1) 0 0 4) sLoops = some (0xC, 7, 0x10000) := by decide +kernel
theorem test_loop_end : ((out (.nop c64) sLoops).map fun t => ((me t).pc, (me t).loops)) =
    some (0x10000, [⟨0x10000, 0x10008, 1, 1, 0, 0⟩, ⟨0x10000, 0x10010, 3, 0, 0, 0⟩]) := by decide +kernel

theorem witness_NopAndYield : ∀ i ∈ [Instr.nop c64, .yield c64 0, .yield c64 0x1FFFF], Ready i c64 sx := ready_all (by decide +kernel)
theorem test_yield : ((out (.yield c64 0) sx).map fun t => (me t).notBefore) = some 2 ∧ ((out (.yield c64 5) sx).map fun t => (me t).notBefore) = some 6 := by
  decide +kernel

/-! ### Fetch and issue (spec/04) -/

/-- The strand at task level. -/
def sUser : State := onMe fun x => { x with status := 4 }
theorem fetched_of {f : Fetched} {i : Instr} (h : (match f with | .instr j _ => j == i | .stopped _ => false) = true) : ∃ t, f = .instr i t := by
  cases f with
  | instr j t => exact ⟨t, by simpa using h⟩
  | stopped t => simp at h

theorem witness_StepRunsDecoded : s0.agenda = [⟨0, .strand 0⟩] ∧ Fetches { atHead s0 ⟨0, .strand 0⟩ [] with cur := 0 } 0 ∧
    (∃ t, fetch { atHead s0 ⟨0, .strand 0⟩ [] with cur := 0 } 0 = .instr (.nop c64) t) ∧
    selected { atHead s0 ⟨0, .strand 0⟩ [] with cur := 0 } 0 [] = true ∧
    { s0 with agenda := [⟨3, .event .crossTrigger⟩] }.agenda = [⟨3, .event .crossTrigger⟩] ∧
    (out .crossTrigger (atHead s0 ⟨3, .event .crossTrigger⟩ [])).any (fun t => (getCluster t 0).dm.stepping.isNone) = true :=
  ⟨by decide +kernel, ⟨by decide +kernel, by decide +kernel, by decide +kernel, by decide +kernel, by decide +kernel, by decide +kernel, by decide +kernel, by decide +kernel⟩,
    fetched_of (by decide +kernel), by decide +kernel, rfl, by decide +kernel⟩
theorem witness_FetchGivesEncoded : ∃ (key : Nat) (e : TlbEntry), (Instr.nop c64).wf = true ∧ (getStrand s0 0).loops = [] ∧
    (getStrand s0 0).pc.toNat % 32 + 4 * (encode (.nop c64)).length ≤ 32 ∧
    translate s0 (coreOf 0) (stCtx (getStrand s0 0)) (getCore s0 (coreOf 0)).desc (getStrand s0 0).pc.toNat .fetch = some (key, e) ∧
    key % 32 = (getStrand s0 0).pc.toNat % 32 ∧ isControl key = false ∧ mhas (getCore s0 (coreOf 0)).icache (key / 32) = false ∧
    l2Line s0 (clusterOf 0) (key / 128) = none ∧ poisoned s0 (coreOf 0) (key / 32 * 32) 32 = false ∧
    (∀ j, j < (encode (.nop c64)).length → readLE s0.mem (key + 4 * j) 4 = ((encode (.nop c64)).getD j 0).toNat) :=
  ⟨0x10000, ⟨0, 0, 0x40000000, 0x1F⟩, by decide +kernel⟩
/-- `s0` once core 0 has issued in the cycle. -/
def sIssued : State := modCore s0 0 fun y => { y with issuedAt := s0.cycle + 1 }
def picks : Choice := ⟨0, .pick 0 [] true⟩
theorem witness_StepRunsDecoded_choice : (Fetches (movesAs (atHead { s0 with agenda := [picks] } picks []) 0 true) 0 ∧ selected (movesAs (atHead { s0 with agenda := [picks] } picks []) 0 true) 0 [] = true ∧
      (∃ t, fetch (movesAs (atHead { s0 with agenda := [picks] } picks []) 0 true) 0 = .instr (.nop c64) t)) ∧
    selected { sIssued with cur := 0 } 0 [] = false ∧ issuedBy { sIssued with cur := 0 } 0 (exec (.nop c64) { sIssued with cur := 0 }) = true ∧
    (getCore sIssued 0).issuedAt = sIssued.cycle + 1 ∧ (getCore s0 0).issuedAt ≠ s0.cycle + 1 :=
  ⟨⟨⟨by decide +kernel, by decide +kernel, by decide +kernel, by decide +kernel, by decide +kernel, by decide +kernel, by decide +kernel, by decide +kernel⟩, by decide +kernel,
    fetched_of (by decide +kernel)⟩, by decide +kernel⟩
/-- A core issues once in a cycle (spec/01 R13). -/
theorem test_one_issue_a_cycle : (match step (setStrand sIssued 0 (getStrand sIssued 0)) with | .next t => some (getStrand t 0).pc | _ => none) = some 0x10000 := by decide +kernel
/-- Strand 0 of a halted cluster is stepped at a word. -/
def sStep (w : Nat) : State := modCluster (State.reset.withFetchWord 64 w) 0 fun c => { c with dm := { c.dm with halted := true, stepping := some 0 } }
/-- A branch to itself is one instruction too (spec/21 R361). -/
theorem test_step_ends : ((match step (sStep 0x0000000000702501) with | .next t => some ((getStrand t 0).pc, (getCluster t 0).dm.stepping, (getCluster t 0).dm.cause) | _ => none) = some (0x10000, none, 5)) ∧
    ((match step { modCluster (sStep 0) 0 (fun c => { c with dm := { c.dm with halted := true, stepping := some 0 } }) with agenda := [⟨0, .event (.resultLands 0)⟩] } with
      | .next t => some ((getCluster t 0).dm.stepping) | _ => none) = some (some 0)) := by decide +kernel
theorem test_step_runs_the_nop : (match step s0 with | .next t => some ((getStrand t 0).pc, t.cycle) | _ => none) = some (0x10008, 0) := by decide +kernel

def cNot : Common := ⟨.l64, false, 2, 0, true, 7⟩
theorem witness_FalseGuard : (Instr.add cNot 1 2 3).common = some cNot ∧ AtGuard (.add cNot 1 2 3) cNot sx ∧ guardOf (me sx) cNot = false :=
  ⟨by decide +kernel, atGuard_of (by decide +kernel), by decide +kernel⟩
theorem test_false_guard : ((out (.add cNot 13 1 1) sx).map fun t => (getS (me t) 13, getD (me t) 2, (me t).pc)) = some (0, 0, 0x10008) := by decide +kernel

def cWait : Common := ⟨.l64, false, 7, 0x20, false, 7⟩
def cSet : Common := ⟨.l64, false, 3, 0, false, 7⟩
/-- Counter d5 is 1 and d3 is at its limit. -/
def sCount : State := modMe sx fun x => { x with d := [(3, 63), (5, 1)] }
theorem witness_WaitsForCounters : Allowed (.add cWait 1 2 3) sCount ∧ (cWait.kpt = true → killDue (me sCount) = false) ∧
    (∃ j, j < 6 ∧ cWait.wait.getLsbD j = true ∧ getD (me sCount) j ≠ 0) ∧ AtGuard (.add cSet 1 2 3) cSet sCount ∧ guardOf (me sCount) cSet = true ∧
    cSet.set ≠ 7 ∧ getD (me sCount) cSet.set.toNat = 63 :=
  ⟨allowed_of (by decide +kernel), by decide +kernel, ⟨5, by decide +kernel⟩, atGuard_of (by decide +kernel), by decide +kernel⟩

theorem ready_common {i : Instr} {c : Common} (h : i.common = some c) : i.common = some c := h
/-- The bank is OFF, or the core gives its strands no tile. -/
def sOff : State := modCore s0 0 fun y => { y with vmode := 2 }
theorem witness_FalseGuard_checks : (∀ c ∈ [⟨.l64, false, 2, 0x20, true, 7⟩, cNot, (⟨.l64, true, 7, 0, true, 7⟩ : Common)], c.gp = 7 ∧ guardOf (me sx) c = false) ∧
    (Allowed (.add ⟨.l64, false, 2, 0x20, true, 7⟩ 1 2 3) sCount ∧ getD (me sCount) 5 ≠ 0 ∧ guardOf (me sCount) ⟨.l64, false, 2, 0x20, true, 7⟩ = false) ∧
    (Asks sUser ∧ systemOnly (.tret cNot) = true ∧ guardOf (me sUser) cNot = false ∧ stPriv (me sUser) = false ∧ (me sUser).vtabQ = [] ∧ (encode (.tret cNot)).length = 2) ∧
    Asks sOff ∧ systemOnly (.vand cNot .s8 false 0 1 15 16) = false ∧ (me sOff).vtabQ = [] ∧ (myCore sOff).vmode = 2 ∧ guardOf (me sOff) cNot = false ∧
    ((vecRegs (.vand cNot .s8 false 0 1 15 16)).filter fun r => 16 ≤ r.toNat) = [16] :=
  ⟨by decide +kernel, ⟨allowed_of (by decide +kernel), by decide +kernel, by decide +kernel⟩, ⟨asks_of (by decide +kernel), by decide +kernel⟩, asks_of (by decide +kernel), by decide +kernel⟩
theorem witness_PrivilegeAndAvailability : (Instr.tret c64).common = some c64 ∧ Asks sUser ∧ systemOnly (.tret c64) = true ∧ stPriv (me sUser) = false ∧
    (me sUser).vtabQ = [] ∧ encode (.tret c64) = [0x701EC5, 0] ∧ Asks sOff ∧ systemOnly (.vand c64 .s8 false 0 1 15 16) = false ∧
    (myCore sOff).vmode = 2 ∧ ((vecRegs (.vand c64 .s8 false 0 1 15 16)).filter fun r => 16 ≤ r.toNat) = [16] ∧
    Asks s0 ∧ vecRegs (.accz c64 0) = [] ∧ ((tileRegs (.accz c64 0)).filter fun a => tileCount (myCore s0) ≤ a.toNat) = [0] :=
  ⟨by decide +kernel, asks_of (by decide +kernel), by decide +kernel, by decide +kernel, by decide +kernel, by decide +kernel, asks_of (by decide +kernel),
    by decide +kernel, by decide +kernel, by decide +kernel, asks_of (by decide +kernel), by decide +kernel, by decide +kernel⟩
theorem test_privilege : trapped (.tret c64) sUser = some (4, 0x701EC5, 0x10000) := by decide +kernel
theorem test_unavailable : trapped (.vand c64 .s8 false 0 1 15 16) sOff = some (3, 48, 0x10000) ∧ trapped (.accz c64 2) s0 = some (3, 162, 0x10000) := by
  decide +kernel

def cKill : Common := ⟨.l64, true, 7, 0, false, 7⟩
/-- A kill is pending on a strand that participates as number 3 in the join whose record is at 0x20000, at task or at system level. -/
def sKill (pid : Nat) (level : Word) : State := onMe fun x => { x with
  status := 0x24 + level, jslot := 0x8600000000020000, kills := [⟨0x20000, pid, some 0x30001, 9⟩] }
theorem witness_FalseGuard_kill : Allowed (.nop ⟨.l64, true, 7, 0, true, 7⟩) (sKill 3 0) ∧ guardOf (me (sKill 3 0)) ⟨.l64, true, 7, 0, true, 7⟩ = false ∧ stKillp (me (sKill 3 0)) = true ∧
    stPriv (me (sKill 3 0)) = false ∧ killReady (sKill 3 0) (sKill 3 0).cur = true := ⟨allowed_of (by decide +kernel), by decide +kernel⟩
/-- A retiring kill finds the strand with a line still to land, or with a result of a deferred load. -/
def sKillWaits (retires : Bool) : State := modMe (sKill 3 0) fun x => { x with
  kills := [⟨0x20000, 3, if retires then none else some 0x30001, 9⟩], inflight := if retires then [⟨7, [0x400], false, false, false, none⟩] else [⟨7, [], false, false, false, some ⟨false, 5, .s32, 0, false, [], 0, 1⟩⟩] }
theorem witness_KillPoints : Allowed (.nop cKill) (sKill 3 0) ∧ (Instr.nop cKill).common = some cKill ∧ cKill.kpt = true ∧ stKillp (me (sKill 3 0)) = true ∧
    stPriv (me (sKill 3 0)) = false ∧ killReady (sKill 3 0) (sKill 3 0).cur = true ∧ matchingKill (me (sKill 3 0)) ≠ none ∧
    (∀ b : Bool, Allowed (.nop cKill) (sKillWaits b) ∧ stKillp (me (sKillWaits b)) = true ∧ stPriv (me (sKillWaits b)) = false ∧ killReady (sKillWaits b) (sKillWaits b).cur = false) ∧
    Allowed (.nop cKill) (sKill 4 0) ∧ stKillp (me (sKill 4 0)) = true ∧ stPriv (me (sKill 4 0)) = false ∧ killReady (sKill 4 0) (sKill 4 0).cur = true ∧ matchingKill (me (sKill 4 0)) = none ∧
    Allowed (.nop cKill) (sKill 3 1) ∧ stKillp (me (sKill 3 1)) = true ∧ stPriv (me (sKill 3 1)) = true ∧ countersClear (me (sKill 3 1)) cKill = true ∧
    operandsBlock (me (sKill 3 1)) (.nop cKill) = false ∧ (me (sKill 3 1)).notBefore ≤ (sKill 3 1).cycle ∧
    bankAsleep (sKill 3 1) (sKill 3 1).cur (.nop cKill) = false :=
  ⟨allowed_of (by decide +kernel), by decide +kernel, by decide +kernel, by decide +kernel, by decide +kernel, by decide +kernel, by decide +kernel,
    fun b => ⟨allowed_of (by cases b <;> decide +kernel), by cases b <;> decide +kernel⟩,
    allowed_of (by decide +kernel), by decide +kernel, by decide +kernel, by decide +kernel, by decide +kernel, allowed_of (by decide +kernel), by decide +kernel⟩
/-- A retiring kill waits for what the task has stored (spec/14 R275). -/
theorem test_kill_waits : (out (.nop cKill) (sKillWaits true)).map (fun t => ((me t).pc, (me t).kills.length)) = some (0x10000, 1) := by decide +kernel
theorem test_kill_point : ((out (.nop cKill) (sKill 3 0)).map fun t => ((me t).pc, getS (me t) 3, getS (me t) 4, (me t).jslot)) = some (0x30000, 0x20000, 3, 0) := by
  decide +kernel

theorem witness_DecodeOfEncode : (Instr.li c128 (.s 4) 7).wf = true ∧ 16 + 4 * (encode (.li c128 (.s 4) 7)).length ≤ 32 ∧ (Instr.nop c64).wf = true ∧
    24 + 4 * (encode (.nop c64)).length ≤ 32 := by decide +kernel
theorem witness_EncodeOfDecode : decodeAt 0 0x701EC5 = .instr (.tret c64) := by decide +kernel

/-! ### Memory (spec/06) -/

/-- An access is performed, with a condition on what it gives. -/
def givesB {α : Type} (a : Acc α) (Q : α → Bool) : Bool :=
  match a with
  | .ok p => Q p
  | .fault .. => false
  | .wait _ => false
theorem ok_with {α : Type} {a : Acc α} {Q : α → Bool} (h : givesB a Q = true) : ∃ p, a = .ok p ∧ Q p = true := by
  cases a with
  | ok p => exact ⟨p, rfl, h⟩
  | fault c t => simp [givesB] at h
  | wait b => simp [givesB] at h

/-- `plainLoc` and the alignment of a location, computed. -/
def plainB (l : Loc) (n : Nat) : Bool :=
  match l with
  | .pool _ off | .carve _ off => decide (0x4000 ≤ off)
  | .glob key _ => decide (key % n = 0)
  | .ctl _ => false
theorem plain_of {l : Loc} {n : Nat} (h : plainB l n = true) : plainLoc l n := by
  cases l <;> simp_all [plainB, plainLoc]
theorem plain_all {ls : List (Nat × Loc)} {n : Nat} (h : (ls.all fun e => plainB e.2 n) = true) : ∀ e ∈ ls, plainLoc e.2 n :=
  fun e he => plain_of (List.all_eq_true.1 h e he)
theorem plain_reads {l : Loc} {n : Nat} (h : plainB l n = true) : (∀ pa, l ≠ .ctl pa) ∧ ∀ key e, l = .glob key e → key % n = 0 := by
  cases l <;> simp_all [plainB]

/-- Core 1 admits core 0 to its granule 2, for reads and writes, through descriptor 3. -/
def sWin : State := modCore s0 1 fun y => { y with pwin := [(3, (1 : BitVec 128) <<< 64 ||| 0xE000000000000082)] }
/-- A load of the own pool by strand 0 is still to be performed. -/
def sPoolHeld : State := onMe fun x => { x with inflight := [⟨0, [], false, false, false, some ⟨false, 5, .s32, 0, false, [⟨0, 0x8000, .pool 0 0x8000⟩], 0, 1⟩⟩] }
theorem admits_of {w : BitVec 128} {src off n : Nat} {k : AccKind} (h : (w.getLsbD 63 && w.getLsbD (64 + src) && decide ((w.extractLsb' 7 7).toNat ≠ 0) &&
    decide ((w.extractLsb' 0 6).toNat + (w.extractLsb' 7 7).toNat ≤ 64) && decide ((w.extractLsb' 0 6).toNat * 0x4000 ≤ off) &&
    decide (off + n ≤ ((w.extractLsb' 0 6).toNat + (w.extractLsb' 7 7).toNat) * 0x4000) && (decide (k = .write) || w.getLsbD 62) &&
    (!(decide (k = .write) || decide (k = .atomic)) || w.getLsbD 61)) = true) : Admits w src off n k := by
  simp only [Bool.and_eq_true, Bool.or_eq_true, decide_eq_true_eq, Bool.not_eq_true', Bool.or_eq_false_iff, decide_eq_false_iff_not] at h
  obtain ⟨⟨⟨⟨⟨⟨⟨h1, h2⟩, h3⟩, h4⟩, h5⟩, h6⟩, h7⟩, h8⟩ := h
  exact ⟨h1, h2, h3, h4, h5, h6, fun hk => h7.resolve_left hk, fun hk => h8.resolve_left fun hn => by rcases hk with hk | hk <;> simp_all⟩
theorem witness_AccessChecks : (0 < 8 ∧ 4 % 8 ≠ 0) ∧ (0xFFFFC % 8 ≠ 0 ∧ 0x100000 % 8 = 0 ∧ 0x100000 < 0x100000 + 8) ∧ (0x4000000 % 8 = 0 ∧ 0x4000000 < 0x4000000 + 8) ∧
    (0xFFFF8 % 8 = 0 ∧ 0xFFFF8 + 8 ≤ 0x100000) ∧ ((strandActor sWin 0).core % 64 = 0xFFFF8 / 0x100000) ∧
    (0x108000 % 8 = 0 ∧ 0x108000 + 8 ≤ 0x4000000 ∧ (strandActor sWin 0).core % 64 ≠ 0x108000 / 0x100000 ∧ (getCore sWin 1).owner = none) ∧
    (∃ j, j < 4 ∧ Admits (mget 0 (getCore sWin 1).pwin j) 0 (0x108000 % 0x100000) 8 .write) ∧ poolHeld sPoolHeld (strandActor sPoolHeld 0) 0 = true ∧ poolHeld sPoolHeld (strandActor sPoolHeld 0) 1 = false ∧ (∀ j, j < 4 → ¬ Admits (mget 0 (getCore s0 1).pwin j) 0 0x8000 8 .read) :=
  ⟨by decide, by decide, by decide, by decide, by decide +kernel, by decide +kernel, ⟨3, by decide, admits_of (by decide +kernel)⟩, by decide +kernel, by decide +kernel,
    fun j _ h => absurd h.1 (by rw [show mget 0 (getCore s0 1).pwin j = 0 from by rfl]; decide)⟩
theorem test_access : locate s0 (strandActor s0 0) .own 0x8004 8 8 .read = .fault 0xD 0x8004 ∧ locate s0 (strandActor s0 0) .own 0x100000 8 8 .read = .fault 0xF 0x100000 ∧
    locate sWin (strandActor sWin 0) .clus 0x10BFF8 8 8 .write = .ok (.pool 1 0xBFF8) ∧ locate sWin (strandActor sWin 0) .clus 0x10C000 8 8 .write = .fault 7 0x10C000 ∧
    locate s0 (strandActor s0 0) .glob 0x40000000 8 8 .read = .fault 6 0x40000000 ∧ locate sPoolHeld (strandActor sPoolHeld 0) .own 0xC000 8 8 .write = .wait none := by decide +kernel

/-- s1 = 0x20000, where four bytes hold -2; s2 = 0x8000; s3 = 0x1122334455667788; s4 = 96. -/
def sm : State := { withS [(1, 0x20000), (2, 0x8000), (3, 0x1122334455667788), (4, 96)] with mem := writeLE s0.mem 0x20000 4 0xFFFFFFFE }
def ld0 : Instr := .ld c64 .s32 .glob 5 1 0
theorem witness_LoadResult : (Ty.s32).isNum = true ∧ Ready ld0 c64 sm ∧ sm.late = false ∧ Roomy sm 0 64 ∧ ∃ l, locate (opened ld0 c64 sm) (strandActor (opened ld0 c64 sm) (opened ld0 c64 sm).cur) .glob
    (addressOf sm 1 0) (Ty.width .s32 / 8) (Ty.width .s32 / 8) .read = .ok l ∧ (∀ key e, l = .glob key e → key % (Ty.width .s32 / 8) = 0) ∧ ∀ pa, l ≠ .ctl pa :=
  have ⟨l, h, hq⟩ := ok_with (Q := fun l => plainB l 4) (a := locate (opened ld0 c64 sm) (strandActor (opened ld0 c64 sm) (opened ld0 c64 sm).cur) .glob
    (addressOf sm 1 0) (Ty.width .s32 / 8) (Ty.width .s32 / 8) .read) (by decide +kernel)
  ⟨rfl, ready_of (by decide +kernel), rfl, by unfold Roomy; decide +kernel, l, h, (plain_reads hq).2, (plain_reads hq).1⟩
/-- A load that the step defers, from memory or from the own pool, before and after its issue. -/
def ldPool : Instr := .ld c64 .s32 .own 5 2 0
def sDeferred : State := { sm with late := true }
def sLate : State := (out ld0 sDeferred).getD sm
def sPoolLate : State := (out ldPool sDeferred).getD sm
/-- The location of a deferred load has met an uncorrected error. -/
def sBad : State := { sLate with poison := [0x20000] }
theorem witness_LoadResult_deferred : Ready ld0 c64 sDeferred ∧ sDeferred.late = true ∧ (∃ l, locate (opened ld0 c64 sDeferred) (strandActor (opened ld0 c64 sDeferred) 0) .glob
      (addressOf sDeferred 1 0) (Ty.width .s32 / 8) (Ty.width .s32 / 8) .read = .ok l ∧ laterLoc (opened ld0 c64 sDeferred) l = some (.glob 0x20000)) ∧
    Ready ldPool c64 sDeferred ∧ (∃ l, locate (opened ldPool c64 sDeferred) (strandActor (opened ldPool c64 sDeferred) 0) .own
      (addressOf sDeferred 2 0) (Ty.width .s32 / 8) (Ty.width .s32 / 8) .read = .ok l ∧ laterLoc (opened ldPool c64 sDeferred) l = some (.pool 0 0x8000)) ∧
    laterLoc (opened ldPool c64 sDeferred) (.pool 0 0x3FF8) = none ∧
    (getStrand sLate 0).inflight = ⟨7, [], false, false, false, some ⟨false, 5, .s32, 0, false, [⟨0, 0x20000, .glob 0x20000⟩], 0, 1⟩⟩ :: [] ∧ 5 = (5 : SReg).toNat :=
  have ⟨l, h, hq⟩ := ok_with (Q := fun l => laterLoc (opened ld0 c64 sDeferred) l == some (.glob 0x20000))
    (a := locate (opened ld0 c64 sDeferred) (strandActor (opened ld0 c64 sDeferred) 0) .glob (addressOf sDeferred 1 0) (Ty.width .s32 / 8) (Ty.width .s32 / 8) .read) (by decide +kernel)
  have ⟨m, h2, hq2⟩ := ok_with (Q := fun l => laterLoc (opened ldPool c64 sDeferred) l == some (.pool 0 0x8000))
    (a := locate (opened ldPool c64 sDeferred) (strandActor (opened ldPool c64 sDeferred) 0) .own (addressOf sDeferred 2 0) (Ty.width .s32 / 8) (Ty.width .s32 / 8) .read) (by decide +kernel)
  ⟨ready_of (by decide +kernel), rfl, ⟨l, h, by simpa using hq⟩, ready_of (by decide +kernel), ⟨m, h2, by simpa using hq2⟩, by decide +kernel, by decide +kernel, by decide⟩
theorem aligned_of {ls : List LoadLane} {n : Nat} (h : (ls.all fun l => match l.loc with | .glob key => decide (key % n = 0) | .pool .. => true) = true) : AlignedLanes ls n :=
  fun l hl key hk => by have := List.all_eq_true.1 h l hl; simpa [hk] using this
theorem witness_LoadResult_landing : AlignedLanes [⟨0, 0x20000, .glob 0x20000⟩] (Ty.width .s32 / 8) ∧ poisoned sLate (coreOf 0) 0x20000 (Ty.width .s32 / 8) = false ∧
    (getStrand sBad 0).inflight = (getStrand sLate 0).inflight ∧ poisoned sBad (coreOf 0) 0x20000 (Ty.width .s32 / 8) = true ∧ (getStrand sBad 0).run = .running ∧ (getStrand sBad 0).vtabQ = [] ∧
    (getStrand sPoolLate 0).inflight = ⟨7, [], false, false, false, some ⟨false, 5, .s32, 0, false, [⟨0, 0x8000, .pool 0 0x8000⟩], 0, 1⟩⟩ :: [] :=
  ⟨aligned_of (by decide), by decide +kernel⟩
/-- A deferred load takes the value of its landing (spec/13 R258). -/
theorem test_load_deferred : (getS (getStrand sLate 0) 5, getS (getStrand (landNext sLate 0) 0) 5) = (0, 0xFFFFFFFFFFFFFFFE) ∧
    getS (getStrand (landNext { sLate with mem := writeLE sLate.mem 0x20000 4 7 } 0) 0) 5 = 7 ∧
    getS (getStrand (landAt (modCore sPoolLate 0 fun y => { y with pool := writeLE y.pool 0x8000 4 9 }) 0 0) 0) 5 = 9 ∧
    ((getStrand (landAt sBad 0 0) 0).cause, (getStrand (landAt sBad 0 0) 0).tval) = (0xE, 0x20000) := by decide +kernel
theorem test_load : [outS ld0 sm 5, outS (.ld c64 .z16 .glob 5 1 0) sm 5, outS (.ld c64 .s8 .glob 5 1 4) sm 5, outS (.ld c64 .s64 .glob 0 1 0) sm 0] =
    [some 0xFFFFFFFFFFFFFFFE, some 0xFFFE, some 0, some 0] := by decide +kernel

def st0 : Instr := .st c64 .s16 .own 3 2 0xFFFFFFFE
theorem witness_StoreResult : (Ty.s16).isNum = true ∧ Ready st0 c64 sm ∧ (∃ l, locate (opened st0 c64 sm) (strandActor (opened st0 c64 sm) (opened st0 c64 sm).cur) .own
      (addressOf sm 2 0xFFFFFFFE) (Ty.width .s16 / 8) (Ty.width .s16 / 8) .write = .ok l ∧ plainLoc l (Ty.width .s16 / 8)) ∧
    Ready (.st c64 .s64 .glob 3 1 8) c64 sm ∧
    ∃ l, locate (opened (.st c64 .s64 .glob 3 1 8) c64 sm) (strandActor (opened (.st c64 .s64 .glob 3 1 8) c64 sm) 0) .glob (addressOf sm 1 8) (Ty.width .s64 / 8) (Ty.width .s64 / 8) .write = .ok l ∧
      plainLoc l (Ty.width .s64 / 8) :=
  have ⟨l, h, hq⟩ := ok_with (Q := fun l => plainB l 2) (a := locate (opened st0 c64 sm) (strandActor (opened st0 c64 sm) (opened st0 c64 sm).cur) .own
      (addressOf sm 2 0xFFFFFFFE) (Ty.width .s16 / 8) (Ty.width .s16 / 8) .write) (by decide +kernel)
  have ⟨m, h2, hq2⟩ := ok_with (Q := fun l => plainB l 8) (a := locate (opened (.st c64 .s64 .glob 3 1 8) c64 sm) (strandActor (opened (.st c64 .s64 .glob 3 1 8) c64 sm) 0) .glob (addressOf sm 1 8)
      (Ty.width .s64 / 8) (Ty.width .s64 / 8) .write) (by decide +kernel)
  ⟨rfl, ready_of (by decide +kernel), ⟨l, h, plain_of hq⟩, ready_of (by decide +kernel), m, h2, plain_of hq2⟩
theorem test_store_pool : ((out st0 sm).map fun t => readLE (myCore t).pool 0x7FFC 8) = some 0x77880000 := by decide +kernel
theorem test_store_cached : ((out (.st c64 .s64 .glob 3 1 8) sm).map fun t => (seen t 0 0x20008, seen t 64 0x20008, byteAt t.mem 0x20008)) = some (0x88, 0, 0) := by
  decide +kernel

theorem witness_RegisterBlockStores : 0 < liveCount (getCore s0 0) ∧ 0 < 4 ∧ 0xFFFFFFFFFFFFFFFF < 2 ^ 64 := by decide +kernel
theorem test_register_block : getS (getStrand (poolWrite s0 0 0x18 8 9 false) 0) 3 = 9 ∧ getS (getStrand (poolWrite s0 0 0 8 9 false) 0) 0 = 0 ∧
    getG (getStrand (poolWrite s0 0 0x140 8 2 false) 0) 1 = true ∧ getD (getStrand (poolWrite s0 0 0x148 8 64 true) 0) 1 = 1 ∧
    getD (getStrand (poolWrite s0 0 0x148 8 64 false) 0) 1 = 0 := by decide +kernel

/-- k1 enables lanes 0 and 2. -/
def sv : State := modMe sm fun x => { x with k := [(1, 5)], v := [(1, 0x000000070000000600000005FFFFFFFF), (2, 0x77777777333333332222222211111111), (4, 0x40000000000000010)] }
def ldv0 : Instr := .ldv c64 true .s32 .glob 1 2 1 0
theorem witness_VectorLoad : (Ty.s32).isNum = true ∧ Ready ldv0 c64 sv ∧ ∃ ls, vecLocs (opened ldv0 c64 sv) (strandActor (opened ldv0 c64 sv) (opened ldv0 c64 sv).cur) .glob (addressOf sv 1 0)
    (Ty.width .s32 / 8) .read ((List.range (Ty.lanes .s32)).filter fun j => (getK (me sv) 1).getLsbD j) = .ok ls ∧
    ∀ e ∈ ls, (∀ pa, e.2 ≠ .ctl pa) ∧ ∀ key x, e.2 = .glob key x → key % (Ty.width .s32 / 8) = 0 :=
  have ⟨ls, h, hq⟩ := ok_with (Q := fun ls => ls.all fun e => plainB e.2 4) (a := vecLocs (opened ldv0 c64 sv) (strandActor (opened ldv0 c64 sv) (opened ldv0 c64 sv).cur) .glob (addressOf sv 1 0)
    (Ty.width .s32 / 8) .read ((List.range (Ty.lanes .s32)).filter fun j => (getK (me sv) 1).getLsbD j)) (by decide +kernel)
  ⟨rfl, ready_of (by decide +kernel), ls, h, fun e he => plain_reads (List.all_eq_true.1 hq e he)⟩
/-- A vector load that the step defers, before and after its issue. -/
def svDeferred : State := { sv with late := true }
def svLate : State := (out ldv0 svDeferred).getD sv
theorem witness_VectorLoad_deferred : Ready ldv0 c64 svDeferred ∧ svDeferred.late = true ∧ (∃ ls, vecLocs (opened ldv0 c64 svDeferred) (strandActor (opened ldv0 c64 svDeferred) 0) .glob (addressOf svDeferred 1 0)
      (Ty.width .s32 / 8) .read ((List.range (Ty.lanes .s32)).filter fun j => (getK (me svDeferred) 1).getLsbD j) = .ok ls ∧ ls ≠ [] ∧ ∀ e ∈ ls, laterLoc (opened ldv0 c64 svDeferred) e.2 ≠ none) ∧
    (getStrand svLate 0).inflight = ⟨7, [], false, false, false, some ⟨true, 2, .s32, 5, true, [⟨0, 0x20000, .glob 0x20000⟩, ⟨2, 0x20008, .glob 0x20008⟩], 0, 1⟩⟩ :: [] ∧
    ([⟨0, 0x20000, .glob 0x20000⟩, ⟨2, 0x20008, .glob 0x20008⟩] : List LoadLane).map LoadLane.j = (List.range (Ty.lanes .s32)).filter (fun j => (5 : Word).getLsbD j) ∧ Roomy svLate (clusterOf 0) 64 ∧
    AlignedLanes [⟨0, 0x20000, .glob 0x20000⟩, ⟨2, 0x20008, .glob 0x20008⟩] (Ty.width .s32 / 8) ∧ ∀ l ∈ [0x20000, 0x20008], poisoned svLate (coreOf 0) l (Ty.width .s32 / 8) = false :=
  have ⟨ls, h, hq⟩ := ok_with (Q := fun ls => !ls.isEmpty && ls.all fun e => (laterLoc (opened ldv0 c64 svDeferred) e.2).isSome)
    (a := vecLocs (opened ldv0 c64 svDeferred) (strandActor (opened ldv0 c64 svDeferred) 0) .glob (addressOf svDeferred 1 0)
      (Ty.width .s32 / 8) .read ((List.range (Ty.lanes .s32)).filter fun j => (getK (me svDeferred) 1).getLsbD j)) (by decide +kernel)
  ⟨ready_of (by decide +kernel), rfl, ⟨ls, h, by rintro rfl; simp at hq, fun e he hn => by
    have := List.all_eq_true.1 (Bool.and_eq_true_iff.1 hq).2 e he
    simp [hn] at this⟩, by decide +kernel, by decide, by unfold Roomy; decide +kernel, aligned_of (by decide), by decide +kernel⟩
theorem test_vector_load_deferred : (getV (getStrand svLate 0) 2, getV (getStrand (landNext svLate 0) 0) 2) =
    (0x77777777333333332222222211111111, 0x777777770000000022222222FFFFFFFE) := by decide +kernel
/-- A vector register after an instruction. -/
def outV (i : Instr) (s : State) (r : VReg) : Option Vec := (out i s).map fun t => getV (me t) r
theorem test_vector_load : outV ldv0 sv 2 = some 0x777777770000000022222222FFFFFFFE ∧ outV (.ldv c64 false .s32 .glob 1 2 1 0) sv 2 = some 0xFFFFFFFE := by
  decide +kernel
def stv0 : Instr := .stv c64 .s32 .own 1 2 2 0
theorem witness_VectorStore : (Ty.s32).isNum = true ∧ Ready stv0 c64 sv ∧ ∃ ls, vecLocs (opened stv0 c64 sv) (strandActor (opened stv0 c64 sv) (opened stv0 c64 sv).cur) .own (addressOf sv 2 0)
    (Ty.width .s32 / 8) .write ((List.range (Ty.lanes .s32)).filter fun j => (getK (me sv) 1).getLsbD j) = .ok ls ∧ ∀ e ∈ ls, plainLoc e.2 (Ty.width .s32 / 8) :=
  have ⟨ls, h, hq⟩ := ok_with (Q := fun ls => ls.all fun e => plainB e.2 4) (a := vecLocs (opened stv0 c64 sv) (strandActor (opened stv0 c64 sv) (opened stv0 c64 sv).cur) .own (addressOf sv 2 0)
    (Ty.width .s32 / 8) .write ((List.range (Ty.lanes .s32)).filter fun j => (getK (me sv) 1).getLsbD j)) (by decide +kernel)
  ⟨rfl, ready_of (by decide +kernel), ls, h, plain_all hq⟩

theorem test_vector_store : ((out stv0 sv).map fun t => (readLE (myCore t).pool 0x8000 4, readLE (myCore t).pool 0x8004 4, readLE (myCore t).pool 0x8008 4)) =
    some (0x11111111, 0, 0x33333333) := by decide +kernel

/-- Lane 0 of v1 holds the sentinel and lanes 1 to 3 the indices 5, 6 and 7; k2 enables lanes 0 to 2, the bound is 6, and the fill value 0x55667788. -/
def gx : Gather := ⟨2, 3, 4, .w32, false, 2, .own, false, true, 3⟩
def sg : State := modCore (modMe sv fun x => { x with k := [(2, 7)], s := [(2, 0x8000), (3, 0x1122334455667788), (6, 6)] }) 0 fun y => { y with pool := writeLE y.pool 0x8014 4 77 }
def ldg0 : Instr := .ldg c96 .s32 2 2 1 6 gx
def stg0 : Instr := .stg c96 .s32 2 2 1 6 { gx with fill := false, fr := 0 }
/-- The lanes of a gather or scatter of `sg`, from the state that its issue leaves. -/
def runOf (st later : Bool) (i : Instr) (x : Gather) (s : State) : Acc GatherRun :=
  gatherRun .s32 x (gatherArgs st later .s32 2 2 1 6 x (me s)) (strandActor (opened i c96 s) s.cur) (List.range (512 / max (Ty.width .s32) 32)) ⟨opened i c96 s, getV (me s) 2, 0, 0, none, []⟩
theorem witness_GatherScatter : (Ty.s32).isNum = true ∧ Ready ldg0 c96 sg ∧ (∃ r, runOf false false ldg0 gx sg = .ok r ∧ r.refused = none) ∧
    Ready stg0 c96 sg ∧ ∃ r, runOf true false stg0 { gx with fill := false, fr := 0 } sg = .ok r ∧ r.refused = none :=
  have ⟨r, h, hq⟩ := ok_with (Q := fun r => r.refused.isNone) (a := runOf false false ldg0 gx sg) (by decide +kernel)
  have ⟨r2, h2, hq2⟩ := ok_with (Q := fun r => r.refused.isNone) (a := runOf true false stg0 { gx with fill := false, fr := 0 } sg) (by decide +kernel)
  ⟨rfl, ready_of (by decide +kernel), ⟨r, h, by simpa using hq⟩, ready_of (by decide +kernel), r2, h2, by simpa using hq2⟩
theorem lane_of {e x : Except Bool Nat} (h : (match e, x with | .ok a, .ok b => a == b | .error a, .error b => a == b | _, _ => false) = true) : e = x := by
  cases e <;> cases x <;> simp_all
/-- Lane 1 of the gather, with index 5, finds the pool offset 0x8014; lane 2's index reaches the bound, and lane 0 holds the sentinel. -/
theorem witness_GatherScatter_lanes : laneAddr gx (gatherArgs false false .s32 2 2 1 6 gx (me sg)) 1 = .ok 0x8014 ∧ (getK (me sg) 2).getLsbD 1 = true ∧ (getK (me sg) 2).getLsbD 3 = false ∧
    (∃ q l, gatherRun .s32 gx (gatherArgs false false .s32 2 2 1 6 gx (me sg)) (strandActor (opened ldg0 c96 sg) 0) (List.range 1) ⟨opened ldg0 c96 sg, getV (me sg) 2, 0, 0, none, []⟩ = .ok q ∧
      locate q.s (strandActor (opened ldg0 c96 sg) 0) .own 0x8014 4 4 .read = .ok l ∧ plainLoc l 4) ∧
    laneAddr gx (gatherArgs false false .s32 2 2 1 6 gx (me sg)) 0 = .error false ∧ laneAddr gx (gatherArgs false false .s32 2 2 1 6 gx (me sg)) 2 = .error true :=
  have ⟨q, h, hq⟩ := ok_with (Q := fun q => givesB (locate q.s (strandActor (opened ldg0 c96 sg) 0) .own 0x8014 4 4 .read) fun l => plainB l 4)
    (a := gatherRun .s32 gx (gatherArgs false false .s32 2 2 1 6 gx (me sg)) (strandActor (opened ldg0 c96 sg) 0) (List.range 1) ⟨opened ldg0 c96 sg, getV (me sg) 2, 0, 0, none, []⟩) (by decide +kernel)
  have ⟨l, h2, hl⟩ := ok_with hq
  ⟨lane_of (x := .ok _) (by decide +kernel), by decide +kernel, by decide +kernel, ⟨q, l, h, h2, plain_of hl⟩, lane_of (x := .error _) (by decide +kernel), lane_of (x := .error _) (by decide +kernel)⟩
/-- The step defers the lanes of a gather. -/
def sgDeferred : State := { sg with late := true }
def sgLate : State := (out ldg0 sgDeferred).getD sg
theorem witness_GatherScatter_deferred : Ready ldg0 c96 sgDeferred ∧ sgDeferred.late = true ∧ ∃ r, runOf false true ldg0 gx sgDeferred = .ok r ∧ r.got = [⟨1, 0x8014, .pool 0 0x8014⟩] ∧ r.refused = none :=
  have ⟨r, h, hq⟩ := ok_with (Q := fun r => r.got == [⟨1, 0x8014, .pool 0 0x8014⟩] && r.refused.isNone) (a := runOf false true ldg0 gx sgDeferred) (by decide +kernel)
  ⟨ready_of (by decide +kernel), rfl, r, h, by simpa using hq⟩
/-- Lane 1 of the gather in the cluster space goes to core 1, which admits nothing. -/
def gz : Gather := { gx with as := .clus }
def ldgz : Instr := .ldg c96 .s32 2 2 1 6 gz
def sRefused : State := modMe sg fun x => { x with s := [(2, 0x100000), (6, 6)] }
theorem witness_GatherScatter_refused : Ready ldgz c96 sRefused ∧ (me sRefused).vtabQ = [] ∧ ∃ r, runOf false false ldgz gz sRefused = .ok r ∧ r.refused = some 0x100014 :=
  have ⟨r, h, hq⟩ := ok_with (Q := fun r => r.refused == some 0x100014) (a := runOf false false ldgz gz sRefused) (by decide +kernel)
  ⟨ready_of (by decide +kernel), by decide +kernel, r, h, by simpa using hq⟩
/-- The lanes that a deferred gather reads take the values of its landing; the rest of the register and the flags are those of its issue. -/
theorem test_gather_deferred : (getV (getStrand sgLate 0) 2, getK (getStrand sgLate 0) 3) = (0x77777777556677882222222255667788, 4) ∧
    getV (getStrand (landAt (modCore sgLate 0 fun y => { y with pool := writeLE y.pool 0x8014 4 78 }) 0 0) 0) 2 = 0x77777777556677880000004E55667788 := by decide +kernel
theorem test_gather_refused : trapped ldgz sRefused = some (7, 0x100014, 0x1000C) := by decide +kernel
theorem test_gather : ((out ldg0 sg).map fun t => (getV (me t) 2, getK (me t) 3, getK (me t) 4)) = some (0x77777777556677880000004D55667788, 4, 0) := by decide +kernel
theorem test_scatter : ((out stg0 sg).map fun t => (readLE (myCore t).pool 0x8014 4, readLE (myCore t).pool 0x8018 4, getK (me t) 3)) = some (0x22222222, 0, 4) := by
  decide +kernel

/-- A merged atomic of the strand is on its way. -/
def sMerged : State := { sm with reductions := [⟨0x20000, .add, .s32, 1, [⟨0, 7, 0x20000⟩]⟩] }
/-- A store of the strand to a line of the host or of another device is on its way. -/
def sPort : State := modMe sm fun x => { x with inflight := [⟨0, [0x8000000000000 / 128], false, false, false, none⟩] }
theorem witness_CacheInstructions_waits : handReady sMerged 0 = false ∧ handReady sPort 0 = false ∧ handReady sm 0 = true ∧ Ready (.pref c64 5 1 4 0) c64 sMerged ∧
    Ready (.pref c64 5 1 4 0) c64 sPort ∧ Roomy sm 0 (getCore sm 0).dcache.length :=
  ⟨by decide +kernel, by decide +kernel, by decide +kernel, ready_of (by decide +kernel), ready_of (by decide +kernel), by unfold Roomy; decide +kernel⟩
theorem witness_CacheInstructions : ∀ i ∈ [Instr.pref c64 5 1 4 0, .wb c64 1 4, .inv c64 1 4, .icinv c64 .strand 1 4, .icinv c64 .device 1 4], Ready i c64 sm :=
  ready_all (by decide +kernel)
/-- The line of 0x20000 is dirty in the core. -/
def sDirty : State := (out (.st c64 .s64 .glob 3 1 8) sm).getD sm
theorem test_pref : ((out (.pref c64 5 1 4 0) sm).map fun t => (getS (me t) 5, (getCluster t 0).copies.map fun q => (q.addr, q.len))) = some (1, [(0x20000, 96)]) := by
  decide +kernel
theorem test_write_back : ((out (.wb c64 1 4) sDirty).map fun t => (byteAt t.mem 0x20008, seen t 0 0x20008)) = some (0x88, 0x88) ∧
    ((out (.inv c64 1 4) sDirty).map fun t => (coreLine t 0 0x400).isNone) = some true := by decide +kernel

/-! ### Vector instructions (spec/07) -/

/-- A register of lanes of `w` bits, lane 0 first. -/
def vec (w : Nat) (l : List Nat) : Vec := BitVec.ofNat 512 (l.foldr (fun x n => x + 2 ^ w * n) 0)
/-- v1 and v2: words; v3: indices; v5, v6: FP32 values; v7: bytes; k1 enables lanes 0 and 2, k2 none, k3 the first four. -/
def svx : State := onMe fun x => { x with
  v := [(1, vec 32 [1, 2, 0x7FFFFFFF, 0xFFFFFFFF]), (2, vec 32 [3, 0xFFFFFFFF, 1, 0xFFFFFFFF]), (3, vec 32 [3, 2, 0xFFFFFFFF, 16]), (4, vec 32 [9, 9, 9, 9]),
    (5, vec 32 [0x3F800000, 0x7FC00001, 0xC0000000, 0x80000000]), (6, vec 32 [0x40000000, 0x3F800000, 0x40000000, 0]), (7, vec 8 [1, 2, 3, 4, 0xFF])]
  k := [(1, 5), (3, 15)], s := [(1, 1), (2, 0xDDCCBBAA)] }

theorem witness_VectorArithmetic : ∀ i ∈ [Instr.vadd c64 .s32 true true 1 4 1 2, .vsub c64 .f32 false false 0 4 5 6, .vmul c64 .z8 false false 0 4 1 2,
    .vmad c64 .s64 false true 0 4 1 2 3, .vmin c64 .f16 false 0 4 1 2, .vmax c64 .bf16 false 0 4 1 2, .vabs c64 .s8 false true 0 4 1, .vneg c64 .f32 false false 0 4 5],
    Ready i c64 svx := ready_all (by decide +kernel)
theorem test_vector_arithmetic :
    [outV (.vadd c64 .s32 false false 3 8 1 2) svx 8, outV (.vadd c64 .s32 true true 1 4 1 2) svx 4, outV (.vadd c64 .s32 false true 1 4 1 2) svx 4,
      outV (.vsub c64 .s32 false false 3 8 1 2) svx 8, outV (.vmul c64 .s32 false false 3 8 1 2) svx 8, outV (.vmad c64 .s32 false false 3 8 1 2 1) svx 8,
      outV (.vmin c64 .s32 false 3 8 1 2) svx 8, outV (.vmax c64 .s32 false 3 8 1 2) svx 8, outV (.vabs c64 .s32 false false 3 8 1) svx 8,
      outV (.vneg c64 .s32 false false 3 8 1) svx 8] =
    [some (vec 32 [4, 1, 0x80000000, 0xFFFFFFFE]), some (vec 32 [4, 0, 0x7FFFFFFF]), some (vec 32 [4, 9, 0x7FFFFFFF, 9]),
      some (vec 32 [0xFFFFFFFE, 3, 0x7FFFFFFE, 0]), some (vec 32 [3, 0xFFFFFFFE, 0x7FFFFFFF, 1]), some (vec 32 [4, 0, 0xFFFFFFFE, 0]),
      some (vec 32 [1, 0xFFFFFFFF, 1, 0xFFFFFFFF]), some (vec 32 [3, 2, 0x7FFFFFFF, 0xFFFFFFFF]), some (vec 32 [1, 2, 0x7FFFFFFF, 1]),
      some (vec 32 [0xFFFFFFFF, 0xFFFFFFFE, 0x80000001, 1])] := by decide +kernel
theorem test_vector_float :
    [outV (.vadd c64 .f32 true false 3 8 5 6) svx 8, outV (.vmul c64 .f32 true false 3 8 5 6) svx 8, outV (.vsub c64 .f32 true false 3 8 5 6) svx 8,
      outV (.vabs c64 .f32 true false 3 8 5) svx 8, outV (.vneg c64 .f32 true false 3 8 5) svx 8, outV (.vmin c64 .f32 true 3 8 5 6) svx 8] =
    [some (vec 32 [0x40400000, 0x7FC00000, 0, 0]), some (vec 32 [0x40000000, 0x7FC00000, 0xC0800000, 0x80000000]),
      some (vec 32 [0xBF800000, 0x7FC00000, 0xC0800000, 0x80000000]), some (vec 32 [0x3F800000, 0x7FC00000, 0x40000000, 0]),
      some (vec 32 [0xBF800000, 0x7FC00000, 0x40000000, 0]), some (vec 32 [0x3F800000, 0x7FC00000, 0xC0000000, 0x80000000])] := by decide +kernel

theorem witness_VectorLogic : ∀ i ∈ [Instr.vand c64 .bit true 1 4 1 2, .vor c64 .s8 false 0 4 1 2, .vxor c64 .z64 false 0 4 1 2, .vshl c64 .s32 false 3 4 1 2,
    .vshr c64 .z32 false 3 4 1 2, .vsra c64 .s32 false 3 4 1 2, .vsel c64 .bit 1 4 1 2], Ready i c64 svx := ready_all (by decide +kernel)
theorem test_vector_logic :
    [outV (.vand c64 .s32 false 3 8 1 2) svx 8, outV (.vor c64 .s32 false 3 8 1 2) svx 8, outV (.vxor c64 .s32 false 3 8 1 2) svx 8, outV (.vshl c64 .s32 false 3 8 1 2) svx 8,
      outV (.vshr c64 .s32 false 3 8 1 2) svx 8, outV (.vsra c64 .s32 false 3 8 1 2) svx 8, outV (.vsel c64 .s32 1 8 1 2) svx 8] =
    [some (vec 32 [1, 2, 1, 0xFFFFFFFF]), some (vec 32 [3, 0xFFFFFFFF, 0x7FFFFFFF, 0xFFFFFFFF]), some (vec 32 [2, 0xFFFFFFFD, 0x7FFFFFFE, 0]),
      some (vec 32 [8, 0, 0xFFFFFFFE, 0]), some (vec 32 [0, 0, 0x3FFFFFFF, 0]), some (vec 32 [0, 0, 0x3FFFFFFF, 0xFFFFFFFF]),
      some (vec 32 [1, 0xFFFFFFFF, 0x7FFFFFFF, 0xFFFFFFFF])] := by decide +kernel

theorem witness_VectorCompare : (Ty.s16).isNum = true ∧ Ready (.vcmp c64 .lt .s16 0 1 1 2 2) c64 svx ∧ (Ty.f32).isNum = true ∧ Ready (.vcmp c64 .un .f32 3 1 5 6 1) c64 svx :=
  ⟨rfl, ready_of (by decide +kernel), rfl, ready_of (by decide +kernel)⟩
theorem test_vector_compare : ((out (.vcmp c64 .lt .s32 3 1 1 2 2) svx).map fun t => (getK (me t) 1, getK (me t) 2)) = some (1, 14) ∧
    ((out (.vcmp c64 .un .f32 3 1 5 6 1) svx).map fun t => getK (me t) 1) = some 2 ∧ ((out (.vcmp c64 .eq .f32 3 0 5 6 2) svx).map fun t => (getK (me t) 0, getK (me t) 2)) =
      some (0xFFFFFFFFFFFFFFFF, 7) := by decide +kernel

theorem witness_VectorConvert : (Ty.f32).isNum = true ∧ (Ty.s32).isNum = true ∧ (∀ i ∈ [Instr.vcvt c64 .s32 .f32 false 0 0 4 1, .vcvt c64 .s16 .s32 true 1 0 4 1,
    .vcvt c64 .f32 .bf16 false 1 0 4 5, .vpack c64 .f16 4 0 7 6 3 0 0, .vunpack c64 .bf16 4 false false 0 5 6 2], Ready i c64 svx) ∧
    (Ty.bf16).width ≤ (Ty.f32).width ∧ (Ty.s16).width < (Ty.s32).width := ⟨rfl, rfl, ready_all (by decide +kernel), by decide, by decide⟩
theorem test_vector_convert : outV (.vcvt c64 .s32 .f32 true 0 3 8 1) svx 8 = some (vec 32 [0x3F800000, 0x40000000, 0x4F000000, 0xBF800000]) ∧
    outV (.vcvt c64 .f32 .bf16 false 1 3 4 5) svx 4 = some (vec 32 [9, 9, 9, 9] ||| vec 16 (List.replicate 16 0 ++ [0x3F80, 0x7FC0, 0xC000, 0x8000])) := by decide +kernel
/-- The worked group of R41: its mantissas and its scale. -/
def sPack : State := modMe svx fun x => { x with v := [(3, vec 16 [0x4200, 0xBA00, 0x2E66, 0x3800, 0x3D00, 0x4380])] }
theorem test_pack : ((out (.vpack c64 .f16 4 0 7 6 3 0 0) sPack).map fun t => (getV (me t) 6, getS (me t) 7)) = some (0x7210E6, 0x81) := by decide +kernel
theorem test_unpack : outV (.vunpack c64 .f16 4 false false 0 5 6 7) (modMe svx fun x => { x with v := [(6, 0x7210E6)], s := [(7, 0x81)] }) 5 =
    some (vec 16 [0x4200, 0xBC00, 0, 0x3800, 0x3C00, 0x4300]) := by decide +kernel

/-- Two groups in zero-and-count mode: of zeros, and with a NaN and 1.5 times 2^7, whose scale is 8. -/
def vals0 : List Val := List.replicate 32 (.fin false 0 0)
def vals1 : List Val := .nan :: .fin true 3 6 :: List.replicate 30 (.fin false 0 0)
theorem witness_VectorConvert_blocks : 1 ≤ 4 ∧ (formAll true 4 (vals0 ++ vals1)).length = 2 ∧ ((formAll true 4 (vals0 ++ vals1))[1]?.map fun r => (r.g.e, r.count)) = some (135, 1) ∧
    (∃ v ∈ vals1, isFinite v = false) ∧ (∀ v ∈ vals0, isFinite v = true) ∧ (∀ v ∈ vals0, binadeOf v = none) ∧ ((vals1.filterMap binadeOf) = [7]) ∧ binadeOf (vals1.getD 1 .nan) = some 7 ∧
    (formAll true 4 (vals0 ++ vals1)).length ≤ 4 ∧ ((formAll true 4 (vals0 ++ vals1)).all fun r => decide (r.g.e < 256)) = true ∧ (1 ≤ 8 ∧ 8 ≤ 8 ∧ 63 < 64) := by decide +kernel
theorem test_block_formation : ((formAll true 4 (vals0 ++ vals1)).map fun r => (r.g.e, r.g.m.take 3, r.count, r.sat, r.nan)) = [(0, [0, 0, 0], 0, false, false), (135, [0, -6, 0], 1, false, false)] ∧
    ((formAll false 4 vals1).map fun r => (r.g.e, r.g.m.take 3, r.count, r.sat, r.nan)) = [(255, [0, 0, 0], 0, false, true)] := by decide +kernel

/-- v5 has a NaN in lane 1, v6 none. -/
theorem witness_VectorReduce : (Ty.f32).isNum = true ∧ (∀ i ∈ [Instr.vredsum c64 .s32 true 0 7 1, .vredsum c64 .bit false 0 7 1, .vredsum c64 .f32 false 3 7 5,
      .vredmax c64 .f32 3 7 5 8, .vredmin c64 .f32 3 7 6 8, .vredmax c64 .s32 2 7 1 8], Ready i c64 svx) ∧
    lanesOn (getK (me svx) 2) .s32 = [] ∧ ((Ty.f32).isFloat = true ∧ 1 ∈ lanesOn (getK (me svx) 3) .f32 ∧ isNan fmtF32 (elementOf (me svx) .f32 5 1) = true ∧
      ∀ k ∈ lanesOn (getK (me svx) 3) .f32, k < 1 → isNan fmtF32 (elementOf (me svx) .f32 5 k) = false) ∧
    lanesOn (getK (me svx) 3) .f32 ≠ [] ∧ ∀ j ∈ lanesOn (getK (me svx) 3) .f32, isNan fmtF32 (elementOf (me svx) .f32 6 j) = false :=
  ⟨rfl, ready_all (by decide +kernel), by decide +kernel, by decide +kernel, by decide +kernel, by decide +kernel⟩
theorem witness_VectorReduce_finite : (Ty.f32).isFloat = true ∧ ∀ j ∈ lanesOn (getK (me svx) 3) .f32, finEnc (fmtOf .f32) (elementOf (me svx) .f32 6 j) := by decide +kernel
theorem test_reduce : outS (.vredsum c64 .s32 false 3 7 1) svx 7 = some 0x80000001 ∧ outS (.vredsum c64 .f32 false 3 7 6) svx 7 = some 0x40A00000 ∧
    ((out (.vredmax c64 .s32 3 7 1 8) svx).map fun t => (getS (me t) 7, getS (me t) 8)) = some (0x7FFFFFFF, 2) ∧
    ((out (.vredmin c64 .s32 3 7 1 8) svx).map fun t => (getS (me t) 7, getS (me t) 8)) = some (0xFFFFFFFFFFFFFFFF, 3) := by decide +kernel
theorem test_reduce_ends : ((out (.vredmax c64 .s32 2 7 1 8) svx).map fun t => (getS (me t) 7, getS (me t) 8)) = some (0xFFFFFFFF80000000, 0xFFFFFFFFFFFFFFFF) ∧
    ((out (.vredmin c64 .f32 3 7 5 8) svx).map fun t => (getS (me t) 7, getS (me t) 8)) = some (0x7FC00000, 1) := by decide +kernel

theorem witness_VectorMove : (Ty.s32).isNum = true ∧ ∀ i ∈ [Instr.vperm c64 false .s32 false 0 4 1 3 0, .vperm c64 true .s32 true 1 4 1 3 2, .vslide c64 true .s32 false 0 4 1 2 1,
    .vslide c64 false .s32 false 0 4 1 2 2, .vbcast c64 (.reg 2) .s8 true 1 4, .vbcast c64 (.imm 5) .s8 false 0 4, .vbcast c64 (.lane 1 15) .s32 false 0 4,
    .vext c64 .s32 7 1 0, .vext c64 .s32 0 1 2, .vins c64 .s32 4 1 1], Ready i c64 svx := ⟨rfl, ready_all (by decide +kernel)⟩
theorem test_move :
    [outV (.vperm c64 false .s32 false 3 8 1 3 0) svx 8, outV (.vperm c64 true .s32 false 3 8 1 3 2) svx 8, outV (.vslide c64 true .s32 false 0 8 1 2 1) svx 8,
      outV (.vslide c64 false .s32 false 0 8 1 2 1) svx 8, outV (.vbcast c64 (.reg 2) .s8 true 1 8) svx 8, outV (.vbcast c64 (.lane 1 2) .s32 false 1 4) svx 4,
      outV (.vins c64 .s32 4 2 1) svx 4] =
    [some (vec 32 [0xFFFFFFFF, 0x7FFFFFFF, 0, 0]), some (vec 32 [0xFFFFFFFF, 0x7FFFFFFF, 0, 3]), some (vec 32 [0, 1, 2, 0x7FFFFFFF, 0xFFFFFFFF]),
      some (vec 32 [2, 0x7FFFFFFF, 0xFFFFFFFF, 0, 0, 0, 0, 0, 0, 0, 0, 0, 0, 0, 0, 3]), some (vec 8 [0xAA, 0, 0xAA]), some (vec 32 [0x7FFFFFFF, 9, 0x7FFFFFFF, 9]),
      some (vec 32 [9, 0xDDCCBBAA, 9, 9])] := by decide +kernel
theorem test_extract : outS (.vext c64 .s32 7 3 1) svx 7 = some 2 ∧ outS (.vext c64 .s8 7 7 1) svx 7 = some 2 ∧ outS (.vext c64 .s32 7 1 2) svx 7 = some 0 ∧
    outS (.vext c64 .s16 7 2 1) svx 7 = some 0 ∧ outV (.vbcast c64 (.imm 0xFFFFFFFFFFFFFFFF) .s32 false 1 4) svx 4 = some (vec 32 [0xFFFFFFFF, 9, 0xFFFFFFFF, 9]) := by
  decide +kernel

theorem witness_Distance : ∀ i ∈ [Instr.vdist c64 .l2 .s8 false 2 0 0 8 7 1, .vdist c64 .ip .s16 true 1 1 1 4 1 2, .vdist c64 .ham .bit false 6 0 2 8 7 1], Ready i c64 svx :=
  ready_all (by decide +kernel)
theorem test_distance : outV (.vdist c64 .l2 .s8 false 2 0 0 8 7 20) svx 8 = some (vec 32 [30, 1]) ∧ outV (.vdist c64 .ip .z8 true 2 0 0 4 7 7) svx 4 =
      some (vec 32 [39, 65034, 9, 9]) ∧ outV (.vdist c64 .ham .bit false 0 0 0 8 7 20) svx 8 = some (vec 32 [1, 1, 2, 1, 8]) := by decide +kernel

/-- Table 1 of core 0 is the worked example of R161; strand 0's queue is full of requests to v9, or holds the one of the example. -/
def sTab (q : List VtabReq) : State := modCore (modMe svx fun x => { x with vtabQ := q, d := [(2, 1)] }) 0 fun y => { y with
  tables := [(1, [⟨0xBF800000, 0, 0⟩, ⟨0, 0x3F000000, 0⟩, ⟨0x3F800000, 0, 0x3F000000⟩])] }
def req9 : VtabReq := ⟨.f32, false, 0xFFFFFFFFFFFFFFFF, 1, 9, vec 32 [0xC0400000, 0xBF800000, 0x3E800000, 0x40000000, 0x7FC00000, 0x7F800000, 0xFF800000], 2, 0, false⟩
theorem witness_TableUnit : 4 ≤ (me (sTab [req9, req9, req9, req9])).vtabQ.length ∧ Ready (.vtab c64 .f32 false 0 1 7 6) c64 (sTab [req9, req9, req9, req9]) ∧
    (me (sTab [req9, req9, req9])).vtabQ.length < 4 ∧ Ready (.vtab c64 .f32 false 0 1 7 6) c64 (sTab [req9, req9, req9]) ∧
    nextTable (sTab [req9]) 0 = some 0 ∧ (getStrand (sTab [req9]) 0).vtabQ = req9 :: [] :=
  ⟨by decide +kernel, ready_of (by decide +kernel), by decide +kernel, ready_of (by decide +kernel), by decide +kernel, by decide +kernel⟩
/-- The table of the example, and an input in each of its segments. -/
def tab0 : List TabEntry := [⟨0xBF800000, 0, 0⟩, ⟨0, 0x3F000000, 0⟩, ⟨0x3F800000, 0, 0x3F000000⟩]
theorem at_most {e : TabEntry} {x : Nat} (h : (!isNan fmtF32 e.x.toNat && (decide (e.x = 0xFF800000#32) || decide (x = 0x7F800000) ||
    decide (finEnc fmtF32 e.x.toNat ∧ finEnc fmtF32 x ∧ units fmtF32 e.x.toNat * 2 ^ unitExp fmtF32 ≤ units fmtF32 x * 2 ^ unitExp fmtF32))) = true) : AtMost e fmtF32 x := by
  simp only [Bool.and_eq_true, Bool.or_eq_true, Bool.not_eq_true', decide_eq_true_eq] at h
  exact ⟨h.1, h.2.elim (fun h => h.elim .inl fun h => .inr (.inl h)) fun h => .inr (.inr h)⟩
theorem witness_TableUnit_lanes : (Ty.f32).isFloat = true ∧ Encoding (fmtOf .f32) 0x40000000 ∧ isNan (fmtOf .f32) 0x40000000 = false ∧ Segment tab0 (fmtOf .f32) 0x40000000 2 ∧
    (finEnc fmtF32 0 ∧ finEnc fmtF32 0x40000000 ∧ finEnc fmtF32 0x3F000000) ∧ isNan (fmtOf .f32) 0x7FC00000 = true ∧ Encoding (fmtOf .f32) 0x7FC00000 ∧
    Segment tab0 (fmtOf .f32) 0x7F800000 2 ∧ 0 % 2 ^ 31 = 0 ∧ 0x7F800000 % (fmtOf .f32).sign = 0x7F800000 :=
  have three : ∀ j, 2 < j → tab0[j]? = none := fun j h => List.getElem?_eq_none (show 3 ≤ j by omega)
  have seg : ∀ x, AtMost ⟨0x3F800000, 0, 0x3F000000⟩ fmtF32 x → Segment tab0 fmtF32 x 2 := fun x h =>
    ⟨⟨_, rfl, .inl h⟩, fun j e hj he => by rw [three j hj] at he; cases he⟩
  ⟨by decide, by unfold Encoding; decide, by decide +kernel, seg _ (at_most (by decide +kernel)), by decide +kernel, by decide +kernel, by unfold Encoding; decide,
    seg _ (at_most (by decide +kernel)), by decide, by decide⟩
theorem segment_one (e : TabEntry) (f : Fmt) (x : Nat) : Segment [e] f x 0 :=
  ⟨⟨e, rfl, by rcases Classical.em (AtMost e f x) with h | h <;> simp [h]⟩, fun j _ h he => by cases j with | zero => omega | succ j => simp at he⟩
/-- Segments with infinite and NaN coefficients: inf times 0, inf times 2 and minus inf, 2 times 2 and inf, and a NaN. -/
theorem witness_TableUnit_specials : (∀ e ∈ [(⟨0, 0x7F800000, 0⟩ : TabEntry), ⟨0, 0x7F800000, 0xFF800000⟩, ⟨0, 0x40000000, 0x7F800000⟩, ⟨0, 0x7FC00000, 0⟩], Segment [e] (fmtOf .f32) 0x40000000 0) ∧
    0x7F800000 % 2 ^ 31 = 0x7F800000 ∧ 0 % (fmtOf .f32).sign = 0 ∧ 0x40000000 % (fmtOf .f32).sign ≠ 0 ∧ 0xFF800000 % 2 ^ 31 = 0x7F800000 ∧ finEnc fmtF32 0x40000000 ∧
    isNan fmtF32 0x7F800000 = false ∧ isNan fmtF32 0x7FC00000 = true := ⟨fun e _ => segment_one e _ _, by decide +kernel⟩
theorem test_table_specials : [tabLane .f32 [⟨0, 0x7F800000, 0⟩] 0, tabLane .f32 [⟨0, 0x7F800000, 0⟩] 0x40000000, tabLane .f32 [⟨0, 0x7F800000, 0xFF800000⟩] 0x40000000,
    tabLane .f32 [⟨0, 0x40000000, 0xFF800000⟩] 0x40000000, tabLane .f32 [] 0] = [0x7FC00000, 0x7F800000, 0x7FC00000, 0xFF800000, 0x7FC00000] := by decide +kernel
theorem test_table_queue : ((out (.vtab c64 .f32 false 0 1 7 6) (sTab [])).map fun t => ((me t).vtabQ.length, getV (me t) 7 == getV (me (sTab [])) 7)) = some (1, true) := by
  decide +kernel
theorem test_table_lanes : ((out (.vtabService 0) (sTab [req9])).map fun t => ((getV (me t) 9).setWidth 224, getD (me t) 2)) =
    some ((vec 32 [0, 0, 0x3E000000, 0x3F000000, 0x7FC00000, 0x7FC00000, 0x7FC00000]).setWidth 224, 0) := by decide +kernel

/-! ### Streaming and the tree-matrix unit (spec/07, spec/03, spec/08) -/

theorem some_with {α : Type} {a : Option α} {Q : α → Bool} (h : (match a with | some p => Q p | none => false) = true) : ∃ p, a = some p ∧ Q p = true := by
  cases a with
  | some p => exact ⟨p, rfl, h⟩
  | none => simp at h
theorem ok_two {α β : Type} {a : Acc α} {b : α → Acc β} {Q : α → β → Bool} (h : givesB a (fun p => givesB (b p) (Q p)) = true) :
    ∃ p q, a = .ok p ∧ b p = .ok q ∧ Q p q = true := by
  obtain ⟨p, hp, h⟩ := ok_with h
  obtain ⟨q, hq, h⟩ := ok_with h
  exact ⟨p, q, hp, hq, h⟩

/-- A shape record (spec/06 R134). -/
def tsr (code mw mptr sptr mas : Nat) (sizes strides : List Nat) : Nat :=
  mptr + mas * 2 ^ 57 + sptr * 2 ^ 64 + code * 2 ^ 192 + mw * 2 ^ 196 + (sizes.length - 1) * 2 ^ 202 +
    2 ^ 256 * sizes.foldr (fun x n => x + 2 ^ 16 * n) 0 + 2 ^ 320 * strides.foldr (fun x n => x + 2 ^ 48 * n) 0
/-- A machine with records and data in memory. -/
def withMem (s : State) (l : List (Nat × Nat × Nat)) : State := { s with mem := l.foldl (fun m w => writeLE m w.1 w.2.1 w.2.2) s.mem }

/-- Records at 0x21000 (FP32, 4 elements), 0x21040 (BF16, 4), 0x21080 (FP32, 40) and 0x210C0 (BF16, 40). -/
def sStr (resume : Word) : State := withMem (onMe fun x => { x with s := [(4, 0x21000), (5, 0x21040), (6, 0x21080), (7, 0x210C0)], resume := resume })
  [(0x21000, 64, tsr 10 0 0x22000 0 0 [4] [4]), (0x21040, 64, tsr 9 0 0x23000 0 0 [4] [2]), (0x21080, 64, tsr 10 0 0x22000 0 0 [40] [4]),
    (0x210C0, 64, tsr 9 0 0x23000 0 0 [40] [2]), (0x22000, 8, 0x7FC0000140200000)]
def vs (sa sb : SReg) (t : Ty) : Instr := .vstrm c96 false t 0 .glob .glob sa sb 0
/-- Both records of a VSTRM are read, with a condition on them. -/
def streamReads (i : Instr) (s : State) (sa sb : SReg) (Q : BitVec 512 → BitVec 512 → Bool) : Bool :=
  givesB (readTsrAny (opened i c96 s) (strandActor (opened i c96 s) s.cur) .glob (getS (me s) sa).toNat streamSrcOk) fun p =>
    givesB (readTsr p.2 (strandActor (opened i c96 s) s.cur) .glob (getS (me s) sb).toNat (fun _ => true)) fun q =>
      decide ((me p.2).vtabQ = (me s).vtabQ ∧ { me q.2 with carved := (me (opened i c96 s)).carved, irq := (me (opened i c96 s)).irq } = me (opened i c96 s)) && Q p.1 q.1
theorem stream_reads {i : Instr} {s : State} {sa sb : SReg} {Q : BitVec 512 → BitVec 512 → Bool} (h : streamReads i s sa sb Q = true) :
    ∃ p q, readTsrAny (opened i c96 s) (strandActor (opened i c96 s) s.cur) .glob (getS (me s) sa).toNat streamSrcOk = .ok p ∧
      readTsr p.2 (strandActor (opened i c96 s) s.cur) .glob (getS (me s) sb).toNat (fun _ => true) = .ok q ∧
      (me p.2).vtabQ = (me s).vtabQ ∧ { me q.2 with carved := (me (opened i c96 s)).carved, irq := (me (opened i c96 s)).irq } = me (opened i c96 s) ∧ Q p.1 q.1 = true := by
  obtain ⟨p, q, hp, hq, h⟩ := ok_two h
  simp only [Bool.and_eq_true, decide_eq_true_eq] at h
  exact ⟨p, q, hp, hq, h.1.1, h.1.2, h.2⟩
/-- The state with the stream begun, and the progress and length of its next chunk. -/
def sBegun (sa sb : SReg) : State := (out (vs sa sb .bf16) (sStr 0)).getD s0
def chunkB (s : State) (Q : Nat → Nat → Bool) : Bool :=
  match (getStrand s 0).long with
  | none => false
  | some l =>
    let z := tsrSizes l.tsrB
    let n := streamDone (getStrand s 0)
    let first := n - lget 0 (idxOf z n) 0 % 32
    let ix := chunkIdx (idxOf z first) (lget 0 z 0)
    axpyOf l.i == some false && l.i.common == some c96 && mayRun s 0 && !killDue (getStrand s 0) && (irqLine (getStrand s 0)).isNone && Q (first + ix.length) (tsrTotal l.tsrB) &&
    givesB (streamChunk s 0 (strandActor s 0) false l.nanm (decodeF fmtF32 (l.x.toNat % 2 ^ 32)) l.tsrA l.tsrB ix) fun _ => true
theorem witness_Streaming : (Ready (vs 4 5 .bf16) c96 (sStr 0) ∧ streamReads (vs 4 5 .bf16) (sStr 0) 4 5 (fun p q => streamOk .bf16 0 p q && decide (0 < tsrTotal q)) = true) ∧
    (Ready (vs 4 5 .bf16) c96 (sStr 0x7D00000000000004) ∧ streamReads (vs 4 5 .bf16) (sStr 0x7D00000000000004) 4 5 (fun p q => streamOk .bf16 0 p q && decide (tsrTotal q ≤ 4)) = true) ∧
    (Ready (vs 4 5 .f16) c96 (sStr 0) ∧ streamReads (vs 4 5 .f16) (sStr 0) 4 5 (fun p q => !streamOk .f16 0 p q) = true) ∧
    chunkB (sBegun 4 5) (fun n m => decide (m ≤ n)) = true ∧ chunkB (sBegun 6 7) (fun n m => decide (n < m)) = true :=
  ⟨⟨ready_of (by decide +kernel), by decide +kernel⟩, ⟨ready_of (by decide +kernel), by decide +kernel⟩, ⟨ready_of (by decide +kernel), by decide +kernel⟩, by decide +kernel, by decide +kernel⟩
/-- A stream one of whose operands lies outside the pool. -/
def sAstray : State := (out (vs 4 5 .bf16) (withMem (sStr 0) [(0x21000, 64, tsr 10 0 0x100000 0 1 [4] [4])])).getD s0
def sAsked (kill : Bool) : State := modMe (sBegun 4 5) fun x => if kill then { x with status := 0x24, jslot := 0x8600000000020000, kills := [⟨0x20000, 3, some 0x30001, 9⟩] } else { x with status := x.status ||| 4, irq := 1 }
theorem witness_Streaming_stops : (∃ l, (getStrand (sAsked true) 0).long = some l ∧ axpyOf l.i = some false ∧ l.i.common = some c96) ∧ mayRun (sAsked true) 0 = true ∧ killDue (getStrand (sAsked true) 0) = true ∧
    (∃ l, (getStrand (sAsked false) 0).long = some l ∧ axpyOf l.i = some false ∧ l.i.common = some c96) ∧ mayRun (sAsked false) 0 = true ∧ killDue (getStrand (sAsked false) 0) = false ∧ irqLine (getStrand (sAsked false) 0) = some 0 ∧
    (match (getStrand sAstray 0).long with
      | some l => (match streamChunk sAstray 0 (strandActor sAstray 0) false l.nanm (decodeF fmtF32 (l.x.toNat % 2 ^ 32)) l.tsrA l.tsrB (chunkIdx (idxOf (tsrSizes l.tsrB) 0) 4) with
        | .fault 0xF 0x100000 => (getStrand sAstray 0).vtabQ.isEmpty && (getStrand sAstray 0).wait.isNone && !killDue (getStrand sAstray 0) && (irqLine (getStrand sAstray 0)).isNone && streamDone (getStrand sAstray 0) == 0 && mayRun sAstray 0
        | _ => false)
      | none => false) = true :=
  ⟨some_with (Q := fun l => decide (axpyOf l.i = some false ∧ l.i.common = some c96)) (by decide +kernel) |>.imp fun l h => ⟨h.1, by simpa using h.2⟩, by decide +kernel, by decide +kernel,
    some_with (Q := fun l => decide (axpyOf l.i = some false ∧ l.i.common = some c96)) (by decide +kernel) |>.imp fun l h => ⟨h.1, by simpa using h.2⟩, by decide +kernel⟩
/-- FP32 into BF16, with and without what is there, into a group, and from one. -/
theorem witness_Streaming_chunk : ([(false, tsr 10 0 0x22000 0 0 [4] [4], tsr 9 0 0x23000 0 0 [4] [2]), (true, tsr 10 0 0x22000 0 0 [4] [4], tsr 9 0 0x23000 0 0 [4] [2]),
      (false, tsr 10 0 0x22000 0 0 [32] [4], tsr 11 8 0x23000 0x23100 0 [32] [32]), (false, tsr 11 8 0x22000 0x22800 0 [32] [32], tsr 10 0 0x23000 0 0 [32] [4])].all fun p =>
    givesB (streamChunk (sStr 0) 0 (strandActor (sStr 0) 0) p.1 false (.fin false 1 0) (BitVec.ofNat 512 p.2.1) (BitVec.ofNat 512 p.2.2) [[0], [1]]) fun _ => true) = true ∧
    (tsrTy (BitVec.ofNat 512 (tsr 10 0 0x22000 0 0 [4] [4]))).isNum = true ∧ (tsrTy (BitVec.ofNat 512 (tsr 9 0 0x22000 0 0 [4] [4]))).isFloat = true ∧
    tsrTy (BitVec.ofNat 512 (tsr 11 8 0x23000 0x23100 0 [32] [32])) = .gbf ∧ 1 ≤ tsrMw (BitVec.ofNat 512 (tsr 11 8 0x23000 0x23100 0 [32] [32])) ∧
    givesB (loadElem (sStr 0) (strandActor (sStr 0) 0) .glob 0x22004 4) (fun p => p.1 == 0x7FC00001) = true := by decide +kernel
theorem test_stream : ((out (.vstrmChunk 0) (sBegun 4 5)).map fun t => ((me t).pc, (me t).resume, seen t 0 0x23000, seen t 0 0x23001, seen t 0 0x23002, seen t 0 0x23003)) =
    some (0x1000C, 0, 0x20, 0x40, 0xC0, 0x7F) ∧ ((out (.vstrmChunk 0) (sBegun 6 7)).map fun t => (me t).resume) = some 0x7D00000000000020 := by decide +kernel

theorem witness_BlockStepRule : ∃ (a : OpGroup) (w : WGroup), Pair [some a] [some w] 0 0 a w ∧ ¬ (w.ew = 255 ∨ a.marked &&& w.mask ≠ 0) ∧
    elementAt [[5]] 0 0 = some 5 ∧ (5 : Int) ≠ -(2 ^ 63) ∧ Pair [some a] [some { w with ew := 255 }] 0 0 a { w with ew := 255 } ∧
    ∀ (x : OpGroup) (y : WGroup), ¬ Pair [some a] [some w] 1 0 x y :=
  ⟨⟨127, 1, [64], 0, 0, []⟩, ⟨127, 1, [64]⟩, ⟨rfl, rfl⟩, by decide, rfl, by decide, ⟨rfl, rfl⟩, fun _ _ h => by simp [Pair] at h⟩

/-- Records of a 1 by 32 BF16 operand whose first element is 1, of one column of weights whose first is 2, and of destinations of one FP32 element, one of
them beyond the pool, and of an operand in v9 of strand 1; four tiles for each strand. -/
def sMat (resume geom : Word) : State := withMem (modCore (onMe fun x => { x with
    s := [(4, 0x21000), (5, 0x21040), (6, 0x21080), (7, 0x210C0), (8, 0x21100), (9, 0x21140)], resume := resume, geom := geom }) 0 fun y => { y with part := 0x37000801 })
  [(0x21000, 64, tsr 9 0 0x22000 0 0 [32, 1] [2, 64]), (0x21040, 64, tsr 9 0 0x22100 0 0 [32, 1] [2, 64]), (0x21080, 64, tsr 10 0 0x22200 0 0 [1, 1] [4, 4]),
    (0x210C0, 64, tsr 10 0 0x100000 0 1 [1, 1] [4, 4]), (0x21100, 64, tsr 9 0 0x100000 0 1 [32, 1] [2, 64]), (0x21140, 64, tsr 9 0 0x1640 0 1 [32, 1] [2, 64]), (0x22000, 2, 0x3F80), (0x22100, 2, 0x4000)]
def wld0 (sa : SReg) : Instr := .wld c128 sa .glob false 1 0 0
def mma0 : Instr := .mma c128 1 4 .glob 0 0 1
def mmaG0 (rows : BitVec 10) : Instr := .mmaG c128 1 4 5 .glob .glob 0 0 0 rows 1 1
def accrd0 (sb : SReg) : Instr := .accrd c96 .f32 0 1 sb .glob 0 0
/-- A WLD is on its way; the weights are latched; the block has been multiplied. -/
def sLoading (resume : Word) (sa : SReg) : State := (out (wld0 sa) (sMat resume 0)).getD s0
def sLatched (resume : Word) : State := (out (.blockStep 0) (sLoading resume 5)).getD s0
def sMma : State := (out mma0 (sLatched 0)).getD s0
def sStepped : State := (out (.blockStep 0) sMma).getD s0

/-- The record of an instruction is read, with a condition on what it holds and on the state then. -/
def reads1 (i : Instr) (c : Common) (s : State) (as : Space) (sa : SReg) (ok : BitVec 512 → Bool) (Q : BitVec 512 × State → Bool) : Bool :=
  givesB (readTsr (opened i c s) (strandActor (opened i c s) s.cur) as (getS (me s) sa).toNat ok) Q
theorem reads_1 {i : Instr} {c : Common} {s : State} {as : Space} {sa : SReg} {ok : BitVec 512 → Bool} {Q : BitVec 512 × State → Bool} (h : reads1 i c s as sa ok Q = true) :
    ∃ p, readTsr (opened i c s) (strandActor (opened i c s) s.cur) as (getS (me s) sa).toNat ok = .ok p ∧ Q p = true := ok_with h
/-- What ACCRD writes, and how its checks end. -/
def accrdB (s : State) (sb : SReg) (Q : State → Actor → BitVec 512 → List ReadoutItem → Bool) : Bool :=
  reads1 (accrd0 sb) c96 s .glob sb (accrdOk .f32 0 0) fun p => Q p.2 (strandActor (opened (accrd0 sb) c96 s) s.cur) p.1
    (readoutItems (stNanm (me s)) .f32 0 (decodeF fmtF32 ((me s).oscale.toNat % 2 ^ 32)) (loadTile p.2 s.cur 1) (tsrRows p.1 - 0) (tsrSize p.1 0 - 0))
theorem witness_AccumulatorInstructions : (∀ i ∈ [Instr.accz c64 3, .accexpRd c64 7 0, .accexpAl c64 1 9], Ready i c64 (sMat 0 0)) ∧
    (Ready (accrd0 6) c96 (sMat 0 0) ∧ accrdB (sMat 0 0) 6 (fun s a r q => givesB (checkItems s a r 0 0 q) (fun _ => true) && givesB (writeItems s a r 0 0 q) (fun _ => true) &&
      (itemStores s a r 0 0 q).all fun w => plainB w.1 w.2.1) = true) ∧
    (Ready (accrd0 7) c96 (sMat 0 0) ∧ (me (sMat 0 0)).vtabQ = [] ∧ accrdB (sMat 0 0) 7 (fun s a r q => decide (checkItems s a r 0 0 q = .fault 0xF 0x100000)) = true) :=
  ⟨ready_all (by decide +kernel), ⟨ready_of (by decide +kernel), by decide +kernel⟩, ready_of (by decide +kernel), by decide +kernel, by decide +kernel⟩
theorem test_accexp : outS (.accexpRd c64 7 0) (sMat 0 0) 7 = some 0x18000 := by decide +kernel

/-- What the clause of a granted WLD asks of an input. -/
def wldB (s : State) (sa : SReg) (Q : Reads → Bool) : Bool :=
  match (getStrand s 0).long with
  | some l => granted s 0 == some 0 && l.i == wld0 sa && (latchAll l.nanm (strandActor (modCore s 0 fun y => { y with matLast := 0 }) 0) l.tsrA 0 0 (blockCols 1 1)
      ⟨modCore s 0 fun y => { y with matLast := 0 }, none, false, none⟩ |> fun g => Q g.2)
  | none => false
/-- What MMA's clauses ask of an input. -/
def mmaB (s : State) : Bool := reads1 mma0 c128 s .glob 4 operandOk fun _ => true
/-- What MMA.G's clauses ask of an input. -/
def mmaGB (s : State) : Bool :=
  reads1 (mmaG0 48) c128 s .glob 4 operandOk fun p =>
    givesB (readTsr p.2 (strandActor (opened (mmaG0 48) c128 s) s.cur) .glob (getS (me s) 5).toNat (weightOk (myCore s).desc)) fun _ => true
/-- The target of the next WLD is held by another strand. -/
def sHeld : State := modCore (sMat 0 0) 0 fun y => putBuf y (!y.latest) { getBuf y (!y.latest) with valid := true, holders := [1] }
theorem witness_MatrixMultiply_load : (targetHeld (myCore (sMat 0 0)) 0 = false ∧ Ready (wld0 5) c128 (sMat 0 0) ∧
      reads1 (wld0 5) c128 (sMat 0 0) .glob 5 (weightOk (myCore (sMat 0 0)).desc) (fun _ => true) = true) ∧ (targetHeld (myCore sHeld) sHeld.cur = true ∧ Ready (wld0 5) c128 sHeld) ∧
    wldB (sLoading 0 5) 5 (fun g => !g.hold && g.bad.isNone) = true ∧
    (wldB (sLoading 0 8) 8 (fun g => !g.hold && g.bad == some (0x100000, 0xF)) = true ∧ (getStrand (sLoading 0 8) 0).vtabQ = [] ∧
      (getBuf (getCore (sLoading 0 8) 0) (decide (((getStrand (sLoading 0 8) 0).long.map Long.buf) = some 1))).filling = some 0) :=
  ⟨⟨by decide +kernel, ready_of (by decide +kernel), by decide +kernel⟩, ⟨by decide +kernel, ready_of (by decide +kernel)⟩, by decide +kernel, by decide +kernel⟩
theorem witness_MatrixMultiply_mma : (Ready mma0 c128 (sMat 0 0) ∧ mmaB (sMat 0 0) = true ∧ (getBuf (myCore (sMat 0 0)) (myCore (sMat 0 0)).latest).valid = false ∧
      (getBuf (myCore (sMat 0 0)) (myCore (sMat 0 0)).latest).filling = none ∧ (me (sMat 0 0)).vtabQ = []) ∧
    (Ready mma0 c128 (sLatched 0) ∧ mmaB (sLatched 0) = true ∧ (getBuf (myCore (sLatched 0)) (myCore (sLatched 0)).latest).valid = true) ∧
    (Ready mma0 c128 (sLatched 0x8100000000000001) ∧ mmaB (sLatched 0x8100000000000001) = true ∧
      (getBuf (myCore (sLatched 0x8100000000000001)) (myCore (sLatched 0x8100000000000001)).latest).valid = true) :=
  ⟨⟨ready_of (by decide +kernel), by decide +kernel⟩, ⟨ready_of (by decide +kernel), by decide +kernel⟩, ready_of (by decide +kernel), by decide +kernel⟩
/-- GEOM of one core at the origin, and of two cores of which the strand's is the first. -/
def geom1 : Word := 0x100440
def geom2 : Word := 0x100480
theorem witness_MatrixMultiply_group : (Ready (mmaG0 49) c128 (sMat 0 geom1) ∧ (me (sMat 0 geom1)).vtabQ = [] ∧ geomValid geom1 = true ∧ ¬ 49 ≤ 48 * geomRows geom1) ∧
    (Ready (mmaG0 48) c128 (sMat 0 0x440) ∧ geomValid 0x440 = true ∧ 48 ≤ 48 * geomRows 0x440 ∧ 1 ≤ 80 * geomCols 0x440 ∧ (0x440 : Word).getLsbD 20 = false) ∧
    (Ready (mmaG0 48) c128 (sMat 0 geom1) ∧ 48 ≤ 48 * geomRows geom1 ∧ 1 ≤ 80 * geomCols geom1 ∧ geom1.getLsbD 20 = true ∧ mmaGB (sMat 0 geom1) = true) ∧
    (Ready (mmaG0 48) c128 (sMat 0x8140000000000000 geom1) ∧ mmaGB (sMat 0x8140000000000000 geom1) = true) :=
  ⟨⟨ready_of (by decide +kernel), by decide +kernel⟩, ⟨ready_of (by decide +kernel), by decide +kernel⟩, ⟨ready_of (by decide +kernel), by decide +kernel⟩, ready_of (by decide +kernel), by decide +kernel⟩
/-- The strand waits in an MMA.G at its first boundary; a second core's strand waits there too, with other operands where `other`. -/
def sGroup (geom : Word) : State := (out (mmaG0 48) (sMat 0 geom)).getD s0
def sPair (other : Bool) : State := modStrand (sGroup geom2) 4 fun _ => { me (sGroup geom2) with
  long := (me (sGroup geom2)).long.map fun l => if other then { l with tsrB := 0 } else { l with geom := geom2 + 0x4000 } }
/-- An activation plane that a table request is still to write, and one outside the pool. -/
def sAhead (s : State) (sa : SReg) (i : Instr) : State := (out i (modStrand (modMe s fun x => { x with s := x.s.map fun p => if p.1 = 4 then (4, getS x sa) else p }) 1 fun x => { x with vtabQ := [req9] })).getD s0
/-- What the rendezvous clauses ask of an input. -/
def groupB (s : State) (Q : Long → List Nat → List Nat → Nat → Bool) : Bool :=
  match (getStrand s 0).long with
  | some l => isGroup l && l.round == 0 && mayRun s 0 && !killDue (getStrand s 0) &&
      (irqLine (getStrand s 0)).isNone && Q l (groupMembers 0 l.geom) ((groupMembers 0 l.geom).filter fun n => (getStrand s n).long.any fun q => isGroup q && q.x == l.x) (mmaDone (getStrand s 0))
  | none => false
theorem witness_MatrixMultiply_rendezvous : groupB (sGroup geom2) (fun l ms _ b => !ms.all (memberAt (sGroup geom2) 0 l b)) = true ∧
    groupB (sGroup geom1) (fun l ms here b => ms.all (memberAt (sGroup geom1) 0 l b) && b == 0 && (mismatch (sGroup geom1) here).isNone &&
      here.all fun n => (memberFault (sGroup geom1) b n).isNone && !((memberReads (sGroup geom1) b n).any Reads.hold)) = true ∧
    groupB (sPair true) (fun l ms here b => ms.all (memberAt (sPair true) 0 l b) && b == 0 && mismatch (sPair true) here == some 4 && here.all fun n => (getStrand (sPair true) n).vtabQ.isEmpty) = true := by
  decide +kernel
/-- The other member of the pair meets a kill, or an interrupt. -/
def sPairAsked (kill : Bool) : State := modStrand (sPair false) 4 fun x => if kill then { x with status := 0x24, jslot := 0x8600000000020000, kills := [⟨0x20000, 3, some 0x30001, 9⟩] } else { x with status := x.status ||| 4, irq := 1 }
theorem witness_MatrixMultiply_rendezvous_stops : ([true, false].all fun b => groupB (sPairAsked b) fun l ms here n => ms.all (memberAt (sPairAsked b) 0 l n) && here.any fun q =>
      ((getStrand (sPairAsked b) q).long.any fun z => z.round == 0) && mmaDone (getStrand (sPairAsked b) q) == n && (if b then killDue (getStrand (sPairAsked b) q) else (irqLine (getStrand (sPairAsked b) q)).isSome)) = true := by
  decide +kernel
/-- A member with a kill stops the group at the boundary (spec/08 R177). -/
theorem test_rendezvous_stops : ((out (.mmaGRendezvous 0) (sPairAsked true)).map fun t => ((getStrand t 4).long.isNone, (getStrand t 0).long.map Long.round)) = some (true, some 0) := by decide +kernel
theorem witness_MatrixMultiply_rendezvous_reads :
    (let s := sAhead (sMat 0 geom1) 9 (mmaG0 48); groupB s (fun l ms here b => ms.all (memberAt s 0 l b) && b == 0 && (mismatch s here).isNone &&
      here.any (fun n => (memberReads s b n).any Reads.hold) && here.all fun n => ((memberReads s b n).bind Reads.bank).isNone) = true) ∧
    (let s := sAhead (sMat 0 geom1) 8 (mmaG0 48); groupB s (fun l ms here b => ms.all (memberAt s 0 l b) && b == 0 && (mismatch s here).isNone &&
      here.all fun n => memberFault s b n == some (0x100000, 0xF) && !((memberReads s b n).any Reads.hold) && (getStrand s n).vtabQ.isEmpty) = true) := by decide +kernel
/-- What the clause of a granted step asks of an input. -/
def stepB (s : State) (Q : BlockRun → Bool) : Bool :=
  match (getStrand s 0).long with
  | some l =>
    let m := modCore s 0 fun y => { y with matLast := 0 }
    granted s 0 == some 0 && (walkArgs l.i).isNone && l.i.common == some c128 && !killDue (getStrand s 0) && (irqLine (getStrand s 0)).isNone &&
    (match jobOf (getCore m 0) l (mmaDone (getStrand s 0)) with
     | some j => decide (mmaDone (getStrand s 0) < j.nkb) && Q (runBlock m 0 l j (mmaDone (getStrand s 0)))
     | none => false)
  | none => false
/-- A step whose reads must wait is not ready. -/
def heldB (s : State) : Bool :=
  match (getStrand s 0).long with
  | some l => !killDue (getStrand s 0) && (irqLine (getStrand s 0)).isNone &&
    (match jobOf (getCore s 0) l (mmaDone (getStrand s 0)) with
     | some j => decide (mmaDone (getStrand s 0) < j.nkb) && (runBlock s 0 l j (mmaDone (getStrand s 0))).x.hold && (granted s 0).isNone
     | none => false)
  | none => false
/-- What the reads of a block ask of an input: rows and columns that it has, weights in groups, or none of them. -/
def blockB (s : State) (Q : BlockJob → Bool) : Bool :=
  match (getStrand s 0).long with
  | some l => operandOk l.tsrA && (!isGroup l || operandOk l.tsrB) &&
    (match jobOf (getCore s 0) l (mmaDone (getStrand s 0)) with
     | some j => (runBlock s 0 l j (mmaDone (getStrand s 0))).x.bad.isNone && !(runBlock s 0 l j (mmaDone (getStrand s 0))).x.hold && Q j
     | none => false)
  | none => false
theorem witness_MatrixMultiply_block : blockB sMma (fun j => decide (j.rows ≠ [] ∧ j.cols ≠ [] ∧ 0 ∈ j.rows ∧ 1 ∉ j.rows)) = true ∧
    blockB ((out (.mmaGRendezvous 0) (sGroup geom1)).getD s0) (fun j => decide (j.rows ≠ [] ∧ j.cols ≠ [] ∧ 79 ∉ j.cols)) = true ∧
    blockB sMma (fun j => decide (j.nkb = 1)) = true := by decide +kernel
/-- Slot 0 of the core's table is owned by strand 0. -/
def sSlot : State := modCore sMma 0 fun y => { y with matSlot := 8 }
theorem witness_MatrixMultiply_step : stepB sMma (fun r => !r.x.hold && r.x.bad.isNone && decide (-2 ^ 15 ≤ r.tile.x) && decide (r.tile.x < 2 ^ 15)) = true ∧
    heldB (sAhead (sLatched 0) 9 mma0) = true ∧ (List.range 4).all (fun n => !stepDue (sMat 0 0) n) = true ∧
    (stepB (sAhead (sLatched 0) 8 mma0) (fun r => !r.x.hold && r.x.bad == some (0x100000, 0xF)) = true ∧ (getStrand (sAhead (sLatched 0) 8 mma0) 0).vtabQ = []) ∧
    granted (sMat 0 0) 0 = none ∧ (granted sMma 0 = some 0 ∧ 0 = coreOf 0) ∧
    (slotOwner (getCore sSlot 0) sSlot.cycle = some 0 ∧ 0 < liveCount (getCore sSlot 0) ∧ stepReady sSlot (4 * 0 + 0) = true) ∧
    (slotOwner (getCore sMma 0) sMma.cycle = none ∧ stepReady sMma (4 * 0 + 0) = true) := by decide +kernel
theorem test_load_step : ((out (wld0 5) (sMat 0 0)).map fun t => ((me t).pc, (getBuf (myCore t) (myCore t).latest).valid, (getBuf (myCore t) (myCore t).latest).filling)) = some (0x10000, false, some 0) ∧
    ((out (.blockStep 0) (sLoading 0 5)).map fun t => ((me t).pc, (getBuf (myCore t) (myCore t).latest).valid, (me t).long.isNone)) = some (0x10010, true, true) := by decide +kernel
theorem test_block : ((out (.blockStep 0) sMma).map fun t => ((me t).pc, (me t).resume, (me t).long.isNone)) = some (0x10020, 0, true) := by decide +kernel
theorem test_product : ((out (accrd0 6) sStepped).map fun t => (seen t 0 0x22203, seen t 0 0x22202, seen t 0 0x22201)) = some (0x40, 0, 0) := by decide +kernel
theorem test_mma_traps : trapped mma0 (sMat 0 0) = some (9, 0, 0x10000) ∧ trapped (mmaG0 49) (sMat 0 geom1) = some (9, 0x100440, 0x10000) := by decide +kernel

/-! ### Tree walks (spec/08) -/

/-- A node record of weights in groups of 2-bit mantissas, 32 inputs and two columns, that takes the greatest. -/
def node0 : Nat := 0x21300 + 0x21310 * 2 ^ 64 + 0x21280 * 2 ^ 128 + 32 * 2 ^ 320 + 2 * 2 ^ 336 + 11 * 2 ^ 348 + 2 * 2 ^ 352
/-- s10 holds the root, a node at 0x21240 whose second child is a leaf; s11 places the records and s12, s13 the staging region, s13 misaligned. -/
def sWalk (resume : Word) : State := withMem (modMe (sMat resume 0) fun x => { x with s := x.s ++ [(10, 0x21240), (11, 0x24000), (12, 0x28000), (13, 0x28020)] })
  [(0x21240, 64, node0), (0x21288, 8, 0x8000000000000007), (0x21300, 1, 1), (0x21308, 1, 1), (0x21310, 2, 0x8180)]
def walki0 : Instr := .walki c128 10 4 11 12 .glob 8 0 1
def walk0 (sc : SReg) : Instr := .walk c128 4 11 sc .glob 8 0
/-- The walk has begun, with one record. -/
def walkFrom (tsr : Nat) : Option Long := some ⟨walki0, BitVec.ofNat 512 tsr, 0, false, false, 0, 0x24000, 0x28000, [0x21240], 0, none, 0⟩
def sWalking : State := modMe (sWalk 0x8540000000000000) fun x => { x with long := walkFrom (tsr 9 0 0x22000 0 0 [32, 1] [2, 64]) }
/-- The node has 192 inputs, three chunks, of which the array has taken one and the staging engine has fetched two. -/
def node1 : Nat := node0 - 32 * 2 ^ 320 + 192 * 2 ^ 320
def sChunk1 : State := (out (.stepGrant 0) (withMem (modMe sWalking fun x => { x with long := walkFrom (tsr 9 0 0x22000 0 0 [192, 1] [2, 384]) }) [(0x21240, 64, node1)])).getD s0
def sChunk2 : State := (out (.walkStagingFetch 0 1) sChunk1).getD s0
/-- The walk has one record, as given, and traps on faults or not. -/
def sRow (wte : Bool) (r : BitVec 256) : State := modMe sWalking fun x => { x with long := x.long.map fun l => { l with rows := [r], wte := wte, round := 1 } }
def walkB (s : State) (Q : Long → Bool) : Bool :=
  match (getStrand s 0).long with
  | some l => granted s 0 == some 0 && (walkArgs l.i).isSome && l.i.common == some c128 && l.prog.isNone && !killDue (getStrand s 0) && (irqLine (getStrand s 0)).isNone && Q l
  | none => false
def statOf (r : BitVec 256) : Nat := (r.extractLsb' 72 4).toNat
theorem witness_Walks_issue : (Ready walki0 c128 (sWalk 0) ∧ reads1 walki0 c128 (sWalk 0) .glob 4 operandOk (fun _ => true) = true ∧
      hasReduction (sWalk 0) (sWalk 0).cur = false ∧ walkBad (myCore (sWalk 0)) 0x24000 0x28000 = none ∧ (me (sWalk 0)).resume.toNat / 2 ^ 56 ≠ 0x85) ∧
    (Ready (walk0 12) c128 (sWalk 0) ∧ reads1 (walk0 12) c128 (sWalk 0) .glob 4 operandOk (fun _ => true) = true ∧ (me (sWalk 0)).resume.toNat / 2 ^ 56 ≠ 0x86) ∧
    (Ready (walk0 13) c128 (sWalk 0) ∧ reads1 (walk0 13) c128 (sWalk 0) .glob 4 operandOk (fun _ => true) = true ∧
      walkBad (myCore (sWalk 0)) 0x24000 0x28020 = some 0x28020 ∧ (me (sWalk 0)).vtabQ = []) :=
  ⟨⟨ready_of (by decide +kernel), by decide +kernel⟩, ⟨ready_of (by decide +kernel), by decide +kernel⟩, ready_of (by decide +kernel), by decide +kernel⟩
theorem witness_Walks_merged : hasReduction { sWalk 0 with reductions := [⟨0x20000, .add, .s32, 1, [⟨0, 7, 0x20000⟩]⟩] } 0 = true ∧
    Ready walki0 c128 { sWalk 0 with reductions := [⟨0x20000, .add, .s32, 1, [⟨0, 7, 0x20000⟩]⟩] } := ⟨by decide +kernel, ready_of (by decide +kernel)⟩
theorem witness_Walks_again : (Ready walki0 c128 (sWalk 0x8540000000000000) ∧ reads1 walki0 c128 (sWalk 0x8540000000000000) .glob 4 operandOk (fun _ => true) = true) ∧
    (Ready (walk0 12) c128 (sWalk 0x8600000000000000) ∧ reads1 (walk0 12) c128 (sWalk 0x8600000000000000) .glob 4 operandOk (fun _ => true) = true) :=
  ⟨⟨ready_of (by decide +kernel), by decide +kernel⟩, ready_of (by decide +kernel), by decide +kernel⟩
theorem witness_Walks_round : walkB sWalking (fun l => l.round == 0 && l.rows.any fun r => statOf r == 0) = true ∧
    walkB (sRow false (2 <<< 72)) (fun l => l.rows.all (fun r => statOf r == 2) && !l.wte) = true ∧
    (walkB (sRow true (2 <<< 72)) (fun l => l.rows.all (fun r => statOf r == 2) && l.wte) = true ∧ (getStrand (sRow true (2 <<< 72)) 0).vtabQ = []) := by decide +kernel
/-- What the clauses of a granted chunk and of the staging engine ask of an input. -/
def visitB (s : State) (Q : Long → WalkProg → Visit → Bool) : Bool :=
  match (getStrand s 0).long with
  | some l => (walkArgs l.i).isSome && mayRun s 0 && match l.prog with
    | some p => (match p.visit with | some v => !p.todo.isEmpty && Q l p v | none => false)
    | none => false
  | none => false
theorem witness_Walks_chunk : granted sChunk2 (coreOf 0) = some 0 ∧ visitB sChunk2 (fun _ _ v => decide (v.taken < v.staged) && decide (v.taken + 1 < nodeChunks v.node)) = true := by decide +kernel
theorem witness_Walks_staging : visitB sChunk1 (fun _ _ v =>
    let a := engineActor 0 (stCtx (getStrand sChunk1 0)) (getCore sChunk1 0).desc
    let planes := chunkPlanes v.node v.staged
    nodeOk v.node && decide (v.staged ≤ v.taken + 1) && decide (64 * v.staged < nodeK v.node) &&
    givesB (loadSpan sChunk1 a .glob (nodeMptr v.node + planes.1.1) planes.1.2) fun e => givesB (loadSpan e.2 a .glob (nodeSptr v.node + planes.2.1) planes.2.2) fun _ => true) = true := by decide +kernel
/-- A round has begun and the visit to its first node has not. -/
def sUnvisited : State := modMe sWalking fun x => { x with long := x.long.map fun l => { l with prog := some ⟨[0], [(0x21240, [0])], none⟩ } }
theorem witness_Walks_first : (match (getStrand sUnvisited 0).long with
    | some l => l.prog == some ⟨[0], [(0x21240, [0])], none⟩ && mayRun sUnvisited 0 &&
      (match walkArgs l.i with
       | some (_, row0, _) => (match beginVisit sUnvisited 0 l ⟨[0], [(0x21240, [0])], none⟩ row0 0x21240 [0] with
          | .ok (t, _, v) => givesB (fetchChunk t (coreOf 0) (stagingActor t 0) v.node l.x.toNat 0) fun _ => true
          | .error _ => false)
       | none => false)
    | none => false) = true := by decide +kernel
/-- The staging engine begins the visit; the array then takes what it fetched, whatever another party has stored since. -/
theorem test_first_chunk : ((out (.walkStagingFetch 0 0) sUnvisited).bind fun t => (getStrand t 0).long.bind fun l => l.prog.bind fun p => p.visit.map fun v => (v.staged, v.taken)) = some (1, 0) := by
  decide +kernel
theorem witness_Walks_decide : [0x3F800000, 0x40000000] ≠ [] ∧ [0, 0x3F800000].length = [0x3F800000, 0x40000000].length ∧
    [0x3F800000, 0x40000000].any (isNan fmtF32) = false ∧ [0, 0x3F800000].any (isNan fmtF32) = false := by decide +kernel
theorem test_walk_starts : ((out walki0 (sWalk 0)).map fun t => ((me t).resume, readLE (myCore t).pool 0x24000 8, readLE (myCore t).pool 0x24028 8)) =
    some (0x8540000000000000, 0x21240, 0xF00) ∧ trapped (walk0 13) (sWalk 0) = some (9, 0x28020, 0x10000) := by decide +kernel
theorem test_walk_round : ((out (.walkRound 0) sWalking).map fun t => (readLE (myCore t).pool 0x24000 8, readLE (myCore t).pool 0x24008 8, readLE (myCore t).pool 0x24018 8)) =
    some (0x8000000000000007, 0x4000000000001101, 1) := by decide +kernel
theorem test_walk_ends : trapped (.walkRound 0) (sRow true (2 <<< 72)) = some (8, 0x100, 0x10000) ∧
    ((out (.walkRound 0) (sRow false (2 <<< 72))).map fun t => ((me t).pc, (me t).resume)) = some (0x10010, 0) := by decide +kernel
theorem test_decide : [decideChild 0 [5, 7, 7] [], decideChild 1 [7, 5, 5] [], decideChild 2 [0x3F800000, 0x40000000] [0x3F800000, 0], decideChild 3 [0xBF800000, 0x3F800000, 0x80000000] []] =
    [some (1, 7), some (1, 5), some (1, 0x40000000), some (1, 0x80000000)] := by decide +kernel

/-! ### Homes that answer -/

theorem mget_all {α : Type} {m : Map α} {d : α} {P : α → Bool} (hd : P d = true) (h : (m.all fun e => P e.2) = true) (k : Nat) : P (mget d m k) = true := by
  induction m with
  | nil => exact hd
  | cons e m ih =>
    simp only [List.all_cons, Bool.and_eq_true] at h
    by_cases hk : e.1 = k <;> simp [mget, hk, h.1, ih h.2]
theorem mhas_all {α : Type} {m : Map α} {P : Nat → Bool} (h : (m.all fun e => P e.1) = true) {k : Nat} (hk : mhas m k = true) : P k = true := by
  induction m with
  | nil => simp [mhas] at hk
  | cons e m ih =>
    simp only [List.all_cons, Bool.and_eq_true] at h
    simp only [mhas, Bool.or_eq_true, beq_iff_eq] at hk
    rcases hk with hk | hk
    · exact hk ▸ h.1
    · exact ih h.2 hk

/-- `AllHomes` but for the joins, computed. -/
def cachedB (s : State) : Bool :=
  (s.cores.all fun e => e.2.dcache.all fun l => !noHome s (l.1 * 128)) &&
  (s.clusters.all fun e => (e.2.l2.all fun l => !noHome s (l.1 * 128)) && e.2.tasks.all fun t => !noHome s t.key) &&
  s.reductions.all fun r => !noHome s r.pa
theorem homes_join {s : State} (h : cachedB s = true) (hj : ∀ j ∈ s.joins, JoinHomes s j) : AllHomes s := by
  simp only [cachedB, Bool.and_eq_true] at h
  obtain ⟨⟨h1, h2⟩, h3⟩ := h
  refine ⟨fun q line l hl => ?_, fun cl line l hl => ?_, hj, fun cl t ht => ?_, fun r hr => by simpa using List.all_eq_true.1 h3 r hr⟩
  · have := mget_all (P := fun y : Core => y.dcache.all fun l => !noHome s (l.1 * 128)) (d := Core.reset) rfl h1 q
    simp only [coreLine] at hl
    split at hl
    · next hh => simpa using mhas_all (P := fun k => !noHome s (k * 128)) this hh
    · simp at hl
  · have := mget_all (P := fun y : Cluster => (y.l2.all fun l => !noHome s (l.1 * 128)) && y.tasks.all fun t => !noHome s t.key) (d := Cluster.reset) rfl h2 cl
    simp only [Bool.and_eq_true] at this
    simp only [l2Line] at hl
    split at hl
    · next hh => simpa using mhas_all (P := fun k => !noHome s (k * 128)) this.1 hh
    · simp at hl
  · have := mget_all (P := fun y : Cluster => (y.l2.all fun l => !noHome s (l.1 * 128)) && y.tasks.all fun t => !noHome s t.key) (d := Cluster.reset) rfl h2 cl
    simp only [Bool.and_eq_true] at this
    simpa using List.all_eq_true.1 this.2 t ht
theorem homes_of {s : State} (h : (cachedB s && s.joins.isEmpty) = true) : AllHomes s := by
  simp only [Bool.and_eq_true, List.isEmpty_iff] at h
  exact homes_join h.1 fun j hj => by simp [h.2] at hj

/-! ### Atomics and fences (spec/09) -/

/-- s1 = 0x20000, where a word holds 5; s2 = 0x40000000, a page with reduction; s3 = 7, s4 = 5; s6 and s7 a mutex's and an unusable handle, s8 = 64. -/
def sa : State := { withS [(1, 0x20000), (2, 0x40000000), (3, 7), (4, 5), (6, 0x80), (7, 0xFF00000000000000), (8, 64)] with
  mem := writeLE (writeLE s0.mem 0x20000 4 5) 0x3008 8 0x4000009F }
def amo0 (d sb : SReg) (r : SReg) : Instr := .amo c64 .add .z32 .device .glob 0 d r sb
def cas0 : Instr := .cas c64 .z32 .cluster .glob 5 1 4 3
/-- The location of an atomic, with a condition on it. -/
def atomicB (i : Instr) (s : State) (ea : Nat) (Q : Loc → Bool) : Bool :=
  givesB (locate (opened i c64 s) (strandActor (opened i c64 s) s.cur) .glob ea 4 4 .atomic) fun l => plainB l 4 && Q l
theorem witness_AtomicsAndFences_amo : (Ready (amo0 5 3 1) c64 sa ∧ atomicB (amo0 5 3 1) sa (getS (me sa) 1 + (0 : BitVec 8).signExtend 64).toNat (fun l => (merges .add .z32 5 l).isNone) = true) ∧
    (Ready (amo0 0 3 2) c64 sa ∧ atomicB (amo0 0 3 2) sa (getS (me sa) 2 + (0 : BitVec 8).signExtend 64).toNat (fun l => merges .add .z32 0 l == some 0x40000000) = true) ∧ AllHomes sa :=
  ⟨⟨ready_of (by decide +kernel), by decide +kernel⟩, ⟨ready_of (by decide +kernel), by decide +kernel⟩, homes_of (by decide +kernel)⟩
theorem witness_AtomicsAndFences_cas : Ready cas0 c64 sa ∧ atomicB cas0 sa (getS (me sa) 1).toNat (fun _ => true) = true ∧ AllHomes sa :=
  ⟨ready_of (by decide +kernel), by decide +kernel, homes_of (by decide +kernel)⟩
def sRed : State := { s0 with reductions := [⟨0x40000000, .add, .z32, 7, [⟨0, 1, 0x40000000⟩]⟩, ⟨0x40000000, .add, .z32, 8, [⟨1, 7, 0x40000000⟩]⟩] }
theorem witness_AtomicsAndFences_merge : ∃ x y, sRed.reductions[0]? = some x ∧ sRed.reductions[1]? = some y ∧ 0 < 1 ∧ x.pa = y.pa ∧ x.fn = y.fn ∧ x.ty = y.ty :=
  ⟨_, _, rfl, rfl, by decide, rfl, rfl, rfl⟩
theorem witness_AtomicsAndFences_value : (Ty.z32).isInt = true ∧ AmoFn.min ≠ .swap ∧ 5 < 2 ^ (Ty.z32).width := by decide
theorem witness_AtomicsAndFences_float : Encoding fmtF32 0x3F800000 ∧ Encoding fmtF32 0x7FC00001 ∧ isNan fmtF32 0x7FC00001 = true ∧ finEnc fmtF32 0x3F800000 ∧ finEnc fmtF32 0xC0000000 := by
  unfold Encoding finEnc; decide
theorem test_amo_float : [amoValue .add .f32 0x3F800000 0xC0000000, amoValue .min .f32 0x3F800000 0xC0000000, amoValue .max .f32 0x3F800000 0x7FC00001] = [0xBF800000, 0xC0000000, 0x7FC00000] := by
  decide +kernel
/-- A load of the strand has not landed; a store's line is dirty in the L2 slice. -/
def sLanded : State := (out (.resultLands 0) sDirty).getD s0
def sFlight : State := modMe sa fun x => { x with inflight := [⟨1, [], false, false, false, none⟩], d := [(1, 1)] }
theorem witness_AtomicsAndFences_fence : (allLanded sFlight 0 = false ∧ Ready (.fence c64 .device .both) c64 sFlight) ∧
    (allLanded sLanded 0 = true ∧ AllHomes sLanded ∧ Ready (.fence c64 .device .both) c64 sLanded ∧ Ready (.fence c64 .core .acq) c64 sLanded) :=
  ⟨⟨by decide +kernel, ready_of (by decide +kernel)⟩, by decide +kernel, homes_of (by decide +kernel), ready_of (by decide +kernel), ready_of (by decide +kernel)⟩

/-- s1 to s5 name mutex 0, event line 0 and barrier counter 0 of cluster 0, which the context owns, a lock at 0x20100 and a barrier record at 0x20200;
s6 is no handle; s7 = 42, s8 = 1, s9 = 2; s10 to s13 are the strand addresses 0, 1, strand 0 of device 1, and none; s20 and s21 name mutex 0 and event line 0 of device 1. -/
def sSync : State := modCluster (withS [(1, 0x1000000000000000), (2, 0x2000000000000000), (3, 0x6000000000000000), (4, 0x5000000000020100),
    (5, 0x7000000000020200), (6, 0xF000000000000000), (7, 42), (8, 1), (9, 2), (11, 1), (12, 0x41000), (13, 0x80000), (20, 0x1000000000010400), (21, 0x2000000000010400)]) 0 fun c =>
  { c with owners := [(0, 0x80), (0x40, 0x80), (0x80, 0x80), (0x90, 0x80)] }
/-- The context has a cascade domain, in a cascade of two devices; every port is up, or none. -/
def sAlone : State := { modCore sSync 0 fun y => { y with desc := y.desc ||| (5 : BitVec 512) <<< 208 } with mgmt := { sSync.mgmt with routes := [0, 0] } }
def upLink : LinkUnit := { LinkUnit.reset with state := 2, width := 16, rate := 6 }
def sAway : State := { sAlone with links := (List.range 12).map fun p => (16 + p, upLink) }
theorem reached {s : State} {dev : Nat} (h : ((List.range 12).all fun p => linkCarries s (16 + p)) = true) (hu : s.unreach.contains dev = false) : deviceGone s dev = false := by
  have hp : ∀ n, linkCarries s (16 + n % 12) = true := fun n => List.all_eq_true.1 h _ (List.mem_range.2 (Nat.mod_lt _ (by decide)))
  simp only [deviceGone, routeOf, hu, hp, Bool.false_or, if_true]
  rfl
theorem witness_AtomicsAndFences_away : Ready (.bind c64 20 7 9) c64 sAway ∧ Ready (.unbind c64 20 7 9) c64 sAway ∧ handleOk sAway (stCtx (me sAway)) (getS (me sAway) 20) = false ∧
    handleAway sAway sAway.cur (getS (me sAway) 20) = some 1 ∧ deviceGone sAway 1 = false :=
  ⟨ready_of (by decide +kernel), ready_of (by decide +kernel), by decide +kernel, by decide +kernel, reached (by decide +kernel) (by decide +kernel)⟩
def withBinds (l : List Binding) : State := modCtx sSync 0 fun x => { x with binds := l }
theorem witness_AtomicsAndFences_bind : (∀ s ∈ [sSync, withBinds [⟨0x1000000000000000, 42, 2⟩], withBinds (List.replicate 1024 ⟨0, 0, 1⟩)],
      (∀ i ∈ [Instr.bind c64 1 7 9, .bind c64 1 7 0, .unbind c64 1 7 9], Ready i c64 s) ∧ handleOk s (stCtx (me s)) (getS (me s) 1) = true) ∧
    (Ready (.bind c64 6 7 9) c64 sSync ∧ handleOk sSync (stCtx (me sSync)) (getS (me sSync) 6) = false ∧ handleAway sSync sSync.cur (getS (me sSync) 6) = none ∧ (me sSync).vtabQ = []) ∧
    (getCtx sSync (stCtx (me sSync))).binds.length < 1024 ∧ ⟨getS (me sSync) 1, getS (me sSync) 7, getS (me sSync) 9⟩ ∈ (getCtx (withBinds [⟨0x1000000000000000, 42, 2⟩]) 0).binds ∧
    1024 ≤ (getCtx (withBinds (List.replicate 1024 ⟨0, 0, 1⟩)) 0).binds.length := by
  refine ⟨fun s hs => ?_, ⟨ready_of (by decide +kernel), by decide +kernel⟩, by decide +kernel, by decide +kernel, by decide +kernel⟩
  simp only [List.mem_cons, List.not_mem_nil, or_false] at hs
  rcases hs with rfl | rfl | rfl <;> exact ⟨ready_all (by decide +kernel), by decide +kernel⟩

theorem test_amo : ((out (amo0 5 3 1) sa).map fun t => (getS (me t) 5, readLE t.mem 0x20000 4)) = some (5, 12) ∧
    ((out (amo0 0 3 2) sa).map fun t => (t.reductions.map fun r => (r.pa, r.val, r.owners))) = some [(0x40000000, 7, [⟨0, 7, 0x40000000⟩])] := by decide +kernel
theorem test_cas : ((out cas0 sa).map fun t => (getS (me t) 5, seen t 0 0x20000)) = some (5, 7) ∧ ((out (.cas c64 .z32 .cluster .glob 5 1 3 4) sa).map fun t => (getS (me t) 5, seen t 0 0x20000)) = some (5, 5) := by
  decide +kernel
theorem test_merge : ((out (.reductionMerge 0 1) sRed).map fun t => t.reductions) = some [⟨0x40000000, .add, .z32, 15, [⟨0, 1, 0x40000000⟩, ⟨1, 7, 0x40000000⟩]⟩] := by decide +kernel
theorem test_fence : ((out (.fence c64 .device .both) sLanded).map fun t => (byteAt t.mem 0x20008, (l2Line t 0 0x400).isNone)) = some (0x88, true) := by decide +kernel
theorem test_bind : ((out (.bind c64 1 7 9) sSync).map fun t => (getCtx t 0).binds) = some [⟨0x1000000000000000, 42, 2⟩] ∧
    ((out (.unbind c64 1 7 9) (withBinds [⟨0x1000000000000000, 42, 2⟩])).map fun t => (getCtx t 0).binds) = some [] ∧ trapped (.bind c64 6 7 9) sSync = some (0x13, 0xF000000000000000, 0x10000) := by
  decide +kernel

/-! ### Locks, events and waits (spec/09) -/

def withMutex (m : Mutex) : State := setMutex sSync 0 0 m
def withEvent (e : EvLine) : State := setEv sSync 0 0 e
/-- The lock at 0x20100 holds a word. -/
def withLock (v : Nat) : State := { sSync with mem := writeLE sSync.mem 0x20100 8 v }
/-- The strand is inside an instruction and waits. -/
def waitIn (s : State) (i : Instr) (what : WaitFor) (arg : Word) (limit : Nat) (served : Option Word) : State :=
  modMe s fun x => { x with wait := some ⟨i, what, arg, 0, limit, 0, 0, served, false, 0⟩ }
theorem resumes_of {s : State} {w : Wait} (h : ((!heldBack s s.cur) && decide ((me s).wait = some w) && (!breakable w || !killDue (me s))) = true) : Resumes s w := by
  simp only [Bool.and_eq_true, Bool.or_eq_true, Bool.not_eq_true', decide_eq_true_eq] at h
  exact ⟨h.1.1, h.1.2, h.2⟩

theorem witness_LocksAndEvents_handles : (∀ i ∈ [Instr.acq c64 6, .acqV c64 6, .rel c64 6, .relV c64 6, .evwait c64 14 6, .evwaitPk c64 14 6, .evsig c64 6 7, .evsigClr c64 6 7], Ready i c64 sSync) ∧
    sSync.cur < 4096 ∧ sSync.devNo < 64 ∧ AllHomes sSync ∧ hasReduction sSync 0 = false ∧ handleAway sSync 0 (getS (me sSync) 6) = none ∧ handleOk sSync (stCtx (me sSync)) (getS (me sSync) 6) = false ∧ (me sSync).vtabQ = [] ∧
    (∀ i ∈ [Instr.acqV c64 1, .relV c64 1], Ready i c64 sSync) ∧ handleOk sSync (stCtx (me sSync)) (getS (me sSync) 1) = true :=
  ⟨ready_all (by decide +kernel), by decide +kernel, by decide +kernel, homes_of (by decide +kernel), by decide +kernel, by decide +kernel, by decide +kernel, by decide +kernel,
    ready_all (by decide +kernel), by decide +kernel⟩
/-- A merged atomic of the strand is on its way; a strand of higher number has asked for the mutex in this cycle. -/
def sAtomic : State := { sSync with reductions := [⟨0x40000000, .add, .z32, 7, [⟨0, 1, 0x40000000⟩]⟩] }
def sContended : State := noteAsk sSync (askMutex 0 0) 5
theorem witness_LocksAndEvents_waits : (hasReduction sAtomic 0 = true ∧ AllHomes sAtomic ∧ ∀ i ∈ [Instr.rel c64 1, .relV c64 1, .evsig c64 2 7, .evsigClr c64 2 7], Ready i c64 sAtomic) ∧
    mayAsk sContended (askMutex 0 0) (addrOfStrand sContended sContended.cur).toNat = false ∧ Ready (.acq c64 1) c64 sContended ∧ handleOk sContended 0 (getS (me sContended) 1) = true ∧ AllHomes sContended :=
  ⟨⟨by decide +kernel, homes_of (by decide +kernel), ready_all (by decide +kernel)⟩, by decide +kernel, ready_of (by decide +kernel), by decide +kernel, homes_of (by decide +kernel)⟩
theorem witness_LocksAndEvents_away : (∀ s ∈ [sAway, sAlone], AllHomes s ∧ handleOk s (stCtx (me s)) (getS (me s) 20) = false ∧ handleAway s 0 (getS (me s) 20) = some 1 ∧ hKind (getS (me s) 20) = 1 ∧
      handleOk s (stCtx (me s)) (getS (me s) 21) = false ∧ handleAway s 0 (getS (me s) 21) = some 1 ∧ hKind (getS (me s) 21) = 2 ∧ hasReduction s 0 = false ∧ (me s).vtabQ = [] ∧
      ∀ i ∈ [Instr.acqV c64 20, .relV c64 20, .acq c64 20, .rel c64 20, .evsig c64 21 7, .evsigClr c64 21 7], Ready i c64 s) ∧ deviceGone sAway 1 = false ∧ deviceGone sAlone 1 = true := by
  refine ⟨fun s hs => ?_, reached (by decide +kernel) (by decide +kernel), by decide +kernel⟩
  simp only [List.mem_cons, List.not_mem_nil, or_false] at hs
  rcases hs with rfl | rfl <;> exact ⟨homes_of (by decide +kernel), by decide +kernel, by decide +kernel, by decide +kernel, by decide +kernel, by decide +kernel, by decide +kernel,
    by decide +kernel, by decide +kernel, ready_all (by decide +kernel)⟩
theorem test_away : trapped (.acq c64 20) sAlone = some (0xE, 0x1000000000010400, 0x10000) ∧ trapped (.acq c64 20) sSync = some (0x13, 0x1000000000010400, 0x10000) := by decide +kernel
/-- What the clauses of a mutex or an event line ask of an input, beside the resource itself. -/
def unitB (s : State) (sa : SReg) (kind : Nat) (is : List Instr) : Bool :=
  let h := getS (me s) sa
  cachedB s && s.joins.isEmpty && handleOk s (stCtx (me s)) h && hKind h == kind && (kind == 5 || hCluster h == clusterOf s.cur) && (me s).vtabQ.isEmpty && is.all fun i => readyB i c64 s
theorem witness_LocksAndEvents_mutex :
    (unitB (withMutex ⟨none, []⟩) 1 1 [.acq c64 1, .rel c64 1] && unitB (withMutex ⟨some 1, [5]⟩) 1 1 [.acq c64 1, .rel c64 1] && unitB (withMutex ⟨some 0, []⟩) 1 1 [.rel c64 1] &&
      unitB (withMutex ⟨some 0, [1, 5]⟩) 1 1 [.rel c64 1]) = true ∧
    getMutex (withMutex ⟨none, []⟩) 0 0 = ⟨none, []⟩ ∧ getMutex (withMutex ⟨some 1, [5]⟩) 0 0 = ⟨some 1, [5]⟩ ∧ getMutex (withMutex ⟨some 0, []⟩) 0 0 = ⟨some (addrOfStrand sSync 0), []⟩ ∧
    getMutex (withMutex ⟨some 0, [1, 5]⟩) 0 0 = ⟨some (addrOfStrand sSync 0), [1, 5]⟩ ∧ (1 : Word).toNat % 4096 ≠ 0 ∧ otherDev sSync 1 18 12 = false ∧ mayAsk sSync (askMutex 0 0) 0 = true ∧ (getMutex (withMutex ⟨some 1, [5]⟩) 0 0).holder ≠ some (addrOfStrand sSync 0) := by
  decide +kernel
/-- A load of the lock word is still to be performed. -/
def sLoadLock : State := modMe (withLock 0) fun x => { x with inflight := [⟨0, [], false, false, false, some ⟨false, 15, .z64, 0, false, [⟨0, 0x20100, .glob 0x20100⟩], 0, 1⟩⟩] }
theorem witness_LocksAndEvents_lock : 0x20100 % 8 = 0 ∧
    (unitB (withLock 0) 4 5 [.acq c64 4, .rel c64 4] && unitB (withLock 5) 4 5 [.acq c64 4] && unitB (withLock 0x8000000000000000) 4 5 [.rel c64 4]) = true ∧
    (∀ s ∈ [withLock 0, withLock 5], lockLoc (opened (.acq c64 4) c64 s) (getS (me s) 4) = .ok 0x20100 ∧ lockQueue s 0x20100 = [] ∧ mayAsk s (askLock 0x20100) 0 = true ∧ reductionAt s (strandActor s 0) 0x20100 8 = false) ∧
    (lockLoc (opened (.acq c64 4) c64 sLoadLock) (getS (me sLoadLock) 4) = .ok 0x20100 ∧ reductionAt sLoadLock (strandActor sLoadLock 0) 0x20100 8 = true ∧ unitB sLoadLock 4 5 [.acq c64 4] = true) ∧
    lockLoc (opened (.rel c64 4) c64 (withLock 0x8000000000000000)) (getS (me sSync) 4) = .ok 0x20100 ∧ lockQueue (withLock 0x8000000000000000) 0x20100 = [] ∧
    quantityFor (withLock 0) 0 .device (.glob 0x20100 ⟨0, 0, 0, 0⟩) 8 = 0 ∧ quantityFor (withLock 5) 0 .device (.glob 0x20100 ⟨0, 0, 0, 0⟩) 8 ≠ 0 ∧
    quantityFor (withLock 0x8000000000000000) 0 .device (.glob 0x20100 ⟨0, 0, 0, 0⟩) 8 = (0x8000000000000000#64 ||| addrOfStrand sSync 0).toNat := by
  decide +kernel
theorem witness_LocksAndEvents_event : (unitB (withEvent ⟨1, 9, []⟩) 2 2 [.evwait c64 14 2, .evwaitPk c64 14 2, .evsig c64 2 7, .evsigClr c64 2 7] &&
      unitB (withEvent ⟨0, 9, [(1, false), (2, true)]⟩) 2 2 [.evwait c64 14 2, .evwaitPk c64 14 2, .evsig c64 2 7, .evsigClr c64 2 7]) = true ∧
    getEv (withEvent ⟨1, 9, []⟩) 0 0 = ⟨1, 9, []⟩ ∧ getEv (withEvent ⟨0, 9, [(1, false), (2, true)]⟩) 0 0 = ⟨0, 9, [(1, false), (2, true)]⟩ ∧
    mayAsk sSync (askEvent 0 0) sSync.cur = true ∧ (∀ n ∈ [0, 1], let r := serveQueue n [(1, false), (2, true)]; 0 ∉ r.1 ∧ r.1.Nodup) := by decide +kernel
def sGranted : State := waitIn sSync (.acq c64 1) (.mutex 0 0) 0x1000000000000000 0 (some 0)
def sSignalled : State := waitIn sSync (.evwait c64 14 2) (.event 0 0 false) 0x2000000000000000 0 (some 42)
theorem witness_LocksAndEvents_wake : Resumes sGranted ⟨.acq c64 1, .mutex 0 0, 0x1000000000000000, 0, 0, 0, 0, some 0, false, 0⟩ ∧ AllHomes sGranted ∧
    Resumes sSignalled ⟨.evwait c64 14 2, .event 0 0 false, 0x2000000000000000, 0, 0, 0, 0, some 42, false, 0⟩ ∧ AllHomes sSignalled :=
  ⟨resumes_of (by decide +kernel), homes_of (by decide +kernel), resumes_of (by decide +kernel), homes_of (by decide +kernel)⟩

theorem test_mutex : ((out (.acq c64 1) sSync).map fun t => (getMutex t 0 0, (me t).pc)) = some (⟨some 0, []⟩, 0x10008) ∧
    ((out (.acq c64 1) (withMutex ⟨some 1, [5]⟩)).map fun t => (getMutex t 0 0, (me t).pc)) = some (⟨some 1, [5, 0]⟩, 0x10000) ∧
    ((out (.rel c64 1) (withMutex ⟨some 0, [1, 5]⟩)).map fun t => getMutex t 0 0) = some ⟨some 1, [5]⟩ ∧ trapped (.rel c64 1) sSync = some (0x13, 0x1000000000000000, 0x10000) := by decide +kernel
theorem test_lock : ((out (.acq c64 4) (withLock 0)).map fun t => readLE t.mem 0x20100 8) = some 0x8000000000000000 ∧
    ((out (.rel c64 4) (withLock 0x8000000000000000)).map fun t => readLE t.mem 0x20100 8) = some 0 := by decide +kernel
theorem test_forms : ((out (.acqV c64 1) sSync).map fun t => (me t).pc) = some 0x10008 ∧ ((out (.relV c64 1) sSync).map fun t => getMutex t 0 0) = some ⟨none, []⟩ := by decide +kernel
theorem test_event_wait : ((out (.evwait c64 14 2) (withEvent ⟨1, 9, []⟩)).map fun t => (getEv t 0 0, getS (me t) 14)) = some (⟨0, 9, []⟩, 9) ∧
    ((out (.evwaitPk c64 14 2) (withEvent ⟨1, 9, []⟩)).map fun t => (getEv t 0 0, getS (me t) 14)) = some (⟨1, 9, []⟩, 9) ∧
    ((out (.evwait c64 14 2) sSync).map fun t => (getEv t 0 0, (me t).pc)) = some (⟨0, 0, [(0, false)]⟩, 0x10000) ∧ outS (.evwait c64 14 2) sSignalled 14 = some 42 := by decide +kernel
theorem test_event_signal : ((out (.evsig c64 2 7) (withEvent ⟨0, 9, [(2, true), (1, false)]⟩)).map fun t => getEv t 0 0) = some ⟨0, 42, []⟩ ∧ serveQueue 1 [(1, false), (2, true), (3, false)] = ([1, 2], 0, [(3, false)]) ∧
    ((out (.evsig c64 2 7) (withEvent ⟨65535, 9, []⟩)).map fun t => getEv t 0 0) = some ⟨65535, 42, []⟩ ∧
    ((out (.evsigClr c64 2 7) (withEvent ⟨3, 9, []⟩)).map fun t => getEv t 0 0) = some ⟨0, 42, []⟩ := by decide +kernel

/-! ### Barriers and messages (spec/09) -/

/-- A barrier record at 0x20200 for `n` ranks, its flag array at 0x20240. -/
def withRecord (n : Nat) : State := { sSync with mem := writeLE (writeLE sSync.mem 0x20200 8 0x20240) 0x20208 8 n }
def withBarc (b : BarCounter) : State := setBarc sSync 0 0 b
def bar0 (sb : SReg) : Instr := .bar c64 .cluster 3 sb
def barR (sb : SReg) : Instr := .bar c64 .device 5 sb
/-- The barrier's counter was released while this strand was away; the strand has arrived at it and comes again. -/
def sReleased : State := withBarc ⟨0, 0, [], [0]⟩
def sAgain : State := withBarc ⟨2, 1, [0], []⟩
theorem witness_BarriersAndMessages_counter :
    (unitB (withBarc ⟨0, 0, [], []⟩) 3 6 [bar0 8, bar0 9, bar0 0, .bar c64 .core 3 9] && unitB (withBarc ⟨256, 3, [1], []⟩) 3 6 [bar0 9] && unitB (withBarc ⟨2, 1, [1], []⟩) 3 6 [bar0 9] &&
      unitB sReleased 3 6 [bar0 9] && unitB sAgain 3 6 [bar0 9]) = true ∧
    (∀ s ∈ [withBarc ⟨0, 0, [], []⟩, withBarc ⟨256, 3, [1], []⟩, withBarc ⟨2, 1, [1], []⟩], s.cur ∉ (getBarc s 0 0).released ∧ s.cur ∉ (getBarc s 0 0).q ∧ (getBarc s 0 0).q.Nodup ∧ allLanded s 0 = true) ∧
    (getS (me sSync) 0).toNat = 0 ∧ (getBarc (withBarc ⟨256, 3, [1], []⟩) 0 0).n ≠ (getS (me sSync) 9).toNat ∧
    (getBarc (withBarc ⟨0, 0, [], []⟩) 0 0).arr + 1 = (getS (me sSync) 8).toNat ∧ (getBarc (withBarc ⟨0, 0, [], []⟩) 0 0).arr + 1 ≠ (getS (me sSync) 9).toNat ∧
    (getBarc (withBarc ⟨2, 1, [1], []⟩) 0 0).arr + 1 = (getS (me sSync) 9).toNat ∧ 0 ∈ (getBarc sReleased 0 0).released ∧ 0 ∉ (getBarc sAgain 0 0).released ∧ 0 ∈ (getBarc sAgain 0 0).q ∧ sSync.cur < 4096 := by decide +kernel
theorem witness_BarriersAndMessages_scopes : Ready (.bar c64 .strand 6 8) c64 sSync ∧ AllHomes sSync ∧ Ready (.bar c64 .core 6 8) c64 sSync ∧
    handleOk sSync (stCtx (me sSync)) (getS (me sSync) 6) = false ∧ (me sSync).vtabQ = [] :=
  ⟨ready_of (by decide +kernel), homes_of (by decide +kernel), ready_of (by decide +kernel), by decide +kernel, by decide +kernel⟩
/-- What the clauses of a barrier record ask of an input, with a condition on what its rounds give. -/
def recordB (s : State) (sb : SReg) (Q : Nat → Option Rounds → Bool) : Bool :=
  let h := getS (me s) 5
  let m := opened (barR sb) c64 s
  let a := arriveBar .device h m
  cachedB s && s.joins.isEmpty && readyB (barR sb) c64 s && handleOk s (stCtx (me s)) h && hKind h == 7 && allLanded s 0 && decide (me a = me m) && (me s).vtabQ.isEmpty &&
    givesB (homeWords a (strandActor a 0) (hAddr h) 8) fun r => match recordOk r with
      | some (size, flags) => Q size (enterBarrier a (strandActor a 0) (addrOfStrand s 0).toNat flags size (getS (me s) sb).toNat)
      | none => false
theorem witness_BarriersAndMessages_record : recordB (withRecord 1) 8 (fun n _ => n == 1) = true ∧
    recordB (withRecord 1) 0 (fun n r => n == 1 && match r with | some (.through _) => true | _ => false) = true ∧
    recordB (withRecord 2) 8 (fun n r => n == 2 && match r with | some (.waits _) => true | _ => false) = true := by decide +kernel
def sBarred : State := waitIn sSync (bar0 9) (.barc 0 0) 0x6000000000000000 0 (some 0)
theorem witness_BarriersAndMessages_wake : Resumes sBarred ⟨bar0 9, .barc 0 0, 0x6000000000000000, 0, 0, 0, 0, some 0, false, 0⟩ ∧ AllHomes sBarred :=
  ⟨resumes_of (by decide +kernel), homes_of (by decide +kernel)⟩

/-- The core runs two strands of launch 0; strand 1 has some messages, and one of its registers holds 7. -/
def sPost (n : Nat) : State := modStrand { modCore sSync 0 fun y => { y with part := 0x13F000001 } with
  launches := [⟨0, 0, 0, 0xFFFF, 0xFF, 0x13F000001, placeDesc, 0, false⟩] } 1 fun x => { x with run := .running, s := [(4, 7)], mail := List.replicate n ⟨5, 1, 0⟩ }
def send0 (sa : SReg) : Instr := .send c96 1 sa 3 1000
/-- What clauses of SEND and RDREM ask of an input that names strand 1. -/
def postB (s : State) (t : Nat) : Bool := decide (targetOf s (BitVec.ofNat 64 t) = .here t) && coreCtx s (coreOf t) == some (stCtx (me s)) && existsIn s t && (sendersTo s t).isEmpty && s.awaySends.isEmpty && mayAsk s (askMail t) (addrOfStrand s s.cur).toNat && (me s).frozen.isNone
theorem witness_BarriersAndMessages_send : (Ready (send0 13) c96 (sPost 3) ∧ targetOf (sPost 3) (getS (me (sPost 3)) 13) = .bad ∧ (me (sPost 3)).vtabQ = []) ∧
    (Ready (send0 9) c96 (sPost 3) ∧ targetOf (sPost 3) (getS (me (sPost 3)) 9) = .here 2 ∧ existsIn (sPost 3) 2 = false) ∧
    (Ready (send0 11) c96 (sPost 3) ∧ getS (me (sPost 3)) 11 = 1 ∧ postB (sPost 3) 1 = true ∧ (getStrand (sPost 3) 1).mail.length = 3) ∧
    (Ready (send0 11) c96 (sPost 4) ∧ postB (sPost 4) 1 = true ∧ (getStrand (sPost 4) 1).mail.length = 4) :=
  ⟨⟨ready_of (by decide +kernel), by decide +kernel⟩, ⟨ready_of (by decide +kernel), by decide +kernel⟩, ⟨ready_of (by decide +kernel), by decide +kernel⟩, ready_of (by decide +kernel), by decide +kernel⟩
/-- A cascade of two devices, of which the context has no domain. -/
def sClosed : State := { sSync with mgmt := { sSync.mgmt with routes := [0, 0] } }
theorem witness_BarriersAndMessages_away : (∀ i ∈ [send0 12, .rdrem c96 14 12 2 0x20 16], Ready i c96 sClosed ∧ Ready i c96 sAway ∧ Ready i c96 sAlone) ∧
    targetOf sClosed (getS (me sClosed) 12) = .closed ∧ (me sClosed).vtabQ = [] ∧ targetOf sAway (getS (me sAway) 12) = .away 1 ∧ deviceGone sAway 1 = false ∧
    targetOf sAlone (getS (me sAlone) 12) = .away 1 ∧ deviceGone sAlone 1 = true ∧ (me sAlone).vtabQ = [] :=
  ⟨fun i hi => by
    simp only [List.mem_cons, List.not_mem_nil, or_false] at hi
    rcases hi with rfl | rfl <;> exact ⟨ready_of (by decide +kernel), ready_of (by decide +kernel), ready_of (by decide +kernel)⟩,
    by decide +kernel, by decide +kernel, by decide +kernel, reached (by decide +kernel) (by decide +kernel), by decide +kernel⟩
theorem test_send_away : trapped (send0 12) sClosed = some (7, 0x41000, 0x10000) ∧ trapped (send0 12) sAlone = some (0xE, 0x41000, 0x10000) ∧ trapped (send0 12) sSync = some (0x13, 0x41000, 0x10000) := by
  decide +kernel
def recv0 : Instr := .recv c96 1 2 14 1000
/-- The strand has a message. -/
def sMail : State := modMe sSync fun x => { x with mail := [⟨0x77, 9, 0⟩] }
theorem witness_BarriersAndMessages_recv : (Ready recv0 c96 sSync ∧ (me sSync).mail = []) ∧ Ready recv0 c96 sMail ∧ (me sMail).mail = ⟨0x77, 9, 0⟩ :: [] ∧ sMail.awaySends = [] ∧ sendersTo sMail sMail.cur = [] :=
  ⟨⟨ready_of (by decide +kernel), by decide +kernel⟩, ready_of (by decide +kernel), by decide +kernel⟩
/-- The strand waits in an instruction whose time-out came at cycle 1000. -/
def sTimedOut (i : Instr) (what : WaitFor) : State := { waitIn (sPost 0) i what 1 1000 none with cycle := 1000 }
def rdrem0 (sa : SReg) : Instr := .rdrem c96 14 sa 2 0x20 16
theorem witness_BarriersAndMessages_timeout : ∀ p ∈ [(send0 11, WaitFor.mailbox 1 0), (recv0, .message), (rdrem0 11, .remote)], (getStrand (sTimedOut p.1 p.2) 0).wait.any fun w =>
    decide (w.i = p.1) && w.served.isNone && timedOut (sTimedOut p.1 p.2) 0 w := by decide +kernel
theorem witness_BarriersAndMessages_remote : (Ready (rdrem0 11) c96 (sPost 0) ∧ postB (sPost 0) 1 = true ∧ (getCluster (sPost 0) (clusterOf 1)).dm.halted = false ∧ (getStrand (sPost 0) 1).run ≠ .saved ∧
      poolLoc (opened (rdrem0 11) c96 (sPost 0)) 0 0x1020 8 none = .ok (.pool 0 0x1020)) ∧
    (Ready (rdrem0 9) c96 (sPost 0) ∧ targetOf (sPost 0) (getS (me (sPost 0)) 9) = .here 2 ∧ coreCtx (sPost 0) (coreOf 2) = some (stCtx (me (sPost 0))) ∧ existsIn (sPost 0) 2 = false) ∧
    (Ready (rdrem0 11) c96 sSync ∧ targetOf sSync (getS (me sSync) 11) = .here 1 ∧ coreCtx sSync (coreOf 1) ≠ some (stCtx (me sSync)) ∧ (me sSync).vtabQ = [] ∧ (me sSync).frozen = none) :=
  ⟨⟨ready_of (by decide +kernel), by decide +kernel⟩, ⟨ready_of (by decide +kernel), by decide +kernel⟩, ready_of (by decide +kernel), by decide +kernel⟩
/-- Two copy tickets are issued and one has completed. -/
def sTickets : State := modMe sSync fun x => { x with copyN := ⟨2, 1, [], 0⟩ }
theorem witness_BarriersAndMessages_tickets : (∀ i ∈ [Instr.waitseq c64 .copy 7, .waitseq c64 .copy 8, .waitseq c64 .copy 9], Ready i c64 sTickets) ∧ (me sTickets).vtabQ = [] ∧
    2 < (getS (me sTickets) 7).toNat ∧ (getS (me sTickets) 8).toNat ≤ 1 ∧ (getS (me sTickets) 9).toNat = 2 := ⟨ready_all (by decide +kernel), by decide +kernel⟩

theorem test_barrier : ((out (bar0 9) (withBarc ⟨2, 1, [1], []⟩)).map fun t => (getBarc t 0 0, (me t).pc)) = some (⟨0, 0, [], [1]⟩, 0x10008) ∧ ((out (bar0 9) sReleased).map fun t => (getBarc t 0 0, (me t).pc)) = some (⟨0, 0, [], []⟩, 0x10008) ∧
    ((out (bar0 9) sSync).map fun t => (getBarc t 0 0, (me t).pc)) = some (⟨2, 1, [0], []⟩, 0x10000) ∧ trapped (bar0 0) sSync = some (0x13, 0x6000000000000000, 0x10000) := by decide +kernel
theorem test_barrier_record : ((out (barR 8) (withRecord 2)).map fun t => (readLE t.mem 0x20240 4, readLE t.mem 0x202B0 4, (me t).pc)) = some (1, 1, 0x10000) ∧
    ((out (barR 0) (withRecord 1)).map fun t => (readLE t.mem 0x20274 4, (me t).pc)) = some (0, 0x10008) := by decide +kernel
theorem test_send : ((out (send0 11) (sPost 3)).map fun t => ((getStrand t 1).mail.length, getG (me t) 1, (me t).pc)) = some (4, true, 0x1000C) ∧
    trapped (send0 9) (sPost 3) = some (7, 2, 0x10000) ∧ trapped (send0 13) (sPost 3) = some (0x13, 0x80000, 0x10000) := by decide +kernel
theorem test_recv : ((out recv0 sMail).map fun t => (getV (me t) 1, getG (me t) 2, getS (me t) 14, (me t).mail)) = some (0x77, true, 9, []) ∧
    ((out (.recvTimeout 0) (sTimedOut recv0 .message)).map fun t => (getG (me t) 2, (me t).pc)) = some (false, 0x1000C) := by decide +kernel
theorem test_rdrem : ((out (rdrem0 11) (sPost 0)).map fun t => (getS (me t) 14, getG (me t) 2)) = some (7, true) ∧ ((out (rdrem0 9) (sPost 0)).map fun t => (getS (me t) 14, getG (me t) 2)) = some (0, true) := by
  decide +kernel
theorem test_waitseq : trapped (.waitseq c64 .copy 7) sTickets = some (0x13, 42, 0x10000) ∧ ((out (.waitseq c64 .copy 8) sTickets).map fun t => (me t).pc) = some 0x10008 ∧
    ((out (.waitseq c64 .copy 9) sTickets).map fun t => ((me t).pc, (me t).wait.isSome)) = some (0x10000, true) := by decide +kernel

/-! ### The cluster's engines (spec/09) -/

/-- s1 and s2 place copy records: the first moves four bytes at 0x22100 to FP32 elements at 0x22180 and reports at 0x22200, the second is no record; s3 = 3,
s4 = 257, s5 places a drain and s6 a misaligned one, s7 a table image of 1 entry, s8 one whose header is bad, s9 a misaligned one. -/
def sEng : State := withMem (onMe fun x => { x with
    s := [(1, 0x21000), (2, 0x21100), (3, 3), (4, 257), (5, 0x23000), (6, 0x23004), (7, 0x21200), (8, 0x21240), (9, 0x21208), (11, 1)], v := [(1, vec 32 [7, 8, 9, 0xFFFFFFFF]), (2, vec 32 [5, 1, 5, 9])], k := [(1, 15)] })
  [(0x21000, 64, 0x21040 + 0x21080 * 2 ^ 64 + 0x22200 * 2 ^ 256), (0x21040, 64, tsr 4 0 0x22100 0 0 [4] [1]), (0x21080, 64, tsr 10 0 0x22180 0 0 [4] [4]), (0x21100, 8, 2 ^ 59),
    (0x22100, 4, 0xFF030201), (0x21200, 16, 1), (0x21210, 12, 0x3F800000), (0x21240, 16, 258)]
def copy0 (sa : SReg) : Instr := .copy c64 10 sa .glob
/-- The record of a COPY is read or refused. -/
def ccrB (s : State) (sa : SReg) (Q : Acc (CcrRead × State) → Bool) : Bool :=
  Q (readCcr (opened (copy0 sa) c64 s) (strandActor (opened (copy0 sa) c64 s) s.cur) .glob (getS (me s) sa).toNat)
/-- A merged atomic of the strand is on its way. -/
def sBusy : State := { sEng with reductions := [⟨0x30000, .add, .z32, 7, [⟨0, 1, 0x30000⟩]⟩] }
theorem witness_CopyEngine_issue : (handReady sBusy 0 = false ∧ Ready (copy0 1) c64 sBusy) ∧
    (handReady sEng 0 = true ∧ Ready (copy0 1) c64 sEng ∧ ccrB sEng 1 (fun r => givesB r fun p => !p.1.ccr.getLsbD 185) = true ∧ AllHomes sEng) ∧
    (Ready (copy0 2) c64 sEng ∧ ccrB sEng 2 (fun r => match r with | .fault c v => c == 9 && v == 0x21100 | _ => false) = true ∧ (me sEng).vtabQ = []) :=
  ⟨⟨by decide +kernel, ready_of (by decide +kernel)⟩, ⟨by decide +kernel, ready_of (by decide +kernel), by decide +kernel, homes_of (by decide +kernel)⟩, ready_of (by decide +kernel),
    by decide +kernel, by decide +kernel⟩
theorem witness_CopyEngine_plain : ccrB sEng 1 (fun r => givesB r fun p => let z := takeTicket (handOff p.2 0) 10
      !registerWaits z.2 0 (newCommand z.2 (kindOfOp (p.1.ccr.toNat / 2 ^ 60 % 16)) z.1 p.1.ccr p.1.src p.1.dst 0 0)) = true := by decide +kernel
/-- The command is in the queue; it has been performed. -/
def cmd0 : CopyCmd := ⟨.move, some 0, 0, placeDesc, 1, 0x21040 + 0x21080 <<< 64 + 0x22200 <<< 256, BitVec.ofNat 512 (tsr 4 0 0x22100 0 0 [4] [1]), BitVec.ofNat 512 (tsr 10 0 0x22180 0 0 [4] [4]),
  0, 0, false, 0, 0, 0, 0, 2 ^ 64, false, 0, 0, 0, false, false, none, 1⟩
def cmd1 : CopyCmd := { cmd0 with done := 4, count := 4 }
def withCommand (q : CopyCmd) : State := modCluster (modMe sEng fun x => { x with copyN := ⟨1, 0, [], 0⟩ }) 0 fun c => { c with copies := [q] }
def sQueued : State := withCommand cmd0
def sMoved : State := withCommand cmd1
theorem witness_CopyEngine_chunk : (getCluster sQueued 0).copies[0]? = some cmd0 ∧ cmdReady sQueued 0 0 cmd0 = true ∧ copyTurn sQueued 0 = some cmd0.ctx ∧ (getCluster sQueued 0).failed = false ∧
    (getCluster sQueued 0).dm.halted = false ∧ cmdPaused sQueued cmd0 = false ∧ ∀ w ∈ chunkStores sQueued 0 cmd0, plainLoc w.1 w.2.1 :=
  ⟨by decide +kernel, by decide +kernel, by decide +kernel, by decide +kernel, by decide +kernel, by decide +kernel,
    fun w h => plain_of (List.all_eq_true.1 (show ((chunkStores sQueued 0 cmd0).all fun w => plainB w.1 w.2.1) = true by decide +kernel) w h)⟩
theorem witness_CopyEngine_complete : (getCluster sMoved 0).copies[0]? = some cmd1 ∧ cmdOver cmd1 = true ∧ (getCluster sMoved 0).dm.halted = false ∧ statusWait sMoved 0 cmd1 = none ∧ cmd1.task = none ∧ cmd1.strand = some 0 ∧
    cmd1.registered = false ∧ cmd1.kind ≠ .pref ∧ cmd1.ccr.toNat / 2 ^ 256 % 2 ^ 57 ≠ 0 ∧
    givesB (storeWords (modCluster sMoved 0 fun y => { y with copies := y.copies.eraseIdx 0 }) (cmdActor 0 (closeCounts cmd1)) .glob 0x22200 2 (statusBlock (closeCounts cmd1))) (fun _ => true) = true ∧
    (wordStores (modCluster sMoved 0 fun y => { y with copies := y.copies.eraseIdx 0 }) (cmdActor 0 (closeCounts cmd1)) .glob 0x22200 2 (statusBlock (closeCounts cmd1))).all
      (fun w => plainB w.1 w.2.1) = true := by decide +kernel
theorem witness_CopyEngine_unfinished : (getCluster sQueued 0).copies[0]? = some cmd0 ∧ cmdOver cmd0 = false := by decide +kernel
theorem test_copy : ((out (copy0 1) sEng).map fun t => (getS (me t) 10, (getCluster t 0).copies == [cmd0])) = some (1, true) ∧ trapped (copy0 2) sEng = some (9, 0x21100, 0x10000) := by decide +kernel
theorem test_copy_chunk : ((out (.copyChunk 0 0) sQueued).map fun t => (readLE t.mem 0x22180 16, (getCluster t 0).copies == [cmd1])) = some (0x437F000040400000400000003F800000, true) := by decide +kernel
theorem test_copy_done : ((out (.copyComplete 0 0) sMoved).map fun t => (readLE t.mem 0x22200 16, (me t).copyN.cmp, (getCluster t 0).copies.length)) = some (0x8000000000000000, 1, 0) := by decide +kernel

/-- All streams are open, or a list of them. -/
def withStreams (l : Map Stream) : State := modCluster sEng 0 fun c => { c with streams := l }
def stream0 : Stream := ⟨0, .id, 3, [(4, 6), (5, 5)]⟩
def sStream : State := withStreams [(1, stream0)]
def sFull : State := withStreams ((List.range 16).map fun n => (n, stream0))
def tkopen0 (sa : SReg) : Instr := .tkopen c64 .id 10 sa
def tkpush0 (sc : SReg) : Instr := .tkpush c64 1 2 1 sc
def tkdrain0 (close : Bool) (sa sb : SReg) : Instr := if close then .tkdrainCl c64 10 sa sb .glob else .tkdrain c64 10 sa sb .glob
theorem witness_TopkAndTables_open : (Ready (tkopen0 4) c64 sStream ∧ 256 < (getS (me sStream) 4).toNat ∧ (me sStream).vtabQ = []) ∧
    (Ready (tkopen0 3) c64 sFull ∧ 1 ≤ (getS (me sFull) 3).toNat ∧ (getS (me sFull) 3).toNat ≤ 256 ∧ ∀ n, n < 16 → mhas (getCluster sFull (clusterOf sFull.cur)).streams n = true) ∧
    (Ready (tkopen0 3) c64 sStream ∧ mhas (getCluster sStream (clusterOf sStream.cur)).streams 0 = false) :=
  ⟨⟨ready_of (by decide +kernel), by decide +kernel⟩, ⟨ready_of (by decide +kernel), by decide +kernel⟩, ready_of (by decide +kernel), by decide +kernel⟩
theorem witness_TopkAndTables_push : (Ready (tkpush0 3) c64 sStream ∧ heldStream sStream 0 (getS (me sStream) 3) = none) ∧ (Ready (tkpush0 11) c64 sStream ∧ heldStream sStream 0 (getS (me sStream) 11) = some stream0) ∧
    (Ready (tkdrain0 false 5 11) c64 { sStream with reductions := sBusy.reductions } ∧ handReady { sStream with reductions := sBusy.reductions } 0 = false) ∧
    InOrder stream0.fn stream0.entries ∧ (∀ e ∈ stream0.entries, scoreNan stream0.fn e.2 = false) ∧ stream0.entries.length ≤ stream0.k :=
  ⟨⟨ready_of (by decide +kernel), by decide +kernel⟩, ⟨ready_of (by decide +kernel), by decide +kernel⟩, ⟨ready_of (by decide +kernel), by decide +kernel⟩, by simp only [InOrder]; decide +kernel,
    fun e h => eq_of_beq (List.all_eq_true.1 (show (stream0.entries.all fun e => scoreNan stream0.fn e.2 == false) = true by decide +kernel) e h), by decide +kernel⟩
/-- The range of a TKDRAIN, checked. -/
def drainCheck (i : Instr) (sa : SReg) : Acc Unit := checkWords (opened i c64 sStream) (engineActor (coreOf sStream.cur) (stCtx (me sStream)) (myCore sStream).desc) .glob (getS (me sStream) sa).toNat 8 .write 3
theorem witness_TopkAndTables_drain : ∀ close : Bool, (Ready (tkdrain0 close 5 3) c64 sStream ∧ heldStream sStream 0 (getS (me sStream) 3) = none ∧ (me sStream).vtabQ = []) ∧
    (Ready (tkdrain0 close 5 11) c64 sStream ∧ heldStream sStream 0 (getS (me sStream) 11) = some stream0 ∧ handReady sStream 0 = true ∧ drainCheck (tkdrain0 close 5 11) 5 = .ok ()) ∧
    (Ready (tkdrain0 close 6 11) c64 sStream ∧ drainCheck (tkdrain0 close 6 11) 6 = .fault 0xD 0x23004) := by
  intro close
  cases close <;> exact ⟨⟨ready_of (by decide +kernel), by decide +kernel⟩, ⟨ready_of (by decide +kernel), by decide +kernel⟩, ready_of (by decide +kernel), by decide +kernel⟩
def drain0 : Drain := ⟨0, 1, 0, placeDesc, 0x23000, .glob, 3, [(4, 6), (5, 5)], some 1, 1⟩
def sDrain : State := modCluster sStream 0 fun c => { c with drains := [drain0] }
theorem witness_TopkAndTables_drained : (getCluster sDrain 0).drains[0]? = some drain0 ∧ topkTurn sDrain 0 = some drain0.ctx ∧ (getCluster sDrain 0).failed = false ∧
    engineWait sDrain (engineActor 0 0 placeDesc) .glob 8 ((List.range 3).map fun i => 0x23000 + 8 * i) = none ∧
    (entryStores (engineActor 0 0 placeDesc) drain0 3 0 sDrain).all (fun w => plainB w.1 w.2.1) = true := by decide +kernel
def tabld0 (sa : SReg) : Instr := .tabld c64 10 sa .glob 2
/-- The header of a table image. -/
def tableB (sa : SReg) (Q : Nat → State → Actor → Bool) : Bool :=
  let a := engineActor (coreOf sEng.cur) (stCtx (me sEng)) (myCore sEng).desc
  givesB (loadWords (handOff (opened (tabld0 sa) c64 sEng) sEng.cur) a .glob (getS (me sEng) sa).toNat 2) fun p => Q p.1 p.2 a
theorem witness_TopkAndTables_tables : (Ready (tabld0 9) c64 sEng ∧ (getS (me sEng) 9).toNat % 16 ≠ 0 ∧ (me sEng).vtabQ = []) ∧
    (Ready (tabld0 8) c64 sEng ∧ (getS (me sEng) 8).toNat % 16 = 0 ∧ handReady sEng 0 = true ∧ tableB 8 (fun h _ _ => decide (h = 258)) = true) ∧
    (Ready (tabld0 7) c64 sEng ∧ (getS (me sEng) 7).toNat % 16 = 0 ∧ tableB 7 (fun h w a => h == 1 && decide (checkWords w a .glob (0x21200 + 16) 4 .read 3 = .ok ())) = true) :=
  ⟨⟨ready_of (by decide +kernel), by decide +kernel⟩, ⟨ready_of (by decide +kernel), by decide +kernel⟩, ready_of (by decide +kernel), by decide +kernel⟩
def load0 : TabLoad := ⟨0, 1, 2, .glob, 0x21200, 1, 0, 1, 1⟩
def sTabLd : State := modCore sEng 0 fun y => { y with tabLoads := [load0] }
theorem witness_TopkAndTables_loaded : (getCore sTabLd 0).tabLoads.find? (loadMay sTabLd 0) = some load0 ∧
    givesB (readTable sTabLd (engineActor 0 0 (getCore sTabLd 0).desc) .glob (0x21200 + 16) 1) (fun _ => true) = true := by decide +kernel
/-- A load whose image lies in a register that a table result is on its way to. -/
def sTabHeld : State := modMe (modCore sEng 0 fun y => { y with tabLoads := [{ load0 with as := .own, addr := 0x3F0 }] }) fun x => { x with vtabQ := [⟨.f32, false, 0, 0, 0, 0, 7, 1, false⟩] }
theorem witness_TopkAndTables_held : (getCore sTabHeld 0).tabLoads.find? (loadMay sTabHeld 0) = some { load0 with as := .own, addr := 0x3F0 } ∧
    (match readTable sTabHeld (engineActor 0 0 (getCore sTabHeld 0).desc) .own (0x3F0 + 16) 1 with | .wait _ => true | _ => false) = true := by decide +kernel
theorem test_tkopen : [outS (tkopen0 3) sStream 10, outS (tkopen0 3) sFull 10] = [some 0, some 0xFFFFFFFFFFFFFFFF] ∧ trapped (tkopen0 4) sStream = some (0x13, 257, 0x10000) := by decide +kernel
theorem test_tkpush : ((out (tkpush0 11) sStream).map fun t => (heldStream t 0 1).map Stream.entries) = some (some [(4, 6), (5, 5), (7, 5)]) := by decide +kernel
theorem test_tkdrain : ((out (.topkDrainComplete 0 0) sDrain).map fun t => (readLE t.mem 0x23000 24, (getCluster t 0).streams.length, (me t).topkN.cmp)) =
    some (0x00000000FFFFFFFF00000005000000050000000600000004, 0, 1) ∧ ((out (tkdrain0 true 5 11) sStream).map fun t => (getS (me t) 10, (getCluster t 0).drains)) = some (1, [drain0]) := by decide +kernel
theorem test_tabld : ((out (tabld0 7) sEng).map fun t => (getS (me t) 10, (myCore t).tabLoads)) = some (1, [load0]) ∧ trapped (tabld0 8) sEng = some (9, 0x21240, 0x10000) ∧
    ((out (.tableLoadComplete 0 false) sTabLd).map fun t => (mget [] (getCore t 0).tables 2, (me t).tabN.cmp)) = some ([⟨0x3F800000, 0, 0⟩], 1) ∧
    ((out (.tableLoadComplete 0 true) sTabLd).map fun t => mget [] (getCore t 0).tables 2) = some [] := by decide +kernel

/-! ### Tasks (spec/14, spec/09) -/

/-- A TCB: entry, argument, state, kind, predecessors, number of successors (from 0x20500 on), records of 16 bytes with chunks of at least 2, records dealt and holders. -/
def tcb (entry arg st kind pred nsucc nrec dealt nhold : Nat) : Nat :=
  entry + arg * 2 ^ 64 + (if nsucc = 0 then 0 else 0x20500) * 2 ^ 128 + st * 2 ^ 208 + kind * 2 ^ 214 + pred * 2 ^ 224 + nsucc * 2 ^ 240 + nrec * 2 ^ 256 +
    (if kind = 2 then 2 * 2 ^ 288 + 16 * 2 ^ 304 else 0) + nhold <<< 336 + dealt <<< 352
/-- The unit holds the TCB of the task at an address. -/
def ent (key kind : Nat) (ready : Option Nat) : TaskEnt := ⟨key, key, 0, 0, kind, ready, 0, some 0, 0, placeDesc⟩
/-- s1 = 0x20400, where a TCB stands, s2 = 0x20401; another TCB at 0x20480, which a successor list at 0x20500 names; the tasks of the unit. -/
def sTask (t : Nat) (l : List TaskEnt) : State := withMem (modCluster (withS [(1, 0x20400), (2, 0x20401)]) 0 fun c => { c with tasks := l })
  [(0x20400, 64, t), (0x20480, 64, tcb 0x30000 0 1 0 0 0 0 0 0), (0x20500, 8, 0x20480)]
def fresh0 : Nat := tcb 0x30000 0x77 0 0 0 0 0 0 0
def fresh1 : Nat := tcb 0x30000 0x77 0 0 1 0 0 0 0
theorem fits_tasks {s : State} (h : (!unitDefers s (srcTask 0) 0 && cachedB s && s.joins.isEmpty) = true) : unitDefers s (srcTask 0) 0 = false ∧ AllHomes s := by
  simp only [Bool.and_eq_true, Bool.not_eq_true'] at h
  exact ⟨h.1.1, homes_of (by simp [h.1.2, h.2])⟩
/-- The check of the TCB of a TSPAWN. -/
def spawnCheck (s : State) (sa : SReg) : Acc Nat :=
  let p := pushTcb (opened (.tspawn c64 sa) c64 s) 0 (getS (me s) sa).toNat
  checkTcb p (strandActor p 0) (getS (me s) sa).toNat
theorem witness_Tasks_spawn : (Ready (.tspawn c64 1) c64 (sTask fresh0 (List.replicate 4096 (ent 0x30000 0 none))) ∧ 4096 ≤ (getCluster (sTask fresh0 (List.replicate 4096 (ent 0x30000 0 none))) 0).tasks.length) ∧
    (∀ t ∈ [fresh0, fresh1], Ready (.tspawn c64 1) c64 (sTask t []) ∧ (unitDefers (sTask t []) (srcTask 0) 0 = false ∧ AllHomes (sTask t [])) ∧ (getCluster (sTask t []) 0).tasks.length < 4096 ∧
      allLanded (sTask t []) 0 = true ∧ spawnCheck (sTask t []) 1 = .ok 0x20400 ∧ heldIn (sTask t []) 0 0x20400 = none) ∧
    (Ready (.tspawn c64 1) c64 sFlight ∧ allLanded sFlight 0 = false ∧ (getCluster sFlight 0).tasks.length < 4096 ∧ unitDefers sFlight (srcTask 0) 0 = false ∧ AllHomes sFlight) ∧
    (Ready (.tspawn c64 2) c64 (sTask fresh0 []) ∧ spawnCheck (sTask fresh0 []) 2 = .fault 9 0x20401 ∧ (me (sTask fresh0 [])).vtabQ = []) := by
  refine ⟨⟨ready_of (by decide +kernel), by decide +kernel⟩, fun t ht => ?_, ⟨ready_of (by decide +kernel), by decide +kernel, by decide +kernel, fits_tasks (by decide +kernel)⟩, ready_of (by decide +kernel), by decide +kernel⟩
  simp only [List.mem_cons, List.not_mem_nil, or_false] at ht
  rcases ht with rfl | rfl <;> exact ⟨ready_of (by decide +kernel), fits_tasks (by decide +kernel), by decide +kernel, by decide +kernel, by decide +kernel, by decide +kernel⟩
def tdep0 (n : BitVec 17) : Instr := .tdep c64 1 n
theorem witness_Tasks_dep : ∀ n ∈ [(0x1FFFF : BitVec 17), 0x1FFFE], Ready (tdep0 n) c64 (sTask fresh1 []) ∧ (getS (me (sTask fresh1 [])) 1).toNat % 64 = 0 ∧ allLanded (sTask fresh1 []) 0 = true ∧
    homeLoc (opened (tdep0 n) c64 (sTask fresh1 [])) (strandActor (opened (tdep0 n) c64 (sTask fresh1 [])) 0) 0x20400 64 .atomic = .ok 0x20400 ∧ AllHomes (sTask fresh1 []) ∧
    (tcbPred (sTask fresh1 []) 0x20400 + n.toInt < 0 ↔ n = 0x1FFFE) ∧ (me (sTask fresh1 [])).vtabQ = [] := by
  intro n hn
  simp only [List.mem_cons, List.not_mem_nil, or_false] at hn
  rcases hn with rfl | rfl <;> exact ⟨ready_of (by decide +kernel), by decide +kernel, by decide +kernel, by decide +kernel, homes_of (by decide +kernel), by decide +kernel, by decide +kernel⟩
theorem witness_Tasks_dep_waits : (Ready (.tdep c64 2 0) c64 (sTask fresh1 []) ∧ (getS (me (sTask fresh1 [])) 2).toNat % 64 ≠ 0 ∧ (me (sTask fresh1 [])).vtabQ = []) ∧
    Ready (.tdep c64 8 0) c64 sFlight ∧ (getS (me sFlight) 8).toNat % 64 = 0 ∧ allLanded sFlight 0 = false := ⟨⟨ready_of (by decide +kernel), by decide +kernel⟩, ready_of (by decide +kernel), by decide +kernel⟩
/-- The strand runs the task at 0x20400, which is a batch card or not. -/
def running (card : Bool) (t : Nat) (l : List TaskEnt) : State := modMe (sTask t l) fun x => { x with task := some ⟨0x20400, 0x20400, card⟩ }
def doneB (s : State) (i : Instr) (Q : Option Nat → State → Bool) : Bool := readyB i c64 s && mayAsk s (askTask 0 0) 0 &&
  (let r := endTask (if i = .tdone c64 then noteAsk (opened i c64 s) (askTask 0 0) 0 else opened i c64 s) 0 true; Q r.1 r.2)
def dealt0 : Nat := tcb 0x30000 0x77 3 0 0 0 0 0 0
def under0 : Nat := tcb 0x30000 0x77 3 0 0 1 0 0 0
theorem witness_Tasks_done : (doneB (running false dealt0 [ent 0x20400 0 none, ent 0x20480 0 none]) (.tdone c64) (fun r w => r.isNone && holdsTasks w 0 0) &&
      doneB (running false dealt0 [ent 0x20400 0 none]) (.tdone c64) (fun r w => r.isNone && !holdsTasks w 0 0) &&
      doneB (running false dealt0 [ent 0x20400 0 none, ent 0x20480 0 none]) (.tdoneR c64) (fun r _ => r.isNone) &&
      doneB (running false under0 [ent 0x20400 0 none]) (.tdone c64) (fun r _ => r == some 0x20480) && doneB (running false under0 [ent 0x20400 0 none]) (.tdoneR c64) (fun r _ => r == some 0x20480)) = true ∧
    (∀ s ∈ [running false dealt0 [ent 0x20400 0 none, ent 0x20480 0 none], running false dealt0 [ent 0x20400 0 none], running false under0 [ent 0x20400 0 none]],
      (unitDefers s (srcTask 0) 0 = false ∧ AllHomes s) ∧ (me s).vtabQ = [] ∧ allLanded s 0 = true) ∧
    (∀ i ∈ [Instr.tdone c64, .tdoneR c64], Ready i c64 sFlight) ∧ allLanded sFlight 0 = false := by
  refine ⟨by decide +kernel, fun s hs => ?_, ready_all (by decide +kernel), by decide +kernel⟩
  simp only [List.mem_cons, List.not_mem_nil, or_false] at hs
  rcases hs with rfl | rfl | rfl <;> exact ⟨fits_tasks (by decide +kernel), by decide +kernel⟩
/-- A card of 10 records, of which 4 are dealt to two holders. -/
def card0 : Nat := tcb 0x30000 0x22000 2 2 0 0 10 4 2
def sCard : State := running true card0 [ent 0x20400 2 (some 0)]
theorem witness_Tasks_card : (Ready (.tcard c64 1) c64 (sTask fresh0 []) ∧ (me (sTask fresh0 [])).task = none) ∧
    Ready (.tcard c64 1) c64 sCard ∧ (me sCard).task = some ⟨0x20400, 0x20400, true⟩ ∧ heldIn sCard 0 0x20400 = some (ent 0x20400 2 (some 0)) ∧ tcbDealt sCard 0x20400 ≠ tcbNrec sCard 0x20400 ∧
    (unitDefers sCard (srcTask 0) 0 = false ∧ AllHomes sCard) ∧ tcbDealt sCard 0x20400 + 2 < 2 ^ 32 ∧ mayAsk sCard (askCard 0x20400) sCard.cur = true :=
 
  ⟨⟨ready_of (by decide +kernel), by decide +kernel⟩, ready_of (by decide +kernel), by decide +kernel, by decide +kernel, by decide +kernel, fits_tasks (by decide +kernel), by decide +kernel, by decide +kernel⟩
/-- The strand waits in TDONE for the task at 0x20400, which is ready. -/
def ready0 : Nat := tcb 0x30000 0x77 2 0 0 0 0 0 0
def sDeal : State := waitIn (sTask ready0 [ent 0x20400 0 (some 0)]) (.tdone c64) .task 0 0 none
/-- The unit holds 16 records of the context. -/
def sDefers : State := { sDeal with recs := List.replicate 16 ⟨[], 0, true, none, srcTask 0, 0, true, none⟩ }
theorem witness_Tasks_deal : unitDefers sDefers (srcTask 0) 0 = true ∧ (unitDefers sDeal (srcTask 0) 0 = false ∧ AllHomes sDeal) ∧
    headTask sDeal 0 0 (fun t => t.kind == 0 || (t.kind == 2 && tcbNrec sDeal t.key != 0)) = some (ent 0x20400 0 (some 0)) ∧
    waitersFor sDeal (fun k w => w.what == .task && clusterOf k == 0 && stCtx (getStrand sDeal k) == 0) = [0] ∧
    (getStrand sDeal 0).wait = some ⟨.tdone c64, .task, 0, 0, 0, 0, 0, none, false, 0⟩ ∧ (Instr.tdone c64).common = some c64 :=
  ⟨by decide +kernel, fits_tasks (by decide +kernel), by decide +kernel, by decide +kernel, by decide +kernel, rfl⟩
def sNotice : State := modCluster (sTask ready0 [ent 0x20400 0 none]) 0 fun c => { c with notices := [⟨0x20400, 9⟩] }
theorem witness_Tasks_notice : (getCluster sNotice 0).notices.find? (fun n => n.key == 0x20400) = some ⟨0x20400, 9⟩ ∧ heldIn sNotice 0 0x20400 = some (ent 0x20400 0 none) ∧
    (unitDefers sNotice (srcTask 0) 0 = false ∧ AllHomes sNotice) := ⟨by decide +kernel, by decide +kernel, fits_tasks (by decide +kernel)⟩
/-- A copy-command task whose record at 0x21000 fills four bytes at 0x22100; a card without records. -/
def sCopyTask : State := withMem (sTask (tcb 0 0x21000 2 1 0 0 0 0 0) [ent 0x20400 1 (some 0)]) [(0x21000, 64, 2 ^ 60 + 0x21080 * 2 ^ 64 + 0xAB * 2 ^ 192), (0x21080, 64, tsr 4 0 0x22100 0 0 [4] [1])]
def sEmptyCard : State := sTask (tcb 0x30000 0x22000 2 2 0 0 0 0 0) [ent 0x20400 2 (some 0)]
theorem witness_Tasks_units : (readyCopyTask sCopyTask 0 = some (ent 0x20400 1 (some 0)) ∧ AllHomes sCopyTask ∧
      givesB (readCcr sCopyTask (engineActor 0 0 placeDesc) .glob (tcbField sCopyTask 0x20400 64 57)) (fun p => !p.1.ccr.getLsbD 185) = true) ∧
    (headTask sEmptyCard 0 0 (fun t => t.kind == 2 && tcbNrec sEmptyCard t.key == 0) = some (ent 0x20400 2 (some 0)) ∧ unitDefers sEmptyCard (srcTask 0) 0 = false) :=
  ⟨⟨by decide +kernel, homes_of (by decide +kernel), by decide +kernel⟩, by decide +kernel, by decide +kernel⟩
theorem witness_Tasks_end : (Ready (.endStrand c64) c64 sFlight ∧ (me sFlight).inflight ≠ []) ∧ Ready (.endStrand c64) c64 s0 ∧ (me s0).vtabQ = [] ∧ (me s0).inflight = [] ∧ hasReduction s0 s0.cur = false ∧ (me s0).task = none :=
  ⟨⟨ready_of (by decide +kernel), by decide +kernel⟩, ready_of (by decide +kernel), by decide +kernel⟩

theorem test_tspawn : ((out (.tspawn c64 1) (sTask fresh0 [])).map fun t => (tcbState t 0x20400, (getCluster t 0).tasks)) = some (2, [ent 0x20400 0 (some 0)]) ∧
    ((out (.tspawn c64 1) (sTask fresh1 [])).map fun t => (tcbState t 0x20400, (getCluster t 0).tasks)) = some (1, [ent 0x20400 0 none]) := by decide +kernel
theorem test_tdep : ((out (tdep0 0x1FFFF) (sTask fresh1 [])).map fun t => (tcbPred t 0x20400, (me t).pc)) = some (0, 0x10008) ∧ trapped (tdep0 0x1FFFE) (sTask fresh1 []) = some (0xA, 0x20400, 0x10008) := by
  decide +kernel
theorem test_tdone : ((out (.tdone c64) (running false dealt0 [ent 0x20400 0 none])).map fun t => (tcbState t 0x20400, (getCluster t 0).tasks, (me t).pc)) = some (4, [], 0x10008) ∧
    trapped (.tdoneR c64) (running false under0 [ent 0x20400 0 none]) = some (0xA, 0x20480, 0x10008) ∧ trapped (.tdone c64) (running false under0 [ent 0x20400 0 none]) = some (0xA, 0x20480, 0x10000) := by decide +kernel
theorem test_tcard : ((out (.tcard c64 1) sCard).map fun t => (getS (me t) 3, getS (me t) 5, getG (me t) 1, tcbDealt t 0x20400)) = some (0x22040, 2, true, 6) ∧
    ((out (.tcard c64 1) (sTask fresh0 [])).map fun t => (getS (me t) 5, getG (me t) 1)) = some (0, false) := by decide +kernel
theorem test_deal : ((out (.taskDeal 0 0) sDeal).map fun t => ((me t).pc, getS (me t) 3, getS (me t) 4, tcbState t 0x20400)) = some (0x30000, 0x77, 0x20400, 3) ∧
    ((out (.taskDeal 0 0) sDefers).map fun t => (me t).pc) = some 0x10000 := by decide +kernel
theorem test_task_units : ((out (.taskReadyNotice 0 0x20400) sNotice).map fun t => (getCluster t 0).tasks) = some [ent 0x20400 0 (some 0)] ∧
    ((out (.copyTaskHandoff 0) sCopyTask).map fun t => (tcbState t 0x20400, (getCluster t 0).copies.map fun q => (q.kind, q.task))) = some (3, [(.fill, some 0x20400)]) ∧
    ((out (.emptyCardRetire 0) sEmptyCard).map fun t => (tcbState t 0x20400, (getCluster t 0).tasks)) = some (4, []) := by decide +kernel
theorem test_end : ((out (.endStrand c64) s0).map fun t => ((me t).run, (me t).pc)) = some (.stopped, 0x10000) := by decide +kernel

/-! ### Joins and kills (spec/15, spec/09) -/

theorem near_home (s : State) {key : Nat} (h : key < 0x8000000000) : noHome s key = false := by
  simp only [noHome]
  rw [if_neg (by omega), if_pos h]
/-- The software fields of a join record at 0x20000: two participants with one element, and their areas behind it; a quorum of `q` with at least 1, a deadline, the kill handler 0x30000. -/
def sw0 (q dl : Nat) : Nat := 1 <<< 35 + 2 <<< 46 + q <<< 64 + 1 <<< 96 + dl <<< 128 + 0x20100 <<< 256 + 0x20180 <<< 320 + 0x20140 <<< 384 + 0x201C0 <<< 448 + 0x30000 <<< 576
/-- An instance of it, with the given registrations and state. -/
def join0 (q dl : Nat) (regs : List Registration) (st : Nat) : JoinInst := ⟨0x20000, 0, BitVec.ofNat 2048 (sw0 q dl), [1, 1], 0, placeDesc, 0, 0x20000, st, regs, [(0x20, 0x20000)], 0, 0⟩
def areas0 : List (Nat × Nat) := [(0x20100, 32), (0x20140, 32), (0x20180, 16), (0x201C0, 4)]
def plainJoin (j : JoinInst) : Bool := areasOf j == areas0 && j.pages == [(0x20, 0x20000)] && decide (j.key = 0x20000 ∨ 0x20800 ≤ j.key) && decide (j.key < 0x8000000000) && jN j == 2
theorem plain_area {j : JoinInst} (h : plainJoin j = true) {x : Nat} (hx : InAreas j x) : areaLoc j x = x ∧ 0x20100 ≤ x ∧ x < 0x20200 := by
  simp only [plainJoin, Bool.and_eq_true, beq_iff_eq] at h
  obtain ⟨⟨⟨⟨h1, h2⟩, -⟩, -⟩, -⟩ := h
  simp only [InAreas, h1, areas0, List.mem_cons, List.not_mem_nil, or_false, exists_eq_or_imp, exists_eq_left] at hx
  have hp : x / 4096 = 0x20 := by omega
  refine ⟨?_, by omega, by omega⟩
  simp only [areaLoc, h2, mget, hp, if_true]
  omega
theorem laid_of {j : JoinInst} (h : plainJoin j = true) : Laid j := by
  have hh := h
  simp only [plainJoin, Bool.and_eq_true, beq_iff_eq, decide_eq_true_eq] at hh
  obtain ⟨⟨⟨⟨h1, -⟩, h3⟩, -⟩, h4⟩ := hh
  refine ⟨by omega, by rw [h1]; decide, by rw [h1]; decide, fun x y hx hy e => ?_, fun x hx => ?_⟩
  · rw [(plain_area h hx).1, (plain_area h hy).1] at e
    exact e
  · rw [(plain_area h hx).1]
    have := (plain_area h hx).2
    omega
theorem joinHomes_of {s : State} {j : JoinInst} (h : plainJoin j = true) : JoinHomes s j := by
  have hk : j.key < 0x8000000000 := by
    simp only [plainJoin, Bool.and_eq_true, decide_eq_true_eq] at h
    exact h.1.2
  refine ⟨near_home s hk, fun x hx => ?_⟩
  have := plain_area h hx
  exact this.1.symm ▸ near_home s (by omega)
theorem homes_joins {s : State} (h : (cachedB s && s.joins.all plainJoin) = true) : AllHomes s := by
  simp only [Bool.and_eq_true] at h
  exact homes_join h.1 fun j hj => joinHomes_of (List.all_eq_true.1 h.2 j hj)

/-- The record in some state in memory, with ENTERED and ARRIVED as given, tracked instances, and the strand a participant or not; s1 = 0x20000, s2 = 1, s3 = 2, s4 = 0x20080. -/
def sJoin (q dl st ent arr : Nat) (js : List JoinInst) (slot : Word) : State := { withMem (onMe fun x => { x with
    s := [(1, 0x20000), (2, 1), (3, 2), (4, 0x20080), (7, 1)], v := [(1, vec 32 [5, 0xFFFFFFFD])], k := [(1, 1), (2, 3)], jslot := slot })
  [(0x20000, 256, sw0 q dl + st <<< 62 + ent <<< 704 + arr <<< 768 + (if arr = 0 then 0 else 1) <<< 1224 + (if arr = 0 then 0 else 1) <<< 1280 + 2 <<< 1312), (0x20100, 4, 1), (0x20110, 4, 1), (0x20140, 1, 7)] with joins := js }
def part0 (p : Nat) : Registration := ⟨p, .strand 0 0, 0x20000⟩
/-- Participant 0 of an open instance. -/
def sPart (q arr : Nat) : State := sJoin q 0 1 1 arr [join0 q 0 [part0 0] 1] 0x8000000000020000
/-- The instance that a JOPEN would open, with a condition on it. -/
def openB (s : State) (Q : State → JoinInst → Bool) : Bool :=
  let p := pushRecord (opened (.jopen c64 1) c64 s) 0 0x20000
  readyB (.jopen c64 1) c64 s && cachedB s && s.joins.all plainJoin && (me s).vtabQ.isEmpty && allLanded s s.cur && givesB (checkOpen p 0 0x20000) fun j => plainJoin j && Q p j
theorem witness_Joins_open : openB (sJoin 2 0 0 0 0 [] 0) (fun p j => joinState p j.key == 0 && decide (openAt p j.key < 1024) && givesB (enterParent p 0 j) fun _ => true) = true ∧
    openB (sJoin 2 0 1 0 0 [join0 2 0 [] 1] 0) (fun p j => joinState p j.key == 1) = true ∧
    readyB (.jopen c64 1) c64 sFlight = true ∧ allLanded sFlight sFlight.cur = false := by decide +kernel
/-- 1024 instances at one home, whose records all lie at 0x20800. -/
def sManyJoins : State := { sJoin 2 0 0 0 0 [] 0 with joins := List.replicate 1024 { join0 2 0 [] 1 with key := 0x20800 } }
theorem witness_Joins_full : AllHomes sManyJoins ∧ Ready (.jopen c64 1) c64 sManyJoins ∧ allLanded sManyJoins sManyJoins.cur = true ∧ (let p := pushRecord (opened (.jopen c64 1) c64 sManyJoins) 0 0x20000
    givesB (checkOpen p 0 0x20000) (fun j => plainJoin j && joinState p j.key == 0 && decide (1024 ≤ openAt p j.key)) = true) := by
  exact ⟨homes_joins (by decide +kernel), ready_of (by decide +kernel), by decide +kernel, by decide +kernel⟩
/-- A record whose parent is the record at 0x20800, of which the machine tracks an instance in a state. -/
def sChild (st : Nat) : State := withMem (sJoin 2 0 0 0 0 [{ join0 2 0 [] st with key := 0x20800, va := 0x20800 }] 0) [(0x20000, 256, sw0 2 0 + 0x20800 <<< 640 + 2 <<< 1312)]
/-- Another participant of the parent, of a higher id, has asked it in this cycle. -/
def sChildAsked : State := { sChild 1 with lastAsk := [(askJoin 0x20800, ((sChild 1).cycle + 1, 60))] }
theorem witness_Joins_child : openB (sChild 1) (fun p j => joinState p j.key == 0 && decide (openAt p j.key < 1024) && givesB (enterParent p 0 j) fun e => match e with | .ok (k, _, _) => k == 0x20800 | .error _ => false) = true ∧
    openB (sChild 2) (fun p j => joinState p j.key == 0 && decide (openAt p j.key < 1024) && givesB (enterParent p 0 j) fun e => match e with | .ok _ => false | .error _ => true) = true ∧
    openB sChildAsked (fun p j => joinState p j.key == 0 && decide (openAt p j.key < 1024) && (match enterParent p 0 j with | .wait none => true | _ => false)) = true := by decide +kernel
/-- The child's instance has the number that its parent's registration names. -/
theorem test_child : ((out (.jopen c64 1) (sChild 1)).map fun t => ((instAt t 0x20000).map JoinInst.num, (instAt t 0x20800).map fun j => j.regs.map Registration.who)) =
    some (some 0, some [.join 0x20000 0]) ∧ trapped (.jopen c64 1) (sChild 2) = some (0x12, 0x1000000000020800, 0x10000) := by decide +kernel
/-- The record's location is found, and no fault of the strand stands before it. -/
def locB (s : State) (is : List Instr) : Bool := (is.all fun i => readyB i c64 s) && decide (recordLoc s 0 0x20000 = .ok 0x20000) && (me s).vtabQ.isEmpty && cachedB s && s.joins.all plainJoin
theorem loc_of {s : State} {is : List Instr} (h : locB s is = true) : (∀ i ∈ is, Ready i c64 s) ∧ recordLoc s 0 0x20000 = .ok 0x20000 ∧ (me s).vtabQ = [] ∧ AllHomes s := by
  simp only [locB, Bool.and_eq_true, decide_eq_true_eq, List.isEmpty_iff] at h
  exact ⟨ready_all h.1.1.1.1, h.1.1.1.2, h.1.1.2, homes_joins (by simp [h.1.2, h.2])⟩
/-- The instance that a request of the strand finds at the record. -/
def foundJ (i : Instr) (s : State) : Option JoinInst := (findInst (opened i c64 s) (strandActor (opened i c64 s) s.cur) 0x20000 0x20000).map Prod.fst
/-- Another participant of a higher id has asked the record's home in this cycle. -/
def laterAsk (s : State) : State := { s with lastAsk := [(askJoin 0x20000, (s.cycle + 1, 60))] }
theorem witness_Joins_enter : locB (sJoin 2 0 1 1 0 [join0 2 0 [part0 0] 1] 0) [.jenter c64 1 2, .jenter c64 1 3, .jenter c64 1 0] = true ∧ locB (sPart 2 0) [.jenter c64 1 2] = true ∧
    locB (sJoin 2 0 0 0 0 [] 0) [.jenter c64 1 2] = true ∧ locB (sJoin 2 0 2 0 0 [join0 2 0 [] 2] 0) [.jenter c64 1 2] = true ∧ plainJoin (join0 2 0 [part0 0] 1) = true ∧
    foundJ (.jenter c64 1 2) (sJoin 2 0 1 1 0 [join0 2 0 [part0 0] 1] 0) = some (join0 2 0 [part0 0] 1) ∧ jN (join0 2 0 [part0 0] 1) = 2 ∧
    foundJ (.jenter c64 1 2) (sJoin 2 0 0 0 0 [] 0) = none ∧ foundJ (.jenter c64 1 2) (sJoin 2 0 2 0 0 [join0 2 0 [] 2] 0) = some (join0 2 0 [] 2) ∧
    (recField (sJoin 2 0 1 1 0 [join0 2 0 [part0 0] 1] 0) 0x20000 704 64) = 1 ∧ (me (sPart 2 0)).jslot.getLsbD 63 = true := by decide +kernel
/-- A record whose STATE reads OPEN is adopted though no instance is tracked. -/
theorem witness_Joins_enter_untracked : locB (sJoin 2 0 1 1 0 [] 0) [.jenter c64 1 2, .jcloseF c64 1] = true ∧
    (foundJ (.jenter c64 1 2) (sJoin 2 0 1 1 0 [] 0)).any (fun j => plainJoin j && j.state == 1 && jN j == 2) = true ∧
    (foundJ (.jcloseF c64 1) (sJoin 2 0 1 1 0 [] 0)).any (fun j => plainJoin j && j.state == 1) = true := by decide +kernel
/-- A request that meets a higher id of its cycle is put off. -/
theorem witness_Joins_asked : (∀ s ∈ [sJoin 2 0 1 1 0 [join0 2 0 [part0 0] 1] 0, sPart 2 0], mayAsk s (askJoin 0x20000) 0 = true ∧ mayAsk s (askJoin 0x20000) 1 = true ∧ mayAsk (laterAsk s) (askJoin 0x20000) 0 = false ∧
      mayAsk (laterAsk s) (askJoin 0x20000) 1 = false) ∧
    locB (laterAsk (sJoin 2 0 1 1 0 [join0 2 0 [part0 0] 1] 0)) [.jenter c64 1 2] = true ∧ (me (sJoin 2 0 1 1 0 [join0 2 0 [part0 0] 1] 0)).jslot.getLsbD 63 = false ∧
    locB (laterAsk (sPart 2 0)) [.jcont c64 true 0 1 1, .jarrive c64 1] = true ∧ slotOf (me (laterAsk (sPart 2 0))) = some (0, 0x20000) := by decide +kernel
/-- A COPY that registers as participant 0 of the join. -/
def sEnrol : State := withMem (modMe (sJoin 2 0 1 0 0 [join0 2 0 [] 1] 0) fun x => { x with s := [(1, 0x21000)] })
  [(0x21000, 64, 0x21040 + 0x21080 * 2 ^ 64 + 0x20000 * 2 ^ 128 + 2 ^ 185), (0x21040, 64, tsr 4 0 0x22100 0 0 [4] [1]), (0x21080, 64, tsr 10 0 0x22180 0 0 [4] [4])]
def enrolB (s : State) (Q : Bool → Bool) : Bool :=
  readyB (copy0 1) c64 s && handReady s 0 && ccrB s 1 (fun r => givesB r fun p => let z := takeTicket (handOff p.2 0) 10
    p.1.ccr.getLsbD 185 && Q (registerWaits z.2 0 (newCommand z.2 (kindOfOp (p.1.ccr.toNat / 2 ^ 60 % 16)) z.1 p.1.ccr p.1.src p.1.dst 0 0)))
theorem witness_CopyEngine_registers : enrolB sEnrol (fun w => !w) = true ∧ enrolB (laterAsk sEnrol) id = true ∧ AllHomes sEnrol := ⟨by decide +kernel, by decide +kernel, homes_joins (by decide +kernel)⟩
/-- An AMO of the participant is still on its way. -/
theorem witness_Joins_reduces : locB { sPart 2 0 with reductions := [⟨0x20800, .add, .z32, 1, [⟨0, 1, 0x20800⟩]⟩] } [.jarrive c64 1] = true ∧
    hasReduction { sPart 2 0 with reductions := [⟨0x20800, .add, .z32, 1, [⟨0, 1, 0x20800⟩]⟩] } 0 = true ∧ hasReduction (sPart 2 0) 0 = false := by decide +kernel
theorem witness_Joins_contribute : (locB (sJoin 2 0 1 1 0 [] 0) [.jcont c64 true 0 1 1, .jarrive c64 1] = true ∧ slotOf (me (sJoin 2 0 1 1 0 [] 0)) = none) ∧
    (locB (sJoin 2 0 1 1 0 [] 0x8000000000020000) [.jcont c64 true 0 1 1, .jarrive c64 1] = true ∧ slotOf (me (sPart 2 0)) = some (0, 0x20000) ∧
      registeredAt (sJoin 2 0 1 1 0 [] 0x8000000000020000) 0x20000 0 (ownParty s0) = none) ∧
    (locB (sPart 2 0) [.jcont c64 true 0 1 1, .jcont c64 true 0 1 2, .jarrive c64 1] = true ∧ registeredAt (sPart 2 0) 0x20000 0 (ownParty (sPart 2 0)) = some (join0 2 0 [part0 0] 1) ∧
      jNE (join0 2 0 [part0 0] 1) = 1 ∧ instAt (sPart 2 0) 0x20000 = some (join0 2 0 [part0 0] 1)) ∧
    (locB (sJoin 2 0 2 1 0 [join0 2 0 [part0 0] 2] 0x8000000000020000) [.jcont c64 true 0 1 1, .jarrive c64 1] = true ∧
      registeredAt (sJoin 2 0 2 1 0 [join0 2 0 [part0 0] 2] 0x8000000000020000) 0x20000 0 (ownParty s0) = some (join0 2 0 [part0 0] 2)) := by decide +kernel
theorem witness_Joins_lane : (5 : Int) ≠ -2 ^ 127 ∧ (5 : Int).natAbs < 2 ^ 95 ∧ (Val.inf true).isFin = false := by decide
/-- What the clause of an accepted arrival asks of the numbers. -/
def arriveB (s : State) (j : JoinInst) (p : Nat) (met : Bool) : Bool :=
  let w := releaseBy (opened (.jarrive c64 1) c64 s) 0 (memHandle 3 0x20000)
  !(recField w 0x20000 768 64).testBit p && decide (swField j 64 17 ≤ (recField w 0x20000 1224 7 + 1) % 2 ^ 7) == met && (List.range 1).all fun e =>
    decide ((readElem w j (stagingVa j p e)).natAbs < 2 ^ 95 ∧ (readElem w j (targetVa j e)).natAbs < 2 ^ 126)
theorem witness_Joins_arrive : arriveB (sPart 2 0) (join0 2 0 [part0 0] 1) 0 false = true ∧ arriveB (sPart 1 0) (join0 1 0 [part0 0] 1) 0 true = true ∧ (join0 1 0 [part0 0] 1).weights.getD 0 0 = 1 ∧
    (locB (sPart 1 0) [.jarrive c64 1] = true ∧ registeredAt (sPart 1 0) 0x20000 0 (ownParty (sPart 1 0)) = some (join0 1 0 [part0 0] 1)) ∧
    plainJoin (join0 1 0 [part0 0] 1) = true ∧ swField (join0 2 0 [] 1) 55 1 = 0 := by decide +kernel
def jwait0 : Instr := .jwait c64 5 1 1 1000
theorem witness_Joins_wait : locB (sJoin 2 0 0 0 0 [] 0) [jwait0, .jclose c64 1, .jcloseF c64 1] = true ∧ locB (sJoin 2 0 1 0 0 [join0 2 0 [] 1] 0) [jwait0, .jclose c64 1, .jcloseF c64 1] = true ∧
    locB (sJoin 2 0 2 0 0 [join0 2 0 [] 2] 0) [jwait0, .jclose c64 1, .jcloseF c64 1] = true ∧ joinState (sJoin 2 0 0 0 0 [] 0) 0x20000 = 0 ∧ joinState (sJoin 2 0 1 0 0 [join0 2 0 [] 1] 0) 0x20000 = 1 ∧
    joinState (sJoin 2 0 2 0 0 [join0 2 0 [] 2] 0) 0x20000 = 2 ∧
    foundJ (.jcloseF c64 1) (sJoin 2 0 0 0 0 [] 0) = none ∧ foundJ (.jcloseF c64 1) (sJoin 2 0 2 0 0 [join0 2 0 [] 2] 0) = some (join0 2 0 [] 2) ∧ foundJ (.jcloseF c64 1) (sJoin 2 0 1 0 0 [join0 2 0 [] 1] 0) = some (join0 2 0 [] 1) ∧
    ((getStrand (sTimedOut jwait0 (.join 0x20000)) 0).wait.any fun w => decide (w.i = jwait0) && w.served.isNone && timedOut (sTimedOut jwait0 (.join 0x20000)) 0 w) = true := by decide +kernel
/-- A stall's credit waits while a request without a place in the order may not reach the home. -/
def sClosedJoin (s : State) : State := { s with lastAsk := [(askJoin 0x20000, (s.cycle + 1, joinClosed))] }
/-- The deadline is long past. -/
def sDeadline : State := { sJoin 2 5 1 1 0 [join0 2 5 [part0 0] 1] 0 with cycle := 1000, time := [(0, 1000)] }
/-- A child's result is on its way to an open instance in which it is participant 1; a stall's duration too. -/
def sArrival : State := { sJoin 2 0 1 3 0 [join0 2 0 [part0 0, ⟨1, .join 0x30000 0, 0x20000⟩] 1] 0 with childArr := [⟨0x20000, 0, 1, [0x3F800000], 9⟩], stalls := [⟨0x20000, 0, 5⟩, ⟨0x20000, 1, 5⟩] }
theorem witness_Joins_home : (instAt sDeadline 0x20000 = some (join0 2 5 [part0 0] 1) ∧ plainJoin (join0 2 5 [part0 0] 1) = true ∧ deadlinePassed sDeadline (join0 2 5 [part0 0] 1) = true) ∧
    (instAt (sPart 2 0) 0x20000 = some (join0 2 0 [part0 0] 1) ∧ deadlinePassed (sPart 2 0) (join0 2 0 [part0 0] 1) = false) ∧
    (instAt sArrival 0x20000 = some (join0 2 0 [part0 0, ⟨1, .join 0x30000 0, 0x20000⟩] 1) ∧ sArrival.childArr.find? (fun a => a.key == 0x20000) = some ⟨0x20000, 0, 1, [0x3F800000], 9⟩ ∧
      (join0 2 0 [part0 0, ⟨1, .join 0x30000 0, 0x20000⟩] 1).regs.find? (fun r => r.pid == 1) = some ⟨1, .join 0x30000 0, 0x20000⟩ ∧ mayAsk sArrival (askJoin 0x20000) 1 = true ∧
     
      recField sArrival 0x20000 768 64 = 0 ∧ sArrival.stalls[0]? = some ⟨0x20000, 0, 5⟩ ∧ sArrival.stalls[1]? = some ⟨0x20000, 1, 5⟩) := by decide +kernel
theorem witness_Joins_credit : mayAsk sArrival (askJoin 0x20000) joinAny = true ∧ mayAsk (sClosedJoin sArrival) (askJoin 0x20000) joinAny = false ∧ (sClosedJoin sArrival).stalls[0]? = some ⟨0x20000, 0, 5⟩ ∧
    AllHomes (sClosedJoin sArrival) := ⟨by decide +kernel, by decide +kernel, by decide +kernel, homes_joins (by decide +kernel)⟩
theorem witness_Joins_homes : AllHomes sDeadline ∧ AllHomes (sPart 2 0) ∧ AllHomes sArrival ∧ Laid (join0 2 5 [part0 0] 1) ∧ Laid (join0 2 0 [part0 0, ⟨1, .join 0x30000 0, 0x20000⟩] 1) ∧ InRange (sPart 1 0) (join0 1 0 [part0 0] 1) 0 :=
  ⟨homes_joins (by decide +kernel), homes_joins (by decide +kernel), homes_joins (by decide +kernel), laid_of (by decide +kernel), laid_of (by decide +kernel), by decide +kernel, fun e he => by
    have h : ((List.range 1).all fun e => decide ((readElem (sPart 1 0) (join0 1 0 [part0 0] 1) (stagingVa (join0 1 0 [part0 0] 1) 0 e)).natAbs < 2 ^ 95 ∧
      (readElem (sPart 1 0) (join0 1 0 [part0 0] 1) (targetVa (join0 1 0 [part0 0] 1) e)).natAbs < 2 ^ 126)) = true := by decide +kernel
    have h2 : e < 1 := by rw [show jNE (join0 1 0 [part0 0] 1) = 1 by decide +kernel] at he; exact he
    have := List.all_eq_true.1 h e (List.mem_range.2 h2)
    simp only [decide_eq_true_eq] at this
    exact ⟨.inr this.1, .inr this.2⟩⟩

theorem test_jopen : ((out (.jopen c64 1) (sJoin 2 0 0 0 0 [] 0)).map fun t => (joinState t 0x20000, recField t 0x20000 62 2, (instAt t 0x20000).map JoinInst.weights, byteAt t.mem 0x20140)) =
    some (1, 1, some [1, 1], 0) ∧ trapped (.jopen c64 4) (sJoin 2 0 0 0 0 [] 0) = some (9, 0x20080, 0x10000) := by decide +kernel
theorem test_jenter : ((out (.jenter c64 1 2) (sJoin 2 0 1 1 0 [join0 2 0 [part0 0] 1] 0)).map fun t => ((me t).jslot, recField t 0x20000 704 64)) = some (0x8200000000020000, 3) ∧
    trapped (.jenter c64 1 3) (sJoin 2 0 1 1 0 [join0 2 0 [part0 0] 1] 0) = some (0x12, 0x2000000000020000, 0x10000) := by decide +kernel
theorem test_jcont : ((out (.jcont c64 true 0 1 1) (sPart 2 0)).map fun t => readLE t.mem 0x20140 16) = some 12 ∧
    trapped (.jcont c64 true 0 1 2) (sPart 2 0) = some (0x12, 0x5000000000020000, 0x10000) := by decide +kernel
theorem test_jarrive : ((out (.jarrive c64 1) (sPart 2 0)).map fun t => (readLE t.mem 0x20180 16, readLE t.mem 0x20140 16, getG (me t) 1, recField t 0x20000 62 2)) = some (7, 0, true, 1) ∧
    ((out (.jarrive c64 1) (sPart 1 0)).map fun t => (recField t 0x20000 62 2, recField t 0x20000 59 3, readLE t.mem 0x201C0 4, (me t).jslot)) = some (2, 1, 0x38E00000, 0) := by decide +kernel
theorem test_jwait : ((out jwait0 (sJoin 2 0 2 0 0 [join0 2 0 [] 2] 0)).map fun t => (getS (me t) 5, getG (me t) 1)) = some (0x10, true) ∧ trapped jwait0 (sJoin 2 0 0 0 0 [] 0) = some (0x12, 0x1000000000020000, 0x10000) ∧
    ((out (.jwaitTimeout 0) (sTimedOut jwait0 (.join 0x20000))).map fun t => (getG (me t) 1, (me t).pc)) = some (false, 0x10008) := by decide +kernel
theorem test_jclose : ((out (.jclose c64 1) (sJoin 2 0 2 0 0 [join0 2 0 [] 2] 0)).map fun t => (recField t 0x20000 62 2, t.joins.length)) = some (3, 0) ∧
    ((out (.jcloseF c64 1) (sJoin 2 0 1 0 0 [join0 2 0 [] 1] 0)).map fun t => (recField t 0x20000 62 2, recField t 0x20000 59 3)) = some (2, 3) := by decide +kernel
/-- A deadline closes the join to the later requests of its cycle (spec/15 R299). -/
theorem test_deadline_closes : ((out (.joinDeadline 0x20000) sDeadline).map fun t => mayAsk t (askJoin 0x20000) 63) = some false := by decide +kernel
theorem test_join_home : ((out (.joinDeadline 0x20000) sDeadline).map fun t => (recField t 0x20000 59 3, t.kills.map fun m => (m.who, m.pid, m.kpc))) = some (3, [(.strand 0 0, 0, some 0x30000)]) ∧
    ((out (.childJoinArrival 0x20000) sArrival).map fun t => (readLE t.mem 0x20180 16, recField t 0x20000 768 64)) = some (1, 2) ∧
    ((out (.stallCredit 0) sArrival).map fun t => recField t 0x20000 192 64) = some 5 ∧ ((out (.stallCredit 1) sArrival).map fun t => recField t 0x20000 192 64) = some 0 := by decide +kernel

/-- A kill for a strand of the context 0 or 3 is on its way; the context 3 is saved or not. -/
def sKillMsg (ctx : Nat) (saved : Bool) : State := modCtx { s0 with kills := [⟨.strand 0 ctx, 0x20000, 3, some 0x30000, 9⟩] } 3 fun c => { c with saved := saved }
/-- The strand waits for a message with a kill pending as `sKill` has it, with a handler or to retire. -/
def sKillWait (pid : Nat) (h : Option Word) : State := modMe (waitIn (sKill pid 0) recv0 .message 0 0 none) fun x => { x with kills := x.kills.map fun p => { p with kpc := h } }
theorem witness_Kills_delivery : (∀ b : Bool, (sKillMsg 3 b).kills[0]? = some ⟨.strand 0 3, 0x20000, 3, some 0x30000, 9⟩ ∧ ¬ ((getStrand (sKillMsg 3 b) 0).run = .running ∧ stCtx (getStrand (sKillMsg 3 b) 0) = 3) ∧
      (getCtx (sKillMsg 3 b) 3).saved = b) ∧
    (sKillMsg 0 false).kills[0]? = some ⟨.strand 0 0, 0x20000, 3, some 0x30000, 9⟩ ∧ (getStrand (sKillMsg 0 false) 0).run = .running ∧ stCtx (getStrand (sKillMsg 0 false) 0) = 0 := by decide +kernel
/-- The kill is for a strand of the device 1. -/
def sKillAway : State := { s0 with kills := [⟨.strand 0x41000 0, 0x20000, 3, some 0x30000, 9⟩] }
/-- The strand of the context 0 is quiesced and its context is not saved yet. -/
def sKillKept : State := modMe (sKillMsg 0 false) fun x => { x with run := .saved }
theorem witness_Kills_places : (sKillAway.kills[0]? = some ⟨.strand 0x41000 0, 0x20000, 3, some 0x30000, 9⟩ ∧ otherDev sKillAway 0x41000 18 12 = true) ∧
    (∀ s ∈ [sKillMsg 0 false, sKillMsg 3 false, sKillMsg 3 true, sKillKept], otherDev s 0 18 12 = false) ∧
    (getCtx sKillKept 0).saved = false ∧ (getStrand sKillKept 0).run = .saved ∧ stCtx (getStrand sKillKept 0) = 0 := by decide +kernel
theorem witness_Kills_taken : (∀ s ∈ [sKillWait 4 none, sKillWait 3 none, sKillWait 3 (some 0x30001)], mayRun s 0 = true ∧ killDue (getStrand s 0) = true ∧ insideKillPoint (getStrand s 0) = true ∧ killReady s 0 = true) ∧
    (∀ s ∈ [modMe (sKillWait 3 none) fun x => { x with inflight := [⟨7, [0x400], false, false, false, none⟩] }, modMe (sKillWait 3 (some 0x30001)) fun x => { x with vtabQ := [req9] }], mayRun s 0 = true ∧ killDue (getStrand s 0) = true ∧
      insideKillPoint (getStrand s 0) = true ∧ killReady s 0 = false) ∧
    matchingKill (getStrand (sKillWait 4 none) 0) = none ∧ matchingKill (getStrand (sKillWait 3 none) 0) = some ⟨0x20000, 3, none, 9⟩ ∧ (getStrand (sKillWait 3 none) 0).task = none ∧
    matchingKill (getStrand (sKillWait 3 (some 0x30001)) 0) = some ⟨0x20000, 3, some 0x30001, 9⟩ := by decide +kernel
/-- A command of the copy engine is killed; a child join, open or released, is killed. -/
def sKillCopy : State := { sQueued with kills := [⟨cmdParty 0 cmd0, 0x20000, 1, none, 9⟩] }
def sKillJoin (st n : Nat) : State := { sJoin 2 0 st 0 0 [join0 2 0 [] st] 0 with kills := [⟨.join 0x20000 n, 0x28000, 1, none, 9⟩] }
theorem witness_Kills_units : ((getCluster sKillCopy 0).copies[0]? = some cmd0 ∧ sKillCopy.kills.find? (fun m => m.who == cmdParty 0 cmd0) = some ⟨cmdParty 0 cmd0, 0x20000, 1, none, 9⟩) ∧
    (∀ p ∈ [(1, 0), (1, 1), (2, 0)], (sKillJoin p.1 p.2).kills.find? (fun m => (childOf 0x20000 m).isSome) = some ⟨.join 0x20000 p.2, 0x28000, 1, none, 9⟩ ∧
      instAt (sKillJoin p.1 p.2) 0x20000 = some (join0 2 0 [] p.1) ∧ (join0 2 0 [] p.1).state = p.1 ∧ (join0 2 0 [] p.1).num = 0 ∧ mayAsk (sKillJoin p.1 p.2) (askJoin 0x20000) joinAny = true ∧ mayAsk (sClosedJoin (sKillJoin p.1 p.2)) (askJoin 0x20000) joinAny = false) := by
  decide +kernel
theorem witness_Kills_homes : AllHomes (sKillJoin 1 0) ∧ AllHomes (sKillJoin 1 1) ∧ AllHomes (sKillJoin 2 0) ∧ Laid (join0 2 0 [] 1) := ⟨homes_joins (by decide +kernel), homes_joins (by decide +kernel), homes_joins (by decide +kernel), laid_of (by decide +kernel)⟩
theorem test_kill_delivery : ((out (.killDelivery 0) (sKillMsg 0 false)).map fun t => (stKillp (me t), (me t).kills, t.kills.length)) = some (true, [⟨0x20000, 3, some 0x30000, 9⟩], 0) ∧
    ((out (.killDelivery 0) (sKillMsg 3 true)).map fun t => (stKillp (me t), (getCtx t 3).heldKills)) = some (false, [(0, ⟨0x20000, 3, some 0x30000, 9⟩)]) := by decide +kernel
theorem test_kill_taken : ((out (.killTaken 0) (sKillWait 3 (some 0x30001))).map fun t => ((me t).pc, getS (me t) 3, getS (me t) 4, (me t).wait.isNone)) = some (0x30000, 0x20000, 3, true) ∧
    ((out (.killTaken 0) (sKillWait 3 none)).map fun t => (me t).run) = some .stopped ∧ ((out (.killTaken 0) (sKillWait 4 none)).map fun t => (stKillp (me t), (me t).wait.isSome)) = some (false, true) := by decide +kernel
theorem test_kill_units : ((out (.childJoinKill 0x20000) (sKillJoin 1 1)).map fun t => (recField t 0x20000 62 2, t.kills.length)) = some (1, 0) ∧
    ((out (.copyKill 0 0) sKillCopy).map fun t => ((getCluster t 0).copies.map fun q => (q.killed, q.floor), t.kills.length)) = some ([(true, 10)], 0) ∧
    ((out (.childJoinKill 0x20000) (sKillJoin 1 0)).map fun t => (recField t 0x20000 62 2, recField t 0x20000 59 3)) = some (2, 3) := by decide +kernel

/-! ### System instructions and control registers (spec/01, spec/09) -/

/-- s1 = 0x123456789ABCDEF1, s2 = 2, s3 = 0x10008, s4 = 0x10440, s5 = 4. -/
def sSys : State := withS [(1, 0x123456789ABCDEF1), (2, 2), (3, 0x10008), (4, 0x100440), (5, 3)]
def sSysUser : State := modMe sSys fun x => { x with status := 4 }
/-- Context 2. -/
def sSysCtx : State := modCore (modMe sSys fun x => { x with status := 0x2005, loops := [⟨0x10000, 0x10020, 3, 0, 7, 1⟩] }) 0 fun y => { y with owner := some 2 }
/-- The bank is in use by a request of the table unit of another strand. -/
def sBank : State := modStrand sSys 1 fun x => { x with vtabQ := [{ req9 with dst := 20, bank := true }] }
theorem witness_SystemInstructions_mfc : (∀ cr : BitVec 12, cr.toNat < 0x1A → Ready (.mfc c64 6 cr) c64 sSys) ∧ (me sSys).vtabQ = [] ∧ (controlRegisters sSys)[0x18]? ≠ none ∧ (controlRegisters sSys)[0x19]? = none :=
  ⟨fun cr h => ready_of (show readyB (.mfc c64 6 cr) c64 sSys = true by rfl), by decide +kernel, by decide +kernel, by decide +kernel⟩
theorem witness_SystemInstructions_mtc : (∀ n : BitVec 12, Ready (.mtc c64 1 n) c64 sSys ∧ Ready (.mtc c64 1 n) c64 sSysUser) ∧ stPriv (me sSys) = true ∧ stPriv (me sSysUser) = false ∧
    (me sSys).inflight = [] ∧ (me sSys).vtabQ = [] ∧ (me sSysUser).vtabQ = [] ∧ bankInUse sSys (coreOf sSys.cur) = false ∧ (getS (me sSys) 5).toNat % 4 = 3 ∧ (getS (me sSys) 2).toNat % 4 < 3 ∧
    (getS (me sSys) 2).toNat % 4 ≠ (myCore sSys).vmode.toNat ∧ (getS (me sSys) 0).toNat % 4 = (myCore sSys).vmode.toNat :=
  ⟨fun n => ⟨ready_of (show readyB (.mtc c64 1 n) c64 sSys = true by rfl), ready_of (show readyB (.mtc c64 1 n) c64 sSysUser = true by rfl)⟩, by decide +kernel⟩
theorem witness_SystemInstructions_bank : stPriv (me sBank) = true ∧ bankInUse sBank (coreOf sBank.cur) = true ∧ Ready (.mtc c64 1 0x14) c64 sBank ∧
    ∀ n ∈ [Instr.mtc c64 0 0x14, .mtc c64 2 0x14, .mtc c64 5 0x14, .mtc c64 4 6], Ready n c64 sSys := ⟨by decide +kernel, by decide +kernel, ready_of (by decide +kernel), ready_all (by decide +kernel)⟩
/-- A store that adds to NANCNT, or one that the carve-out serves, has not landed. -/
def sAdding : State := modMe sSys fun x => { x with inflight := [⟨1, [], false, false, true, none⟩], d := [(1, 1)] }
def sCarving : State := modMe sSys fun x => { x with inflight := [⟨1, [], true, false, false, none⟩], d := [(1, 1)] }
theorem witness_SystemInstructions_holds : (Ready (.mtc c64 1 0x11) c64 sAdding ∧ (me sAdding).inflight.any Flight.nan = true) ∧ Ready (.mtc c64 1 0x16) c64 sCarving ∧ (me sCarving).inflight.any Flight.carved = true :=
  ⟨⟨ready_of (by decide +kernel), by decide +kernel⟩, ready_of (by decide +kernel), by decide +kernel⟩
def ring0 (wr rd : Nat) : Ring := ⟨0x40000, 0x800000000000000C, wr, rd, BitVec.allOnes 256, 0⟩
/-- The context traces in some mode, and tenant 0 has a ring. -/
def sTrace (mode : Nat) : State := { modCore sSys 0 fun y => { y with desc := 0x1001 + BitVec.ofNat 512 mode <<< 196 } with rings := [(0, ring0 0 0)] }
theorem witness_SystemInstructions_trace : (Ready (.trace c64 9 1 2) c64 (sTrace 0) ∧ (myCore (sTrace 0)).desc.toNat / 2 ^ 196 % 4 = 0) ∧
    (Ready (.trace c64 9 1 2) c64 (sTrace 2) ∧ (myCore (sTrace 2)).desc.toNat / 2 ^ 196 % 4 = 2 ∧ ringTakes (sTrace 2) ((me (sTrace 2)).tenant.toNat % 16) 0x18 = true) :=
  ⟨⟨ready_of (by decide +kernel), by decide +kernel⟩, ready_of (by decide +kernel), by decide +kernel⟩
/-- The debug module halts the cluster on BKPT of context 0. -/
def sBreaks : State := modCluster sSys 0 fun c => { c with dm := { c.dm with ctl := 0x10000 } }
/-- A strand of a higher number meets a BKPT in this cycle. -/
def sBreaksLater : State := noteAsk sBreaks (askBreak 0) 9
/-- The strand stands in a handler. -/
def sHandler : State := modMe sSys fun x => { x with status := 0x11, epc := 0x30003, shadow := [⟨0x30000, 0x30020, 3, 0, 7, 1⟩] }
theorem witness_SystemInstructions_traps : ((∀ i ∈ [Instr.trap c64 7, .bkpt c64 7], Ready i c64 sSys) ∧ (getCluster sSys (clusterOf sSys.cur)).dm.ctl.getLsbD (16 + stCtx (me sSys)) = false ∧ (me sSys).vtabQ = []) ∧
    (Ready (.bkpt c64 7) c64 sBreaks ∧ (getCluster sBreaks (clusterOf sBreaks.cur)).dm.ctl.getLsbD (16 + stCtx (me sBreaks)) = true ∧ (getCluster sBreaks (clusterOf sBreaks.cur)).dm.halted = false ∧ mayAsk sBreaks (askBreak 0) 0 = true) ∧
    (Ready (.bkpt c64 7) c64 sBreaksLater ∧ (getCluster sBreaksLater (clusterOf sBreaksLater.cur)).dm.ctl.getLsbD (16 + stCtx (me sBreaksLater)) = true ∧ mayAsk sBreaksLater (askBreak 0) 0 = false) ∧
    Ready (.tret c64) c64 sHandler :=
  ⟨⟨ready_all (by decide +kernel), by decide +kernel⟩, ⟨ready_of (by decide +kernel), by decide +kernel⟩, ⟨ready_of (by decide +kernel), by decide +kernel⟩, ready_of (by decide +kernel)⟩
/-- The core caches translations of contexts 0 and 2. -/
def sTlb : State := modCore sSys 0 fun y => { y with tlb := [⟨0, 0x10000, 0x1000, 0x1F⟩, ⟨2, 0x10000, 0x1000, 0x1F⟩, ⟨2, 0x20000, 0x1000, 0x1F⟩] }
theorem witness_SystemInstructions_slots : (∀ i ∈ [Instr.tlbinvAll c64 3 2, .tlbinvPg c64 3 2], Ready i c64 sTlb) ∧ ((∀ i ∈ [Instr.slotwMat c64 1, .slotwCpy c64 1, .slotwTku c64 1], Ready i c64 sSys) ∧ stCtx (me sSys) = 0) ∧
    (∀ i ∈ [Instr.slotwCpy c64 1, .slotwTku c64 1], Ready i c64 sSysCtx) ∧ stCtx (me sSysCtx) ≠ 0 ∧ (me sSysCtx).vtabQ = [] ∧
    (encode (.slotwCpy c64 1)).length = 2 ∧ (encode (.slotwTku c64 1)).length = 2 :=
  ⟨ready_all (by decide +kernel), ⟨ready_all (by decide +kernel), by decide +kernel⟩, ready_all (by decide +kernel), by decide +kernel⟩

theorem test_mfc : outS (.mfc c64 6 7) sSys 6 = some 0x3F000001 ∧ outS (.mfc c64 6 0x10) sSys 6 = some 0x3F800000 ∧ trapped (.mfc c64 6 0x19) sSys = some (1, 0x19, 0x10000) := by decide +kernel
theorem test_mtc : [(0, 0), (4, 4), (0x12, 0x12), (0x13, 0x13), (0x16, 0x16), (0x17, 0x17), (9, 9)].map (fun p : BitVec 12 × BitVec 12 => ((out (.mtc c64 1 p.1) sSys).bind fun t => outS (.mfc c64 6 p.2) t 6)) =
      [some 0x11, some 0x123456789ABCDEF0, some 0x123456789AB00000, some 0x003456789ABCDEF0, some 0x003456789ABCDE81, some 1, some 0x123456789ABCDEF1] ∧
    trapped (.mtc c64 1 7) sSys = some (1, 7, 0x10000) ∧ trapped (.mtc c64 1 0x14) sSysUser = some (4, 0x14, 0x10000) := by decide +kernel
theorem test_geom_and_vbank : ((out (.mtc c64 4 6) sSys).map fun t => (me t).geom) = some 0x100440 ∧ ((out (.mtc c64 2 0x14) sSys).map fun t => ((myCore t).vmode, (myCore t).vstate)) = some (2, 2) ∧
    ((out (.mtc c64 2 0x14) sBank).map fun t => ((myCore t).vmode, (me t).pc)) = some (0, 0x10000) := by decide +kernel
theorem test_trace : ((out (.trace c64 9 1 2) (sTrace 2)).map fun t => t.recs.map fun r => r.words.drop 2) = some [[0x123456789ABCDEF1, 2, 0x900]] ∧ ((out (.trace c64 9 1 2) (sTrace 0)).map fun t => t.recs.length) = some 0 := by
  decide +kernel
theorem test_traps : trapped (.trap c64 7) sSys = some (0x11, 7, 0x10008) ∧ trapped (.bkpt c64 9) sSys = some (0x10, 9, 0x10008) ∧
    ((out (.bkpt c64 7) sBreaks).map fun t => ((getCluster t 0).dm.halted, (getCluster t 0).dm.cause, (me t).pc)) = some (true, 3, 0x10008) := by decide +kernel
theorem test_tret : ((out (.tret c64) sHandler).map fun t => ((me t).pc, (me t).status, (me t).loops)) = some (0x30000, 0x14, [⟨0x30000, 0x30020, 3, 0, 7, 1⟩]) := by decide +kernel
theorem test_tlbinv : ((out (.tlbinvAll c64 3 2) sTlb).map fun t => (myCore t).tlb.map fun e => (e.ctx, e.base)) = some [(0, 0x10000)] ∧
    ((out (.tlbinvPg c64 3 2) sTlb).map fun t => (myCore t).tlb.map fun e => (e.ctx, e.base)) = some [(0, 0x10000), (2, 0x20000)] := by decide +kernel
theorem test_slotw : ((out (.slotwMat c64 1) sSys).map fun t => (myCore t).matSlot) = some 0x123012389AB89AB1 ∧ ((out (.slotwCpy c64 1) sSys).map fun t => (getCluster t 0).cpySlot) = some 0x123456789ABCDEF1 ∧
    ((out (.slotwTku c64 1) sSys).map fun t => (getCluster t 0).tkuSlot) = some 0x123456789ABCDEF1 := by decide +kernel

/-! ### Device steps of a strand and a core -/

/-- The program counter is in no mapped page. -/
def sLost : State := onMe fun x => { x with pc := 0x40000000 }
theorem witness_StrandEvents_fetch : mayIssue s0 1 = false ∧ (mayIssue s0 0 = true ∧ ∃ t, fetch s0 0 = .instr (.nop c64) t) ∧ mayIssue sLost 0 = true ∧ (getStrand sLost 0).loops = [] ∧ (getStrand sLost 0).entered = false ∧
    (getStrand sLost 0).vtabQ = [] ∧ translate sLost (coreOf 0) (stCtx (getStrand sLost 0)) (getCore sLost (coreOf 0)).desc (getStrand sLost 0).pc.toNat .fetch = none ∧ Roomy s0 (clusterOf 0) 2 :=
  ⟨by decide +kernel, ⟨by decide +kernel, fetched_of (by decide +kernel)⟩, by decide +kernel, by decide +kernel, by decide +kernel, by decide +kernel, by decide +kernel, by unfold Roomy; decide +kernel⟩
/-- A merged atomic of strands 0 and 1. -/
def sMerging : State := modStrand (modStrand { s0 with reductions := [⟨0x30000, .add, .z32, 7, [⟨0, 1, 0x30000⟩, ⟨1, 2, 0x30000⟩, ⟨0, 7, 0x30004⟩]⟩] } 0 fun x => { x with d := [(1, 1)] }) 1 fun x => { x with d := [(2, 3)] }
theorem witness_StrandEvents_lands : (∃ f r, (getStrand sDirty 0).inflight = f :: r) ∧ ((getStrand sMerging 0).inflight = [] ∧ sMerging.reductions.find? (fun q => q.owners.any fun o => o.strand == 0) =
      some ⟨0x30000, .add, .z32, 7, [⟨0, 1, 0x30000⟩, ⟨1, 2, 0x30000⟩, ⟨0, 7, 0x30004⟩]⟩ ∧ 32 ≤ (Ty.z32).width ∧ (∀ o ∈ ([⟨0, 1, 0x30000⟩, ⟨1, 2, 0x30000⟩, ⟨0, 7, 0x30004⟩] : List MergedBy), (coreLine sMerging (coreOf o.strand) (0x30000 / 128) = none ∧ l2Line sMerging (clusterOf o.strand) (0x30000 / 128) = none) ∧ coreOf o.strand = coreOf 0) ∧ AllHomes sMerging) ∧
    ((getStrand s0 0).inflight = [] ∧ s0.reductions.find? (fun q => q.owners.any fun o => o.strand == 0) = none) :=
  ⟨⟨⟨7, [0x400], false, false, false, none⟩, [], by decide +kernel⟩, ⟨by decide +kernel, by decide +kernel, by decide +kernel, by decide +kernel, homes_of (by decide +kernel)⟩, by decide +kernel⟩
theorem witness_StrandEvents_stores : Roomy sDirty (clusterOf 0) 1 ∧ ∀ l ∈ [0x400], l * 128 < 0x8000000000000 := by unfold Roomy; decide +kernel
/-- A load of strand 0 that has issued and is not performed: a word at 0x20004 into s5, or into the even lanes of v5. -/
def sPending (p : PendLoad) : State := modMe sm fun x => { x with inflight := [⟨1, [], false, false, false, some p⟩], d := [(1, 1)] }
def loadS : PendLoad := ⟨false, 5, .z32, 0, false, [⟨0, 0x20004, .glob 0x20004⟩], 0, 0⟩
def loadV : PendLoad := ⟨true, 5, .z32, 5, false, [⟨0, 0x20000, .glob 0x20000⟩, ⟨2, 0x20008, .glob 0x20008⟩], 0, 0⟩
theorem witness_StrandEvents_loads : (∀ p ∈ [loadS, loadV], (sPending p |> fun s => (getStrand s 0).inflight) = [⟨1, [], false, false, false, some p⟩] ∧ AllHomes (sPending p)) ∧
    (loadS.vec = false ∧ loadS.dst < 32 ∧ loadS.lanes = [⟨0, 0x20004, .glob 0x20004⟩] ∧ loadS.ty.isNum = true) ∧ AlignedLanes loadS.lanes (loadS.ty.width / 8) ∧
    (loadV.vec = true ∧ loadV.dst < 32 ∧ loadV.ty.isNum = true) ∧ AlignedLanes loadV.lanes (loadV.ty.width / 8) ∧
    ∀ p ∈ [loadS, loadV], (p.lanes.all fun l => !poisoned (sPending p) 0 l.va 4) = true := by
  refine ⟨fun p hp => ?_, by decide, aligned_of (by decide), by decide, aligned_of (by decide), by decide +kernel⟩
  simp only [List.mem_cons, List.not_mem_nil, or_false] at hp
  rcases hp with rfl | rfl <;> exact ⟨by decide +kernel, homes_of (by decide +kernel)⟩
/-- Lane 2 of the vector load meets an uncorrected error; a table request of the strand is on its way or not. -/
def sErrs (q : List VtabReq) : State := modMe { sPending loadV with poison := [0x20008] } fun x => { x with vtabQ := q }
theorem witness_StrandEvents_load_errs : loadV.lanes = [⟨0, 0x20000, .glob 0x20000⟩] ++ ⟨2, 0x20008, .glob 0x20008⟩ :: [] ∧ (∀ q ∈ [[], [req9]], poisoned (sErrs q) (coreOf 0) 0x20000 (loadV.ty.width / 8) = false ∧
    poisoned (sErrs q) (coreOf 0) 0x20008 (loadV.ty.width / 8) = true ∧ (getStrand (sErrs q) 0).run = .running ∧ (getStrand (sErrs q) 0).vtabQ = q ∧ (getStrand (sErrs q) 0).wait = none ∧ (getStrand (sErrs q) 0).long = none) := by
  decide +kernel
/-- Interrupt lines are pending, and taken or not. -/
def sIrq (status : Word) (irq : BitVec 3) : State := onMe fun x => { x with status := status, irq := irq, tvec := 0x30003, loops := [⟨0x10000, 0x10020, 3, 0, 7, 1⟩] }
theorem witness_StrandEvents_interrupt : stIE (getStrand (sIrq 0x1 1) 0) = false ∧ (getStrand (sIrq 0x4 0) 0).irq = 0 ∧
    (let s := sIrq 0x4 6
     stIE (getStrand s 0) = true ∧ (getStrand s 0).irq.getLsbD 1 = true ∧ (getStrand s 0).irq.getLsbD 0 = false ∧ mayRun s 0 = true ∧ insideIrqPoint (getStrand s 0) = true ∧ killDue (getStrand s 0) = false ∧
       (getStrand s 0).vtabQ = [] ∧ (getStrand s 0).wait = none ∧ (getStrand s 0).long = none) := by decide +kernel
/-- The same with a kill due, that the strand waits for a message or not. -/
def sIrqKill : State := modMe (sIrq 0x24 6) fun x => { x with kills := [⟨0x20000, 3, none, 9⟩], jslot := 0x8600000000020000 }
def sIrqWait : State := waitIn sIrqKill recv0 .message 0 0 none
theorem witness_StrandEvents_kill_first : (killDue (getStrand sIrqWait 0) = true ∧ (getStrand sIrqWait 0).wait ≠ none) ∧
    (stIE (getStrand sIrqKill 0) = true ∧ (getStrand sIrqKill 0).irq.getLsbD 1 = true ∧ (getStrand sIrqKill 0).irq.getLsbD 0 = false ∧ mayRun sIrqKill 0 = true ∧ insideIrqPoint (getStrand sIrqKill 0) = true ∧
      killDue (getStrand sIrqKill 0) = true ∧ (getStrand sIrqKill 0).wait = none ∧ (getStrand sIrqKill 0).long = none ∧ (getStrand sIrqKill 0).vtabQ = [] ∧
      (match fetch sIrqKill 0 with | .instr i _ => i.common.all fun c => !c.kpt | _ => true) = true) := by decide +kernel
def sBankOf (vmode vstate : BitVec 2) (vidle cycle : Nat) : State := { modCore s0 0 fun y => { y with vmode := vmode, vstate := vstate, vidle := vidle } with cycle := cycle }
theorem witness_StrandEvents_bank : (let y := getCore (sBankOf 1 1 12 2000) 0; y.vmode = 1 ∧ (y.vstate = 1 ∧ y.vidle ≠ 0 ∧ y.vidle ≤ 2000) ∧ 1024 ≤ (sBankOf 1 1 12 2000).cycle - y.vidle) ∧
    (let y := getCore (sBankOf 1 0 0 1024) 0; y.vmode = 1 ∧ y.vstate = 0 ∧ 1024 ≤ (sBankOf 1 0 0 1024).cycle - y.vidle) ∧
    (let y := getCore (sBankOf 1 0 1 1024) 0; ¬ (y.vmode = 1 ∧ y.vstate = 0 ∧ 1024 ≤ (sBankOf 1 0 1 1024).cycle - y.vidle)) ∧
    (let y := getCore (sBankOf 1 1 12 12) 0; y.vstate = 1 ∧ y.vidle ≠ 0 ∧ y.vidle ≤ (sBankOf 1 1 12 12).cycle) ∧
    (let y := getCore (sBankOf 1 1 13 12) 0; ¬ (y.vstate = 1 ∧ y.vidle ≠ 0 ∧ y.vidle ≤ (sBankOf 1 1 13 12).cycle)) := by decide +kernel
/-- Time alone brings an AUTO bank to retention (spec/01 R25). -/
theorem witness_StrandEvents_idle : (getCore (passTime (sBankOf 1 0 0 0) 1024) 0).vmode = 1 ∧ bankSleeps (passTime (sBankOf 1 0 0 0) 1024) 0 = true ∧ (getCore (passTime (sBankOf 1 0 0 0) 1) 0).vmode = 1 ∧
    bankSleeps (passTime (sBankOf 1 0 0 0) 1) 0 = false := by decide +kernel
def vand16 : Instr := .vand c64 .s8 false 0 1 15 16
theorem witness_StrandEvents_asleep : vand16.common = some c64 ∧ Allowed vand16 (sBankOf 1 1 0 5) ∧ c64.kpt = false ∧ countersClear (me (sBankOf 1 1 0 5)) c64 = true ∧ operandsBlock (me (sBankOf 1 1 0 5)) vand16 = false ∧ (myCore (sBankOf 1 1 0 5)).vidle = 0 ∧
    (me (sBankOf 1 1 0 5)).notBefore ≤ (sBankOf 1 1 0 5).cycle ∧ (16 : VReg) ∈ vecRegs vand16 ∧ (myCore (sBankOf 1 1 0 5)).vstate = 1 :=
  ⟨by decide +kernel, allowed_of (by decide +kernel), by decide +kernel⟩
theorem witness_StrandEvents_eviction : AllHomes sDirty ∧ AllHomes sLanded := ⟨homes_of (by decide +kernel), homes_of (by decide +kernel)⟩

theorem test_fetch_fault : trapped (.instructionFetch 0) sLost = some (5, 0x40000000, 0x40000000) ∧ ((out (.instructionFetch 0) s0).map fun t => ((me t).pc, (myCore t).icache.length)) = some (0x10000, 1) := by decide +kernel
theorem test_lands : ((out (.resultLands 0) sMerging).map fun t => (readLE t.mem 0x30000 4, getD (getStrand t 0) 1, getD (getStrand t 1) 2, t.reductions.length)) = some (7, 0, 2, 0) ∧
    ((out (.resultLands 0) sDirty).map fun t => ((me t).inflight, byteAt t.mem 0x20008, seen t 1 0x20008)) = some ([], 0, 0x88) := by decide +kernel
theorem test_loads_land : ((out (.resultLands 0) (sPending loadS)).map fun t => (getS (me t) 5, getD (me t) 1)) = some (BitVec.ofNat 64 (readLE sm.mem 0x20004 4), 0) ∧
    ((out (.resultLands 0) (sPending loadV)).map fun t => [0, 1, 2].map fun l => lane (getV (me t) 5) 32 l) = some [readLE sm.mem 0x20000 4, 0, readLE sm.mem 0x20008 4] := by decide +kernel
theorem test_load_errs : trapped (.resultLands 0) (sErrs []) = some (0xE, 0x20008, 0x10000) := by decide +kernel
theorem test_interrupt : ((out (.interruptTaken 0) (sIrq 0x4 6)).map fun t => ((me t).cause, (me t).pc, (me t).epc, (me t).status, (me t).loops.length)) = some (0x8000000000000001, 0x30000, 0x10000, 0x11, 0) := by decide +kernel
theorem test_bank : ((out (.vbankRetention 0) (sBankOf 1 0 0 1024)).map fun t => (myCore t).vstate) = some 1 ∧ ((out vand16 (sBankOf 1 1 0 5)).map fun t => ((me t).pc, (myCore t).vidle)) = some (0x10000, 17) ∧
    ((out (.vbankWake 0) (sBankOf 1 1 17 17)).map fun t => (myCore t).vstate) = some 0 := by decide +kernel
theorem test_eviction : ((out (.cacheEviction (.dcache 0) 0x400) sDirty).map fun t => ((coreLine t 0 0x400).isNone, seen t 0 0x20008)) = some (true, 0x88) ∧
    ((out (.cacheEviction (.l2 0) 0x400) sLanded).map fun t => ((l2Line t 0 0x400).isNone, byteAt t.mem 0x20008)) = some (true, 0x88) := by decide +kernel

/-! ### The control space (spec/20, spec/21, spec/22) -/

def withCtx (x : Nat) (f : Ctx → Ctx) : State := modCtx s0 x f
def withRing (r : Ring) : State := { s0 with rings := [(15, r)] }
def withLink (n : Nat) (l : LinkUnit) : State := { s0 with links := [(n, l)] }
def withDm (f : Debug → Debug) : State := modCluster sSync 0 fun c => { c with dm := f c.dm }
theorem witness_ControlRegisters_contexts : isControl (0x20000 / 8 * 8) = false ∧ 15 < 16 ∧ 7 < 8 ∧ ((getCtx (withCtx 15 fun y => { y with stat := 1 }) 15).stat = 1 ∧ (getCtx s0 15).stat ≠ 1 ∧ (1 : Word).toNat % 4 ≠ 0 ∧ (4 : Word).toNat % 4 = 0) ∧
    (getCtx (withCtx 15 fun y => { y with lqtail := 1 }) 15).lqhead ≠ (getCtx (withCtx 15 fun y => { y with lqtail := 1 }) 15).lqtail ∧ (getCtx s0 15).lqhead = (getCtx s0 15).lqtail ∧
    (16 : Word).toNat % 32 ≤ 16 ∧ 16 < (17 : Word).toNat % 32 ∧ (stCtx (getStrand s0 0) ≠ 1 ∧ stCtx (getStrand s0 0) = 0 ∧ (getStrand s0 0).run = .running ∧ (0 : Word).toNat / 4096 % 64 = s0.devNo ∧ (getStrand s0 1).run = .absent) := by
  decide +kernel
theorem witness_ControlRegisters_rings : (let on := fun (w : Word) => w.getLsbD 63 && decide (12 ≤ w.toNat % 32)
      on (ring0 5 2).cfg = true ∧ on (getRing s0 15).cfg = false ∧ on (0x800000000000000B &&& 0x8017FFFFFFFFFF1F) = false ∧ on (0x800000000000000C &&& 0x8017FFFFFFFFFF1F) = true) ∧ getRing (withRing (ring0 5 2)) 15 = ring0 5 2 ∧
    (withRing (ring0 5 2)).recs.any (fun q => q.ring == 15 && q.held) = false ∧
    (1 : Word).toNat < (ring0 5 2).rd ∧ (ring0 5 2).wr < (6 : Word).toNat ∧ (ring0 5 2).rd ≤ (2 : Word).toNat ∧ (5 : Word).toNat ≤ (ring0 5 2).wr := by decide +kernel
theorem witness_ControlRegisters_links : 23 < 24 ∧ 42 < 43 ∧ ¬ ((8 ≤ 7 ∧ 7 < 28) ∨ (32 ≤ 7 ∧ 7 < 36) ∨ 40 ≤ 7) ∧ (8 ≤ 27 ∧ 27 < 28) ∧ (1 : Word) ≠ 0 ∧
    (getLink (withLink 27 ⟨0, true, 0, 0, 6, 0, [], [], [], [], []⟩) 27).dis = true ∧ (getLink (withLink 27 ⟨4, false, 0, 0, 2, 0, [], [], [], [], []⟩) 27).state = 4 ∧ (getLink s0 27).state = 0 ∧
    (getLink (withLink 27 ⟨2, false, 16, 64, 0, 0, [], [], [], [], []⟩) 27).dis = false ∧ (getLink (withLink 27 ⟨2, false, 16, 64, 0, 0, [], [], [], [], []⟩) 27).state = 2 := by decide +kernel
theorem witness_ControlRegisters_clusters : 0x98 % 8 = 0 ∧ 0x98 < 0xA0 ∧ 0x3F8 < 0x400 ∧ 0x13F8 < 0x1400 ∧ (8 : Word).toNat % 8 = 0 ∧ (9 : Word).toNat % 8 = 1 ∧ (10 : Word).toNat % 8 = 2 ∧ (12 : Word).toNat % 8 = 4 := by
  decide
/-- Event line 0, barrier counter 0 and mutex 0 have waiters. -/
def sWaiters : State := setMutex (setBarc (setEv sSync 0 0 ⟨0, 9, [(0, false)]⟩) 0 0 ⟨2, 1, [0], []⟩) 0 0 ⟨some 1, [0]⟩
theorem witness_ControlRegisters_owners : 0x9F < 0xA0 ∧ (getCluster (modCluster s0 0 fun c => { c with unav := 1 }) 0).unav.getLsbD 0 = true ∧ (getCluster s0 0).unav.getLsbD 0 = false ∧ (getCore s0 0).launch.isSome = true ∧
    (getCore s0 1).launch.isSome = false ∧ (getCore s0 1).owner = none ∧
    (∀ off ∈ [0x40, 0x80, 0x90], byteAt (getCluster sWaiters 0).owners off = 0x80) ∧ (getEv sWaiters 0 0).q = [(0, false)] ∧ (getBarc sWaiters 0 0).q = [0] ∧ (getMutex sWaiters 0 0).q = [0] := by decide +kernel
theorem witness_ControlRegisters_reads : (getCluster (withDm fun d => { d with halted := true }) 0).dm.halted = true ∧ (getCluster s0 0).dm.halted = false := by decide +kernel

/-- A doorbell that names strand 0 of this device, by its number or without, and one that names no strand of it. -/
theorem witness_ControlRegisters_doorbell : let names := fun (v : Word) => v.toNat / 2 ^ 19 = 0 ∧ (v.getLsbD 18 = true → v.toNat / 4096 % 64 = s0.devNo)
    names 0 ∧ names 0x40000 ∧ names 0x1000 ∧ ¬ names 0x41000 ∧ ¬ names 0x80000 := by decide +kernel
theorem test_doorbell : [0x40000, 0x41000, 0x80000].map (fun v => (out (.dbell 0 v) s0).map fun t => (me t).irq) = [some 1, some 0, some 0] := by decide +kernel
theorem test_context_registers : ((out (.registerWrite (dcb 0x3C0) 0xFFFFFFFFFFFFFFFF) s0).map fun t => (getCtx t 15).desc) = some 0x000FFFFFFFFFF001 ∧
    ((out (.registerWrite (dcb 0x4F0) 3) s0).map fun t => ((getCtx t 15).cmd, (getCtx t 15).stat)) = some (3, 1) ∧ ((out (.registerWrite (dcb 0x4F8) 0xFFFFFFFFFFFFFFFF) s0).map fun t => (getCtx t 15).pimg) = some 0x000FFFFFFFFFF000 ∧
    ((out (.registerWrite (dcb 0xBC8) 17) s0).map fun t => (getCtx t 15).lqcnt) = some 0 := by decide +kernel
theorem test_queue_registers : ((out (.lqtail 15 1) s0).map fun t => ((getCtx t 15).lqtail, (getCtx t 15).lqerr)) = some (1, false) ∧ ((out (.lqtail 15 2) s0).map fun t => ((getCtx t 15).lqtail, (getCtx t 15).lqerr)) = some (0, true) ∧
    ((out (.cqhead 15 7) s0).map fun t => (getCtx t 15).cqhead) = some 7 ∧ ((out (.dbell 0 0) s0).map fun t => (me t).irq) = some 1 ∧ ((out (.dbell 1 0) s0).map fun t => (me t).irq) = some 0 := by decide +kernel
theorem test_ring_registers : ((out (.trcfg 15 0x800000000000000C) s0).map fun t => (getRing t 15).cfg) = some 0x800000000000000C ∧ ((out (.trrd 15 4) (withRing (ring0 5 2))).map fun t => (getRing t 15).rd) = some 4 ∧
    ((out (.trrd 15 6) (withRing (ring0 5 2))).map fun t => (getRing t 15).rd) = some 2 ∧ ((out (.trcfg 15 0x800000000000001F) (withRing (ring0 5 2))).map fun t => ((getRing t 15).cfg, (getRing t 15).wr)) = some (0x800000000000000C, 5) := by
  decide +kernel
theorem test_ring_size : ((out (.trcfg 15 0x800000000000000B) s0).map fun t => (getRing t 15).cfg) = some 0x800000000000000B ∧
    ((out (.registerWrite (dcb 0xFC0) 0x1000) (withRing { ring0 0 0 with cfg := 0x800000000000000B })).map fun t => (getRing t 15).base) = some 0x1000 := by decide +kernel
theorem test_window_image : ((out (.registerWrite (ccb 0 0x400) 0xFFFFFFFFFFFFFFFF) s0).map fun t => leOf ((List.range 8).map fun j => (byteAt (getCluster t 0).pwinImg (0x400 + j)).toNat)) = some 0xE000000000003FBF := by decide +kernel
theorem test_link_registers : ((out (.dis 27 true) (withLink 27 ⟨2, false, 16, 64, 0, 0, [], [], [], [], []⟩)).map fun t => ((getLink t 27).state, (getLink t 27).reason, (getLink t 27).dis)) = some (0, 6, true) ∧
    ((out (.dis 27 false) (withLink 27 ⟨2, false, 16, 64, 0, 0, [], [], [], [], []⟩)).map fun t => ((getLink t 27).state, (getLink t 27).width)) = some (1, 0) ∧
    ((out (.dis 27 false) (withLink 27 ⟨0, true, 0, 0, 6, 0, [], [], [], [], []⟩)).map fun t => ((getLink t 27).state, (getLink t 27).dis)) = some (1, false) ∧
    ((out (.rascnt 3 0) { s0 with rascnt := [(3, 9)] }).map fun t => mget 0 t.rascnt 3) = some 0 ∧ ((out (.rascnt 3 1) { s0 with rascnt := [(3, 9)] }).map fun t => mget 0 t.rascnt 3) = some 9 := by decide +kernel
theorem test_owner_clears : ((out (.ownerByteWrite 0 0 0x82) (modCore (withS [(3, 7)]) 0 fun y => { y with launch := none })).map fun t => (getS (me t) 3, (getCore t 0).owner)) = some (0, some 2) := by decide +kernel
theorem test_owner_bytes : ((out (.ownerByteWrite 0 1 0xF2) s0).map fun t => ((getCore t 1).owner, byteAt (getCluster t 0).owners 1)) = some (some 2, 0x82) ∧ ((out (.ownerByteWrite 0 0 0x82) s0).map fun t => (getCore t 0).owner) = some (some 0) ∧
    ((out (.ownerByteWrite 0 0x40 0x81) sWaiters).map fun t => getEv t 0 0) = some EvLine.reset := by decide +kernel
theorem test_control_reads : ctlRead (withLink 27 ⟨2, false, 16, 64, 0, 3, [], [], [], [], []⟩) (dcb (0x1100 + 8 * 27)) 8 = 0x30000401002 ∧ ctlRead s0 (ccb 0 0xA0) 8 = 0xFEDCBA9876543210 ∧
    ctlRead (withCtx 15 fun y => { y with lqhead := 5, lqerr := true }) (dcb 0xBD8) 8 = 0x8000000000000005 := by decide +kernel

/-! ### Trace rings and debug modules (spec/21) -/

/-- A record of three words waits for its ring, which stands at `wr` with `rd` read. -/
def rec0 (lossless held : Bool) : TraceRec := ⟨[0x8000000000000000, 5, 6], 0, lossless, some 0, 0, 0, held, none⟩
def sRec (r : TraceRec) (g : Ring) : State := { s0 with recs := [r], rings := [(0, g)] }
theorem fits_of {s : State} {t n : Nat} (h : (ringOn (getRing s t) && decide ((getRing s t).drops = 0 ∧ (getRing s t).wr % ringCap (getRing s t) + n ≤ ringCap (getRing s t) ∧
    (getRing s t).wr + n - (getRing s t).rd ≤ ringCap (getRing s t) ∧ (getRing s t).base.toNat + 8 * ringCap (getRing s t) ≤ 0x8000000000)) = true) : Fits s t n := by
  simp only [Bool.and_eq_true, decide_eq_true_eq] at h
  exact ⟨h.1, h.2.1, h.2.2.1, h.2.2.2.1, fun j hj => near_home s (by omega)⟩
theorem witness_DebugAndTrace_records : (∀ b : Bool, Fits (sRec (rec0 b false) (ring0 509 0)) 0 3 ∧ Fits (sRec (rec0 b true) (ring0 509 0)) 0 3) ∧
    (∀ b c : Bool, (sRec (rec0 b c) (ring0 509 0)).recs[0]? = some (rec0 b c) ∧ recBlocked (sRec (rec0 b c) (ring0 509 0)) 0 (rec0 b c) = false ∧ (rec0 b c).since = none ∧ (rec0 b c).words.length = 3 ∧ ringOn (ring0 510 0) = true ∧
      (getRing (sRec (rec0 b c) (ring0 510 0)) 0).rd + ringCap (getRing (sRec (rec0 b c) (ring0 510 0)) 0) < (getRing (sRec (rec0 b c) (ring0 510 0)) 0).wr + 3) :=
  ⟨fun b => by cases b <;> exact ⟨fits_of (by decide +kernel), fits_of (by decide +kernel)⟩, by decide +kernel⟩
/-- A record behind a held one of its producer: one of the same ring, or one of another ring that is lossless or not. -/
def sBehind (ring : Nat) (lossless : Bool) : State := { sRec (rec0 true true) (ring0 510 0) with recs := [{ rec0 true true with since := some 3 }, { rec0 lossless false with ring := ring }] }
theorem witness_DebugAndTrace_blocked : (∀ b : Bool, (sBehind 0 b).recs[1]? = some { rec0 b false with ring := 0 } ∧ recBlocked (sBehind 0 b) 1 { rec0 b false with ring := 0 } = true ∧
      { rec0 true true with since := some 3 } ∈ (sBehind 0 b).recs.take 1 ∧ sameProducer { rec0 true true with since := some 3 } { rec0 b false with ring := 0 } = true) := by decide +kernel
/-- A record that waits behind a held one of its producer is held too, and the stall is noted with it (spec/21 R352). -/
theorem test_record_behind : ((out (.traceReservation 1) (sBehind 0 true)).map fun t => t.recs.map fun r => (r.held, r.since)) = some [(true, none), (true, some 3)] := by decide +kernel
/-- The strand has waited in RECV for 2^26 cycles, or one cycle less; its context traces. -/
def sWaited (n : Nat) (noted : Bool) : State := { modMe (sTrace 1) fun x => { x with wait := some ⟨recv0, .message, 0, 0, 0, 0, 0, none, noted, 0⟩ } with cycle := n }
theorem witness_DebugAndTrace_wait : (getStrand (sWaited 0x3FFFFFF false) 0).wait = some ⟨recv0, .message, 0, 0, 0, 0, 0, none, false, 0⟩ ∧ blockedOp ⟨recv0, .message, 0, 0, 0, 0, 0, none, false, 0⟩ ≠ 0 ∧ blockedOp ⟨rdrem0 11, .remote, 0, 0, 0, 0, 0, none, false, 0⟩ = 0 ∧ (getStrand (sWaited 0x4000000 false) 0).frozen = none ∧
    ringTakes (sWaited 0x4000000 false) 0 0x38 = true ∧ (getCore (sWaited 0x4000000 false) 0).desc.toNat / 2 ^ 196 % 4 = 1 := by decide +kernel
/-- The cluster is halted, its module selecting strand 0 and pointing into the pool, at a register or at a vector register. -/
def sHalt (addr : Word) : State := withDm fun d => { d with halted := true, cause := 1, addr := addr, ctl := 0x18 }
theorem witness_DebugAndTrace_modules : (getCluster (sHalt 0x8000) 0).dm.halted = true ∧ (getCluster sSync 0).dm.halted = false ∧ { s0 with xtrig := [3] }.xtrig ≠ [] ∧ dmWaits (sHalt 0x8000) 0 = false ∧
    (debugPlace (sHalt 0x8000) 0).2 = 0x8000 ∧ (debugPlace (sHalt 0x20) 0).2 = 0x20 ∧ (debugPlace (sHalt 0x400) 0).2 = 0x400 ∧ 0x400 % 0x1000 / 64 = 16 + (0 : VReg).toNat ∧ 0xBF8 / 64 < 48 ∧ 32 ≤ 0x800 / 64 ∧
    dmWaits (modMe (sHalt 0x640) fun x => { x with vtabQ := [req9] }) 0 = true ∧ (getCore (modCore (sHalt 0x800) 0 fun y => { y with vmode := 2 }) 0).vmode = 2 ∧
    (getCluster (withDm fun d => { d with icbusy := true }) 0).dm.icbusy = true ∧ (getCluster sDirty 0).dm.icbusy = false := by decide +kernel
/-- The bank of the selected core is in retention and asleep, or AUTO and awake. -/
def sHaltBank (st : BitVec 2) : State := modCore (sHalt 0x800) 0 fun y => { y with vmode := 1, vstate := st, vidle := 0 }
theorem witness_DebugAndTrace_bank : (dmWaits (sHaltBank 1) 0 = true ∧ bankAt (sHaltBank 1) 0 0x800 = true ∧ (getCore (sHaltBank 1) 0).vstate = 1 ∧ (getCore (sHaltBank 1) 0).vidle = 0) ∧
    dmWaits (sHaltBank 0) 0 = false ∧ bankAt (sHaltBank 0) 0 0x800 = true ∧ (getCore (sHaltBank 0) 0).vmode ≠ 2 ∧ debugPlace (sHaltBank 0) 0 = (0, 0x800) := by decide +kernel
/-- The halted cluster is in a step. -/
def sInStep : State := { withDm (fun d => { d with halted := true, stepping := some 0, cause := 5, ctl := 8 }) with xtrig := [3] }
/-- A buffered instruction at 0x10000, of 8 bytes. -/
def sBuffered : State := onMe fun x => { x with rbuf := [(0x10000, 0x701D15, 0)] }
theorem witness_DebugAndTrace_steps : ((getCluster sInStep 0).dm.halted = true ∧ (getCluster sInStep 0).dm.stepping ≠ none ∧ (getCluster sInStep 0).dm.ctl.getLsbD 3 = true ∧ sInStep.xtrig ≠ []) ∧
    bufMeets (getStrand sBuffered 0) 0 0x10007 1 = true ∧ bufMeets (getStrand sBuffered 0) 0 0x10008 1 = false ∧ bufMeets (getStrand sBuffered 0) 1 0x10007 1 = false := by decide +kernel
/-- A halt request or a cross-trigger in a step ends it (spec/21 R358). -/
theorem test_halt_in_step : ((out (.haltreq 0) sInStep).map fun t => ((getCluster t 0).dm.cause, (getCluster t 0).dm.stepping)) = some (1, none) ∧
    ((out .crossTrigger sInStep).map fun t => ((getCluster t 0).dm.cause, (getCluster t 0).dm.stepping)) = some (2, none) ∧
    ((out (.dmStep 0) sInStep).map fun t => (getCluster t 0).dm.stepping) = some (some 0) := by decide +kernel
theorem test_dmpc_aligned : ((out (.dmpc 0 0x8000000000030003) (sHalt 0)).map fun t => (me t).pc) = some 0x30000 := by decide +kernel
theorem witness_DebugAndTrace_homes : AllHomes sDirty := homes_of (by decide +kernel)

theorem test_record_written : ((out (.traceReservation 0) (sRec (rec0 false false) (ring0 509 0))).map fun t => ((getRing t 0).wr, readLE t.mem (0x40000 + 8 * 509) 24, t.recs.length)) = some (512, 0x000000000000000600000000000000058000000000000000, 0) ∧
    ((out (.traceReservation 0) (sRec (rec0 false false) (ring0 510 0))).map fun t => ((getRing t 0).wr, (getRing t 0).drops, t.recs.length)) = some (510, 1, 0) ∧
    ((out (.traceReservation 0) (sRec (rec0 true false) (ring0 510 0))).map fun t => ((getRing t 0).wr, t.recs.map TraceRec.held)) = some (510, [true]) := by decide +kernel
theorem test_record_retried : ((out (.losslessRetry 0) (sRec (rec0 true true) (ring0 509 0))).map fun t => ((getRing t 0).wr, t.recs.length)) = some (512, 0) := by decide +kernel
theorem test_longwait : ((out (.longwait 0) (sWaited 0x4000000 false)).map fun t => t.recs.map fun r => r.words.drop 2) = some [[0x10000, 0x9B]] ∧ ((out (.longwait 0) (sWaited 0x3FFFFFF false)).map fun t => t.recs.length) = some 0 := by
  decide +kernel
theorem test_halt : ((out (.haltreq 0) sSync).map fun t => ((getCluster t 0).dm.halted, (getCluster t 0).dm.cause)) = some (true, 1) ∧ ((out (.runreq 0) (sHalt 0)).map fun t => (getCluster t 0).dm.halted) = some false ∧
    ((out (.dmStep 0) (sHalt 0)).map fun t => (getCluster t 0).dm.stepping) = some (some 0) ∧
    ((out .crossTrigger { withDm (fun d => { d with ctl := 8 }) with xtrig := [3] }).map fun t => ((getCluster t 0).dm.cause, (getCluster t 1).dm.halted, t.xtrig)) = some (2, false, []) := by decide +kernel
theorem test_debug_registers : ((out (.dmpc 0 0x8000000000030000) (sHalt 0)).map fun t => (me t).pc) = some 0x30000 ∧ ((out (.dmdataStore 0 9) (sHalt 0x20)).map fun t => getS (me t) 4) = some 9 ∧
    ((out (.dmdataStore 0 9) (sHalt 0x8000)).map fun t => readLE (myCore t).pool 0x8000 8) = some 9 ∧ ((out (.dmdataLoad 0) (sHalt 0x8000)).map fun t => readLE (myCore t).pool 0x8000 8) = some 0 := by decide +kernel
theorem test_debug_bank : ((out (.dmdataLoad 0) (sHaltBank 1)).map fun t => (myCore t).vidle) = some 12 ∧ ((out (.dmdataStore 0 9) (sHaltBank 0)).map fun t => lane (getV (me t) 16) 64 0) = some 9 ∧
    ((out (.dmdataLoad 0) (modCore (sHalt 0x800) 0 fun y => { y with vmode := 2 })).map fun t => (me t).pc) = some 0x10000 := by decide +kernel
theorem test_code_invalidation : ((out (.dmicl 0 0x80) (modCore sSync 0 fun y => { y with icache := [(0x800, 0)] })).map fun t => ((getCluster t 0).dm.icbusy, (myCore t).icache.length)) = some (true, 1) ∧
    ((out (.icbusyClear 0) (withDm fun d => { d with icbusy := true })).map fun t => (getCluster t 0).dm.icbusy) = some false := by decide +kernel

/-! ### Launches (spec/20) -/

theorem clean_of {s : State} (h : ((s.cores.all fun e => e.2.dcache.isEmpty) && s.clusters.all fun e => e.2.l2.isEmpty) = true) : AllClean s := by
  simp only [Bool.and_eq_true] at h
  intro q a
  have h1 : ∀ q, (getCore s q).dcache = [] := fun q => List.isEmpty_iff.1 (mget_all (P := fun y : Core => y.dcache.isEmpty) (d := Core.reset) rfl h.1 q)
  have h2 : ∀ q, (getCluster s q).l2 = [] := fun q => List.isEmpty_iff.1 (mget_all (P := fun y : Cluster => y.l2.isEmpty) (d := Cluster.reset) rfl h.2 q)
  simp [coreLine, l2Line, h1, h2, mhas, dirtyByte]
/-- A launch record: ROOT, CORES, PART, CLUS, PLEN and PORG; entry 0x30000, LID 0xAB, GEOM 0x440, PVA 0x21000. -/
def rec1 (root cores part clus plen porg : Nat) : Nat :=
  0x30000 + root <<< 64 + cores <<< 128 + part <<< 192 + clus <<< 256 + 0x440 <<< 288 + 0xAB <<< 320 + 0x21000 <<< 384 + plen <<< 448 + porg <<< 480
def recGood : Nat := rec1 0x20400 2 0x3F000001 1 8 1
/-- A record waits in the queue of the context 0 of a device that serves its launch queues; the core 1 is the context's. -/
def sLaunch (r : Nat) (f : Ctx → Ctx) : State := modCore { withMem (withCtx 0 fun c => f { c with desc := placeDesc, lqbase := 0x50000, cqbase := 0x60000, lqcnt := 2, lqtail := 1 })
    [(0x50000, 64, r), (0x50040, 8, 0x1234), (0x21000, 8, 0x1122334455667788), (0x20400, 64, fresh0)] with mgmt := { s0.mgmt with state := 4 } } 1 fun y => { y with owner := some 0 }
def sTaken : State := modCore (sLaunch recGood id) 1 fun y => { y with launch := some 5 }

theorem witness_Launches_waits : s0.mgmt.state ≠ 4 ∧ (getCtx (sLaunch 0 fun c => { c with saved := true }) 0).saved = true ∧
    ((getCtx (sLaunch 0 fun c => { c with stat := 1, cmd := 1 }) 0).stat = 1 ∧ (getCtx (sLaunch 0 fun c => { c with stat := 1, cmd := 1 }) 0).cmd = 1) ∧
    (getCtx (sLaunch 0 fun c => { c with lqtail := 0 }) 0).lqhead = (getCtx (sLaunch 0 fun c => { c with lqtail := 0 }) 0).lqtail := by decide +kernel
/-- The record is refused with the completion queue full, and with room; a valid one waits for its cores. -/
theorem witness_Launches_refused : (let s := sLaunch 1 fun c => { c with cqtail := 4 };
      servesQueue s 0 = true ∧ refuseReason s 0 (readLE s.mem 0x50000 64) ≠ 0 ∧ 2 ^ (getCtx s 0).lqcnt ≤ ((getCtx s 0).cqtail + 2 ^ 32 - (getCtx s 0).cqhead) % 2 ^ 32) ∧
    (let s := sLaunch 1 id;
      servesQueue s 0 = true ∧ refuseReason s 0 (readLE s.mem 0x50000 64) ≠ 0 ∧ ((getCtx s 0).cqtail + 2 ^ 32 - (getCtx s 0).cqhead) % 2 ^ 32 < 2 ^ (getCtx s 0).lqcnt) ∧
    servesQueue sTaken 0 = true ∧ refuseReason sTaken 0 (readLE sTaken.mem 0x50000 64) = 0 ∧ canStart sTaken (readLE sTaken.mem 0x50000 64) = false := by decide +kernel
theorem witness_Launches_entry : noHome (sLaunch 1 id) 0x60000 = false := near_home _ (by decide)
theorem witness_Launches_starts : (let s := sLaunch recGood id;
      readLE s.mem 0x50000 64 = recGood ∧ servesQueue s 0 = true ∧ refuseReason s 0 recGood = 0 ∧ canStart s recGood = true ∧ fieldAt recGood 64 57 ≠ 0 ∧ s.poison = [] ∧
      Memory.wf s.mem = true ∧ (getCore s (64 * recFirst recGood)).tlb = [] ∧ (getCluster s (recFirst recGood)).tlb = [] ∧ 7 < fieldAt recGood 448 32 ∧ fieldAt recGood 480 6 * 0x4000 + fieldAt recGood 448 32 ≤ 0x4008 ∧
      fieldAt recGood 256 16 ≠ 0 ∧ (translate s (64 * recFirst recGood) 0 placeDesc (fieldAt recGood 384 57 + 7) .read).map Prod.fst = some 0x21007) := by
  decide +kernel
theorem witness_Launches_cores : (NamedCore recGood (4 / 4) ∧ 4 % 4 ≤ fieldAt recGood 304 2) ∧ fieldAt recGood 304 2 < 5 % 4 ∧ ¬ NamedCore recGood (0 / 4) := by
  unfold NamedCore; decide +kernel
theorem witness_Launches_clean : AllClean (sLaunch recGood id) ∧ AllHomes (sLaunch recGood id) := ⟨clean_of (by decide +kernel), homes_of (by decide +kernel)⟩

/-- Records that fail one check each, and records that differ in what the last two checks see. -/
def formedB (r : Nat) : Bool := (List.range 512).all fun j => !reservedInRecord j || !r.testBit j
def partedB (r : Nat) : Bool :=
  let p := fieldAt r 192 64
  decide (fieldAt p 0 7 = 1 ∧ fieldAt p 0 7 + fieldAt p 8 7 + fieldAt p 16 7 + fieldAt p 24 7 = 64 ∧ p.testBit 7 = false ∧ p.testBit 15 = false ∧
    p.testBit 23 = false ∧ p.testBit 31 = false ∧ fieldAt p 34 30 = 0 ∧ fieldAt r 304 2 = fieldAt r 224 2)
def placedB (s : State) (x r : Nat) : Bool := decide (fieldAt r 256 16 ≠ 0 ∧ fieldAt r 128 64 ≠ 0) && (List.range 1024).all fun q =>
  !(r.testBit (256 + q / 64) && r.testBit (128 + q % 64)) || ((getCore s q).owner == some x && !(getCluster s (q / 64)).unav.getLsbD (q % 64))
theorem formed_of {r : Nat} (h : formedB r = true) : ∀ j, j < 512 → reservedInRecord j = true → r.testBit j = false := by
  intro j hj hr
  have := List.all_eq_true.1 h j (List.mem_range.2 hj)
  simpa [hr] using this
theorem parted_of {r : Nat} (h : partedB r = true) : PartAdmitted (fieldAt r 192 64) ∧ fieldAt r 304 2 = fieldAt r 224 2 := by
  have := of_decide_eq_true h
  exact ⟨⟨this.1, this.2.1, this.2.2.1, this.2.2.2.1, this.2.2.2.2.1, this.2.2.2.2.2.1, this.2.2.2.2.2.2.1⟩, this.2.2.2.2.2.2.2⟩
theorem placed_of {s : State} {x r : Nat} (h : placedB s x r = true) : fieldAt r 256 16 ≠ 0 ∧ fieldAt r 128 64 ≠ 0 ∧
    ∀ q, NamedCore r q → (getCore s q).owner = some x ∧ (getCluster s (q / 64)).unav.getLsbD (q % 64) = false := by
  simp only [placedB, Bool.and_eq_true, decide_eq_true_eq] at h
  refine ⟨h.1.1, h.1.2, fun q hq => ?_⟩
  have := List.all_eq_true.1 h.2 q (List.mem_range.2 hq.1)
  simpa [hq.2.1, hq.2.2] using this
/-- Records of a valid context: a reserved bit, a PART word that does not fill the pool, no core, a pool image that ends above the pool, none at all, and one with a task or a misaligned one. -/
theorem witness_Launches_reasons : (getCtx s0 0).desc.getLsbD 0 = false ∧ (getCtx (sLaunch 0 id) 0).desc.getLsbD 0 = true ∧ formedB (rec1 0 2 0x3F000001 1 0 1 + 1) = false ∧
    [rec1 0 2 0x3E000001 1 0 1, rec1 0 0 0x3F000001 1 0 1, rec1 0 2 0x3F000001 1 0x100000 1, rec1 0 2 0x3F000001 1 1 0, rec1 0 2 0x3F000001 1 0 1, rec1 0x20401 2 0x3F000001 1 0 1].all formedB = true ∧
    partedB (rec1 0 2 0x3E000001 1 0 1) = false ∧
    [rec1 0 0 0x3F000001 1 0 1, rec1 0 2 0x3F000001 1 0x100000 1, rec1 0 2 0x3F000001 1 1 0, rec1 0 2 0x3F000001 1 0 1, rec1 0x20401 2 0x3F000001 1 0 1].all partedB = true ∧
    fieldAt (rec1 0 0 0x3F000001 1 0 1) 128 64 = 0 ∧
    [rec1 0 2 0x3F000001 1 0x100000 1, rec1 0 2 0x3F000001 1 1 0, rec1 0 2 0x3F000001 1 0 1, rec1 0x20401 2 0x3F000001 1 0 1].all (placedB (sLaunch 0 id) 0) = true ∧
    (fieldAt (rec1 0 2 0x3F000001 1 1 0) 448 32 ≠ 0 ∧ fieldAt (rec1 0 2 0x3F000001 1 1 0) 480 6 < 1 + fieldAt (rec1 0 2 0x3F000001 1 1 0) 200 7) ∧
    0x100000 < fieldAt (rec1 0 2 0x3F000001 1 0x100000 1) 480 6 * 0x4000 + fieldAt (rec1 0 2 0x3F000001 1 0x100000 1) 448 32 ∧
    fieldAt (rec1 0 2 0x3F000001 1 0 1) 64 57 = 0 ∧ fieldAt (rec1 0x20401 2 0x3F000001 1 0 1) 64 57 % 64 ≠ 0 := by decide +kernel
theorem witness_Launches_valid : (∀ j, j < 512 → reservedInRecord j = true → recGood.testBit j = false) ∧ (PartAdmitted (fieldAt recGood 192 64) ∧ fieldAt recGood 304 2 = fieldAt recGood 224 2) ∧
    (fieldAt recGood 256 16 ≠ 0 ∧ fieldAt recGood 128 64 ≠ 0 ∧ ∀ q, NamedCore recGood q → (getCore (sLaunch recGood id) q).owner = some 0 ∧ (getCluster (sLaunch recGood id) (q / 64)).unav.getLsbD (q % 64) = false) :=
  ⟨formed_of (by decide +kernel), parted_of (by decide +kernel), placed_of (by decide +kernel)⟩

/-- A launch of the core 1 whose strand has stopped, or runs. -/
def launch0 : Launch := ⟨0, 0, 0xAB, 1, 2, 0x3F000001, placeDesc, 0, false⟩
def sOver (r : RunState) : State := modStrand (modCore { sLaunch 0 id with launches := [launch0] } 1 fun y => { y with launch := some 0 }) 4 fun x => { x with run := r }
theorem witness_Launches_complete : (∀ r : RunState, (sOver r).launches[0]? = some launch0) ∧ launchOver (sOver .running) launch0 = false ∧ launchOver (sOver .stopped) launch0 = true ∧
    ((getCtx (sOver .stopped) 0).cqtail + 2 ^ 32 - (getCtx (sOver .stopped) 0).cqhead) % 2 ^ 32 < 2 ^ (getCtx (sOver .stopped) 0).lqcnt ∧ launchDefers (sOver .stopped) 0 = false ∧
    launch0.clus.testBit (1 / 64) = true ∧ launch0.cores.testBit (1 % 64) = true := by
  refine ⟨fun r => by cases r <;> decide +kernel, ?_⟩; decide +kernel
theorem witness_Launches_complete_homes : AllHomes (sOver .stopped) ∧ noHome (sOver .stopped) 0x60000 = false := ⟨homes_of (by decide +kernel), near_home _ (by decide)⟩

theorem test_launch_starts : ((out (.launchStart 0) (sLaunch recGood id)).map fun t => ((getStrand t 4).run == .running, (getStrand t 4).pc.toNat, (getStrand t 4).status.toNat, (mget 0 (getStrand t 4).mb 0).toNat, (getStrand t 4).geom.toNat % 2 ^ 14,
      readLE (getCore t 1).pool 0x4000 8)) = some (true, 0x30000, 5, 0x1234, 0x440, 0x1122334455667788) ∧
    ((out (.launchStart 0) (sLaunch recGood id)).map fun t => ((getCtx t 0).lqhead, (getCluster t 0).tasks.map fun e => e.tcb, t.launches.map fun l => l.lid)) = some (1, [0x20400], [0xAB]) := by decide +kernel
theorem test_launch_refused : ((out (.launchStart 0) (sLaunch 1 id)).map fun t => (readLE t.mem 0x60000 8, (getCtx t 0).lqhead, (getCtx t 0).cqtail, t.msix)) = some (2 <<< 40 + 1 <<< 32, 1, 1, [0]) := by decide +kernel
theorem test_launch_complete : ((out (.launchComplete 0) (sOver .stopped)).map fun t => (readLE t.mem 0x60000 8, (getCore t 1).launch, t.launches.length)) = some (0xAB, none, 0) ∧
    ((out (.launchComplete 0) (sOver .running)).map fun t => t.launches.length) = some 1 := by decide +kernel

/-! ### Pre-emption (spec/20) -/

/-- A command of PCMD is in progress for the context 0, with an image at `pimg`. -/
def sCmd (n : Nat) (pimg : Word) (saved : Bool) (s : State) : State := modCtx s 0 fun c => { c with desc := placeDesc, stat := 1, cmd := n, pimg := pimg, saved := saved, lqcnt := 2, cqbase := 0x60000 }
/-- Its strand has stopped for the image. -/
def sStill : State := onMe fun x => { x with run := .saved, s := [(4, 9)] }

theorem witness_Preemption_busy : ¬ ((getCtx s0 0).stat = 1 ∧ (getCtx s0 0).cmd = 1) ∧ ¬ ((getCtx s0 0).stat = 1 ∧ (getCtx s0 0).cmd = 2) ∧ ¬ ((getCtx s0 0).stat = 1 ∧ (getCtx s0 0).cmd = 3) ∧
    (∀ n ∈ [1, 2, 3], (getCtx (sCmd n 0 false s0) 0).stat = 1 ∧ (getCtx (sCmd n 0 false s0) 0).cmd = n ∧ launchDefers (sCmd n 0 false s0) 0 = false) ∧
    launchDefers (sCmd 1 0 false { s0 with recs := List.replicate 16 ⟨[], 0, true, none, srcUnit 0, 0, true, none⟩ }) 0 = true := by decide +kernel
theorem witness_Preemption_quiesce : (let s := sCmd 1 0x100000 false s0; 4 ∉ ctxStrands s 0 ∧ 0 ∈ ctxStrands s 0 ∧ (getStrand s 0).run = .running ∧ insideIrqPoint (getStrand s 0) = true ∧ (getStrand s 0).vtabQ = [] ∧ s.recs = []) ∧
    (let s := sCmd 1 0x100000 false (onMe fun x => { x with vtabQ := [req9] }); 0 ∈ ctxStrands s 0 ∧ (getStrand s 0).run = .running ∧ (getStrand s 0).vtabQ ≠ []) ∧
    (let s := sCmd 1 0x100000 false (sRec { rec0 true true with strand := some 0 } (ring0 0 0)); 0 ∈ ctxStrands s 0 ∧ (getStrand s 0).run = .running ∧ (s.recs.any fun r => r.strand == some 0) = true) ∧
    (let s := sCmd 1 0x100000 false (waitIn sSync (.acq c64 1) (.mutex 0 0) 0x1000000000000000 0 (some 0)); 0 ∈ ctxStrands s 0 ∧ (getStrand s 0).run = .running ∧ insideIrqPoint (getStrand s 0) = false) := by
  decide +kernel
/-- What the probe adds up over the cores of a context. -/
def sumOf (s : State) (x : Nat) : Int := ((ctxCores s x).map fun c => ((getCore s c).outc : Int) - (getCore s c).inc).sum
def stillB (s : State) : Bool := (ctxStrands s 0).contains 0 && (ctxStrands s 0).all fun k => (getStrand s k).run == .saved
theorem still_of {s : State} (h : stillB s = true) : ∀ k ∈ ctxStrands s 0, (getStrand s k).run = .saved := by
  simp only [stillB, Bool.and_eq_true] at h
  exact fun k hk => by simpa using List.all_eq_true.1 h.2 k hk
def blackOf (s : State) : Bool := (ctxCores s 0).any fun c => (getCore s c).recvFlag
theorem witness_Preemption_moving : (let s := sCmd 1 0x100000 false (modMe sStill fun x => { x with inflight := [⟨1, [], false, false, false, none⟩] }); stillB s && !atRest s 0) = true := by decide +kernel
theorem witness_Preemption_sum : (let s := sCmd 1 0x100000 false (modCore sStill 0 fun y => { y with outc := 1 }); stillB s && atRest s 0) = true ∧
    sumOf (sCmd 1 0x100000 false (modCore sStill 0 fun y => { y with outc := 1 })) 0 ≠ 0 := by decide +kernel
theorem witness_Preemption_black : (let s := sCmd 1 0x100000 false (modCore sStill 0 fun y => { y with recvFlag := true }); stillB s && atRest s 0 && blackOf s) = true := by decide +kernel
theorem witness_Preemption_white : (let s := sCmd 1 0x100000 false sStill; stillB s && atRest s 0 && !blackOf s) = true ∧ sumOf (sCmd 1 0x100000 false sStill) 0 = 0 := by decide +kernel
theorem witness_Preemption_probe_homes : AllHomes (sCmd 1 0x100000 false sStill) ∧ AllHomes (sCmd 1 0x9000000000 false sStill) := ⟨homes_of (by decide +kernel), homes_of (by decide +kernel)⟩

theorem length_upFrom (n : Nat) : ∀ a, (upFrom a n).length = n := by induction n <;> simp_all [upFrom]
theorem length_bytesOf (n : Nat) : ∀ v, (bytesOf n v).length = n := by induction n <;> simp_all [bytesOf]
theorem length_bytesToWords (n : Nat) : ∀ l, (bytesToWords n l).length = n := by induction n <;> simp_all [bytesToWords]
theorem length_wordsToBytes (l : List Nat) : (wordsToBytes l).length = 8 * l.length := by
  induction l with
  | nil => rfl
  | cons a l ih => simp only [wordsToBytes, List.flatMap_cons, List.length_append, length_bytesOf, List.length_cons] at ih ⊢; omega
theorem length_sections (l : List Section) : (l.flatMap sectionWords).length = (l.map fun q => 2 + q.body.length).sum := by
  induction l with
  | nil => rfl
  | cons a l ih => simp only [List.flatMap_cons, List.length_append, ih, List.map_cons, List.sum_cons, sectionWords, List.length_cons, List.length_nil]
/-- The state whose image SAVE writes. -/
def sImage : State :=
  let s := sCmd 1 0x100000 false sStill
  dropCtxLines (probe s 0 (ctxCores s 0)).2 0 (ctxClusters (probe s 0 (ctxCores s 0)).2 0) (coresIn (probe s 0 (ctxCores s 0)).2 (ctxClusters (probe s 0 (ctxCores s 0)).2 0))
theorem pool_length (s : State) (c : Nat) : (poolWords s c).length = 131072 := by
  simp only [poolWords, List.length_append, List.length_map, length_upFrom, length_bytesToWords]
theorem image_parts : ctxCores sImage 0 = [0] ∧ ctxStrands sImage 0 = [0] ∧ ctxClusters sImage 0 = [0] ∧ (clusterWords sImage 0 0).length = 5 ∧ (coreWords sImage 0 (lidOf sImage (getCore sImage 0).launch)).length = 13 ∧
    (strandWords sImage 0).length = 37 := by decide +kernel
theorem image_length : (imageBytes sImage 0).length = 64 + 8 * 135782 := by
  obtain ⟨hc, hk, hl, h1, h2, h3⟩ := image_parts
  have hb : (getCtx sImage 0).binds = [] := by decide +kernel
  have h4 : (latchWords (if (getCore sImage 0).latest then (getCore sImage 0).latch0 else (getCore sImage 0).latch1)).length = 6 := by decide +kernel
  have h5 : (latchWords (if (getCore sImage 0).latest then (getCore sImage 0).latch1 else (getCore sImage 0).latch0)).length = 6 := by decide +kernel
  have h6 : ((upFrom 0 4).flatMap fun t => tableWords (mget [] (getCore sImage 0).tables t)).length = 1552 := by decide +kernel
  have h7 : (getStrand sImage 0).kills = [] ∧ (getCtx sImage 0).heldKills = [] := by decide +kernel
  simp only [imageBytes, List.length_append, length_bytesOf, length_wordsToBytes, length_sections]
  simp only [sectionsOf, h7.1, h7.2, hc, hk, hl, hb, List.map_append, List.sum_append, List.map_cons, List.map_nil, List.flatMap_cons, List.flatMap_nil, List.append_nil, List.sum_cons, List.sum_nil, h1, h2, h3, h4, h5, h6,
    pool_length, List.length_cons, List.length_append, List.length_replicate, List.length_nil]
  omega
theorem witness_Preemption_backed : rangeBacked (getCtx (sCmd 1 0x100000 false sStill) 0).pimg.toNat (imageBytes sImage 0).length = true ∧
    ∀ n, rangeBacked (getCtx (sCmd 1 0x9000000000 false sStill) 0).pimg.toNat n = false := by
  rw [image_length]
  refine ⟨by decide +kernel, fun n => ?_⟩
  rw [show (getCtx (sCmd 1 0x9000000000 false sStill) 0).pimg.toNat = 0x9000000000 from by decide +kernel]
  simp [rangeBacked, backed]
theorem witness_Preemption_unanswered : (let s := sCmd 1 0x100000000000 false sStill; stillB s && atRest s 0 && !blackOf s && noHome s (getCtx s 0).pimg.toNat) = true ∧
    sumOf (sCmd 1 0x100000000000 false sStill) 0 = 0 ∧ (rangeBacked (getCtx (sCmd 1 0x100000000000 false sStill) 0).pimg.toNat (imageBytes sImage 0).length = true) := by
  rw [image_length]
  decide +kernel

/-- An image of the context 0 with a CORE, a STRAND and a POOL section of the core 1, which is the context's or not. -/
def words1 : List Section := [⟨4, 0, 1, 0, [0x3F000001, 0x440, 0, 0, 0, 0, 0, 0, 0, 0, 0, 0, 0xAB]⟩,
  ⟨5, 0, 1, 0, [0x30000, 5] ++ List.replicate 35 0⟩, ⟨6, 0, 1, 0, [0, 0, 0, 9]⟩]
def sRestoreOf (l : List Section) (pimg : Word) (magic : Nat) (owner : Option Nat) (poison : List Nat) : State :=
  let s := withMem (sCmd 2 pimg true s0) [(0x100000, 64, imageHeader 0 0 (64 + 8 * (l.flatMap sectionWords).length) 77 - 0x47435649 + magic)]
  { modCore { s with mem := writeBytes s.mem 0x100040 (wordsToBytes (l.flatMap sectionWords)) } 1 fun y => { y with owner := owner } with poison := poison }
def sRestore (pimg : Word) (magic : Nat) (owner : Option Nat) (poison : List Nat) : State := sRestoreOf words1 pimg magic owner poison
theorem witness_Preemption_image : (match readImage (sRestore 0x100000 0x47435649 (some 0) []) 0 0x100000 with | .ok r => r == (77, words1) | .error _ => false) = true ∧
    (∀ q ∈ words1, 4 ≤ q.ty → (getCore (sRestore 0x100000 0x47435649 (some 0) []) (secCore q)).owner = some 0 ∧ (getCore (sRestore 0x100000 0x47435649 (some 0) []) (secCore q)).launch = none) ∧
    (∀ q ∈ ofType words1 5, ((ofType words1 5).filter fun p => secStrand p == secStrand q).length = 1 ∧ (readBody (getStrandBody 77) q).isSome = true) ∧ (ofType words1 5).length = 1 ∧
    (∀ q ∈ ofType words1 6, ((ofType words1 6).filter fun p => secCore p == secCore q).length = 1) ∧ (ofType words1 6).length = 1 := by decide +kernel
theorem witness_Preemption_live : ((out (.restore 0) (sRestoreOf (words1.take 2) 0x100000 0x47435649 (some 0) [])).map fun t => liveCount (getCore t 1)) = some 1 := by decide +kernel
/-- A kill that reached a saved context is pending on its strand again, with the handler that it came with. -/
def sHeldKill : State := modCtx (sRestoreOf (words1.take 2) 0x100000 0x47435649 (some 0) []) 0 fun c => { c with heldKills := [(4, ⟨0x20000, 3, some 0x30000, 9⟩)] }
theorem witness_Preemption_kills : ((getCtx sHeldKill 0).heldKills.find? fun e => e.1 == 4 && e.2.record == 0x20000 && e.2.pid == 3) = some (4, ⟨0x20000, 3, some 0x30000, 9⟩) ∧
    ((words1.drop 1).take 1 |>.all fun q => secStrand q == 4 && (readBody (getStrandBody 77) q).any fun z => z.kills.isEmpty) = true := by decide +kernel
theorem test_restored_kill : ((out (.restore 0) sHeldKill).map fun t => (getStrand t 4).kills) = some [⟨0x20000, 3, some 0x30000, 9⟩] := by decide +kernel
/-- A CORE body with every bit set in PART, the slot word and the window descriptors reads back without those that are reserved. -/
theorem witness_Preemption_core : ∃ c r, getCoreBody (List.replicate 13 (2 ^ 64 - 1 - 3 * 2 ^ 32)) = some (c, r) ∧ c.part.getLsbD 0 = true := by
  obtain ⟨p, h, hq⟩ := some_with (a := getCoreBody (List.replicate 13 (2 ^ 64 - 1 - 3 * 2 ^ 32))) (Q := fun p => p.1.part.getLsbD 0) (by decide +kernel)
  exact ⟨p.1, p.2, h, hq⟩
theorem witness_Preemption_unfit : (match readImage (sRestore 0x100000 0x47435649 none []) 0 0x100000 with | .ok r => r == (77, words1) | .error _ => false) = true ∧
    ∃ q ∈ words1, 4 ≤ q.ty ∧ (getCore (sRestore 0x100000 0x47435649 none []) (secCore q)).owner ≠ some 0 := by decide +kernel
def errorOf (s : State) (base : Nat) : Option Nat := match readImage s 0 base with | .ok _ => none | .error e => some e
theorem witness_Preemption_errors : errorOf (sRestore 0x100000 0x47435648 none []) 0x100000 = some 3 ∧ errorOf (sRestore 0x9000000000 0x47435649 none []) 0x9000000000 = some 1 ∧
    errorOf (sRestore 0x100000 0x47435649 none [0x100008]) 0x100000 = some 2 ∧ rangeBacked 0x9000000000 64 = false ∧ rangeBacked 0x100000 64 = true ∧ rangePoisoned (sRestore 0x100000 0x47435649 none [0x100008]) 0x100000 64 = true ∧
    rangePoisoned (sRestore 0x100000 0x47435648 none []) 0x100000 64 = false ∧ fieldAt (readLE (sRestore 0x100000 0x47435648 none []).mem 0x100000 64) 0 32 ≠ 0x47435649 := by decide +kernel

/-- A saved context with an interrupted launch, with a full completion queue or an empty one, and with none. -/
def sDiscard (tail : Nat) (l : List Launch) : State := modCtx { sCmd 3 0 true sStill with launches := l } 0 fun c => { c with cqtail := tail }
theorem witness_Preemption_discard : (getCtx (sCmd 3 0 false s0) 0).saved = false ∧ (∀ n ∈ [0, 4], (getCtx (sDiscard n [launch0]) 0).saved = true ∧ (sDiscard n [launch0]).launches.find? (fun l => l.ctx == 0) = some launch0) ∧
    2 ^ (getCtx (sDiscard 4 [launch0]) 0).lqcnt ≤ ((getCtx (sDiscard 4 [launch0]) 0).cqtail + 2 ^ 32 - (getCtx (sDiscard 4 [launch0]) 0).cqhead) % 2 ^ 32 ∧
    ¬ 2 ^ (getCtx (sDiscard 0 [launch0]) 0).lqcnt ≤ ((getCtx (sDiscard 0 [launch0]) 0).cqtail + 2 ^ 32 - (getCtx (sDiscard 0 [launch0]) 0).cqhead) % 2 ^ 32 ∧
    (getCtx (sDiscard 0 []) 0).saved = true ∧ (sDiscard 0 []).launches = [] := by decide +kernel
theorem witness_Preemption_discard_entry : noHome (sDiscard 0 [launch0]) 0x60000 = false := near_home _ (by decide)
theorem witness_Preemption_sections : ∀ q ∈ words1, q.ty < 2 ^ 16 ∧ q.cl < 16 ∧ q.core < 64 ∧ q.strand < 4 := by decide +kernel
theorem witness_Preemption_header : sImage.devNo < 64 ∧ (imageBytes sImage 0).length < 2 ^ 64 := ⟨by decide +kernel, by rw [image_length]; decide⟩

theorem test_save : ((out (.save 0) (sCmd 1 0x9000000000 false s0)).map fun t => ((me t).run == .saved, (getCtx t 0).stat, (getCtx t 0).reason)) = some (true, 3, 1) := by decide +kernel
theorem test_image_far : errorOf (sRestore 0x100000000000 0x47435649 (some 0) []) 0x100000000000 = some 2 := by decide +kernel
theorem test_restore : ((out (.restore 0) (sRestoreOf (words1.take 2) 0x100000 0x47435649 (some 0) [])).map fun t => ((getStrand t 4).run == .running, (getStrand t 4).pc, (getStrand t 4).floor, (t.launches.map fun l => (l.lid, some l.num == (getCore t 1).launch)) == [(0xAB, true)], (getCtx t 0).stat)) =
      some (true, 0x30000, 77, true, 2) ∧
    ((out (.restore 0) (sRestore 0x100000 0x47435649 none [])).map fun t => ((getCtx t 0).stat, (getCtx t 0).reason)) = some (3, 3) := by decide +kernel
theorem test_discard : ((out (.discard 0) (sDiscard 0 [launch0])).map fun t => (readLE t.mem 0x60000 8, t.launches.length)) = some (0x2000000AB, 0) ∧
    ((out (.discard 0) (sDiscard 0 [])).map fun t => ((me t).run == .absent, (getCtx t 0).stat)) = some (true, 2) := by decide +kernel

/-! ### Links and the clock (spec/22) -/

def up0 : LinkUnit := ⟨2, false, 8, 64, 0, 0, [(2, 5)], [(2, 7)], [], [], []⟩
/-- The management controller has reached a state. -/
def managed (n : Nat) (s : State) : State := { s with mgmt := { s.mgmt with state := n } }
/-- A training of a link: partner, mismatch, timeout, width and whether that is all of it. -/
def train (partner mismatch timeout : Bool) (width : BitVec 8) (full : Bool) : TrainInput := ⟨partner, mismatch, timeout, width, 64, full⟩
def isUp (n : Nat) (x : TrainInput) : Prop := x.partner = true ∧ ¬ (cascadeUnit n ∧ x.mismatch = true) ∧ x.timeout = false ∧ (if 16 ≤ n ∧ n < 28 then 4 else 1) ≤ x.width.toNat
/-- A reset link and a disabled one, one of the network and one of the cascade; the ends of training at the least and the full width. -/
theorem witness_LinksAndClock_training : (¬ linkUnitNo 7 ∧ (getLink (withLink 27 { up0 with dis := true, state := 0 }) 27).dis = true ∧ 2 ≤ (getLink (withLink 27 up0) 27).state ∧ 27 ≠ 40 ∧ s0.mgmt.state ≠ 3 ∧ s0.mgmt.state ≠ 4) ∧ (managed 3 s0).mgmt.state = 3 ∧ (managed 4 s0).mgmt.state = 4 ∧
    (∀ n ∈ [8, 16, 27, 32, 42], linkUnitNo n ∧ (getLink (managed 4 s0) n).dis = false ∧ (getLink (managed 4 s0) n).state < 2) ∧
    (isUp 27 (train true false false 4 false) ∧ isUp 8 (train true true false 32 true) ∧ isUp 42 (train true false false 1 false)) ∧ cascadeUnit 27 ∧ ¬ cascadeUnit 8 ∧
    (train false false false 8 true).partner = false ∧ ((train true true false 8 true).partner = true ∧ (train true true false 8 true).mismatch = true) ∧
    (¬ (cascadeUnit 27 ∧ (train true false true 8 true).mismatch = true) ∧ (train true false true 8 true).timeout = true) ∧
    ((train true false false 3 false).timeout = false ∧ (train true false false 3 false).width.toNat < 4) := by
  unfold linkUnitNo isUp cascadeUnit; decide +kernel
theorem witness_LinksAndClock_lanes : (getLink s0 27).state < 2 ∧ 3 < (getLink (withLink 27 { up0 with state := 4 }) 27).state ∧ (getLink (withLink 27 up0) 27).width ≤ (8 : BitVec 8).toNat ∧ linkUnitNo 27 ∧
    (getLink (withLink 27 up0) 27).state = 2 ∧ (∀ n ∈ [(0 : BitVec 8), 3, 4, 7], n.toNat < (getLink (withLink 27 up0) 27).width) ∧ (0 : BitVec 8).toNat < 4 ∧ (3 : BitVec 8).toNat < 4 ∧ 4 ≤ (4 : BitVec 8).toNat ∧
    (getLink (withLink 27 { up0 with state := 4 }) 27).state = 4 := by
  unfold linkUnitNo; decide +kernel
/-- Steps of a failed link that answer. -/
theorem witness_LinksAndClock_failed : (out (.linkTraining 27 (train true false false 8 true)) (managed 4 (withLink 27 { up0 with state := 4 }))).isSome = true ∧ (out (.laneLoss 27 0) (withLink 27 { up0 with state := 4 })).isSome = true ∧
    (out (.flitRetry ⟨27, 2⟩) (withLink 27 { up0 with state := 4 })).isSome = true := by decide +kernel

/-- Every port of the cascade is up, or one alone; it keeps two flits of VC 2 and one of VC 1. -/
def flit0 (seq : Nat) : Flit := ⟨BitVec.ofNat 64 (2 + seq * 2 ^ 8), []⟩
def flit1 : Flit := ⟨BitVec.ofNat 64 (1 + 3 * 2 ^ 8), []⟩
def port0 : LinkUnit := { up0 with unacked := [flit1, flit0 3, flit0 4], tries := [(2, 2)] }
def sPorts (ps : List Nat) : State := { s0 with links := ps.map fun p => (16 + p, port0) }
def head0 (seq ack dev : Nat) : Word := BitVec.ofNat 64 (2 + seq * 2 ^ 8 + ack * 2 ^ 16 + dev * 2 ^ 24)
def takenB (s : State) (p : Nat) (h : Word) (ok room : Bool) : Bool := decide (p < 12 ∧ ((getLink s (16 + p)).state = 2 ∨ (getLink s (16 + p)).state = 3) ∧ ok = true ∧ room = true ∧
  h.toNat / 2 ^ 8 % 2 ^ 8 = mget 0 (getLink s (16 + p)).rxSeq (h.toNat % 4)) && s.fabricQ.isEmpty
theorem witness_LinksAndClock_flits : takenB (sPorts [0]) 0 (head0 7 3 0) true true = true ∧ (head0 7 3 0).toNat / 2 ^ 24 % 2 ^ 6 = (sPorts [0]).devNo ∧ (head0 7 3 0).toNat / 2 ^ 16 % 2 ^ 8 = (flit0 3).header.toNat / 2 ^ 8 % 2 ^ 8 ∧
    ((getLink (sPorts [0]) 16).unacked.filter fun f => f.header.toNat % 4 == 2) = [] ++ flit0 3 :: [flit0 4] ∧
    (∀ g ∈ (getLink (sPorts [0]) 16).unacked, g.header.toNat / 2 ^ 8 % 2 ^ 8 ≠ (head0 7 9 0).toNat / 2 ^ 16 % 2 ^ 8) ∧
    takenB (sPorts [0]) 0 (head0 8 3 0) true true = false ∧ takenB (sPorts [0]) 0 (head0 7 3 0) false true = false ∧ takenB (sPorts [0]) 0 (head0 7 3 0) true false = false ∧ takenB s0 0 (head0 0 3 0) true true = false ∧
    (∀ p, p < 12 → takenB (sPorts (List.range 12)) p (head0 7 3 5) true true = true ∧ takenB (sPorts [p]) p (head0 7 3 5) true true = true) ∧ (head0 7 3 5).toNat / 2 ^ 24 % 2 ^ 6 ≠ s0.devNo := by decide +kernel
theorem carries_all : ∀ p, p < 12 → linkCarries (sPorts (List.range 12)) (16 + p) = true := by decide +kernel
theorem carries_one : ∀ p, p < 12 → ∀ q, q < 12 → linkCarries (sPorts [p]) (16 + q) = decide (p = q) := by decide +kernel
/-- Whatever port the routing table names, some other port can receive a flit that goes out by it; and some port can receive one that no port takes on. -/
theorem witness_LinksAndClock_routed : ∃ p q, p < 12 ∧ routeOf (sPorts (List.range 12)) 5 = some q ∧ q ≠ p := by
  refine ⟨(Config.primaryPort 0 + 1) % 12, Config.primaryPort 0 % 12, by omega, ?_, by omega⟩
  have h : (sPorts (List.range 12)).mgmt.routes.getD 5 0 = 0 := by decide +kernel
  simp only [routeOf, h, carries_all _ (Nat.mod_lt _ (by decide : 0 < 12)), if_true]
theorem witness_LinksAndClock_unrouted : ∃ p, p < 12 ∧ routeOf (sPorts [p]) 5 = none := by
  have h0 : s0.mgmt.routes.getD 5 0 = 0 := by decide +kernel
  have h : ∀ p, (sPorts [p]).mgmt.routes.getD 5 0 = 0 := fun _ => h0
  have key : ∀ p, p < 12 → p ≠ Config.primaryPort 0 % 12 → p ≠ Config.alternatePort 0 % 12 → routeOf (sPorts [p]) 5 = none := fun p hp h1 h2 => by
    simp only [routeOf, h, carries_one p hp _ (Nat.mod_lt (Config.primaryPort 0) (by decide : 0 < 12)), carries_one p hp _ (Nat.mod_lt (Config.alternatePort 0) (by decide : 0 < 12)), h1, h2, decide_false, Bool.false_eq_true, if_false]
  by_cases h0 : 0 ≠ Config.primaryPort 0 % 12 ∧ 0 ≠ Config.alternatePort 0 % 12
  · exact ⟨0, by decide, key 0 (by decide) h0.1 h0.2⟩
  · by_cases h1 : 1 ≠ Config.primaryPort 0 % 12 ∧ 1 ≠ Config.alternatePort 0 % 12
    · exact ⟨1, by decide, key 1 (by decide) h1.1 h1.2⟩
    · exact ⟨2, by decide, key 2 (by decide) (by omega) (by omega)⟩
/-- Every port keeps a flit for device 5, so whatever port the routing table names, another one keeps its flow waiting. -/
def sMoves : State := { s0 with links := (List.range 12).map fun p => (16 + p, { up0 with unacked := [⟨head0 4 0 5, []⟩] }) }
theorem carries_moves : ∀ p, p < 12 → linkCarries sMoves (16 + p) = true := by decide +kernel
theorem keeps_moves : ∀ z, z < 12 → (⟨head0 4 0 5, []⟩ : Flit) ∈ (getLink sMoves (16 + z)).unacked := by decide +kernel
theorem witness_LinksAndClock_moves : takenB sMoves 11 (head0 7 9 5) true true = true ∧ ackFlits 2 9 (getLink sMoves 27).unacked = none ∧ (head0 4 0 5).toNat / 2 ^ 24 % 2 ^ 6 = 5 ∧
    ∃ q z, routeOf sMoves 5 = some q ∧ z < 12 ∧ z ≠ q ∧ (⟨head0 4 0 5, []⟩ : Flit) ∈ (getLink sMoves (16 + z)).unacked := by
  refine ⟨by decide +kernel, by decide +kernel, by decide +kernel, Config.primaryPort 0 % 12, (Config.primaryPort 0 + 1) % 12, ?_, by omega, by omega, keeps_moves _ (by omega)⟩
  have h : sMoves.mgmt.routes.getD 5 0 = 0 := by decide +kernel
  simp only [routeOf, h, carries_moves _ (Nat.mod_lt _ (by decide : 0 < 12)), if_true]
/-- An accepted flit for another device whose flow does not wait: no port of `sPorts` keeps one for device 5. -/
theorem witness_LinksAndClock_still : (∀ z, z < 12 → ∀ f ∈ (getLink (sPorts (List.range 12)) (16 + z)).unacked, f.header.toNat / 2 ^ 24 % 2 ^ 6 ≠ 5) ∧
    ∀ z, z < 12 → ∀ f ∈ (ackFlits 2 3 (getLink (sPorts (List.range 12)) (16 + z)).unacked).getD [], f.header.toNat / 2 ^ 24 % 2 ^ 6 ≠ 5 := by decide +kernel
/-- The messages of a flit: a strand waits for an answer of device 5; memory is poisoned at 0x20008. -/
def sAnswer : State := { waitIn sSync (.acq c64 4) (.away 5) 0x1000000000000000 0 none with poison := [0x20008] }
theorem witness_LinksAndClock_messages : 0x7FFFFFFFF8 % 2 ^ 52 + [(1 : Byte), 2, 3, 4, 5, 6, 7, 8].length ≤ 0x8000000000 ∧ isNear 0x7FFFFFFFF8 = true ∧ 8 ≤ (Ty.z32).width ∧ rangePoisoned sAnswer 0x20008 8 = true ∧
    rangePoisoned sAnswer 0x20010 8 = false ∧ ((getStrand sAnswer 0).wait.map fun y => (y.what, y.served)) = some (.away 5, none) := by decide +kernel
theorem witness_LinksAndClock_retry : (getLink (sPorts [11]) 27).state = 2 ∧ linkUnitNo 27 ∧ cascadeUnit 27 ∧ linkUnitNo 41 ∧ ¬ cascadeUnit 41 ∧ (getLink (withLink 41 up0) 41).state = 2 ∧ (getLink s0 27).state ≠ 2 ∧ (getLink s0 27).state ≠ 3 ∧ ¬ linkUnitNo 7 ∧
    ((getLink (sPorts [11]) 27).unacked.filter fun f => f.header.toNat % 4 == 2) ≠ [] ∧ mget 0 (getLink (sPorts [11]) 27).tries 2 < 15 ∧ ((getLink (sPorts [11]) 27).unacked.filter fun f => f.header.toNat % 4 == 0) = [] ∧
    (let s := withLink 27 { port0 with tries := [(2, 15)] }; (getLink s 27).state = 2 ∧ ((getLink s 27).unacked.filter fun f => f.header.toNat % 4 == 2) ≠ [] ∧ 15 ≤ mget 0 (getLink s 27).tries 2) := by
  unfold linkUnitNo cascadeUnit; decide +kernel
/-- The device 5 is lost while a strand waits for a lock or a join there, and none for anything. -/
def sGone (w : WaitFor) : State := waitIn sSync (.acq c64 4) w 0x5000000000020100 0 none
/-- A strand waits for an answer of the device 5, about a handle or a strand there; a merged atomic of it is on its way there. -/
def sAskedAway (arg : Word) : State := waitIn sSync (.acq c64 4) (.away 5) arg 0 none
def rAway : Reduction := ⟨6 <<< 52 + 0x20100, .add, .z32, 1, [⟨0, 1, 0x20100⟩]⟩
def sMergedAway : State := { modMe sSync fun x => { x with d := [(1, 1)] } with reductions := [rAway] }
theorem witness_LinksAndClock_asked : ([(0x1000000000045000 : Word), 0x45000].all fun a => (getStrand (sAskedAway a) 0).wait.any fun x => x.served.isNone && decide (x.what = .away 5) && x.arg == a) = true ∧
    isUnitKind (hKind 0x1000000000045000) = true ∧ isUnitKind (hKind 0x45000) = false ∧ (sAskedAway 0).reductions = [] ∧
    2 ^ 52 ≤ rAway.pa ∧ rAway.pa / 2 ^ 52 - 1 = 5 ∧ rAway.owners = [⟨0, 1, 0x20100⟩] ∧ (getStrand sMergedAway 0).run = .running ∧ (getStrand sMergedAway 0).wait = none ∧ (getStrand sMergedAway 0).long = none := by decide +kernel
theorem witness_LinksAndClock_merged : sMergedAway.reductions = [rAway] ∧ (∀ k, (getStrand sMergedAway k).inflight = []) ∧ (getStrand sMergedAway 0).vtabQ = [] ∧
    (getStrand (modMe sMergedAway fun x => { x with vtabQ := [req9] }) 0).vtabQ ≠ [] :=
  ⟨rfl, fun k => List.isEmpty_iff.1 (mget_all (P := fun x : Strand => x.inflight.isEmpty) (d := Strand.reset) rfl (by decide +kernel) k), by decide +kernel, by decide +kernel⟩
/-- A load of the strand from the device 5 is on its way, alone. -/
def flightAway : Flight := ⟨1, [], false, false, false, some ⟨false, 5, .z32, 0, false, [⟨0, 0x20100, .glob (6 <<< 52 + 0x20100)⟩], 0, 0⟩⟩
def sLoadAway : State := modMe sSync fun x => { x with d := [(1, 1)], inflight := [flightAway] }
theorem witness_LinksAndClock_loads : sLoadAway.reductions = [] ∧ (getStrand sLoadAway 0).inflight = [flightAway] ∧ poisoned { sLoadAway with unreach := 5 :: sLoadAway.unreach } (coreOf 0) (6 <<< 52 + 0x20100) 4 = true ∧
    (∀ k, k ≠ 0 → (getStrand sLoadAway k).inflight = []) ∧ (getStrand sLoadAway 0).run = .running ∧ (getStrand sLoadAway 0).wait = none ∧ (getStrand sLoadAway 0).long = none ∧ (getStrand sLoadAway 0).vtabQ = [] :=
  ⟨by decide +kernel, by decide +kernel, by decide +kernel, fun k hk => by
    have h := mget_all (P := fun x : Strand => x.inflight.isEmpty) (d := Strand.reset) (m := sSync.strands) rfl (by decide +kernel) k
    have e : getStrand sLoadAway k = getStrand sSync k := by
      rw [sLoadAway, modMe, getStrand_modStrand, if_neg (show ¬ sSync.cur = k from fun e => hk e.symm)]
    rw [e]; exact List.isEmpty_iff.1 h, by decide +kernel⟩
/-- Where the fabric interface sends a write for the device 5, its flow does not wait. -/
theorem witness_LinksAndClock_sent : (sPorts (List.range 12)).fabricQ = [] ∧ (∀ q, q < 12 → flowWaits (sPorts (List.range 12)) 5 q = false) ∧ 2 ^ 52 ≤ (6 <<< 52 + 0x20100) ∧ (6 <<< 52 + 0x20100) / 2 ^ 52 - 1 = 5 ∧
    ∃ q, q < 12 ∧ routeOf (sPorts (List.range 12)) 5 = some q :=
  ⟨by decide +kernel, by decide +kernel, by decide, by decide, have ⟨_, q, _, h, _⟩ := witness_LinksAndClock_routed; ⟨Config.primaryPort 0 % 12, Nat.mod_lt _ (by decide), by
    have h0 : (sPorts (List.range 12)).mgmt.routes.getD 5 0 = 0 := by decide +kernel
    simp only [routeOf, h0, carries_all _ (Nat.mod_lt _ (by decide : 0 < 12)), if_true]⟩⟩
/-- A strand of a higher address has asked for a mutex in this cycle; a strand's RDREM of the device 5 has passed its window. -/
def sContest : State := noteAsk sSync (askMutex 0 0) 0x42000
def sLateRead : State := { waitIn sSync (rdrem0 12) (.away 5) 0x45000 1000 none with cycle := 1000 }
theorem witness_LinksAndClock_order : reqUnit (.acquire 0x1000000000000000) = some (askMutex 0 0) ∧ mayAsk sContest (askMutex 0 0) (0x41000 : Word).toNat = false ∧ sContest.awayReqs = [] ∧
    ((getStrand sLateRead 0).wait.any fun y => y.what == .away 5 && y.served.isNone && lateRead sLateRead 0 y) = true ∧ ((getStrand sAnswer 0).wait.any fun y => !lateRead sAnswer 0 y) = true := by decide +kernel
/-- A request that meets a higher sender of its cycle stays; a value after the window is discarded. -/
theorem test_order : (takeMsg sContest (.request 1 0x41000 3 (.acquire 0x1000000000000000))).awayReqs.length = 1 ∧ ((getStrand (takeMsg sLateRead (.answer 0 (some 9) 3)) 0).wait.map Wait.served) = some none := by decide +kernel
theorem witness_LinksAndClock_unreachable : 5 ≠ s0.devNo ∧ 5 < 64 ∧ s0.reductions = [] ∧ 2 ^ 52 ≤ (6 <<< 52 + 0x20100) ∧ (6 <<< 52 + 0x20100) / 2 ^ 52 - 1 = 5 ∧
    (∀ w ∈ [WaitFor.lock (6 <<< 52 + 0x20100), .join (6 <<< 52 + 0x20100)], ((getStrand (sGone w) 0).wait.map fun x => (x.served, x.what)) = some (none, w)) ∧ (getStrand s0 0).wait = none := by decide +kernel

def sPoison : State := { s0 with poison := [0x20008], hdm := [(0x20000, 0x100), (0x7FFFFFFF00, 0x200)] }
def cxlBytes : List Byte := [1, 2, 3, 4, 5, 6, 7, 8]
theorem witness_LinksAndClock_host : (∀ p ∈ [(0x7FFFFFFFF8, true), (0x20000, true), (0x20008, true), (0x200F8, true), (0x200F9, false), (0x1FFFF, false)], (sPoison.hdm.any fun r => decide (r.1 ≤ p.1) && decide (p.1 + 8 ≤ r.1 + r.2)) = p.2) ∧
    0x8000000000 < 0x7FFFFFFFF9 + 8 ∧ 0x7FFFFFFFF8 + 8 ≤ 0x8000000000 ∧ cxlBytes.length = 8 ∧ (∀ v ∈ sPoison.poison, ¬ (v < 0x20000 + 8 ∧ 0x20000 < v + 8)) ∧
    (∃ v ∈ sPoison.poison, v < 0x20008 + 8 ∧ 0x20008 < v + 8) ∧ 0 < 8 ∧
    15 < 16 ∧ 0xFFFFFFFFFFF * 128 < 0x8000000000000 ∧ 0x8000000000000 ≤ 0x100000000000 * 128 ∧ 0x1FFFFFFFFFFF * 128 < 2 ^ 52 ∧ 2 ^ 52 ≤ 0x200000000000 * 128 := by decide +kernel
theorem witness_LinksAndClock_snoop : AllHomes sPoison := homes_of (by decide +kernel)
/-- A region of 16 bytes that may be written. -/
def roce (icrc supported write : Bool) (addr : Word) : RoceRequest := ⟨3, 5, false, icrc, supported, write, 9, addr, 8, cxlBytes⟩
/-- The same with an ECN mark. -/
def roceEcn (x : RoceRequest) : RoceRequest := { x with ecn := true }
/-- As many queue pairs as there can be. -/
def sFullQps : State := { s0 with qps := List.replicate 4096 (10, ⟨0, 0, 0⟩) }
def sRoce : State := { withLink 35 up0 with regions := [⟨9, 0x20000, 16, true⟩], qps := [(5, .reset)] }
def servedB (s : State) (x : RoceRequest) : Bool := x.icrcOk && mhas s.qps x.qp && ((getLink s (32 + x.port)).state == 2 || (getLink s (32 + x.port)).state == 3) && x.supported &&
  s.regions.any fun r => r.rkey == x.rkey && decide (r.base ≤ x.addr.toNat) && decide (x.addr.toNat + x.len ≤ r.base + r.len) && (!x.write || r.write)
theorem witness_LinksAndClock_roce : servedB sRoce (roce true true true 0x20008) = true ∧ servedB sRoce (roce true true true 0x20000) = true ∧ (roce true true true 0x20008).data.length = 8 ∧
    servedB sRoce (roce true true true 0x20009) = false ∧ servedB sRoce (roce false true true 0x20008) = false ∧ servedB sRoce (roce true false true 0x20008) = false ∧ servedB s0 (roce true true true 0x20008) = false ∧
    (roceEcn (roce true true true 0x20008)).ecn = true ∧ servedB sRoce (roceEcn (roce true true true 0x20008)) = true ∧ mhas sRoce.qps 5 = true ∧ servedB { sRoce with qps := [] } (roce true true true 0x20008) = false ∧ s0.qps.length < 4096 ∧ mhas s0.qps 9 = false ∧ (roce true true false 0x20008).write = false ∧ servedB { sRoce with poison := [0x20008] } (roce true true false 0x20008) = true ∧ (∃ v ∈ [0x20008], v < 0x20008 + 8 ∧ 0x20008 < v + 8) ∧
    ¬ ∃ v ∈ sRoce.poison, v < 0x20008 + 8 ∧ 0x20008 < v + 8 := by decide +kernel
def sQp (n : Nat) : State := { modCluster sEng 0 fun c => { c with copies := [{ cmd0 with kind := .rwrite, ccr := BitVec.ofNat 512 (9 <<< 336) }] } with qps := [(9, ⟨3, n, 0⟩)] }
theorem witness_LinksAndClock_pairs : (getQp (sQp 6) 9).retries < 7 ∧ 7 ≤ (getQp (sQp 7) 9).retries ∧ (getCluster (sQp 7) 0).copies.length = 1 ∧ mhas (sQp 7).qps 9 = true := by decide +kernel
theorem mhas_replicate (n : Nat) (x : QueuePair) : mhas (List.replicate n (10, x)) 9 = false := by
  induction n with
  | zero => rfl
  | succ n ih => simpa [mhas, List.replicate_succ] using ih
theorem witness_LinksAndClock_full : mhas sFullQps.qps 9 = false ∧ ¬ sFullQps.qps.length < 4096 := ⟨mhas_replicate _ _, by rw [show sFullQps.qps.length = 4096 from List.length_replicate]; decide⟩
/-- The clock in a state, over port 1, with a master selected or none. -/
def sClock (st good : Nat) (m : Option Nat) : State := { sTrace 1 with ptp := ⟨true, false, 1, st, 5000, m, good, 0⟩, time := [(0, 1000), (1, 1000), (2, 1000), (3, 1000)] }
/-- The same with 1PPS as its source, started or not. -/
def sPps (on : Bool) (st good : Nat) : State := { sClock st good none with ptp := { (sClock st good none).ptp with on := on, pps := true } }
theorem witness_LinksAndClock_sources : ((sClock 0 0 none).ptp.on = true ∧ (sClock 0 0 none).ptp.pps = false ∧ (sClock 0 0 none).ptp.port = 1) ∧ s0.ptp.on = false ∧ (∀ b : Bool, (sPps b 0 0).ptp.pps = true ∧ (sPps b 0 0).ptp.on = b) ∧
    (∀ n ∈ [0, 1, 2, 3], (sPps true n 15).ptp.state = n) ∧ { s0 with agenda := [⟨0, .manage .clockOn⟩] }.agenda = ⟨0, .manage .clockOn⟩ :: [] := by decide +kernel
theorem witness_LinksAndClock_clock : ((sClock 0 0 (some 1)).ptp.master = some 1 ∧ 1 ≠ 2) ∧ (sClock 0 0 none).ptp.master = none ∧ (∀ n ∈ [0, 1, 2, 3], (sClock n 15 none).ptp.state = n) ∧ (-4000 : Int) = (dieTime (sClock 0 0 none) 0 : Int) - (sClock 0 0 none).ptp.tod ∧
    (-4000 : Int) < -3999 ∧ (399 : Int).natAbs < 400 ∧ ¬ (400 : Int).natAbs < 400 ∧ 16 ≤ (sClock 1 15 none).ptp.good + 1 ∧ ¬ 16 ≤ (sClock 1 14 none).ptp.good + 1 ∧ ringTakes (sClock 1 0 none) 0 0x51 = true := by decide +kernel

theorem test_training : ((out (.linkTraining 27 (train true false false 8 true)) { managed 4 s0 with unreach := [3] }).map fun t => ((getLink t 27).state, (getLink t 27).width, t.unreach)) = some (2, 8, []) ∧
    ((out (.linkTraining 27 (train true false false 3 false)) (managed 4 s0)).map fun t => ((getLink t 27).state, (getLink t 27).reason)) = some (4, 4) ∧ ((out (.linkTraining 8 (train true true false 1 false)) (managed 4 s0)).map fun t => (getLink t 8).state) = some 3 := by
  decide +kernel
theorem test_ready : ((out (.linkTraining 40 (train true false false 16 true)) (managed 3 { s0 with links := (List.range 8).map fun b => (8 + b, up0) })).map fun t => t.mgmt.state) = some 4 ∧
    ((out (.linkTraining 41 (train true false false 16 true)) s0).map fun t => (getLink t 41).state) = some 0 := by decide +kernel
theorem test_lane_loss : ((out (.laneLoss 27 0) (withLink 27 up0)).map fun t => ((getLink t 27).state, (getLink t 27).reason)) = some (4, 4) ∧ ((out (.laneLoss 27 4) (withLink 27 up0)).map fun t => ((getLink t 27).state, (getLink t 27).width)) = some (3, 4) := by
  decide +kernel
theorem test_flit : ((out (.cascadeFlit 0 (head0 7 3 0) ⟨[], []⟩ true true) (sPorts [0])).map fun t => ((getLink t 16).rxSeq, (getLink t 16).unacked, (getLink t 16).tries)) = some ([(2, 8)], [flit1, flit0 4], []) ∧
    ((out (.flitRetry ⟨27, 2⟩) (withLink 27 { port0 with tries := [(2, 15)] })).map fun t => ((getLink t 27).state, (getLink t 27).reason, (getLink t 27).retry)) = some (4, 3, 1) ∧
    ((out (.flitRetry ⟨41, 0⟩) (withLink 41 up0)).map fun t => (getLink t 41).retry) = some 1 := by decide +kernel
theorem test_messages : ((out (.cascadeFlit 0 (head0 7 9 0) ⟨[], [.write 0x20008 [1, 2]]⟩ true true) (sPorts [0])).map fun t => readLE t.mem 0x20008 2) = some 0x201 ∧
    ((out (.cascadeFlit 0 (head0 7 9 0) ⟨[], [.atomic .add .z32 0x20008 5]⟩ true true) (sPorts [0])).map fun t => readLE t.mem 0x20008 4) = some 5 ∧
    ((out (.cascadeFlit 0 (head0 7 9 0) ⟨[], [.read 0x20008 8]⟩ true true) { sPorts [0] with poison := [0x20008] }).map fun t => mget 0 t.rascnt 4) = some 0x100000000 ∧
    ((out (.cascadeFlit 0 (head0 7 9 0) ⟨[], [.answer 0 (some 9) 3]⟩ true true) { sAnswer with links := [(16, port0)] }).map fun t => (me t).wait.map Wait.served) = some (some (some 9)) := by decide +kernel
theorem test_lost_requests : ((out (.deviceUnreachable 5) (sAskedAway 0x1000000000045000)).map fun t => ((me t).cause, (me t).tval)) = some (0xE, 0x1000000000045000) ∧
    ((out (.deviceUnreachable 5) sMergedAway).map fun t => ((me t).cause, (me t).tval, getD (me t) 1)) = some (0xE, 0x20100, 0) := by decide +kernel
theorem test_unreachable : ((out (.deviceUnreachable 5) (sGone (.lock (6 <<< 52 + 0x20100)))).map fun t => ((me t).cause, (me t).tval, (me t).wait.isNone, t.unreach)) = some (0xE, 0x20100, true, [5]) := by decide +kernel
theorem test_host : ((out (.cxlMemRequest true 0x20008 8 cxlBytes) sPoison).map fun t => (readLE t.mem 0x20008 8, t.poison)) = some (0x0807060504030201, []) ∧
    ((out (.cxlMemRequest false 0x20008 8 []) sPoison).map fun t => mget 0 t.rascnt 4) = some 0x100000000 ∧ ((out (.cxlSnoop 15 0x100000000000) sPoison).map fun t => t.poison) = some [0x20008] := by decide +kernel
theorem test_network : ((out (.roceRequest (roce true true true 0x20008)) sRoce).map fun t => readLE t.mem 0x20008 8) = some 0x0807060504030201 ∧ ((out (.roceRequest (roce false true true 0x20008)) sRoce).map fun t => readLE t.mem 0x20008 8) = some 0 ∧
    ((out (.roceRequest (roce true true false 0x20008)) { sRoce with poison := [0x20008] }).map fun t => mget 0 t.rascnt 4) = some 0x100000000 ∧
    ((out (.roceAckTimeout 9) (sQp 6)).map fun t => (getQp t 9, (getCluster t 0).copies.map CopyCmd.xerr)) = some (⟨3, 7, 0⟩, [0]) ∧ ((out (.roceAckTimeout 9) (sQp 7)).map fun t => (getQp t 9, (getCluster t 0).copies.map CopyCmd.xerr)) = some (⟨3, 0, 0⟩, [1]) := by
  decide +kernel
theorem test_pairs : (manage (.queuePair 9) s0).qps.length = 1 ∧ (manage (.queuePair 5) sRoce).qps.length = 1 ∧ ((out (.cnp 9) s0).map fun t => t.qps.length) = some 0 := by decide +kernel
theorem test_load_lost : ((out (.deviceUnreachable 5) sLoadAway).map fun t => ((me t).cause, (me t).tval, getD (me t) 1, (me t).inflight.length)) = some (0xE, 0x20100, 0, 0) := by decide +kernel
theorem test_rates : ((out (.cnp 9) (sQp 0)).map fun t => getQp t 9) = some ⟨1, 0, 0⟩ ∧ ((out (.rateRecovery 9) (sQp 0)).map fun t => getQp t 9) = some ⟨0x10000003, 0, 0⟩ ∧ ((out (.ethernetFrame 2 ⟨false, []⟩) s0).map fun t => mget 0 t.ethDrops 2) = some 1 ∧
    ((out (.ethernetFrame 2 ⟨true, [(3, 25)]⟩) s0).map fun t => (getLink t 34).pauseTo) = some [(3, 36)] ∧ ((out (.roceRequest (roceEcn (roce true true true 0x20008))) sRoce).map fun t => (getQp t 5).cnps) = some 1 := by
  decide +kernel
theorem test_clock : ((out (.sync ⟨1, 1⟩ (-4000)) (sClock 0 0 none)).map fun t => (t.ptp.state, dieTime t 3, t.ptp.slew, t.ptp.master)) = some (1, 5000, 0, some 1) ∧ ((out (.sync ⟨1, 1⟩ 399) (sClock 1 15 (some 1))).map fun t => (t.ptp.state, t.ptp.slew)) = some (2, -399) ∧
    ((out .ppsEdge (sPps true 0 0)).map fun t => (t.ptp.state, dieTime t 0, t.ptp.tod)) = some (1, 5000, 4000005000) ∧ ((out .announceTimeout (sClock 2 0 none)).map fun t => t.ptp.state) = some 3 := by decide +kernel

theorem test_clock_sources : ((out (.sync ⟨2, 1⟩ 399) (sClock 1 15 (some 1))).map fun t => t.ptp.good) = some 15 ∧ ((out (.sync ⟨1, 2⟩ 399) (sClock 1 14 (some 1))).map fun t => t.ptp.good) = some 14 ∧
    ((out .ppsEdge (sPps false 0 0)).map fun t => (t.ptp.state, t.ptp.tod)) = some (0, 4000005000) ∧ ((manage .clockOff (sClock 2 0 (some 1))).ptp.state, (manage .clockOff (sClock 2 0 (some 1))).ptp.master) = (0, none) := by decide +kernel

/-! ### Errors (spec/22) -/

/-- An error of the L2 slice of the cluster 0, or of a core of it, in the near tier or elsewhere. -/
def site0 (space : BitVec 4) : ErrSite := ⟨4, 0x10, space, 0x20008⟩
/-- The strand of RASCTL is strand 1, and the tenant 0 of the device traces. -/
def sErr : State := { sTrace 1 with rasctl := 0x8000000000000001, rascnt := [(4, 0xFFFFFFFF00000003)] }
theorem witness_Errors_counted : ringTakes sErr 0 0x48 = true ∧ sErr.rasctl.getLsbD 63 = true ∧ sErr.rasctl.toNat / 4096 % 64 = sErr.devNo ∧ stCtx (getStrand sErr (sErr.rasctl.toNat % 4096)) = 0 ∧ (site0 0).space = 0 ∧ (site0 2).space ≠ 0 := by decide +kernel
theorem witness_Errors_scrub : ¬ 0x100000000 * 128 < 0x8000000000 ∧ 0xFFFFFFFF * 128 < 0x8000000000 ∧ (∃ v ∈ sPoison.poison, v < 0x400 * 128 + 128 ∧ 0x400 * 128 < v + 8) ∧
    ¬ ∃ v ∈ sPoison.poison, v < 0x401 * 128 + 128 ∧ 0x401 * 128 < v + 8 := by decide +kernel
theorem witness_Errors_strand : mayRun s0 5 = false ∧ (getStrand (modMe s0 fun x => { x with vtabQ := [req9] }) 0).vtabQ ≠ [] ∧ mayRun s0 0 = true ∧ (getStrand s0 0).vtabQ = [] ∧ (getStrand s0 0).wait = none ∧ (getStrand s0 0).long = none := by decide +kernel
theorem witness_Errors_engine : (getCluster s0 ((site0 2).src.toNat / 1024)).copies = [] ∧ (getCluster sQueued ((site0 2).src.toNat / 1024)).copies[0]? = some cmd0 ∧ cmdReady sQueued 0 0 cmd0 = true ∧ cmd0.kind ≠ .pref ∧
    (tsrTy (cmdShape cmd0)).isBlock = false := by decide +kernel
theorem witness_Errors_walk : (match (getStrand (sRow false 0) 0).long with
    | some l => (walkArgs l.i).isSome && decide (0 < l.rows.length) && rowStat (l.rows.getD 0 0) == 0
    | none => false) = true := by decide +kernel
theorem witness_Errors_fatal : 16 ≤ 16 ∧ 15 < 16 ∧ (clusterOf 0 = 0 ∧ (getStrand s0 0).run = .running) ∧ clusterOf 0x100 ≠ 0 ∧ (getCluster sQueued 0).drains = [] ∧ (getCluster sQueued 0).copies.length = 1 ∧ (getCore sTabLd 0).tabLoads.length = 1 := by decide +kernel
def sDead : State := { s0 with mgmt := { s0.mgmt with state := 6 } }
theorem witness_Errors_failed : sDead.agenda = [⟨0, .strand 0⟩] ∧ sDead.mgmt.state = 6 := by decide +kernel

theorem test_corrected : ((out (.correctedError (site0 0)) sErr).map fun t => (mget 0 t.rascnt 4, t.recs.length)) = some (0xFFFFFFFF00000004, 1) := by decide +kernel
theorem test_scrub : ((out (.patrolScrub 0x400 false) sPoison).map fun t => mget 0 t.rascnt 4) = some 0x100000000 ∧ ((out (.patrolScrub 0x401 true) sPoison).map fun t => mget 0 t.rascnt 4) = some 1 := by decide +kernel
theorem test_uncorrected_strand : ((out (.uncorrectedError (site0 2) (.strand 0 0x9008)) s0).map fun t => ((me t).cause, (me t).tval, (me t).epc)) = some (0xE, 0x9008, 0x10000) := by decide +kernel
theorem test_uncorrected : ((out (.uncorrectedError (site0 0) .writeback) sErr).map fun t => (mget 0 t.rascnt 4, t.poison.length, (getStrand t 1).irq)) = some (0xFFFFFFFF00000003, 16, 4) ∧
    ((out (.uncorrectedError (site0 2) (.engine 0x9008)) sQueued).map fun t => (getCluster t 0).copies.map fun q => (q.done, q.nflt, q.faddr)) = some [(1, 1, 0x9008)] ∧
    ((out (.uncorrectedError (site0 2) (.walk 0 0 0x9008)) (sRow false 0)).map fun t => (me t).long.map fun l => l.rows.map statOf) = some (some [2]) := by decide +kernel
theorem test_fatal : ((out (.fatalClusterError 0) sQueued).map fun t => ((me t).run, (getCluster t 0).failed, (getCluster t 0).copies.map fun q => q.killed)) = some (.stopped, true, [true]) ∧
    ((out (.fatalClusterError 16) s0).map fun t => (t.mgmt.state, t.mgmt.fail)) = some (6, 4) := by decide +kernel
theorem test_failed_device : (match step sDead with | .fault .deviceFailed => true | _ => false) = true := by decide +kernel

/-! ### The management controller (spec/22, spec/10) -/

/-- The hash of a test key, and three images of 304 bytes under its signature, with security version 5: one to boot from, one whose wrapper has another format, one whose payload is no
firmware. The signatures were made outside the model from the curve's published constants. -/
def key0 : BitVec 256 := 0x03b36e2f25a1fb46a5661181aa37e8825902b9514416c174a4d3db61112890a2
def image0 : List Byte := bytesOf 304 0x123401010101010101010000000000000008000000a8000000030000000000000008000000a000000001e1531a43fa36e926f065b755947ed80755949ecba17b0073ea331b327e8d7c09a00e4aae374e3ee949ef0e830bc2e1a2bc76c23d5fb05fef0ef78e464187587400000000000000000000000000000000000000000000000000000000000000000000000000000000000000000000000000000000000000000000000257464756d362db1f635c35bc33c006b0e36a11c23c5f14607fe0c11afc683e0f4f564bef0f6e003eb22622f50677be13a5d98b12043f36b8d631ea462a0bb9d35fe7bb5a1891f27e3be89234c83fa14c2047b281f87b9f6f11b5544a6cd24b89c3bc529246fba1252f6eb303000000000000000500000000000000b00000000149534756
def image1 : List Byte := bytesOf 304 0x123401010101010101010000000000000008000000a8000000030000000000000008000000a000000001e1531a43fa36e926f065b755947ed80755949ecba17b0073ea331b327e8d7c09a00e4aae374e3ee949ef0e830bc2e1a2bc76c23d5fb05fef0ef78e464187587400000000000000000000000000000000000000000000000000000000000000000000000000000000000000000000000000000000000000000000000257464756da02d88109ddaa860ff11c464883527ffafd2e8c89f31edadf60b857f20960903a58e8d4c0c026feeb73460d24592740f86e9e961fc73b30d9efdd52b741be6e1891f27e3be89234c83fa14c2047b281f87b9f6f11b5544a6cd24b89c3bc529246fba1252f6eb303000000000000000500000000000000b00000000249534756
def image2 : List Byte := bytesOf 304 0x123401010101010101010000000000000008000000a8000000030000000000000008000000a000000001e1531a43fa36e926f065b755947ed80755949ecba17b0073ea331b327e8d7c09a00e4aae374e3ee949ef0e830bc2e1a2bc76c23d5fb05fef0ef78e464187587400000000000000000000000000000000000000000000000000000000000000000000000000000000000000000000000000000000000000000000000257464700fb5566c51088a65b6caa3f9cc2ca74b3c211392ad898ce2e1d1468bd2fa077a9660da86b4dfc6871d572a31fd5e7952829d0d9d2fedfa3836d0d9980939b414b649429e54d27a7b65637d783d78216368118142e1f5918180d2d916f488ab9c646fba1252f6eb303000000000000000500000000000000b00000000149534756
def point0 : Nat × Nat := (0x74588741468ef70eef5fb05f3dc276bca2e1c20b830eef49e93e4e37ae4a0ea0, 0x97c8d7e321b33ea73007ba1cb9e945507d87e9455b765f026e936fa431a53e1)
/-- The sums of an image, but for its signature. -/
def sumsB (m : List Byte) : Bool := (payloadOf m).length == fieldOf m 8 8 && decide (128 ≤ m.length) && beBytes 32 (sha256 (payloadOf m)).toNat == (m.drop 32).take 32
def signedB (m : List Byte) (e r s : Nat) : Bool := (beOf ((keyBytes 0 (payloadOf m)).take 32), beOf ((keyBytes 0 (payloadOf m)).drop 32)) == point0 && (sha256 (m.take 64)).toNat == e && fieldOf m 64 32 == r && fieldOf m 96 32 == s
/-- The signature of an image verifies under the key its payload carries, and the hash of that key. -/
def signed (m : List Byte) : Bool := signatureOk (keyBytes 0 (payloadOf m)) m
def hashOf (m : List Byte) : BitVec 256 := keyHash (keyBytes 0 (payloadOf m))
theorem signed_of {m : List Byte} {e r s : Nat} (h : (sumsB m && signedB m e r s) = true) (hv : ecdsaVerify point0 e r s = true) : signed m = true := by
  simp only [sumsB, signedB, Bool.and_eq_true, beq_iff_eq, decide_eq_true_eq] at h
  obtain ⟨⟨⟨h1, h2⟩, h3⟩, ⟨⟨h4, h5⟩, h6⟩, h7⟩ := h
  simp only [signed, signatureOk, h1, h2, h3, h4, h5, h6, h7, hv, beq_self_eq_true, decide_true, Bool.and_true]
/-- An image that one slot names and whose key is the slot's. -/
def namedB (m : List Byte) : Bool := keySlot [key0] m == some key0 && hashOf m == key0
theorem named_of {m : List Byte} (h : namedB m = true) : keySlot [key0] m = some key0 ∧ hashOf m = key0 := by simpa [namedB] using h
theorem signed0 : signed image0 = true := signed_of (e := 0xe2a2956da80b933bb0b7a3133f488d5a76279e2b07d61fff5fef632f8c9d8de9) (r := 0xf6e003eb22622f50677be13a5d98b12043f36b8d631ea462a0bb9d35fe7bb5a) (s := 0xd362db1f635c35bc33c006b0e36a11c23c5f14607fe0c11afc683e0f4f564bef) (by decide +kernel) (by decide +kernel)
theorem signed1 : signed image1 = true := signed_of (e := 0x3ef926098de2fa8ded1d953be6b080cab0a16c22280fa2d0e5754f8018a55f53) (r := 0x3a58e8d4c0c026feeb73460d24592740f86e9e961fc73b30d9efdd52b741be6e) (s := 0xda02d88109ddaa860ff11c464883527ffafd2e8c89f31edadf60b857f2096090) (by decide +kernel) (by decide +kernel)
theorem signed2 : signed image2 = true := signed_of (e := 0xf3a1e2125ea69180ac793ca476f56870fd99092b898e776c06449a5855b6733c) (r := 0x660da86b4dfc6871d572a31fd5e7952829d0d9d2fedfa3836d0d9980939b414b) (s := 0xfb5566c51088a65b6caa3f9cc2ca74b3c211392ad898ce2e1d1468bd2fa077a9) (by decide +kernel) (by decide +kernel)
theorem witness_BringUp_accepted : (keySlot [key0] image0 = some key0 ∧ hashOf image0 = key0) ∧ signed image0 = true ∧ (5 ≤ fieldOf image0 16 8 ∧ (fieldOf image0 4 2 = 1 ∧ fieldOf image0 6 2 = 0 ∧ fieldOf image0 0 4 = 0x49534756) ∧
    payloadOk (payloadOf image0) = true) := ⟨named_of (by decide +kernel), signed0, by decide +kernel⟩
theorem accepted : rejectReason [key0] 5 image0 = 0 := by
  obtain ⟨⟨h1, h2⟩, h3, h4, ⟨h5, h6, h7⟩, h8⟩ := witness_BringUp_accepted
  simp only [hashOf, signed] at h2 h3
  simp [rejectReason, imageReason, h1, h2, h3, h5, h6, h7, h8, Nat.not_lt.2 h4]
/-- An image that no slot names; one whose key is another; one whose digest fails; one with too old a version; one with another format; one whose payload is no firmware. -/
theorem witness_BringUp_rejected : keySlot [] image0 = none ∧ (keySlot [key0 + 1] image0 ≠ none ∧ hashOf image0 ≠ key0 + 1) ∧ (namedB (image0.set 32 0) = true ∧ signed (image0.set 32 0) = false) ∧ fieldOf image0 16 8 < 6 := by
  decide +kernel
theorem witness_BringUp_format : (keySlot [key0] image1 = some key0 ∧ hashOf image1 = key0) ∧ signed image1 = true ∧ (5 ≤ fieldOf image1 16 8 ∧ ¬ (fieldOf image1 4 2 = 1 ∧ fieldOf image1 6 2 = 0 ∧ fieldOf image1 0 4 = 0x49534756)) :=
  ⟨named_of (by decide +kernel), signed1, by decide +kernel⟩
theorem witness_BringUp_payload : (keySlot [key0] image2 = some key0 ∧ hashOf image2 = key0) ∧ signed image2 = true ∧ (5 ≤ fieldOf image2 16 8 ∧ (fieldOf image2 4 2 = 1 ∧ fieldOf image2 6 2 = 0 ∧ fieldOf image2 0 4 = 0x49534756) ∧
    payloadOk (payloadOf image2) = false) := ⟨named_of (by decide +kernel), signed2, by decide +kernel⟩

/-- The controller with an image in flash, or one staged in the recovery mailbox. -/
def sBoot (st : Nat) (m : List Byte) : State := { s0 with mgmt := { s0.mgmt with state := st, slots := [key0], floor := 5, flash := m } }
def power (hbm : BitVec 8) (host bad : Bool) : PowerUpInput := ⟨hbm, host, [(41, train true false false 16 true)], [0x1000000000000000], [3], bad, 0x1001⟩
/-- A fault of an interface of basin 0, whose spares a repair table of 256 entries uses up; or a fault of the array of core 3, with some entries. -/
def basinFault : Word := 0x4000000000000000
def arrayFault : Word := 0x100C000000000000
def repaired (es : List Word) : State × Bool := ({ s0 with mgmt := { s0.mgmt with repairs := es } }, false)
def allSpares (w : Word) (n : Nat) : List Word := (List.range n).map fun k => w + BitVec.ofNat 64 k
/-- Does no entry of a table use a spare of the structure? -/
def unusedB (es : List Word) (f : Word) (n : Nat) : Bool := es.all fun e => !(e.toNat / 2 ^ 50 == (f &&& repairMask).toNat / 2 ^ 50 && e.toNat % 2 ^ 8 == n)
theorem witness_BringUp_repairs : (∀ p ∈ [(0, 0), (1, 1)], p.1 < min (spareCount ((arrayFault &&& repairMask).toNat / 2 ^ 60)) 256 ∧ unusedB (allSpares arrayFault p.2) arrayFault p.1 = true ∧
      (List.range p.1).all (fun k => !unusedB (allSpares arrayFault p.2) arrayFault k) = true) ∧
    (arrayFault &&& repairMask).toNat / 2 ^ 60 = 1 ∧ spareCount 1 = 2 ∧ (List.range 2).all (fun k => !unusedB (allSpares arrayFault 2) arrayFault k) = true ∧
    (basinFault &&& repairMask).toNat / 2 ^ 60 = 4 ∧ (List.range 256).all (fun k => !unusedB (allSpares basinFault 256) basinFault k) = true := by decide +kernel
theorem witness_BringUp_good : ∀ n, (selfTest (sBoot n image0) (power 0xFF true false) (wordList (fwSection (payloadOf image0) 3))).2 = false := fun n => by
  have h : ∀ s : State, (selfTest s (power 0xFF true false) (wordList (fwSection (payloadOf image0) 3))).2 = false := fun s => by rfl
  exact h _
def sMailbox (len count stat : Nat) (m : List Byte) : State := let s := sBoot 5 []; { s with mgmt := { s.mgmt with rmlen := len, rmcount := count, rmstat := stat, staging := m } }
theorem witness_BringUp_power : (∀ n, (sBoot n image0).mgmt.state = n ∧ rejectReason (sBoot n image0).mgmt.slots (sBoot n image0).mgmt.floor (sBoot n image0).mgmt.flash = 0) ∧
    rejectReason (sBoot 0 []).mgmt.slots (sBoot 0 []).mgmt.floor (sBoot 0 []).mgmt.flash ≠ 0 ∧ (∀ b, b < 8 → (power 0xFF true false).stacksUp.getLsbD b = true) ∧ ¬ (∀ b, b < 8 → (power 0x7F true false).stacksUp.getLsbD b = true) ∧
    (power 0xFF true true).badUnit = true ∧ (power 0xFF false false).badUnit = false ∧ (power 0xFF true false).hostUp = true ∧ (power 0xFF false false).hostUp = false ∧ 3 ∈ (power 0xFF true false).badCores :=
  ⟨fun _ => ⟨rfl, accepted⟩, by decide +kernel, by decide +kernel, by decide +kernel, by decide +kernel, by decide +kernel, by decide +kernel, by decide +kernel, by decide +kernel⟩
/-- What a link is before the bring-up, whether it trains then, and where the interface of a stack ends. -/
def wasOf (s : State) (n : Nat) : LinkUnit := if s.mgmt.state = 1 then getLink s n else LinkUnit.reset
def willTrainB (s : State) (n : Nat) : Bool := (wasOf s n).state == 1 || ((wasOf s n).state == 0 && !(wasOf s n).dis)
def stackOf (s : State) (x : PowerUpInput) (b : Nat) : Nat := if willTrainB s (8 + b) then (if x.stacksUp.getLsbD b then 2 else 4) else (wasOf s (8 + b)).state
def linksReadyB (s : State) (x : PowerUpInput) : Bool := (List.range 8).all (fun b => stackOf s x b == 2) && (if x.hostUp && willTrainB s 40 then 2 else (wasOf s 40).state) == 2
def stacksB (s : State) (x : PowerUpInput) : Bool := (List.range 8).all fun b => stackOf s x b != 4
/-- A restart from BOOT with links in states. -/
def sRestart (ls : List (Nat × LinkUnit)) : State := { sBoot 1 image0 with links := ls }
/-- The bring-up ends READY, in TRAIN or FAILED: after a power cycle, and after a restart that finds links up, disabled or failed. -/
theorem witness_BringUp_links : (linksReadyB (sBoot 0 image0) (power 0xFF true false) = true ∧ stacksB (sBoot 0 image0) (power 0xFF true false) = true ∧ linksReadyB (sBoot 0 image0) (power 0xFF false false) = false ∧
      stacksB (sBoot 0 image0) (power 0x7F true false) = false) ∧
    linksReadyB (sRestart ((40, up0) :: (List.range 8).map fun b => (8 + b, up0))) (power 0 false false) = true ∧
    (stacksB (sRestart [(8, { up0 with dis := true, state := 0 })]) (power 0xFF true false) = true ∧ linksReadyB (sRestart [(8, { up0 with dis := true, state := 0 })]) (power 0xFF true false) = false) ∧
    stacksB (sRestart [(15, { up0 with state := 4 })]) (power 0xFF true false) = false ∧ (willTrainB (sRestart [(41, { up0 with state := 4 })]) 41 = false ∧ willTrainB (sRestart [(41, { up0 with state := 1 })]) 41 = true ∧
      willTrainB (sBoot 0 image0) 41 = true ∧ (power 0xFF true false).ports.find? (fun q => q.1 == 42) = none) := by decide +kernel
theorem witness_BringUp_mailbox : (sBoot 4 []).mgmt.state ≠ 5 ∧ (∀ n ∈ [127, 128, 0x4000000, 0x4000001], (sMailbox n 0 0 []).mgmt.state = 5 ∧ (sMailbox n 0 0 []).mgmt.rmlen = n) ∧
    (let g := (sMailbox 304 8 1 [1, 2, 3, 4, 5, 6, 7, 8]).mgmt; g.rmstat = 1 ∧ g.rmcount = g.staging.length ∧ g.rmcount + 296 ≤ g.rmlen ∧ g.rmlen < g.rmcount + 0x10000 ∧ g.rmcount ≠ g.rmlen) ∧ (sMailbox 304 8 0 []).mgmt.rmstat ≠ 1 ∧
    ((sMailbox 304 304 1 (image0.set 32 0)).mgmt.rmstat = 1 ∧ (sMailbox 304 304 1 (image0.set 32 0)).mgmt.rmcount = (sMailbox 304 304 1 (image0.set 32 0)).mgmt.rmlen ∧ rejectReason [key0] 5 (image0.set 32 0) ≠ 0) := by decide +kernel
theorem witness_BringUp_commit : (sMailbox 304 304 1 image0).mgmt.rmstat = 1 ∧ (sMailbox 304 304 1 image0).mgmt.rmcount = (sMailbox 304 304 1 image0).mgmt.rmlen ∧
    rejectReason (sMailbox 304 304 1 image0).mgmt.slots (sMailbox 304 304 1 image0).mgmt.floor (sMailbox 304 304 1 image0).mgmt.staging = 0 := ⟨rfl, rfl, accepted⟩

/-- SHA-256 of "abc" (FIPS 180-4's example). -/
theorem test_sha256 : sha256 [0x61, 0x62, 0x63] = 0xba7816bf8f01cfea414140de5dae2223b00361a396177a9cb410ff61f20015ad := by decide +kernel
theorem test_power_up : ((out (.powerUp (power 0xFF true false)) (sBoot 0 [])).map fun t => (t.mgmt.state, t.mgmt.fail, t.strands.length)) = some (5, 1, 0) := by decide +kernel
theorem test_mailbox : ((out (.rmChunk 296) (sMailbox 304 8 1 [1, 2, 3, 4, 5, 6, 7, 8])).map fun t => (t.mgmt.rmstat, t.mgmt.rmcount)) = some (1, 304) ∧ ((out (.rmChunk 297) (sMailbox 304 8 1 [])).map fun t => t.mgmt.rmstat) = some 5 ∧
    ((out .rmBegin (sMailbox 128 8 3 [1])).map fun t => (t.mgmt.rmstat, t.mgmt.rmcount)) = some (1, 0) ∧ ((out .rmAbort (sMailbox 128 8 3 [1])).map fun t => (t.mgmt.rmstat, t.mgmt.staging)) = some (0, []) := by decide +kernel
theorem test_commit : ((out .rmCommit (sMailbox 304 304 1 (image0.set 32 0))).map fun t => (t.mgmt.rmstat, t.mgmt.rmreason, t.mgmt.state, t.msix)) = some (4, 3, 5, []) := by decide +kernel
theorem test_repairs : ((repairFault (repaired (allSpares arrayFault 1)) arrayFault).1.mgmt.repairs, (repairFault (repaired (allSpares arrayFault 1)) arrayFault).2) = ([arrayFault, arrayFault + 1], false) ∧
    (getCluster (repairFault (repaired (allSpares arrayFault 2)) arrayFault).1 0).unav = 8 := by decide +kernel
theorem test_spdm : ((out (.spdmRequest (.other 0xE4)) s0).map fun t => t.mgmt.doe) = some [0x12, 0x7F, 0x07, 0xE4] := by decide +kernel

/-! ### Memory's canonical form -/

theorem witness_StepKeepsMemory : Memory.wf s0.mem = true ∧ (match step s0 with | .next t => Memory.wf t.mem | _ => false) = true := by decide +kernel
end Sys2Proof.Tests
end

section
/-!
PROOFS. Rounding to nearest even (spec/00 R6, spec/02 R36 and R45): the nearest integer, the grid of a format's numbers, and what `roundF` does on it.
-/
namespace Sys2Proof.Rounding
open Sys2Proof.Machine Sys2Proof.Claims

/-! ### Powers of two -/

theorem two_pow_pos (k : Nat) : (0 : Int) < 2 ^ k := Int.pow_pos (by decide)

theorem two_pow_cast (k : Nat) : ((2 ^ k : Nat) : Int) = 2 ^ k := Int.natCast_pow 2 k

theorem natAbs_two_pow (k : Nat) : ((2 : Int) ^ k).natAbs = 2 ^ k := by rw [← two_pow_cast, Int.natAbs_natCast]

theorem two_pow_le {a b : Nat} (h : a ≤ b) : 2 ^ a ≤ 2 ^ b := Nat.pow_le_pow_right (by decide) h

/-! ### The nearest integer -/

theorem nearestInt_rneShift (n k : Nat) : NearestInt n k (rneShift n k) := by
  have hdiv : (((2 ^ k : Nat) : Int) * (n / 2 ^ k : Nat)) + (n % 2 ^ k : Nat) = n := by
    rw [← Int.natCast_mul, ← Int.natCast_add, Nat.div_add_mod]
  have hlt : n % 2 ^ k < 2 ^ k := Nat.mod_lt n (Nat.two_pow_pos k)
  have hcast := two_pow_cast k
  unfold NearestInt rneShift
  generalize n / 2 ^ k = q at *
  generalize n % 2 ^ k = r at *
  rw [hcast] at hdiv
  have down : (n : Int) - q * 2 ^ k = r := by rw [Int.mul_comm]; omega
  have up : (n : Int) - (q + 1 : Nat) * 2 ^ k = r - 2 ^ k := by
    rw [Int.natCast_add, Int.natCast_one, Int.add_mul, Int.one_mul, Int.mul_comm]; omega
  clear hdiv
  generalize (2 : Int) ^ k = p at *
  generalize 2 ^ k = p' at *
  dsimp only
  by_cases hlow : 2 * r < p'
  · rw [if_pos hlow, down]; omega
  by_cases hhigh : p' < 2 * r
  · rw [if_neg hlow, if_pos hhigh, up]; omega
  rw [if_neg hlow, if_neg hhigh]
  rcases Nat.mod_two_eq_zero_or_one q with h | h
  · rw [h, Nat.add_zero, down]; omega
  · rw [h, up]; omega

/-- Numerator and denominator may be scaled together. -/
theorem nearestInt_scale {n : Int} {k : Nat} {t : Int} (h : NearestInt n k t) (c : Nat) : NearestInt (n * 2 ^ c) (k + c) t := by
  have hdist : (n * 2 ^ c - t * 2 ^ (k + c)).natAbs = (n - t * 2 ^ k).natAbs * 2 ^ c := by
    rw [Int.pow_add, ← Int.mul_assoc, ← Int.sub_mul, Int.natAbs_mul, natAbs_two_pow]
  obtain ⟨hle, htie⟩ := h
  rw [NearestInt, hdist, Nat.pow_add, ← Nat.mul_assoc]
  exact ⟨Nat.mul_le_mul_right _ hle, fun heq => htie (Nat.eq_of_mul_eq_mul_right (Nat.two_pow_pos c) heq)⟩

theorem nearestInt_mul_two_pow (t : Int) (k : Nat) : NearestInt (t * 2 ^ k) k t := by
  have hpos := Nat.two_pow_pos k
  rw [NearestInt, Int.sub_self]
  exact ⟨Nat.zero_le _, fun h => by simp only [Int.natAbs_zero] at h; omega⟩

theorem nearestInt_neg {n : Int} {k : Nat} {t : Int} (h : NearestInt n k t) : NearestInt (-n) k (-t) := by
  have hdist : (-n - -t * 2 ^ k).natAbs = (n - t * 2 ^ k).natAbs := by rw [Int.neg_mul]; omega
  obtain ⟨hle, htie⟩ := h
  rw [NearestInt, hdist]
  exact ⟨hle, fun heq => by have := htie heq; omega⟩

theorem nearest_rneInt (m : Nat) {e : Int} {q : Nat} (hq : 0 ≤ e + q) : NearestInt ((m * 2 ^ (e + q).toNat : Nat) : Int) q (rneInt m e) := by
  unfold rneInt
  by_cases he : 0 ≤ e
  · have hexp : (e + q).toNat = e.toNat + q := by omega
    rw [if_pos he, hexp, Nat.pow_add, ← Nat.mul_assoc, Int.natCast_mul _ (2 ^ q), two_pow_cast]
    exact nearestInt_mul_two_pow _ q
  · have hk : (-e).toNat + (e + q).toNat = q := by omega
    have h := nearestInt_scale (nearestInt_rneShift m (-e).toNat) (e + q).toNat
    rw [hk] at h
    rw [if_neg he, Int.natCast_mul, two_pow_cast]
    exact h

section Nearest
variable {n : Int} {k : Nat} {t : Int} (h : NearestInt n k t)
include h

/-- No integer lies nearer, and where another lies as near, the nearest one is even. -/
theorem nearestInt_le_of_int (z : Int) :
    (n - t * 2 ^ k).natAbs ≤ (n - z * 2 ^ k).natAbs ∧ ((n - t * 2 ^ k).natAbs = (n - z * 2 ^ k).natAbs → t ≠ z → t % 2 = 0) := by
  obtain ⟨hle, htie⟩ := h
  have hcast := two_pow_cast k
  have hpos := two_pow_pos k
  rcases Int.lt_trichotomy t z with hlt | rfl | hgt
  · have hgap := Int.mul_le_mul_of_nonneg_right (show t + 1 ≤ z from hlt) (Int.le_of_lt hpos)
    rw [Int.add_mul, Int.one_mul] at hgap
    exact ⟨by omega, fun _ _ => htie (by omega)⟩
  · exact ⟨Nat.le_refl _, fun _ hne => absurd rfl hne⟩
  · have hgap := Int.mul_le_mul_of_nonneg_right (show z + 1 ≤ t from hgt) (Int.le_of_lt hpos)
    rw [Int.add_mul, Int.one_mul] at hgap
    exact ⟨by omega, fun _ _ => htie (by omega)⟩

theorem nearestInt_le {b : Int} (hn : n < b * 2 ^ k) : t ≤ b := by
  obtain ⟨hle, -⟩ := h
  have hcast := two_pow_cast k
  have hpos := two_pow_pos k
  refine Int.not_lt.mp fun hlt => ?_
  have hgap := Int.mul_le_mul_of_nonneg_right (show b + 1 ≤ t from hlt) (Int.le_of_lt hpos)
  rw [Int.add_mul, Int.one_mul] at hgap
  omega

theorem nearestInt_ge {b : Int} (hn : b * 2 ^ k ≤ n) : b ≤ t := by
  obtain ⟨hle, -⟩ := h
  have hcast := two_pow_cast k
  have hpos := two_pow_pos k
  refine Int.not_lt.mp fun hlt => ?_
  have hgap := Int.mul_le_mul_of_nonneg_right (show t + 1 ≤ b from hlt) (Int.le_of_lt hpos)
  rw [Int.add_mul, Int.one_mul] at hgap
  omega

/-- A number below an even bound rounds to the bound exactly from half a step beneath it on. -/
theorem nearestInt_eq_iff_of_even {b : Int} (hb : b % 2 = 0) (hn : n < b * 2 ^ k) : t = b ↔ 2 * (b * 2 ^ k) - 2 ^ k ≤ 2 * n := by
  have htb := nearestInt_le h hn
  have hbt := nearestInt_ge h (b := b - 1)
  obtain ⟨hle, htie⟩ := h
  have hcast := two_pow_cast k
  have hpos := two_pow_pos k
  rw [Int.sub_mul, Int.one_mul] at hbt
  constructor
  · rintro rfl
    omega
  · intro hge
    refine Int.le_antisymm htb (Int.not_lt.mp fun hlt => ?_)
    obtain rfl : t = b - 1 := Int.le_antisymm (Int.le_sub_one_of_lt hlt) (hbt (by omega))
    rw [Int.sub_mul, Int.one_mul] at hle htie
    have heven := htie (by omega)
    omega

end Nearest

/-! ### The numbers of a format -/

theorem two_le_eb {f : Fmt} (hf : IsFormat f) : 2 ≤ f.eb := by rcases hf with rfl | rfl | rfl <;> decide
theorem one_le_fb {f : Fmt} (hf : IsFormat f) : 1 ≤ f.fb := by rcases hf with rfl | rfl | rfl <;> decide

theorem bias_eq {f : Fmt} (hf : IsFormat f) : (f.bias : Int) + f.fb = unitExp f + 1 := by
  have hpow : 2 ^ 1 ≤ 2 ^ (f.eb - 1) := two_pow_le (Nat.le_sub_of_add_le (two_le_eb hf))
  rw [Fmt.bias, unitExp]
  omega

theorem inf_eq {f : Fmt} (hf : IsFormat f) : f.inf = (2 ^ f.eb - 3 + 2) * 2 ^ f.fb := by
  have hpow : 2 ^ 2 ≤ 2 ^ f.eb := two_pow_le (two_le_eb hf)
  have hsub : 2 ^ f.eb - 1 = 2 ^ f.eb - 3 + 2 := by omega
  rw [Fmt.inf, hsub]

theorem inf_lt_sign (f : Fmt) : f.inf < f.sign := by
  rw [Fmt.inf, Fmt.sign, Nat.pow_add]
  exact Nat.mul_lt_mul_of_pos_right (Nat.sub_lt (Nat.two_pow_pos _) Nat.one_pos) (Nat.two_pow_pos _)

/-- The number of an encoding without its sign, as a multiple of the least positive number. -/
def magUnits (f : Fmt) (c : Nat) : Nat := if c / 2 ^ f.fb = 0 then c % 2 ^ f.fb else (2 ^ f.fb + c % 2 ^ f.fb) * 2 ^ (c / 2 ^ f.fb - 1)

/-- A number with a sign. -/
def signed (neg : Bool) (n : Int) : Int := if neg then -n else n

theorem units_eq (f : Fmt) (b : Nat) : units f b = signed (decide (negEnc f b)) (magUnits f (b % f.sign)) := by
  have hmod : b % 2 ^ (f.eb + f.fb) % 2 ^ f.fb = b % 2 ^ f.fb := Nat.mod_mod_of_dvd b (Nat.pow_dvd_pow 2 (Nat.le_add_left _ _))
  rw [units, signed, magUnits, Fmt.sign, hmod]
  generalize b % 2 ^ (f.eb + f.fb) / 2 ^ f.fb = x
  have hmag : (if x = 0 then ((b % 2 ^ f.fb : Nat) : Int) else (2 ^ f.fb + (b % 2 ^ f.fb : Nat)) * 2 ^ (x - 1)) =
      ((if x = 0 then b % 2 ^ f.fb else (2 ^ f.fb + b % 2 ^ f.fb) * 2 ^ (x - 1) : Nat) : Int) := by
    by_cases hx : x = 0
    · rw [if_pos hx, if_pos hx]
    · rw [if_neg hx, if_neg hx, Int.natCast_mul, Int.natCast_add, two_pow_cast, two_pow_cast]
  rw [hmag]
  by_cases hneg : negEnc f b
  · rw [if_pos hneg, if_pos (decide_eq_true hneg)]
  · rw [if_neg hneg, if_neg (fun h => hneg (of_decide_eq_true h))]

/-- In the binade `j` (with the subnormal numbers in binade 0) the encodings count the multiples of `2 ^ j`, up to the least number of the next binade. -/
theorem magUnits_binade (f : Fmt) {j n : Nat} (hlo : j = 0 ∨ 2 ^ f.fb ≤ n) (hhi : n ≤ 2 ^ (f.fb + 1)) : magUnits f (j * 2 ^ f.fb + n) = n * 2 ^ j := by
  have hpos : 0 < 2 ^ f.fb := Nat.two_pow_pos _
  rw [Nat.pow_succ] at hhi
  unfold magUnits
  generalize 2 ^ f.fb = p at *
  rcases Nat.lt_or_ge n p with hn | hn
  · obtain rfl : j = 0 := by omega
    rw [Nat.zero_mul, Nat.zero_add, Nat.div_eq_of_lt hn, Nat.mod_eq_of_lt hn, if_pos rfl, Nat.pow_zero, Nat.mul_one]
  rcases Nat.lt_or_ge n (p * 2) with hn' | hn'
  · have hsplit : j * p + n = n - p + p * (j + 1) := by rw [Nat.mul_succ, Nat.mul_comm p j]; omega
    have hr : n - p < p := by omega
    rw [hsplit, Nat.add_mul_div_left _ _ hpos, Nat.add_mul_mod_self_left, Nat.div_eq_of_lt hr, Nat.mod_eq_of_lt hr, Nat.zero_add,
      if_neg (Nat.succ_ne_zero j), Nat.add_sub_cancel' hn, Nat.add_sub_cancel]
  · obtain rfl : n = p * 2 := Nat.le_antisymm hhi hn'
    have hsplit : j * p + p * 2 = p * (j + 2) := by rw [Nat.mul_comm j p, ← Nat.mul_add]
    rw [hsplit, Nat.mul_div_cancel_left _ hpos, Nat.mul_mod_right, if_neg (Nat.succ_ne_zero (j + 1)), Nat.add_zero, Nat.mul_assoc, ← Nat.pow_succ']
    rfl

/-- From the binade `j` on the numbers of a format are multiples of `2 ^ j`. -/
theorem dvd_magUnits_or_lt (f : Fmt) (j c : Nat) : 2 ^ j ∣ magUnits f c ∨ magUnits f c < 2 ^ (f.fb + j) := by
  have hr : c % 2 ^ f.fb < 2 ^ f.fb := Nat.mod_lt _ (Nat.two_pow_pos _)
  unfold magUnits
  generalize c / 2 ^ f.fb = x
  by_cases hx : x = 0
  · rw [if_pos hx]
    exact .inr (Nat.lt_of_lt_of_le hr (two_pow_le (Nat.le_add_right _ _)))
  rw [if_neg hx]
  rcases Nat.lt_or_ge j x with hj | hj
  · exact .inl (Nat.dvd_trans (Nat.pow_dvd_pow 2 (by omega)) (Nat.dvd_mul_left _ _))
  · right
    have hexp : f.fb + 1 + (x - 1) = f.fb + x := by omega
    calc (2 ^ f.fb + c % 2 ^ f.fb) * 2 ^ (x - 1) < 2 ^ (f.fb + 1) * 2 ^ (x - 1) :=
          Nat.mul_lt_mul_of_pos_right (by rw [Nat.pow_succ]; omega) (Nat.two_pow_pos _)
      _ = 2 ^ (f.fb + x) := by rw [← Nat.pow_add, hexp]
      _ ≤ 2 ^ (f.fb + j) := two_pow_le (Nat.add_le_add_left hj _)

/-! ### Signs -/

theorem natAbs_signed (neg : Bool) (n : Int) : (signed neg n).natAbs = n.natAbs := by
  cases neg
  · rfl
  · exact Int.natAbs_neg n

theorem signed_signed (neg : Bool) (n : Int) : signed neg (signed neg n) = n := by
  cases neg
  · rfl
  · exact Int.neg_neg n

theorem signed_mul (neg : Bool) (n p : Int) : signed neg n * p = signed neg (n * p) := by
  cases neg
  · rfl
  · exact Int.neg_mul n p

theorem natAbs_signed_sub (neg : Bool) (n m p : Int) : (signed neg n - m * p).natAbs = (n - signed neg m * p).natAbs := by
  rw [signed_mul]
  cases neg
  · rfl
  · simp only [signed, if_true]
    omega

/-- An encoding with a sign bit, of the encoding without it. -/
def encSigned (f : Fmt) (neg : Bool) (c : Nat) : Nat := (if neg then f.sign else 0) + c

theorem encSigned_false (f : Fmt) (c : Nat) : encSigned f false c = c := Nat.zero_add c
theorem encSigned_true (f : Fmt) (c : Nat) : encSigned f true c = f.sign + c := rfl

section EncSigned
variable {f : Fmt} (neg : Bool) {c : Nat} (hc : c ≤ f.inf)
include hc

theorem encSigned_encoding : Encoding f (encSigned f neg c) := by
  have hs := inf_lt_sign f
  change encSigned f neg c < 2 * f.sign
  cases neg
  · rw [encSigned_false]; omega
  · rw [encSigned_true]; omega

theorem negEnc_encSigned : negEnc f (encSigned f neg c) ↔ neg = true := by
  have hs := inf_lt_sign f
  change f.sign ≤ encSigned f neg c ↔ _
  cases neg
  · exact iff_of_false (by rw [encSigned_false]; omega) Bool.false_ne_true
  · exact iff_of_true (by rw [encSigned_true]; omega) rfl

theorem encSigned_mod : encSigned f neg c % f.sign = c := by
  have hlt : c < f.sign := Nat.lt_of_le_of_lt hc (inf_lt_sign f)
  cases neg
  · rw [encSigned_false, Nat.mod_eq_of_lt hlt]
  · rw [encSigned_true, Nat.add_mod_left, Nat.mod_eq_of_lt hlt]

theorem decide_negEnc_encSigned : decide (negEnc f (encSigned f neg c)) = neg :=
  Bool.eq_iff_iff.mpr (decide_eq_true_iff.trans (negEnc_encSigned neg hc))

theorem units_encSigned : units f (encSigned f neg c) = signed neg (magUnits f c) := by
  rw [units_eq, encSigned_mod neg hc, decide_negEnc_encSigned neg hc]

end EncSigned

theorem encSigned_mod_two {f : Fmt} (hf : IsFormat f) (neg : Bool) (c : Nat) : encSigned f neg c % 2 = c % 2 := by
  have hle : 1 ≤ f.eb + f.fb := Nat.le_trans (one_le_fb hf) (Nat.le_add_left _ _)
  obtain ⟨k, hk⟩ : 2 ∣ f.sign := Nat.pow_dvd_pow 2 hle
  cases neg
  · rw [encSigned_false]
  · rw [encSigned_true]; omega

theorem dvd_or_lt_of_natAbs_units (f : Fmt) (j q : Nat) {z : Int} (hz : z.natAbs = (units f q).natAbs) : 2 ^ j ∣ z ∨ z < 2 ^ (f.fb + j) := by
  have hmag : z.natAbs = magUnits f (q % f.sign) := by rw [hz, units_eq, natAbs_signed, Int.natAbs_natCast]
  rcases dvd_magUnits_or_lt f j (q % f.sign) with hd | hl
  · left
    rw [← hmag] at hd
    exact Int.natAbs_dvd_natAbs.mp (by rwa [natAbs_two_pow])
  · right
    rw [← hmag] at hl
    have hcast := two_pow_cast (f.fb + j)
    omega

/-! ### Rounding within a binade -/

/-- A number of the binade `j` lies nearest to the nearest multiple of `2 ^ j`, among the multiples of `2 ^ j` and everything below the binade. -/
theorem nearest_in_binade {N n z : Int} {k j p : Nat} (hn : NearestInt N (j + k) n) (hlo : j = 0 ∨ 2 ^ p * 2 ^ (j + k) ≤ N)
    (hz : 2 ^ j ∣ z ∨ z < 2 ^ (p + j)) :
    (N - n * 2 ^ j * 2 ^ k).natAbs ≤ (N - z * 2 ^ k).natAbs ∧
      ((N - n * 2 ^ j * 2 ^ k).natAbs = (N - z * 2 ^ k).natAbs → n * 2 ^ j ≠ z → n % 2 = 0) := by
  rw [Int.mul_assoc, ← Int.pow_add]
  by_cases hd : (2 : Int) ^ j ∣ z
  · obtain ⟨t, rfl⟩ := hd
    have ht : 2 ^ j * t * 2 ^ k = t * 2 ^ (j + k) := by rw [Int.mul_comm (2 ^ j) t, Int.mul_assoc, ← Int.pow_add]
    obtain ⟨hle, htie⟩ := nearestInt_le_of_int hn t
    rw [ht]
    exact ⟨hle, fun heq hne => htie heq fun h => hne (by rw [h, Int.mul_comm])⟩
  · have hbelow : z < 2 ^ (p + j) := hz.resolve_left hd
    have hj : j ≠ 0 := fun h => hd (by rw [h]; exact Int.one_dvd z)
    have hN := hlo.resolve_left hj
    have hle := (nearestInt_le_of_int hn (2 ^ p)).1
    have hlt := Int.mul_lt_mul_of_pos_right hbelow (two_pow_pos k)
    rw [Int.pow_add, Int.mul_assoc, ← Int.pow_add] at hlt
    exact ⟨by omega, fun heq => by omega⟩

section Binade
variable {f : Fmt} {N k j n : Nat} (hn : NearestInt N (j + k) n) (hlo : j = 0 ∨ 2 ^ f.fb * 2 ^ (j + k) ≤ N) (hhi : N < 2 ^ (f.fb + 1) * 2 ^ (j + k))
include hn

include hlo in
theorem binade_ge : j = 0 ∨ 2 ^ f.fb ≤ n := by
  refine hlo.imp_right fun h => ?_
  have hge := nearestInt_ge hn (b := (2 ^ f.fb : Nat)) (by rw [← two_pow_cast, ← Int.natCast_mul]; exact Int.ofNat_le.mpr h)
  exact Int.ofNat_le.mp hge

include hhi in
theorem binade_le : n ≤ 2 ^ (f.fb + 1) := by
  have hle := nearestInt_le hn (b := (2 ^ (f.fb + 1) : Nat)) (by rw [← two_pow_cast, ← Int.natCast_mul]; exact Int.ofNat_lt.mpr hhi)
  exact Int.ofNat_le.mp hle

include hlo hhi in
/-- The rounded encoding reaches that of the infinity exactly where the magnitude overflows. -/
theorem inf_le_iff (hf : IsFormat f) : f.inf ≤ j * 2 ^ f.fb + n ↔ (2 ^ (f.fb + 2) - 1) * 2 ^ (2 ^ f.eb - 3) * 2 ^ k ≤ 2 * N := by
  have hge := binade_ge hn hlo
  have hle := binade_le hn hhi
  rw [inf_eq hf, Nat.mul_assoc, ← Nat.pow_add, Nat.sub_mul, Nat.one_mul]
  generalize 2 ^ f.eb - 3 = J at *
  have hF2 : 2 ^ (f.fb + 1) = 2 * 2 ^ f.fb := Nat.pow_succ'
  have hF4 : 2 ^ (f.fb + 2) = 4 * 2 ^ f.fb := by rw [Nat.pow_add, Nat.mul_comm]
  have hF : 1 ≤ 2 ^ f.fb := Nat.two_pow_pos _
  rw [hF2, Nat.mul_assoc] at hhi
  rw [hF4, Nat.mul_assoc]
  rcases Nat.lt_trichotomy j J with hj | rfl | hj
  · have hstep : 2 ^ f.fb * (2 * 2 ^ (j + k)) ≤ 2 ^ f.fb * 2 ^ (J + k) :=
      Nat.mul_le_mul_left _ (by rw [← Nat.pow_succ']; exact two_pow_le (by omega))
    have hone := Nat.mul_le_mul_right (2 ^ (J + k)) hF
    have henc := Nat.mul_le_mul_right (2 ^ f.fb) (show j + 3 ≤ J + 2 by omega)
    rw [Nat.add_mul] at henc
    rw [Nat.mul_left_comm] at hstep
    exact iff_of_false (by omega) (by omega)
  · have heven : ((2 ^ (f.fb + 1) : Nat) : Int) % 2 = 0 := by omega
    have hcast := two_pow_cast (j + k)
    have hprod : ((2 ^ (f.fb + 1) : Nat) : Int) * 2 ^ (j + k) = (2 * (2 ^ f.fb * 2 ^ (j + k)) : Nat) := by
      rw [hF2, ← hcast, ← Int.natCast_mul, Nat.mul_assoc]
    have h := nearestInt_eq_iff_of_even hn heven (by omega)
    rw [hprod] at h
    rw [Nat.add_mul]
    omega
  · have hstep : 2 ^ f.fb * (2 * 2 ^ (J + k)) ≤ 2 ^ f.fb * 2 ^ (j + k) :=
      Nat.mul_le_mul_left _ (by rw [← Nat.pow_succ']; exact two_pow_le (by omega))
    have hN := hlo.resolve_left (by omega)
    have hn' := hge.resolve_left (by omega)
    have henc := Nat.mul_le_mul_right (2 ^ f.fb) (show J + 1 ≤ j from hj)
    rw [Nat.add_mul] at henc
    have hpos := Nat.two_pow_pos (J + k)
    rw [Nat.mul_left_comm] at hstep
    exact iff_of_true (by rw [Nat.add_mul]; omega) (by omega)

include hlo hhi in
/-- No number of the format, of either sign, lies nearer than the rounded encoding. -/
theorem encSigned_nearest (hf : IsFormat f) (neg : Bool) (hfin : j * 2 ^ f.fb + n ≤ f.inf) (q : Nat) :
    let r := encSigned f neg (j * 2 ^ f.fb + n)
    (signed neg N - units f r * 2 ^ k).natAbs ≤ (signed neg N - units f q * 2 ^ k).natAbs ∧
      ((signed neg N - units f r * 2 ^ k).natAbs = (signed neg N - units f q * 2 ^ k).natAbs → units f r ≠ units f q → r % 2 = 0) := by
  intro r
  have hr : units f r = signed neg (n * 2 ^ j) := by
    rw [units_encSigned neg hfin, magUnits_binade f (binade_ge hn hlo) (binade_le hn hhi), Int.natCast_mul, two_pow_cast]
  have hlo' : j = 0 ∨ (2 : Int) ^ f.fb * 2 ^ (j + k) ≤ N :=
    hlo.imp_right fun h => by rw [← two_pow_cast, ← two_pow_cast, ← Int.natCast_mul]; exact Int.ofNat_le.mpr h
  obtain ⟨hle, htie⟩ := nearest_in_binade hn hlo' (dvd_or_lt_of_natAbs_units f j q (natAbs_signed neg _))
  rw [natAbs_signed_sub, natAbs_signed_sub, hr, signed_signed]
  refine ⟨hle, fun heq hne => ?_⟩
  have hn2 : (n : Int) % 2 = 0 := htie heq fun h => hne (by rw [h, signed_signed])
  obtain ⟨i, hi⟩ : 2 ∣ j * 2 ^ f.fb := Nat.dvd_trans (Nat.pow_dvd_pow 2 (one_le_fb hf)) (Nat.dvd_mul_left _ _)
  rw [encSigned_mod_two hf]
  omega

include hlo hhi in
/-- The encoding of the nearest multiple of the binade's step, or the infinity beyond the largest finite number, is the rounded number. -/
theorem roundedTo_binade (hf : IsFormat f) (neg : Bool) : RoundedTo f (signed neg N) k (encSigned f neg (min (j * 2 ^ f.fb + n) f.inf)) := by
  have hc : min (j * 2 ^ f.fb + n) f.inf ≤ f.inf := Nat.min_le_right _ _
  have hover := inf_le_iff hn hlo hhi hf
  refine ⟨encSigned_encoding neg hc, fun h0 => ?_, ?_⟩
  · rw [negEnc_encSigned neg hc]
    cases neg
    · exact iff_of_false Bool.false_ne_true (Int.not_lt.mpr (Int.natCast_nonneg N))
    · exact iff_of_true rfl (by simp only [signed, if_true] at *; omega)
  · rw [natAbs_signed, Int.natAbs_natCast]
    by_cases h : f.inf ≤ j * 2 ^ f.fb + n
    · rw [if_pos (hover.mp h)]
      exact (encSigned_mod neg hc).trans (Nat.min_eq_right h)
    · have hlt := Nat.not_le.mp h
      rw [if_neg fun h' => h (hover.mpr h'), Nat.min_eq_left (Nat.le_of_lt hlt)]
      exact ⟨Nat.lt_of_le_of_lt (Nat.le_of_eq (encSigned_mod neg (Nat.le_of_lt hlt))) hlt, fun q _ _ => encSigned_nearest hn hlo hhi hf neg (Nat.le_of_lt hlt) q⟩

end Binade

/-! ### Rounding to a format -/

/-- A number of units with its binary point: the magnitude `m * 2 ^ e` is `num / 2 ^ den` units. -/
def num (f : Fmt) (m : Nat) (e : Int) : Nat := m * 2 ^ (e + unitExp f).toNat
def den (f : Fmt) (e : Int) : Nat := (-(e + unitExp f)).toNat

/-- What `roundF` computes: the binade `j` of the magnitude and the nearest multiple of `2 ^ j` to it. -/
theorem roundF_binade {f : Fmt} (hf : IsFormat f) (neg : Bool) (m : Nat) (e : Int) :
    ∃ j n : Nat, roundF f neg m e = encSigned f neg (min (j * 2 ^ f.fb + n) f.inf) ∧ NearestInt (num f m e) (j + den f e) n ∧
      (j = 0 ∨ 2 ^ f.fb * 2 ^ (j + den f e) ≤ num f m e) ∧ num f m e < 2 ^ (f.fb + 1) * 2 ^ (j + den f e) := by
  have hu := bias_eq hf
  unfold num den
  by_cases hm : m = 0
  · subst hm
    refine ⟨0, 0, by rw [roundF, if_pos rfl, Nat.zero_mul, Nat.zero_add, Nat.zero_min]; rfl, ?_, .inl rfl, ?_⟩
    · have h := nearestInt_mul_two_pow 0 (0 + (-(e + unitExp f)).toNat)
      rw [Int.zero_mul] at h
      rw [Nat.zero_mul]
      exact h
    · rw [Nat.zero_mul]
      exact Nat.mul_pos (Nat.two_pow_pos _) (Nat.two_pow_pos _)
  generalize hemin : (1 : Int) - f.bias = emin
  generalize htop : max ((m.log2 : Int) + e) emin = top
  obtain ⟨j, hj⟩ : ∃ j : Nat, (top - emin).toNat = j := ⟨_, rfl⟩
  have hlo : 2 ^ m.log2 ≤ m := Nat.log2_self_le hm
  have hhi : m < 2 ^ (m.log2 + 1) := Nat.lt_log2_self
  refine ⟨j, rneInt m (e - (top - f.fb)), ?_, ?_, ?_, ?_⟩
  · rw [roundF, if_neg hm]
    simp only [hemin, htop, hj]
    rfl
  · have h := nearest_rneInt m (e := e - (top - f.fb)) (q := j + (-(e + unitExp f)).toNat) (by omega)
    have hexp : (e - (top - f.fb) + (j + (-(e + unitExp f)).toNat : Nat)).toNat = (e + unitExp f).toNat := by omega
    rwa [hexp] at h
  · rcases Nat.eq_zero_or_pos j with h | h
    · exact .inl h
    · have hexp : f.fb + (j + (-(e + unitExp f)).toNat) = m.log2 + (e + unitExp f).toNat := by omega
      rw [← Nat.pow_add, hexp, Nat.pow_add]
      exact .inr (Nat.mul_le_mul_right _ hlo)
  · have hexp : m.log2 + 1 + (e + unitExp f).toNat ≤ f.fb + 1 + (j + (-(e + unitExp f)).toNat) := by omega
    rw [← Nat.pow_add]
    refine Nat.lt_of_lt_of_le (Nat.mul_lt_mul_of_pos_right hhi (Nat.two_pow_pos _)) ?_
    rw [← Nat.pow_add]
    exact two_pow_le hexp

/-- `roundF` rounds its exact argument (spec/02 R36). -/
theorem roundedTo_roundF {f : Fmt} (hf : IsFormat f) (neg : Bool) (m : Nat) (e : Int) :
    RoundedTo f (signed neg (num f m e)) (den f e) (roundF f neg m e) := by
  obtain ⟨j, n, hr, hn, hlo, hhi⟩ := roundF_binade hf neg m e
  rw [hr]
  exact roundedTo_binade hn hlo hhi hf neg

/-! ### One number in two scales -/

/-- Two pairs in proportion, by positive factors, are in the same order. -/
theorem le_iff_of_scaled {a a' b b' p p' : Nat} (hp : 0 < p) (hp' : 0 < p') (ha : a' * p = a * p') (hb : b' * p = b * p') : a' ≤ b' ↔ a ≤ b := by
  rw [← Nat.mul_le_mul_right_iff hp, ha, hb, Nat.mul_le_mul_right_iff hp']

/-- A rounded number is so whatever power of two its numerator stands over. -/
theorem roundedTo_congr {f : Fmt} {n n' : Int} {k k' r : Nat} (h : n' * 2 ^ k = n * 2 ^ k') (hr : RoundedTo f n k r) : RoundedTo f n' k' r := by
  have hp := Nat.two_pow_pos k
  have hp' := Nat.two_pow_pos k'
  have hdist : ∀ u : Int, (n' - u * 2 ^ k').natAbs * 2 ^ k = (n - u * 2 ^ k).natAbs * 2 ^ k' := fun u => by
    rw [← natAbs_two_pow k, ← natAbs_two_pow k', ← Int.natAbs_mul, ← Int.natAbs_mul, Int.sub_mul, Int.sub_mul, h, Int.mul_right_comm]
  have hmag : 2 * n'.natAbs * 2 ^ k = 2 * n.natAbs * 2 ^ k' := by
    have h0 := hdist 0
    rw [Int.zero_mul, Int.zero_mul, Int.sub_zero, Int.sub_zero] at h0
    rw [Nat.mul_assoc, Nat.mul_assoc, h0]
  have hle : ∀ x y : Int, (n' - x * 2 ^ k').natAbs ≤ (n' - y * 2 ^ k').natAbs ↔ (n - x * 2 ^ k).natAbs ≤ (n - y * 2 ^ k).natAbs := fun x y =>
    le_iff_of_scaled hp hp' (hdist x) (hdist y)
  have hneg : n' < 0 ↔ n < 0 := by
    rw [← Int.mul_lt_mul_right (two_pow_pos k), h, ← Int.mul_lt_mul_right (b := n) (two_pow_pos k'), Int.zero_mul, Int.zero_mul]
  have hpos : 0 < n' ↔ 0 < n := by
    rw [← Int.mul_lt_mul_right (two_pow_pos k), h, ← Int.mul_lt_mul_right (c := n) (two_pow_pos k'), Int.zero_mul, Int.zero_mul]
  have hover : (2 ^ (f.fb + 2) - 1) * 2 ^ (2 ^ f.eb - 3) * 2 ^ k' ≤ 2 * n'.natAbs ↔ (2 ^ (f.fb + 2) - 1) * 2 ^ (2 ^ f.eb - 3) * 2 ^ k ≤ 2 * n.natAbs :=
    le_iff_of_scaled hp hp' (Nat.mul_right_comm _ _ _) hmag
  obtain ⟨henc, hsign, hcase⟩ := hr
  refine ⟨henc, fun h0 => (hsign (by omega)).trans hneg.symm, ?_⟩
  by_cases hT : (2 ^ (f.fb + 2) - 1) * 2 ^ (2 ^ f.eb - 3) * 2 ^ k ≤ 2 * n.natAbs
  · rw [if_pos hT] at hcase
    rw [if_pos (hover.mpr hT)]
    exact hcase
  · rw [if_neg hT] at hcase
    rw [if_neg fun h' => hT (hover.mp h')]
    obtain ⟨hfin, hnear⟩ := hcase
    refine ⟨hfin, fun q hq hqf => ?_⟩
    obtain ⟨hqle, htie⟩ := hnear q hq hqf
    exact ⟨(hle _ _).mpr hqle, fun heq => htie (Nat.le_antisymm hqle ((hle _ _).mp (Nat.le_of_eq heq.symm)))⟩

/-- A sign, a mantissa and an exponent stand for `n / 2 ^ k`, in units of `2 ^ -p`. -/
def Stands (p : Nat) (neg : Bool) (m : Nat) (e : Int) (n : Int) (k : Nat) : Prop :=
  0 ≤ e + p + k ∧ n = signed neg ((m * 2 ^ (e + p + k).toNat : Nat) : Int)

theorem stands_zero_iff {p : Nat} {neg : Bool} {m : Nat} {e n : Int} {k : Nat} (h : Stands p neg m e n k) : n = 0 ↔ m = 0 := by
  have hpos : 2 ^ (e + p + k).toNat ≠ 0 := Nat.ne_of_gt (Nat.two_pow_pos _)
  rw [← Int.natAbs_eq_zero, h.2, natAbs_signed, Int.natAbs_natCast, Nat.mul_eq_zero]
  exact or_iff_left hpos

theorem signed_not (neg : Bool) (n : Int) : signed (!neg) n = -signed neg n := by
  cases neg
  · rfl
  · exact (Int.neg_neg n).symm

theorem signed_bne_mul (na nb : Bool) (a b : Int) : signed (na != nb) (a * b) = signed na a * signed nb b := by
  rw [signed_mul, Int.mul_comm a (signed nb b), signed_mul, Int.mul_comm b a]
  cases na
  · exact congrArg (signed · _) (Bool.false_bne nb)
  · rw [Bool.true_bne, signed_not]
    rfl

theorem signed_natAbs (n : Int) : signed (decide (n < 0)) n.natAbs = n := by
  by_cases h : n < 0
  · rw [decide_eq_true h]
    exact (by omega : -(n.natAbs : Int) = n)
  · rw [decide_eq_false h]
    exact (by omega : (n.natAbs : Int) = n)

theorem stands_not {p : Nat} {neg : Bool} {m : Nat} {e n : Int} {k : Nat} (h : Stands p neg m e n k) : Stands p (!neg) m e (-n) k :=
  ⟨h.1, by rw [signed_not, ← h.2]⟩

theorem stands_ofInt (p k : Nat) (n : Int) {e : Int} (he : 0 ≤ e + p + k) : Stands p (decide (n < 0)) n.natAbs e (n * 2 ^ (e + p + k).toNat) k :=
  ⟨he, by rw [Int.natCast_mul, ← signed_mul, signed_natAbs, two_pow_cast]⟩

theorem stands_mul {p : Nat} {na nb : Bool} {ma mb : Nat} {ea eb x y : Int} (ha : Stands p na ma ea x 0) (hb : Stands p nb mb eb y 0) :
    Stands p (na != nb) (ma * mb) (ea + eb) (x * y) p := by
  obtain ⟨hea, rfl⟩ := ha
  obtain ⟨heb, rfl⟩ := hb
  have hexp : (ea + eb + p + p).toNat = (ea + p + (0 : Nat)).toNat + (eb + p + (0 : Nat)).toNat := by omega
  refine ⟨by omega, ?_⟩
  rw [hexp, Nat.pow_add, ← signed_bne_mul, ← Int.natCast_mul, Nat.mul_mul_mul_comm]

/-- The same number with `c` more binary places, in units of `2 ^ -p'`. -/
theorem stands_shift {p : Nat} {neg : Bool} {m : Nat} {e n : Int} {k : Nat} (h : Stands p neg m e n k) (c : Nat) {p' k' : Nat} (hp : p' + k' = p + k + c) :
    Stands p' neg m e (n * 2 ^ c) k' := by
  obtain ⟨he, rfl⟩ := h
  have hexp : (e + p' + k').toNat = (e + p + k).toNat + c := by omega
  refine ⟨by omega, ?_⟩
  rw [hexp, Nat.pow_add, ← Nat.mul_assoc, Int.natCast_mul _ (2 ^ c), ← signed_mul, two_pow_cast]

theorem scaled_mul {p : Nat} {neg : Bool} {m : Nat} {e n : Int} {k : Nat} (h : Stands p neg m e n k) {e0 : Int} (hle : e0 ≤ e) (h0 : 0 ≤ e0 + p + k) :
    scaled neg m e e0 * 2 ^ (e0 + p + k).toNat = n := by
  obtain ⟨-, rfl⟩ := h
  have hexp : (e + p + k).toNat = (e - e0).toNat + (e0 + p + k).toNat := by omega
  have hs : scaled neg m e e0 = signed neg ((m * 2 ^ (e - e0).toNat : Nat) : Int) := rfl
  rw [hs, signed_mul, ← two_pow_cast, ← Int.natCast_mul, Nat.mul_assoc, ← Nat.pow_add, hexp]

/-- The exact sum of two finite values: its number, and its sign where it is zero. -/
theorem addV_stands {p : Nat} {na nb : Bool} {ma mb : Nat} {ea eb x y : Int} {k : Nat} (ha : Stands p na ma ea x k) (hb : Stands p nb mb eb y k) :
    ∃ (neg : Bool) (m : Nat) (e : Int), addV (.fin na ma ea) (.fin nb mb eb) = .fin neg m e ∧
      Stands p neg m e (x + y) k ∧ (m = 0 → (neg = true ↔ ma = 0 ∧ na = true ∧ nb = true)) := by
  have hmin : 0 ≤ min ea eb + p + k := by
    have := ha.1
    have := hb.1
    omega
  by_cases hz : ma = 0 ∧ mb = 0
  · have hx := (stands_zero_iff ha).mpr hz.1
    have hy := (stands_zero_iff hb).mpr hz.2
    refine ⟨na && nb, 0, min ea eb, if_pos hz, ⟨hmin, ?_⟩, fun _ => ?_⟩
    · rw [hx, hy, Nat.zero_mul]
      cases (na && nb) <;> rfl
    · rw [Bool.and_eq_true, and_iff_right hz.1]
  · have hsum := stands_ofInt p k (scaled na ma ea (min ea eb) + scaled nb mb eb (min ea eb)) hmin
    rw [Int.add_mul, scaled_mul ha (Int.min_le_left ea eb) hmin, scaled_mul hb (Int.min_le_right ea eb) hmin] at hsum
    refine ⟨_, _, _, if_neg hz, hsum, fun h0 => ?_⟩
    have hn := Int.natAbs_eq_zero.mp h0
    have hxy := (stands_zero_iff hsum).mpr h0
    refine iff_of_false (fun h => ?_) fun h => hz ⟨h.1, (stands_zero_iff hb).mp ?_⟩
    · have := of_decide_eq_true h
      omega
    · have hx := (stands_zero_iff ha).mpr h.1
      omega

/-! ### Encodings read and written -/

theorem decodeF_of_finEnc {f : Fmt} (hf : IsFormat f) {a : Nat} (ha : finEnc f a) :
    ∃ (m : Nat) (e : Int), decodeF f a = .fin (decide (negEnc f a)) m e ∧ 0 ≤ e + unitExp f ∧
      magUnits f (a % f.sign) = m * 2 ^ (e + unitExp f).toNat := by
  have hu := bias_eq hf
  have hfin : a % f.sign < f.inf := ha
  unfold decodeF magUnits
  dsimp only
  rw [if_neg (Nat.ne_of_lt hfin), if_neg (Nat.not_lt_of_gt hfin)]
  generalize a % f.sign / 2 ^ f.fb = x
  by_cases hx : x = 0
  · have hexp : (1 - (f.bias : Int) - f.fb + unitExp f).toNat = 0 := by omega
    rw [if_pos hx, if_pos hx]
    exact ⟨_, _, rfl, by omega, by rw [hexp, Nat.pow_zero, Nat.mul_one]⟩
  · have hexp : ((x : Int) - f.bias - f.fb + unitExp f).toNat = x - 1 := by omega
    rw [if_neg hx, if_neg hx]
    exact ⟨_, _, rfl, by omega, by rw [hexp]⟩

/-- A finite encoding stands for its units. -/
theorem decodeF_stands {f : Fmt} (hf : IsFormat f) {a : Nat} (ha : finEnc f a) :
    ∃ (m : Nat) (e : Int), decodeF f a = .fin (decide (negEnc f a)) m e ∧ Stands (unitExp f) (decide (negEnc f a)) m e (units f a) 0 := by
  obtain ⟨m, e, hd, he, hm⟩ := decodeF_of_finEnc hf ha
  exact ⟨m, e, hd, by omega, by rw [units_eq, hm, Int.natCast_zero, Int.add_zero]⟩

theorem decodeF_of_isNan {f : Fmt} {b : Nat} (h : isNan f b = true) : decodeF f b = .nan := by
  have hgt : f.inf < b % f.sign := of_decide_eq_true h
  rw [decodeF]
  rw [if_neg (Nat.ne_of_gt hgt), if_pos hgt]

theorem decodeF_encSigned_inf (f : Fmt) (neg : Bool) : decodeF f (encSigned f neg f.inf) = .inf neg := by
  rw [decodeF, encSigned_mod neg (Nat.le_refl _), if_pos rfl]
  exact congrArg Val.inf (decide_negEnc_encSigned neg (Nat.le_refl _))

theorem decodeF_inf (f : Fmt) : decodeF f f.inf = .inf false := by
  rw [← decodeF_encSigned_inf f false, encSigned_false]

theorem decodeF_neg_inf (f : Fmt) : decodeF f (f.inf + f.sign) = .inf true := by
  rw [← decodeF_encSigned_inf f true, encSigned_true, Nat.add_comm]

theorem encodeF_inf (f : Fmt) : encodeF f (.inf false) = f.inf := rfl
theorem encodeF_neg_inf (f : Fmt) : encodeF f (.inf true) = f.inf + f.sign := rfl

theorem roundF_zero (f : Fmt) (neg : Bool) (e : Int) : roundF f neg 0 e = zeroEnc f (neg = true) := by cases neg <;> rfl

/-- A value is rounded from the number that it stands for. -/
theorem roundedTo_encodeF {f : Fmt} (hf : IsFormat f) {neg : Bool} {m : Nat} {e n : Int} {k : Nat} (h : Stands (unitExp f) neg m e n k) :
    RoundedTo f n k (encodeF f (.fin neg m e)) := by
  obtain ⟨hk, rfl⟩ := h
  have hexp : (e + unitExp f + k).toNat + den f e = (e + unitExp f).toNat + k := by
    unfold den
    omega
  refine roundedTo_congr ?_ (roundedTo_roundF hf neg m e)
  rw [signed_mul, signed_mul, ← two_pow_cast, ← two_pow_cast, ← Int.natCast_mul, ← Int.natCast_mul, num, Nat.mul_assoc, Nat.mul_assoc,
    ← Nat.pow_add, ← Nat.pow_add, hexp]

theorem zeroEnc_congr (f : Fmt) {P Q : Prop} [Decidable P] [Decidable Q] (h : P ↔ Q) : zeroEnc f P = zeroEnc f Q := by
  unfold zeroEnc
  by_cases hP : P
  · rw [if_pos hP, if_pos (h.mp hP)]
  · rw [if_neg hP, if_neg fun hQ => hP (h.mpr hQ)]

/-- A value whose number is 0 is written as the zero of its sign. -/
theorem encodeF_of_stands_zero {f : Fmt} {p k : Nat} {neg : Bool} {m : Nat} {e n : Int} (h : Stands p neg m e n k) (hn : n = 0)
    {P : Prop} [Decidable P] (hP : m = 0 → (neg = true ↔ P)) : encodeF f (.fin neg m e) = zeroEnc f P := by
  obtain rfl := (stands_zero_iff h).mp hn
  exact (roundF_zero f neg e).trans (zeroEnc_congr f (hP rfl))

/-! ### The arithmetic (spec/02 R36, spec/05 R99) -/

theorem encodeF_fin {f : Fmt} (hf : IsFormat f) (neg : Bool) (m : Nat) (e : Int) :
    let n : Int := m * 2 ^ (e + unitExp f).toNat
    RoundedTo f (if neg then -n else n) (-(e + unitExp f)).toNat (encodeF f (.fin neg m e)) ∧
      (m = 0 → encodeF f (.fin neg m e) = zeroEnc f (neg = true)) := by
  refine ⟨?_, fun hm => hm ▸ roundF_zero f neg e⟩
  have h := roundedTo_roundF hf neg m e
  rw [num, Int.natCast_mul, two_pow_cast] at h
  exact h

theorem units_of_magUnits {f : Fmt} {a m : Nat} {e : Int} (h : magUnits f (a % f.sign) = m * 2 ^ (e + unitExp f).toNat) :
    units f a = (if negEnc f a then -1 else 1) * (m * 2 ^ (e + unitExp f).toNat) := by
  rw [units_eq, h, Int.natCast_mul, two_pow_cast, signed]
  by_cases hneg : negEnc f a
  · rw [if_pos hneg, if_pos (decide_eq_true hneg), Int.neg_mul, Int.one_mul]
  · rw [if_neg hneg, if_neg (fun h => hneg (of_decide_eq_true h)), Int.one_mul]

/-- A sum is rounded once from the exact sum, an exact zero being -0 where both terms are. -/
theorem encodeF_addV {f : Fmt} (hf : IsFormat f) {na nb : Bool} {ma mb : Nat} {ea eb x y : Int} {k : Nat}
    (ha : Stands (unitExp f) na ma ea x k) (hb : Stands (unitExp f) nb mb eb y k) :
    RoundedTo f (x + y) k (encodeF f (addV (.fin na ma ea) (.fin nb mb eb))) ∧
      (x + y = 0 → encodeF f (addV (.fin na ma ea) (.fin nb mb eb)) = zeroEnc f (x = 0 ∧ na = true ∧ nb = true)) := by
  obtain ⟨neg, m, e, hadd, hsum, hneg⟩ := addV_stands ha hb
  rw [hadd]
  exact ⟨roundedTo_encodeF hf hsum, fun h => encodeF_of_stands_zero hsum h fun hm => by rw [hneg hm, stands_zero_iff ha]⟩

section Arithmetic
variable {f : Fmt} (hf : IsFormat f) {a b c : Nat} (ha : finEnc f a) (hb : finEnc f b)
include hf ha hb

theorem addF_rounds : RoundedTo f (units f a + units f b) 0 (addF f a b) ∧
    (units f a + units f b = 0 → addF f a b = zeroEnc f (units f a = 0 ∧ negEnc f a ∧ negEnc f b)) := by
  obtain ⟨ma, ea, hda, hxa⟩ := decodeF_stands hf ha
  obtain ⟨mb, eb, hdb, hxb⟩ := decodeF_stands hf hb
  obtain ⟨hr, h0⟩ := encodeF_addV hf hxa hxb
  rw [addF, hda, hdb]
  exact ⟨hr, fun h => (h0 h).trans (zeroEnc_congr f (by rw [decide_eq_true_iff, decide_eq_true_iff]))⟩

theorem subF_rounds : RoundedTo f (units f a - units f b) 0 (subF f a b) ∧
    (units f a - units f b = 0 → subF f a b = zeroEnc f (units f a = 0 ∧ negEnc f a ∧ ¬ negEnc f b)) := by
  obtain ⟨ma, ea, hda, hxa⟩ := decodeF_stands hf ha
  obtain ⟨mb, eb, hdb, hxb⟩ := decodeF_stands hf hb
  obtain ⟨hr, h0⟩ := encodeF_addV hf hxa (stands_not hxb)
  rw [subF, hda, hdb, negV, Int.sub_eq_add_neg]
  exact ⟨hr, fun h => (h0 h).trans (zeroEnc_congr f (by rw [Bool.not_eq_true', decide_eq_false_iff_not, decide_eq_true_iff]))⟩

theorem mulV_decodeF : ∃ (m : Nat) (e : Int), mulV (decodeF f a) (decodeF f b) = .fin (decide (negEnc f a) != decide (negEnc f b)) m e ∧
    Stands (unitExp f) (decide (negEnc f a) != decide (negEnc f b)) m e (units f a * units f b) (unitExp f) := by
  obtain ⟨ma, ea, hda, hxa⟩ := decodeF_stands hf ha
  obtain ⟨mb, eb, hdb, hxb⟩ := decodeF_stands hf hb
  exact ⟨ma * mb, ea + eb, by rw [hda, hdb, mulV], stands_mul hxa hxb⟩

omit hf ha hb in
theorem bne_negEnc : (decide (negEnc f a) != decide (negEnc f b)) = true ↔ ¬ (negEnc f a ↔ negEnc f b) := by
  rw [bne_iff_ne, ne_eq, decide_eq_decide]

theorem mulF_rounds : RoundedTo f (units f a * units f b) (unitExp f) (mulF f a b) ∧
    (units f a * units f b = 0 → mulF f a b = zeroEnc f (¬ (negEnc f a ↔ negEnc f b))) := by
  obtain ⟨m, e, hmul, hx⟩ := mulV_decodeF hf ha hb
  rw [mulF, hmul]
  exact ⟨roundedTo_encodeF hf hx, fun h => encodeF_of_stands_zero hx h fun _ => bne_negEnc⟩

theorem fmaF_rounds (hc : finEnc f c) : RoundedTo f (units f a * units f b + units f c * 2 ^ unitExp f) (unitExp f) (fmaF f a b c) ∧
    (units f a * units f b + units f c * 2 ^ unitExp f = 0 →
      fmaF f a b c = zeroEnc f (units f c = 0 ∧ ¬ (negEnc f a ↔ negEnc f b) ∧ negEnc f c)) := by
  obtain ⟨mp, ep, hmul, hxp⟩ := mulV_decodeF hf ha hb
  obtain ⟨mc, ec, hdc, hxc⟩ := decodeF_stands hf hc
  obtain ⟨hr, h0⟩ := encodeF_addV hf hxp (stands_shift hxc (unitExp f) rfl)
  rw [fmaF, hmul, hdc]
  refine ⟨hr, fun h => (h0 h).trans (zeroEnc_congr f ?_)⟩
  have hz : units f a * units f b = 0 ↔ units f c = 0 := by
    have hprod : units f a * units f b = -(units f c * 2 ^ unitExp f) := by omega
    rw [hprod, Int.neg_eq_zero, Int.mul_eq_zero]
    exact or_iff_left (Int.ne_of_gt (two_pow_pos _))
  rw [hz, bne_negEnc, decide_eq_true_iff]

end Arithmetic

/-! ### Shifts and saturation (spec/00 R6) -/

theorem ediv_of_small {x p : Int} (hlo : -p ≤ x) (hhi : x < p) : x / p = if x < 0 then -1 else 0 := by
  by_cases hx : x < 0
  · rw [if_pos hx]
    exact Int.ediv_eq_neg_one_of_neg_of_le hx (by omega)
  · rw [if_neg hx]
    exact Int.ediv_eq_zero_of_lt (Int.not_lt.mp hx) hhi

/-- An arithmetic right shift floors, by 63 and beyond to -1 or 0. -/
theorem toInt_sraW (a b : Word) : (sraW a b).toInt = a.toInt / 2 ^ b.toNat := by
  have hshift : (sraW a b).toInt = a.toInt / 2 ^ min b.toNat 63 := by
    rw [sraW, BitVec.toInt_sshiftRight, Int.shiftRight_eq_div_pow, two_pow_cast]
  rcases Nat.le_total b.toNat 63 with h | h
  · rw [hshift, Nat.min_eq_left h]
  · have hlo : -2 ^ 63 ≤ a.toInt := BitVec.le_toInt a
    have hhi : a.toInt < 2 ^ 63 := BitVec.toInt_lt
    have hpow : ((2 ^ 63 : Nat) : Int) ≤ (2 ^ b.toNat : Nat) := Int.ofNat_le.mpr (two_pow_le h)
    rw [two_pow_cast, two_pow_cast] at hpow
    rw [hshift, Nat.min_eq_right h, ediv_of_small hlo hhi, ediv_of_small (by omega) (by omega)]

theorem clampI_mem {lo hi : Int} (h : lo ≤ hi) (n : Int) : lo ≤ clampI lo hi n ∧ clampI lo hi n ≤ hi := by
  unfold clampI
  omega

theorem clampI_of_mem {lo hi n : Int} (hlo : lo ≤ n) (hhi : n ≤ hi) : clampI lo hi n = n := by
  unfold clampI
  omega

theorem clampI_nearest {lo hi m : Int} (n : Int) (hlo : lo ≤ m) (hhi : m ≤ hi) : (n - clampI lo hi n).natAbs ≤ (n - m).natAbs := by
  unfold clampI
  omega

/-! ### The conversions (spec/02 R34, R45) -/

/-- The value of an integer element, as the statement reads it. -/
def intVal (t : Ty) (b : Nat) : Int := if t.isSigned then (BitVec.ofNat t.width b).toInt else b

theorem one_le_width (t : Ty) : 1 ≤ t.width := by cases t <;> decide

theorem two_pow_width (t : Ty) : 2 ^ t.width = 2 * 2 ^ (t.width - 1) := by
  rw [← Nat.pow_succ', Nat.succ_eq_add_one, Nat.sub_add_cancel (one_le_width t)]

theorem intOf_eq_intVal (t : Ty) {b : Nat} (hb : b < 2 ^ t.width) : intOf t b = intVal t b := by
  have hw := two_pow_width t
  rw [intOf, intVal, BitVec.toInt_eq_toNat_cond, BitVec.toNat_ofNat, Nat.mod_eq_of_lt hb]
  cases t.isSigned
  · rfl
  · simp only [Bool.true_and, decide_eq_true_eq, if_true]
    by_cases h : 2 ^ (t.width - 1) ≤ b
    · rw [if_pos h, if_neg (by omega)]
    · rw [if_neg h, if_pos (by omega)]

theorem isFormat_fmtOf (t : Ty) : IsFormat (fmtOf t) := by
  cases t with
  | f16 => exact .inl rfl
  | bf16 => exact .inr (.inl rfl)
  | _ => exact .inr (.inr rfl)

theorem isFloat_eq_false {t : Ty} (h : t.isInt = true) : t.isFloat = false := by
  have hcode : t.code ≤ 7 := of_decide_eq_true h
  rw [Ty.isFloat, decide_eq_false (by omega : ¬ 8 ≤ t.code), Bool.false_and]

theorem lo_le_zero (t : Ty) : Ty.lo t ≤ 0 := by
  rw [Ty.lo]
  cases t.isSigned
  · exact Int.le_refl 0
  · exact Int.neg_nonpos_of_nonneg (Int.natCast_nonneg _)

theorem zero_le_hi (t : Ty) : 0 ≤ Ty.hi t := by
  have hw := Nat.two_pow_pos t.width
  have hs := Nat.two_pow_pos (t.width - 1)
  rw [Ty.hi]
  cases t.isSigned
  · exact Int.sub_nonneg_of_le (Int.ofNat_le.mpr hw)
  · exact Int.sub_nonneg_of_le (Int.ofNat_le.mpr hs)

theorem toIntSat_mem (t : Ty) (v : Val) : Ty.lo t ≤ toIntSat t v ∧ toIntSat t v ≤ Ty.hi t := by
  have hlo := lo_le_zero t
  have hhi := zero_le_hi t
  have hle := Int.le_trans hlo hhi
  cases v with
  | nan => exact ⟨hlo, hhi⟩
  | inf neg =>
    cases neg with
    | false => exact ⟨hle, Int.le_refl _⟩
    | true => exact ⟨Int.le_refl _, hle⟩
  | fin neg m e => exact clampI_mem hle _

theorem bitsOfInt_lt (w : Nat) (n : Int) : bitsOfInt w n < 2 ^ w := by
  have hpos : (0 : Int) < (2 ^ w : Nat) := Int.natCast_pos.mpr (Nat.two_pow_pos w)
  rw [bitsOfInt, Int.toNat_lt (Int.emod_nonneg _ (Int.ne_of_gt hpos))]
  exact Int.emod_lt_of_pos _ hpos

theorem lo_eq (t : Ty) : Ty.lo t = if t.isSigned then -2 ^ (t.width - 1) else 0 := by rw [Ty.lo, two_pow_cast]

theorem hi_eq (t : Ty) : Ty.hi t = if t.isSigned then 2 ^ (t.width - 1) - 1 else 2 ^ t.width - 1 := by rw [Ty.hi, two_pow_cast, two_pow_cast]

theorem ofNat_bitsOfInt (w : Nat) (n : Int) : BitVec.ofNat w (bitsOfInt w n) = BitVec.ofInt w n := by
  apply BitVec.eq_of_toNat_eq
  rw [BitVec.toNat_ofNat, Nat.mod_eq_of_lt (bitsOfInt_lt _ _), BitVec.toNat_ofInt, bitsOfInt]

/-- An integer in the range of a type is the value of its bits. -/
theorem intVal_bitsOfInt (t : Ty) {n : Int} (hlo : Ty.lo t ≤ n) (hhi : n ≤ Ty.hi t) : intVal t (bitsOfInt t.width n) = n := by
  rw [lo_eq] at hlo
  rw [hi_eq] at hhi
  rw [intVal]
  by_cases hs : t.isSigned = true
  · rw [if_pos hs] at hlo hhi ⊢
    rw [ofNat_bitsOfInt]
    exact BitVec.toInt_ofInt_eq_self (one_le_width t) hlo (Int.lt_of_le_sub_one hhi)
  · rw [if_neg hs] at hlo hhi ⊢
    rw [bitsOfInt, two_pow_cast, Int.emod_eq_of_lt hlo (Int.lt_of_le_sub_one hhi), Int.toNat_of_nonneg hlo]

theorem rneInt_zero (m : Nat) : rneInt m 0 = m := by
  rw [rneInt, if_pos (Int.le_refl 0)]
  exact Nat.mul_one m

theorem toIntSat_fin (t : Ty) (neg : Bool) (m : Nat) (e : Int) : toIntSat t (.fin neg m e) = clampI (Ty.lo t) (Ty.hi t) (signed neg (rneInt m e)) := rfl

theorem toIntSat_ofInt (t : Ty) (n : Int) : toIntSat t (ofInt n 0) = clampI (Ty.lo t) (Ty.hi t) n := by
  rw [ofInt, toIntSat_fin, rneInt_zero, signed_natAbs]

theorem nearestInt_signed {n : Int} {k : Nat} {t : Int} (neg : Bool) (h : NearestInt n k t) : NearestInt (signed neg n) k (signed neg t) := by
  cases neg
  · exact h
  · exact nearestInt_neg h

/-- A finite encoding becomes the nearest integer, clamped. -/
theorem toIntSat_decodeF {f : Fmt} (hf : IsFormat f) {b : Nat} (hb : finEnc f b) (t : Ty) :
    ∃ n : Int, NearestInt (units f b) (unitExp f) n ∧ toIntSat t (decodeF f b) = clampI (Ty.lo t) (Ty.hi t) n := by
  obtain ⟨m, e, hd, he, hm⟩ := decodeF_of_finEnc hf hb
  refine ⟨signed (decide (negEnc f b)) (rneInt m e), ?_, by rw [hd, toIntSat_fin]⟩
  rw [units_eq, hm]
  exact nearestInt_signed _ (nearest_rneInt m he)

section Conversions
variable {src ty : Ty} {b : Nat}

theorem convert_to_float (ht : ty.isFloat = true) : convert src ty b = encodeF (fmtOf ty) (valOf src b) := if_pos ht

theorem convert_to_int (ht : ty.isInt = true) : convert src ty b = bitsOfInt ty.width (toIntSat ty (valOf src b)) := by
  rw [convert, elemOf, isFloat_eq_false ht]
  exact if_neg Bool.false_ne_true

theorem valOf_float (hs : src.isFloat = true) : valOf src b = decodeF (fmtOf src) b := if_pos hs

theorem valOf_int (hs : src.isInt = true) (hb : b < 2 ^ src.width) : valOf src b = ofInt (intVal src b) 0 := by
  rw [valOf, isFloat_eq_false hs, intOf_eq_intVal src hb]
  exact if_neg Bool.false_ne_true

theorem convert_lt (ht : ty.isInt = true) : convert src ty b < 2 ^ ty.width := by
  rw [convert_to_int ht]
  exact bitsOfInt_lt _ _

theorem intVal_convert (ht : ty.isInt = true) : intVal ty (convert src ty b) = toIntSat ty (valOf src b) := by
  obtain ⟨hlo, hhi⟩ := toIntSat_mem ty (valOf src b)
  rw [convert_to_int ht, intVal_bitsOfInt ty hlo hhi]

theorem convert_int_int (hs : src.isInt = true) (ht : ty.isInt = true) (hb : b < 2 ^ src.width) :
    intVal ty (convert src ty b) = clampI (Ty.lo ty) (Ty.hi ty) (intVal src b) := by
  rw [intVal_convert ht, valOf_int hs hb, toIntSat_ofInt]

theorem convert_int_float_rounds (hs : src.isInt = true) (ht : ty.isFloat = true) (hb : b < 2 ^ src.width) :
    RoundedTo (fmtOf ty) (intVal src b * 2 ^ unitExp (fmtOf ty)) 0 (convert src ty b) ∧ (intVal src b = 0 → convert src ty b = 0) := by
  rw [convert_to_float ht, valOf_int hs hb, ofInt]
  refine ⟨roundedTo_encodeF (isFormat_fmtOf ty) ?_, fun h => by rw [h]; rfl⟩
  have h := stands_ofInt (unitExp (fmtOf ty)) 0 (intVal src b) (e := 0) (by omega)
  have hexp : (0 + (unitExp (fmtOf ty) : Int) + (0 : Nat)).toNat = unitExp (fmtOf ty) := by omega
  rwa [hexp] at h

theorem convert_float_float_rounds (hs : src.isFloat = true) (ht : ty.isFloat = true) (hb : finEnc (fmtOf src) b) :
    RoundedTo (fmtOf ty) (units (fmtOf src) b * 2 ^ unitExp (fmtOf ty)) (unitExp (fmtOf src)) (convert src ty b) ∧
      (units (fmtOf src) b = 0 → convert src ty b = zeroEnc (fmtOf ty) (negEnc (fmtOf src) b)) := by
  obtain ⟨m, e, hd, hx⟩ := decodeF_stands (isFormat_fmtOf src) hb
  rw [convert_to_float ht, valOf_float hs, hd]
  exact ⟨roundedTo_encodeF (isFormat_fmtOf ty) (stands_shift hx _ (by omega)), fun h => encodeF_of_stands_zero hx h fun _ => decide_eq_true_iff⟩

theorem convert_float_float_special (hs : src.isFloat = true) (ht : ty.isFloat = true) :
    (isNan (fmtOf src) b = true → convert src ty b = (fmtOf ty).nan) ∧
    (b = (fmtOf src).inf → convert src ty b = (fmtOf ty).inf) ∧
    (b = (fmtOf src).inf + (fmtOf src).sign → convert src ty b = (fmtOf ty).inf + (fmtOf ty).sign) := by
  rw [convert_to_float ht, valOf_float hs]
  refine ⟨fun h => ?_, fun h => ?_, fun h => ?_⟩
  · rw [decodeF_of_isNan h, encodeF]
  · rw [h, decodeF_inf, encodeF_inf]
  · rw [h, decodeF_neg_inf, encodeF_neg_inf]

theorem convert_float_int_rounds (hs : src.isFloat = true) (ht : ty.isInt = true) (hb : finEnc (fmtOf src) b) :
    ∃ t, NearestInt (units (fmtOf src) b) (unitExp (fmtOf src)) t ∧ intVal ty (convert src ty b) = clampI (Ty.lo ty) (Ty.hi ty) t := by
  rw [intVal_convert ht, valOf_float hs]
  exact toIntSat_decodeF (isFormat_fmtOf src) hb ty

theorem convert_float_int_special (hs : src.isFloat = true) (ht : ty.isInt = true) :
    (isNan (fmtOf src) b = true → intVal ty (convert src ty b) = 0) ∧
    (b = (fmtOf src).inf → intVal ty (convert src ty b) = Ty.hi ty) ∧
    (b = (fmtOf src).inf + (fmtOf src).sign → intVal ty (convert src ty b) = Ty.lo ty) := by
  rw [intVal_convert ht, valOf_float hs]
  refine ⟨fun h => ?_, fun h => ?_, fun h => ?_⟩
  · rw [decodeF_of_isNan h, toIntSat]
  · rw [h, decodeF_inf]
    rfl
  · rw [h, decodeF_neg_inf]
    rfl

end Conversions

/-- Settles O8: `roundF` takes the nearest multiple of the binade's step to its exact argument, and every operation and conversion hands it the exact result. -/
theorem roundsToNearestEven : Obligations.RoundsToNearestEven := by
  unfold Obligations.RoundsToNearestEven
  refine ⟨nearestInt_rneShift, toInt_sraW, fun lo hi n h => ?_, fun f hf => ⟨encodeF_fin hf, fun a _ ha => ?_, ?_⟩, fun src ty b hb => ⟨?_, ?_, ?_⟩⟩
  · obtain ⟨hlo, hhi⟩ := clampI_mem h n
    exact ⟨hlo, hhi, clampI_of_mem, fun m => clampI_nearest n⟩
  · obtain ⟨m, e, hd, he, hm⟩ := decodeF_of_finEnc hf ha
    exact ⟨m, e, hd, he, units_of_magUnits hm⟩
  · intro a b e _ _ _ ha hb he
    obtain ⟨hadd, hadd0⟩ := addF_rounds hf ha hb
    obtain ⟨hsub, hsub0⟩ := subF_rounds hf ha hb
    obtain ⟨hmul, hmul0⟩ := mulF_rounds hf ha hb
    exact ⟨hadd, hadd0, hsub, hsub0, hmul, hmul0, fmaF_rounds hf ha hb he⟩
  · exact fun hs ht => ⟨convert_float_float_rounds hs ht, convert_float_float_special hs ht⟩
  · exact fun hs ht => convert_int_float_rounds hs ht hb
  · intro ht
    rw [← lo_eq, ← hi_eq]
    exact ⟨convert_lt ht, fun hs => convert_int_int hs ht hb, fun hs => ⟨convert_float_int_rounds hs ht, convert_float_int_special hs ht⟩⟩

end Sys2Proof.Rounding
end

section
/-!
PROOFS. The scalar forms that write one register from two (spec/05 R88 to R90): what `alu` leaves behind, and the tabled value of each form.
-/
namespace Sys2Proof.ScalarForms
open Sys2Proof.Machine Sys2Proof.Claims Sys2Proof.Rounding

/-! ### The frame -/

/-- Registers are read at issue (R89), so the SET counter that has gone up by then is not seen by the operands. -/
theorem getS_setUp (x : Strand) (c : Common) (r : SReg) : getS (setUp x c) r = getS x r := by simp only [getS, setUp_s]

/-- A form that goes through `alu` completes with the value of its function, and changes nothing else. -/
theorem gives_alu {i : Instr} {c : Common} {d a b : SReg} {f : Word → Word → Word} {s : State} {v : Word}
    (hexec : exec i s = alu i c d a b f s) (hv : f (getS (me s) a) (getS (me s) b) = v) : Gives i c s (ResultS c s d v) := by
  intro hready
  subst hv
  unfold Completes
  rw [hexec]
  exact issue_setS hready d (fun x => f (getS x a) (getS x b)) (by simp only [getS_setUp])

/-! ### Shifts (spec/05 R89) -/

/-- The product by which R89 gives the scaled index of ADDX: it and the shift both drop what passes bit 63. -/
theorem shiftLeft_eq_mul_ofNat (x : Word) (n : Nat) : x <<< n = x * BitVec.ofNat 64 (2 ^ n) := by
  rw [BitVec.shiftLeft_eq_mul_twoPow]
  congr 1
  exact BitVec.eq_of_toNat_eq (by rw [BitVec.toNat_twoPow, BitVec.toNat_ofNat])

/-- An arithmetic shift by 63 leaves the sign bit alone, in every position. -/
theorem sshiftRight_63 (x : Word) : x.sshiftRight 63 = if x.msb then BitVec.allOnes 64 else 0 := by
  apply BitVec.eq_of_toInt_eq
  rw [BitVec.toInt_sshiftRight, Int.shiftRight_eq_div_pow, two_pow_cast, ediv_of_small (BitVec.le_toInt x) BitVec.toInt_lt, BitVec.msb_eq_toInt]
  simp only [decide_eq_true_eq]
  split <;> rfl

theorem sraW_eq (p q : Word) :
    sraW p q = if 64 ≤ q.toNat then (if p.msb then BitVec.allOnes 64 else 0) else p.sshiftRight q.toNat := by
  rw [sraW]
  split
  · next h => rw [Nat.min_eq_right (by omega), sshiftRight_63]
  · next h => rw [Nat.min_eq_left (by omega)]

/-! ### Minimum and maximum (spec/05 R89) -/

/-- A choice may test a weaker condition where both sides are equal whenever the two conditions differ. -/
theorem ite_congr_of_imp {α : Type} {P Q : Prop} [Decidable P] [Decidable Q] {x y : α} (himp : P → Q) (heq : Q → ¬P → x = y) :
    (if P then y else x) = if Q then y else x := by
  by_cases hP : P
  · rw [if_pos hP, if_pos (himp hP)]
  · by_cases hQ : Q
    · rw [if_neg hP, if_pos hQ, heq hQ hP]
    · rw [if_neg hP, if_neg hQ]

theorem minS_eq (p q : Word) : minS p q = if p.toInt ≤ q.toInt then p else q := by
  simp only [minS, BitVec.slt_iff_toInt_lt, ← Int.not_le, ite_not]

theorem maxS_eq (p q : Word) : maxS p q = if p.toInt ≤ q.toInt then q else p := by
  simp only [maxS, BitVec.slt_iff_toInt_lt]
  exact ite_congr_of_imp Int.le_of_lt fun hle hlt => BitVec.eq_of_toInt_eq (Int.le_antisymm hle (Int.not_lt.mp hlt))

theorem minZ_eq (p q : Word) : minZ p q = if p.toNat ≤ q.toNat then p else q := by
  simp only [minZ, BitVec.ult_iff_toNat_lt, ← Nat.not_le, ite_not]

theorem maxZ_eq (p q : Word) : maxZ p q = if p.toNat ≤ q.toNat then q else p := by
  simp only [maxZ, BitVec.ult_iff_toNat_lt]
  exact ite_congr_of_imp Nat.le_of_lt fun hle hlt => BitVec.eq_of_toNat_eq (Nat.le_antisymm hle (Nat.not_lt.mp hlt))

/-! ### Division (spec/05 R89, R90) -/

/-- The remainder is what the quotient leaves, also where the quotient wraps. -/
theorem remS_eq {p q : Word} (hq : q ≠ 0) : remS p q = p - q * BitVec.ofInt 64 (p.toInt.tdiv q.toInt) := by
  have hsum : p.toInt.tmod q.toInt + q.toInt * p.toInt.tdiv q.toInt = p.toInt := Int.tmod_add_mul_tdiv p.toInt q.toInt
  have hword := congrArg (BitVec.ofInt 64) hsum
  rw [BitVec.ofInt_add, BitVec.ofInt_mul, BitVec.ofInt_toInt, BitVec.ofInt_toInt] at hword
  rw [remS, if_neg hq, BitVec.eq_sub_iff_add_eq, hword]

theorem remZ_eq {p q : Word} (hq : q ≠ 0) : remZ p q = p - q * BitVec.ofNat 64 (p.toNat / q.toNat) := by
  have hsum : p.toNat % q.toNat + q.toNat * (p.toNat / q.toNat) = p.toNat := Nat.mod_add_div p.toNat q.toNat
  have hword := congrArg (BitVec.ofNat 64) hsum
  rw [BitVec.ofNat_add, BitVec.ofNat_mul, BitVec.ofNat_toNat, BitVec.ofNat_toNat, BitVec.setWidth_eq, BitVec.setWidth_eq] at hword
  rw [remZ, if_neg hq, BitVec.eq_sub_iff_add_eq, hword]

/-- Settles O1: every form goes through `alu`, whose frame `issue_setS` gives, and the value of each function is the tabled one. -/
theorem scalarArithmetic : Obligations.ScalarArithmetic := by
  unfold Obligations.ScalarArithmetic
  intro c s d a b p q
  refine ⟨gives_alu (exec_add c d a b s) rfl, gives_alu (exec_sub c d a b s) rfl, gives_alu (exec_mul c d a b s) rfl,
    gives_alu (exec_mulh c d a b s) rfl, gives_alu (exec_mulhz c d a b s) rfl, fun k sh => ?addx,
    gives_alu (exec_and c d a b s) rfl, gives_alu (exec_or c d a b s) rfl, gives_alu (exec_xor c d a b s) rfl,
    gives_alu (exec_shl c d a b s) rfl, gives_alu (exec_shr c d a b s) rfl, gives_alu (exec_sra c d a b s) (sraW_eq p q),
    gives_alu (exec_min c d a b s) (minS_eq p q), gives_alu (exec_max c d a b s) (maxS_eq p q),
    gives_alu (exec_minz c d a b s) (minZ_eq p q), gives_alu (exec_maxz c d a b s) (maxZ_eq p q), fun hq _ => ?signed, fun hq => ?unsigned⟩
  case addx => exact gives_alu (exec_addx c k sh d a b s) (congrArg (p + ·) (shiftLeft_eq_mul_ofNat (indexOf k q) sh.toNat))
  case signed => exact ⟨gives_alu (exec_div c d a b s) (if_neg hq), gives_alu (exec_rem c d a b s) (remS_eq hq)⟩
  case unsigned => exact ⟨gives_alu (exec_divz c d a b s) (if_neg hq), gives_alu (exec_remz c d a b s) (remZ_eq hq)⟩

end Sys2Proof.ScalarForms
end
